-- ==== Sys2Proof/Word.lean ====
section
/-! DEFINITION. The word types: bytes, 32-bit register words (R11), and the wider counters. -/

namespace Sys2Proof

/-- One byte of a frame, a buffer or the record store. -/
abbrev Byte := BitVec 8

/-- One register word (R11). -/
abbrev Word := BitVec 32

end Sys2Proof
end

