-- ==== Sys2Proof/Syntax.lean ====
section
/-! DEFINITION. The commands: one constructor of `Instr` per row of spec/opcode_table.json.
The table gives no operand fields, so each constructor carries the operands its rule names. -/

namespace Sys2Proof

/-- A tenant: 0–3 are T0–T3, 4 is the service tenant TS (Table 0.2). -/
abbrev Ten := Fin 5

/-- A ring port (R123). -/
inductive RPort where
  | up | dn
deriving DecidableEq, Repr

/-- Where a frame reached the protocol front (R15). -/
inductive FPort where
  | host | up | dn
deriving DecidableEq, Repr

/-- One of the two dies (R15). -/
inductive Die where
  | rack | board
deriving DecidableEq, Repr

/-- Packet direction across the barrier. -/
inductive Dir where
  | fwd | bwd
deriving DecidableEq, Repr

/-- The acknowledgement of a packet (chapter 11, Packets). -/
inductive Verdict where
  | accept | discard | reject
deriving DecidableEq, Repr

/-- The three counted link errors (R125, R143). -/
inductive LinkErr where
  | parity | escape | credit
deriving DecidableEq, Repr

/-- How the reply to a request leaves (R130, R167): the port it came from, its form and the header
fields a reply returns. -/
structure Route where
  port : FPort
  ring : Bool
  orig : BitVec 6
  seq : BitVec 16
  urg : Bool
deriving DecidableEq, Repr

/-- Who asks for an operation, in which generation and queue, and how the answer is labelled
(R157, Tables 8.5, 8.6, 8.9). -/
structure Req where
  ten : Ten
  gen : Fin 4
  queue : Fin 4
  tag : BitVec 16
  quiet : Bool
  route : Route
deriving DecidableEq, Repr

/-- The data of a WRBLK or ETX (R161): inline bytes or a buffer list. -/
inductive Source where
  | inline (bytes : List Byte)
  | list (buf : BitVec 16)
deriving DecidableEq, Repr

/-- An edge on an engine input (R266), with what the line then shows. -/
inductive EngEdge where
  | ackActive (data : Byte)
  | ackInactive
  | rxChar (ch : BitVec 9) (parity framing brk : Bool)
  | rxIdle
  | cts (active : Bool)
  | slaveByte (rx : Byte)
  | sel (high : Bool)
  | twoAck
  | twoNack
  | twoByte (rx : Byte)
  | arbLost
deriving DecidableEq, Repr

/-- What ran out at an ENGINE_TIMEOUT (R265). -/
inductive EngLimit where
  | tmo | tack | tstretch
deriving DecidableEq, Repr

/-- The stop causes of Table 13.4 that a command names. -/
inductive StopCause where
  | tenantReset | miss | laneCause | bank | absent | reset
deriving DecidableEq, Repr

/-- Why an identity read starts (R328). -/
inductive IdReason where
  | attach | startup | boardReset | vb3Return | imageChange
deriving DecidableEq, Repr

/-- How the 256-byte EEPROM read ended (R331). -/
inductive EeEnd where
  | noAck
  | busError
  | data (bytes : List Byte)
deriving DecidableEq, Repr

/-- The straps, pins and board state that start-up finds (Table 5.2, R52, R256). -/
structure StartPins where
  headLow : Bool
  hostsel : Fin 4
  rstHigh : Bool
  boardUp : Bool
  prsLow : Bool
  lanes : BitVec 32
  vb : BitVec 4
  failMask : BitVec 32
deriving DecidableEq, Repr

/-- The commands of the block, in the table's order. -/
inductive Instr where
  | sendRing (bytes : List Byte)
  | sendShort (bytes : List Byte)
  | fetch (shifted : Nat)
  | stat
  | unknownCommand (cmd : Byte)
  | length (short : Bool) (bytes : List Byte)
  | ringFrame (port : RPort) (bytes : List Byte) (eop2 : Bool)
  | rollCallHoldoffExpiry
  | rollCallStart
  | sweepLostTimeout
  | ringNoHead
  | silentExpiry (port : RPort)
  | linkStartTimeout (port : RPort)
  | null (port : RPort)
  | fct (port : RPort)
  | disconnect (port : RPort)
  | linkError (port : RPort) (kind : LinkErr)
  | roll (ten : Ten)
  | portEnable (ten : Ten) (upEn dnEn : Bool)
  | tqaGrant
  | freeze (ten : Ten) (on : Bool)
  | tqaPrioWrite (ten : Ten) (second : Bool) (value : Word)
  | bxaGrant
  | pmodeWrite (ten : Ten) (emergencyOnly : Bool)
  | slotAck (dir : Dir) (verdict : Verdict) (ns16 : Nat)
  | silentSlotTimeout
  | barrierPark
  | barrierWake
  | opPacket
  | result
  | abortAck
  | holdup
  | statusPage0
  | statusPage1
  | statusPage2
  | statusPage3
  | statusPage4
  | statusPage5
  | swapReport
  | eepromDataPage
  | statusPeriod
  | paceMeasurement (die : Die) (pace : BitVec 16)
  | table
  | timeChunk
  | pairChunk
  | swap
  | breset
  | boardDieRestart
  | tabort
  | lanecmdReturn
  | lanecmdForce
  | lanecmdRelease
  | lanecmdReaction
  | replay
  | debug (write : Bool) (addr value : Word)
  | lamplighterTref
  | keepaliveTimer
  | refresh
  | missWindowExpiry
  | holdTExpiry (lane : Fin 32)
  | directInputEdge (ch : Fin 8) (level : Bool)
  | directRefreshTimer (ch : Fin 8)
  | directPulse (ch : Fin 8) (level : Bool)
  | directFs (ch : Fin 8)
  | beaconSymbol (die : Die) (sym : Byte)
  | beaconLostB
  | beaconAliveReturn
  | rackLost
  | rackBeaconReturn
  | cmtEvent (kvPerUs : Nat)
  | barReturn (ten : Ten) (mask : BitVec 32)
  | barForce (ten : Ten) (mask : BitVec 32)
  | conflictWindowEnd (lane : Fin 32)
  | laneMismatch (lane : Fin 32)
  | levelInChange (lane : Fin 32) (level : Bool)
  | boardAttach
  | boardDetach
  | etx (req : Req) (addr : Word) (dlen : Nat) (src : Source) (tmo value mask : Word)
  | erx (req : Req) (addr : Word) (dlen : Nat) (tmo value mask : Word)
  | engTxw (ten : Ten) (eng : Fin 8) (value : Word)
  | engRxw (ten : Ten) (eng : Fin 8)
  | engOcw (ten : Ten) (eng : Fin 8) (value : Word)
  | flushRx (ten : Ten) (eng : Fin 8)
  | engineTimer (eng : Fin 8)
  | engineInputEdge (eng : Fin 8) (edge : EngEdge)
  | engineTimeout (eng : Fin 8) (limit : EngLimit)
  | ocwSample (eng : Fin 8) (levels : Byte)
  | pulseInputEdge (eng : Fin 8) (index : Fin 4) (level : Bool)
  | pulseRecordDue (eng : Fin 8)
  | engineStop (eng : Fin 8) (cause : StopCause)
  | idleSequence (eng : Fin 8)
  | gen1Read (req : Req) (addr : Word)
  | gen1Write (req : Req) (addr value : Word)
  | rd32 (req : Req) (addr : Word)
  | wr32 (req : Req) (addr value : Word)
  | rmw32 (req : Req) (addr value mask : Word)
  | rdblk (req : Req) (addr : Word) (dlen : Nat)
  | wrblk (req : Req) (addr : Word) (dlen : Nat) (src : Source)
  | free (req : Req) (buf : BitVec 16) (count : Nat)
  | fence (req : Req)
  | fenceDone (ten : Ten)
  | set (req : Req) (addr value : Word)
  | clr (req : Req) (addr value : Word)
  | tenReset (ten page : Ten) (key : BitVec 16)
  | tresetSlow (ten : Ten)
  | board (ten : Ten) (key : BitVec 16)
  | soft (ten : Ten) (key : BitVec 16)
  | softResetDeferredStart
  | releaseLanes (ten : Ten) (key : BitVec 16)
  | powerOn (pins : StartPins)
  | vddaCollapse
  | rstnLow
  | rstnHigh (pins : StartPins) (lowSeconds : Nat)
  | rstnStuck (pins : StartPins)
  | rearm
  | boardNoReturn
  | brownNoticeBegin (a b : Bool)
  | brownNoticeEnd (minA durA minB durB : Nat)
  | brownLong (min dur : Nat)
  | vddbCollapse
  | holdupEnd
  | bankDown (bank : Fin 4)
  | bankUp (bank : Fin 4)
  | bankLow (bank : Fin 4)
  | holdbLow
  | standby (ten : Ten)
  | dormant (ten : Ten)
  | active (ten : Ten)
  | hcsnWake
  | extest
  | samplePreload (load : Option Nat)
  | idcode
  | highz
  | clamp
  | fuseRead (word : Fin 32)
  | fuseProg (word : Fin 32) (value : Word) (inRange verified : Bool)
  | lcAdvance (target : Fin 4) (token : Option (List Byte))
  | dbg
  | vchal
  | vchalResponse (resp : List Byte)
  | vchalHoldExpiry
  | bypass (opcode : BitVec 6)
  | trstnLow
  | faultRaise (source : Fin 96) (domain : Fin 6) (detail addr : Word)
  | wireFault (source : Fin 96) (domain : Fin 6)
  | fltAck (ten : Ten) (source : BitVec 7) (domain : BitVec 3)
  | fltFkey (ten : Ten) (key : BitVec 16)
  | forceRaise (ten : Ten) (source : BitVec 7) (domain : BitVec 3)
  | forceWire00 (ten : Ten) (source : BitVec 7) (domain : BitVec 3)
  | forceWire11 (ten : Ten) (source : BitVec 7) (domain : BitVec 3)
  | quietEnd (domain : Fin 6) (cls : Fin 3)
  | wrenToggle
  | tpi
  | referenceLoss
  | tholdMaxExpiry
  | crystalLost
  | crystalRestored
  | timeSend
  | tpoRise
  | tpoFall
  | timSetHi (ten : Ten) (value : Word)
  | timNextHi (ten : Ten) (value : Word)
  | timNowLoRead (ten : Ten)
  | timMonoLoRead (ten : Ten)
  | slewDone
  | identityRead (reason : IdReason)
  | strapPhaseEnd (levels : Byte)
  | idsConversion (ratio : Nat)
  | eepromReadDone (how : EeEnd)
  | idnWb (ten : Ten) (note : Bool) (key : BitVec 16)
  | writebackStart
  | writebackPoll (ack : Bool)
  | writebackTimeout
  | writebackVerify (bytes : List Byte)
  | ckFeed (ten : Ten) (unit : Fin 4) (value : Word)
  | start (ten : Ten) (unit : Fin 4)
  | ckRunWrite (ten : Ten) (unit : Fin 4) (value : Word)
  | selfTest (fixedOk : BitVec 7) (unitOk : BitVec 4)
  | windowWrite (ten : Ten) (offset : BitVec 18) (value : Word)
  | windowLineCommitStart
  | lineCommitDone
  | logLineCommit
  | recnMark
  | logMark (ten : Ten) (value : BitVec 16)
  | logFreeze (ten : Ten) (key : BitVec 16)
  | arm (ten : Ten) (key : BitVec 16)
  | load (ten : Ten) (key : BitVec 16)
  | go (ten : Ten) (key : BitVec 16)
  | abort (ten : Ten) (key : BitVec 16)
  | rwaitExpiry
  | epochCut
  | epochNoack
  | startTake
  | silence (pairnHigh : Bool)
  | heldSilentTakeover
  | forcedTakeover
  | handover (ten : Ten) (key : BitVec 16)
  | releaseAckWaitEnd
  | hot (ten : Ten) (key : BitVec 16)
  | cold (ten : Ten) (key : BitVec 16) (bank : Bool)
  | check (ten : Ten) (key : BitVec 16) (bank : Bool)
  | weaveDeferredStart
  | registerWrite (ten : Ten) (addr value : Word)
  | boardDiePowerOn (prsLow : Bool)
  | wireFaultClear (source : Fin 96)
deriving DecidableEq, Repr

end Sys2Proof
end

