-- ==== Sys2Proof/Config.lean ====
section
/-! DEFINITION. What the spec leaves open: values nothing in Lean can evaluate. -/

namespace Sys2Proof

/-- The n-th open value the machine draws (log entry 2): nothing constrains it. State holds the counter
`freeCtr` that a drawing command reads and advances. -/
opaque Config.free : Nat → BitVec 32

end Sys2Proof
end

