-- ==== Sys2Proof/Machine/State.lean ====
section
/-! DEFINITION. The state of the VN5124 as plain data: every register, queue, counter, mode and pin the
spec gives the block, one structure for each chapter, and the machine right after reset. -/

namespace Sys2Proof.Machine

/-- A sparse table: entries at strictly rising indexes; an index not listed holds the table's default. -/
abbrev Tbl (α : Type) := List (Nat × α)

/-- Byte memory: entries at strictly rising addresses, none equal to 0; a byte not listed reads 0
(DESIGN CHOICE, log entry 4). -/
abbrev Mem := List Host.Cell

/-! ## The woven image (chapter 20, Table 20.3) -/

/-- One I/O bank of the LANES section. -/
structure BankCfg where
  thr : Nat := 0
  red : Bool := false
deriving DecidableEq, Repr, Inhabited

/-- One lane of the LANES section (Table 20.3, reset values of Table 12.9). -/
structure LaneCfg where
  mode : Nat := 0
  od : Bool := false
  filt : Nat := 0
  owners : BitVec 5 := 0
  policy : Nat := 0
  cwin : Nat := 10
deriving DecidableEq, Repr, Inhabited

/-- One engine of the ENGINES section (reset values of Table 13.10). -/
structure EngCfg where
  mode : Nat := 0
  owner : Nat := 0
  gbase : Nat := 0
  gcount : Nat := 0
  roles : BitVec 32 := 0
  tim0 : BitVec 32 := 0
  tim1 : BitVec 32 := 0
  tmo : Nat := 100
deriving DecidableEq, Repr, Inhabited

/-- One Gen3 stream of a tenant record. `alive` is the counter's width code: 0 none, 1 4-bit, 2 8-bit,
3 16-bit. -/
structure StreamCfg where
  queue : Nat := 0
  ck : Nat := 0
  alive : Nat := 0
  gap : Nat := 0
  seed : BitVec 32 := 0
deriving DecidableEq, Repr, Inhabited

/-- One tenant record of the TENANTS section. -/
structure TenCfg where
  gen : Nat := 0
  minT : Nat := 0
  maxT : Nat := 0
  minB : Nat := 0
  maxB : Nat := 0
  streams : List StreamCfg := []
deriving DecidableEq, Repr, Inhabited

/-- The ARBITER section. -/
structure ArbCfg where
  weight : List Nat := []
  level : Nat := 0x5757575757
  cap : List Nat := []
  bgw : List Nat := []
  pmode : Nat := 0
  grate : List Nat := []
  slot : List Nat := []
deriving DecidableEq, Repr, Inhabited

/-- Fail-safe settings of a lane or a direct channel (FAILSAFE section). -/
structure FsCfg where
  fsv : Nat := 0
  second : Nat := 0
  auto : Bool := false
  holdT : Nat := 0
deriving DecidableEq, Repr, Inhabited

/-- One check-value unit of the CHECK section (reset values of Table 14.8). -/
structure CkCfg where
  width : Nat := 0
  refin : Bool := false
  refout : Bool := false
  fowner : Nat := 7
  alw : Nat := 0
  gap : Nat := 0
  engine : Nat := 0
  en : Bool := false
  dir : Bool := false
  order : Bool := false
  aoff : Nat := 0
  poly : BitVec 32 := 0
  init : BitVec 32 := 0
  xorout : BitVec 32 := 0
  ref : BitVec 32 := 0
deriving DecidableEq, Repr, Inhabited

/-- The FAULT section; `react` holds the reaction words that are set (an index not listed: default). -/
structure FltCfg where
  qc : Nat := 10
  qu : Nat := 10
  qf : Nat := 10
  flimit : Nat := 3
  naddr : List Nat := []
  lgrp : List (BitVec 32) := []
  react : Tbl Nat := []
deriving DecidableEq, Repr, Inhabited

/-- The TIME section (reset values of Table 16.5). -/
structure TimeCfg where
  srcTpi : Bool := true
  srcRing : Bool := false
  master : Bool := false
  xtal : Bool := false
  msrc : Nat := 0
  slewmax : Nat := 100
  tper : Nat := 1000
  tpoper : Nat := 1000
  tmper : Nat := 1000
  tholdMax : Nat := 60
  stepthr : Nat := 100
  tpow : Nat := 100
  tpooff : Int := 0
  upDly : Nat := 0
  dnDly : Nat := 0
deriving DecidableEq, Repr, Inhabited

/-- The IDENTITY section (reset values of Table 17.10). -/
structure IdCfg where
  eeEn : Bool := false
  idsEn : Bool := false
  strapEn : Bool := false
  autowb : Bool := false
  addrw : Bool := false
  chkbank : Bool := false
  rate : Nat := 1
  page : Nat := 1
  devaddr : Nat := 0x50
  strapMask : BitVec 8 := 0
  expSet : BitVec 3 := 0
  expIds : Nat := 0
  expH : BitVec 8 := 0
  expZ : BitVec 8 := 0
  expProfile : BitVec 32 := 0
  require : BitVec 3 := 0
deriving DecidableEq, Repr, Inhabited

/-- The PAIR section. `eper` is in units of 0.1 ms. -/
structure PairCfg where
  en : Bool := false
  prefer : Bool := false
  eper : Nat := 10
  serial : BitVec 64 := 0
deriving DecidableEq, Repr, Inhabited

/-- The LOG section (reset values of Table 18.9). -/
structure LogCfg where
  mode : Nat := 0
  tclass : Nat := 0
  rectrig : Bool := false
  recen : Bool := false
  post : Nat := 256
  pre : Nat := 0
  rwait : Nat := 1000
deriving DecidableEq, Repr, Inhabited

/-- The settings of a loom image: the fourteen sections of Table 20.2 at the values woven. -/
structure Cfg where
  banks : List BankCfg := []
  tsettle : Nat := 100
  ranks : BitVec 15 := 0x029C
  lanes : List LaneCfg := []
  engs : List EngCfg := []
  tenmask : BitVec 5 := 0b10000
  shortTen : Nat := 4
  tens : List TenCfg := []
  arb : ArbCfg := {}
  tref : Nat := 8
  nmiss : Nat := 3
  fs : List FsCfg := []
  dfs : List FsCfg := []
  cks : List CkCfg := []
  flt : FltCfg := {}
  time : TimeCfg := {}
  id : IdCfg := {}
  pair : PairCfg := {}
  log : LogCfg := {}
  dirEn : BitVec 8 := 0
  dirBA : BitVec 8 := 0
  addrs : List (BitVec 64 × Nat) := []
  vwarnA : Nat := 0
  vwarnB : Nat := 0
  banknom : BitVec 16 := 0
  imageId : BitVec 32 := 0
  imgcrc : BitVec 32 := 0
deriving DecidableEq, Repr, Inhabited

/-! ## Operations, tickets and packets -/

/-- What an operation does (Table 8.7, Table 8.9). -/
inductive OpKind where
  | rd | wr | rmw | set | clr | rdblk | wrblk | erx | etx | free | fence | tabort
deriving DecidableEq, Repr, Inhabited

/-- An operation as accepted by the protocol front. `inl` holds inline data, `inlineB` says the data came
inline, `buf` the list named; `msg`/`item` tie a Gen3 item to its message. -/
structure Op where
  kind : OpKind
  req : Req
  addr : BitVec 32 := 0
  value : BitVec 32 := 0
  mask : BitVec 32 := 0
  dlen : Nat := 0
  tmo : Nat := 0
  inlineB : Bool := false
  inl : List Byte := []
  buf : Nat := 0xFFFF
  msg : Option Nat := none
  item : Nat := 0
deriving DecidableEq, Repr

/-- Ticket states of Table 9.2. -/
inductive TktState where
  | free | queued | issued | quarantined
deriving DecidableEq, Repr, Inhabited

/-- A ticket: its tag (Table 9.11) and the operation it carries. `bufs` are the buffers taken, in list
order, `pins` the buffers it pins, `sent` what has left for the board die; `rx` holds the bytes received, or for a bound
ETX the data bytes folded so far. `bind` is the check unit bound to its operation, with the parameters and the alive
counter it began with (R283, R284, R290). -/
structure Ticket where
  st : TktState := .free
  ten : Nat := 0
  queue : Nat := 0
  icount : Nat := 0
  board : Bool := false
  op : Option Op := none
  bufs : List Nat := []
  pins : List Nat := []
  rx : List Byte := []
  seqNo : Nat := 0
  crossed : Bool := false
  sent : Nat := 0
  bind : Option (Nat × CkCfg × Nat) := none
deriving DecidableEq, Repr, Inhabited

/-- A buffer's tag (Table 9.11) and its pin count. -/
structure BufTag where
  next : Nat := 0
  last : Bool := false
  owned : Bool := false
  pin : Nat := 0
  ten : Nat := 0
  ticket : Nat := 0
deriving DecidableEq, Repr, Inhabited

/-- What the rack die can see of a lane (BAR_LANEn, Table 11.13). -/
structure LaneView where
  cause : BitVec 7 := 0
  armed : Bool := false
  stage : Nat := 0
  level : Bool := false
deriving DecidableEq, Repr, Inhabited

/-- A board-side raise as STATUS page 3 carries it (Table 15.2). -/
structure BEvent where
  source : Nat
  wire : Bool
  dom : Nat
  detail : Nat
deriving DecidableEq, Repr

/-- The identity summary of STATUS page 4 (chapter 17). -/
structure IdSummary where
  ids : Nat := 31
  strapH : BitVec 8 := 0
  strapZ : BitVec 8 := 0
  eestat : Nat := 0
  phase : Nat := 0
deriving DecidableEq, Repr, Inhabited

/-- The board-side tables (R220, R393): the settings and, in the tables of a cold weave or of a restarted
board die, the mirror's LSEQ and levels; `shadow` marks the tables of a hot weave. -/
structure Tables where
  cfg : Cfg
  shadow : Bool
  lseq : Nat
  lvl : Tbl Nat
  stuck : Bool
deriving DecidableEq, Repr

/-- The holdup report (R76): operations executing with the step of each, and the banks down. -/
structure HoldRep where
  ops : List (Nat × Nat) := []
  banks : BitVec 4 := 0
deriving DecidableEq, Repr, Inhabited

/-- Packet payloads by KIND (Table 11.3). -/
inductive Payload where
  | op (o : Op)
  | data (bytes : List Byte)
  | result (status step : Nat) (value : BitVec 32) (news : Option (Nat × Nat × Nat)) (view : Option (Nat × LaneView))
  | rdata (bytes : List Byte)
  | refresh (keep : Bool) (lvl : List Nat) (lseq tb : Nat) (q : Nat)
  | table (t : Tables)
  | timeChunk (now : Nat)
  | pairChunk (park : Bool) (lvl : Tbl Nat)
  | swap (imgcrc : BitVec 32)
  | breset
  | tabort (ten : Nat)
  | abortAck (ents : List (Nat × Nat))
  | page0 (fsmap : BitVec 32) (up low : BitVec 4) (ready : Bool) (holdV : Nat) (rackLost : Bool) (paceB : Nat)
      (views : Tbl LaneView) (misses : Nat)
  | page1 (lvl : List Nat) (wseq : Nat) (corrected : Nat)
  | page2 (pstate : Nat) (prsn : Bool)
  | page3 (evs : List BEvent)
  | page4 (id : IdSummary)
  | page5 (ents : List (List Nat))
  | page6 (imgcrc : BitVec 32)
  | eeprom (page : Nat) (bytes : List Byte)
  | holdup (rep : HoldRep)
  | debug (write : Bool) (addr value : BitVec 32)
  | lanecmd (mask : BitVec 32) (act : Nat) (setR : Bool)
  | replay (ent : List Nat)
deriving DecidableEq, Repr

/-- A packet: the ticket's number and issue count for OP and RESULT kinds, the abort count of R204 and
whether its fourth abort was raised, the tenant and queue class it was charged to. -/
structure Pkt where
  body : Payload
  tkt : Nat := 0
  ic : Nat := 0
  ten : Nat := 7
  queue : Nat := 3
  aborts : Nat := 0
deriving DecidableEq, Repr

/-- The BXA class of a grant (Table 10.2; the codes of BXA log entries, Table 18.4). -/
inductive BxaClass where
  | lamp | debug | urgent | owner | makeup | background | control | resend
deriving DecidableEq, Repr, Inhabited

end Sys2Proof.Machine

namespace Sys2Proof.Machine

/-! ## Rack die -/

/-- Work held in the deferral queue during a brown notice, in order of request (R71–R74). -/
inductive Deferred where
  | logLine (line : Nat)
  | winLine (line : Nat)
  | epoch
  | rxEpoch
  | writeback
  | weave
  | soft
deriving DecidableEq, Repr

/-- Supplies, brown notice and power modes as the rack die holds them (chapter 4, Table 4.7). -/
structure Supply where
  mode : Nat := 0
  warnA : Nat := 0
  warnB : Nat := 0
  banknom : BitVec 16 := 0
  aBrown : Bool := false
  bBrown : Bool := false
  notice : Bool := false
  raisedA : Bool := false
  raisedB : Bool := false
  t0 : Nat := 0
  up : BitVec 4 := 0
  low : BitVec 4 := 0
  ready : Bool := false
  holdV : Nat := 0
  minA : Nat := 0
  durA : Nat := 0
  minB : Nat := 0
  durB : Nat := 0
  cntA : Nat := 0
  cntB : Nat := 0
  dropped : Nat := 0
  defer : List Deferred := []
deriving DecidableEq, Repr, Inhabited

/-- A 64-byte line on its way to the store: staged, or with its two-phase commit started (R344, R345).
`flt` marks a fault-log line, `order` an order-log line, `count` a closed order-log line that POST counts. -/
structure SLine where
  line : Nat
  data : List Byte
  order : Bool := false
  flt : Bool := false
  started : Bool := false
  count : Bool := false
deriving DecidableEq, Repr, Inhabited

/-- The record store's staging memories and error counts (Table 18.9). `log` holds order-log and
fault-log lines (at most 32), `win` window lines (at most 16), `own` the lines the unit commits itself
(bank records, epochs, identity cache, headers). -/
structure Store where
  log : List SLine := []
  win : List SLine := []
  own : List SLine := []
  badOne : List Nat := []
  badTwo : List Nat := []
  corr : Nat := 0
  uncorr : Nat := 0
deriving DecidableEq, Repr, Inhabited

/-- The order-log line being filled (Table 18.3): its OSEQ, TIME and entries in order. `dirty` is set
while it holds entries its last commit did not. -/
structure OLine where
  oseq : Nat
  time : Nat
  ents : List (List Nat)
  dirty : Bool := true
deriving DecidableEq, Repr, Inhabited

/-- The order log (Tables 18.6, 18.7, 18.9). `lstate`: 0 RUN, 1 POST, 2 FROZEN, 3 LOADING, 4 REPLAY,
5 STOPPED. `gapLines` counts the lines dropped and not yet marked by a GAP line. -/
structure OrderLog where
  lstate : Nat := 0
  cur : Option OLine := none
  next : Nat := 1
  start : Nat := 0
  toseq : Nat := 0
  foseq : Nat := 0
  frst : List (Nat × Nat) := []
  marks : Nat := 0
  gaps : Nat := 0
  rebuilt : Bool := false
  gapLines : Nat := 0
  lastRec : Option Nat := none
deriving DecidableEq, Repr, Inhabited

/-- One unit of the replay stream: an entry with its word index in the line, or a repeat of a block. -/
inductive RItem where
  | ent (words : List Nat) (word : Nat)
  | rep (n : Nat) (block : List (List Nat)) (word : Nat)
deriving DecidableEq, Repr

/-- Replay (Table 18.9). `items` are the entries of line `at` not yet consumed. -/
structure Replay where
  src : Nat := 0
  rstate : Nat := 0
  reason : Nat := 0
  kind : Nat := 0
  word : Nat := 0
  at' : Nat := 0
  exp : Nat := 0
  obs : Nat := 0
  done : Nat := 0
  items : List RItem := []
deriving DecidableEq, Repr, Inhabited

/-- A fault slot (Table 15.3): 0 CLEAR, 1 ACTIVE, 2 STANDING. `word` is the reaction word in force when it became
ACTIVE (Table 20.5). -/
structure Slot where
  st : Nat := 0
  src : Nat := 0
  t0 : Nat := 0
  esc : Bool := false
  word : Nat := 0
deriving DecidableEq, Repr, Inhabited

/-- The capture of one source (Table 15.11). `held` is set from the capturing raise until the source is
acknowledged or recovered; `ext` is the holdup report of BOARD_LOST. -/
structure Capture where
  held : Bool := false
  cls : Nat := 0
  esc : Bool := false
  wire : Bool := false
  forced : Bool := false
  dom : Nat := 0
  count : Nat := 0
  addr : Nat := 0
  acc : Nat := 0
  ten : Nat := 7
  q : Nat := 3
  time : Nat := 0
  detail : Nat := 0
  ext : Option HoldRep := none
deriving DecidableEq, Repr, Inhabited

/-- A log event waiting in the collector's queue (R307). -/
structure LogEv where
  src : Nat
  cls : Nat
  esc : Bool
  wire : Bool
  forced : Bool
  dom : Nat
  acc : Nat
  ten : Nat
  event : Nat
  time : Nat
  q : Nat
  count : Nat
  addr : Nat
  detail : Nat
  ext : Option HoldRep
  recov : Nat
deriving DecidableEq, Repr

/-- The fault collector (chapter 15). `slots` is indexed 3d + c, domains 0–4 and 5 for the unit. `hstop`
lists, for each domain in hard stop, the F sources not yet acknowledged; `fpend` the F raise whose
tenant reset is under way; `union` the lanes given the cause REACTION. -/
structure Faults where
  slots : Tbl Slot := []
  caps : Tbl Capture := []
  wires : Tbl Nat := []
  hstop : Tbl (List Nat) := []
  fpend : Tbl (Nat × Bool) := []
  recov : Nat := 0
  frec : Nat := 0
  fkey : Nat := 0
  fkeyT : Nat := 0
  evq : List LogEv := []
  head : Nat := 1
  next : Nat := 1
  rebuilt : Bool := false
  vcount : Nat := 0
  vfail : Nat := 0
  union : BitVec 32 := 0
  wren : Bool := false
deriving DecidableEq, Repr, Inhabited

/-- A reply in the reply queue (R152, Table 8.1). -/
structure Reply where
  short : Bool
  err : Bool
  ten : Nat
  bytes : List Byte
deriving DecidableEq, Repr, Inhabited

/-- A Gen3 message with items outstanding (R166). -/
structure Msg where
  ten : Nat
  stream : Nat
  hdr : List Byte
  ack : Bool
  route : Route
  items : List (Nat × Option (Nat × Nat × BitVec 32))
deriving DecidableEq, Repr

/-- The host port (Table 8.15) and the Gen3 messages awaiting their items. -/
structure HostPort where
  shortTen : Nat := 4
  tmask : BitVec 5 := 0b10000
  rq : List Reply := []
  rx : List (List Byte) := []
  irqDrop : Bool := false
  irqErr : Bool := false
  irqTen : BitVec 5 := 0
  irqEn : BitVec 8 := 0xFF
  frameErr : Nat := 0
  overrun : Nat := 0
  replyDrop : Nat := 0
  lastErr : Nat × Nat × Nat := (0, 0, 0)
  hsdo : List Byte := []
  msgs : Tbl Msg := []
  nextMsg : Nat := 0
deriving DecidableEq, Repr, Inhabited

/-- A stream's live state (Table 8.16). -/
structure StreamSt where
  last : Nat := 0
  seen : Bool := false
  gaps : Nat := 0
  stale : Nat := 0
  checkfail : Nat := 0
deriving DecidableEq, Repr, Inhabited

/-- A reset of one tenant under way (R88): the tickets awaiting their abort acknowledgement, the reply
due, and whether the 100 µs limit has passed. -/
structure TenRst where
  await : List (Nat × Nat)
  op : Option Op
deriving DecidableEq, Repr

/-- One tenant block (Tables 8.16, 9.7, 5.9). -/
structure Tenant where
  gen : Nat := 0
  queues : List (List Nat) := [[], [], [], []]
  streams : Tbl StreamSt := []
  tdebt : Bool := false
  bdebt : Bool := false
  tktUse : Nat := 0
  bufUse : Nat := 0
  noticket : Nat := 0
  nobuf : Nat := 0
  freeDenied : Nat := 0
  tktPeak : Nat := 0
  bufPeak : Nat := 0
  lastErr : Nat × Nat × Nat := (0, 0, 0)
  rst : Option TenRst := none
  capSpent : Bool := false
  latchNow : BitVec 32 := 0
  latchMono : BitVec 32 := 0
  setLo : BitVec 32 := 0
  nextLo : BitVec 32 := 0
deriving DecidableEq, Repr, Inhabited

/-- The ticket and buffer pools (chapter 9). A ticket not listed is FREE with issue count 0. -/
structure Pools where
  tkts : Tbl Ticket := []
  tktFree : List Nat := List.range 1024
  bufs : Tbl BufTag := []
  bufFree : List Nat := List.range 4096
  order : Nat := 0
deriving DecidableEq, Repr, Inhabited

/-- A packet that the BXA has started, with the slot class it was charged to and the preemption mode in force from its slot on
(R211). -/
structure Flight where
  pkt : Pkt
  cls : BxaClass
  aborted : Bool := false
  pmode : Nat := 0
deriving DecidableEq, Repr

/-- Both arbiters (Tables 10.7, 10.8). `silent` is the packet held out of the BXA after a silent slot
(R415); `pend` a bulk decision made for the next slot that stands under EMERGENCY_ONLY (R202); `sel` the pair a
selection in progress has won when a tenant reset emptied its queue (R196). -/
structure Arb where
  freeze : Bool := false
  prio : List Nat := []
  cred : List Nat := []
  wcount : Nat := 0
  dead : Nat := 0
  pmode : Nat := 0
  pos : Nat := 0
  q0used : List Nat := []
  makeup : List Nat := []
  bgcred : List Nat := []
  urgent : List Pkt := []
  fifos : List (List Pkt) := [[], [], [], [], []]
  ctl : List Pkt := []
  lamp : Option Pkt := none
  dbg : Option Pkt := none
  resend : List Pkt := []
  sel : Option Nat := none
  pend : Option (BxaClass × Nat) := none
  silent : Option Pkt := none
  flight : Option Flight := none
  aborts : Nat := 0
  limit : Nat := 0
  heldE : List Nat := []
  emLamp : Nat := 0
  emDbg : Nat := 0
deriving DecidableEq, Repr, Inhabited

/-- A direct channel's output (R214): in fail-safe, its stage, the level driven and the valid pulses seen
since they were last lost. -/
structure Direct where
  fs : Bool := false
  stage2 : Bool := false
  level : Bool := false
  valid : Nat := 0
  inLevel : Bool := false
  sent : Option Bool := none
deriving DecidableEq, Repr, Inhabited

/-- The rack die's barrier block (Table 11.13): beacon in, mirror, reject counts. -/
structure Barrier where
  lamp : Bool := false
  beaconIn : Bool := false
  bAlive : Bool := false
  bSupply : Bool := false
  bdown : Bool := false
  bstepSeen : Bool := false
  ordered : Bool := false
  holdSeen : Option HoldRep := none
  lseq : Nat := 0
  news : List Nat := []
  mirror : Tbl (Nat × Nat) := []
  fsmap : BitVec 32 := 0xFFFFFFFF
  views : Tbl LaneView := []
  fwdRej : Nat := 0
  bwdRej : Nat := 0
  runFwd : Nat := 0
  runBwd : Nat := 0
  misses : Nat := 0
  corrected : Nat := 0
  bLoss : Nat := 0
  aLoss : Nat := 0
  direct : Tbl Direct := []
  parked : Bool := false
  pstate : Nat := 0
  prsn : Bool := true
  debugOut : Option (BitVec 32) := none
deriving DecidableEq, Repr, Inhabited

end Sys2Proof.Machine

namespace Sys2Proof.Machine

/-- A frame at a ring output: its bytes, whether the unit itself placed it, whether it is urgent and how
often it was preempted (R133). -/
structure OutFrame where
  bytes : List Byte
  own : Bool
  urg : Bool
  pre : Nat := 0
deriving DecidableEq, Repr

/-- One ring port (Tables 7.2, 7.9). `st`: 0 OFF, 1 SILENT, 2 STARTED, 3 CONNECTING, 4 RUN. `cur` is the
frame in transmission with the characters still to send; `tx` the frames that have left the port, newest
first, with `true` for one ended by EOP2 (the model's own record). -/
structure RingPort where
  st : Nat := 0
  en : Bool := true
  credit : Nat := 0
  cur : Option (OutFrame × Nat) := none
  fwdQ : List OutFrame := []
  ownQ : List OutFrame := []
  lastOwn : Bool := false
  err : Nat := 0
  disc : Nat := 0
  errT : List Nat := []
  tx : List (List Byte × Bool) := []
deriving DecidableEq, Repr, Inhabited

/-- A unit's record in a sweep (Table 7.6). -/
structure SweepRec where
  serial : BitVec 64
  cur : Nat
  wish : Nat
  flags : BitVec 8
deriving DecidableEq, Repr

/-- The ring block (Table 7.9) and the head's roll call. -/
structure Ring where
  up : RingPort := {}
  dn : RingPort := {}
  rate : Nat := 0
  addr : Nat := 0
  split : Bool := false
  view : List (BitVec 64 × Nat) := []
  rollNo : Nat := 0
  demoted : Bool := false
  holdoff : Bool := false
  again : Bool := false
  busy : Bool := false
  sweepDn : Option (List SweepRec × Bool × Bool) := none
  sweepUp : Option (List SweepRec × Bool × Bool) := none
  assignOut : Nat := 0
  lastStrings : Option (Bool × List (BitVec 64)) := none
  rollT0 : Nat := 0
  headNo : Nat := 0
  noaddr : Bool := false
  noHead : Bool := false
  dropH : Nat := 0
  dropF : Nat := 0
  dropN : Nat := 0
  dropHops : Nat := 0
  preempts : Nat := 0
  frags : Nat := 0
  rolls : Nat := 0
  lastUs : Nat := 0
deriving DecidableEq, Repr, Inhabited

/-- The time base (Table 16.5). `state`: 0 ACQUIRE, 1 LOCKED, 2 HOLDOVER, 3 FREE. Counters in ns; the
fractions in 2^-32 ns, as is `slewLeft`. `cand…` are the candidate and `acc…` the last accepted references on MONO. -/
structure TimeSt where
  now : Nat := 0
  mono : Nat := 0
  nowFrac : Nat := 0
  monoFrac : Nat := 0
  state : Nat := 0
  tset : Bool := false
  stepPend : Bool := false
  fcorr : Int := 0
  xcorr : Int := 0
  xtalOk : Bool := false
  slewLeft : Int := 0
  off : Int := 0
  src : Nat := 0
  ringQual : Nat := 0
  heldQual : Nat := 0
  stepno : Nat := 0
  candTpi : Option Nat := none
  accTpi : Option Nat := none
  candTime : Option Nat := none
  accTime : Option Nat := none
  holdT0 : Nat := 0
  holds : Nat := 0
  disc : Nat := 0
  discFlag : Bool := false
  tpiBad : Nat := 0
  timeBad : Nat := 0
  steps : Nat := 0
  omits : Nat := 0
  tpoOmit : Bool := false
  nextArm : Option Nat := none
  tpo : Bool := false
  tpoRise : Option Nat := none
  tpoSkip : Bool := false
  dormLocked : Bool := false
  dormT0 : Nat := 0
  chunkQ : Nat := 3
deriving DecidableEq, Repr, Inhabited

/-- Identity on the rack die (Table 17.10). -/
structure Identity where
  astate : Nat := 0
  result : Nat := 0
  slot : Nat := 0
  aseq : Nat := 0
  ids : Nat := 31
  strapH : BitVec 8 := 0
  strapZ : BitVec 8 := 0
  eestat : Nat := 0
  tsirOk : Bool := false
  aOk : Bool := false
  bOk : Bool := false
  profile : BitVec 32 := 0
  boardSerial : BitVec 64 := 0
  logseq : Nat := 0
  logslots : Nat := 0
  bytes : List Byte := []
  rbuf : List Byte := []
  pages : Nat := 0
  t0 : Nat := 0
  t0q : Nat := 3
  reread : Bool := false
  attaches : Nat := 0
  presentT0 : Nat := 0
  wbState : Nat := 0
  wbStep : Nat := 0
  wbResult : Nat := 0
  wbTarget : Nat := 0
  wbCount : Nat := 0
  wbNote : Bool := false
  wbRec : List Byte := []
  notes : List (BitVec 32) := [0, 0, 0, 0, 0, 0, 0, 0]
  lfsrc : Nat := 0
  lfcls : Nat := 0
deriving DecidableEq, Repr, Inhabited

/-- One check-value unit (Table 14.8): the feed's running value, the binding's alive state and verdict, the
self-test state, and the user it last served (order-log CKSW). -/
structure CkUnit where
  run : BitVec 32 := 0
  txAlive : Nat := 0
  verdict : Nat := 0
  vtkt : Nat := 0
  vseq : Nat := 0
  rxv : BitVec 32 := 0
  calcV : BitVec 32 := 0
  mism : Nat := 0
  aliveRej : Nat := 0
  failed : Bool := false
  seen : Bool := false
  last : Nat := 0
  user : Option (Nat × Nat) := none
deriving DecidableEq, Repr, Inhabited

/-- Pairing (Table 19.6). `role`: 0 off, 1 LISTEN, 2 SYNCED, 3 HOLDING. `newest` is the newest complete
epoch; `releasing` the release under way: 1 plain, 2 FORCE. -/
structure Pair where
  role : Nat := 0
  pull : Bool := false
  pairn : Bool := true
  pBalive : Bool := false
  heldSilent : Bool := false
  neighbour : Bool := false
  pAddr : Nat := 0
  lastMsg : Option Nat := none
  eno : Nat := 0
  part : Option (Nat × Nat) := none
  frags : Tbl (List Byte) := []
  newest : List Byte := []
  waitCommit : Bool := false
  commitSlot : Nat := 0
  relSeen : Option Bool := none
  deadCount : Nat := 0
  forceSent : Bool := false
  ackT : Option Nat := none
  acked : Nat := 0
  releasing : Nat := 0
  noack : Nat := 0
  noackNow : Bool := false
  discarded : Nat := 0
  takeovers : Nat := 0
  handovers : Nat := 0
  lostSent : Nat := 0
  undeliv : Nat := 0
  sizeLast : Nat := 0
  sizePeak : Nat := 0
  tenResets : List Nat := [0, 0, 0, 0, 0]
  parked : Bool := false
  lostQ : List (List Byte) := []
deriving DecidableEq, Repr, Inhabited

/-- Image control (Table 20.6) and the woven image. `phase`: 0 idle, 1 checking, 2 gap, 3 held. -/
structure Image where
  woven : Bool := false
  cfg : Cfg := {}
  bank : Nat := 0
  bgen : Nat := 0
  phase : Nat := 0
  fallback : Bool := false
  code : Nat := 0
  sectNo : Nat := 0
  ten : Nat := 0
  action : Nat := 0
  weaves : Nat := 0
  rejects : Nat := 0
  gapLast : Nat := 0
  gapPeak : Nat := 0
  gapT0 : Nat := 0
  held : Option (Nat × Nat × Nat) := none
deriving DecidableEq, Repr, Inhabited

/-- Fuse shadow and access state (Tables 6.9, 6.10) and the TAP. `lcs`: 0 BLANK, 1 SEALED, 2 FIELD,
3 RETURN. `tdr`: the status of the last fuse instruction, 0 none, 1 DONE, 2 REFUSED, 3 VERIFY_FAIL. -/
structure Fuse where
  lcs : Nat := 1
  odd : Bool := false
  keyOk : Bool := false
  key : List Byte := []
  vkey : List Byte := []
  prot : BitVec 13 := 0x100
  serial : BitVec 64 := 0
  failmask : BitVec 32 := 0
  vdbg : Bool := false
  erasePend : Bool := false
  fieldPend : Bool := false
  dbgOpen : Bool := false
  tapRefused : Bool := false
  fails : Nat := 0
  inst : Nat := 0x02
  boundary : Nat := 0
  tdr : Nat := 0
  tdo : List Byte := []
  chal : List Byte := []
  chalLive : Bool := false
  chalHeld : Bool := false
deriving DecidableEq, Repr, Inhabited

/-- The reset supervisor and reset progress (Table 5.8). `sup`: 0 ARMED, 1 HELD, 2 IGNORE. -/
structure Reset where
  sup : Nat := 0
  held : Bool := false
  vdda : Bool := true
  stuckHold : Bool := false
  boardBusy : Bool := false
  softWait : Option Nat := none
  last : Nat := 1
  lowS : Nat := 0
  boardResets : Nat := 0
  softResets : Nat := 0
  tenResets : Nat := 0
  bnr : Bool := false
deriving DecidableEq, Repr, Inhabited

/-- Straps and side A pins (Tables 1.14, 3.11). -/
structure Pins where
  head : Bool := false
  hostsel : Nat := 2
  rstn : Bool := true
  tpi : Bool := false
  recn : Bool := true
  headn : Bool := true
deriving DecidableEq, Repr, Inhabited

/-- Timing and transient monitors (Tables 2.5–2.7, 3.12). Slot lengths in 1/16 ns. -/
structure Monitors where
  pace : Nat := 0
  pacePeak : Nat := 0
  aSlow : Bool := false
  bSlow : Bool := false
  paceB : Nat := 0
  slots : List Nat := []
  slotPeak : Nat := 0
  cmtSeen : Nat := 0
  cmtOver : Nat := 0
deriving DecidableEq, Repr, Inhabited

/-! ## Board die -/

/-- One lane (Tables 11.9, 12.9). `code` is the intended state in the codes of Table 12.5, `hiz` a HIZ
fail-safe drive, `refr` the valid refreshes with LSEQ = WSEQ since the return was armed and the last cause
ended, `kept` the fail-safe settings of an entry that a hot weave has changed since (R235). -/
structure Lane where
  code : Nat := 0
  pin : Bool := false
  flt : Bool := false
  evt : BitVec 3 := 0
  wOpen : Bool := false
  wHolder : Nat := 0
  wCode : Nat := 0
  wStart : Nat := 0
  wRaised : Bool := false
  conflicts : Nat := 0
  overruled : Nat := 0
  lastLoser : Nat := 0
  cause : BitVec 7 := 0
  stage : Nat := 0
  hiz : Bool := false
  armed : Bool := false
  refr : Nat := 0
  mism : Bool := false
  kept : Option FsCfg := none
deriving DecidableEq, Repr, Inhabited

/-- An engine operation held on the board die: its ticket and issue count, bytes still to move or taken,
`data` the bytes that have arrived to send, and the line error flags so far. -/
structure EngOp where
  tkt : Nat
  ic : Nat
  op : Op
  dlen : Nat
  data : List Byte := []
  moved : Nat := 0
  rx : List Byte := []
  errf : BitVec 8 := 0
  step : Nat := 0
  lastTime : Nat := 0
deriving DecidableEq, Repr

/-- One engine (Tables 13.3, 13.10). `st`: 0 IDLE, 1 BUSY, 2 HALTED, 3 OFF. `ops` are the operations held
on the transmit (or only) channel and `opsRx` those of full-duplex receive, each headed by the one in
progress. `rx` holds received bytes with their line-error flags, `gap` says that an idle gap follows them, `shift`
is the byte last shifted in, `txd` the bytes put on the lines, newest first (the model's own record). `kept` holds
the settings that an operation in progress at a hot weave's swap began under. -/
structure Eng where
  st : Nat := 3
  step : Nat := 0
  ops : List EngOp := []
  opsRx : List EngOp := []
  rx : List (Byte × BitVec 8) := []
  gap : Bool := false
  shift : Option Byte := none
  txd : List Byte := []
  line : Nat := 0
  overrun : Nat := 0
  under : Nat := 0
  tmoCnt : Nat := 0
  drv : BitVec 8 := 0
  smp : BitVec 8 := 0
  lastF : Nat × Nat × Nat := (0, 0, 0)
  overEp : Bool := false
  dirOn : Bool := false
  ctsOn : Bool := true
  ackOn : Bool := false
  strobe : Bool := false
  selLow : Bool := false
  sub : Nat := 0
  filt : List (Bool × Nat) := []
  kept : Option EngCfg := none
deriving DecidableEq, Repr, Inhabited

/-- The identity probe (chapter 17) on the board die: 0 idle, 1 strap and IDS, 2 EEPROM read,
3 write-back. `wbPage` is the page being written, counted from the slot's start. -/
structure Probe where
  phase : Nat := 0
  nacks : Nat := 0
  sum : IdSummary := {}
  strap1 : Option (BitVec 8) := none
  idsDone : Bool := false
  strapDone : Bool := false
  wbTarget : Nat := 0
  wbRec : List Byte := []
  wbPage : Nat := 0
  wbTry : Nat := 0
deriving DecidableEq, Repr, Inhabited

/-- The board die (chapters 11–13, 17). -/
structure Board where
  vddb : Bool := true
  core : Bool := true
  holdup : Bool := false
  tabs : Bool := false
  cfg : Cfg := {}
  shadow : Option Tables := none
  stuck : Bool := false
  wseq : Nat := 0
  miss : Nat := 0
  missed : Nat := 0
  keepP : Bool := false
  rackAlive : Bool := true
  rackLost : Bool := false
  timer : Nat := 0
  timerQ : Nat := 3
  chunkQ : Nat := 3
  stepno : Nat := 0
  up : BitVec 4 := 0xF
  low : BitVec 4 := 0
  downs : List Nat := [0, 0, 0, 0]
  fails : List Nat := [0, 0, 0, 0]
  ready : Bool := false
  holdV : Nat := 0
  pace : Nat := 0
  paceSlow : Bool := false
  pstate : Nat := 2
  prsn : Bool := false
  attaches : Nat := 0
  detaches : Nat := 0
  parked : Bool := false
  lanes : Tbl Lane := []
  engs : Tbl Eng := []
  direct : Tbl Direct := []
  probe : Probe := {}
  inbox : List Pkt := []
  outS : List Pkt := []
  outA : List Pkt := []
  out0 : List Pkt := []
  outR : List Pkt := []
  corrected : Nat := 0
deriving DecidableEq, Repr, Inhabited

/-- The result of the last register access or TAP instruction that answers without a frame: the model's
own record (log entry 5). -/
structure Access where
  status : Nat := 0
  value : BitVec 32 := 0
deriving DecidableEq, Repr, Inhabited

/-- Everything but the queue and the three memories. -/
structure Dev where
  sup : Supply := {}
  sto : Store := {}
  log : OrderLog := {}
  rpl : Replay := {}
  flt : Faults := {}
  hpt : HostPort := {}
  tens : List Tenant := [{}, {}, {}, {}, {}]
  pool : Pools := {}
  arb : Arb := {}
  bar : Barrier := {}
  ring : Ring := {}
  tim : TimeSt := {}
  idn : Identity := {}
  cks : List CkUnit := [{}, {}, {}, {}]
  fixBad : BitVec 7 := 0
  pai : Pair := {}
  img : Image := {}
  fus : Fuse := {}
  rst : Reset := {}
  pins : Pins := {}
  mon : Monitors := {}
  bd : Board := {}
  acc : Access := {}
  freeCtr : Nat := 0
deriving DecidableEq, Repr, Inhabited

/-- The machine: the queue of waiting commands, the fuses, the record store, the buffer RAM and the rest. -/
structure State where
  pending : List Instr
  fuses : Tbl (BitVec 32)
  store : Mem
  bufs : Mem
  dev : Dev
deriving DecidableEq, Repr

/-- The reasons a step could stop with a fault. None is raised: every command of the table has an effect
the spec gives it. -/
inductive Fault where
  /-- An access outside the record store or the buffer RAM: raised by no command (safe). -/
  | outside (addr : Nat)
deriving DecidableEq, Repr

/-- The reasons a command could be refused. -/
inductive Refusal where
  /-- A command that has no meaning yet: raised by `exec`'s refused arms only (safe). -/
  | notModelled (mnemonic : String)
deriving DecidableEq, Repr

/-- The machine right after hard reset: every register at the value its table states, in the condition of
R29 and R98 (running from step 4 of Table 5.2, no image woven), life-cycle state SEALED as shipped
(log entry 3), and an empty queue. -/
def State.reset : State where
  pending := []
  fuses := [(0, 0xFF), (1, 0x100)]
  store := []
  bufs := []
  dev := { ring := { up := { st := 1 }, dn := { st := 1 } } }

end Sys2Proof.Machine
end

