-- ==== Sys2Proof/Machine/Ops.lean ====
section
/-! DEFINITION. The named operations over tables, memories, bit fields and bytes, and the working record
that every meaning transforms. -/

namespace Sys2Proof.Machine

/-! ## Tables and lists -/

/-- The entry of `t` at index `i`, or the default. -/
def tget {α : Type} (d : α) : Tbl α → Nat → α
  | [], _ => d
  | (k, a) :: t, i => if k = i then a else tget d t i

/-- `t` with `a` at index `i`. -/
def tput {α : Type} : Tbl α → Nat → α → Tbl α
  | [], i, a => [(i, a)]
  | (k, b) :: t, i, a =>
    if i < k then (i, a) :: (k, b) :: t
    else if k = i then (i, a) :: t
    else (k, b) :: tput t i a

/-- `t` with nothing listed at index `i`. -/
def tdel {α : Type} (t : Tbl α) (i : Nat) : Tbl α := t.filter (fun e => e.1 != i)

/-- `t` with the entry at `i` (or the default) changed by `f`. -/
def tmod {α : Type} (d : α) (t : Tbl α) (i : Nat) (f : α → α) : Tbl α := tput t i (f (tget d t i))

/-- `l` with element `i` changed by `f`. -/
def lmod {α : Type} (l : List α) (i : Nat) (f : α → α) : List α := l.modify i f

/-- The `i`-th number of a list, 0 beyond its end. -/
def nth (l : List Nat) (i : Nat) : Nat := l.getD i 0

/-- `n` numbers `f 0 … f (n-1)`. -/
def upto {α : Type} (n : Nat) (f : Nat → α) : List α := (List.range n).map f

/-- `x + k` held at the largest value of an `n`-bit counter. -/
def satAdd (n x k : Nat) : Nat := min (2 ^ n - 1) (x + k)

/-! ## Byte memory -/

/-- The canonical form: addresses strictly rising from `lo`, no entry equal to 0. -/
def memWfFrom : Nat → Mem → Bool
  | _, [] => true
  | lo, (a, b) :: m => decide (lo ≤ a) && (b != 0) && memWfFrom (a + 1) m

/-- The memory is in canonical form. -/
def Memory.wf (m : Mem) : Bool := memWfFrom 0 m

/-- The byte at an address; an unlisted byte reads 0. -/
def mget (m : Mem) (a : Nat) : Byte := tget 0 m a

/-- The memory with byte `b` at address `a`; writing 0 removes the entry. -/
def mset : Mem → Nat → Byte → Mem
  | [], a, b => if b = 0 then [] else [(a, b)]
  | (k, c) :: m, a, b =>
    if a < k then (if b = 0 then (k, c) :: m else (a, b) :: (k, c) :: m)
    else if k = a then (if b = 0 then m else (a, b) :: m)
    else (k, c) :: mset m a b

/-- `n` bytes from address `a` on, of the entries at or above `a`. -/
def mtake : Nat → Nat → Mem → List Byte
  | 0, _, _ => []
  | n + 1, a, [] => 0 :: mtake n (a + 1) []
  | n + 1, a, (k, b) :: m =>
    if k = a then b :: mtake n (a + 1) m else 0 :: mtake n (a + 1) ((k, b) :: m)

/-- The `n` bytes from address `a` on. -/
def mslice (m : Mem) (a n : Nat) : List Byte := mtake n a (m.dropWhile (fun e => e.1 < a))

/-! ## Bits and bytes -/

/-- Bit field `[lo + w - 1 : lo]` of a number. -/
def fld (x lo w : Nat) : Nat := (x >>> lo) % 2 ^ w

/-- Bit `i` of a number. -/
def tbit (x i : Nat) : Bool := x.testBit i

/-- A Boolean as a bit. -/
def b2n (b : Bool) : Nat := if b then 1 else 0

/-- A register value from its fields, each given as (lowest bit, width, value). -/
def packN (fs : List (Nat × Nat × Nat)) : Nat :=
  fs.foldl (fun acc f => acc ||| ((f.2.2 % 2 ^ f.2.1) <<< f.1)) 0

/-- A 32-bit register from its fields. -/
def pack (fs : List (Nat × Nat × Nat)) : BitVec 32 := BitVec.ofNat 32 (packN fs)

/-- The `n` low bytes of a number, least significant first (R8). -/
def le (n x : Nat) : List Byte := upto n (fun i => BitVec.ofNat 8 (x >>> (8 * i)))

/-- The number whose bytes are given least significant first (R8). -/
def leN (bs : List Byte) : Nat := bs.foldr (fun b acc => b.toNat + 256 * acc) 0

/-- The `n` bytes from offset `o` on (missing bytes read 0) as a number. -/
def at' (bs : List Byte) (o n : Nat) : Nat := leN ((bs.drop o).take n)

/-- `bs` cut or zero-padded to `n` bytes. -/
def padTo (n : Nat) (bs : List Byte) : List Byte := bs.take n ++ List.replicate (n - bs.length) 0

/-- Two's complement of a number in `w` bits. -/
def toInt (w x : Nat) : Int := if x % 2 ^ w < 2 ^ (w - 1) then (x % 2 ^ w : Nat) else (x % 2 ^ w : Nat) - (2 ^ w : Nat)

/-- The low `w` bits of an integer's two's complement. -/
def ofInt (w : Nat) (x : Int) : Nat := (x % (2 ^ w : Nat)).toNat

/-- The ASCII bytes of a four-letter mark. -/
def mark4 (a b c d : Nat) : List Byte := [a, b, c, d].map (BitVec.ofNat 8)

/-! ## The working record -/

/-- What a meaning asks for beyond its own block: a reset or the release of the pair's baton by a fault reaction
(R298–R302), the soft reset of a cold weave, the RC_REQUEST of a completed weave, or the end of tenant resets that wait for nothing more. `soft` carries RST_CAUSE.LAST. -/
inductive ResetReq where
  | tenant (t : Nat)
  | board
  | soft (cause : Nat)
  | baton
  | ring
  | finish
deriving DecidableEq, Repr

/-- What a meaning transforms: the device and, read-only, the memories and fuses as they were; the bytes to
write and the fuse bits to blow when it ends, newest first; and the resets its faults asked for. -/
structure W where
  dev : Dev
  store : Mem
  bufs : Mem
  fuses : Tbl (BitVec 32)
  out : List Host.Cell := []
  bout : List Host.Cell := []
  blow : List (Nat × BitVec 32) := []
  rq : List ResetReq := []
deriving DecidableEq, Repr

/-- The memory after the listed writes, oldest last. -/
def writeAll (m : Mem) (out : List Host.Cell) : Mem := out.foldr (fun c m => mset m c.1 c.2) m

/-- The fuses after the listed bits are blown: bits only change from 0 to 1. -/
def blowAll (f : Tbl (BitVec 32)) (bl : List (Nat × BitVec 32)) : Tbl (BitVec 32) :=
  bl.foldr (fun e f => tmod 0 f e.1 (· ||| e.2)) f

/-- The working record of a state. -/
def load (s : State) : W := { dev := s.dev, store := s.store, bufs := s.bufs, fuses := s.fuses }

/-- The state after a meaning: its device, its writes and blown fuses applied; the queue kept. -/
def commit (s : State) (w : W) : State where
  pending := s.pending
  fuses := blowAll s.fuses w.blow
  store := writeAll s.store w.out
  bufs := writeAll s.bufs w.bout
  dev := w.dev

/-- The fuse word `i` as it stands. -/
def W.fuse (w : W) (i : Nat) : BitVec 32 := tget 0 (blowAll w.fuses w.blow) i

/-- `n` store bytes from address `a` on, as the home lines hold them. -/
def W.home (w : W) (a n : Nat) : List Byte := mslice (writeAll w.store w.out) a n

/-- The record with bytes written to the store's home lines. -/
def W.poke (w : W) (a : Nat) (bs : List Byte) : W :=
  { w with out := ((List.range bs.length).zip bs).foldl (fun o e => (a + e.1, e.2) :: o) w.out }

/-- `n` buffer bytes from address `a` on. -/
def W.bufBytes (w : W) (a n : Nat) : List Byte := mslice (writeAll w.bufs w.bout) a n

/-- The record with bytes written to the buffer RAM. -/
def W.pokeBuf (w : W) (a : Nat) (bs : List Byte) : W :=
  { w with bout := ((List.range bs.length).zip bs).foldl (fun o e => (a + e.1, e.2) :: o) w.bout }

/-- The record with an open value drawn (log entry 2). -/
def W.draw (w : W) : BitVec 32 × W :=
  (Config.free w.dev.freeCtr, { w with dev.freeCtr := w.dev.freeCtr + 1 })

/-- The status and value of the last register access. -/
def W.ack (w : W) (status : Nat) (value : BitVec 32 := 0) : W := { w with dev.acc := { status := status, value := value } }

/-- Ask for a reset. -/
def W.ask (w : W) (r : ResetReq) : W := { w with rq := w.rq ++ [r] }

/-- Completion statuses (Table 9.1). -/
abbrev stOK : Nat := 0x00
abbrev stOKC : Nat := 0x01
abbrev stCONFLICT : Nat := 0x10
abbrev stDENIED : Nat := 0x11
abbrev stNOTICKET : Nat := 0x12
abbrev stNOBUF : Nat := 0x13
abbrev stCHECKFAIL : Nat := 0x20
abbrev stSTALE : Nat := 0x21
abbrev stTIMEOUT : Nat := 0x30
abbrev stFAILSAFE : Nat := 0x31
abbrev stABORTED : Nat := 0x40
abbrev stLOST : Nat := 0x41

/-- The unit's domain number in the collector's tables. -/
abbrev dUnit : Nat := 5

/-! ## Changing one block -/

def W.modSup (w : W) (f : Supply → Supply) : W := { w with dev.sup := f w.dev.sup }
def W.modSto (w : W) (f : Store → Store) : W := { w with dev.sto := f w.dev.sto }
def W.modLog (w : W) (f : OrderLog → OrderLog) : W := { w with dev.log := f w.dev.log }
def W.modRpl (w : W) (f : Replay → Replay) : W := { w with dev.rpl := f w.dev.rpl }
def W.modFlt (w : W) (f : Faults → Faults) : W := { w with dev.flt := f w.dev.flt }
def W.modHpt (w : W) (f : HostPort → HostPort) : W := { w with dev.hpt := f w.dev.hpt }
def W.modPool (w : W) (f : Pools → Pools) : W := { w with dev.pool := f w.dev.pool }
def W.modArb (w : W) (f : Arb → Arb) : W := { w with dev.arb := f w.dev.arb }
def W.modBar (w : W) (f : Barrier → Barrier) : W := { w with dev.bar := f w.dev.bar }
def W.modRing (w : W) (f : Ring → Ring) : W := { w with dev.ring := f w.dev.ring }
def W.modTim (w : W) (f : TimeSt → TimeSt) : W := { w with dev.tim := f w.dev.tim }
def W.modIdn (w : W) (f : Identity → Identity) : W := { w with dev.idn := f w.dev.idn }
def W.modPai (w : W) (f : Pair → Pair) : W := { w with dev.pai := f w.dev.pai }
def W.modImg (w : W) (f : Image → Image) : W := { w with dev.img := f w.dev.img }
def W.modFus (w : W) (f : Fuse → Fuse) : W := { w with dev.fus := f w.dev.fus }
def W.modRst (w : W) (f : Reset → Reset) : W := { w with dev.rst := f w.dev.rst }
def W.modPins (w : W) (f : Pins → Pins) : W := { w with dev.pins := f w.dev.pins }
def W.modMon (w : W) (f : Monitors → Monitors) : W := { w with dev.mon := f w.dev.mon }
def W.modBd (w : W) (f : Board → Board) : W := { w with dev.bd := f w.dev.bd }

/-! ## Reading the configuration -/

/-- The woven settings. -/
def W.cfg (w : W) : Cfg := w.dev.img.cfg

def Cfg.lane (c : Cfg) (n : Nat) : LaneCfg := c.lanes.getD n {}
def Cfg.eng (c : Cfg) (n : Nat) : EngCfg := c.engs.getD n {}
def Cfg.ten (c : Cfg) (n : Nat) : TenCfg := c.tens.getD n {}
def Cfg.lfs (c : Cfg) (n : Nat) : FsCfg := c.fs.getD n {}
def Cfg.dirFs (c : Cfg) (n : Nat) : FsCfg := c.dfs.getD n {}
def Cfg.ck (c : Cfg) (n : Nat) : CkCfg := c.cks.getD n {}
def Cfg.bankOf (c : Cfg) (n : Nat) : BankCfg := c.banks.getD n {}
def Cfg.rank (c : Cfg) (t : Nat) : Nat := fld c.ranks.toNat (3 * t) 3

/-- Tenant block `t`. -/
def Dev.ten (d : Dev) (t : Nat) : Tenant := d.tens.getD t {}

/-- The record with tenant block `t` changed. -/
def W.modTen (w : W) (t : Nat) (f : Tenant → Tenant) : W := { w with dev.tens := lmod w.dev.tens t f }

/-- Lane `n`, engine `n` and check unit `n`. -/
def Board.lane (b : Board) (n : Nat) : Lane := tget {} b.lanes n
def Board.eng (b : Board) (n : Nat) : Eng := tget {} b.engs n
def Dev.ckUnit (d : Dev) (n : Nat) : CkUnit := d.cks.getD n {}

def W.modLane (w : W) (n : Nat) (f : Lane → Lane) : W := { w with dev.bd.lanes := tmod {} w.dev.bd.lanes n f }
def W.modEng (w : W) (n : Nat) (f : Eng → Eng) : W := { w with dev.bd.engs := tmod {} w.dev.bd.engs n f }
def W.modCk (w : W) (n : Nat) (f : CkUnit → CkUnit) : W := { w with dev.cks := lmod w.dev.cks n f }

/-- Timestamp quality (R317): 3 UNSET, else 0 LOCKED, 1 HOLDOVER, 2 FREE; never better than the master's
while locked on the ring; the quality before the return while a step is pending. -/
def TimeSt.qual (t : TimeSt) : Nat :=
  if !t.tset then 3
  else if t.stepPend then t.heldQual
  else if t.state = 1 then (if t.src = 2 then t.ringQual else 0)
  else if t.state = 2 then 1 else 2

/-- NOW. -/
def W.now (w : W) : Nat := w.dev.tim.now
/-- MONO. -/
def W.mono (w : W) : Nat := w.dev.tim.mono

/-- Apply `f` to each listed element in turn. -/
def W.forEach {α : Type} (w : W) (l : List α) (f : W → α → W) : W := l.foldl f w

end Sys2Proof.Machine
end

