-- ==== Sys2Proof/Machine/Crc.lean ====
section
/-! DEFINITION. Check values: the procedure of chapter 14 and the fixed checks of Table 14.5. -/

namespace Sys2Proof.Machine

/-- The low `n` bits of `x` in reverse order. -/
def reflect : Nat → Nat → Nat
  | 0, _ => 0
  | n + 1, x => (x % 2) <<< n ||| reflect n (x / 2)

/-- The parameters of a check (Table 14.1). -/
structure CrcP where
  w : Nat
  poly : Nat
  init : Nat
  refin : Bool
  refout : Bool
  xorout : Nat
deriving DecidableEq, Repr

/-- One bit of the fold: shift, and subtract the polynomial where the feedback is 1. -/
def crcBit (w poly run bit : Nat) : Nat :=
  let sh := (run <<< 1) % 2 ^ w
  if (run >>> (w - 1)) % 2 = bit then sh else sh ^^^ poly

/-- Fold one byte into the running value, bit 7 first. -/
def crcByte (p : CrcP) (run : Nat) (b : Byte) : Nat :=
  let x := if p.refin then reflect 8 b.toNat else b.toNat
  [7, 6, 5, 4, 3, 2, 1, 0].foldl (fun r i => crcBit p.w p.poly r ((x >>> i) % 2)) run

/-- The running value after folding bytes in order. -/
def crcFold (p : CrcP) (run : Nat) (bs : List Byte) : Nat := bs.foldl (crcByte p) run

/-- The check value of a running value. -/
def crcOut (p : CrcP) (run : Nat) : Nat := (if p.refout then reflect p.w run else run) ^^^ p.xorout

/-- The check value over bytes, from INIT. -/
def crc (p : CrcP) (bs : List Byte) : Nat := crcOut p (crcFold p p.init bs)

/-- CRC-8 of ring headers and Gen1 frames (Table 14.5). -/
def crc8P : CrcP := ⟨8, 0x07, 0, false, false, 0⟩
/-- CRC-16 of packets and identity records (Table 14.5). -/
def crc16P : CrcP := ⟨16, 0x1021, 0xFFFF, false, false, 0⟩
/-- The reflected CRC-32 of IEEE 802.3 (Table 14.5). -/
def crc32P : CrcP := ⟨32, 0x04C11DB7, 0xFFFFFFFF, true, true, 0xFFFFFFFF⟩

def crc8 (bs : List Byte) : Nat := crc crc8P bs
def crc16 (bs : List Byte) : Nat := crc crc16P bs
def crc32 (bs : List Byte) : Nat := crc crc32P bs

/-- The nine ASCII bytes "123456789" of the reference values (Table 14.6). -/
def refBytes : List Byte := upto 9 (fun i => BitVec.ofNat 8 (0x31 + i))

/-- The parameters of check unit settings. -/
def CkCfg.params (c : CkCfg) : CrcP :=
  ⟨c.width, c.poly.toNat, c.init.toNat, c.refin, c.refout, c.xorout.toNat⟩

/-- The check value a unit gives from a seed (Gen3, Table 14.2). -/
def CkCfg.seeded (c : CkCfg) (seed : Nat) (bs : List Byte) : Nat :=
  crcOut c.params (crcFold c.params (seed % 2 ^ c.width) bs)

/-- A line whose last four bytes hold the LCRC of its first sixty (Table 18.3). -/
def lcrcLine (body : List Byte) : List Byte :=
  let b := padTo 60 body
  b ++ le 4 (crc32 b)

/-- The line's LCRC is right. -/
def lcrcOk (l : List Byte) : Bool := decide (l.length = 64) && (crc32 (l.take 60) == at' l 60 4)

end Sys2Proof.Machine
end

