-- ==== Sys2Proof/Machine/Log.lean ====
section
/-! DEFINITION. The record store's line commits and the order log (chapter 18). -/

namespace Sys2Proof.Machine

/-- First lines of the store's regions (Tables 1.6, 18.1), in units of 64 bytes. -/
abbrev lnOrder : Nat := 0x10000 / 64
abbrev lnFault : Nat := 0x30000 / 64
abbrev lnEpoch : Nat := 0x34000 / 64
abbrev lnIdent : Nat := 0x38000 / 64
abbrev lnUser : Nat := 0x3A000 / 64

/-! ## Lines -/

/-- Phase 2 of a commit is over: the home line holds the new content, free of errors (R344). -/
def W.homeLine (w : W) (l : SLine) : W :=
  { w.poke (l.line * 64) l.data with dev.sto.badOne := w.dev.sto.badOne.filter (· != l.line), dev.sto.badTwo := w.dev.sto.badTwo.filter (· != l.line) }

/-- The newest content of line `n`: staged or committing content before the home line's (R345). -/
def W.line (w : W) (n : Nat) : List Byte :=
  match ((w.dev.sto.own ++ w.dev.sto.log ++ w.dev.sto.win).reverse.find? (fun l => l.line == n)) with
  | some l => l.data
  | none => w.home (n * 64) 64

/-- Stage a line the unit commits itself (bank record, epoch, identity cache): it starts at once, or at the
end of a brown notice (R71). -/
def W.stageOwn (w : W) (n : Nat) (data : List Byte) : W :=
  { w with dev.sto.own := w.dev.sto.own ++ [{ line := n, data := data, started := !w.dev.sup.notice }] }

/-- The oldest line of a list that satisfies `p`, and the list without it. -/
def takeFirst {α : Type} (p : α → Bool) : List α → Option α × List α
  | [] => (none, [])
  | a :: l => if p a then (some a, l) else let r := takeFirst p l; (r.1, a :: r.2)

/-- Put a line into the 32-line log staging memory (R72, R350). A line already staged and not started is
replaced in place. When the memory is full outside a notice the oldest commit ends; during a notice an
order-log line is dropped and counted, and a fault-log line takes the place of the oldest staged order-log
line. Answers whether the line was staged. -/
def W.stageLog (w : W) (l : SLine) : W × Bool :=
  let s := w.dev.sto
  let n := { l with started := !w.dev.sup.notice }
  if s.log.any (fun x => x.line == l.line && !x.started) then
    ({ w with dev.sto.log := s.log.map (fun x => if x.line == l.line && !x.started then { x with data := l.data, count := x.count || l.count } else x) }, true)
  else if s.log.length < 32 then
    ({ w with dev.sto.log := s.log ++ [n] }, true)
  else if !w.dev.sup.notice then
    match s.log with
    | [] => ({ w with dev.sto.log := [n] }, true)
    | o :: rest => ({ w.homeLine o with dev.sto.log := rest ++ [n] }, true)
  else if l.flt then
    match takeFirst (fun x => x.order && !x.started) s.log with
    | (some _, rest) =>
      ({ w with dev.sto.log := rest ++ [n], dev.sup.dropped := satAdd 18 w.dev.sup.dropped 1,
                dev.log.gapLines := w.dev.log.gapLines + 1 }, true)
    | (none, _) => (w, false)
  else
    ({ w with dev.sup.dropped := satAdd 18 w.dev.sup.dropped 1, dev.log.gapLines := w.dev.log.gapLines + 1 }, true)

/-! ## Log lines -/

/-- The store line of the log line with this OSEQ. -/
def oLine (oseq : Nat) : Nat := lnOrder + 1 + oseq % 2047

/-- The bytes of a log line (Table 18.3). -/
def oBytes (oseq time ltype nw : Nat) (body : List Byte) : List Byte :=
  lcrcLine (le 4 oseq ++ le 8 time ++ [BitVec.ofNat 8 ltype, BitVec.ofNat 8 nw, 0, 0] ++ padTo 44 body)

/-- The words of a line's entries. -/
def entWords (es : List (List Nat)) : List Nat := es.flatten

/-- The bytes of the line being filled. -/
def OLine.bytes (o : OLine) : List Byte :=
  oBytes o.oseq o.time 0 (entWords o.ents).length ((entWords o.ents).flatMap (le 4))

/-- The log header, line 0 (Table 18.6). -/
def W.logHeader (w : W) : W :=
  let g := w.dev.log
  let frst := (g.frst.take 4).flatMap (fun r => le 7 r.1 ++ [BitVec.ofNat 8 r.2])
  (w.stageLog { line := lnOrder, data := lcrcLine (mark4 0x56 0x4E 0x4F 0x4C ++ [BitVec.ofNat 8 g.lstate, 0] ++
      le 4 g.toseq ++ le 4 g.foseq ++ padTo 32 frst), order := true }).1

/-- The log is in RUN or POST. -/
def OrderLog.recording (g : OrderLog) : Bool := decide (g.lstate ≤ 1)

/-- Commit the line being filled and close it. -/
def W.closeLine (w : W) : W :=
  match w.dev.log.cur with
  | none => w
  | some o => { (w.stageLog { line := oLine o.oseq, data := o.bytes, order := true, count := true }).1 with dev.log.cur := none }

/-- Freeze the log: the line being filled is committed first, and then nothing more is written (R351). -/
def W.freezeLog (w : W) : W :=
  let w := w.closeLine
  ({ w with dev.log.lstate := 2, dev.log.foseq := w.dev.log.next - 1 }).logHeader

/-- A trigger in RUN, in TRIGGER or ONCE mode, enters POST (Table 18.7). -/
def W.trigger (w : W) : W :=
  let g := w.dev.log
  if (w.cfg.log.mode = 1 ∨ w.cfg.log.mode = 2) ∧ g.lstate = 0 then
    let t := match g.cur with
      | some o => o.oseq
      | none => g.next
    let w := { w with dev.log.lstate := 1, dev.log.toseq := t }
    if w.cfg.log.post = 0 then w.freezeLog else w.logHeader
  else w

/-- Take the next OSEQ for a new line. In POST no line after the POST further lines is begun: the log freezes. In ONCE mode a line that would overwrite the newest START line freezes
the log instead, and in the other modes it ends that START line's retention (Table 18.7, "Wrap past the
start"). -/
def W.takeOseq (w : W) : W × Option Nat :=
  let g := w.dev.log
  let hits := decide (g.start ≠ 0) && decide (g.next = g.start + 2047)
  if decide (g.lstate = 1) && decide (g.toseq + w.cfg.log.post < g.next) then (w.freezeLog, none)
  else if hits && decide (w.cfg.log.mode = 2) then (w.freezeLog, none)
  else ({ w with dev.log.next := (if g.next = 2 ^ 32 - 1 then 1 else g.next + 1),
                 dev.log.start := (if hits then 0 else g.start) }, some g.next)

/-- An input entry, over which REPEAT is never written (R348). -/
def isInput (e : List Nat) : Bool :=
  let k := fld (nth e 0) 0 6
  k == 0x10 || k == 0x11 || k == 0x13 || k == 0x14 || (k == 0x05 && tbit (nth e 0) 19)

def isRepeat (e : List Nat) : Bool := fld (nth e 0) 0 6 == 0x1F

/-- A REPEAT entry: the k entries before it occur n more times (Table 18.4). -/
def repeatEnt (n k : Nat) : List Nat := [0x1F ||| (n <<< 6) ||| (k <<< 22)]

/-- With the newest entry first: the k newest entries repeat the k before them. -/
def fold1 (k : Nat) (r : List (List Nat)) : Option (List (List Nat)) :=
  let a := r.take k
  let b := (r.drop k).take k
  if a.length = k ∧ a = b ∧ a.all (fun e => !isInput e && !isRepeat e) then some (repeatEnt 1 k :: r.drop k) else none

/-- With the newest entry first: the k newest entries repeat the block of the REPEAT before them. -/
def fold2 (k : Nat) (r : List (List Nat)) : Option (List (List Nat)) :=
  let a := r.take k
  match r.drop k with
  | rep :: rest =>
    let n := fld (nth rep 0) 6 16
    if isRepeat rep ∧ fld (nth rep 0) 22 4 = k ∧ a.length = k ∧ a = rest.take k ∧ n < 65535 then
      some (repeatEnt (n + 1) k :: rest) else none
  | [] => none

/-- Apply the first fold that fits, for k = 1 to 8 (R348). -/
def compress (r : List (List Nat)) : List (List Nat) :=
  match ([1, 2, 3, 4, 5, 6, 7, 8].findSome? (fun k => match fold2 k r with | some x => some x | none => fold1 k r)) with
  | some x => x
  | none => r

/-- The line's entries with one more; `none` when they would exceed eleven words. -/
def addTo (es : List (List Nat)) (e : List Nat) : Option (List (List Nat)) :=
  let es' := (compress (e :: es.reverse)).reverse
  if (entWords es').length ≤ 11 then some es' else none

/-- The entry with its DT placeholder (a second word 0x3F) replaced by the time since `t0` in 5 ns. -/
def putDT (e : List Nat) (dt : Nat) : List Nat :=
  match e with
  | a :: b :: rest => if b = 0x3F then a :: ((dt <<< 6) ||| 0x3F) :: rest else e
  | _ => e

/-- Record one entry in a new line. -/
def W.newLine (w : W) (e : List Nat) : W :=
  match w.takeOseq with
  | (w, none) => w
  | (w, some q) => { w with dev.log.cur := some { oseq := q, time := w.now, ents := [putDT e 0] } }

/-! ## Replay (R356–R360) -/

/-- Stop replay: STOPPED, with the report (R360). -/
def W.rplStop (w : W) (rstate reason kind word exp obs : Nat) : W :=
  ({ w with dev.log.lstate := 5, dev.rpl.rstate := rstate, dev.rpl.reason := reason, dev.rpl.kind := kind,
            dev.rpl.word := word, dev.rpl.exp := exp, dev.rpl.obs := obs, dev.rpl.items := [] }).logHeader

/-- The items of a log line's words, REPEATs resolved against the entries before them; the merges of the ring outputs are left
out, as no ring frame is placed in REPLAY (R359). `n` bounds the words. -/
def lineItems : Nat → Nat → List (List Nat) → List Nat → List RItem
  | 0, _, _, _ => []
  | _, _, _, [] => []
  | n + 1, at0, back, x :: xs =>
    let k := fld x 0 6
    if k = 0x1F then
      let blk := ((back.take (fld x 22 4)).reverse).filter (fun e => fld (nth e 0) 0 6 != 4)
      if blk.isEmpty then lineItems n (at0 + 1) back xs else .rep (fld x 6 16) blk at0 :: lineItems n (at0 + 1) back xs
    else
      let len := if k < 0x10 then 1 else if k = 0x10 then 3 else if k = 0x16 then 1 else 2
      let e := (x :: xs).take len
      if k = 4 then lineItems n (at0 + len) (e :: back) ((x :: xs).drop len)
      else .ent e at0 :: lineItems n (at0 + len) (e :: back) ((x :: xs).drop len)

/-- Load the next ENTRIES line of the stream; the end of the log, FOSEQ, a GAP line or a further START line
ends replay (R360, R398), and a line that fails LCRC is a MISMATCH (Edges). -/
def W.rplNext (w : W) : W :=
  let q := w.dev.rpl.at' + 1
  let l := w.line (oLine q)
  let g := w.dev.log
  if (decide (g.foseq ≠ 0) && decide (q > g.foseq)) || (at' l 0 4 != q) then w.rplStop 2 10 0 0 0 0
  else if !lcrcOk l then w.rplStop 3 8 0 0 0 0
  else if at' l 12 1 = 2 then w.rplStop 2 11 0 0 0 0
  else if at' l 12 1 = 1 then w.rplStop 2 10 0 0 0 0
  else
    { w with dev.rpl.at' := q,
             dev.rpl.items := lineItems 11 0 [] (upto (min 11 (at' l 13 1)) (fun i => at' l (16 + 4 * i) 4)) }

/-- The entry that must come next, and its word in the line. -/
def Replay.head (r : Replay) : Option (List Nat × Nat) :=
  match r.items with
  | .ent e k :: _ => some (e, k)
  | .rep (_ + 1) (e :: _) k :: _ => some (e, k)
  | _ => none

/-- The items with a leading REPEAT unfolded into its entries once. -/
def unfoldRep : List RItem → List RItem
  | .rep (n + 1) blk k :: rest => blk.map (fun e => .ent e k) ++ (if n = 0 then rest else .rep n blk k :: rest)
  | .rep 0 _ _ :: rest => rest
  | l => l

/-- Two entries are the same decision or output: DT words are set by the log's own time. -/
def sameEnt (a b : List Nat) : Bool :=
  match a, b with
  | x :: y :: r, x' :: y' :: r' => x == x' && ((fld y 0 6 == 0x3F && fld y' 0 6 == 0x3F) || y == y') && r == r'
  | _, _ => a == b

/-- The first word in which two entries differ. -/
def firstDiff (a b : List Nat) : Nat × Nat × Nat :=
  match a, b with
  | x :: r, y :: r' => if x = y ∨ (fld x 0 6 = 0x3F ∧ fld y 0 6 = 0x3F) then let d := firstDiff r r'; (d.1 + 1, d.2) else (0, x, y)
  | x :: _, [] => (0, x, 0)
  | [], y :: _ => (0, 0, y)
  | [], [] => (0, 0, 0)

/-- The unit produced or took entry `e` in REPLAY: it must be the next of the stream. -/
def W.rplProduce (w : W) (e : List Nat) : W :=
  let w := { w with dev.rpl.items := unfoldRep w.dev.rpl.items }
  let w := if w.dev.rpl.items.isEmpty then w.rplNext else w
  match w.dev.rpl.items with
  | .ent x k :: rest =>
    if sameEnt x e then { w with dev.rpl.items := rest, dev.rpl.done := w.dev.rpl.done + 1 }
    else let d := firstDiff x e; w.rplStop 3 8 (fld (nth x 0) 0 6) (k + d.1) d.2.1 d.2.2
  | _ => w

/-- The stream's next entry, with the line loaded where needed. -/
def W.rplExpect (w : W) : W × Option (List Nat) :=
  if w.dev.log.lstate ≠ 4 then (w, none)
  else
    let w := { w with dev.rpl.items := unfoldRep w.dev.rpl.items }
    let w := if w.dev.rpl.items.isEmpty then w.rplNext else w
    (w, (w.dev.rpl.head).map (·.1))

/-! ## Recording -/

/-- Record one entry (R347, R348): in RUN and POST it joins the line being filled, which closes when the
entry does not fit or its DT would exceed 335.5 ms; in REPLAY it is compared instead. -/
def W.logE (w : W) (e : List Nat) : W :=
  if w.dev.log.lstate = 4 then w.rplProduce e
  else if !w.dev.log.recording then w
  else
    match w.dev.log.cur with
    | none => w.newLine e
    | some o =>
      let dt := (w.now - o.time) / 5
      if dt ≥ 2 ^ 26 then w.closeLine.newLine e
      else
        match addTo o.ents (putDT e dt) with
        | some es => { w with dev.log.cur := some { o with ents := es, dirty := true } }
        | none => w.closeLine.newLine e

/-- A one-word entry of a kind with fields. -/
def W.logK (w : W) (kind : Nat) (fs : List (Nat × Nat × Nat)) : W := w.logE [packN ((0, 6, kind) :: fs)]

/-- An entry with a DT word. -/
def W.logT (w : W) (kind : Nat) (fs : List (Nat × Nat × Nat)) (rest : List Nat := []) : W :=
  w.logE (packN ((0, 6, kind) :: fs) :: 0x3F :: rest)

/-- Write one whole line of type START (1) or GAP (2). -/
def W.wholeLine (w : W) (ltype time : Nat) (body : List Byte) : W :=
  if !w.dev.log.recording then w
  else
    match w.closeLine.takeOseq with
    | (w, none) => w
    | (w, some q) =>
      let w := (w.stageLog { line := oLine q, data := oBytes q time ltype 0 body, order := true, count := true }).1
      if ltype = 1 then { w with dev.log.start := q } else w

/-- The START line of Table 18.5, with the given cause byte. -/
def W.startLine (w : W) (cause : Nat) : W :=
  let d := w.dev
  let pinLevels := packN (upto 32 (fun n => (n, 1, b2n (d.bd.lane n).pin)))
  w.wholeLine 1 w.now
    ([BitVec.ofNat 8 cause, BitVec.ofNat 8 d.ring.addr,
      BitVec.ofNat 8 (packN [(0, 1, b2n d.bar.bAlive), (1, 2, d.bar.pstate), (3, 4, d.sup.up.toNat), (7, 1, b2n d.tim.tset)]),
      BitVec.ofNat 8 (packN [(0, 2, d.tim.qual), (2, 2, d.tim.state)])] ++
      le 4 d.img.cfg.imgcrc.toNat ++ le 2 (packN [(0, 8, 0x02), (8, 8, if d.bar.bstepSeen then 0x02 else 0)]) ++
      le 8 w.mono ++ le 4 pinLevels ++ le 4 (ofInt 32 d.tim.fcorr))

/-- Record a reset while the log is frozen: FRST keeps the newest four (R351). The cause byte of a tenant or board reset is
an open value (log entry 2). -/
def W.frozenReset (w : W) (cause : Option Nat) : W :=
  if w.dev.log.lstate = 2 then
    let d := match cause with
      | some c => (c, w)
      | none => let x := w.draw; (x.1.toNat % 256, x.2)
    let w := d.2
    ({ w with dev.log.frst := (w.dev.log.frst ++ [(w.now % 2 ^ 56, d.1)]).drop (w.dev.log.frst.length + 1 - 4) }).logHeader
  else w

/-- One staged order-log line has been committed: the log freezes at the last of the POST lines after the trigger's
(Table 18.7, Edges). -/
def W.countPost (w : W) (l : SLine) : W :=
  if l.count && decide (w.dev.log.lstate = 1) && decide (w.dev.log.toseq + w.cfg.log.post ≤ at' l.data 0 4) then w.freezeLog else w

/-- End the commit of a line: its home line is written and its staging place freed. -/
def W.lineDone (w : W) : W :=
  match takeFirst (·.started) w.dev.sto.log with
  | (some l, rest) => (({ w with dev.sto.log := rest }).homeLine l).countPost l
  | (none, _) =>
    match takeFirst (·.started) w.dev.sto.own with
    | (some l, rest) => ({ w with dev.sto.own := rest }).homeLine l
    | (none, _) =>
      match takeFirst (·.started) w.dev.sto.win with
      | (some l, rest) => ({ w with dev.sto.win := rest }).homeLine l
      | (none, _) => w

/-- End every commit, started or staged (R94). -/
def W.commitAll (w : W) : W :=
  let s := w.dev.sto
  let w := { w with dev.sto.log := [], dev.sto.own := [], dev.sto.win := [] }
  (s.own ++ s.log ++ s.win).foldl W.homeLine w

/-- The line being filled is committed after 100 µs; it stays open while its last entry is a REPEAT that
still counts (R348). -/
def W.commitCur (w : W) : W :=
  match w.dev.log.cur with
  | none => w
  | some o =>
    match o.ents.getLast? with
    | some e =>
      if isRepeat e ∧ fld (nth e 0) 6 16 < 65535 then
        if o.dirty then
          { (w.stageLog { line := oLine o.oseq, data := o.bytes, order := true }).1 with dev.log.cur := some { o with dirty := false } }
        else w
      else w.closeLine
    | none => w

end Sys2Proof.Machine
end

