-- ==== Sys2Proof/Machine/Operands.lean ====
section
/-! DEFINITION. Operand forms: frames (Table 7.3), engine bindings (Table 13.1), the address map
(Table 1.5) and the fields of registers that commands name. -/

namespace Sys2Proof.Machine

/-! ## Frames -/

/-- A frame's fields (Table 7.3). -/
structure Frame where
  dst : Nat
  urg : Bool
  rfl' : Bool
  orig : Nat
  gen : Nat
  ten : Nat
  type : Nat
  seq : Nat
  len : Nat
  hops : Nat
  payload : List Byte
deriving DecidableEq, Repr, Inhabited

/-- Header bytes 0–7, with RFL as given. -/
def Frame.head8 (f : Frame) (rfl : Bool) : List Byte :=
  [BitVec.ofNat 8 (packN [(0, 6, f.dst), (6, 1, b2n f.urg), (7, 1, b2n rfl)]),
   BitVec.ofNat 8 (packN [(0, 6, f.orig)]),
   BitVec.ofNat 8 (packN [(0, 2, f.gen), (2, 3, f.ten)]), BitVec.ofNat 8 f.type] ++ le 2 f.seq ++ le 2 f.len

/-- The FCRC: bytes 0–7 with RFL taken as 0, then the payload. -/
def Frame.fcrc (f : Frame) : Nat := crc32 (f.head8 false ++ f.payload)

/-- The bytes of a frame: header with HCRC, payload, FCRC. -/
def Frame.bytes (f : Frame) : List Byte :=
  let h := f.head8 f.rfl' ++ [BitVec.ofNat 8 f.hops]
  h ++ [BitVec.ofNat 8 (crc8 h)] ++ f.payload ++ le 4 f.fcrc

/-- Read a frame's fields from its bytes; the payload is what LEN names. -/
def readFrame (bs : List Byte) : Frame :=
  let b := fun i => (bs.getD i 0).toNat
  let len := at' bs 6 2 % 2048
  { dst := fld (b 0) 0 6, urg := tbit (b 0) 6, rfl' := tbit (b 0) 7, orig := fld (b 1) 0 6,
    gen := fld (b 2) 0 2, ten := fld (b 2) 2 3, type := b 3, seq := at' bs 4 2, len := len, hops := b 8,
    payload := (bs.drop 10).take len }

/-- HCRC over bytes 0–8 agrees with byte 9. -/
def hcrcOk (bs : List Byte) : Bool := crc8 (bs.take 9) == (bs.getD 9 0).toNat

/-- The FCRC received after the payload. -/
def rxFcrc (bs : List Byte) (f : Frame) : Nat := at' bs (10 + f.len) 4

/-- FCRC agrees: bytes 0–7 as received, RFL taken as 0, then the payload. -/
def fcrcOk (bs : List Byte) (f : Frame) : Bool :=
  crc32 (BitVec.ofNat 8 ((bs.getD 0 0).toNat % 128) :: (bs.take 8).drop 1 ++ f.payload) == rxFcrc bs f

/-! ## Engine bindings -/

/-- Role `k` of an engine: its lane when enabled (Table 13.10). -/
def EngCfg.role (e : EngCfg) (k : Nat) : Option Nat :=
  let r := fld e.roles.toNat (8 * k) 8
  if tbit r 5 then some (r % 32) else none

/-- The group lanes of an engine. -/
def EngCfg.group (e : EngCfg) : List Nat := upto e.gcount (fun i => e.gbase + i)

/-- The lanes an engine binds. -/
def EngCfg.lanes (e : EngCfg) : List Nat :=
  if e.mode = 0 then [] else e.group ++ [0, 1, 2, 3].filterMap e.role

/-- A SYNC engine is a slave (Table 13.11). -/
def EngCfg.slave (e : EngCfg) : Bool := tbit e.tim0.toNat 12

/-- The lanes an engine drives (Tables 13.1, 13.11). -/
def EngCfg.outLanes (e : EngCfg) : List Nat :=
  match e.mode with
  | 1 => e.group ++ [0, 2].filterMap e.role
  | 2 => e.group
  | 3 => [0, 2].filterMap e.role
  | 4 => if e.slave then [1].filterMap e.role else [0, 1, 3].filterMap e.role
  | 5 => (e.group.zip (List.range 8)).filterMap (fun p => if tbit e.tim0.toNat p.2 then some p.1 else none)
  | 6 => [0, 1].filterMap e.role
  | _ => []

/-- The engine a lane is bound to. -/
def Cfg.engOf (c : Cfg) (n : Nat) : Option Nat := (List.range 8).find? (fun e => (c.eng e).lanes.contains n)

/-- A lane drives in normal operation: LEVEL_OUT, or bound to an engine that drives it ("The lamplighter and
missed refreshes"). -/
def Cfg.outLane (c : Cfg) (n : Nat) : Bool :=
  (c.lane n).mode == 2 || ((c.lane n).mode == 4 && (List.range 8).any (fun e => (c.eng e).outLanes.contains n))

/-- A lane is the board end of an enabled A→B direct channel. -/
def Cfg.abLane (c : Cfg) (n : Nat) : Bool := decide (n < 8) && c.dirEn.getLsbD n && !c.dirBA.getLsbD n

/-- The mask of the output lanes. -/
def Cfg.outMask (c : Cfg) : BitVec 32 := BitVec.ofNat 32 (packN (upto 32 (fun n => (n, 1, b2n (c.outLane n)))))

/-- The tenants that own a lane: the owner set, or the engine's owner (R244, R260). -/
def Cfg.ownsLane (c : Cfg) (t n : Nat) : Bool :=
  match c.engOf n with
  | some e => (c.eng e).owner == t
  | none => (c.lane n).owners.getLsbD t

/-- The fail-safe value of a lane in the codes of Table 12.5 (safe code, R97): HIGH on an open-drain lane is
released, HOLD takes the second stage. -/
def safeCode (c : Cfg) (n : Nat) : Nat :=
  let v := (c.lfs n).fsv
  let v := if v = 3 then (c.lfs n).second else v
  match v with
  | 0 => 0
  | 1 => if (c.lane n).od then 2 else 1
  | _ => 2

/-- The I/O bank of a lane. -/
abbrev bankOf (n : Nat) : Nat := n / 8

/-! ## Address map -/

/-- A board-side address: LAN, ENG or the board part of IDN (R21). -/
def isBoardAddr (a : Nat) : Bool :=
  (decide (0x50000 ≤ a) && decide (a ≤ 0x507FF)) || (decide (0x60000 ≤ a) && decide (a ≤ 0x61FFF)) ||
  (decide (0xA8000 ≤ a) && decide (a ≤ 0xAFFFF))

/-- An address inside some range of Table 1.5 (R19). -/
def isMapped (a : Nat) : Bool :=
  decide (a ≤ 0x4FFF) || (decide (0x10000 ≤ a) && decide (a ≤ 0x14FFF)) ||
  (decide (0x20000 ≤ a) && decide (a ≤ 0x4FFFF)) || isBoardAddr a ||
  (decide (0x70000 ≤ a) && decide (a ≤ 0x9FFFF)) || (decide (0xA0000 ≤ a) && decide (a ≤ 0xA7FFF)) ||
  (decide (0xB0000 ≤ a) && decide (a ≤ 0xEFFFF)) || (decide (0x100000 ≤ a) && decide (a ≤ 0x13FFFF)) ||
  (decide (0x200000 ≤ a) && decide (a ≤ 0x23FFFF))

/-- The engine whose window holds an address, with the offset in it. -/
def engAddr (a : Nat) : Nat × Nat := ((a - 0x60000) / 0x400, a % 0x400)

/-- The engine whose base an address is (R261). -/
def engBase (a : Nat) : Option Nat :=
  if 0x60000 ≤ a ∧ a ≤ 0x61FFF ∧ a % 0x400 = 0 then some ((a - 0x60000) / 0x400) else none

end Sys2Proof.Machine
end

