-- ==== Sys2Proof/Machine/RingOut.lean ====
section
/-! DEFINITION. The ring outputs (chapter 7): routing, merging, preemption and sending, and the packets that
the unit itself places for the board die. -/

namespace Sys2Proof.Machine

/-! ## Ports and routing -/

def Ring.port (r : Ring) : RPort → RingPort
  | .up => r.up
  | .dn => r.dn

def W.modPort (w : W) (p : RPort) (f : RingPort → RingPort) : W :=
  match p with
  | .up => { w with dev.ring.up := f w.dev.ring.up }
  | .dn => { w with dev.ring.dn := f w.dev.ring.dn }

def otherPort : RPort → RPort
  | .up => .dn
  | .dn => .up

/-- UP is 0 and DN is 1 in log entries. -/
def portNo : RPort → Nat
  | .up => 0
  | .dn => 1

/-- A port is in RUN. -/
def W.running (w : W) (p : RPort) : Bool := (w.dev.ring.port p).st == 4

/-- The unit's own index in the line order. -/
def W.ringPos (w : W) : Nat := w.dev.ring.view.findIdx (fun e => e.1 == w.dev.fus.serial)

/-- The output of a unicast frame the unit originates (Ring states and routing). -/
def W.unicastPort (w : W) (dst : Nat) : RPort :=
  let r := w.dev.ring
  let i := r.view.findIdx (fun e => e.2 == dst)
  let p := if r.split && decide (i < r.view.length) && decide (i < w.ringPos) then RPort.up else RPort.dn
  if w.running p || !w.running (otherPort p) then p else otherPort p

/-! ## Sending -/

/-- A TIME payload at the moment of sending (Table 16.1); byte 8–11 starts at the port's LINKDLY. -/
def W.timePayload (w : W) (p : RPort) (disc : Bool) : List Byte :=
  let t := w.dev.tim
  le 8 t.now ++ le 4 (match p with | .up => w.cfg.time.upDly | .dn => w.cfg.time.dnDly) ++
    [BitVec.ofNat 8 (packN [(0, 2, t.qual), (2, 1, b2n disc)]), BitVec.ofNat 8 t.stepno] ++ le 2 w.cfg.time.tmper

/-- A frame of the unit's own at the start of its sending: TSEND and CORR of a TIME frame are taken then
(R314). -/
def W.restamp (w : W) (p : RPort) (o : OutFrame) : OutFrame :=
  let f := readFrame o.bytes
  if o.own && f.type == 4 then
    { o with bytes := { f with payload := w.timePayload p (tbit (at' f.payload 12 1) 2) }.bytes }
  else o

/-- The next frame of an output (Forwarding): urgent before non-urgent, of two urgent ones the forwarded,
of two non-urgent ones the source that did not send last. -/
def pickOut (r : RingPort) : Option Bool :=
  match r.fwdQ, r.ownQ with
  | [], [] => none
  | _ :: _, [] => some false
  | [], _ :: _ => some true
  | f :: _, o :: _ =>
    if f.urg then some false else if o.urg then some true else some (!r.lastOwn)

/-- The index of the first urgent frame of a queue. -/
def urgIdx (q : List OutFrame) : Option Nat := q.findIdx? (·.urg)

/-- The queue with its first urgent frame moved to its head: an urgent frame goes before a non-urgent one. -/
def urgFirst (q : List OutFrame) : List OutFrame :=
  match urgIdx q with
  | some i => q.drop i |>.take 1 |>.append (q.eraseIdx i)
  | none => q

/-- Start the next waiting frame of an output, and record the merge (R347). -/
def W.startOut (w : W) (p : RPort) : W :=
  let w := w.modPort p (fun r => { r with fwdQ := urgFirst r.fwdQ, ownQ := urgFirst r.ownQ })
  let r := w.dev.ring.port p
  match pickOut r with
  | none => w
  | some own =>
    match (if own then r.ownQ else r.fwdQ) with
    | [] => w
    | o :: rest =>
      let o := w.restamp p o
      let w := w.logK 0x04 [(6, 1, portNo p), (7, 1, b2n own)]
      w.modPort p (fun r => { r with cur := some (o, o.bytes.length), lastOwn := own,
                                     ownQ := (if own then rest else r.ownQ), fwdQ := (if own then r.fwdQ else rest) })

/-- End the non-urgent frame in transmission with EOP2 when an urgent one waits, at most four times for one
frame (R133); it waits at the head of its own source's queue to be sent again whole. -/
def W.preempt (w : W) (p : RPort) : W :=
  let r := w.dev.ring.port p
  match r.cur with
  | some (o, _) =>
    if !o.urg && decide (o.pre < 4) && (r.fwdQ.any (·.urg) || r.ownQ.any (·.urg)) then
      let o' := { o with pre := o.pre + 1 }
      let w := { w with dev.ring.preempts := satAdd 16 w.dev.ring.preempts 1 }
      w.modPort p (fun r => { r with cur := none, lastOwn := !o.own, tx := (o.bytes, true) :: r.tx,
                                     ownQ := (if o.own then o' :: r.ownQ else r.ownQ),
                                     fwdQ := (if o.own then r.fwdQ else o' :: r.fwdQ) })
    else w
  | none => w

/-- Send as far as the credit allows: one data character for each frame byte. -/
def W.pump (w : W) (p : RPort) : Nat → W
  | 0 => w
  | n + 1 =>
    if !w.running p then w
    else
      let w := w.preempt p
      let w := if (w.dev.ring.port p).cur.isNone then w.startOut p else w
      let r := w.dev.ring.port p
      match r.cur with
      | none => w
      | some (o, left) =>
        let k := min left r.credit
        if k = left then
          (w.modPort p (fun r => { r with cur := none, credit := r.credit - k, tx := (o.bytes, false) :: r.tx })).pump p n
        else w.modPort p (fun r => { r with cur := some (o, left - k), credit := r.credit - k })

/-- Send what waits at a port. -/
def W.flush (w : W) (p : RPort) : W :=
  let r := w.dev.ring.port p
  w.pump p (2 * (r.fwdQ.length + r.ownQ.length) + 6)

/-- Put a frame at an output. -/
def W.putOut (w : W) (p : RPort) (o : OutFrame) : W :=
  (w.modPort p (fun r => if o.own then { r with ownQ := r.ownQ ++ [o] } else { r with fwdQ := r.fwdQ ++ [o] })).flush p

/-- A unicast frame of the unit's own: with neither port in RUN it is dropped and counted (R131). No ring
frame is placed in REPLAY (R359). -/
def W.sendUnicast (w : W) (dst : Nat) (bytes : List Byte) : W :=
  if w.dev.log.lstate = 4 then w
  else
    let p := w.unicastPort dst
    if w.running p then w.putOut p { bytes := bytes, own := true, urg := tbit (at' bytes 0 1) 6 }
    else { w with dev.ring.dropN := satAdd 8 w.dev.ring.dropN 1 }

/-- One copy of a frame of the unit's own out of one port when it is in RUN. -/
def W.sendPort (w : W) (p : RPort) (bytes : List Byte) : W :=
  if w.dev.log.lstate = 4 ∨ !w.running p then w
  else w.putOut p { bytes := bytes, own := true, urg := tbit (at' bytes 0 1) 6 }

/-- A broadcast of the unit's own: out DN in CLOSED (or UP when DN is not in RUN), out each port in SPLIT. -/
def W.sendBroadcast (w : W) (bytes : List Byte) : W :=
  if w.dev.ring.split then
    if w.running .up && w.running .dn then (w.sendPort .up bytes).sendPort .dn bytes
    else if w.running .dn then w.sendPort .dn bytes else w.sendPort .up bytes
  else if w.running .dn then w.sendPort .dn bytes else w.sendPort .up bytes

/-! ## Packets of the rack die itself -/

/-- A packet ranking with the lamplighter's control packets (Table 10.2), queued while the board die is
alive. -/
def W.control (w : W) (b : Payload) : W :=
  if w.dev.bar.bAlive then { w with dev.arb.ctl := w.dev.arb.ctl ++ [{ body := b }] } else w

/-! ## Packets of the board die -/

/-- A packet the board die makes ready on its status list (R207); nothing while its core is off. -/
def W.status (w : W) (b : Payload) : W :=
  if w.dev.bd.core then { w with dev.bd.outS := w.dev.bd.outS ++ [{ body := b }] } else w

/-- A board-side raise goes into the page 3 packet being made ready, or a new one (Table 15.2). -/
def addEvent (e : BEvent) : List Pkt → List Pkt
  | [] => [{ body := .page3 [e] }]
  | [p] =>
    match p.body with
    | .page3 es => if es.length < 4 then [{ p with body := .page3 (es ++ [e]) }] else [p, { body := .page3 [e] }]
    | _ => [p, { body := .page3 [e] }]
  | p :: rest => p :: addEvent e rest

/-- A raise that comes from pins and supplies, marked so in the order log (R358). -/
def pinSrc (s : Nat) : Bool :=
  [0x03, 0x04, 0x05, 0x06, 0x07, 0x08, 0x42, 0x43, 0x44, 0x4A].contains s

/-- The board-side collector takes a raise (Table 15.2). -/
def W.bEvent (w : W) (e : BEvent) : W :=
  if w.dev.bd.core then { w with dev.bd.outS := addEvent e w.dev.bd.outS } else w

/-- A raise on the board die; in REPLAY those from pins come from the log alone (R358). -/
def W.bRaise (w : W) (source dom detail : Nat) (wire : Bool := false) : W :=
  if w.dev.log.lstate = 4 ∧ pinSrc source then w else w.bEvent { source := source, wire := wire, dom := dom, detail := detail }

/-- The board die records an order-log entry; the rack die has it in a STATUS page 5 packet (R347). -/
def W.bLog (w : W) (e : List Nat) : W :=
  if w.dev.bd.core then { w with dev.bd.outS := w.dev.bd.outS ++ [{ body := .page5 [e] }] } else w

def W.bLogK (w : W) (kind : Nat) (fs : List (Nat × Nat × Nat)) : W := w.bLog [packN ((0, 6, kind) :: fs)]

def W.bLogT (w : W) (kind : Nat) (fs : List (Nat × Nat × Nat)) (rest : List Nat := []) : W :=
  w.bLog (packN ((0, 6, kind) :: fs) :: 0x3F :: rest)

end Sys2Proof.Machine
end

