-- ==== Sys2Proof/Machine/Faults.lean ====
section
/-! DEFINITION. The fault collector (chapter 15): reaction words, the slot procedure, captures, notices, lane
groups and the fault log; and the reply queue of the host port (R152), which a notice may enter. -/

namespace Sys2Proof.Machine

/-! ## Sources -/

/-- The reserved sources, never raised. -/
def reservedSrc (s : Nat) : Bool :=
  s == 0x09 || s == 0x1D || (decide (0x26 ≤ s) && decide (s ≤ 0x2F)) || (decide (0x39 ≤ s) && decide (s ≤ 0x3D)) ||
  s == 0x3F || (decide (0x45 ≤ s) && decide (s ≤ 0x47)) || s == 0x4F || (decide (0x54 ≤ s) && decide (s ≤ 0x57)) ||
  decide (0x60 ≤ s)

/-- The native class of a source: 0 C, 1 U. No source is F by itself. -/
def nativeCls (s : Nat) : Nat :=
  if [0x02, 0x04, 0x05, 0x06, 0x07, 0x0A, 0x0E, 0x0F, 0x13, 0x16, 0x1E, 0x20, 0x21, 0x22, 0x32, 0x34, 0x35,
      0x52, 0x53, 0x5A, 0x5D, 0x5E, 0x5F].contains s then 1 else 0

/-- The source is raised in a tenant's domain. -/
def tenantSrc (s : Nat) : Bool :=
  [0x1A, 0x1B, 0x20, 0x21, 0x22, 0x23, 0x24, 0x25, 0x30, 0x31, 0x40, 0x41, 0x48, 0x49, 0x4A, 0x4B, 0x4C, 0x4D, 0x4E,
   0x50, 0x51].contains s

/-- The source's pair lies on the board die; that of DIRECT_FS (0x36) also has a rack-side pair. -/
def boardSrc (s : Nat) : Bool :=
  [0x03, 0x04, 0x05, 0x06, 0x07, 0x08, 0x0D, 0x35, 0x37, 0x38, 0x40, 0x41, 0x42, 0x43, 0x44, 0x48, 0x49, 0x4A, 0x4B,
   0x4C, 0x4D, 0x4E].contains s

/-- The domain code of registers, notices and logs: 7 is the unit. -/
def domCode (d : Nat) : Nat := if d = dUnit then 7 else d

/-- The reaction word set for a source, if any. -/
def FltCfg.word (f : FltCfg) (s : Nat) : Option Nat := (f.react.find? (fun e => e.1 == s)).map (·.2)

/-- The reaction word in force for a source in a domain when it holds class `c` (Table 15.10). -/
def FltCfg.react' (f : FltCfg) (s d c : Nat) : Nat :=
  match f.word s with
  | some x => x
  | none => packN [(0, 2, nativeCls s), (2, 5, (if d = dUnit then 0 else 2 ^ d) ||| 0x10), (13, 1, if c = 1 then 0 else 1)]

/-- The effective class of a source (R294). -/
def FltCfg.effClass (f : FltCfg) (s : Nat) : Nat := max (nativeCls s) (fld (f.react' s dUnit 0) 0 2)

/-! ## Slots -/

/-- Slot of domain `d` and class `c`. -/
def Faults.slot (f : Faults) (d c : Nat) : Slot := tget {} f.slots (3 * d + c)

def Faults.setSlot (f : Faults) (d c : Nat) (s : Slot) : Faults := { f with slots := tput f.slots (3 * d + c) s }

/-- The sources of a hard stop in domain `d` still to be acknowledged. -/
def Faults.stopOf (f : Faults) (d : Nat) : List Nat := tget [] f.hstop d

/-- Domain `d` is in hard stop. -/
def Faults.stopped (f : Faults) (d : Nat) : Bool := !(f.stopOf d).isEmpty

/-- The unit is in the fatal state. -/
def Faults.fatal (f : Faults) : Bool := (f.slot dUnit 2).st != 0 || f.stopped dUnit

/-- A tenant domain is blocked (R300, R301). -/
def Faults.blocked (f : Faults) (d : Nat) : Bool := decide (d < 5) && ((f.slot d 2).st != 0 || f.stopped d)

/-- The wire fault of a source is present. -/
def Faults.wired (f : Faults) (s : Nat) : Bool := f.wires.any (fun e => e.1 == s)

/-- Every slot that is not CLEAR, with its domain and class. -/
def Faults.active (f : Faults) : List (Nat × Nat × Slot) :=
  (f.slots.filter (fun e => e.2.st != 0)).map (fun e => (e.1 / 3, e.1 % 3, e.2))

/-- The lane group mask of a slot's reaction word; an unset group has mask 0. -/
def groupMask (c : FltCfg) (word d cl : Nat) : BitVec 32 :=
  let g := fld word 8 3
  if g = 0 ∨ (d = dUnit ∧ cl = 2) then 0 else c.lgrp.getD (g - 1) 0

/-- The output lanes that the active slots and the fatal state put under the cause REACTION (R298). -/
def W.unionNow (w : W) : BitVec 32 :=
  let c := w.cfg.flt
  let m := w.dev.flt.active.foldl (fun acc e => acc ||| groupMask c e.2.2.word e.1 e.2.1) 0
  if w.dev.flt.fatal then w.cfg.outMask else m &&& w.cfg.outMask

/-- Send the LANECMD packets that bring the board die to the present union (R298). -/
def W.regroup (w : W) : W :=
  let new := w.unionNow
  let old := w.dev.flt.union
  let w := { w with dev.flt.union := new }
  let w := if new &&& ~~~old = 0 then w else w.control (.lanecmd (new &&& ~~~old) 3 true)
  if old &&& ~~~new = 0 then w else w.control (.lanecmd (old &&& ~~~new) 3 false)

/-! ## The fault log (Tables 15.7, 15.8) -/

/-- The fault log header line. -/
def Faults.header (f : Faults) : List Byte :=
  lcrcLine (mark4 0x56 0x4E 0x46 0x4C ++ le 4 f.next ++ [BitVec.ofNat 8 f.head, 0, 0, 0] ++ le 8 f.vcount ++ le 2 f.vfail ++
    List.replicate 38 0)

/-- The holdup report in the EXT bytes: three bytes for each operation, its ticket and issue count in
[11:0] and its step in [17:12]; byte 23 holds the banks down (DESIGN CHOICE, log entry 40). -/
def extBytes : Option HoldRep → List Byte
  | none => List.replicate 24 0
  | some r => padTo 23 (r.ops.flatMap (fun o => le 3 (packN [(0, 12, o.1), (12, 6, o.2)]))) ++ [r.banks.setWidth 8]

/-- The bytes of a fault-log entry. -/
def LogEv.bytes (e : LogEv) (seq vcount vfail : Nat) : List Byte :=
  lcrcLine (le 4 seq ++
    [BitVec.ofNat 8 e.src,
     BitVec.ofNat 8 (packN [(0, 2, e.cls), (2, 1, b2n e.esc), (3, 1, b2n e.wire), (4, 1, b2n e.forced), (5, 3, domCode e.dom)]),
     BitVec.ofNat 8 (packN [(0, 4, e.acc), (4, 4, e.ten)]), BitVec.ofNat 8 e.event] ++
    le 8 e.time ++ [BitVec.ofNat 8 e.q, 0] ++ le 2 e.count ++ le 4 e.addr ++ le 4 e.detail ++ extBytes e.ext ++
    le 2 e.recov ++ le 4 vcount ++ le 2 vfail)

/-- Stage the header line; a header staged and not started is replaced. -/
def W.stageHeader (w : W) : W :=
  let h := w.dev.flt.header
  if w.dev.sto.own.any (fun l => l.line == lnFault && !l.started) then
    { w with dev.sto.own := w.dev.sto.own.map (fun l => if l.line == lnFault && !l.started then { l with data := h } else l) }
  else w.stageOwn lnFault h

/-- Move waiting log events into the staging memory, the entry first and the header after it (R307). -/
def W.pumpEvents (w : W) : Nat → W
  | 0 => w
  | n + 1 =>
    match w.dev.flt.evq with
    | [] => w
    | e :: rest =>
      let f := w.dev.flt
      let r := w.stageLog { line := lnFault + f.head, data := e.bytes f.next f.vcount f.vfail, flt := true }
      if r.2 then
        let w := { r.1 with dev.flt.evq := rest, dev.flt.head := f.head % 255 + 1,
                            dev.flt.next := (if f.next = 2 ^ 32 - 1 then 1 else f.next + 1) }
        w.stageHeader.pumpEvents n
      else w

/-- Queue a log event: folded into a waiting entry of the same source (R307). -/
def W.logEvent (w : W) (e : LogEv) : W :=
  let q := w.dev.flt.evq
  let q := if q.any (fun x => x.src == e.src) then
      q.map (fun x => if x.src == e.src then { x with count := satAdd 16 x.count e.count, event := x.event ||| e.event } else x)
    else q ++ [e]
  ({ w with dev.flt.evq := q }).pumpEvents q.length

/-- The SEQ that the entry of a source has or will have. -/
def Faults.seqOf (f : Faults) (s : Nat) : Nat :=
  let i := f.evq.findIdx (fun x => x.src == s)
  f.next + min i f.evq.length

/-! ## Replies and notices -/

/-- KiB in use by the reply queue, rounded up. -/
def HostPort.rqBytes (h : HostPort) : Nat := h.rq.foldl (fun a r => a + r.bytes.length) 0

/-- The reply queue cannot hold a reply of `n` bytes (R152). -/
def HostPort.rqFull (h : HostPort) (n : Nat) : Bool := decide (128 ≤ h.rq.length) || decide (16384 < h.rqBytes + n)

/-- The payload of an error reply (Table 8.12). -/
def errPayload (code detail seq offset gen ten : Nat) : List Byte :=
  [BitVec.ofNat 8 code, BitVec.ofNat 8 detail] ++ le 2 seq ++ le 2 offset ++
    [BitVec.ofNat 8 (packN [(0, 2, gen), (2, 3, ten)]), 0]

/-- Send the notice of a raise to tenant `t` (Table 15.6): to NADDR over the ring, or into this unit's own
reply queue, where it also sets the tenant's HPT_IRQ bit; one that cannot be delivered is dropped (R305). -/
def W.notice (w : W) (t s d c : Nat) (esc wire stop : Bool) (seq : Nat) : W :=
  let gen := (w.dev.ten t).gen
  let pay := errPayload 0x09 s (seq % 65536)
    (packN [(0, 2, c), (2, 1, b2n esc), (3, 1, b2n wire), (4, 3, domCode d), (7, 1, b2n stop)]) gen t
  let na := nth w.cfg.flt.naddr t
  let own := w.dev.ring.addr
  let f : Frame := { dst := if na = 0 then own else na, urg := false, rfl' := false, orig := own, gen := gen, ten := t,
                     type := 3, seq := 0, len := 8, hops := 0, payload := pay }
  if na = 0 ∨ na = own then
    if w.dev.hpt.rqFull f.bytes.length then
      { w with dev.hpt.irqDrop := true, dev.hpt.replyDrop := satAdd 8 w.dev.hpt.replyDrop 1,
               dev.hpt.irqTen := w.dev.hpt.irqTen ||| BitVec.ofNat 5 (2 ^ t) }
    else
      { w with dev.hpt.rq := w.dev.hpt.rq ++ [{ short := false, err := true, ten := t, bytes := f.bytes }],
               dev.hpt.irqErr := true, dev.hpt.irqTen := w.dev.hpt.irqTen ||| BitVec.ofNat 5 (2 ^ t) }
  else if own = 0 then w
  else w.sendUnicast na f.bytes

/-! ## One raise -/

/-- What a raise carries besides source and domain. -/
structure RaiseInfo where
  wire : Bool := false
  forced : Bool := false
  addr : Nat := 0
  acc : Nat := 0
  ten : Nat := 7
  detail : Nat := 0
  ext : Option HoldRep := none
  time : Option Nat := none
deriving DecidableEq, Repr, Inhabited

/-- The outcome of the slot procedure: a fresh slot, a raise in a STANDING slot, or a hard stop. -/
inductive Decision where
  | fresh (c : Nat) (esc : Bool)
  | again (c : Nat) (esc : Bool)
  | stop (esc : Bool)
deriving DecidableEq, Repr

/-- The procedure of "Classes, slots and escalation" in domain `d` from class `c` on; a tenant F whose reset
is under way counts as held. -/
def Faults.decide' (f : Faults) (d : Nat) : Nat → Nat → Bool → Decision
  | 0, _, esc => .stop esc
  | n + 1, c, esc =>
    let sl := f.slot d c
    if sl.st = 0 ∧ ¬ (c = 2 ∧ f.fpend.any (fun e => e.1 == d)) then .fresh c esc
    else if c = 2 then .stop esc
    else if sl.st = 1 then f.decide' d n (c + 1) true
    else .again c esc

/-- The class a decision takes. -/
def Decision.cls : Decision → Nat
  | .fresh c _ => c
  | .again c _ => c
  | .stop _ => 2

def Decision.esc : Decision → Bool
  | .fresh _ e => e
  | .again _ e => e
  | .stop e => e

/-- Write the capture registers at the first raise, count a later one (R297). -/
def W.capture (w : W) (s d c : Nat) (esc : Bool) (x : RaiseInfo) : W :=
  let o := tget {} w.dev.flt.caps s
  let n : Capture := if o.held then { o with count := satAdd 8 o.count 1 } else
    { held := true, cls := c, esc := esc, wire := x.wire, forced := x.forced, dom := domCode d, count := 1, addr := x.addr,
      acc := x.acc, ten := x.ten, q := w.dev.tim.qual, time := x.time.getD w.now, detail := x.detail, ext := x.ext }
  { w with dev.flt.caps := tput w.dev.flt.caps s n }

/-- The notices of a raise: the tenants its word names and the fixed ones of Table 15.4. -/
def noticeMask (word d c : Nat) : Nat :=
  let fixed := if c = 0 then 0 else if c = 1 then (if d = dUnit then 0 else 2 ^ d) else if d = dUnit then 0x10 else 0x10 ||| 2 ^ d
  fld word 2 5 ||| fixed

/-- Set the slot of a fresh raise and start its class's reactions (Table 15.4, R298, R300). -/
def W.react (w : W) (s d c : Nat) (esc : Bool) : W :=
  let word := w.cfg.flt.react' s d c
  if c = 2 ∧ d ≠ dUnit then
    ({ w with dev.flt.fpend := tput w.dev.flt.fpend d (s, esc) }).ask (.tenant d)
  else
    let w := ({ w with dev.flt := w.dev.flt.setSlot d c { st := 1, src := s, t0 := w.mono, esc := esc, word := word } }).regroup
    if c = 2 then w.ask .baton
    else
      match fld word 11 2 with
      | 1 => w.ask (.tenant d)
      | 2 => w.ask .board
      | 3 => w.ask (.soft 5)
      | _ => w

/-- Enter or continue a hard stop: the first F and this one must both be acknowledged (R301). -/
def Faults.stopMore (f : Faults) (s d : Nat) : Faults :=
  let first := if (f.slot d 2).st = 0 then (f.fpend.filter (fun (e : Nat × Nat × Bool) => e.1 == d)).map (fun e => e.2.1)
    else [(f.slot d 2).src]
  { f with hstop := tput f.hstop d ((f.stopOf d ++ first ++ [s]).eraseDups) }

/-- The reactions of a decision on its slot. -/
def W.reactTo (w : W) (s d : Nat) : Decision → W
  | .fresh c esc => w.react s d c esc
  | .again _ _ => w
  | .stop _ => (w.modFlt (fun f => f.stopMore s d)).regroup

/-- The decision on a raise: its effective class, never below U for a wire fault. -/
def W.decision (w : W) (s d : Nat) (wire : Bool) : Decision :=
  let c0 := w.cfg.flt.effClass s
  w.dev.flt.decide' d 3 (if wire then max c0 1 else c0) false

def Decision.isStop : Decision → Bool
  | .stop _ => true
  | _ => false

/-- Record and capture a decided raise; one of class U or above in the unit domain is the service log's LFSRC
(Table 17.5). -/
def W.record (w : W) (s d : Nat) (x : RaiseInfo) (dec : Decision) : W :=
  let w := w.logK 0x05 [(6, 7, s), (13, 3, domCode d), (16, 2, dec.cls), (18, 1, b2n dec.esc), (19, 1, b2n (pinSrc s && !x.forced))]
  let w := w.capture s d dec.cls dec.esc x
  let w := w.modFlt (fun f => { f with wires := if x.wire then tput f.wires s d else f.wires })
  let w := if d = dUnit ∧ 1 ≤ dec.cls then w.modIdn (fun i => { i with lfsrc := s, lfcls := dec.cls }) else w
  w.logEvent { src := s, cls := if dec.isStop then 3 else dec.cls, esc := dec.esc, wire := x.wire, forced := x.forced, dom := d,
               acc := x.acc, ten := x.ten, event := 1, time := w.now, q := w.dev.tim.qual, count := 1,
               addr := x.addr, detail := x.detail, ext := x.ext, recov := w.dev.flt.recov }

/-- The notices of a decided raise, one to each tenant of the mask. -/
def W.notices (w : W) (s d : Nat) (wire : Bool) (dec : Decision) (seq : Nat) : W :=
  let mask := noticeMask (w.cfg.flt.react' s d dec.cls) d dec.cls
  w.forEach (List.range 5) (fun w t => if mask.testBit t then w.notice t s d dec.cls dec.esc wire dec.isStop seq else w)

/-- A raise whose class taken is at or above TCLASS triggers the order log (Table 18.7). -/
def W.classTrigger (w : W) (c : Nat) : W :=
  if w.cfg.log.tclass ≠ 0 ∧ w.cfg.log.tclass ≤ c + 1 then w.trigger else w

/-- One raise of source `s` in domain `d` (R293, R295–R298, R305, R307). -/
def W.raise (w : W) (s d : Nat) (x : RaiseInfo := {}) : W :=
  if reservedSrc s || w.dev.flt.wired s then w
  else
    let dec := w.decision s d x.wire
    let seq := w.dev.flt.seqOf s
    ((((w.record s d x dec).reactTo s d dec).notices s d x.wire dec seq).classTrigger dec.cls)

/-- A raise in the unit domain. -/
def W.raiseU (w : W) (s : Nat) (detail : Nat := 0) : W := w.raise s dUnit { detail := detail }

/-! ## Acknowledgement and recovery -/

/-- The source holds some slot or is the source of an F under reset. -/
def Faults.holds (f : Faults) (s d : Nat) : Bool :=
  f.active.any (fun e => e.1 == d && e.2.2.src == s) || (f.stopOf d).contains s

/-- The slots with every one of domain `d` that holds source `s` at CLEAR. -/
def Faults.dropSource (f : Faults) (s d : Nat) : Faults :=
  let left := (f.stopOf d).filter (· != s)
  let cap : Capture := tget {} f.caps s
  { f with slots := f.slots.map (fun (e : Nat × Slot) => if e.1 / 3 == d && e.2.src == s && e.2.st != 0 then (e.1, ({} : Slot)) else e),
           hstop := (if left.isEmpty then tdel f.hstop d else tput f.hstop d left),
           caps := (if cap.held then tput f.caps s { cap with held := false } else f.caps) }

/-- The class and escalation that an acknowledgement or recovery of a source is logged with: a hard stop, the highest slot of
the domain that the source holds, else its capture's (DEDUCED, log entry 60). -/
def Faults.loggedClass (f : Faults) (s d : Nat) : Nat × Bool :=
  let cap : Capture := tget {} f.caps s
  if (f.stopOf d).contains s then (3, cap.esc)
  else
    match [2, 1, 0].find? (fun c => (f.slot d c).st != 0 && (f.slot d c).src == s) with
    | some c => (c, (f.slot d c).esc)
    | none => (cap.cls, cap.esc)

/-- Take every slot of the domain that holds the source to CLEAR and end its reactions (R303). -/
def W.clearSource (w : W) (s d : Nat) : W :=
  let cap : Capture := tget {} w.dev.flt.caps s
  let k := w.dev.flt.loggedClass s d
  let w := (w.modFlt (fun f => f.dropSource s d)).regroup
  w.logEvent { src := s, cls := k.1, esc := k.2, wire := cap.wire, forced := cap.forced, dom := d, acc := cap.acc,
               ten := cap.ten, event := 2, time := w.now, q := w.dev.tim.qual, count := 0,
               addr := cap.addr, detail := cap.detail, ext := cap.ext, recov := w.dev.flt.recov }

/-- The C and U slots of a domain at CLEAR (R88); a hard stop and the F slot stay. -/
def Faults.dropDomain (f : Faults) (d : Nat) : Faults :=
  let gone := f.active.filter (fun (e : Nat × Nat × Slot) => e.1 == d && e.2.1 != 2)
  { f with slots := f.slots.map (fun (e : Nat × Slot) => if e.1 / 3 == d && e.1 % 3 != 2 then (e.1, ({} : Slot)) else e),
           caps := f.caps.map (fun (e : Nat × Capture) =>
             if gone.any (fun (g : Nat × Nat × Slot) => g.2.2.src == e.1) then (e.1, { e.2 with held := false }) else e) }

/-- Clear the C and U slots of a domain and end their reactions. -/
def W.clearDomain (w : W) (d : Nat) : W := (w.modFlt (fun f => f.dropDomain d)).regroup

/-- A soft reset clears every slot and every tenant's hard stop (Table 5.3). A hard stop of the unit keeps the fatal state until a
hard reset, and with it the F slot of the unit (R301). -/
def Faults.dropAll (f : Faults) : Faults :=
  let stays := f.stopOf dUnit
  { f with slots := if stays.isEmpty then [] else f.slots.filter (fun e => e.1 == 3 * dUnit + 2),
           hstop := f.hstop.filter (fun e => e.1 == dUnit), fpend := [], union := 0,
           caps := f.caps.map (fun (e : Nat × Capture) => (e.1, { e.2 with held := e.2.held && stays.contains e.1 })) }

end Sys2Proof.Machine
end

