-- ==== Sys2Proof/Machine/Sha256.lean ====
section
/-! DEFINITION. SHA-256 (FIPS 180-4) and HMAC (FIPS 198-1), which chapter 20 names for the image tag and
chapter 6 for the return token and the vendor challenge (PRESUMED from the standards, log entry 8). -/

namespace Sys2Proof.Machine

/-- The constants K of FIPS 180-4, section 4.2.2. -/
def shaK : List Nat :=
  [0x428a2f98, 0x71374491, 0xb5c0fbcf, 0xe9b5dba5, 0x3956c25b, 0x59f111f1, 0x923f82a4, 0xab1c5ed5,
   0xd807aa98, 0x12835b01, 0x243185be, 0x550c7dc3, 0x72be5d74, 0x80deb1fe, 0x9bdc06a7, 0xc19bf174] ++
  [0xe49b69c1, 0xefbe4786, 0x0fc19dc6, 0x240ca1cc, 0x2de92c6f, 0x4a7484aa, 0x5cb0a9dc, 0x76f988da,
   0x983e5152, 0xa831c66d, 0xb00327c8, 0xbf597fc7, 0xc6e00bf3, 0xd5a79147, 0x06ca6351, 0x14292967] ++
  [0x27b70a85, 0x2e1b2138, 0x4d2c6dfc, 0x53380d13, 0x650a7354, 0x766a0abb, 0x81c2c92e, 0x92722c85,
   0xa2bfe8a1, 0xa81a664b, 0xc24b8b70, 0xc76c51a3, 0xd192e819, 0xd6990624, 0xf40e3585, 0x106aa070] ++
  [0x19a4c116, 0x1e376c08, 0x2748774c, 0x34b0bcb5, 0x391c0cb3, 0x4ed8aa4a, 0x5b9cca4f, 0x682e6ff3,
   0x748f82ee, 0x78a5636f, 0x84c87814, 0x8cc70208, 0x90befffa, 0xa4506ceb, 0xbef9a3f7, 0xc67178f2]

/-- The initial hash value of FIPS 180-4, section 5.3.3. -/
def shaH0 : List Nat :=
  [0x6a09e667, 0xbb67ae85, 0x3c6ef372, 0xa54ff53a, 0x510e527f, 0x9b05688c, 0x1f83d9ab, 0x5be0cd19]

/-- Rotate a 32-bit word right. -/
def rotr (n x : Nat) : Nat := (x >>> n) ||| ((x <<< (32 - n)) % 2 ^ 32)

def shaS (a b c x : Nat) : Nat := rotr a x ^^^ rotr b x ^^^ rotr c x
def shaSs (a b c x : Nat) : Nat := rotr a x ^^^ rotr b x ^^^ (x >>> c)

/-- The number whose bytes are given most significant first. -/
def beN (bs : List Byte) : Nat := bs.foldl (fun acc b => acc * 256 + b.toNat) 0

/-- `n` bytes of a number, most significant first. -/
def be (n x : Nat) : List Byte := (le n x).reverse

/-- Extend the sixteen most recent schedule words (newest first) by `n` further words. -/
def shaSched : Nat → List Nat → List Nat
  | 0, ws => ws
  | n + 1, ws =>
    shaSched n (((shaSs 17 19 10 (nth ws 1) + nth ws 6 + shaSs 7 18 3 (nth ws 14) + nth ws 15) % 2 ^ 32) :: ws)

/-- One round on the eight working variables. -/
def shaRound (v : List Nat) (kw : Nat × Nat) : List Nat :=
  match v with
  | [a, b, c, d, e, f, g, h] =>
    let t1 := h + shaS 6 11 25 e + ((e &&& f) ^^^ ((0xFFFFFFFF - e) &&& g)) + kw.1 + kw.2
    let t2 := shaS 2 13 22 a + ((a &&& b) ^^^ (a &&& c) ^^^ (b &&& c))
    [(t1 + t2) % 2 ^ 32, a, b, c, (d + t1) % 2 ^ 32, e, f, g]
  | _ => v

/-- The hash value after one 64-byte block. -/
def shaBlock (h : List Nat) (blk : List Byte) : List Nat :=
  let w := (shaSched 48 (upto 16 (fun i => beN ((blk.drop (4 * i)).take 4))).reverse).reverse
  let v := (shaK.zip w).foldl shaRound h
  (h.zip v).map (fun e => (e.1 + e.2) % 2 ^ 32)

/-- The first `n` 64-byte blocks of a byte string. -/
def shaBlocks : Nat → List Byte → List (List Byte)
  | 0, _ => []
  | n + 1, bs => bs.take 64 :: shaBlocks n (bs.drop 64)

/-- SHA-256 of a byte string, 32 bytes. -/
def sha256 (bs : List Byte) : List Byte :=
  let l := bs.length
  let z := (119 - l % 64) % 64
  let m := bs ++ [0x80] ++ List.replicate z 0 ++ be 8 (8 * l)
  ((shaBlocks (m.length / 64) m).foldl shaBlock shaH0).flatMap (be 4)

/-- HMAC-SHA-256 under a key of at most 64 bytes. -/
def hmac (key msg : List Byte) : List Byte :=
  let k := padTo 64 key
  sha256 (k.map (· ^^^ 0x5C) ++ sha256 (k.map (· ^^^ 0x36) ++ msg))

end Sys2Proof.Machine
end

