-- ==== Sys2Proof/Machine/Loom.lean ====
section
/-! DEFINITION. The loom image (chapter 20): its layout, its sections, the checks of a weave in their order, and admission. -/

namespace Sys2Proof.Machine

/-! ## Layout (Tables 20.1, 20.2) -/

/-- A rejection: the result code of Table 20.4 and the section type concerned. -/
structure Refuse where
  code : Nat
  sect : Nat
deriving DecidableEq, Repr

/-- A section as read: its type, its body, and the bytes of its header and padding that must be 0. -/
structure Sect where
  type : Nat
  body : List Byte
  resv : List Byte
deriving DecidableEq, Repr

/-- Sum over the five tenants. -/
def sum5 (f : Nat → Nat) : Nat := f 0 + f 1 + f 2 + f 3 + f 4

/-- Every byte is 0. -/
def zeros (bs : List Byte) : Bool := bs.all (fun b => b == 0)

/-- BLEN of a section type, for those that Table 20.2 fixes. -/
def fixedBlen (type : Nat) : Option Nat :=
  match type with
  | 0x01 => some 136
  | 0x02 => some 192
  | 0x04 => some 120
  | 0x05 => some 76
  | 0x06 => some 96
  | 0x07 => some 240
  | 0x08 => some 28
  | 0x09 => some 16
  | 0x0A => some 16
  | 0x0B => some 8
  | 0x0C => some 8
  | 0x0E => some 4
  | _ => none

/-- The length that the records of a TENANTS body take: `n` more records follow. -/
def tenantsLen (body : List Byte) : Nat → Nat → Nat
  | 0, o => o
  | n + 1, o => tenantsLen body n (o + 12 + 8 * at' body (o + 1) 1)

/-- BLEN is right for the type. -/
def blenOk (type blen : Nat) (body : List Byte) : Bool :=
  match fixedBlen type with
  | some n => blen == n
  | none => if type = 0x03 then blen == tenantsLen body 5 4 else blen == 4 + 12 * at' body 0 1

/-- The header's checks, in order (Checks 1). -/
def headerFault (img : List Byte) : Option Refuse :=
  let len := at' img 8 4
  if img.take 4 != mark4 0x56 0x4E 0x4C 0x4D then some ⟨0x10, 0⟩
  else if crc32 (img.take 28) != at' img 28 4 then some ⟨0x14, 0⟩
  else if at' img 4 1 ≠ 1 then some ⟨0x11, 0⟩
  else if at' img 5 1 ≠ 2 then some ⟨0x12, 0⟩
  else if len % 4 ≠ 0 ∨ 32704 < len ∨ len < 68 then some ⟨0x13, 0⟩
  else none

/-- One section at offset `o` (Checks 2): its content, and the offset after it. -/
def readSect (img : List Byte) (o prev : Nat) : Except Refuse (Sect × Nat) :=
  let h := (img.drop o).take 8
  let type := at' h 0 1
  let blen := at' h 4 4
  if type = 0 ∨ 14 < type ∨ type ≤ prev then .error ⟨0x15, type⟩
  else if at' h 1 1 ≠ 1 then .error ⟨0x11, type⟩
  else if 32704 < blen then .error ⟨0x15, type⟩
  else
    let padded := (blen + 3) / 4 * 4
    let body := (img.drop (o + 8)).take blen
    if !blenOk type blen body then .error ⟨0x15, type⟩
    else if crc32 ((img.drop o).take (8 + padded)) != at' (img.drop (o + 8 + padded)) 0 4 then .error ⟨0x16, type⟩
    else .ok ({ type := type, body := body, resv := (h.drop 2).take 2 ++ ((img.drop (o + 8 + blen)).take (padded - blen)) }, o + 12 + padded)

/-- The sections up to the trailer at `stop`: those read, and the offset where they end. -/
def readSects (img : List Byte) (stop : Nat) : Nat → Nat → Nat → List Sect → Except Refuse (List Sect × Nat)
  | 0, o, _, acc => .ok (acc, o)
  | n + 1, o, prev, acc =>
    if stop ≤ o then .ok (acc, o)
    else
      match readSect img o prev with
      | .error r => .error r
      | .ok (s, o') => readSects img stop n o' s.type (acc ++ [s])

/-- The required sections. -/
def required : List Nat := [0x01, 0x03, 0x04, 0x05]

/-- The whole layout (Checks 1–3). -/
def layout (img : List Byte) : Except Refuse (List Sect) :=
  match headerFault img with
  | some r => .error r
  | none =>
    let len := at' img 8 4
    match readSects img (len - 36) 15 32 0 [] with
    | .error r => .error r
    | .ok (ss, o) =>
      if ss.length ≠ at' img 6 1 then .error ⟨0x15, 0⟩
      else
        match required.find? (fun t => !ss.any (fun s => s.type == t)) with
        | some t => .error ⟨0x15, t⟩
        | none =>
          if (img.drop (len - 36)).take 4 != mark4 0x56 0x4E 0x54 0x47 then .error ⟨0x15, 0⟩
          else if o ≠ len - 36 then .error ⟨0x13, 0⟩
          else .ok ss

/-! ## The tag (R112, R385) -/

/-- The fuse settings a weave works under: the tag is checked, KEY_OK, KEY, and the unit's SERIAL. -/
structure WeaveAuth where
  auth : Bool
  keyOk : Bool
  key : List Byte
  serial : BitVec 64
deriving DecidableEq, Repr

/-- The tag passes. -/
def tagOk (a : WeaveAuth) (img : List Byte) : Bool :=
  let len := at' img 8 4
  !a.auth || (tbit (at' img 7 1) 0 && a.keyOk && hmac a.key (img.take (len - 32)) == (img.drop (len - 32)).take 32)

/-! ## Section bodies (Table 20.3) -/

def bankBody (b : List Byte) : BankCfg := { thr := fld (at' b 0 1) 0 2, red := tbit (at' b 0 1) 2 }

def laneBody (b : List Byte) : LaneCfg where
  mode := fld (at' b 0 1) 0 3
  od := tbit (at' b 0 1) 3
  filt := fld (at' b 0 1) 4 2
  owners := BitVec.ofNat 5 (at' b 1 1)
  policy := fld (at' b 1 1) 5 2
  cwin := at' b 2 2

def engBody (b : List Byte) : EngCfg where
  mode := at' b 0 1
  owner := at' b 1 1
  gbase := at' b 2 1
  gcount := at' b 3 1
  roles := BitVec.ofNat 32 (at' b 4 4)
  tim0 := BitVec.ofNat 32 (at' b 8 4)
  tim1 := BitVec.ofNat 32 (at' b 12 4)
  tmo := at' b 16 2

def streamBody (b : List Byte) : StreamCfg where
  queue := fld (at' b 0 1) 0 2
  ck := fld (at' b 0 1) 2 2
  alive := fld (at' b 0 1) 4 2
  gap := at' b 1 1
  seed := BitVec.ofNat 32 (at' b 4 4)

/-- The tenant records from offset `o` on. -/
def tenantRecs (body : List Byte) : Nat → Nat → List (List Byte)
  | 0, _ => []
  | n + 1, o =>
    let len := 12 + 8 * at' body (o + 1) 1
    (body.drop o).take len :: tenantRecs body n (o + len)

/-- The stream records of a tenant record. -/
def streamRecs (r : List Byte) : List (List Byte) := upto (at' r 1 1) (fun s => (r.drop (12 + 8 * s)).take 8)

def tenBody (r : List Byte) : TenCfg where
  gen := at' r 0 1
  minT := at' r 2 2
  maxT := at' r 4 2
  minB := at' r 6 2
  maxB := at' r 8 2
  streams := (streamRecs r).map streamBody

def arbBody (b : List Byte) : ArbCfg where
  weight := upto 20 (fun i => at' b i 1)
  level := at' b 20 5
  cap := upto 5 (fun t => at' b (25 + t) 1)
  bgw := upto 5 (fun t => at' b (30 + t) 1)
  pmode := at' b 35 1
  grate := upto 5 (fun t => at' b (36 + 4 * t) 4)
  slot := upto 64 (fun e => at' b (56 + e) 1)

def fsBody (b : List Byte) : FsCfg where
  fsv := fld (at' b 0 1) 0 2
  second := fld (at' b 0 1) 2 2
  auto := tbit (at' b 0 1) 4
  holdT := fld (at' b 1 1) 0 4

def dfsBody (b : List Byte) : FsCfg where
  fsv := fld (at' b 0 1) 0 2
  second := fld (at' b 0 1) 2 2
  holdT := fld (at' b 0 1) 4 4

def ckBody (b : List Byte) : CkCfg where
  width := at' b 0 1
  refin := tbit (at' b 1 1) 0
  refout := tbit (at' b 1 1) 1
  fowner := fld (at' b 1 1) 2 3
  alw := fld (at' b 2 1) 0 2
  gap := fld (at' b 2 1) 4 4
  engine := fld (at' b 3 1) 0 3
  en := tbit (at' b 3 1) 3
  dir := tbit (at' b 3 1) 4
  order := tbit (at' b 3 1) 5
  aoff := at' b 4 1
  poly := BitVec.ofNat 32 (at' b 8 4)
  init := BitVec.ofNat 32 (at' b 12 4)
  xorout := BitVec.ofNat 32 (at' b 16 4)
  ref := BitVec.ofNat 32 (at' b 20 4)

/-- The reaction words that a FAULT body sets; 0xFFFF leaves the default. -/
def reactWords (b : List Byte) : Tbl Nat :=
  (List.range 96).filterMap (fun s => let x := at' b (48 + 2 * s) 2; if x = 0xFFFF then none else some (s, x))

def fltBody (b : List Byte) : FltCfg where
  qc := at' b 0 2
  qu := at' b 2 2
  qf := at' b 4 2
  flimit := at' b 6 1
  naddr := upto 5 (fun t => at' b (8 + t) 1)
  lgrp := upto 7 (fun g => BitVec.ofNat 32 (at' b (16 + 4 * g) 4))
  react := reactWords b

def timeBody (b : List Byte) : TimeCfg where
  srcTpi := tbit (at' b 0 1) 0
  srcRing := tbit (at' b 0 1) 1
  master := tbit (at' b 0 1) 2
  xtal := tbit (at' b 0 1) 3
  msrc := at' b 1 1
  slewmax := at' b 2 1
  tper := at' b 4 2
  tpoper := at' b 6 2
  tmper := at' b 8 2
  tholdMax := at' b 10 2
  stepthr := at' b 12 4
  tpow := at' b 16 4
  tpooff := toInt 16 (at' b 20 2)
  upDly := at' b 24 2
  dnDly := at' b 26 2

def idBody (b : List Byte) : IdCfg where
  eeEn := tbit (at' b 0 1) 0
  idsEn := tbit (at' b 0 1) 1
  strapEn := tbit (at' b 0 1) 2
  autowb := tbit (at' b 0 1) 3
  addrw := tbit (at' b 0 1) 4
  chkbank := tbit (at' b 0 1) 5
  rate := fld (at' b 1 1) 0 2
  page := fld (at' b 1 1) 2 2
  devaddr := at' b 2 1
  strapMask := BitVec.ofNat 8 (at' b 3 1)
  expSet := BitVec.ofNat 3 (at' b 4 1)
  expIds := at' b 5 1
  expH := BitVec.ofNat 8 (at' b 6 1)
  expZ := BitVec.ofNat 8 (at' b 7 1)
  expProfile := BitVec.ofNat 32 (at' b 8 4)
  require := BitVec.ofNat 3 (at' b 12 1)

def pairBody (b : List Byte) : PairCfg where
  en := tbit (at' b 0 1) 0
  prefer := tbit (at' b 0 1) 1
  eper := at' b 1 1
  serial := BitVec.ofNat 64 (at' b 8 8)

def logBody (b : List Byte) : LogCfg where
  mode := fld (at' b 0 1) 0 2
  tclass := fld (at' b 0 1) 2 2
  rectrig := tbit (at' b 0 1) 4
  recen := tbit (at' b 0 1) 5
  post := at' b 2 2
  pre := at' b 4 2
  rwait := at' b 6 2

/-- The settings with one sectNos body taken. -/
def Cfg.take (c : Cfg) (s : Sect) : Cfg :=
  let b := s.body
  match s.type with
  | 0x01 => { c with banks := upto 4 (fun n => bankBody (b.drop n)), tsettle := at' b 4 2, ranks := BitVec.ofNat 15 (at' b 6 2),
                     lanes := upto 32 (fun n => laneBody (b.drop (8 + 4 * n))) }
  | 0x02 => { c with engs := upto 8 (fun e => engBody (b.drop (24 * e))) }
  | 0x03 => { c with tenmask := BitVec.ofNat 5 (at' b 0 1), shortTen := at' b 1 1, tens := (tenantRecs b 5 4).map tenBody }
  | 0x04 => { c with arb := arbBody b }
  | 0x05 => { c with tref := at' b 0 2, nmiss := at' b 2 1, fs := upto 32 (fun n => fsBody (b.drop (4 + 2 * n))),
                     dfs := upto 8 (fun n => dfsBody (b.drop (68 + n))) }
  | 0x06 => { c with cks := upto 4 (fun k => ckBody (b.drop (24 * k))) }
  | 0x07 => { c with flt := fltBody b }
  | 0x08 => { c with time := timeBody b }
  | 0x09 => { c with id := idBody b }
  | 0x0A => { c with pair := pairBody b }
  | 0x0B => { c with log := logBody b }
  | 0x0C => { c with dirEn := BitVec.ofNat 8 (packN (upto 8 (fun n => (n, 1, at' b n 1)))),
                     dirBA := BitVec.ofNat 8 (packN (upto 8 (fun n => (n, 1, at' b n 1 / 2)))) }
  | 0x0D => { c with addrs := upto (at' b 0 1) (fun k => (BitVec.ofNat 64 (at' b (4 + 12 * k) 8), at' b (12 + 12 * k) 1)) }
  | 0x0E => { c with vwarnA := at' b 0 1, vwarnB := at' b 1 1, banknom := BitVec.ofNat 16 (at' b 2 2) }
  | _ => c

/-- The settings of an image's sections; an absent section leaves the settings of Table 20.2. -/
def cfgOf (img : List Byte) (ss : List Sect) : Cfg :=
  ss.foldl Cfg.take { imageId := BitVec.ofNat 32 (at' img 12 4), imgcrc := BitVec.ofNat 32 (crc32 (img.take (at' img 8 4))) }

/-! ## Content (Checks 5): ranges and reserved bits of each sectNos own fields -/

/-- `lo ≤ x ≤ hi`. -/
def within (lo x hi : Nat) : Bool := decide (lo ≤ x) && decide (x ≤ hi)

def laneOk (b : List Byte) : Bool :=
  let c := laneBody b
  tbit (at' b 0 1) 6 == false && tbit (at' b 0 1) 7 == false && tbit (at' b 1 1) 7 == false && within 0 c.mode 4 && within 0 c.policy 2 &&
    within 0 c.cwin 1000

def lanesOk (b : List Byte) : Bool :=
  (List.range 4).all (fun n => within 0 (at' b n 1) 7 && within 0 (bankBody (b.drop n)).thr 2) && within 10 (at' b 4 2) 1000 && within 0 (at' b 6 2) 0x7FFF &&
    (List.range 32).all (fun n => laneOk (b.drop (8 + 4 * n)))

def engOk (b : List Byte) : Bool :=
  within 0 (at' b 0 1) 6 && within 0 (at' b 1 1) 4 &&
    (List.range 4).all (fun k => within 0 (at' b (4 + k) 1) 0x3F) && within 1 (at' b 16 2) 65535 && zeros ((b.drop 18).take 6)

def streamOk (b : List Byte) : Bool := within 0 (at' b 0 1) 0x3F && within 0 (at' b 1 1) 15 && zeros ((b.drop 2).take 2)

/-- The ranges of a tenant record, and the refusals below Table 20.4. -/
def tenOk (t : Nat) (r : List Byte) : Bool :=
  let c := tenBody r
  within 0 c.gen 3 && within 0 (at' r 1 1) 16 && zeros ((r.drop 10).take 2) && (t != 4 || c.gen != 0) && (c.gen == 3 || at' r 1 1 == 0) &&
    within (c.minT + if t = 4 then 32 else 0) c.maxT 1024 && within (c.minB + if t = 4 then 64 else 0) c.maxB 4096 &&
    (streamRecs r).all streamOk

def tenantsOk (b : List Byte) : Bool :=
  within 0 (at' b 0 1) 0x1F && within 0 (at' b 1 1) 4 && zeros ((b.drop 2).take 2) &&
    ((List.range 5).zip (tenantRecs b 5 4)).all (fun e => tenOk e.1 e.2)

def arbOk (b : List Byte) : Bool :=
  let a := arbBody b
  a.cap.all (fun c => within 0 c 16) && a.bgw.all (fun x => within 0 x 15) && within 0 a.pmode 1 &&
    a.slot.all (fun x => within 0 x 4 || x == 7)

def failsafeOk (b : List Byte) : Bool :=
  within 1 (at' b 0 2) 2000 && within 1 (at' b 2 1) 15 && at' b 3 1 == 0 &&
    (List.range 32).all (fun n => within 0 (at' b (4 + 2 * n) 1) 0x1F && within 0 (at' b (5 + 2 * n) 1) 15 && within 0 (fsBody (b.drop (4 + 2 * n))).second 2) &&
    (List.range 8).all (fun n => within 0 (dfsBody (b.drop (68 + n))).second 2)

def ckOk (b : List Byte) : Bool :=
  let c := ckBody b
  within 0 (at' b 1 1) 0x1F && fld (at' b 2 1) 2 2 == 0 && within 0 (at' b 3 1) 0x3F && zeros ((b.drop 5).take 3) &&
    (within 0 c.fowner 4 || c.fowner == 7)

def faultOk (b : List Byte) : Bool :=
  let c := fltBody b
  within 1 c.qc 1000 && within 1 c.qu 1000 && within 1 c.qf 600 && within 0 c.flimit 15 && at' b 7 1 == 0 && c.naddr.all (fun a => within 0 a 62) &&
    zeros ((b.drop 13).take 3) && zeros ((b.drop 44).take 4) && c.react.all (fun e => within 0 e.2 0x3FFF && within 0 (fld e.2 0 2) 2)

def timeOk' (b : List Byte) : Bool :=
  let c := timeBody b
  within 0 (at' b 0 1) 15 && within 0 c.msrc 62 && within 1 c.slewmax 100 && at' b 3 1 == 0 && within 1 c.tper 1000 && within 1 c.tpoper 1000 &&
    within 1 c.tmper 1000 && within 1 c.tholdMax 3600 && within 1 c.stepthr 1000000 && within 1 c.tpow (500 * c.tpoper) &&
    decide (-2047 ≤ c.tpooff) && decide (c.tpooff ≤ 2047) && zeros ((b.drop 22).take 2)

def identityOk (b : List Byte) : Bool :=
  within 0 (at' b 0 1) 0x3F && within 0 (at' b 1 1) 15 && within 0 (idBody b).rate 2 && within 0 (at' b 2 1) 0x7F && within 0 (at' b 4 1) 7 &&
    within 0 (at' b 12 1) 7 && zeros ((b.drop 13).take 3)

def logOk (b : List Byte) : Bool :=
  let c := logBody b
  within 0 (at' b 0 1) 0x3F && within 0 c.mode 2 && at' b 1 1 == 0 && within 0 c.post 2047 && within 0 c.pre 2047 && within 1 c.rwait 32767

/-- Every SERIAL and every ADDR of an ADDRESS section is named once. -/
def addressOk (b : List Byte) : Bool :=
  let n := at' b 0 1
  let es := upto n (fun k => (at' b (4 + 12 * k) 8, at' b (12 + 12 * k) 1))
  within 0 n 62 && zeros ((b.drop 1).take 3) && es.all (fun e => within 1 e.2 62) &&
    (List.range n).all (fun k => zeros ((b.drop (13 + 12 * k)).take 3)) && decide ((es.map (·.1)).Nodup) && decide ((es.map (·.2)).Nodup)

/-- A sectNos own fields. -/
def Sect.ok (s : Sect) : Bool :=
  let b := s.body
  zeros s.resv &&
  match s.type with
  | 0x01 => lanesOk b
  | 0x02 => (List.range 8).all (fun e => engOk (b.drop (24 * e)))
  | 0x03 => tenantsOk b
  | 0x04 => arbOk b
  | 0x05 => failsafeOk b
  | 0x06 => (List.range 4).all (fun k => ckOk (b.drop (24 * k)))
  | 0x07 => faultOk b
  | 0x08 => timeOk' b
  | 0x09 => identityOk b
  | 0x0A => within 0 (at' b 0 1) 3 && zeros ((b.drop 2).take 6)
  | 0x0B => logOk b
  | 0x0C => (List.range 8).all (fun n => within 0 (at' b n 1) 3)
  | 0x0D => addressOk b
  | 0x0E => within 0 (at' b 0 1) 90 && within 0 (at' b 1 1) 90 && (List.range 4).all (fun k => within 0 (fld (at' b 2 2) (4 * k) 4) 4)
  | _ => false

/-! ## The refusals of the sections' own chapters (Checks 6) -/

/-- R241, with the direct channel refusal below Table 20.4. -/
def Cfg.r241 (c : Cfg) : Bool :=
  (List.range 32).all (fun n =>
    let m := (c.lane n).mode
    if n < 8 then m != 2 && (m == 3) == c.dirEn.getLsbD n else m != 3)

/-- R249: five distinct ranks. -/
def Cfg.r249 (c : Cfg) : Bool := decide ((upto 5 c.rank).Nodup)

/-- The roles a mode requires, and those it names (Table 13.1), as bit masks. -/
def modeRoles (m : Nat) : Nat × Nat :=
  match m with
  | 1 => (0b0001, 0b0111)
  | 3 => (0b0011, 0b1111)
  | 4 => (0b1111, 0b1111)
  | 6 => (0b0011, 0b0011)
  | _ => (0, 0)

/-- The roles an engine enables. -/
def EngCfg.roleMask (e : EngCfg) : Nat := packN (upto 4 (fun k => (k, 1, b2n (e.role k).isSome)))

/-- GCOUNT is in its mode's group size (R259). -/
def EngCfg.groupOk (e : EngCfg) : Bool :=
  match e.mode with
  | 1 => e.gcount == 8
  | 2 => within 1 e.gcount 8
  | 5 => within 1 e.gcount 4
  | _ => e.gcount == 0

/-- The ranges of Table 13.11 for the fields the mode uses, with the bits it does not name at 0. -/
def EngCfg.timOk (e : EngCfg) : Bool :=
  let a := e.tim0.toNat
  let b := e.tim1.toNat
  match e.mode with
  | 1 => within 1 (fld a 24 8) 255 && within 0 b 0x1F && within 0 (fld b 2 2) 1
  | 2 => within 0 a 0x3FFFF && within 1 (fld a 8 8) 255 && b == 0
  | 3 => within 300 a 3000000 && b &&& 0xF000FC00 == 0 && within 5 (fld b 0 4) 9 && within 0 (fld b 4 3) 4
  | 4 => !tbit a 15 && (tbit a 12 || within 4 (fld a 0 10) 1000) && b == 0
  | 5 => within 0 a 0xFFF && b == 0
  | 6 => within 0 a 0xFFFF && within 25 (fld a 0 8) 250 && b == 0
  | _ => true

/-- R259. -/
def Cfg.r259 (c : Cfg) : Bool :=
  let es := upto 8 c.eng
  let bound := es.flatMap EngCfg.lanes
  decide (bound.Nodup) && bound.all (fun n => decide (n < 32) && (c.lane n).mode == 4) &&
    (List.range 32).all (fun n => (c.lane n).mode != 4 || bound.contains n) &&
    es.all (fun e => (modeRoles e.mode).1 &&& e.roleMask == (modeRoles e.mode).1) &&
    es.all (fun e => e.roleMask &&& (modeRoles e.mode).2 == e.roleMask) &&
    es.all EngCfg.groupOk && es.all (fun e => decide (e.gbase + e.gcount ≤ 32)) && es.all EngCfg.timOk

/-- The parameters of a defined unit, and its value over the reference bytes (R279). -/
def CkCfg.r279 (u : CkCfg) : Bool :=
  u.width == 0 || (within 3 u.width 32 && tbit u.poly.toNat 0 && decide (u.poly.toNat < 2 ^ u.width) && decide (u.init.toNat < 2 ^ u.width) &&
    decide (u.xorout.toNat < 2 ^ u.width) && crc u.params refBytes == u.ref.toNat)

/-- R279. -/
def Cfg.r279 (c : Cfg) : Bool :=
  let us := upto 4 c.ck
  let bs := us.filter (fun u => u.en)
  us.all CkCfg.r279 && bs.all (fun u => u.width != 0 && !([2, 5, 6].contains (c.eng u.engine).mode)) &&
    decide ((bs.map (fun (u : CkCfg) => (u.engine, u.dir))).Nodup) &&
    (upto 5 c.ten).all (fun t => t.streams.all (fun s => (c.ck s.ck).width != 0))

/-- R294. -/
def Cfg.r294 (c : Cfg) : Bool :=
  c.flt.react.all (fun e => reservedSrc e.1 || (decide (nativeCls e.1 ≤ fld e.2 0 2) && (fld e.2 11 2 != 1 || tenantSrc e.1))) &&
    c.flt.react.all (fun e => fld e.2 8 3 == 0 || c.flt.lgrp.getD (fld e.2 8 3 - 1) 0 != 0)

/-- R327. -/
def Cfg.r327 (c : Cfg) : Bool :=
  let i := c.id
  (!i.strapEn || (List.range 8).all (fun k => !i.strapMask.getLsbD k || (c.lane (24 + k)).mode ≤ 1)) &&
    (i.idsEn || (!i.expSet.getLsbD 0 && !i.require.getLsbD 0)) && (i.strapEn || (!i.expSet.getLsbD 1 && !i.require.getLsbD 1)) &&
    (i.eeEn || (!i.expSet.getLsbD 2 && !i.require.getLsbD 2 && !i.chkbank))

/-- R364. -/
def Cfg.r364 (c : Cfg) (serial : BitVec 64) : Bool :=
  !c.pair.en || (c.pair.serial != serial && within 1 c.pair.eper 100 && decide (sum5 (fun t => (c.ten t).maxT) ≤ 360))

/-- The first own-chapter refusal: the section named. -/
def Cfg.refusal (c : Cfg) (serial : BitVec 64) : Option Nat :=
  if !(c.r241 && c.r249) then some 0x01
  else if !c.r259 then some 0x02
  else if !c.r279 then some 0x06
  else if !c.r294 then some 0x07
  else if !c.r327 then some 0x09
  else if !c.r364 serial then some 0x0A
  else none

/-! ## Admission (R391) -/

/-- Slot-table entries of an owner. -/
def Cfg.entries (c : Cfg) (o : Nat) : Nat := c.arb.slot.countP (· == o)

/-- The admission procedure. Rates are compared multiplied by TREF, so that 2 000 000 / TREF is exact. -/
def Cfg.admission (c : Cfg) : Option Refuse :=
  let grate := fun t => nth c.arb.grate t
  let nonem := 7812500 * c.tref - 2000000
  if 1024 < 32 + sum5 (fun t => (c.ten t).minT) then some ⟨0x20, 0x03⟩
  else if 4096 < 64 + sum5 (fun t => (c.ten t).minB) then some ⟨0x21, 0x03⟩
  else if c.entries 7 < sum5 (fun t => nth c.arb.cap t) then some ⟨0x22, 0x04⟩
  else if (List.range 5).any (fun t => decide (nonem * c.entries t < grate t * 64 * c.tref)) then some ⟨0x22, 0x04⟩
  else if 7812500 * c.tref < 2000000 + sum5 grate * c.tref then some ⟨0x22, 0x04⟩
  else if 2047 < c.log.pre + c.log.post + 1 then some ⟨0x23, 0x0B⟩
  else if c.pair.en then
    let lines := (488 + 10 * sum5 (fun t => (c.ten t).maxT) + 63) / 64
    if c.pair.eper * 1000 < lines * 24 then some ⟨0x23, 0x0A⟩ else none
  else none

/-- The checks of a weave in order (R390): the settings, or the first failure. -/
def checkImage (a : WeaveAuth) (img : List Byte) : Except Refuse Cfg :=
  match layout img with
  | .error r => .error r
  | .ok ss =>
    if !tagOk a img then .error ⟨0x17, 0⟩
    else if !zeros ((img.drop 16).take 12) || decide (1 < at' img 7 1) then .error ⟨0x18, 0⟩
    else
      match ss.find? (fun s => !s.ok) with
      | some s => .error ⟨0x18, s.type⟩
      | none =>
        let c := cfgOf img ss
        match c.refusal a.serial with
        | some s => .error ⟨0x18, s⟩
        | none =>
          match c.admission with
          | some r => .error r
          | none => .ok c

/-! ## Hot and cold-only settings (Table 20.5) -/

/-- The first section, by type, in which a cold-only setting of two images differs; 0 for none (R392). -/
def Cfg.coldSect (a b : Cfg) : Nat :=
  if !(List.range 32).all (fun n => (a.lane n).mode == (b.lane n).mode && (a.lane n).od == (b.lane n).od) then 0x01
  else if !(List.range 8).all (fun e =>
      let x := a.eng e
      let y := b.eng e
      x.mode == y.mode && x.owner == y.owner && x.gbase == y.gbase && x.gcount == y.gcount && x.roles == y.roles) then 0x02
  else if a.pair ≠ b.pair then 0x0A
  else if a.dirEn ≠ b.dirEn ∨ a.dirBA ≠ b.dirBA then 0x0C
  else 0

end Sys2Proof.Machine
end

