-- ==== Sys2Proof/Machine/Pools.lean ====
section
/-! DEFINITION. Ticket and buffer pools (chapter 9), and the replies of the three generations (chapter 8). -/

namespace Sys2Proof.Machine

/-! ## Shares -/

/-- Effective minimums (Table 9.3): TS holds the service reserve on top (R176). -/
def Cfg.tktMin (c : Cfg) (t : Nat) : Nat := (c.ten t).minT + if t = 4 then 32 else 0
def Cfg.bufMin (c : Cfg) (t : Nat) : Nat := (c.ten t).minB + if t = 4 then 64 else 0

/-- Ceilings in force, never below the effective minimum (R176). -/
def Cfg.tktMax (c : Cfg) (t : Nat) : Nat := max (c.ten t).maxT (c.tktMin t)
def Cfg.bufMax (c : Cfg) (t : Nat) : Nat := max (c.ten t).maxB (c.bufMin t)

/-- The shared part of a pool, below 0 when minimums are not covered. -/
def sharedOf (free owed : Nat) : Int := (free : Int) - (owed : Int)

def Dev.tktOwed (d : Dev) (t : Nat) : Nat := d.img.cfg.tktMin t - (d.ten t).tktUse
def Dev.bufOwed (d : Dev) (t : Nat) : Nat := d.img.cfg.bufMin t - (d.ten t).bufUse
def Dev.tktShared (d : Dev) : Int := sharedOf d.pool.tktFree.length (sum5 d.tktOwed)
def Dev.bufShared (d : Dev) : Int := sharedOf d.pool.bufFree.length (sum5 d.bufOwed)

/-- The take procedure's outcome under "Shares" (R175): success, plain failure, or failure of an own share. -/
inductive Take where
  | ok | fail | short
deriving DecidableEq, Repr

def takeTest (debt : Bool) (use mx owed : Nat) (shared : Int) (free k : Nat) : Take :=
  let own := min k owed
  if debt then .fail
  else if mx < use + k then .fail
  else if max 0 shared < ((k - own : Nat) : Int) then .fail
  else if free < k then (if own = 0 then .fail else .short)
  else .ok

def Dev.tktTest (d : Dev) (t k : Nat) : Take :=
  takeTest (d.ten t).tdebt (d.ten t).tktUse (d.img.cfg.tktMax t) (d.tktOwed t) d.tktShared d.pool.tktFree.length k

def Dev.bufTest (d : Dev) (t k : Nat) : Take :=
  takeTest (d.ten t).bdebt (d.ten t).bufUse (d.img.cfg.bufMax t) (d.bufOwed t) d.bufShared d.pool.bufFree.length k

/-! ## Pool faults -/

/-- A pool fault: recorded in TEN_LASTERR and raised with that value as its detail (Table 9.7, R180). -/
def W.poolFault (w : W) (t src sub index addr acc : Nat) : W :=
  (w.modTen t (fun n => { n with lastErr := (src, sub, index) })).raise src t
    { addr := addr, acc := acc, ten := t, detail := packN [(0, 8, src), (8, 3, sub), (12, 12, index)] }

/-- The window address of a buffer. -/
def bufAddr (b : Nat) : Nat := 0x100000 + 0x40 * b

/-! ## Tickets -/

def Pools.tkt (p : Pools) (n : Nat) : Ticket := tget {} p.tkts n
def Pools.buf (p : Pools) (b : Nat) : BufTag := tget {} p.bufs b

def Pools.setTkt (p : Pools) (n : Nat) (k : Ticket) : Pools := { p with tkts := tput p.tkts n k }

/-- Take the ticket at the head of the free list for tenant `t`: QUEUED, its issue count one more. -/
def W.takeTkt (w : W) (t q : Nat) (board : Bool) (op : Op) : W × Nat :=
  let p := w.dev.pool
  let n := p.tktFree.headD 0
  let k : Ticket := { st := .queued, ten := t, queue := q, icount := ((p.tkt n).icount + 1) % 4, board := board, op := some op,
                      seqNo := p.order }
  let w := w.modPool (fun p => { p.setTkt n k with tktFree := p.tktFree.drop 1, order := p.order + 1 })
  (w.modTen t (fun x => { x with tktUse := x.tktUse + 1, tktPeak := max x.tktPeak (x.tktUse + 1) }), n)

/-- A debt ends when use falls below the effective minimum, or to 0 when that is 0 (R184). -/
def debtOver (use mn : Nat) : Bool := decide (use < mn) || (use == 0)

/-- Clear a tenant's debt flags where its use now allows. -/
def W.settle (w : W) (t : Nat) : W :=
  w.modTen t (fun x => { x with tdebt := x.tdebt && !debtOver x.tktUse (w.cfg.tktMin t),
                                bdebt := x.bdebt && !debtOver x.bufUse (w.cfg.bufMin t) })

/-- Take one pin off each listed buffer. -/
def unpin (p : Pools) (bs : List Nat) : Pools :=
  { p with bufs := bs.foldl (fun t b => tmod {} t b (fun x => { x with pin := x.pin - 1 })) p.bufs }

/-- A ticket of no tenant's use any more: its tag reads 0, its issue count is kept (Table 9.2). -/
def W.freeTkt (w : W) (n : Nat) : W :=
  let k := w.dev.pool.tkt n
  let w := w.modPool (fun p => { (unpin p k.pins).setTkt n { icount := k.icount } with tktFree := p.tktFree ++ [n] })
  if k.st = .quarantined then w
  else (w.modTen k.ten (fun x => { x with tktUse := x.tktUse - 1 })).settle k.ten

/-- A request, in the name of tenant `t`, to retire ticket `n` (R174): rejected when the ticket is FREE or
another tenant's. -/
def W.retireFor (w : W) (n t : Nat) (ok : W → W) : W :=
  let k := w.dev.pool.tkt n
  if k.st = .free then w.poolFault t 0x21 2 n 0 7
  else if k.ten ≠ t then w.poolFault t 0x21 1 n 0 7
  else ok w

/-! ## Buffers -/

/-- Take `k` buffers for ticket `n` of tenant `t`: cleared, linked in one list, pinned once (R177). -/
def W.takeBufs (w : W) (t n k : Nat) : W × List Nat :=
  let bs := w.dev.pool.bufFree.take k
  let w := bs.foldl (fun w b => w.pokeBuf (64 * b) (List.replicate 64 0)) w
  let link := fun (i : Nat) => bs.getD (i + 1) 0
  let w := w.modPool (fun p => { p with
    bufFree := p.bufFree.drop k,
    bufs := ((List.range bs.length).zip bs).foldl (fun t' e => tput t' e.2
      { next := link e.1, last := decide (e.1 + 1 = bs.length), owned := true, pin := 1, ten := t, ticket := n }) p.bufs })
  (w.modTen t (fun x => { x with bufUse := x.bufUse + bs.length, bufPeak := max x.bufPeak (x.bufUse + bs.length) }), bs)

/-- Move buffers to the tail of the free list, in the order given. -/
def W.releaseBufs (w : W) (t : Nat) (bs : List Nat) : W :=
  let w := w.modPool (fun p => { p with bufFree := p.bufFree ++ bs, bufs := bs.foldl (fun t' b => tput t' b {}) p.bufs })
  (w.modTen t (fun x => { x with bufUse := x.bufUse - bs.length })).settle t

/-- The buffers of a list from `b` on, at most `k`, ending early at LAST. -/
def Pools.walk (p : Pools) (b : Nat) : Nat → List Nat
  | 0 => []
  | k + 1 => b :: (if (p.buf b).last then [] else p.walk (p.buf b).next k)

/-- Write data over the buffers of a list, from their first byte on. -/
def W.fillBufs (w : W) (bs : List Nat) (data : List Byte) : W :=
  ((List.range bs.length).zip bs).foldl (fun w e => w.pokeBuf (64 * e.2) ((data.drop (64 * e.1)).take 64)) w

/-- `n` data bytes of the buffers of a list. -/
def W.readBufs (w : W) (bs : List Nat) (n : Nat) : List Byte := (bs.flatMap (fun b => w.bufBytes (64 * b) 64)).take n

/-! ## Replies -/

/-- Queue a reply for the host; a reply that finds the queue full is dropped (R152). -/
def W.queueReply (w : W) (r : Reply) : W :=
  if w.dev.hpt.rqFull r.bytes.length then
    (w.modHpt (fun h => { h with irqDrop := true, replyDrop := satAdd 8 h.replyDrop 1 })).raiseU 0x19
  else w.modHpt (fun h => { h with rq := h.rq ++ [r], irqErr := h.irqErr || r.err })

/-- The short form of a Gen2 or Gen3 payload, and of an error reply (Table 8.3). -/
def shortForm (pay : List Byte) : List Byte :=
  let b := le 2 pay.length ++ pay
  b ++ le 4 (crc32 b)

/-- Send a payload back along the route of its request (R130, R154, R167). `bare` marks a Gen1 completion,
which the short form carries bare. -/
def W.sendBack (w : W) (rt : Route) (gen ten type : Nat) (pay : List Byte) (bare : Bool) : W :=
  let err := type == 3
  if rt.ring then
    let f : Frame := { dst := rt.orig.toNat, urg := rt.urg, rfl' := false, orig := w.dev.ring.addr, gen := gen, ten := ten,
                       type := type, seq := rt.seq.toNat, len := pay.length, hops := 0, payload := pay }
    if rt.port = .host ∨ rt.orig.toNat = w.dev.ring.addr then
      w.queueReply { short := false, err := err, ten := ten, bytes := f.bytes }
    else w.sendUnicast rt.orig.toNat f.bytes
  else w.queueReply { short := true, err := err, ten := ten, bytes := if bare then pay else shortForm pay }

/-- The operation's opcode asks for a write in Gen1. -/
def OpKind.wr1 : OpKind → Bool
  | .wr => true
  | _ => false

/-- STEP_Q (Table 8.8): the step for FAILSAFE, and the quality of the completion time. -/
def W.stepQ (w : W) (status step : Nat) : Nat := packN [(0, 6, if status = stFAILSAFE then step else 0), (6, 2, w.dev.tim.qual)]

/-- The Gen1 reply (Table 8.5). -/
def gen1Reply (o : Op) (status value : Nat) : List Byte :=
  let ok := decide (status = stOK) || decide (status = stOKC)
  let b := [BitVec.ofNat 8 (b2n o.kind.wr1 ||| (fld o.req.tag.toNat 0 4 <<< 4)), BitVec.ofNat 8 status] ++ le 2 o.addr.toNat ++
    le 4 (if ok && !o.kind.wr1 then value else 0)
  b ++ [BitVec.ofNat 8 (crc8 b)]

/-- The Gen2 completion record (Table 8.8). -/
def W.gen2Record (w : W) (o : Op) (status step value : Nat) (bufs : List Nat) : List Byte :=
  le 2 o.req.tag.toNat ++ [BitVec.ofNat 8 status, BitVec.ofNat 8 (w.stepQ status step)] ++
    le 2 (bufs.headD 0xFFFF) ++ le 2 bufs.length ++ le 4 value ++ le 4 w.now

/-- A user takes check unit `u`: 0 front, 1 binding, 2 feed, 3 self-test. A change of user is a context switch, which is
recorded (R281). -/
def W.ckUse (w : W) (u user stream : Nat) : W :=
  if (w.dev.ckUnit u).user = some (user, stream) then w
  else (w.logK 0x06 [(6, 2, u), (8, 2, user), (10, 4, stream)]).modCk u (fun c => { c with user := some (user, stream) })

/-- The protocol front takes the unit of stream `s` of tenant `t`. -/
def W.ckFront (w : W) (t s : Nat) : W := w.ckUse ((w.cfg.ten t).streams.getD s {}).ck 0 (16 * t + s)

/-- The check value of stream bytes: the unit's parameters with the running value loaded (R164). -/
def Cfg.streamCheck (c : Cfg) (t s : Nat) (flip : Bool) (bs : List Byte) : Nat :=
  let sc := (c.ten t).streams.getD s {}
  let u := c.ck sc.ck
  u.seeded (if flip then sc.seed ^^^ 0xFFFFFFFF else sc.seed).toNat bs

/-- The Gen3 reply of a message whose items have all completed (Table 8.10, R166). -/
def W.gen3Reply (w : W) (m : Msg) : List Byte :=
  let rs := m.items.flatMap (fun it => match it.2 with
    | some (st, sq, v) => le 2 it.1 ++ [BitVec.ofNat 8 st, BitVec.ofNat 8 sq] ++ le 4 v.toNat
    | none => le 2 it.1 ++ [0, 0, 0, 0, 0, 0])
  let b := m.hdr ++ rs
  b ++ le 4 (w.cfg.streamCheck m.ten m.stream true b)

/-- An item of a message has completed; the last one sends the reply when ACK is set or an item failed. -/
def W.itemDone (w : W) (mi item status sq : Nat) (value : BitVec 32) : W :=
  match w.dev.hpt.msgs.find? (fun e => e.1 == mi) with
  | none => w
  | some (_, m) =>
    let m := { m with items := lmod m.items item (fun x => (x.1, some (status, sq, value))) }
    if m.items.all (fun x => x.2.isSome) then
      let w := w.modHpt (fun h => { h with msgs := tdel h.msgs mi })
      let bad := m.items.any (fun x => match x.2 with
        | some (st, _, _) => !(decide (st = stOK) || decide (st = stOKC))
        | none => false)
      if m.ack || bad then (w.ckFront m.ten m.stream).sendBack m.route 3 m.ten 2 (w.gen3Reply m) false else w
    else w.modHpt (fun h => { h with msgs := tput h.msgs mi m })

/-- The answer of an operation in its generation's own form (R158, R162, R166). -/
def W.answer (w : W) (o : Op) (status step value : Nat) (bufs : List Nat) : W :=
  match o.msg with
  | some mi => w.itemDone mi o.item status (w.stepQ status step) (BitVec.ofNat 32 value)
  | none =>
    if o.req.gen = 1 then w.sendBack o.req.route 1 o.req.ten.val 2 (gen1Reply o status value) true
    else if o.req.quiet && decide (status = stOK) then w
    else w.sendBack o.req.route o.req.gen.val o.req.ten.val 2 (w.gen2Record o status step value bufs) false

/-- An operation completes without holding a ticket: NOTICKET adds to TEN_DENYCNT (R175). -/
def W.refuse (w : W) (o : Op) (status : Nat) : W :=
  let w := if status = stNOTICKET then w.modTen o.req.ten.val (fun x => { x with noticket := satAdd 8 x.noticket 1 }) else w
  w.answer o status 0 0 []

/-- Complete a ticket and retire it in one step (Table 9.2): the completion is recorded (DONE), answered, and
the ticket freed. -/
def W.complete (w : W) (n status step value : Nat) : W :=
  let k := w.dev.pool.tkt n
  match k.op with
  | none => w.freeTkt n
  | some o =>
    let w := w.logK 0x0A [(6, 10, n), (16, 8, status), (24, 6, if status = stFAILSAFE then step else 0)]
    let w := w.freeTkt n
    w.answer o status step value k.bufs

end Sys2Proof.Machine
end

