-- ==== Sys2Proof/Machine/Lanes.lean ====
section
/-! DEFINITION. Board lanes and banks (chapter 12) and the board side of fail-safe (chapter 11). -/

namespace Sys2Proof.Machine

/-! ## What a lane shows -/

/-- The settings in force on the board die. -/
def W.bcfg (w : W) : Cfg := w.dev.bd.cfg

/-- The bank of lane `n` is above its bank-down level. -/
def Board.bankUp (b : Board) (n : Nat) : Bool := b.up.getLsbD (bankOf n)

/-- Lane `n` counts as in fail-safe (R226, R214): every lane until the tables are in force. -/
def Board.safe (b : Board) (n : Nat) : Bool :=
  !b.tabs || (b.lane n).stage != 0 || !b.bankUp n || (b.cfg.abLane n && (tget {} b.direct n).fs)

/-- FSMAP of STATUS page 0. -/
def Board.fsmap (b : Board) : BitVec 32 := BitVec.ofNat 32 (packN (upto 32 (fun n => (n, 1, b2n (b.safe n)))))

/-- FSn is low while a lane counts as in fail-safe (R55, R233). -/
def Board.fsnLow (b : Board) : Bool := (List.range 32).any b.safe

/-- What BAR_LANEn shows: LEVEL is the level driven, 1 for high or released; a DARK lane drives none and shows 0
(Fail-safe timing, worked example). -/
def Lane.view (l : Lane) : LaneView := { cause := l.cause, armed := l.armed, stage := l.stage, level := l.code != 0 && l.stage != 3 }

/-- What BAR_LANEn shows of lane `n`: every lane of a bank that is down shows the cause BANK and DARK, whatever its mode (R226, R78). -/
def Board.view (b : Board) (n : Nat) : LaneView :=
  let v := (b.lane n).view
  if b.bankUp n then v else { v with cause := v.cause ||| 2, stage := 3, level := false }

/-- The present levels in the codes of Table 11.4. -/
def Board.levels (b : Board) : List Nat := upto 32 (fun n => if (b.cfg.lane n).mode = 2 then (b.lane n).code else 3)

/-- STATUS page 0 (Table 11.5), with the lane states and misses that BAR_LANEn and BAR_MISS show. -/
def W.page0 (w : W) : W :=
  let b := w.dev.bd
  let w := w.status (.page0 b.fsmap b.up b.low b.ready b.holdV (b.rackLost && b.tabs) b.pace
    ((List.range 32).map (fun n => (n, b.view n))) b.missed)
  w.modBd (fun b => { b with missed := 0, rackLost := b.rackLost && !b.tabs })

/-- STATUS page 1 (Table 11.5). -/
def W.page1 (w : W) : W :=
  let b := w.dev.bd
  (w.status (.page1 b.levels b.wseq b.corrected)).modBd (fun b => { b with corrected := 0 })

/-- STATUS page 2 (Presence and hot attach). -/
def W.page2 (w : W) : W := w.status (.page2 w.dev.bd.pstate w.dev.bd.prsn)

/-! ## Driving a lane -/

/-- The fail-safe settings of lane `n`: those of its channel where it is the board end of an A→B direct channel. -/
def Cfg.fsOf (c : Cfg) (n : Nat) : FsCfg := if c.abLane n then c.dirFs n else c.lfs n

/-- The fail-safe settings of lane `n`: those in force at its entry, when a hot weave has changed them since (R235). -/
def W.lfs (w : W) (n : Nat) : FsCfg := (w.dev.bd.lane n).kept.getD (w.bcfg.fsOf n)

/-- Give lane `n` an intended state: a LEVEL_OUT lane counts it in WSEQ, and the applied change is recorded
(EDGE). A driven pin shows the level driven; a parked lane or one of a dark bank drives nothing (R366, R78). -/
def W.applyCode (w : W) (n code : Nat) : W :=
  let lv := decide ((w.bcfg.lane n).mode = 2)
  let w := if lv then w.modBd (fun b => { b with wseq := (b.wseq + 1) % 65536 }) else w
  let w := w.modLane n (fun l => { l with code := code, hiz := false, mism := false,
                                          pin := if w.dev.bd.parked || !w.dev.bd.bankUp n then l.pin
                                                 else if code = 0 then false else if code = 1 then true else l.pin })
  w.bLogK 0x09 [(6, 5, n), (11, 2, code), (13, 16, w.dev.bd.wseq)]

/-- Close the conflict window (R248). -/
def Lane.closeWindow (l : Lane) : Lane := { l with wOpen := false }

/-- Drive the fail-safe value of lane `n` (Table 11.7): HOLD keeps the level, or takes the second stage when the
held level is lost. -/
def W.driveSafe (w : W) (n : Nat) (lost : Bool) : W :=
  let f := w.lfs n
  let v := if f.fsv = 3 && lost then f.second else f.fsv
  if v = 3 then w.applyCode n (w.dev.bd.lane n).code
  else (w.applyCode n (if v = 0 then 0 else if v = 1 && !(w.bcfg.lane n).od then 1 else 2)).modLane n (fun l => { l with hiz := v == 2 })

/-- Lane `n` takes a fail-safe cause (Table 11.8): from LIVE it enters FS1, or DARK when its bank is down. -/
def W.laneCause (w : W) (n : Nat) (cause : BitVec 7) : W :=
  let live := (w.dev.bd.lane n).stage == 0
  let w := w.modLane n (fun l => { l with cause := l.cause ||| cause, refr := 0,
                                          armed := if live then (w.lfs n).auto else l.armed })
  if live then
    let w := w.modLane n (fun l => { l.closeWindow with stage := 1 })
    if w.dev.bd.bankUp n then w.driveSafe n false else (w.applyCode n 2).modLane n (fun l => { l with stage := 3 })
  else w

/-- A cause of lane `n` ends. -/
def W.endCause (w : W) (n : Nat) (cause : BitVec 7) : W :=
  w.modLane n (fun l => { l with cause := l.cause &&& ~~~cause, refr := 0 })

abbrev cMISS : BitVec 7 := 1
abbrev cBANK : BitVec 7 := 2
abbrev cRESET : BitVec 7 := 4
abbrev cSTUCK : BitVec 7 := 8
abbrev cREACTION : BitVec 7 := 16
abbrev cFORCE : BitVec 7 := 32
abbrev cDIRECT : BitVec 7 := 64

/-- The output lanes of the settings on the board die. -/
def W.outLanes (w : W) : List Nat := (List.range 32).filter w.bcfg.outLane

/-- Every output lane takes a cause. -/
def W.allCause (w : W) (cause : BitVec 7) : W := w.forEach w.outLanes (fun w n => w.laneCause n cause)

/-- The lane returns to LIVE, driving what it drove (R227, R228). -/
def Lane.goLive (l : Lane) : Lane := { l with stage := 0, armed := false, refr := 0, hiz := false, kept := none }

/-! ## Lane registers (Tables 12.8–12.10) -/

/-- PIN of LAN_LEVEL: 0 while the bank is down (R251). -/
def Board.pinOf (b : Board) (n : Nat) : Bool := b.bankUp n && (b.lane n).pin

/-- LAN_LEVEL as read. -/
def Board.lanLevel (b : Board) (n : Nat) : Nat :=
  packN [(0, 2, (b.lane n).code), (8, 1, b2n (b.pinOf n)), (9, 1, b2n (!b.bankUp n))]

/-- LAN_MODE. -/
def Board.lanMode (b : Board) (n : Nat) : Nat :=
  let c := b.cfg.lane n
  packN [(0, 3, c.mode), (3, 1, b2n c.od), (4, 2, c.filt), (8, 3, (b.cfg.engOf n).getD 0)]

/-- LAN_OWN. -/
def Board.lanOwn (b : Board) (n : Nat) : Nat :=
  let c := b.cfg.lane n
  packN [(0, 5, c.owners.toNat), (5, 2, c.policy), (16, 10, c.cwin)]

/-- LAN_CONF. -/
def Board.lanConf (b : Board) (n : Nat) : Nat :=
  let l := b.lane n
  packN [(0, 1, b2n l.wOpen), (1, 3, l.wHolder), (4, 2, l.wCode), (8, 8, l.conflicts), (16, 8, l.overruled), (24, 3, l.lastLoser)]

/-- The state of bank `k` in BANK_STAT. -/
def Board.bankStat (b : Board) (k : Nat) : Nat :=
  packN [(0, 1, b2n (b.up.getLsbD k)), (1, 1, b2n (b.low.getLsbD k)), (8, 8, nth b.downs k), (16, 8, nth b.fails k)]

/-- A read in the LAN block: the value, with RC fields restarted (R251, R257). -/
def W.lanRead (w : W) (n off : Nat) : W × Nat :=
  let b := w.dev.bd
  if off = 0 then (w, b.lanLevel n)
  else if off = 4 then (w, b.lanMode n)
  else if off = 8 then (w, b.lanOwn n)
  else if off = 0xC then (w.modLane n (fun l => { l with conflicts := 0, overruled := 0 }), b.lanConf n)
  else if off = 0x10 then (w, (b.lane n).evt.toNat)
  else if off = 0x20 ∧ n % 8 = 0 then
    let c := b.cfg.bankOf (bankOf n)
    (w, packN [(0, 2, c.thr), (2, 1, b2n c.red)])
  else if off = 0x24 ∧ n % 8 = 0 then
    (w.modBd (fun b => { b with downs := b.downs.set (bankOf n) 0, fails := b.fails.set (bankOf n) 0 }), b.bankStat (bankOf n))
  else if off = 0x30 ∧ n = 0 then
    (w.modBd (fun b => { b with attaches := 0, detaches := 0 }),
     packN [(0, 2, b.pstate), (2, 1, b2n b.prsn), (8, 8, b.attaches), (16, 8, b.detaches)])
  else if off = 0x34 ∧ n = 0 then (w, packN [(0, 10, b.cfg.tsettle)])
  else if off = 0x38 ∧ n = 0 then (w, b.cfg.ranks.toNat)
  else (w, 0)

/-! ## Writing a LEVEL_OUT lane (R243–R249) -/

/-- An applied write of tenant `t` opens a window, or starts its own again. -/
def Lane.open (l : Lane) (t v now : Nat) : Lane :=
  { l with wOpen := true, wHolder := t, wCode := v, wStart := now, wRaised := false }

/-- The write that conflicts with the window's holder wins (R245). -/
def winsConflict (c : Cfg) (n t holder v : Nat) : Bool :=
  match (c.lane n).policy with
  | 1 => decide (c.rank holder < c.rank t)
  | 2 => v == safeCode c n
  | _ => false

/-- A conflicting write: the fault once a window, and the outcome of the policy. -/
def W.conflict (w : W) (t n v : Nat) : W × Nat :=
  let l := w.dev.bd.lane n
  let win := winsConflict w.bcfg n t l.wHolder v
  let loser := if win then l.wHolder else t
  let w := if l.wRaised then w else w.bRaise 0x41 loser n
  let w := w.modLane n (fun l => { l with wRaised := true, lastLoser := loser })
  if win then
    ((w.applyCode n v).modLane n (fun l => { l with wHolder := t, wCode := v, wStart := w.dev.bd.timer, overruled := satAdd 8 l.overruled 1 }), stOKC)
  else (w.modLane n (fun l => { l with conflicts := satAdd 8 l.conflicts 1 }), stCONFLICT)

/-- Every lane write and engine operation completes FAILSAFE: the board is absent, or no tables are in force (R254, R226). -/
def Board.refuses (b : Board) : Bool := b.pstate == 0 || !b.tabs

/-- A write of code `v` by tenant `t` to lane `n`: the status (the step of a FAILSAFE is 0). -/
def W.laneWrite (w : W) (t n code : Nat) : W × Nat :=
  let c := w.bcfg
  let l := w.dev.bd.lane n
  if w.dev.bd.refuses then (w, stFAILSAFE)
  else if (c.lane n).mode ≠ 2 ∨ code = 3 then (w, stDENIED)
  else if !(c.lane n).owners.getLsbD t then (w.bRaise 0x40 t n, stDENIED)
  else if w.dev.bd.safe n || w.dev.bd.stuck then (w, stFAILSAFE)
  else
    let v := if (c.lane n).od && code == 1 then 2 else code
    if l.wOpen && l.wHolder != t then
      if v ≠ l.wCode then w.conflict t n v else (w, stOK)
    else
      let w := w.applyCode n v
      if (c.lane n).cwin = 0 then (w, stOK) else (w.modLane n (fun l => l.open t v w.dev.bd.timer), stOK)

/-- A write in the LAN block (R243, R257). -/
def W.lanWrite (w : W) (t n off v : Nat) : W × Nat :=
  if off = 0 then w.laneWrite t n (v % 4)
  else if off = 0x10 then
    if t = 4 || w.bcfg.ownsLane t n then (w.modLane n (fun l => { l with evt := l.evt &&& ~~~(BitVec.ofNat 3 v) }), stOK) else (w, stOK)
  else (w, stOK)

end Sys2Proof.Machine
end

