-- ==== Sys2Proof/Machine/Engines.lean ====
section
/-! DEFINITION. The protocol engines on the board die (chapter 13). An operation moves by whole bytes, records
and steps; the bit times inside a byte are not states of the model (log entry 30). -/

namespace Sys2Proof.Machine

/-! ## Settings -/

def W.ecfg (w : W) (e : Nat) : EngCfg := (w.dev.bd.eng e).kept.getD (w.dev.bd.cfg.eng e)

/-- Field of ENG_TIM0 or ENG_TIM1 (Table 13.11). -/
def EngCfg.t0 (c : EngCfg) (lo n : Nat) : Nat := fld c.tim0.toNat lo n
def EngCfg.t1 (c : EngCfg) (lo n : Nat) : Nat := fld c.tim1.toNat lo n

/-- ASYN without a DIR lane: transmit and receive run at the same time. -/
def EngCfg.duplex (c : EngCfg) : Bool := c.mode == 3 && (c.role 2).isNone

/-- A character occupies two bytes with 9 data bits. -/
def EngCfg.charBytes (c : EngCfg) : Nat := if c.mode = 3 ∧ c.t1 0 4 = 9 then 2 else 1

/-- The mode accepts an ETX, an ERX, ENG_TXW, ENG_RXW, ENG_OCW (Table 13.1). -/
def EngCfg.acceptsEtx (c : EngCfg) : Bool := [1, 3, 4, 5, 6].contains c.mode
def EngCfg.acceptsErx (c : EngCfg) : Bool := (c.mode == 1 && (c.role 2).isSome) || [2, 3, 4, 5, 6].contains c.mode
def EngCfg.acceptsTxw (c : EngCfg) : Bool := [1, 3, 4].contains c.mode
def EngCfg.acceptsRxw (c : EngCfg) : Bool := c.mode == 3 || c.mode == 4
def EngCfg.acceptsOcw (c : EngCfg) : Bool := c.mode == 2

/-- DLEN suits the mode (R261). -/
def EngCfg.dlenOk (c : EngCfg) (n : Nat) : Bool :=
  if c.mode = 5 ∨ c.mode = 2 then n % 8 == 0 else n % c.charBytes == 0

/-! ## Channels -/

/-- The operations held on a channel; `true` is the receive channel of full-duplex ASYN. -/
def Eng.chan (g : Eng) (rx : Bool) : List EngOp := if rx then g.opsRx else g.ops

def Eng.setChan (g : Eng) (rx : Bool) (l : List EngOp) : Eng := if rx then { g with opsRx := l } else { g with ops := l }

/-- Change the operation in progress on a channel. -/
def Eng.modHead (g : Eng) (rx : Bool) (f : EngOp → EngOp) : Eng :=
  match g.chan rx with
  | [] => g
  | o :: r => g.setChan rx (f o :: r)

/-- The operation in progress on a channel. -/
def W.engHead (w : W) (e : Nat) (rx : Bool) : Option EngOp := ((w.dev.bd.eng e).chan rx).head?

/-- The channel an operation runs on. -/
def EngCfg.chanOf (c : EngCfg) (k : OpKind) : Bool := c.duplex && decide (k = .erx)

/-- Set the step of the operation in progress. -/
def W.engStep (w : W) (e : Nat) (rx : Bool) (n : Nat) : W :=
  w.modEng e (fun g => { (g.modHead rx (fun o => { o with step := n })) with step := n, sub := 0 })

/-! ## Results -/

/-- `l` in pieces of `n`, at most `fuel` of them. -/
def pieces {α : Type} (n : Nat) : Nat → List α → List (List α)
  | 0, _ => []
  | _, [] => []
  | fuel + 1, l => l.take n :: pieces n fuel (l.drop n)

/-- A backward packet of an operation: Q0 results before the others (R207). -/
def W.backward (w : W) (o : EngOp) (b : Payload) : W :=
  let p : Pkt := { body := b, tkt := o.tkt, ic := o.ic, ten := o.op.req.ten.val, queue := o.op.req.queue.val }
  if o.op.req.queue = 0 then w.modBd (fun d => { d with out0 := d.out0 ++ [p] })
  else w.modBd (fun d => { d with outR := d.outR ++ [p] })

/-- The data RESULT packets and the final RESULT of an operation (Table 13.2). -/
def W.engResult (w : W) (o : EngOp) (status step : Nat) (value : BitVec 32) : W :=
  ((pieces 10 o.rx.length o.rx).foldl (fun w p => w.backward o (.rdata p)) w).backward o (.result status step value none none)

/-- RESULT of an engine completion: BYTES and ERRF. -/
def EngOp.value (o : EngOp) : BitVec 32 := pack [(0, 13, o.moved), (16, 8, o.errf.toNat)]

/-- A fault of the engine's owner. -/
def W.engFault (w : W) (e src : Nat) : W := w.bRaise src (w.ecfg e).owner e

/-! ## Driving lanes -/

/-- Drive a role lane when it is bound and LIVE. -/
def W.driveRole (w : W) (e k : Nat) (high : Bool) : W :=
  match (w.ecfg e).role k with
  | some n => if (w.dev.bd.lane n).stage = 0 ∧ w.dev.bd.bankUp n then w.applyCode n (if high then 1 else 0) else w
  | none => w

/-- Drive or release the group lanes: bit `i` of `v` high or low, or all released. -/
def W.driveGroup (w : W) (e : Nat) (v : Option Byte) (od : Bool) : W :=
  w.forEach ((w.ecfg e).group.zip (List.range 8)) (fun w p =>
    if (w.dev.bd.lane p.1).stage = 0 ∧ w.dev.bd.bankUp p.1 then
      match v with
      | none => w.applyCode p.1 2
      | some b => w.applyCode p.1 (if b.getLsbD p.2 then 1 else if od then 2 else 0)
    else w)

/-- The levels at the pins of the group. -/
def W.groupPins (w : W) (e : Nat) : Byte :=
  BitVec.ofNat 8 (packN (((w.ecfg e).group.zip (List.range 8)).map (fun p => (p.2, 1, b2n (w.dev.bd.pinOf p.1)))))

/-- STB at its active or inactive level (STBPOL 0: active low). -/
def W.strobe (w : W) (e : Nat) (active : Bool) : W :=
  (w.modEng e (fun g => { g with strobe := active })).driveRole e 0 (active == ((w.ecfg e).t1 0 1 == 1))

/-- The idle levels of the mode (Table 13.5). -/
def W.idleLevels (w : W) (e : Nat) : W :=
  let c := w.ecfg e
  match c.mode with
  | 1 => ((w.strobe e false).driveRole e 2 (c.t1 4 1 == 0)).driveGroup e none false
  | 3 => ((w.driveRole e 0 (c.t1 8 1 == 0)).driveRole e 2 false).modEng e (fun g => { g with dirOn := false })
  | 4 => if c.slave then w.modEng e (fun g => { g with selLow := g.selLow })
         else (((w.driveRole e 0 (tbit (c.t0 10 2) 1)).driveRole e 3 true).driveRole e 1 false).modEng e (fun g => { g with selLow := false })
  | _ => w

/-! ## The receive FIFO -/

/-- The bytes an ERX takes from the FIFO; it ends at DLEN, and in ASYN at a byte with an error. -/
def takeRx (stopErr : Bool) : List (Byte × BitVec 8) → EngOp → List (Byte × BitVec 8) × EngOp × Bool
  | [], o => ([], o, decide (o.dlen ≤ o.moved))
  | (b, f) :: r, o =>
    if o.dlen ≤ o.moved then ((b, f) :: r, o, true)
    else
      let o := { o with moved := o.moved + 1, rx := o.rx ++ [b], errf := o.errf ||| f, step := 2 }
      if stopErr && f != 0 then (r, o, true) else takeRx stopErr r o

/-- Bytes enter the receive FIFO together, or are dropped when they do not fit (R263). -/
def W.pushRx (w : W) (e : Nat) (bs : List (Byte × BitVec 8)) : W :=
  let g := w.dev.bd.eng e
  if g.rx.length + bs.length ≤ 256 then w.modEng e (fun g => { g with rx := g.rx ++ bs, gap := false })
  else
    let w := w.modEng e (fun g => { g with overrun := satAdd 8 g.overrun 1, overEp := true })
    if g.overEp then w else w.engFault e 0x4B

/-- An 8-byte event record (Table 13.8). -/
def W.eventRecord (w : W) (e lane : Nat) (level : Bool) : W :=
  let x := packN [(0, 56, w.dev.bd.timer), (56, 3, lane), (59, 1, b2n level), (60, 2, w.dev.bd.timerQ), (62, 1, b2n (w.dev.bd.eng e).overEp)]
  let room := decide ((w.dev.bd.eng e).rx.length + 8 ≤ 256)
  let w := w.pushRx e ((le 8 x).map (fun b => (b, 0)))
  if room then w.modEng e (fun g => { g with overEp := false }) else w

/-- Bytes an engine puts on its lines. -/
def W.putLine (w : W) (e : Nat) (bs : List Byte) : W := w.modEng e (fun g => { g with txd := bs.reverse ++ g.txd })

/-! ## Running operations -/

/-- An ERX of a mode that receives through the FIFO. -/
def EngCfg.fifoErx (c : EngCfg) : Bool := c.mode == 2 || c.mode == 3 || c.mode == 5 || (c.mode == 4 && c.slave)

/-- The first action of the operation at the head of a channel; a new operation takes the settings in force. -/
def W.engBegin (w : W) (e : Nat) (rx : Bool) : W :=
  let w := if (w.engHead e rx).all (fun o => o.step == 0) then w.modEng e (fun g => { g with kept := none }) else w
  let c := w.ecfg e
  match w.engHead e rx with
  | none => w
  | some o =>
    let w := (w.engStep e rx 1).modEng e (fun g => { g with st := 1 })
    match c.mode with
    | 1 => if o.op.kind = .erx then (w.driveGroup e none false).driveRole e 2 (c.t1 4 1 == 1)
           else (match o.data.head? with
             | some b => (w.driveGroup e (some b) false).driveRole e 2 (c.t1 4 1 == 0)
             | none => w)
    | 2 => if o.op.kind = .erx then w
           else ((w.modEng e (fun g => { g with drv := o.op.value.setWidth 8 })).driveGroup e
                   (some (~~~ (o.op.value.setWidth 8 : Byte))) true).engStep e rx 2
    | 3 => if o.op.kind = .erx then w
           else if (c.role 2).isSome then (w.driveRole e 2 true).modEng e (fun g => { g with dirOn := true })
           else w.engStep e rx 2
    | 4 => if c.slave then w else (w.driveRole e 3 false).modEng e (fun g => { g with selLow := true })
    | _ => w

/-- The operation in progress ends: its result is queued and the next one begins, or the engine is IDLE. -/
def W.engEnd (w : W) (e : Nat) (rx : Bool) (status step : Nat) (value : Option (BitVec 32)) : W :=
  match w.engHead e rx with
  | none => w
  | some o =>
    let w := w.engResult o status step (value.getD o.value)
    let w := w.modEng e (fun g => { (g.setChan rx ((g.chan rx).drop 1)) with lastF := (o.errf.toNat, status, step) })
    let g := w.dev.bd.eng e
    if (g.chan rx).isEmpty then
      if (g.chan (!rx)).isEmpty && g.st == 1 then (w.modEng e (fun g => { g with st := 0, step := 0, sub := 0 })).idleLevels e else w
    else w.engBegin e rx

/-- A waiting ERX takes what the FIFO holds (Operations and data). -/
def W.serveRx (w : W) (e : Nat) : W :=
  let c := w.ecfg e
  let rx := c.chanOf .erx
  match w.engHead e rx with
  | none => w
  | some o =>
    if o.op.kind = .erx ∧ o.step ≠ 0 ∧ c.fifoErx then
      let g := w.dev.bd.eng e
      let o := if g.overEp && c.mode != 2 && c.mode != 5 then { o with errf := o.errf ||| 8 } else o
      let r := takeRx (decide (c.mode = 3)) g.rx o
      let w := w.modEng e (fun g => { ((g.modHead rx (fun _ => r.2.1))) with rx := r.1, overEp := g.overEp && (c.mode == 2 || c.mode == 5) })
      if r.2.2 || (c.mode == 3 && g.gap && decide (0 < r.2.1.moved)) then
        let w := if c.mode = 4 then w.bLog [packN [(0, 6, 0x12), (6, 3, e), (9, 10, r.2.1.tkt)], crc32 r.2.1.rx <<< 6] else w
        w.engEnd e rx stOK r.2.1.step none
      else w
    else w

/-- Begin the operations that wait on an idle channel. -/
def W.engKick (w : W) (e : Nat) (rx : Bool) : W :=
  match w.engHead e rx with
  | some o => if o.step = 0 ∧ (w.dev.bd.eng e).st < 2 then (w.engBegin e rx).serveRx e else w
  | none => w

/-- An operation reaches the board die (R260–R262, R232, R102). -/
def W.engAccept (w : W) (e tkt ic dlen : Nat) (data : List Byte) (o : Op) (ok : EngCfg → Bool) : W :=
  let c := w.ecfg e
  let x : EngOp := { tkt := tkt, ic := ic, op := o, dlen := dlen, data := data }
  let rx := c.chanOf o.kind
  if w.dev.bd.refuses then w.engResult x stFAILSAFE 0 0
  else if c.owner ≠ o.req.ten.val then (w.bRaise 0x48 o.req.ten.val e).engResult x stDENIED 0 0
  else if !ok c || !c.dlenOk dlen then w.engResult x stDENIED 0 0
  else if (w.dev.bd.eng e).st = 2 ∨ w.dev.bd.stuck then w.engResult x stFAILSAFE 0 0
  else (w.modEng e (fun g => g.setChan rx (g.chan rx ++ [x]))).engKick e rx

/-- Data bytes arrive for an operation held (Table 13.2). -/
def W.engData (w : W) (tkt : Nat) (bs : List Byte) : W :=
  let e := (List.range 8).find? (fun e => ((w.dev.bd.eng e).ops).any (fun o => o.tkt == tkt))
  match e with
  | none => w
  | some e =>
    let starved := match w.engHead e false with
      | some o => o.tkt == tkt && o.data.isEmpty && o.step == 1 && (w.ecfg e).mode == 1
      | none => false
    let w := w.modEng e (fun g => { g with ops := g.ops.map (fun o =>
      if o.tkt == tkt then { o with data := o.data ++ bs.take (o.dlen - o.moved - o.data.length) } else o) })
    if starved then w.engBegin e false else w

/-! ## Timers -/

/-- One byte of an STRB operation is over. -/
def W.strbByte (w : W) (e : Nat) : W :=
  let w := w.modEng e (fun g => g.modHead false (fun o => { o with moved := o.moved + 1, data := o.data.drop 1 }))
  match w.engHead e false with
  | some o => if o.dlen ≤ o.moved then (w.driveGroup e none false).engEnd e false stOK 5 none else w.engBegin e false
  | none => w

/-- Sample the byte of an STRB read, and record it (R347). -/
def W.strbSample (w : W) (e : Nat) (b : Byte) : W :=
  match w.engHead e false with
  | some o =>
    if o.op.kind = .erx then
      (w.modEng e (fun g => { (g.modHead false (fun o => { o with rx := o.rx ++ [b] })) with shift := none })).bLogT 0x11
        [(6, 5, e), (11, 1, 1), (12, 8, b.toNat)]
    else w
  | none => w

/-- The byte at the group's pins; in REPLAY the one from the log (R358). -/
def W.strbPins (w : W) (e : Nat) : Byte := if w.dev.log.lstate = 4 then (w.dev.bd.eng e).shift.getD (w.groupPins e) else w.groupPins e

/-- STB is released and the data held. -/
def W.strbRelease (w : W) (e : Nat) : W := (w.engStep e false 4).strobe e false

/-- The STRB steps on a timer. -/
def W.strbTimer (w : W) (e : Nat) (o : EngOp) : W :=
  let c := w.ecfg e
  let hs := c.t1 2 2 == 1
  match o.step with
  | 1 =>
    if o.op.kind = .erx then (w.engStep e false 2).strobe e true
    else (match o.data.head? with
      | some b => ((w.putLine e [b]).engStep e false 2).strobe e true
      | none => w)
  | 2 =>
    if hs then (if (w.dev.bd.eng e).ackOn then (w.strbSample e (w.strbPins e)).strbRelease e else w.engStep e false 3)
    else (w.strbSample e (w.strbPins e)).strbRelease e
  | 4 => if hs && (w.dev.bd.eng e).ackOn then w.modEng e (fun g => { g with sub := 1 }) else w.strbByte e
  | _ => w

/-- The ASYN steps on a timer: TLEAD, one character, TLAG. -/
def W.asynTimer (w : W) (e : Nat) (o : EngOp) : W :=
  let c := w.ecfg e
  let n := c.charBytes
  match o.step with
  | 1 => if o.op.kind = .erx then w else w.engStep e false 2
  | 2 =>
    if o.op.kind ≠ .erx ∧ (w.dev.bd.eng e).ctsOn ∧ n ≤ o.data.length then
      let w := (w.putLine e (o.data.take n)).modEng e (fun g => g.modHead false (fun o => { o with moved := o.moved + n, data := o.data.drop n }))
      if o.dlen ≤ o.moved + n then (if (c.role 2).isSome then w.engStep e false 3 else w.engEnd e false stOK 4 none) else w
    else w
  | 3 => ((w.driveRole e 2 false).modEng e (fun g => { g with dirOn := false })).engEnd e false stOK 4 none
  | _ => w

/-- One byte of a SYNC operation: `out` leaves, `inp` is taken in. -/
def W.syncByte (w : W) (e : Nat) (o : EngOp) (inp : Byte) : W :=
  let c := w.ecfg e
  let w := w.modEng e (fun g => { g with shift := none })
  if o.op.kind = .erx then
    (w.putLine e [BitVec.ofNat 8 (c.t0 16 8)]).modEng e (fun g => g.modHead false (fun o => { o with moved := o.moved + 1, rx := o.rx ++ [inp] }))
  else
    match o.data with
    | [] => w
    | b :: r =>
      let w := (w.putLine e [b]).modEng e (fun g => g.modHead false (fun o => { o with moved := o.moved + 1, data := r }))
      if c.t0 14 1 = 1 then w.pushRx e [(inp, 0)] else w

/-- The SYNC master steps on a timer: TSEL, one byte, SEL high. -/
def W.syncTimer (w : W) (e : Nat) (o : EngOp) : W :=
  let c := w.ecfg e
  if c.slave then w
  else
    match o.step with
    | 1 => w.engStep e false 2
    | 2 =>
      let lvl := match c.role 2 with
        | some n => w.dev.bd.pinOf n
        | none => false
      let w := w.syncByte e o ((w.dev.bd.eng e).shift.getD (if lvl then 0xFF else 0))
      (match w.engHead e false with
        | some o => if o.dlen ≤ o.moved then w.engStep e false 3 else w
        | none => w)
    | 3 =>
      let w := (w.driveRole e 3 true).modEng e (fun g => { g with selLow := false })
      let w := if o.op.kind = .erx then w.bLog [packN [(0, 6, 0x12), (6, 3, e), (9, 10, o.tkt)], crc32 o.rx <<< 6] else w
      w.engEnd e false stOK 4 none
    | _ => w

/-- An engine interval ends and the engine takes its next action. -/
def W.engTimer (w : W) (e : Nat) : W :=
  match w.engHead e false with
  | none => w
  | some o =>
    if (w.dev.bd.eng e).st ≠ 1 then w
    else
      match (w.ecfg e).mode with
      | 1 => w.strbTimer e o
      | 2 =>
        if o.op.kind ≠ .erx ∧ o.step = 2 then
          let s := w.groupPins e
          (w.modEng e (fun g => { g with smp := s })).engEnd e false stOK 4 (some (s.setWidth 32))
        else w
      | 3 => w.asynTimer e o
      | 4 => w.syncTimer e o
      | 6 => if o.step = 5 ∨ o.step = 6 then w.engEnd e false stOK o.step none else w
      | _ => w

/-! ## Input edges -/

/-- A received ASYN character (R271): discarded while DIR is asserted without ECHO; a break puts no byte in
the FIFO. -/
def W.asynChar (w : W) (e : Nat) (ch : BitVec 9) (parity framing brk : Bool) : W :=
  let c := w.ecfg e
  let g := w.dev.bd.eng e
  let f : BitVec 8 := BitVec.ofNat 8 (packN [(0, 1, b2n parity), (1, 1, b2n framing), (2, 1, b2n brk)])
  if g.dirOn && c.t1 9 1 == 0 then w
  else
    let w := w.bLogT 0x11 [(6, 5, e), (11, 1, 1), (12, 8, (ch.setWidth 8 : Byte).toNat), (20, 8, f.toNat)]
    let w := if f != 0 then (w.modEng e (fun g => { g with line := satAdd 8 g.line 1 })).engFault e 0x4A else w
    if brk then
      let rx := c.chanOf .erx
      (match w.engHead e rx with
        | some o =>
          if o.op.kind = .erx ∧ o.step ≠ 0 then
            (w.modEng e (fun g => g.modHead rx (fun o => { o with errf := o.errf ||| f }))).engEnd e rx stOK o.step none
          else w
        | none => w)
    else
      let lo : Byte := ch.setWidth 8
      (if c.charBytes = 2 then w.pushRx e [(lo, 0), (if ch.getLsbD 8 then 1 else 0, f)] else w.pushRx e [(lo, f)]).serveRx e

/-- A SYNC slave exchanges a byte at the board's clock (R273). -/
def W.slaveByte (w : W) (e : Nat) (inp : Byte) : W :=
  let c := w.ecfg e
  if !(w.dev.bd.eng e).selLow then w
  else
    let w := match w.engHead e false with
      | some o =>
        if o.op.kind ≠ OpKind.erx ∧ o.step ≠ 0 ∧ !o.data.isEmpty then
          let w := (w.putLine e (o.data.take 1)).modEng e (fun g => g.modHead false (fun o => { o with moved := o.moved + 1, data := o.data.drop 1 }))
          if o.dlen ≤ o.moved + 1 then w.engEnd e false stOK 4 none else w
        else if o.op.kind = OpKind.erx then w.putLine e [BitVec.ofNat 8 (c.t0 16 8)]
        else ((w.putLine e [BitVec.ofNat 8 (c.t0 16 8)]).modEng e (fun g =>
               { (g.modHead false (fun o => { o with errf := o.errf ||| 16 })) with under := satAdd 8 g.under 1 })).engFault e 0x4C
      | none => ((w.putLine e [BitVec.ofNat 8 (c.t0 16 8)]).modEng e (fun g => { g with under := satAdd 8 g.under 1 })).engFault e 0x4C
    (w.pushRx e [(inp, 0)]).serveRx e

/-- NSUB of a TWO operation (VALUE [9:8]). -/
def EngOp.nsub (o : EngOp) : Nat := fld o.op.value.toNat 8 2

/-- The address byte TWO puts on the bus in step 1 or 3. -/
def EngOp.twoOut (o : EngOp) : List Byte :=
  let a := fld o.op.value.toNat 0 7
  match o.step with
  | 1 => [BitVec.ofNat 8 (2 * a + (if o.op.kind = .erx ∧ o.nsub = 0 then 1 else 0))]
  | 3 => [BitVec.ofNat 8 (2 * a + 1)]
  | _ => []

/-- An acknowledged byte on TWO: the next step. -/
def W.twoAck (w : W) (e : Nat) (o : EngOp) : W :=
  let g := w.dev.bd.eng e
  let data := fun (w : W) => if o.dlen = 0 then w.engStep e false 5 else w.engStep e false 4
  match o.step with
  | 1 => (fun w => if o.nsub = 0 then data w else w.engStep e false 2) (w.putLine e o.twoOut)
  | 2 =>
    let w := w.putLine e [BitVec.ofNat 8 (fld o.op.mask.toNat (8 * (o.nsub - 1 - g.sub)) 8)]
    if o.nsub ≤ g.sub + 1 then (if o.op.kind = .erx then w.engStep e false 3 else data w)
    else w.modEng e (fun g => { g with sub := g.sub + 1 })
  | 3 => (w.putLine e o.twoOut).engStep e false 4
  | 4 =>
    if o.op.kind = .erx then w
    else
      match o.data with
      | [] => w
      | b :: r =>
        let w := (w.putLine e [b]).modEng e (fun g => g.modHead false (fun o => { o with moved := o.moved + 1, data := r }))
        if o.dlen ≤ o.moved + 1 then w.engStep e false 5 else w
  | _ => w

/-- A line error flag of the operation in progress: counted and raised (R264). -/
def W.lineErr (w : W) (e : Nat) (f : BitVec 8) : W :=
  (w.modEng e (fun g => { (g.modHead false (fun o => { o with errf := o.errf ||| f })) with line := satAdd 8 g.line 1 })).engFault e 0x4A

/-- The TWO edges (R275). -/
def W.twoEdge (w : W) (e : Nat) (o : EngOp) : EngEdge → W
  | .twoAck => w.twoAck e o
  | .twoNack =>
    if o.step = 1 ∨ o.step = 2 ∨ o.step = 3 ∨ (o.step = 4 ∧ o.op.kind ≠ .erx ∧ !o.data.isEmpty) then (w.lineErr e 32).engStep e false 5 else w
  | .twoByte b =>
    if o.step = 4 ∧ o.op.kind = .erx then
      let w := w.modEng e (fun g => g.modHead false (fun o => { o with moved := o.moved + 1, rx := o.rx ++ [b] }))
      let w := w.bLogT 0x11 [(6, 5, e), (11, 1, 1), (12, 8, b.toNat)]
      if o.dlen ≤ o.moved + 1 then w.engStep e false 5 else w
    else w
  | .arbLost => if o.step ≠ 0 ∧ o.step ≠ 6 then (w.lineErr e 64).engStep e false 6 else w
  | _ => w

/-- ACK edges of STRB. -/
def W.strbEdge (w : W) (e : Nat) (o : EngOp) (active : Bool) (data : Byte) : W :=
  let w := w.modEng e (fun g => { g with ackOn := active })
  if active then
    if o.step = 3 then
      (w.strbSample e data).strbRelease e
    else w
  else if o.step = 4 ∧ (w.dev.bd.eng e).sub = 1 then w.strbByte e else w

/-- An edge on an engine input drives the next engine action (R266, R269, R271, R273, R275). -/
def W.engEdge (w : W) (e : Nat) (x : EngEdge) : W :=
  let c := w.ecfg e
  let head := w.engHead e false
  match c.mode with
  | 1 =>
    (match x with
      | .ackActive d => (match head with
        | some o => w.strbEdge e o true d
        | none => w.modEng e (fun g => { g with ackOn := true }))
      | .ackInactive => (match head with
        | some o => w.strbEdge e o false 0
        | none => w.modEng e (fun g => { g with ackOn := false }))
      | _ => w)
  | 3 =>
    (match x with
      | .rxChar ch p f b => w.asynChar e ch p f b
      | .rxIdle => if c.t1 24 4 = 0 then w else (w.modEng e (fun g => { g with gap := true })).serveRx e
      | .cts a => if (c.role 3).isSome then w.modEng e (fun g => { g with ctsOn := a }) else w
      | _ => w)
  | 4 =>
    (match x with
      | .slaveByte b => if c.slave then w.slaveByte e b else w.modEng e (fun g => { g with shift := some b })
      | .sel high =>
        if c.slave then
          let w := w.modEng e (fun g => { g with selLow := !high })
          (match head with
            | some o => if high ∧ o.op.kind = .erx ∧ o.step ≠ 0 ∧ 0 < o.moved then w.engEnd e false stOK o.step none else w
            | none => w)
        else w
      | _ => w)
  | 6 => (match head with
    | some o => if o.step = 0 then w else w.twoEdge e o x
    | none => w)
  | _ => w

/-! ## Time limits and stops -/

/-- An operation's limit, TACK or TSTRETCH expires (R265). -/
def W.engTimeout (w : W) (e : Nat) (x : EngLimit) : W :=
  let c := w.ecfg e
  let rx := match w.engHead e false with
    | some _ => false
    | none => true
  match w.engHead e rx with
  | none => w
  | some o =>
    let due := match x with
      | .tmo => o.step != 0
      | .tack => c.mode == 1 && (o.step == 3 || (o.step == 4 && (w.dev.bd.eng e).sub == 1))
      | .tstretch => c.mode == 6 && o.step != 0
    if due && (w.dev.bd.eng e).st == 1 then
      (((w.modEng e (fun g => { g with tmoCnt := satAdd 8 g.tmoCnt 1 })).bLogK 0x07 [(6, 4, 6), (10, 16, e)]).engFault e 0x49).engEnd e rx stTIMEOUT o.step none
    else w

/-- A halt cause of Table 13.4 is present for the engine. MISS stops every engine, with output lanes or without (R224): it is
present from the miss that reaches NMISS to a valid refresh, and on a lane until it is removed there. -/
def W.haltMiss (w : W) (e : Nat) : Bool :=
  decide (w.bcfg.nmiss ≤ w.dev.bd.miss) || (w.ecfg e).outLanes.any (fun n => (w.dev.bd.lane n).cause &&& cMISS != 0)
def W.haltCause (w : W) (e : Nat) : Bool :=
  (w.ecfg e).outLanes.any (fun n => (w.dev.bd.lane n).cause &&& (cREACTION ||| cFORCE ||| cSTUCK) != 0)
def W.haltBank (w : W) (e : Nat) : Bool := (w.ecfg e).lanes.any (fun n => !w.dev.bd.bankUp n)

/-- Stop every operation of a channel: the one in progress with its step, the queued ones with step 0 and their own status. -/
def W.stopChan (w : W) (e : Nat) (rx : Bool) (status queued : Nat) : W :=
  let l := (w.dev.bd.eng e).chan rx
  let w := l.foldl (fun w o => w.engResult o (if o.step = 0 then queued else status) o.step o.value) w
  let w := match l with
    | [] => w
    | o :: _ => w.modEng e (fun g => { g with lastF := (o.errf.toNat, status, o.step) })
  w.modEng e (fun g => g.setChan rx [])

/-- The engine is HALTED (Table 13.3): ENG_HALT is raised on entry. -/
def W.engHalt (w : W) (e status : Nat) (queued : Nat := stFAILSAFE) : W :=
  if (w.ecfg e).mode = 0 then w
  else
    let was := (w.dev.bd.eng e).st
    let w := (w.stopChan e false status queued).stopChan e true status queued
    let w := w.modEng e (fun g => { g with st := 2, step := 0, sub := 0 })
    if was = 2 then w else w.engFault e 0x4D

/-- Drop an engine's operations of one tenant without completion, then the idle levels (R88); answers the
tickets and issue counts retired. -/
def W.engRetire (w : W) (e t : Nat) : W × List (Nat × Nat) :=
  let g := w.dev.bd.eng e
  let mine := fun (o : EngOp) => o.op.req.ten.val == t
  let gone := (g.ops ++ g.opsRx).filter mine
  if gone.isEmpty then (w, [])
  else
    let w := w.modEng e (fun g => { g with ops := g.ops.filter (fun o => !mine o), opsRx := g.opsRx.filter (fun o => !mine o) })
    let w := if g.st = 1 then (w.modEng e (fun g => { g with st := 0, step := 0, sub := 0 })).idleLevels e else w
    (w, gone.map (fun o => (o.tkt, o.ic)))

/-- Acknowledge retired tickets of tenant `t`, up to eight to a packet (Table 11.3). -/
def W.abortAcks (w : W) (t : Nat) (l : List (Nat × Nat)) : W :=
  w.modBd (fun b => { b with outA := b.outA ++ (pieces 8 l.length l).map (fun p => ({ body := .abortAck p, ten := t } : Pkt)) })

/-- A stop cause is taken (Table 13.4). -/
def W.engStop (w : W) (e : Nat) (x : StopCause) : W :=
  match x with
  | .tenantReset => let r := w.engRetire e (w.ecfg e).owner; if r.2.isEmpty then r.1 else r.1.abortAcks (w.ecfg e).owner r.2
  | .miss => if w.haltMiss e then w.engHalt e stFAILSAFE else w
  | .laneCause => if w.haltCause e then w.engHalt e stFAILSAFE else w
  | .bank =>
    if w.haltBank e then
      let n := ((w.dev.bd.eng e).ops ++ (w.dev.bd.eng e).opsRx).length
      let bank := (((w.ecfg e).lanes.find? (fun n => !w.dev.bd.bankUp n)).getD 0) / 8
      (w.engHalt e stFAILSAFE).modBd (fun b => { b with fails := lmod b.fails bank (fun x => satAdd 8 x n) })
    else w
  | .absent => if w.dev.bd.pstate = 0 then w.engHalt e stABORTED else w
  | .reset => if w.dev.bd.tabs then w else w.engHalt e stABORTED stABORTED

/-- No halt cause is present and every output lane is LIVE (Table 13.3, R268). -/
def W.canResume (w : W) (e : Nat) : Bool :=
  (w.dev.bd.eng e).st == 2 && w.dev.bd.tabs && w.dev.bd.pstate != 0 && !w.haltBank e && decide (w.dev.bd.miss < w.bcfg.nmiss) &&
  (w.ecfg e).outLanes.all (fun n => (w.dev.bd.lane n).stage == 0)

/-- The idle sequence (Engine states). -/
def W.idleSeq (w : W) (e : Nat) : W :=
  if w.canResume e then (w.modEng e (fun g => { g with st := 0, step := 0 })).idleLevels e else w

/-! ## Sampling and pulses -/

/-- One lane's counted level and run of samples that differ from it, after one more sample. -/
def filtStep (need : Nat) (f : Bool × Nat) (s : Bool) : (Bool × Nat) × Bool :=
  if s = f.1 then ((f.1, 0), false) else if need ≤ f.2 + 1 then ((s, 0), true) else ((f.1, f.2 + 1), false)

/-- The OCW group is sampled (R270). -/
def W.ocwSample (w : W) (e : Nat) (levels : Byte) : W :=
  let c := w.ecfg e
  if c.mode ≠ 2 then w
  else
    let need := c.t0 16 2 + 1
    let w := w.modEng e (fun g => { g with smp := levels })
    let w := w.forEach (List.range c.gcount) (fun w k =>
      let f := ((w.dev.bd.eng e).filt).getD k (true, 0)
      let r := filtStep need f (levels.getLsbD k)
      let w := w.modEng e (fun g => { g with filt := ((g.filt ++ List.replicate (c.gcount - g.filt.length) (true, 0))).set k r.1 })
      if r.2 then (w.eventRecord e k r.1.1).bLogT 0x11 [(6, 5, e), (11, 1, 1), (12, 8, levels.toNat)] else w)
    w.serveRx e

/-- An enabled edge on a PULSE input writes a record (R274). -/
def W.pulseEdge (w : W) (e k : Nat) (level : Bool) : W :=
  let c := w.ecfg e
  let en := c.t0 (4 + 2 * k) 2
  if c.mode = 5 ∧ k < c.gcount ∧ !tbit (c.t0 0 4) k ∧ tbit en (if level then 0 else 1) then
    ((w.eventRecord e k level).bLogT 0x11 [(6, 5, e), (11, 1, 1), (12, 8, b2n level), (20, 8, k)]).serveRx e
  else w

/-- A record's time is reached and its output lane is driven (R274). -/
def W.pulseDue (w : W) (e : Nat) : W :=
  match w.engHead e false with
  | none => w
  | some o =>
    if (w.ecfg e).mode ≠ 5 ∨ o.op.kind = .erx ∨ o.data.length < 8 ∨ (w.dev.bd.eng e).st ≠ 1 then w
    else
      let r := leN (o.data.take 8)
      let t := fld r 0 56
      if t < o.lastTime then w.engEnd e false stDENIED o.step none
      else
        let w := if t < w.dev.bd.timer then (w.modEng e (fun g => g.modHead false (fun o => { o with errf := o.errf ||| 128 }))).engFault e 0x4E else w
        let n := (w.ecfg e).gbase + fld r 56 3
        let w := if tbit ((w.ecfg e).t0 0 4) (fld r 56 3) ∧ (w.dev.bd.lane n).stage = 0 then w.applyCode n (b2n (tbit r 59)) else w
        let w := w.modEng e (fun g => g.modHead false (fun o => { o with moved := o.moved + 8, data := o.data.drop 8, lastTime := t }))
        if o.dlen ≤ o.moved + 8 then w.engEnd e false stOK 1 none else w

/-! ## Registers (Table 13.10) -/

/-- ENG_STATUS. -/
def Eng.statusReg (g : Eng) : Nat :=
  packN [(0, 2, g.st), (2, 5, g.ops.length + g.opsRx.length), (8, 9, g.rx.length),
         (17, 7, (g.ops.map (fun o => o.data.length)).sum), (24, 6, g.step)]

/-- Up to three bytes taken from the receive FIFO (R276). -/
def W.rxWord (w : W) (e : Nat) : W × Nat :=
  let l := (w.dev.bd.eng e).rx.take 3
  let l := if (w.ecfg e).charBytes = 2 then l.take 2 else l
  (w.modEng e (fun g => { g with rx := g.rx.drop l.length }),
   packN [(0, 24, leN (l.map (·.1))), (24, 2, l.length), (26, 1, b2n (l.any (fun x => x.2 != 0)))])

/-- A read in an engine window. -/
def W.engRead (w : W) (e off : Nat) : W × Nat :=
  let c := w.ecfg e
  let g := w.dev.bd.eng e
  if off = 0 then (w, packN [(0, 3, c.mode), (4, 3, c.owner), (8, 5, c.gbase), (16, 4, c.gcount)])
  else if off = 4 then (w, c.roles.toNat)
  else if off = 8 then (w, c.tim0.toNat)
  else if off = 0xC then (w, c.tim1.toNat)
  else if off = 0x10 then (w, g.statusReg)
  else if off = 0x14 then
    (w.modEng e (fun g => { g with line := 0, overrun := 0, under := 0, tmoCnt := 0 }),
     packN [(0, 8, g.line), (8, 8, g.overrun), (16, 8, g.under), (24, 8, g.tmoCnt)])
  else if off = 0x20 then (w, packN [(0, 8, g.drv.toNat), (8, 8, g.smp.toNat)])
  else if off = 0x28 then (w, c.tmo)
  else if off = 0x2C then (w, packN [(0, 8, g.lastF.1), (8, 8, g.lastF.2.1), (16, 6, g.lastF.2.2)])
  else (w, 0)

end Sys2Proof.Machine
end

