-- ==== Sys2Proof/Machine/Arb.lean ====
section
/-! DEFINITION. The two arbiters (chapter 10) and the rack side of the packet lanes (R215–R218, R415). -/

namespace Sys2Proof.Machine

/-! ## The tenant–queue arbiter -/

/-- The level of pair `i` (TQA_PRIO; reset 3 for Q0 pairs and 1 for the others). -/
def Arb.level (a : Arb) (i : Nat) : Nat := a.prio.getD i (if i % 4 = 0 then 3 else 1)

/-- The weight of pair `i`. -/
def Cfg.weight (c : Cfg) (i : Nat) : Nat := nth c.arb.weight i

/-- The queue of pair `i`. -/
def Dev.pairQueue (d : Dev) (i : Nat) : List Nat := (d.ten (i / 4)).queues.getD (i % 4) []

/-- Pair `i` requests: its queue holds a ticket, and a freeze admits it (R191, R197). -/
def Dev.requests (d : Dev) (i : Nat) : Bool := !(d.pairQueue i).isEmpty && (!d.arb.freeze || i / 4 == 4)

/-- Pair `i` ranks above pair `j`: level, then credit, then index. -/
def Arb.ranks (a : Arb) (i j : Nat) : Bool :=
  decide (a.level j < a.level i) || (a.level i == a.level j && (decide (nth a.cred j < nth a.cred i) || (nth a.cred i == nth a.cred j && decide (i < j))))

/-- The pair that wins selection (R191). -/
def Dev.tqaPick (d : Dev) : Option Nat :=
  (List.range 20).foldl (fun best i =>
    if d.requests i then
      match best with
      | none => some i
      | some j => if d.arb.ranks i j then some i else some j
    else best) none

/-- Credits after a grant to pair `i`: a debit, and every counter at its weight when the window closes
(R192). -/
def Arb.debit (a : Arb) (c : Cfg) (i : Nat) : Arb :=
  let cred := upto 20 (fun k => if k = i then nth a.cred k - 1 else nth a.cred k)
  if a.wcount = 255 then { a with wcount := 0, cred := upto 20 c.weight } else { a with wcount := a.wcount + 1, cred := cred }

/-- Every counter at its weight, and the window at its start (R192). -/
def Arb.reload (a : Arb) (c : Cfg) : Arb := { a with wcount := 0, cred := upto 20 c.weight }

/-- The handover of pair `i`: its head ticket is ISSUED and its credit debited (R192). -/
def W.handover (w : W) (i : Nat) : W × Option Nat :=
  match w.dev.pairQueue i with
  | [] =>
    ((w.modArb (fun a => { a with dead := satAdd 16 a.dead 1, sel := none })).logK 0x01 [(6, 5, i), (23, 1, 1)], none)
  | n :: rest =>
    let w := w.modTen (i / 4) (fun t => { t with queues := t.queues.set (i % 4) rest })
    let w := w.modPool (fun p => p.setTkt n { p.tkt n with st := .issued })
    let w := w.modArb (fun a => { a.debit w.cfg i with sel := none })
    (w.logK 0x01 [(6, 5, i), (11, 10, n), (21, 2, (w.dev.pool.tkt n).icount)], some n)

/-! ## The barrier arbiter -/

def Arb.fifo (a : Arb) (t : Nat) : List Pkt := a.fifos.getD t []

/-- Urgent cap of a tenant. -/
def Cfg.q0cap (c : Cfg) (t : Nat) : Nat := nth c.arb.cap t

/-- The owner of slot-table entry `e`, 7 for FREE. -/
def Cfg.slotOwner (c : Cfg) (e : Nat) : Nat := c.arb.slot.getD e 7

/-- The tenant may make another urgent grant in this table cycle. -/
def Arb.capLeft (a : Arb) (c : Cfg) (t : Nat) : Bool := decide (nth a.q0used t < c.q0cap t)

/-- The packet may start: no OP packet from a board reset request until the tables are accepted (Table 5.5 step 1), and
during a hot weave's gap none whose operation has not sent its header (R395). -/
def Dev.maySend (d : Dev) (p : Pkt) : Bool :=
  match p.body with
  | .op _ => !d.rst.boardBusy && (d.img.phase != 2 || (d.pool.tkt p.tkt).crossed)
  | _ => true

/-- Tenant `t`'s FIFO holds a packet that may start. -/
def Dev.waiting (d : Dev) (t : Nat) : Bool :=
  match d.arb.fifo t with
  | [] => false
  | p :: _ => d.maySend p

/-- The tenants in 0–4 satisfying `p`, the one with the largest `f` and then the lowest index. -/
def bestTen (p : Nat → Bool) (f : Nat → Nat) : Option Nat :=
  (List.range 5).foldl (fun best t =>
    if p t then
      match best with
      | none => some t
      | some b => if f b < f t then some t else some b
    else best) none

/-- The first urgent packet whose tenant has cap left and that may start. -/
def Dev.urgentHead (d : Dev) : Option Nat := d.arb.urgent.findIdx? (fun p => d.arb.capLeft d.img.cfg p.ten && d.maySend p)

/-- The choice for the next forward slot (R198–R200, R205, R217): the class, and the index in the urgent FIFO
or the tenant. A bulk choice that is pending under EMERGENCY_ONLY stands (R202). -/
def Dev.bxaPick (d : Dev) : Option (BxaClass × Nat) :=
  let a := d.arb
  let e := d.img.cfg.slotOwner a.pos
  if a.lamp.isSome then some (.lamp, 0)
  else if !a.ctl.isEmpty then some (.control, 0)
  else if a.dbg.isSome then some (.debug, 0)
  else if !a.resend.isEmpty then some (.resend, 0)
  else
    match a.pend.filter (fun p => d.waiting p.2) with
    | some p => some p
    | none =>
      match d.urgentHead with
      | some i => some (.urgent, i)
      | none =>
        if e < 5 && d.waiting e then some (.owner, e)
        else
          match bestTen (fun t => d.waiting t && decide (0 < nth a.makeup t)) (nth a.makeup) with
          | some t => some (.makeup, t)
          | none => (bestTen d.waiting (nth a.bgcred)).map (fun t => (.background, t))

/-- A bulk class, that an urgent packet may preempt. -/
def BxaClass.bulk : BxaClass → Bool
  | .owner => true
  | .makeup => true
  | .background => true
  | _ => false

/-- The code of BXA log entries. -/
def BxaClass.code : BxaClass → Nat
  | .lamp => 0
  | .debug => 1
  | .urgent => 2
  | .owner => 3
  | .makeup => 4
  | .background => 5
  | .control => 6
  | .resend => 6

/-- Record a decision of the BXA. -/
def W.logBxa (w : W) (cls : BxaClass) (tkt : Nat) (remade abort : Bool) : W :=
  w.logK 0x02 [(6, 3, cls.code), (9, 10, tkt), (19, 6, w.dev.arb.pos), (25, 1, b2n remade), (26, 1, b2n abort)]

/-- One more make-up for a tenant, at most 63. -/
def Arb.owe (a : Arb) (t : Nat) : Arb := { a with makeup := upto 5 (fun k => if k = t then min 63 (nth a.makeup k + 1) else nth a.makeup k) }

/-- The table advances past entry `e`; at entry 0 urgent use and background credits restart (R198). -/
def W.advance (w : W) : W :=
  let p := (w.dev.arb.pos + 1) % 64
  if p = 0 then
    let w := w.modArb (fun a => { a with pos := 0, q0used := [], bgcred := upto 5 (fun t => nth w.cfg.arb.bgw t) })
    (List.range 5).foldl (fun w t => w.modTen t (fun x => { x with capSpent := false })) w
  else w.modArb (fun a => { a with pos := p })

/-- A packet takes the next slot. -/
def W.fly (w : W) (p : Pkt) (cls : BxaClass) : W :=
  let w := w.logBxa cls p.tkt false false
  w.modArb (fun a => { a with flight := some { pkt := p, cls := cls, pmode := a.pmode }, pend := none })

/-- Start the slot of a choice, and charge it (R198–R200, R202). -/
def W.startSlot (w : W) (cls : BxaClass) (i : Nat) : W :=
  let a := w.dev.arb
  match cls with
  | .lamp => (match a.lamp with
    | some p => (w.modArb (fun a => { a with lamp := none, emLamp := satAdd 16 a.emLamp 1 })).fly p .lamp
    | none => w)
  | .control => (match a.ctl with
    | p :: r => (w.modArb (fun a => { a with ctl := r, emLamp := satAdd 16 a.emLamp 1 })).fly p .control
    | [] => w)
  | .debug => (match a.dbg with
    | some p => (w.modArb (fun a => { a with dbg := none, emDbg := satAdd 16 a.emDbg 1 })).fly p .debug
    | none => w)
  | .resend => (match a.resend with
    | p :: r => w.modArb (fun a => { a with resend := r, flight := some { pkt := p, cls := .resend, pmode := a.pmode } })
    | [] => w)
  | .urgent => (match a.urgent[i]? with
    | some p =>
      let e := w.cfg.slotOwner a.pos
      let w := w.fly p .urgent
      let w := w.modArb (fun a => { a with urgent := a.urgent.eraseIdx i,
                                           q0used := upto 5 (fun t => if t = p.ten then nth a.q0used t + 1 else nth a.q0used t) })
      (if e < 5 && e != p.ten && w.dev.waiting e then w.modArb (fun a => a.owe e) else w).advance
    | none => w)
  | c => (match a.fifo i with
    | p :: r =>
      let w := (w.fly p c).modArb (fun a => { a with fifos := a.fifos.set i r })
      let w := match c with
        | .makeup => w.modArb (fun a => { a with makeup := upto 5 (fun t => if t = i then nth a.makeup t - 1 else nth a.makeup t) })
        | .background => w.modArb (fun a => { a with bgcred := upto 5 (fun t => if t = i then nth a.bgcred t - 1 else nth a.bgcred t) })
        | _ => w
      w.advance
    | [] => w)

/-- A Q0 packet finds its tenant's cap spent: raised once a table cycle (R209). -/
def W.capSpent (w : W) (t : Nat) : W :=
  if (w.dev.ten t).capSpent then w
  else (w.modTen t (fun x => { x with capSpent := true })).raise 0x31 t { ten := t, acc := 7 }

/-- `p` at the head of a FIFO, after the Q0 packets already put there (R199). -/
def putQ0 (p : Pkt) (l : List Pkt) : List Pkt := l.takeWhile (fun x => x.queue == 0) ++ p :: l.dropWhile (fun x => x.queue == 0)

/-- Abort the packet in flight for an urgent packet of tenant `by'` (R203, R204): it returns to the head of its
tenant's FIFO. -/
def W.abortFlight (w : W) (f : Flight) (by' : Nat) : W :=
  let p := { f.pkt with aborts := f.pkt.aborts + 1 }
  let w := w.modArb (fun a => { a with flight := some { f with aborted := true }, aborts := satAdd 16 a.aborts 1,
                                       fifos := lmod a.fifos p.ten (fun l => p :: l) })
  let w := if by' = p.ten then w else w.modArb (fun a => a.owe p.ten)
  let w := w.logBxa f.cls p.tkt false true
  if p.aborts = 4 then
    (w.modArb (fun a => { a with limit := satAdd 16 a.limit 1 })).raise 0x30 p.ten { ten := p.ten, acc := 7 }
  else w

/-- An urgent packet of tenant `t` becomes ready (R202, R203, R216): it may abort a bulk packet in flight unless
the first check bit has left, which is an open bit (log entry 20), or in REPLAY as logged. -/
def W.preemptFor (w : W) (t : Nat) : W :=
  match w.dev.arb.flight with
  | none => w
  | some f =>
    if f.pmode = 0 ∧ f.cls.bulk ∧ !f.aborted ∧ f.pkt.aborts < 4 then
      if w.dev.log.lstate = 4 then
        let x := w.rplExpect
        if x.2.any (fun e => fld (nth e 0) 0 6 == 2 && tbit (nth e 0) 26) then x.1.abortFlight f t else x.1
      else
        let d := w.draw
        if d.1.getLsbD 0 then d.2 else d.2.abortFlight f t
    else w

/-- The preemption mode in force: that of the slot in progress (R211). -/
def Arb.mode (a : Arb) : Nat :=
  match a.flight with
  | some f => f.pmode
  | none => a.pmode

/-- The bulk choice already made for the next slot, while one is in flight. -/
def W.pendingBulk (w : W) : Option (BxaClass × Nat) :=
  if w.dev.arb.flight.isSome then w.dev.bxaPick.filter (fun p => p.1.bulk) else none

/-- A board-bound packet enters the BXA at its TQA grant (R199). -/
def W.enqueue (w : W) (p : Pkt) : W :=
  if p.queue = 0 then
    if w.dev.arb.capLeft w.cfg p.ten then
      let before := w.pendingBulk
      let w := w.modArb (fun a => { a with urgent := a.urgent ++ [p] })
      let w := match before with
        | none => w
        | some b => if w.dev.arb.mode = 0 then w.logBxa .urgent p.tkt true false else w.modArb (fun a => { a with pend := some b })
      w.preemptFor p.ten
    else (w.modArb (fun a => { a with fifos := lmod a.fifos p.ten (putQ0 p) })).capSpent p.ten
  else w.modArb (fun a => { a with fifos := lmod a.fifos p.ten (fun l => l ++ [p]) })

/-! ## Packets of operations -/

/-- The engine an operation addresses: an engine opcode, or a write of ENG_TXW or ENG_OCW. -/
def Op.engine (o : Op) : Option Nat :=
  let a := o.addr.toNat
  if 0x60000 ≤ a ∧ a ≤ 0x61FFF then
    match o.kind with
    | .etx => some ((a - 0x60000) / 0x400)
    | .erx => some ((a - 0x60000) / 0x400)
    | .wr => if a % 0x400 = 0x18 ∨ a % 0x400 = 0x20 then some ((a - 0x60000) / 0x400) else none
    | _ => none
  else none

/-- Operations of an engine that are issued and have been handed to the BXA (R262). -/
def Dev.engIssued (d : Dev) (e : Nat) : Nat :=
  (d.pool.tkts.filter (fun k => decide (k.2.st = .issued) && k.2.board && !d.arb.heldE.contains k.1 &&
    (match k.2.op with
      | some o => o.engine == some e
      | none => false))).length

/-- The packet of operation `o` of ticket `n`. -/
def Dev.opPkt (d : Dev) (n : Nat) (b : Payload) : Pkt :=
  let k := d.pool.tkt n
  { body := b, tkt := n, ic := k.icount, ten := k.ten, queue := k.queue }

/-- The word of a block operation that goes next (one OP packet a word, log entry 22). -/
def W.blockWord (w : W) (k : Ticket) (o : Op) : Op :=
  let a := o.addr + BitVec.ofNat 32 (4 * k.sent)
  match o.kind with
  | .rdblk => { o with kind := .rd, addr := a, dlen := 0 }
  | .wrblk => { o with kind := .wr, addr := a, dlen := 0, value := BitVec.ofNat 32 (at' (w.readBufs k.pins o.dlen) (4 * k.sent) 4) }
  | _ => o

/-- Hand the next packet of an issued operation to the BXA. An operation of an engine that holds 16 waits
ahead of it (R262). -/
def W.sendOp (w : W) (n : Nat) : W :=
  let k := w.dev.pool.tkt n
  match k.op with
  | none => w
  | some o =>
    match o.engine with
    | some e =>
      if 16 < w.dev.engIssued e then w.modArb (fun a => { a with heldE := a.heldE ++ [n] })
      else w.enqueue (w.dev.opPkt n (.op o))
    | none => w.enqueue (w.dev.opPkt n (.op (w.blockWord k o)))

/-- Operations held ahead of the BXA go on as their engine has room again (R262). -/
def W.unhold (w : W) : W :=
  match w.dev.arb.heldE.find? (fun n => match (w.dev.pool.tkt n).op with
      | some o => (match o.engine with
        | some e => decide (w.dev.engIssued e < 16)
        | none => true)
      | none => true) with
  | some n => (w.modArb (fun a => { a with heldE := a.heldE.erase n })).sendOp n
  | none => w

/-- CB, the check bytes of a unit on the line. -/
def CkCfg.cb (c : CkCfg) : Nat := (c.width + 7) / 8

/-- The bits of a unit's alive counter: none, 4, 8 or 16. -/
def CkCfg.alwBits (c : CkCfg) : Nat := if c.alw = 0 then 0 else 2 ^ (c.alw + 1)

/-- The bytes that hold a unit's alive counter. -/
def CkCfg.alwBytes (c : CkCfg) : Nat := (c.alwBits + 7) / 8

/-- The check bytes of a value, in ORDER (Append and strip on engine data). -/
def CkCfg.lineCheck (c : CkCfg) (v : Nat) : List Byte := if c.order then (le c.cb v).reverse else le c.cb v

/-- Data with the alive counter `x` written at AOFF. -/
def CkCfg.putAlive (c : CkCfg) (x : Nat) (bs : List Byte) : List Byte :=
  if c.alwBits = 0 ∨ bs.length < c.aoff + c.alwBytes then bs
  else
    let old := (bs.getD c.aoff 0).toNat
    let new := if c.alw = 1 then [BitVec.ofNat 8 (old / 16 * 16 + x % 16)] else le c.alwBytes x
    bs.take c.aoff ++ new ++ bs.drop (c.aoff + c.alwBytes)

/-- The next line bytes of an ETX, at most `m`, with the data bytes among them: bound to an append unit, the alive counter
stands in the data and the check bytes follow them (R283). -/
def W.txBytes (w : W) (k : Ticket) (o : Op) (m : Nat) : List Byte × List Byte :=
  match k.bind with
  | none => ((((w.readBufs k.pins o.dlen).drop k.sent).take m), [])
  | some (_, c, x) =>
    let n := o.dlen - c.cb
    let data := ((c.putAlive x (w.readBufs k.pins n)).drop k.sent).take m
    let check := c.lineCheck (c.seeded c.init.toNat (k.rx ++ data))
    (data ++ ((check.drop (k.sent - n)).take (if k.rx.length + data.length < n then 0 else m - data.length)), data)

/-- The data bytes of an ETX that the board die's transmit FIFO has no place for yet stay on the rack die: the
next data packet goes when 12 bytes fit (Table 13.2). -/
def W.feedTx (w : W) (n : Nat) : W :=
  let k := w.dev.pool.tkt n
  match k.op with
  | some o =>
    match o.engine with
    | some e =>
      let level := ((w.dev.bd.eng e).ops.map (fun x => x.data.length)).sum
      let queued := (w.dev.arb.urgent ++ w.dev.arb.fifo k.ten ++ w.dev.bd.inbox).any (fun p => match p.body with
        | .data _ => p.tkt == n
        | _ => false)
      if o.kind = .etx ∧ k.crossed ∧ k.sent < o.dlen ∧ level + 12 ≤ 64 ∧ !queued then
        let x := w.txBytes k o 12
        let w := match k.bind with
          | some (u, _, _) => w.ckUse u 1 0
          | none => w
        (w.modPool (fun p => p.setTkt n { p.tkt n with sent := k.sent + x.1.length, rx := k.rx ++ x.2 })).enqueue (w.dev.opPkt n (.data x.1))
      else w
    | none => w
  | none => w

/-- Every operation whose engine has room sends its next data packet. -/
def W.feedAll (w : W) : W :=
  (w.dev.pool.tkts.filter (fun k => decide (k.2.st = .issued) && k.2.crossed)).foldl (fun w k => w.feedTx k.1) w

/-! ## The end of a slot -/

/-- One more slot length, in 1/16 ns (R44). -/
def Monitors.slot (m : Monitors) (ns16 : Nat) : Monitors :=
  { m with slots := (ns16 :: m.slots).take 256, slotPeak := max m.slotPeak (ns16 / 16) }

/-- Abort a board-bound ticket: it completes ABORTED. -/
def W.abortTkt (w : W) (n : Nat) : W := w.complete n stABORTED 0 0

/-- Issued board-bound tickets. -/
def Dev.boardTkts (d : Dev) : List Nat := (d.pool.tkts.filter (fun k => decide (k.2.st = .issued) && k.2.board)).map (·.1)

/-- The gap of a hot weave ends, and the weave reports WOVEN (R395, R396). -/
def Image.gapEnd (i : Image) (mono : Nat) : Image :=
  if i.phase = 2 then
    { i with phase := 0, gapLast := mono - i.gapT0, gapPeak := max i.gapPeak (mono - i.gapT0), code := 0x01, weaves := satAdd 16 i.weaves 1 }
  else i

/-- The gap ends, if one runs. A unit that is not the head then sends its RC_REQUEST. -/
def W.gapEnd (w : W) : W := if w.dev.img.phase = 2 then ((w.modImg (fun i => i.gapEnd w.mono)).ask .ring).ask .finish else w

/-- The board die is taken as not alive (Table 11.11 from step 2, R220): control packets are discarded, and
board-bound tickets complete ABORTED. -/
def W.boardGone (w : W) : W :=
  let w := w.modBar (fun b => { b with bAlive := false, lamp := false })
  let w := w.modArb (fun a => { a with ctl := [], lamp := none, dbg := none, resend := [], silent := none, flight := none,
                                       urgent := [], fifos := [[], [], [], [], []], heldE := [], pend := none })
  let w := if w.dev.tens.any (fun t => t.rst.isSome) then w.ask .finish else w
  w.dev.boardTkts.foldl W.abortTkt w.gapEnd

/-- Eight consecutive REJECTs in one direction (R218). -/
def W.barrierDown (w : W) : W :=
  (w.modBar (fun b => { b with bdown := true, runFwd := 0, runBwd := 0 })).boardGone.raiseU 0x34

/-- A forward REJECT: counted, raised, and the packet resent unless it is a refresh (R215, R217). -/
def W.fwdReject (w : W) (p : Pkt) (again : Bool) : W :=
  let w := (w.modBar (fun b => { b with fwdRej := satAdd 16 b.fwdRej 1, runFwd := b.runFwd + 1 })).raiseU 0x33
  let refresh := match p.body with
    | .refresh _ _ _ _ _ => true
    | _ => false
  let w := if again && !refresh then w.modArb (fun a => { a with resend := a.resend ++ [p] }) else w
  if 8 ≤ w.dev.bar.runFwd then w.barrierDown else w

/-- A backward REJECT: the packet stays at the head of its class. -/
def W.bwdReject (w : W) : W :=
  let w := (w.modBar (fun b => { b with bwdRej := satAdd 16 b.bwdRej 1, runBwd := b.runBwd + 1 })).raiseU 0x33
  if 8 ≤ w.dev.bar.runBwd then w.barrierDown else w

/-- A packet is accepted again while the barrier is down and the board beacon shows ALIVE: a board reset
(R218). -/
def W.acceptedAgain (w : W) : W :=
  if w.dev.bar.bdown && w.dev.bar.beaconIn && !w.dev.rst.boardBusy then (w.modBar (fun b => { b with bAlive := true })).ask .board else w

/-- The board die accepts a packet: it waits in the inbox, and a LANECMD's write completes (R229). -/
def W.deliver (w : W) (p : Pkt) : W :=
  let w := w.modBd (fun b => { b with inbox := b.inbox ++ [p] })
  match p.body with
  | .op _ => (w.modPool (fun q => q.setTkt p.tkt { q.tkt p.tkt with crossed := true })).feedTx p.tkt
  | .table t =>
    if t.shadow then w
    else (w.modBar (fun b => { b with lamp := w.dev.img.woven, bdown := false })).modRst (fun r => { r with boardBusy := false })
  | .lanecmd _ _ _ =>
    if p.ten < 5 ∧ (w.dev.pool.tkt p.tkt).st = .issued ∧ (w.dev.pool.tkt p.tkt).icount = p.ic then w.complete p.tkt stOK 0 0 else w
  | _ => w

/-- The end of a forward slot with a verdict (R215–R218). -/
def W.fwdAck (w : W) (v : Verdict) : W :=
  match w.dev.arb.flight with
  | none => w
  | some f =>
    let w := w.modArb (fun a => { a with flight := none })
    if f.aborted then
      (if v = .discard then w.modBar (fun b => { b with runFwd := 0 }) else w.fwdReject f.pkt false)
    else if v = .accept then (w.modBar (fun b => { b with runFwd := 0 })).acceptedAgain.deliver f.pkt
    else w.fwdReject f.pkt true

/-- The end of a backward slot with a verdict. -/
def W.bwdAck (w : W) (v : Verdict) : W :=
  if v = .accept then (w.modBar (fun b => { b with runBwd := 0 })).acceptedAgain else w.bwdReject

end Sys2Proof.Machine
end

