-- ==== Sys2Proof/Machine/BoardDie.lean ====
section
/-! DEFINITION. The board die (chapters 11–13): register accesses, packets received, tables, resets, refreshes and
misses, bank events and presence. -/

namespace Sys2Proof.Machine

/-- A decision of the board die (R234): kind, ticket, lane or bank, and detail. -/
def W.bDecide (w : W) (kind index : Nat) (detail : Nat := 0) : W := w.bLogK 0x08 [(6, 4, kind), (10, 10, index), (20, 6, detail)]

/-- A timed behaviour falls due on the board die. -/
def W.bTimer (w : W) (kind index : Nat) : W := w.bLogK 0x07 [(6, 4, kind), (10, 16, index)]

/-! ## Register accesses (Table 1.5, R251, R257, R260, R261, R341) -/

/-- IDN_PCFG. -/
def IdCfg.pcfg (c : IdCfg) : Nat :=
  packN [(0, 2, c.rate), (2, 7, c.devaddr), (9, 1, b2n c.addrw), (10, 2, c.page), (12, 1, b2n c.eeEn), (13, 1, b2n c.idsEn),
         (14, 1, b2n c.strapEn), (15, 1, b2n c.autowb), (16, 8, c.strapMask.toNat)]

/-- A read of the board part of IDN. -/
def W.probeRead (w : W) (a : Nat) : W × Nat :=
  if a = 0xA8000 then (w, w.bcfg.id.pcfg)
  else if a = 0xA8004 then
    (w.modBd (fun b => { b with probe := { b.probe with nacks := 0 } }),
     packN [(0, 3, w.dev.bd.probe.phase), (8, 8, w.dev.bd.probe.nacks)])
  else (w, 0)

/-- A tenant that is not the engine's owner: DENIED and ENG_OWNER in its domain (R260). -/
def W.engDenied (w : W) (t e : Nat) : W := w.bRaise 0x48 t e

/-- A read on the board die: the status and value. -/
def W.boardRead (w : W) (t a : Nat) : W × Nat × Nat :=
  if a < 0x60000 then
    let r := w.lanRead ((a - 0x50000) / 0x40) (a % 0x40)
    (r.1, stOK, r.2)
  else if a < 0xA8000 then
    let x := engAddr a
    if x.2 = 0x1C then
      if (w.ecfg x.1).owner ≠ t then (w.engDenied t x.1, stDENIED, 0)
      else if (w.ecfg x.1).acceptsRxw then (let r := w.rxWord x.1; (r.1, stOK, r.2))
      else (w, stDENIED, 0)
    else let r := w.engRead x.1 x.2; (r.1, stOK, r.2)
  else let r := w.probeRead a; (r.1, stOK, r.2)

/-- ENG_CTRL: FLUSH_RX empties the receive FIFO (R263). -/
def W.flushRx (w : W) (t e v : Nat) : W × Nat :=
  if (w.ecfg e).owner ≠ t then (w.engDenied t e, stDENIED)
  else if tbit v 0 then (w.modEng e (fun g => { g with rx := [], gap := false }), stOK)
  else (w, stOK)

/-- A write on the board die that is no engine operation: the status. -/
def W.boardWrite (w : W) (t a v : Nat) : W × Nat :=
  if a < 0x60000 then
    if w.dev.bd.parked ∧ a % 0x40 = 0 then (w, stDENIED) else w.lanWrite t ((a - 0x50000) / 0x40) (a % 0x40) v
  else if a < 0xA8000 then
    let x := engAddr a
    if x.2 = 0x24 then w.flushRx t x.1 v else (w, stOK)
  else (w, stDENIED)

/-- The value a write opcode stores over the old one (Table 8.7). -/
def OpKind.newValue (k : OpKind) (old value mask : Nat) : Nat :=
  match k with
  | .rmw => (old &&& (2 ^ 32 - 1 - mask)) ||| (value &&& mask)
  | .set => old ||| value
  | .clr => old &&& (2 ^ 32 - 1 - value)
  | _ => value

/-- What a write opcode reads first. -/
def OpKind.readsOld : OpKind → Bool
  | .rmw => true
  | .set => true
  | .clr => true
  | _ => false

/-- The news that a RESULT carries: the lane's level and WSEQ after a lane write, and the lane's state. -/
def W.laneNews (w : W) (a : Nat) : Option (Nat × Nat × Nat) × Option (Nat × LaneView) :=
  if a < 0x60000 ∧ a % 0x40 = 0 then
    let n := (a - 0x50000) / 0x40
    (some (n, (w.dev.bd.lane n).code, w.dev.bd.wseq), some (n, w.dev.bd.view n))
  else (none, none)

/-- The RESULT of an operation that needs no engine. -/
def W.reply (w : W) (p : Pkt) (status value : Nat) (news : Option (Nat × Nat × Nat)) (view : Option (Nat × LaneView)) : W :=
  let r : Pkt := { body := .result status 0 (BitVec.ofNat 32 value) news view, tkt := p.tkt, ic := p.ic, ten := p.ten, queue := p.queue }
  if p.queue = 0 then w.modBd (fun b => { b with out0 := b.out0 ++ [r] }) else w.modBd (fun b => { b with outR := b.outR ++ [r] })

/-- An engine operation reaches a parked board die: DENIED, raising nothing (R366). -/
def W.engOp (w : W) (p : Pkt) (e dlen : Nat) (data : List Byte) (o : Op) (ok : EngCfg → Bool) : W :=
  if w.dev.bd.parked then w.reply p stDENIED 0 none none else w.engAccept e p.tkt p.ic dlen data o ok

/-- The new value of a register that a write opcode addresses, by its old one. -/
def W.newAt (w : W) (o : Op) : W × Nat :=
  if o.kind.readsOld then
    let r := w.boardRead o.req.ten.val o.addr.toNat
    (r.1, r.2.2)
  else (w, 0)

/-- The board die executes one operation (step 9 of Table 1.3). -/
def W.execOp (w : W) (p : Pkt) (o : Op) : W :=
  let a := o.addr.toNat
  let t := o.req.ten.val
  match o.kind with
  | .rd => let r := w.boardRead t a; r.1.reply p r.2.1 (if r.2.1 = stOK then r.2.2 else 0) none none
  | .etx => w.engOp p (engAddr a).1 o.dlen [] o EngCfg.acceptsEtx
  | .erx => w.engOp p (engAddr a).1 o.dlen [] o EngCfg.acceptsErx
  | k =>
    let old := w.newAt o
    let w := old.1
    let v := k.newValue old.2 o.value.toNat o.mask.toNat
    let x := engAddr a
    if 0x60000 ≤ a ∧ a < 0xA8000 ∧ x.2 = 0x18 then
      let n := fld v 24 2
      w.engOp p x.1 n ((le 3 v).take n) { o with kind := .wr, value := BitVec.ofNat 32 v } (fun c => c.acceptsTxw && n != 0)
    else if 0x60000 ≤ a ∧ a < 0xA8000 ∧ x.2 = 0x20 then
      w.engOp p x.1 0 [] { o with kind := .wr, value := BitVec.ofNat 32 v } EngCfg.acceptsOcw
    else
      let q := w.dev.bd.wseq
      let r := w.boardWrite t a v
      let nv := if r.1.dev.bd.wseq = q then (none, none) else r.1.laneNews a
      r.1.reply p r.2 (if k.readsOld ∧ r.2 ≠ stDENIED then old.2 else 0) nv.1 nv.2

/-- The oldest packet of the inbox. -/
def Board.front (b : Board) : Option Pkt := b.inbox.head?

/-- Take the oldest packet out of the inbox. -/
def W.taken (w : W) : W := w.modBd (fun b => { b with inbox := b.inbox.drop 1 })

/-- The board die receives an OP packet, or a data packet of an operation it holds. -/
def W.opPacket (w : W) : W :=
  match w.dev.bd.front with
  | none => w
  | some p =>
    match p.body with
    | .op o => (w.taken.bDecide 0 p.tkt).execOp p o
    | .data bs => (w.taken.engData p.tkt bs).feedTx p.tkt
    | _ => w

/-! ## Tenant abort (R88) -/

/-- The windows that tenant `t` holds close. -/
def W.closeWindows (w : W) (t : Nat) : W :=
  w.modBd (fun b => { b with lanes := b.lanes.map (fun (e : Nat × Lane) => if e.2.wOpen && e.2.wHolder == t then (e.1, e.2.closeWindow) else e) })

/-- Every result of tenant `t` still queued is removed before the acknowledgement (R90). -/
def Board.dropResults (b : Board) (t : Nat) : Board :=
  { b with out0 := b.out0.filter (fun p => p.ten != t), outR := b.outR.filter (fun p => p.ten != t) }

/-- The board die receives the abort packet of tenant `t`: its operations stop, and every operation of it that the
board die has taken is acknowledged, with those whose results were still queued. -/
def W.tabort (w : W) : W :=
  match w.dev.bd.front with
  | none => w
  | some p =>
    match p.body with
    | .tabort t =>
      let w := w.taken.bDecide 5 t
      let queued := ((w.dev.bd.out0 ++ w.dev.bd.outR).filter (fun q => q.ten == t)).map (fun q => (q.tkt, q.ic))
      let waiting := (w.dev.bd.inbox.filter (fun q => match q.body with
        | .op o => o.req.ten.val == t
        | .data _ => q.ten == t
        | _ => false))
      let w := w.modBd (fun b => { b.dropResults t with inbox := b.inbox.filter (fun q => !waiting.contains q) })
      let r := (List.range 8).foldl (fun (acc : W × List (Nat × Nat)) e => let r := acc.1.engRetire e t; (r.1, acc.2 ++ r.2)) (w, [])
      ((r.1.closeWindows t).abortAcks t ((queued ++ waiting.map (fun q => (q.tkt, q.ic)) ++ r.2).eraseDups))
    | _ => w

/-! ## Tables, restart and reset -/

/-- The lanes that follow the fail-safe states: the output lanes, and A→B direct lanes. -/
def W.safeLanes (w : W) : List Nat := (List.range 32).filter (fun n => w.bcfg.outLane n || w.bcfg.abLane n)

/-- The causes a lane has while the tables are not in force. -/
def Board.resetCause (b : Board) (n : Nat) : BitVec 7 := cRESET ||| if b.bankUp n || !b.cfg.outLane n then 0 else cBANK

/-- The intended state that lane `n` has at the end of a cold weave: its fail-safe value, or for HOLD the level its
bus-keeper holds (R97). -/
def W.coldCode (w : W) (n : Nat) : Nat :=
  let f := w.lfs n
  match f.fsv with
  | 0 => 0
  | 1 => if (w.bcfg.lane n).od then 2 else 1
  | 2 => 2
  | _ => if (w.dev.bd.lane n).code = 2 then 2 else b2n (w.dev.bd.lane n).pin

/-- Give lane `n` its cold-weave state: LIVE or FS1, DARK when its bank is down, STUCK while the stuck hold lasts. A
level that differs from the mirror's counts in WSEQ (log entry 41). -/
def W.coldLane (w : W) (lvl : Tbl Nat) (live : Bool) (n : Nat) : W :=
  let up := w.dev.bd.bankUp n
  let stuck := w.dev.bd.stuck
  let code := if up then w.coldCode n else 2
  let hiz := (w.lfs n).fsv == 2 && !(live && !stuck)
  let w := if code = tget 4 lvl n then w.modLane n (fun l => { l with code := code }) else w.applyCode n code
  w.modLane n (fun l =>
    { l.closeWindow with
      cause := (if stuck then cSTUCK else 0) ||| (if up then 0 else cBANK),
      stage := if !up then 3 else if live && !stuck then 0 else 1,
      armed := !(live && !stuck && up) && (w.lfs n).auto, refr := 0, hiz := hiz && up, mism := false,
      pin := if w.dev.bd.parked || !up || code = 2 then l.pin else code == 1 })

/-- A direct channel's receiver starts in fail-safe (R214). -/
def FsCfg.directLevel (f : FsCfg) (cur : Bool) : Bool := if f.fsv = 0 then false else if f.fsv = 3 then cur else true

/-- The A→B receivers start in fail-safe. -/
def W.startDirectB (w : W) : W :=
  w.forEach (List.range 8) (fun w n =>
    if w.bcfg.abLane n then
      (w.modBd (fun b => { b with direct := tmod {} b.direct n (fun d =>
        { d with fs := true, stage2 := false, valid := 0, level := (w.bcfg.dirFs n).directLevel d.level }) })).modLane n
          (fun l => { l with cause := cDIRECT, stage := 1, hiz := (w.bcfg.dirFs n).fsv == 2,
                             pin := if w.dev.bd.bankUp n && !w.dev.bd.parked && (w.bcfg.dirFs n).fsv != 2
                                    then (w.bcfg.dirFs n).directLevel (tget {} w.dev.bd.direct n : Direct).level else l.pin })
    else w)

/-- The engines of the settings in force, IDLE (Table 13.3); one with a lane of an unpowered bank starts HALTED. -/
def W.startEngines (w : W) : W :=
  (List.range 8).foldl (fun w e =>
    let w := w.modEng e (fun g => { g with st := if (w.ecfg e).mode = 0 then 3 else 0, step := 0, sub := 0, ops := [], opsRx := [] })
    if (w.ecfg e).mode = 0 then w
    else if w.haltBank e then w.modEng e (fun g => { g with st := 2 })
    else w.idleLevels e) w

/-- The board-side tables of a cold weave or of a restarted board die come into force (R220, R97): `live` at step 9 of
a hard reset. -/
def W.loadTables (w : W) (t : Tables) (live : Bool) : W :=
  let w := w.modBd (fun b => { b with cfg := t.cfg, tabs := true, stuck := t.stuck, shadow := none, wseq := t.lseq, miss := 0,
                                      pstate := if b.pstate = 1 then 2 else b.pstate })
  let w := w.modBd (fun b => { b with lanes := b.lanes.map (fun (e : Nat × Lane) =>
    if t.cfg.outLane e.1 then e else (e.1, { e.2.closeWindow with cause := 0, stage := 0, armed := false })) })
  let w := (List.range 32).foldl (fun w n => if t.cfg.outLane n then w.coldLane t.lvl live n else w) w
  let w := (w.startDirectB).startEngines
  ((w.page0).page1).page2

/-- The board die receives a table packet: the shadow tables of a hot weave, or the tables themselves. -/
def W.tablePkt (w : W) : W :=
  match w.dev.bd.front with
  | none => w
  | some p =>
    match p.body with
    | .table t =>
      if t.shadow then w.taken.modBd (fun b => { b with shadow := some t })
      else if w.dev.bd.core then w.taken.loadTables t false
      else w.taken
    | _ => w

/-- A board die that stops: operations end without results, windows close, what waits is lost. -/
def Board.halted (b : Board) : Board :=
  { b with tabs := false, shadow := none, inbox := [], outS := [], outA := [], out0 := [], outR := [], miss := 0,
           engs := b.engs.map (fun (e : Nat × Eng) => (e.1, { e.2 with st := 0, step := 0, sub := 0, ops := [], opsRx := [], rx := [] })),
           lanes := b.lanes.map (fun (e : Nat × Lane) => (e.1, e.2.closeWindow)),
           probe := { b.probe with phase := 0 } }

/-- Drive the fail-safe values of every powered bank (Table 5.5 step 2, Table 4.4 step 3). -/
def W.failSafeAll (w : W) : W :=
  let w := if w.dev.bd.tabs then w.forEach w.safeLanes (fun w n => w.laneCause n cRESET) else w
  w.modBd Board.halted

/-- The board die receives the reset packet: it stops, drives its fail-safe values and drops die-alive (Table 5.5). -/
def W.breset (w : W) : W :=
  match w.dev.bd.front with
  | none => w
  | some p =>
    match p.body with
    | .breset => w.taken.failSafeAll.modBd (fun b => { b with core := false })
    | _ => w

/-- The board die has restarted: bus-keepers hold the levels, every lane counts as in fail-safe, and the presence state
follows PRSn (R256). -/
def W.boardRestart (w : W) : W :=
  let w := w.modBd (fun b => { b.halted with core := true, holdup := false, stuck := false, direct := [], chunkQ := 3, timerQ := 3,
                                             pstate := if b.prsn then 0 else 2, probe := {}, rackAlive := true })
  let w := w.forEach w.safeLanes (fun w n => w.modLane n (fun l =>
    { l with cause := w.dev.bd.resetCause n, stage := if w.dev.bd.bankUp n || !w.bcfg.outLane n then 1 else 3, armed := (w.lfs n).auto, refr := 0 }))
  w.page2

/-! ## Refreshes and misses (R222–R228) -/

/-- A valid refresh whose LSEQ equals WSEQ corrects a LIVE LEVEL_OUT lane (R223). -/
def W.correct (w : W) (lvl : List Nat) (n : Nat) : W :=
  let c := nth lvl n
  let l := w.dev.bd.lane n
  if (w.bcfg.lane n).mode = 2 ∧ l.stage = 0 ∧ c ≠ 3 ∧ c ≠ l.code then
    ((w.applyCode n c).bRaise 0x37 dUnit n).modBd (fun b => { b with corrected := satAdd 16 b.corrected 1 })
  else w

/-- One more valid refresh toward the return of lane `n` (R228): LIVE at the second one after its return was armed
and its last cause ended. -/
def W.towardReturn (w : W) (n : Nat) : W :=
  let l := w.dev.bd.lane n
  if l.stage != 0 && l.armed && l.cause == 0 then
    if 1 ≤ l.refr then w.modLane n Lane.goLive else w.modLane n (fun l => { l with refr := l.refr + 1 })
  else w

/-- The board timer's bits [25:10] take the TB field (R323). -/
def steer (timer tb : Nat) : Nat := (timer / 2 ^ 26) * 2 ^ 26 + (tb % 2 ^ 16) * 2 ^ 10 + timer % 2 ^ 10

/-- The effect of a valid REFRESH or KEEPALIVE: the miss count restarts, the timer is steered, lanes are corrected and
returned, and the cause MISS ends. -/
def W.refreshed (w : W) (keep : Bool) (lvl : List Nat) (lseq tb : Nat) : W :=
  let w := w.modBd (fun b => { b with miss := 0, keepP := keep, timer := steer b.timer tb, timerQ := b.chunkQ })
  let same := decide (lseq = w.dev.bd.wseq)
  let n0 := w.dev.bd.corrected
  let live := (List.range 32).filter (fun n => (w.dev.bd.lane n).stage == 0)
  let w := if same then live.foldl (fun w n => w.correct lvl n) w else w
  let w := if same then w.safeLanes.foldl W.towardReturn w else w
  let w := w.safeLanes.foldl (fun w n => if (w.dev.bd.lane n).cause &&& cMISS != 0 then w.endCause n cMISS else w) w
  let w := if w.dev.bd.corrected = n0 then w else w.page1
  w.page0

/-- The board die takes a REFRESH or KEEPALIVE packet. -/
def W.refreshPkt (w : W) : W :=
  match w.dev.bd.front with
  | none => w
  | some p =>
    match p.body with
    | .refresh keep lvl lseq tb _ =>
      if w.dev.bd.tabs then (w.taken.bDecide 1 0).refreshed keep lvl lseq tb else w.taken
    | _ => w

/-- A miss window passes (R224). -/
def W.missWindow (w : W) : W :=
  if !w.dev.bd.tabs || !w.dev.bd.core || w.dev.bd.pstate == 0 then w
  else
    let w := (w.bTimer 2 0).bDecide 2 0
    let w := w.modBd (fun b => { b with miss := b.miss + 1, missed := satAdd 16 b.missed 1 })
    if w.dev.bd.miss = w.bcfg.nmiss then
      let w := w.allCause cMISS
      let w := (List.range 8).foldl (fun w e => if w.haltMiss e then w.engHalt e stFAILSAFE else w) w
      ((w.bRaise 0x35 dUnit 0).page1).page0
    else w

/-- HOLD_T of lane `n` expires (R225): the second-stage value (R227). -/
def W.holdT (w : W) (n : Nat) : W :=
  let f := w.lfs n
  let l := w.dev.bd.lane n
  if w.bcfg.outLane n ∧ l.stage = 1 ∧ f.fsv = 3 ∧ f.holdT ≠ 0 then
    ((((w.bTimer 7 n).driveSafe n true).modLane n (fun l => { l with stage := 2 })).page1).page0
  else if w.bcfg.abLane n ∧ (tget {} w.dev.bd.direct n).fs ∧ f.fsv = 3 ∧ f.holdT ≠ 0 then
    let lv := ({ f with fsv := f.second } : FsCfg).directLevel (tget {} w.dev.bd.direct n).level
    let up := w.dev.bd.bankUp n
    let w := (w.bTimer 7 n).modBd (fun b => { b with direct := tmod {} b.direct n (fun d => { d with stage2 := true, level := lv }) })
    (w.modLane n (fun l => { l with stage := 2, hiz := f.second == 2,
                                    pin := if up && !w.dev.bd.parked && f.second != 2 then lv else l.pin })).page0
  else w

/-! ## LANECMD packets (R229–R231, R103) -/

/-- A return: each named lane in fail-safe with no cause but FORCE present is armed, and its FORCE ends (log entry 42). -/
def W.cmdReturn (w : W) (mask : BitVec 32) : W :=
  (w.safeLanes.filter (fun n => mask.getLsbD n)).foldl (fun w n =>
    let l := w.dev.bd.lane n
    if l.stage ≠ 0 then
      let w := if l.cause &&& cFORCE != 0 then w.endCause n cFORCE else w
      if (w.dev.bd.lane n).cause = 0 then w.modLane n (fun l => { l with armed := true, refr := 0 }) else w
    else w) w

/-- A force: each named output lane takes the cause FORCE. -/
def W.cmdForce (w : W) (mask : BitVec 32) : W :=
  (w.outLanes.filter (fun n => mask.getLsbD n)).foldl (fun w n => w.laneCause n cFORCE) w

/-- The engines that a cause on their output lanes halts (Table 13.4). -/
def W.haltEngines (w : W) : W :=
  (List.range 8).foldl (fun w e => if w.haltCause e then w.engHalt e stFAILSAFE else w) w

/-- A reaction change: the cause REACTION is given or removed. -/
def W.cmdReaction (w : W) (mask : BitVec 32) (setR : Bool) : W :=
  (w.outLanes.filter (fun n => mask.getLsbD n)).foldl (fun w n => if setR then w.laneCause n cREACTION else w.endCause n cREACTION) w

/-- A direct channel that has seen two valid pulses during the hold follows its input at once (R214). -/
def W.releaseDirect (w : W) : W :=
  (List.range 8).foldl (fun w n =>
    let d := tget {} w.dev.bd.direct n
    if w.bcfg.abLane n ∧ d.fs ∧ 2 ≤ d.valid then
      (w.modBd (fun b => { b with direct := tmod {} b.direct n (fun d => { d with fs := false, stage2 := false, level := d.inLevel }) })).modLane n
        (fun l => { l with cause := l.cause &&& ~~~cDIRECT, stage := 0, hiz := false, kept := none,
                           pin := if w.dev.bd.bankUp n && !w.dev.bd.parked then d.inLevel else l.pin })
    else w) w

/-- The stuck hold ends: each lane without another cause is LIVE at once, with no edge (R103). -/
def W.cmdRelease (w : W) : W :=
  let w := w.modBd (fun b => { b with stuck := false })
  let w := w.outLanes.foldl (fun w n =>
    let held := (w.dev.bd.lane n).cause &&& cSTUCK != 0
    let w := w.endCause n cSTUCK
    if held && (w.dev.bd.lane n).cause == 0 && (w.dev.bd.lane n).stage != 3 then w.modLane n Lane.goLive else w) w
  w.releaseDirect

/-- The board die takes a LANECMD packet of the given ACT. -/
def W.lanecmd (w : W) (want : Nat) : W :=
  match w.dev.bd.front with
  | none => w
  | some p =>
    match p.body with
    | .lanecmd mask act setR =>
      if act ≠ want then w
      else if !w.dev.bd.tabs then w.taken
      else
        let w := w.taken.bDecide 4 0 act
        let w := match act with
          | 0 => w.cmdReturn mask
          | 1 => (w.cmdForce mask).haltEngines
          | 2 => w.cmdRelease
          | _ => (w.cmdReaction mask setR).haltEngines
        w.page1.page0
    | _ => w

/-! ## Time and pair chunks, the swap -/

/-- The board die applies a time chunk (R323). -/
def W.timeChunkPkt (w : W) : W :=
  match w.dev.bd.front with
  | none => w
  | some p =>
    match p.body with
    | .timeChunk now => w.taken.modBd (fun b => { b with timer := fld now 0 56, chunkQ := fld now 56 2, stepno := fld now 58 6 })
    | _ => w

/-- Drive lane `n` at an epoch or tracked level after unparking: FS1 with its STUCK or FORCE cause, or LIVE (R372). -/
def W.unparkLane (w : W) (lvl : Tbl Nat) (n : Nat) : W :=
  let e := tget 4 lvl n
  if e = 4 then
    let l := w.dev.bd.lane n
    w.modLane n (fun l' => { l' with pin := if !w.dev.bd.bankUp n || l.code = 2 then l'.pin else l.code == 1 })
  else
    let code := e % 4
    w.applyCode n code

/-- The causes that a takeover gives a lane: bits 8 and up of its pair-chunk entry. -/
def W.takeLane (w : W) (lvl : Tbl Nat) (n : Nat) : W :=
  let e := tget 4 lvl n
  let cause : BitVec 7 := BitVec.ofNat 7 (e / 256)
  let up := w.dev.bd.bankUp n
  (w.unparkLane lvl n).modLane n (fun l =>
    if e = 4 then l
    else { l with cause := cause ||| (if up then 0 else cBANK), stage := if !up then 3 else if cause = 0 then 0 else 1, armed := cause != 0 && (w.lfs n).auto,
                  refr := 0 })

/-- The pair chunk parks the output lanes, or unparks them at their epoch states (R366, R372); FORCEALL puts every
output lane in fail-safe with the cause FORCE (R374). A list entry of lane `n` holds its code and, in bits 8 and up, the
cause it keeps; entry 32 says FORCEALL. -/
def W.pairChunkPkt (w : W) : W :=
  match w.dev.bd.front with
  | none => w
  | some p =>
    match p.body with
    | .pairChunk park lvl =>
      let w := w.taken
      if park then w.modBd (fun b => { b with parked := true })
      else
        let w := w.modBd (fun b => { b with parked := false })
        let w := w.modBd (fun b => { b with lanes := b.lanes.map (fun (e : Nat × Lane) => (e.1, e.2.closeWindow)) })
        let w := w.outLanes.foldl (fun w n => w.takeLane lvl n) w
        let w := if tget 0 lvl 32 = 1 then w.outLanes.foldl (fun w n => w.laneCause n cFORCE) w else w
        let w := (List.range 8).foldl (fun w e => if (w.ecfg e).mode = 0 ∨ w.haltCause e then w else w.idleLevels e) w
        w.page1.page0
    | _ => w

/-- The board die applies the shadow tables (R393–R395, R235): the miss count restarts and every window closes. A lane in
fail-safe keeps its old fail-safe settings until its next entry, and an operation in progress its engine's old timing
(Table 20.5). The swap report is sent. -/
def W.swapPkt (w : W) : W :=
  match w.dev.bd.front with
  | none => w
  | some p =>
    match p.body with
    | .swap crc =>
      let w := w.taken
      match w.dev.bd.shadow with
      | none => w
      | some t =>
        let old := w.bcfg
        let w := w.modBd (fun b => { b with
          cfg := t.cfg, shadow := none, miss := 0,
          lanes := b.lanes.map (fun (e : Nat × Lane) =>
            (e.1, { e.2.closeWindow with kept := if e.2.stage = 0 then none else some (e.2.kept.getD (old.fsOf e.1)) })),
          engs := b.engs.map (fun (e : Nat × Eng) => if e.2.st = 1 then (e.1, { e.2 with kept := some (e.2.kept.getD (old.eng e.1)) }) else e) })
        ((w.status (.page6 crc)).page0).page1
    | _ => w

/-! ## Banks and holdup (R76–R79) -/

/-- VBn falls below 1.45 V (R78): its lanes go DARK, its engines stop, BANKn_DOWN is raised. -/
def W.bankDown (w : W) (k : Nat) : W :=
  if !w.dev.bd.vddb || !w.dev.bd.up.getLsbD k then w
  else
    let w := w.modBd (fun b => { b with up := b.up &&& ~~~(BitVec.ofNat 4 (2 ^ k)), downs := lmod b.downs k (fun x => satAdd 8 x 1) })
    if !w.dev.bd.core then w
    else
      let w := w.bDecide 3 k
      let mine := w.outLanes.filter (fun n => bankOf n == k)
      let w := mine.foldl (fun w n =>
        let was := (w.dev.bd.lane n).stage
        let w := w.laneCause n cBANK
        if was = 1 ∨ was = 2 then (w.applyCode n 2).modLane n (fun l => { l with stage := 3 }) else w) w
      let w := (List.range 8).foldl (fun w e =>
        if (w.ecfg e).lanes.any (fun n => bankOf n == k) then
          let n := ((w.dev.bd.eng e).ops ++ (w.dev.bd.eng e).opsRx).length
          (w.engHalt e stFAILSAFE).modBd (fun b => { b with fails := lmod b.fails k (fun x => satAdd 8 x n) })
        else w) w
      let w := w.bRaise (4 + k) dUnit k
      w.page1.page0

/-- A lane that drives level `lv`, unless it is parked or at high impedance. -/
def Lane.relit (l : Lane) (parked lv : Bool) : Lane := { l with pin := if l.hiz || parked then l.pin else lv }

/-- The board end of an A→B channel drives its level again when its bank rises: it follows its own channel alone ("The
lamplighter and missed refreshes"). -/
def W.relight (w : W) (n : Nat) : W := w.modLane n (fun l => l.relit w.dev.bd.parked (tget {} w.dev.bd.direct n : Direct).level)

/-- VBn rises above 1.55 V: DARK lanes enter FS1, a HOLD lane at its second stage (Table 11.9). -/
def W.bankUpEv (w : W) (k : Nat) : W :=
  if w.dev.bd.up.getLsbD k then w
  else
    let w := w.modBd (fun b => { b with up := b.up ||| BitVec.ofNat 4 (2 ^ k), low := b.low &&& ~~~(BitVec.ofNat 4 (2 ^ k)) })
    if !w.dev.bd.core then w
    else
      let w := w.bDecide 3 k 1
      let w := (w.outLanes.filter (fun n => bankOf n == k && (w.dev.bd.lane n).stage == 3)).foldl (fun w n =>
        let w := w.endCause n cBANK
        (w.driveSafe n true).modLane n (fun l => { l with stage := 1 })) w
      let w := ((List.range 8).filter (fun n => w.bcfg.abLane n && bankOf n == k)).foldl W.relight w
      w.page1.page0

/-- VBn falls below its bank-low level, with a nominal code set (R79). -/
def W.bankLowEv (w : W) (k : Nat) : W :=
  let nom := fld w.dev.sup.banknom.toNat (4 * k) 4
  if nom = 0 || w.dev.bd.low.getLsbD k || !w.dev.bd.vddb then w
  else
    let w := w.modBd (fun b => { b with low := b.low ||| BitVec.ofNat 4 (2 ^ k) })
    if w.dev.bd.core then (w.bRaise 0x08 dUnit k).page0 else w

/-- The operations executing and the banks down, for the holdup report (R76). -/
def Board.report (b : Board) : HoldRep where
  ops := b.engs.flatMap (fun (e : Nat × Eng) => ((e.2.ops ++ e.2.opsRx).filter (fun o => o.step != 0)).map (fun o => (o.tkt + 1024 * o.ic, o.step)))
  banks := ~~~b.up

/-- VDDB falls to 1.50 V (Table 4.4): operations stop, fail-safe values are driven from HOLDB, the report leaves ahead
of every other packet, and die-alive drops. -/
def W.vddbFall (w : W) : W :=
  let rep := w.dev.bd.report
  let was := w.dev.bd.core
  let w := w.modBd (fun b => { b with vddb := false })
  if !was then w
  else
    let w := w.failSafeAll.modBd (fun b => { b with holdup := true })
    w.modBd (fun b => { b with outS := [{ body := .holdup rep }] })

/-! ## Presence (Table 12.7) -/

/-- A change of the presence state is reported at once. -/
def W.present (w : W) (st : Nat) (prsn : Bool) : W := (w.modBd (fun b => { b with pstate := st, prsn := prsn })).page2

/-- PRSn low for TSETTLE: ABSENT to ATTACHING (R255). -/
def W.attach (w : W) : W :=
  if w.dev.bd.core ∧ w.dev.bd.pstate = 0 then
    ((((w.modBd (fun b => { b with attaches := satAdd 8 b.attaches 1 })).bDecide 6 0 1).bRaise 0x43 dUnit 0).present 1 false)
  else w.modBd (fun b => { b with prsn := false })

/-- PRSn high for 1 ms: a detach (R254). The board reset that follows leads to ABSENT. -/
def W.detach (w : W) : W :=
  if w.dev.bd.core ∧ w.dev.bd.pstate ≠ 0 then
    let w := ((w.modBd (fun b => { b with detaches := satAdd 8 b.detaches 1, prsn := true })).bDecide 6 0 0).bRaise 0x44 dUnit 0
    w.page2
  else w.modBd (fun b => { b with prsn := true })

end Sys2Proof.Machine
end

