-- ==== Sys2Proof/Machine/Time.lean ====
section
/-! DEFINITION. The time base (chapter 16): ticks, references, servo, step, TPO and the TIM registers. -/

namespace Sys2Proof.Machine

/-! ## Counting (R309) -/

/-- One nanosecond in the counters' fraction unit. -/
abbrev nsUnit : Nat := 2 ^ 32

/-- The rate of one tick: 5 ns scaled by FCORR (ppb), in 2^-32 ns. -/
def TimeSt.rate (t : TimeSt) : Nat := ((5 * nsUnit : Nat) * (1000000000 + t.fcorr) / 1000000000).toNat

/-- The slew of one tick: up to SLEWMAX, of the sign of what is left (R318). -/
def TimeSt.slewOf (t : TimeSt) (slewmax : Nat) : Int :=
  let m : Int := (5 * nsUnit * slewmax / 1000000 : Nat)
  if t.slewLeft < 0 then max t.slewLeft (-m) else min t.slewLeft m

/-- One tick of the lantern oscillator. -/
def TimeSt.tick (t : TimeSt) (slewmax : Nat) : TimeSt :=
  let s := t.slewOf slewmax
  let m := t.monoFrac + t.rate
  let n := ((t.nowFrac + t.rate : Nat) + s).toNat
  { t with mono := (t.mono + m / nsUnit) % 2 ^ 64, monoFrac := m % nsUnit,
           now := (t.now + n / nsUnit) % 2 ^ 64, nowFrac := n % nsUnit, slewLeft := t.slewLeft - s }

/-- The time of an idle step: both counters and the board timer advance by one tick, unless the rack die is in hard
reset (log entry 1). -/
def W.tick (w : W) : W :=
  let w := if w.dev.rst.held || !w.dev.rst.vdda then w else w.modTim (fun t => t.tick w.cfg.time.slewmax)
  w.modBd (fun b => if b.core then { b with timer := (b.timer + 5) % 2 ^ 56 } else b)

/-! ## Chunks, records and states -/

/-- The time chunk: NOW, quality and STEPNO (Board timer). -/
def TimeSt.chunk (t : TimeSt) : Nat := packN [(0, 56, t.now), (56, 2, t.qual), (58, 6, t.stepno)]

/-- Send a time chunk to the board die (R319). -/
def W.sendChunk (w : W) : W := (w.control (.timeChunk w.dev.tim.chunk)).modTim (fun t => { t with chunkQ := t.qual })

/-- A change of quality sends a time chunk. -/
def W.chunkIf (w : W) : W := if w.dev.tim.qual = w.dev.tim.chunkQ then w else w.sendChunk

/-- Record a time event (R324). -/
def W.timeEv (w : W) (kind : Nat) : W := w.logT 0x13 [(6, 4, kind), (10, 8, w.dev.tim.stepno)]

/-- Enter a state of Table 16.2. -/
def W.timeState (w : W) (st : Nat) : W :=
  if w.dev.tim.state = st then w
  else (w.modTim (fun t => { t with state := st })).timeEv 6

/-- TIME_REF with its detail. -/
def W.timeRef (w : W) (detail : Nat) : W := w.raiseU 0x58 detail

/-! ## Steps (R319, R321) -/

/-- The first instant at or after `n` that is a multiple of `p` plus `o`. -/
def nextInstant (n p : Nat) (o : Int) : Int :=
  let p' : Int := (p : Nat)
  let d := ((n : Int) - o) % p'
  if d = 0 then (n : Int) else (n : Int) + (p' - d)

/-- TPOPER in ns. -/
def TimeCfg.tpoNs (c : TimeCfg) : Nat := c.tpoper * 1000000

/-- The pulse after a step to `n`: omitted when it would follow the last one by less than TPOPER (TPO). -/
def W.tpoAround (w : W) (n : Nat) : Bool :=
  match w.dev.tim.tpoRise with
  | none => false
  | some r =>
    let d := nextInstant n w.cfg.time.tpoNs w.cfg.time.tpooff - (n : Int) + ((w.mono : Int) - (r : Int))
    decide (d < (w.cfg.time.tpoNs : Int))

/-- Set NOW at a discontinuity: `fault` for a step, not for the first set (R319, R320). -/
def W.setNow (w : W) (n : Nat) (fault : Bool) : W :=
  let omitted := fault && w.tpoAround n
  let w := w.modTim (fun t => { t with
    now := n % 2 ^ 64, nowFrac := 0, slewLeft := 0, stepPend := false, tset := true, stepno := (t.stepno + 1) % 256,
    disc := n % 2 ^ 64, discFlag := true, steps := if fault then satAdd 8 t.steps 1 else t.steps,
    tpoSkip := omitted, tpoOmit := t.tpoOmit || omitted, omits := if omitted then satAdd 8 t.omits 1 else t.omits })
  let w := if omitted then w.timeEv 5 else w
  let w := if fault then w.raiseU 0x59 (packN [(0, 8, w.dev.tim.stepno), (8, 1, b2n omitted)]) else w
  w.sendChunk

/-! ## Accepted references -/

/-- FCORR held to its 20-bit register. -/
def clampF (x : Int) : Int := max (-524288) (min 524287 x)

/-- The servo at an accepted reference (Servo, slew and step): `off` in ns, `p` the expected period in ns, `r` the
reference's own time. -/
def W.servo (w : W) (off : Int) (p : Nat) (r : Nat) (q0 : Nat) : W :=
  let thr : Int := (w.cfg.time.stepthr * 1000 : Nat)
  let big := decide (thr ≤ off) || decide (off ≤ -thr)
  let w := w.modTim (fun t => { t with off := max (-2147483648) (min 2147483647 off) })
  if big then
    if w.dev.tim.stepPend then (w.timeEv 3).setNow r true
    else w.modTim (fun t => { t with stepPend := true, slewLeft := 0, heldQual := q0 })
  else
    w.modTim (fun t => { t with stepPend := false, fcorr := clampF (t.fcorr - (off * 1000000000).tdiv (8 * p : Nat)),
                                slewLeft := -off * (nsUnit : Nat) })

/-- With the crystal running, XCORR is learned in LOCKED: its value is an open one (log entry 2). -/
def W.learnX (w : W) : W :=
  if w.dev.tim.xtalOk then
    let d := w.draw
    d.2.modTim (fun t => { t with xcorr := toInt 20 d.1.toNat })
  else w

/-- A source in use was accepted: LOCKED, with TIME_REF when the source changed without leaving LOCKED (R315). -/
def W.lock (w : W) (src : Nat) : W :=
  let t := w.dev.tim
  let w := if t.state = 1 ∧ t.src ≠ src ∧ t.src ≠ 0 then w.timeRef 4 else w
  (w.modTim (fun t => { t with src := src })).timeState 1

/-- An edge lies on the timescale's multiple nearest to NOW. -/
def nearest (n p : Nat) : Nat := ((n + p / 2) / p) * p

/-- TPER and TMPER in ns. -/
def TimeCfg.tperNs (c : TimeCfg) : Nat := c.tper * 1000000
def TimeCfg.tmperNs (c : TimeCfg) : Nat := c.tmper * 1000000

/-- Two TPI edges are consistent (References). -/
def TimeCfg.tpiOk (c : TimeCfg) (d : Nat) : Bool :=
  let tol := c.tperNs / 1000 + 1000
  decide (c.tperNs ≤ d + tol) && decide (d ≤ c.tperNs + tol)

/-- An accepted TPI edge. With the time unset, the first one of a lock aligns NOW, and no other moves it. -/
def W.tpiAccepted (w : W) : W :=
  let q0 := w.dev.tim.qual
  let first := w.dev.tim.state != 1
  let w := ((w.modTim (fun t => { t with accTpi := some t.mono, candTpi := some t.mono })).timeEv 1).lock 1
  let w := w.learnX
  let r := nearest w.now w.cfg.time.tperNs
  let w := match w.dev.tim.nextArm with
    | some n =>
      let was := w.dev.tim.tset
      (w.modTim (fun t => { t with nextArm := none })).setNow n was
    | none =>
      if w.dev.tim.tset then w.servo ((w.now : Int) - (r : Int)) w.cfg.time.tperNs r q0
      else if first then w.modTim (fun t => { t with now := r, nowFrac := 0 })
      else w
  w.chunkIf

/-- A TPI rising edge (R313): refused references are counted and become the candidate. References are ignored in
DORMANT; in REPLAY the log says which edges were accepted (R358). -/
def W.tpi (w : W) : W :=
  if !w.cfg.time.srcTpi || w.dev.sup.mode == 2 then w
  else if w.dev.log.lstate = 4 then
    let x := w.rplExpect
    if x.2.any (fun e => fld (nth e 0) 0 6 == 0x13 && fld (nth e 0) 6 4 == 1) then x.1.tpiAccepted else x.1
  else
    match w.dev.tim.candTpi with
    | none => w.modTim (fun t => { t with candTpi := some t.mono })
    | some m =>
      if w.cfg.time.tpiOk (w.mono - m) then w.tpiAccepted
      else w.modTim (fun t => { t with candTpi := some t.mono, tpiBad := satAdd 8 t.tpiBad 1 })

/-- Two TIME messages are consistent. -/
def TimeCfg.timeOk (c : TimeCfg) (a b : Nat) (disc : Bool) : Bool :=
  disc || (decide (a + c.tmperNs ≤ b + 1000000) && decide (b ≤ a + c.tmperNs + 1000000))

/-- An accepted TIME message whose own time is `r`. -/
def W.timeAccepted (w : W) (r qual : Nat) : W :=
  let q0 := w.dev.tim.qual
  let w := (w.modTim (fun t => { t with accTime := some t.mono, ringQual := qual })).timeEv 2
  if w.cfg.time.srcTpi && w.dev.tim.accTpi.isSome then w
  else
    let w := (w.lock 2).learnX
    let w := if w.dev.tim.tset then w.servo ((w.now : Int) - (r : Int)) w.cfg.time.tmperNs r q0 else w.setNow r false
    w.chunkIf

/-- A TIME frame accepted at port `p` (R313). -/
def W.timeFrame (w : W) (p : RPort) (f : Frame) : W :=
  let c := w.cfg.time
  let qual := fld (at' f.payload 12 1) 0 2
  let disc := tbit (at' f.payload 12 1) 2
  let tsend := at' f.payload 0 8
  let dly := match p with
    | .up => c.upDly
    | .dn => c.dnDly
  if !c.srcRing || f.orig ≠ c.msrc || qual = 3 || w.dev.sup.mode = 2 || f.len ≠ 16 then w
  else
    let r := tsend + (at' f.payload 8 4 + dly) / 16
    if w.dev.log.lstate = 4 then
      let x := w.rplExpect
      if x.2.any (fun e => fld (nth e 0) 0 6 == 0x13 && fld (nth e 0) 6 4 == 2) then x.1.timeAccepted r qual else x.1
    else
      match w.dev.tim.candTime with
      | none => w.modTim (fun t => { t with candTime := some tsend })
      | some a =>
        let w := w.modTim (fun t => { t with candTime := some tsend })
        if c.timeOk a tsend disc then w.timeAccepted r qual
        else w.modTim (fun t => { t with timeBad := satAdd 8 t.timeBad 1 })

/-! ## Losses -/

/-- Three expected periods without an accepted reference (R315, R316): the ring takes over from TPI while its messages
are accepted, else HOLDOVER. -/
def W.refLoss (w : W) : W :=
  let t := w.dev.tim
  if t.state ≠ 1 then w
  else if t.src = 1 ∧ w.cfg.time.srcRing ∧ t.accTime.isSome then
    ((w.modTim (fun t => { t with accTpi := none, candTpi := none, src := 2 })).timeRef 4).chunkIf
  else
    let w := w.modTim (fun t => { t with accTpi := none, candTpi := none, accTime := none, candTime := none, src := 0, stepPend := false,
                                         holdT0 := t.mono, holds := satAdd 8 t.holds 1 })
    ((w.timeState 2).timeRef 1).chunkIf

/-- THOLD_MAX in HOLDOVER ends (R316). -/
def W.holdMax (w : W) : W := if w.dev.tim.state = 2 then ((w.timeState 3).timeRef 2).chunkIf else w

/-- The crystal is lost or restored (R312). -/
def W.xtalLost (w : W) : W :=
  if w.cfg.time.xtal && w.dev.tim.xtalOk then (w.modTim (fun t => { t with xtalOk := false })).timeRef 3 else w
def W.xtalBack (w : W) : W := if w.cfg.time.xtal then w.modTim (fun t => { t with xtalOk := true }) else w

/-- A slew in progress is done: all that was left has been added to NOW (R318). -/
def W.slewDone (w : W) : W :=
  w.modTim (fun t =>
    let n := ((t.now * nsUnit + t.nowFrac : Nat) + t.slewLeft).toNat
    { t with slewLeft := 0, now := (n / nsUnit) % 2 ^ 64, nowFrac := n % nsUnit })

/-! ## TPO and TIME frames -/

/-- TPO rises at its instant, or the pulse around a step is omitted (R321). -/
def W.tpoUp (w : W) : W :=
  let t := w.dev.tim
  if !t.tset || t.tpo || w.dev.sup.mode == 2 || w.dev.rst.held then w
  else if t.tpoSkip then w.modTim (fun t => { t with tpoSkip := false })
  else w.modTim (fun t => { t with tpo := true, tpoRise := some t.mono })

/-- TPO falls after TPOW. -/
def W.tpoDown (w : W) : W := w.modTim (fun t => { t with tpo := false })

/-- The master sends a TIME frame out of each port (R314); DISC says that it has stepped since the last one. Its SEQ is
an open value. -/
def W.timeSend (w : W) : W :=
  let t := w.dev.tim
  if !w.cfg.time.master || !t.tset || w.dev.sup.mode == 2 then w
  else
    let d := w.draw
    let f : Frame := { dst := 63, urg := false, rfl' := false, orig := w.dev.ring.addr, gen := 0, ten := 7, type := 4,
                       seq := d.1.toNat % 65536, len := 16, hops := 0, payload := w.timePayload .dn t.discFlag }
    (d.2.sendBroadcast f.bytes).modTim (fun t => { t with discFlag := false })

/-! ## Setting the time (R320) -/

/-- TIM_SET and TIM_NEXT may be written now by tenant `t`. -/
def W.mayTime (w : W) (t : Nat) : Bool := t == 4 && (w.dev.tim.state != 1 || !w.dev.tim.tset)

/-- A write to TIM_SET_HI. -/
def W.timSet (w : W) (t v : Nat) : W × Nat :=
  if w.mayTime t then
    let was := w.dev.tim.tset
    let w := w.timeEv 4
    let w := w.setNow (v * 2 ^ 32 + (w.dev.ten t).setLo.toNat) was
    let w := if w.dev.tim.state = 0 then (w.modTim (fun x => { x with holdT0 := x.mono })).timeState 3 else w
    (w.chunkIf, stOK)
  else (w, stDENIED)

/-- A write to TIM_NEXT_HI. -/
def W.timNext (w : W) (t v : Nat) : W × Nat :=
  if w.mayTime t then (w.modTim (fun x => { x with nextArm := some (v * 2 ^ 32 + (w.dev.ten t).nextLo.toNat) }), stOK)
  else (w, stDENIED)

/-- A write to a _LO register. -/
def W.timLo (w : W) (t v : Nat) (next : Bool) : W × Nat :=
  if w.mayTime t then
    (w.modTen t (fun x => if next then { x with nextLo := BitVec.ofNat 32 v } else { x with setLo := BitVec.ofNat 32 v }), stOK)
  else (w, stDENIED)

/-! ## TIM registers (Table 16.5) -/

/-- A read of TIM_NOW_LO latches the high word for the reader (R325). -/
def W.nowLo (w : W) (t : Nat) : W × Nat :=
  (w.modTen t (fun x => { x with latchNow := BitVec.ofNat 32 (w.now / 2 ^ 32) }), w.now % 2 ^ 32)

/-- A read of TIM_MONO_LO. -/
def W.monoLo (w : W) (t : Nat) : W × Nat :=
  (w.modTen t (fun x => { x with latchMono := BitVec.ofNat 32 (w.mono / 2 ^ 32) }), w.mono % 2 ^ 32)

/-- TIM_STATUS. -/
def TimeSt.status (t : TimeSt) : Nat :=
  packN [(0, 2, t.state), (2, 2, t.qual), (4, 1, b2n t.tset), (5, 2, t.src), (7, 1, b2n t.xtalOk), (8, 1, b2n (t.slewLeft != 0)),
         (9, 1, b2n t.stepPend), (10, 1, b2n t.tpoOmit), (16, 8, t.stepno)]

/-- A read in the TIM block. -/
def W.timRead (w : W) (t off : Nat) : W × Nat :=
  let c := w.cfg.time
  let x := w.dev.tim
  if off = 0 then (w, packN [(0, 1, b2n c.srcTpi), (1, 1, b2n c.srcRing), (2, 1, b2n c.master), (3, 1, b2n c.xtal), (8, 6, c.msrc), (16, 7, c.slewmax)])
  else if off = 4 then (w, packN [(0, 10, c.tper), (10, 10, c.tpoper), (20, 10, c.tmper)])
  else if off = 8 then (w, packN [(0, 20, c.stepthr), (20, 12, c.tholdMax)])
  else if off = 0xC then (w, packN [(0, 20, c.tpow), (20, 12, ofInt 12 c.tpooff)])
  else if off = 0x10 then (w, x.status)
  else if off = 0x14 then w.nowLo t
  else if off = 0x18 then (w, (w.dev.ten t).latchNow.toNat)
  else if off = 0x1C then w.monoLo t
  else if off = 0x20 then (w, (w.dev.ten t).latchMono.toNat)
  else if off = 0x24 then (w, ofInt 20 x.fcorr)
  else if off = 0x28 then (w, ofInt 32 x.off)
  else if off = 0x2C then
    (w.modTim (fun x => { x with holds := 0 }),
     packN [(0, 24, if x.state = 2 ∨ x.state = 3 then (x.mono - x.holdT0) / 1000000 else 0), (24, 8, x.holds)])
  else if off = 0x40 then (w, x.disc % 2 ^ 32)
  else if off = 0x44 then (w, x.disc / 2 ^ 32)
  else if off = 0x48 then
    (w.modTim (fun x => { x with tpiBad := 0, timeBad := 0, steps := 0, omits := 0 }),
     packN [(0, 8, x.tpiBad), (8, 8, x.timeBad), (16, 8, x.steps), (24, 8, x.omits)])
  else if off = 0x4C then (w, packN [(0, 16, c.upDly), (16, 16, c.dnDly)])
  else (w, 0)

/-- A write in the TIM block (R320, R325); a 1 written to TPO_OMIT clears it (log entry 43). -/
def W.timWrite (w : W) (t off v : Nat) : W × Nat :=
  if off = 0x30 then w.timLo t v true
  else if off = 0x34 then w.timNext t v
  else if off = 0x38 then w.timLo t v false
  else if off = 0x3C then w.timSet t v
  else if off = 0x10 then ((if tbit v 10 then w.modTim (fun x => { x with tpoOmit := false }) else w), stOK)
  else (w, stOK)

end Sys2Proof.Machine
end

