-- ==== Sys2Proof/Machine/Ident.lean ====
section
/-! DEFINITION. Board identity (chapter 17): the probe, the match result, the identity cache and write-back. -/

namespace Sys2Proof.Machine

/-! ## The probe on the board die -/

/-- Report the identity summary (STATUS page 4). -/
def W.page4 (w : W) : W := w.status (.page4 { w.dev.bd.probe.sum with phase := w.dev.bd.probe.phase })

def W.modProbe (w : W) (f : Probe → Probe) : W := w.modBd (fun b => { b with probe := f b.probe })

/-- An identity read may run: the board die is up and drives the board, and VB3 is up (R328, "Two units of a pair"). -/
def W.canProbe (w : W) : Bool :=
  w.dev.bd.core && w.dev.bd.tabs && !w.dev.bd.parked && w.dev.bd.up.getLsbD 3 && w.dev.bd.pstate != 0

/-- The strap and IDS readings have ended: the summary is sent, and the EEPROM read starts (Table 17.6 step 3). -/
def W.phase1End (w : W) : W :=
  let p := w.dev.bd.probe
  if p.phase = 1 ∧ p.idsDone ∧ p.strapDone then (w.modProbe (fun p => { p with phase := if w.bcfg.id.eeEn then 2 else 0 })).page4
  else w

/-- Start an identity read on both dies (R328). A running write-back has the probe to its end (R339). -/
def W.idStart (w : W) (r : IdReason) : W :=
  let att := match r with
    | .attach => true
    | _ => false
  if !w.canProbe || !(att || w.dev.bd.pstate == 2) || w.dev.idn.wbState == 2 then w
  else
    let c := w.bcfg.id
    let w := w.modProbe (fun p => { p with phase := 1, sum := {}, strap1 := none, idsDone := !c.idsEn, strapDone := !c.strapEn })
    let w := w.modIdn (fun i => { i with
      astate := 1, t0 := w.now, t0q := w.dev.tim.qual, reread := !att, pages := 0, rbuf := [],
      attaches := if att then i.attaches + 1 else i.attaches, lfsrc := if att then 0 else i.lfsrc, lfcls := if att then 0 else i.lfcls,
      presentT0 := if att then w.mono else i.presentT0 })
    w.phase1End

/-- A strap pull phase ends and the lanes L24–L31 are sampled (R330). A lane that reads low under the pull-up and high
under the pull-down has no reading the spec states: an open value. -/
def W.strapPhase (w : W) (levels : Byte) : W :=
  let p := w.dev.bd.probe
  if p.phase ≠ 1 || p.strapDone then w
  else
    match p.strap1 with
    | none => w.modProbe (fun p => { p with strap1 := some levels })
    | some a =>
      let m := w.bcfg.id.strapMask
      let d := w.draw
      let odd := ~~~a &&& levels
      let h := m &&& ((a &&& levels) ||| (odd &&& d.1.setWidth 8))
      let z := m &&& (a &&& ~~~levels)
      let w := (if odd &&& m = 0 then w else d.2).modProbe (fun p => { p with strapDone := true, sum := { p.sum with strapH := h, strapZ := z } })
      let w := (List.range 8).foldl (fun w k => if m.getLsbD k then w.modLane (24 + k) (fun l => { l with pin := levels.getLsbD k }) else w) w
      w.phase1End

/-- The IDS code of a ratio in 1/256 (Table 17.2): 16 NONE, 17 SHORT. -/
def idsCode (r : Nat) : Nat := if r * 100 < 256 then 17 else if 32 * 256 ≤ r * 34 then 16 else r * 17 / 256

/-- The IDS conversion (R329). -/
def W.idsConv (w : W) (r : Nat) : W :=
  let p := w.dev.bd.probe
  if p.phase ≠ 1 || p.idsDone then w
  else (w.modProbe (fun p => { p with idsDone := true, sum := { p.sum with ids := idsCode r } })).phase1End

/-- The EEPROM read ends (R331): the summary, then the 22 data pages. -/
def W.eeDone (w : W) (how : EeEnd) : W :=
  if w.dev.bd.probe.phase ≠ 2 then w
  else
    match how with
    | .noAck => (w.modProbe (fun p => { p with phase := 0, nacks := satAdd 8 p.nacks 1, sum := { p.sum with eestat := 1 } })).page4
    | .busError => (w.modProbe (fun p => { p with phase := 0, nacks := satAdd 8 p.nacks 1, sum := { p.sum with eestat := 3 } })).page4
    | .data bs =>
      let bytes := padTo 256 bs
      let w := (w.modProbe (fun p => { p with phase := 0, sum := { p.sum with eestat := 2 } })).page4
      (List.range 22).foldl (fun w k => w.status (.eeprom (16 + k) (padTo 12 ((bytes.drop (12 * k)).take 12)))) w

/-! ## Judging what was read (R332) -/

/-- CRC-16 of Table 14.5 over the first `n` bytes agrees with the two after them. -/
def crc16Ok (bs : List Byte) (n : Nat) : Bool := crc16 (bs.take n) == at' bs n 2

/-- The TSIR is valid. -/
def tsirOk (bs : List Byte) : Bool :=
  bs.take 4 == mark4 0x54 0x53 0x49 0x52 && at' bs 4 1 == 1 && crc16Ok (bs.take 128) 126

/-- A service-log slot is valid. -/
def slotOk (s : List Byte) : Bool := crc16Ok s 62 && at' s 0 4 != 0 && at' s 0 4 != 0xFFFFFFFF

/-- Slot 0 (A) or 1 (B) of the 256 bytes. -/
def slotOf (bs : List Byte) (k : Nat) : List Byte := (bs.drop (128 + 64 * k)).take 64

/-- The current slot: 0 none, 1 A, 2 B. -/
def curSlot (a b : Bool) (bs : List Byte) : Nat :=
  if a && b then (if at' (slotOf bs 0) 0 4 < at' (slotOf bs 1) 0 4 then 2 else 1)
  else if a then 1 else if b then 2 else 0

/-- The banks that the TSIR states agree with SUP_BANKNOM and BANK_CFG. -/
def W.banksAgree (w : W) (bs : List Byte) : Bool :=
  (List.range 4).all (fun k =>
    let n := fld (at' bs 40 2) (4 * k) 4
    n == 0 || (n == fld w.dev.sup.banknom.toNat (4 * k) 4 && fld (at' bs 42 1) (2 * k) 2 == (w.cfg.bankOf k).thr))

/-- The match result (Order of reading and the result): 0 NOCHECK, 1 MATCH, 2 MISMATCH. -/
def W.idMatch (w : W) (i : Identity) : Nat :=
  let c := w.cfg.id
  let setN := c.expSet != 0 || c.chkbank || c.require != 0
  let bad := (c.expSet.getLsbD 0 && i.ids != c.expIds) ||
    (c.expSet.getLsbD 1 && (i.strapH != c.expH || i.strapZ != c.expZ)) ||
    (c.expSet.getLsbD 2 && i.profile != c.expProfile) ||
    (c.chkbank && i.tsirOk && !w.banksAgree i.bytes) ||
    (c.require.getLsbD 0 && decide (16 ≤ i.ids)) ||
    (c.require.getLsbD 2 && !(i.eestat == 2 && i.tsirOk))
  if !setN then 0 else if bad then 2 else 1

/-- ID_MEDIA with its detail. -/
def W.idMedia (w : W) (detail : Nat) : W := w.raiseU 0x5B detail

/-! ## The identity cache (Table 17.7) -/

/-- An attach record. -/
def Identity.record (i : Identity) (aseq : Nat) : List Byte :=
  lcrcLine (le 4 aseq ++ le 8 i.t0 ++ [BitVec.ofNat 8 (packN [(0, 2, i.t0q), (2, 1, b2n i.reread)]), BitVec.ofNat 8 i.result, BitVec.ofNat 8 i.ids,
    BitVec.ofNat 8 (packN [(0, 2, i.eestat), (2, 1, b2n i.tsirOk), (3, 1, b2n i.aOk), (4, 1, b2n i.bOk)]), i.strapH, i.strapZ] ++
    le 4 i.profile.toNat ++ le 8 i.boardSerial.toNat ++ le 4 i.logseq ++ List.replicate 26 0)

/-- The header's NEXT and HEAD; an invalid header counts from 1 and line 4. -/
def W.idHeader (w : W) : Nat × Nat :=
  let l := w.line lnIdent
  if lcrcOk l && l.take 4 == mark4 0x56 0x4E 0x49 0x43 then (at' l 4 4, at' l 8 1) else (1, 4)

/-- Commit lines 1–3, the history line and the header, in that order (R334). -/
def W.idCommit (w : W) : W :=
  let h := w.idHeader
  let i := w.dev.idn
  let tsir := if i.bytes.isEmpty then List.replicate 128 0 else i.bytes.take 128
  let rec' := i.record h.1
  let head := if h.2 < 4 ∨ 127 < h.2 then 4 else h.2
  let next := if head = 127 then 4 else head + 1
  let hdr := lcrcLine (mark4 0x56 0x4E 0x49 0x43 ++ le 4 (h.1 + 1) ++ [BitVec.ofNat 8 next] ++ List.replicate 51 0)
  let w := ((w.stageOwn (lnIdent + 1) (tsir.take 64)).stageOwn (lnIdent + 2) (tsir.drop 64)).stageOwn (lnIdent + 3) rec'
  let w := (w.stageOwn (lnIdent + head) rec').stageOwn lnIdent hdr
  w.modIdn (fun i => { i with aseq := h.1 })

/-! ## Write-back requests -/

/-- VB3 is above its bank-low level, as the rack die knows it. -/
def W.vb3Good (w : W) : Bool := w.dev.sup.up.getLsbD 3 && !w.dev.sup.low.getLsbD 3

/-- A request is pending, or deferred by a brown notice or a low VB3 (R339). -/
def W.wbRequest (w : W) (note : Bool) : W :=
  let d := w.dev.sup.notice || !w.vb3Good
  let w := if d then w.modSup (fun s => { s with defer := s.defer ++ [.writeback] }) else w
  w.modIdn (fun i => { i with wbState := if d then 3 else 1, wbNote := note })

/-- The conditions of R335. -/
def W.wbAllowed (w : W) : Bool :=
  let i := w.dev.idn
  i.wbState == 0 && i.eestat == 2 && i.tsirOk && i.logslots == 2 && w.dev.bar.pstate == 2

/-- IDN_WB (R335). -/
def W.idnWb (w : W) (t : Nat) (go note : Bool) (key : Nat) : W × Nat :=
  if t ≠ 4 ∨ key ≠ 0x1D5B ∨ !w.wbAllowed then (w, stDENIED)
  else if go then (w.wbRequest note, stOK) else (w, stOK)

/-! ## The end of a read on the rack die -/

/-- Take the read's bytes and summary into the registers, judge them, set the result and commit the cache. -/
def W.idFinish (w : W) (bytes : List Byte) : W :=
  let t := tsirOk bytes
  let slots := if t then at' bytes 5 1 else 0
  let a := slots == 2 && slotOk (slotOf bytes 0)
  let b := slots == 2 && slotOk (slotOf bytes 1)
  let cur := curSlot a b bytes
  let read := w.dev.idn.eestat == 2
  let w := w.modIdn (fun i => { i with
    astate := 2, bytes := bytes, tsirOk := t, aOk := a, bOk := b, slot := cur, logslots := slots,
    profile := if t then BitVec.ofNat 32 (at' bytes 36 4) else 0, boardSerial := if t then BitVec.ofNat 64 (at' bytes 28 8) else 0,
    logseq := if cur = 0 then 0 else at' (slotOf bytes (cur - 1)) 0 4 })
  let w := w.modIdn (fun i => { i with result := w.idMatch i })
  let w := if read && !t then w.idMedia 2 else w
  let w := if slots = 2 then (if a != b then w.idMedia 8 else if !a then w.idMedia 3 else w) else w
  let w := if w.dev.idn.result = 2 then w.raiseU 0x5A 0 else w
  let w := w.idCommit
  if w.cfg.id.autowb && !w.dev.idn.reread && w.dev.idn.result == 1 && w.wbAllowed then w.wbRequest false else w

/-- A read cut short: NOTREAD with the sources found so far (R334). -/
def W.idCut (w : W) : W :=
  if w.dev.idn.astate = 1 then
    (w.modIdn (fun i => { i with astate := 2, result := 3, bytes := [], tsirOk := false, aOk := false, bOk := false, slot := 0,
                                 profile := 0, boardSerial := 0, logseq := 0 })).idCommit
  else w

/-- A running write-back stops at its step (R338). -/
def W.wbStop (w : W) : W :=
  if w.dev.idn.wbState = 2 then
    ((w.modIdn (fun i => { i with wbState := 0, wbResult := 2 })).modProbe (fun p => { p with phase := 0 })).idMedia 5
  else w

/-- The rack die takes the identity summary (Table 17.6). A SHORT, a NACK where REQUIRE names EE, and a bus error raise
ID_MEDIA (R329, R331). -/
def W.takePage4 (w : W) (s : IdSummary) : W :=
  let was := w.dev.idn.ids
  let w := w.modIdn (fun i => { i with ids := s.ids, strapH := s.strapH, strapZ := s.strapZ, eestat := s.eestat })
  let w := if s.ids = 17 ∧ was ≠ 17 then w.idMedia 6 else w
  if w.dev.idn.astate ≠ 1 ∨ s.phase = 1 ∨ s.phase = 2 then w
  else if s.eestat = 2 then w
  else
    let w := if s.eestat = 3 ∨ (s.eestat = 1 ∧ w.cfg.id.require.getLsbD 2) then w.idMedia 1 else w
    w.idFinish []

/-- An EEPROM data page arrives; the last one ends the read. -/
def W.takePage (w : W) (page : Nat) (bs : List Byte) : W :=
  if w.dev.idn.astate ≠ 1 then w
  else
    let w := w.modIdn (fun i => { i with rbuf := i.rbuf ++ bs, pages := i.pages + 1 })
    if page = 37 then w.idFinish ((w.dev.idn.rbuf).take 256) else w

/-! ## Service-log write-back (R335–R339, Table 17.8) -/

/-- The composed record: current slot's counts carried forward. -/
def W.wbRecord (w : W) : List Byte :=
  let i := w.dev.idn
  let cur := if i.slot = 0 then [] else slotOf i.bytes (i.slot - 1)
  let hours := (w.mono - i.presentT0) / 3600000000000
  let note := if i.wbNote then i.notes.flatMap (fun x => le 4 x.toNat) else padTo 32 ((cur.drop 30).take 32)
  let b := le 4 (i.logseq + 1) ++ le 8 w.now ++ [BitVec.ofNat 8 w.dev.tim.qual, BitVec.ofNat 8 w.dev.ring.addr, 0, 0] ++
    le 4 (w.dev.fus.serial.toNat % 2 ^ 32) ++ le 4 (at' cur 20 4 + i.attaches) ++ le 4 (at' cur 24 4 + hours) ++
    [BitVec.ofNat 8 i.lfsrc, BitVec.ofNat 8 i.lfcls] ++ note
  b ++ le 2 (crc16 b)

/-- Bytes to a page (PAGE). -/
def IdCfg.pageBytes (c : IdCfg) : Nat := 8 * 2 ^ c.page

/-- A pending or deferred write-back starts (R339): its record is composed, and the highest page is addressed and
sent (steps 1–3). -/
def W.wbStart (w : W) : W :=
  let i := w.dev.idn
  if !(i.wbState == 1 || i.wbState == 3) || i.astate == 1 || w.dev.sup.notice || !w.vb3Good || !w.dev.bd.core || w.dev.bd.pstate != 2 ||
      w.dev.log.lstate == 4 then w
  else
    let target := if i.slot = 1 then 1 else 0
    let r := w.wbRecord
    let n := 64 / w.bcfg.id.pageBytes
    let w := w.modSup (fun s => { s with defer := s.defer.filter (fun d => d != .writeback) })
    let w := w.modProbe (fun p => { p with phase := 3, wbTarget := target, wbRec := r, wbPage := n - 1, wbTry := 0 })
    w.modIdn (fun i => { i with wbState := 2, wbStep := 4, wbTarget := target, wbRec := r, wbResult := 0 })

/-- An address poll (step 4): the next page goes, or the verify read follows the page that holds SEQ. -/
def W.wbPoll (w : W) (ack : Bool) : W :=
  if w.dev.idn.wbState ≠ 2 ∨ w.dev.idn.wbStep ≠ 4 then w
  else if !ack then w.modProbe (fun p => { p with nacks := satAdd 8 p.nacks 1 })
  else if w.dev.bd.probe.wbPage = 0 then w.modIdn (fun i => { i with wbStep := 5 })
  else w.modProbe (fun p => { p with wbPage := p.wbPage - 1 })

/-- The write-back ends. -/
def W.wbEnd (w : W) (result : Nat) : W :=
  (w.modIdn (fun i => { i with wbState := 0, wbResult := result })).modProbe (fun p => { p with phase := 0 })

/-- No ACK within 10 ms (R338). -/
def W.wbTimeout (w : W) : W := if w.dev.idn.wbState = 2 ∧ w.dev.idn.wbStep = 4 then (w.wbEnd 3).idMedia 7 else w

/-- A completed write-back makes its target the current slot and commits line 3. -/
def W.wbDone (w : W) : W :=
  let i := w.dev.idn
  let k := i.wbTarget
  let bytes := i.bytes.take (128 + 64 * k) ++ i.wbRec ++ i.bytes.drop (192 + 64 * k)
  let hours := (w.mono - i.presentT0) / 3600000000000
  let w := (w.wbEnd 1).modIdn (fun i => { i with
    bytes := bytes, slot := k + 1, logseq := i.logseq + 1, wbCount := satAdd 16 i.wbCount 1, attaches := 0,
    presentT0 := i.presentT0 + hours * 3600000000000, aOk := i.aOk || k == 0, bOk := i.bOk || k == 1 })
  w.stageOwn (lnIdent + 3) (w.dev.idn.record w.dev.idn.aseq)

/-- The verify read of the target slot (R338). -/
def W.wbVerify (w : W) (bs : List Byte) : W :=
  if w.dev.idn.wbState ≠ 2 ∨ w.dev.idn.wbStep ≠ 5 then w
  else if bs = w.dev.idn.wbRec then w.wbDone
  else if w.dev.bd.probe.wbTry = 0 then
    (w.modProbe (fun p => { p with wbTry := 1, wbPage := 64 / w.bcfg.id.pageBytes - 1 })).modIdn (fun i => { i with wbStep := 4 })
  else (w.wbEnd 4).idMedia 4

/-! ## IDN registers, rack part (Table 17.10) -/

/-- A read in the rack part of IDN. -/
def W.idnRead (w : W) (off : Nat) : W × Nat :=
  let i := w.dev.idn
  if off = 0 then (w, packN [(0, 2, i.astate), (2, 2, i.result), (4, 2, i.slot), (16, 16, i.aseq)])
  else if off = 4 then (w, packN [(0, 5, i.ids), (8, 8, i.strapH.toNat), (16, 8, i.strapZ.toNat)])
  else if off = 8 then (w, packN [(0, 2, i.eestat), (2, 1, b2n i.tsirOk), (3, 1, b2n i.aOk), (4, 1, b2n i.bOk)])
  else if off = 0xC then (w, i.profile.toNat)
  else if off = 0x10 then (w, i.logseq)
  else if off = 0x18 then
    (w.modIdn (fun i => { i with wbCount := 0 }),
     packN [(0, 3, i.wbState), (3, 3, i.wbStep), (8, 4, i.wbResult), (12, 1, i.wbTarget), (16, 16, i.wbCount)])
  else if 0x20 ≤ off ∧ off < 0x40 then (w, (i.notes.getD ((off - 0x20) / 4) 0).toNat)
  else (w, 0)

/-- A write in the IDN block (R341). -/
def W.idnWrite (w : W) (t off v : Nat) : W × Nat :=
  if t ≠ 4 then (w, stDENIED)
  else if off = 0x14 then w.idnWb t (tbit v 0) (tbit v 1) (v / 2 ^ 16)
  else if 0x20 ≤ off ∧ off < 0x40 then (w.modIdn (fun i => { i with notes := i.notes.set ((off - 0x20) / 4) (BitVec.ofNat 32 v) }), stOK)
  else (w, stDENIED)

end Sys2Proof.Machine
end

