-- ==== Sys2Proof/Machine/Pairing.lean ====
section
/-! DEFINITION. Paired units (chapter 19): epochs, the baton, takeover and the PAI registers. -/

namespace Sys2Proof.Machine

/-- Pairing is enabled by the woven image. -/
def W.paired (w : W) : Bool := w.cfg.pair.en

/-- PAIR_EVENT with its detail (R381). -/
def W.pairEvent (w : W) (detail : Nat) : W := w.raiseU 0x5E detail

/-- EPER in ns. -/
def PairCfg.eperNs (c : PairCfg) : Nat := c.eper * 100000

/-! ## The epoch (Tables 19.2, 19.3) -/

/-- The mirrored intended state of a lane; 3 where it is no LEVEL_OUT lane (Table 11.4). -/
def Dev.mirrorCode (d : Dev) (n : Nat) : Nat :=
  if (d.img.cfg.lane n).mode = 2 then (tget (0, safeCode d.img.cfg n) d.bar.mirror n).2 else 3

/-- The 48-bit LVL field: two bits for each of L08–L31. -/
def Dev.lvl48 (d : Dev) : Nat := packN (upto 24 (fun i => (2 * i, 2, d.mirrorCode (8 + i))))

/-- The newest WSEQ the rack die has folded or heard of. -/
def Barrier.newestSeq (b : Barrier) : Nat := b.news.foldl (fun a x => if (x + 65536 - a) % 65536 < 32768 then x else a) b.lseq

/-- Level of L0n as the rack die has it. -/
def Dev.directOut (d : Dev) (n : Nat) : Bool :=
  if d.img.cfg.dirBA.getLsbD n then (tget {} d.bar.direct n).level else (tget {} d.bar.direct n).inLevel

/-- The 2-byte lane state of an epoch. -/
def LaneView.epoch (v : LaneView) : Nat := packN [(0, 7, v.cause.toNat), (7, 1, b2n v.armed), (8, 2, v.stage), (10, 1, b2n v.level)]

/-- A tenant's 64 bytes. -/
def Dev.tenEpoch (d : Dev) (t : Nat) : List Byte :=
  let x := d.ten t
  let seen := packN (upto 16 (fun s => (s, 1, b2n (tget {} x.streams s).seen)))
  padTo 64 ([BitVec.ofNat 8 x.gen, BitVec.ofNat 8 (nth d.pai.tenResets t)] ++ le 2 seen ++
    (List.range 16).flatMap (fun s => le 2 (tget {} x.streams s).last))

/-- Table 19.3: one ticket's entry. -/
def Dev.entry (d : Dev) (k : Ticket) : List Byte :=
  match k.op with
  | none => []
  | some o =>
    let short := !o.req.route.ring
    let b0 := packN [(0, 6, if short then 0 else o.req.route.orig.toNat), (6, 2, o.req.gen.val)]
    let b1 := packN [(0, 3, k.ten), (3, 1, b2n short), (4, 2, k.queue), (6, 1, b2n k.board)]
    let head := [BitVec.ofNat 8 b0, BitVec.ofNat 8 b1] ++ le 2 (if short then 0 else o.req.route.seq.toNat)
    match o.msg with
    | some mi =>
      (match d.hpt.msgs.find? (fun e => e.1 == mi) with
        | some (_, m) =>
          head ++ le 2 (nth (m.items.map (·.1)) o.item) ++ le 2 (at' m.hdr 2 2) ++
            [BitVec.ofNat 8 (packN [(0, 4, m.stream), (4, 1, b2n m.ack)]), BitVec.ofNat 8 (packN [(0, 4, o.item), (4, 4, m.items.length - 1)])]
        | none => head ++ List.replicate 6 0)
    | none =>
      if o.req.gen = 1 then
        head ++ [BitVec.ofNat 8 (b2n o.kind.wr1 ||| (fld o.req.tag.toNat 0 4 <<< 4)), 0] ++ le 2 o.addr.toNat ++ [0, 0]
      else head ++ le 2 o.req.tag.toNat ++ [0, 0, 0, 0]

/-- The tickets an epoch names: QUEUED and ISSUED, in ticket order (log entry 45). -/
def Dev.epochTkts (d : Dev) : List Ticket :=
  ((d.pool.tkts.filter (fun k => decide (k.2.st = .queued) || decide (k.2.st = .issued))).map (·.2)).take 360

/-- The bytes of an epoch (Table 19.2). -/
def Dev.epoch (d : Dev) (eno : Nat) (release forceall : Bool) : List Byte :=
  let es := d.epochTkts
  let len := 488 + 10 * es.length
  let body :=
    mark4 0x56 0x4E 0x45 0x50 ++ le 4 eno ++ le 8 d.tim.now ++ le 4 d.img.cfg.imgcrc.toNat ++ le 2 len ++ le 2 es.length ++
    [BitVec.ofNat 8 (packN [(0, 1, b2n release), (1, 1, b2n forceall), (2, 1, b2n d.bar.bAlive)]), 0] ++ le 2 d.bar.lseq ++ [0, 0, 0, 0] ++
    le 6 d.lvl48 ++ le 2 d.bar.newestSeq ++ [BitVec.ofNat 8 (packN (upto 8 (fun n => (n, 1, b2n (d.directOut n))))), 0, 0, 0] ++
    (List.range 32).flatMap (fun n => le 2 (tget {} d.bar.views n).epoch) ++
    (List.range 8).flatMap (fun e => [BitVec.ofNat 8 (d.bd.eng e).st, BitVec.ofNat 8 (d.bd.eng e).step]) ++ [0, 0, 0, 0] ++
    (List.range 5).flatMap d.tenEpoch ++
    [BitVec.ofNat 8 (packN [(0, 2, d.idn.result), (2, 2, d.idn.slot)]), BitVec.ofNat 8 d.idn.ids, d.idn.strapH, d.idn.strapZ] ++
    le 4 d.idn.profile.toNat ++ le 4 d.idn.logseq ++ le 4 d.idn.aseq ++ List.replicate 16 0 ++
    es.flatMap d.entry ++ mark4 0x45 0x45 0x4E 0x44
  body ++ le 4 (crc32 body)

/-- A frame of the pair: GEN 0, TEN 7, non-urgent, its SEQ an open value. -/
def W.pairFrame (w : W) (type : Nat) (pay : List Byte) : W :=
  if w.dev.pai.pAddr = 0 ∨ w.dev.ring.addr = 0 then w
  else
    let d := w.draw
    let f : Frame := { dst := w.dev.pai.pAddr, urg := false, rfl' := false, orig := w.dev.ring.addr, gen := 0, ten := 7, type := type,
                       seq := d.1.toNat % 65536, len := pay.length, hops := 0, payload := pay }
    d.2.sendUnicast w.dev.pai.pAddr f.bytes

/-- Fragment `i` of `n`. -/
def W.fragment (w : W) (eno i n : Nat) (hold release : Bool) (bs : List Byte) : List Byte :=
  le 4 eno ++ [BitVec.ofNat 8 i, BitVec.ofNat 8 n,
    BitVec.ofNat 8 (packN [(0, 1, b2n hold), (1, 1, b2n release), (2, 1, b2n w.dev.bar.bAlive), (3, 1, b2n (i + 1 == n))]), 0] ++ bs

/-- Cut and send one epoch. -/
def W.sendEpoch (w : W) (release forceall : Bool) : W :=
  let eno := (w.dev.pai.eno + 1) % 2 ^ 32
  let bs := w.dev.epoch eno release forceall
  let ps := pieces 1016 5 bs
  let w := w.modPai (fun p => { p with eno := eno, sizeLast := bs.length, sizePeak := max p.sizePeak bs.length,
                                       ackT := match p.ackT with
                                         | none => some w.mono
                                         | some t => some t })
  ((List.range ps.length).zip ps).foldl (fun w (e : Nat × List Byte) => w.pairFrame 5 (w.fragment eno e.1 ps.length false release e.2)) w

/-- An epoch-hold marker (R73). -/
def W.sendHold (w : W) : W := w.pairFrame 5 (w.fragment w.dev.pai.eno 0 0 true false [])

/-- EPER passes at the holder (R368): an epoch, or a hold marker during a brown notice. -/
def W.epochCut (w : W) : W :=
  if w.dev.pai.role ≠ 3 ∨ !w.paired then w
  else if w.dev.sup.notice then
    (w.modSup (fun s => { s with defer := if s.defer.contains .epoch then s.defer else s.defer ++ [.epoch] })).sendHold
  else
    let w := w.logK 0x07 [(6, 4, 4)]
    if w.dev.log.lstate = 4 then w else w.sendEpoch false false

/-- No EPOCH_ACK for 3 × EPER: PAIR_EVENT, once until the next acknowledgement (R368). -/
def W.noAck (w : W) : W :=
  if w.dev.pai.role = 3 ∧ !w.dev.pai.noackNow then
    (w.modPai (fun p => { p with noack := satAdd 8 p.noack 1, noackNow := true })).pairEvent 5
  else w

/-! ## Parking and releasing -/

/-- Park the output lanes (R366). -/
def W.park (w : W) : W := (w.modPai (fun p => { p with parked := true })).control (.pairChunk true [])

/-- Drop the baton: the lanes are parked, PAIRn is released and the unit is in LISTEN. -/
def W.dropBaton (w : W) : W :=
  w.park.modPai (fun p => { p with pull := false, pairn := true, role := 1, releasing := 0, heldSilent := false, deadCount := 0, forceSent := false,
                                   relSeen := none, part := none, frags := [] })

/-- A holder begins a release with its final epoch (R369): `why` is 1 plain, 2 FORCE, 3 HANDOVER. During a brown notice no
epoch is started (R71). -/
def W.beginRelease (w : W) (why : Nat) : W :=
  if w.dev.pai.role = 3 ∧ w.dev.pai.releasing = 0 then
    let w := if w.dev.sup.notice ∨ w.dev.log.lstate = 4 then w else w.sendEpoch true (why == 2)
    w.modPai (fun p => { p with releasing := why })
  else w

/-- The holder has its COMMITTED acknowledgement, or has waited 2 × EPER. -/
def W.releaseEnd (w : W) : W :=
  if w.dev.pai.releasing = 0 then w
  else
    let w := if w.dev.pai.releasing = 3 then w.modPai (fun p => { p with handovers := satAdd 8 p.handovers 1 }) else w
    w.dropBaton

/-- HANDOVER (R376). -/
def W.handoverReq (w : W) (t key : Nat) (go : Bool) : W × Nat :=
  let p := w.dev.pai
  let fresh : Bool := match p.ackT with
    | some a => decide (w.mono - a ≤ 2 * w.cfg.pair.eperNs) && p.acked != 0
    | none => false
  if t = 4 ∧ key = 0x5A1B ∧ p.role = 3 ∧ fresh ∧ go then (w.beginRelease 3, stOK) else (w, stDENIED)

/-! ## Receiving (R371, R374, R377) -/

/-- Discard a partial epoch whole, and count it. -/
def W.discardPart (w : W) : W :=
  match w.dev.pai.part with
  | none => w
  | some _ => w.modPai (fun p => { p with part := none, frags := [], discarded := satAdd 8 p.discarded 1 })

/-- The store line of epoch slot `s`. -/
def epochLine (s : Nat) : Nat := lnEpoch + 64 * s

/-- Commit the newest complete epoch into the next of the four slots. -/
def W.commitEpoch (w : W) : W :=
  let p := w.dev.pai
  let ls := pieces 64 64 p.newest
  let w := ((List.range ls.length).zip ls).foldl (fun w (e : Nat × List Byte) => w.stageOwn (epochLine p.commitSlot + e.1) (padTo 64 e.2)) w
  w.modPai (fun p => { p with commitSlot := (p.commitSlot + 1) % 4, waitCommit := false })

/-- Answer a complete epoch (log entry 44). -/
def W.epochAck (w : W) (force : Bool) : W :=
  let b := w.dev.sup.notice
  w.pairFrame 6 (le 4 w.dev.pai.eno ++ [BitVec.ofNat 8 (packN [(0, 1, b2n (!b)), (1, 1, b2n force), (2, 1, b2n b)]), 0, 0, 0])

/-- All fragments of an epoch are here: it is kept, acknowledged and committed when it passes (R371). -/
def W.epochWhole (w : W) (bs : List Byte) : W :=
  let n := bs.length
  let good := decide (488 ≤ n) && ((bs.drop (n - 8)).take 4 == mark4 0x45 0x45 0x4E 0x44) && crc32 (bs.take (n - 4)) == at' bs (n - 4) 4
  if !good then w
  else if at' bs 16 4 ≠ w.cfg.imgcrc.toNat then (w.modPai (fun p => { p with part := none, frags := [] })).pairEvent 6
  else
    let f := at' bs 24 1
    let w := w.modPai (fun p => { p with part := none, frags := [], newest := bs, eno := at' bs 4 4, role := if p.role = 1 then 2 else p.role,
                                         relSeen := if tbit f 0 then some (tbit f 1) else none })
    let w := w.epochAck false
    if w.dev.sup.notice then
      (w.modPai (fun p => { p with waitCommit := true })).modSup (fun s => { s with defer := if s.defer.contains .rxEpoch then s.defer else s.defer ++ [.rxEpoch] })
    else w.commitEpoch

/-- One fragment joins the epoch being assembled. -/
def W.addFrag (w : W) (eno i n : Nat) (bs : List Byte) : W :=
  let w := match w.dev.pai.part with
    | some (e, _) => if e < eno then w.discardPart else w
    | none => w
  let same := match w.dev.pai.part with
    | some (e, _) => e == eno
    | none => true
  if !same || n = 0 || n ≤ i then w
  else
    let w := w.modPai (fun p => { p with part := some (eno, n), frags := tput p.frags i bs })
    if w.dev.pai.frags.length = n then w.epochWhole (w.dev.pai.frags.flatMap (·.2)) else w

/-- The second consecutive message with BALIVE = 0 asks the holder for its baton (R374). -/
def W.partnerAlive (w : W) (alive : Bool) : W :=
  if alive then w.modPai (fun p => { p with pBalive := true, deadCount := 0, forceSent := false })
  else
    let w := w.modPai (fun p => { p with pBalive := false, deadCount := p.deadCount + 1 })
    if 2 ≤ w.dev.pai.deadCount ∧ w.dev.pai.role = 2 ∧ !w.dev.pai.forceSent then
      (w.modPai (fun p => { p with forceSent := true })).epochAck true
    else w

/-- An EPOCH frame from the partner. -/
def W.epochFrame (w : W) (f : Frame) : W :=
  if !w.paired || f.orig ≠ w.dev.pai.pAddr || f.payload.length < 8 then w
  else
    let fl := at' f.payload 6 1
    let w := w.modPai (fun p => { p with lastMsg := some w.mono, heldSilent := false })
    if w.dev.pai.role = 3 then
      let w := w.pairEvent 4
      if w.cfg.pair.prefer then w else w.dropBaton
    else
      let w := w.partnerAlive (tbit fl 2)
      if tbit fl 0 then w else w.addFrag (at' f.payload 0 4) (at' f.payload 4 1) (at' f.payload 5 1) (f.payload.drop 8)

/-- An EPOCH_ACK frame from the partner (R368, R369, R374). -/
def W.ackFrame (w : W) (f : Frame) : W :=
  if !w.paired || f.orig ≠ w.dev.pai.pAddr || f.payload.length < 8 || w.dev.pai.role ≠ 3 then w
  else
    let fl := at' f.payload 4 1
    let w := w.modPai (fun p => { p with acked := at' f.payload 0 4, ackT := some w.mono, noackNow := false })
    if tbit fl 1 ∧ !w.dev.bar.bAlive then w.beginRelease 2 else w

/-! ## Taking the baton -/

/-- Take the baton: PAIRn low, HOLDING, and the pair chunk for the board die. -/
def W.takeBaton (w : W) (lvl : Tbl Nat) : W :=
  (w.modPai (fun p => { p with role := 3, pull := true, pairn := false, parked := false, heldSilent := false, releasing := 0, deadCount := 0,
                               forceSent := false, relSeen := none, ackT := some w.mono, acked := 0, noackNow := false })).control (.pairChunk false lvl)

/-- The unit may take the baton now: woven, paired, not in the fatal state. -/
def W.mayTake (w : W) : Bool := w.paired && w.dev.img.woven && !w.dev.flt.fatal

/-- A start take (R367). -/
def W.startTake (w : W) : W := if w.mayTake && w.dev.pai.role == 1 then w.takeBaton [] else w

/-- The levels and causes of an epoch for the pair chunk: code in [1:0], the cause STUCK or FORCE from bit 8 on. -/
def epochLevels (c : Cfg) (bs : List Byte) : Tbl Nat :=
  (List.range 32).filterMap (fun n =>
    let v := at' bs (44 + 2 * n) 2
    let cause := (v % 128) &&& 0x28
    let code := if n < 8 then b2n (tbit (at' bs 40 1) n) else fld (at' bs 32 6) (2 * (n - 8)) 2
    let code := if code = 3 then b2n (tbit v 10) else code
    if c.outLane n then some (n, code + 256 * cause) else none)

/-- Load the mirror, stream expectations and identity view from the newest epoch (R372). -/
def W.loadEpoch (w : W) : W :=
  let bs := w.dev.pai.newest
  let wseq := at' bs 38 2
  let w := w.modBar (fun b => { b with
    lseq := wseq, news := [],
    mirror := (List.range 24).map (fun i => (8 + i, (wseq, fld (at' bs 32 6) (2 * i) 2))) })
  let w := (List.range 5).foldl (fun w t =>
    let b := bs.drop (128 + 64 * t)
    w.modTen t (fun x => { x with streams := (List.range 16).map (fun s =>
      let o : StreamSt := tget {} x.streams s
      (s, { o with seen := tbit (at' b 2 2) s, last := at' b (4 + 2 * s) 2 })) })) w
  w.modIdn (fun i => { i with
    result := fld (at' bs 448 1) 0 2, slot := fld (at' bs 448 1) 2 2, ids := at' bs 449 1, strapH := BitVec.ofNat 8 (at' bs 450 1),
    strapZ := BitVec.ofNat 8 (at' bs 451 1), profile := BitVec.ofNat 32 (at' bs 452 4), logseq := at' bs 456 4, aseq := at' bs 460 4 })

/-! ## LOST completions (R373) -/

/-- The entries of an epoch. -/
def epochEntries (bs : List Byte) : List (List Byte) := upto (min 360 (at' bs 22 2)) (fun k => (bs.drop (480 + 10 * k)).take 10)

/-- Two Gen3 entries belong to one message: ORIG, tenant, SEQ and STREAM agree. -/
def sameMsg (a b : List Byte) : Bool :=
  at' a 0 1 == at' b 0 1 && fld (at' a 1 1) 0 3 == fld (at' b 1 1) 0 3 && at' a 2 2 == at' b 2 2 && fld (at' a 8 1) 0 4 == fld (at' b 8 1) 0 4

/-- A reply frame to the ORIG of an entry. -/
def lostFrame (e : List Byte) (pay : List Byte) : Frame :=
  let gen := fld (at' e 0 1) 6 2
  { dst := fld (at' e 0 1) 0 6, urg := gen != 1 && fld (at' e 1 1) 4 2 == 0, rfl' := false, orig := 0, gen := gen, ten := fld (at' e 1 1) 0 3,
    type := 2, seq := at' e 2 2, len := pay.length, hops := 0, payload := pay }

/-- The payload of one LOST completion: `mine` are the entries it answers. -/
def W.lostPayload (w : W) (e : List Byte) (mine : List (List Byte)) : List Byte :=
  let q := w.dev.tim.qual
  match fld (at' e 0 1) 6 2 with
  | 1 =>
    let b := [BitVec.ofNat 8 (at' e 4 1), BitVec.ofNat 8 stLOST] ++ le 2 (at' e 6 2) ++ [0, 0, 0, 0]
    b ++ [BitVec.ofNat 8 (crc8 b)]
  | 3 =>
    let s := fld (at' e 8 1) 0 4
    let hdr := [BitVec.ofNat 8 s, BitVec.ofNat 8 (b2n (tbit (at' e 8 1) 4))] ++ le 2 (at' e 6 2)
    let b := hdr ++ mine.flatMap (fun x => le 2 (at' x 4 2) ++ [BitVec.ofNat 8 stLOST, BitVec.ofNat 8 (q * 64), 0, 0, 0, 0])
    b ++ le 4 (w.cfg.streamCheck (fld (at' e 1 1) 0 3) s true b)
  | _ => le 2 (at' e 4 2) ++ [BitVec.ofNat 8 stLOST, BitVec.ofNat 8 (q * 64), 0xFF, 0xFF, 0, 0, 0, 0, 0, 0] ++ le 4 w.now

/-- The frames of the LOST completions, in entry order; a Gen3 message is answered at its first entry. -/
def W.lostFrames (w : W) : List (List Byte) → List (List Byte) → List (List Byte)
  | _, [] => []
  | done, e :: rest =>
    let g3 := fld (at' e 0 1) 6 2 == 3
    if g3 && done.any (sameMsg e) then w.lostFrames done rest
    else (lostFrame e (w.lostPayload e (if g3 then e :: rest.filter (sameMsg e) else [e]))).bytes :: w.lostFrames (e :: done) rest

/-- Send the LOST completions that wait, once this unit has an address and a port in RUN; one without a reachable ORIG
is counted as undeliverable. -/
def W.pumpLost (w : W) : W :=
  if w.dev.pai.lostQ.isEmpty || w.dev.ring.addr = 0 || !(w.running .up || w.running .dn) then w
  else
    let q := w.dev.pai.lostQ
    q.foldl (fun w b =>
      let f : Frame := { readFrame b with orig := w.dev.ring.addr }
      if f.dst = 0 ∨ f.dst = w.dev.pai.pAddr then w.modPai (fun p => { p with undeliv := satAdd 16 p.undeliv 1 })
      else (w.modPai (fun p => { p with lostSent := satAdd 16 p.lostSent 1 })).sendUnicast f.dst f.bytes)
      (w.modPai (fun p => { p with lostQ := [] }))

/-! ## Takeover -/

/-- A takeover from the newest complete epoch (R372), with its LOST completions. -/
def W.takeover (w : W) : W :=
  if !w.mayTake then w
  else
    let bs := w.dev.pai.newest
    let w := (w.discardPart.takeBaton (epochLevels w.cfg bs)).loadEpoch
    let w := (w.modPai (fun p => { p with takeovers := satAdd 8 p.takeovers 1 })).pairEvent 1
    (w.modPai (fun p => { p with lostQ := w.lostFrames [] (epochEntries bs) })).pumpLost

/-- Silence (R372): the standby takes over when PAIRn is high, and otherwise waits. -/
def W.silence (w : W) (high : Bool) : W :=
  if w.dev.pai.role ≠ 2 then w
  else
    let w := w.discardPart.modPai (fun p => { p with pairn := high })
    if high then w.takeover
    else if w.dev.pai.heldSilent then w
    else (w.modPai (fun p => { p with heldSilent := true })).pairEvent 3

/-- PAIRn has read high for 10 µs while silence lasts. -/
def W.heldTake (w : W) : W := if w.dev.pai.role = 2 ∧ w.dev.pai.heldSilent then (w.modPai (fun p => { p with pairn := true })).takeover else w

/-- A forced takeover or a handover after a RELEASE epoch (R374). -/
def W.forcedTake (w : W) : W :=
  if w.dev.pai.role ≠ 2 || !w.mayTake then w
  else
    match w.dev.pai.relSeen with
    | none => w
    | some fa =>
      let bs := w.dev.pai.newest
      let w := w.discardPart
      if fa then
        ((w.takeBaton [(32, 1)]).loadEpoch.modPai (fun p => { p with takeovers := satAdd 8 p.takeovers 1 })).pairEvent 2
      else (w.takeBaton (epochLevels w.cfg bs)).loadEpoch.modPai (fun p => { p with handovers := satAdd 8 p.handovers 1 })

/-- The partner's address and adjacency, from a ring view that names it (R365). -/
def W.learnPartner (w : W) : W :=
  if !w.paired then w
  else
    let v := w.dev.ring.view
    match v.find? (fun e => e.1 == w.cfg.pair.serial) with
    | none => w.modPai (fun p => { p with neighbour := false })
    | some (_, a) =>
      let i := v.findIdx (fun e => e.1 == w.cfg.pair.serial)
      let j := w.ringPos
      let near := decide (i + 1 = j) || decide (j + 1 = i) ||
        (!w.dev.ring.split && (decide (i = 0 ∧ j + 1 = v.length) || decide (j = 0 ∧ i + 1 = v.length)))
      let w := w.modPai (fun p => { p with pAddr := a, neighbour := near })
      if near then w else w.pairEvent 7

/-! ## PAI registers (Table 19.6) -/

/-- Whole EPER since the partner's last message. -/
def W.silent (w : W) : Nat :=
  match w.dev.pai.lastMsg with
  | none => 0
  | some t => if w.paired then min 15 ((w.mono - t) / w.cfg.pair.eperNs) else 0

/-- A read in the PAI block. -/
def W.paiRead (w : W) (off : Nat) : W × Nat :=
  let p := w.dev.pai
  let c := w.cfg.pair
  if off = 4 then (w, packN [(0, 1, b2n c.en), (1, 1, b2n c.prefer), (2, 7, c.eper)])
  else if off = 8 then
    (w, packN [(0, 2, p.role), (2, 1, b2n p.pairn), (3, 1, b2n p.pull), (4, 1, b2n p.pBalive), (5, 1, b2n p.heldSilent), (6, 1, b2n p.neighbour),
               (8, 6, p.pAddr), (16, 4, w.silent)])
  else if off = 0xC then (w, p.eno)
  else if off = 0x10 then
    (w.modPai (fun p => { p with discarded := 0, takeovers := 0, handovers := 0, noack := 0 }),
     packN [(0, 8, p.discarded), (8, 8, p.takeovers), (16, 8, p.handovers), (24, 8, p.noack)])
  else if off = 0x14 then (w.modPai (fun p => { p with lostSent := 0, undeliv := 0 }), packN [(0, 16, p.lostSent), (16, 16, p.undeliv)])
  else if off = 0x18 then (w.modPai (fun p => { p with sizePeak := 0 }), packN [(0, 13, p.sizeLast), (16, 13, p.sizePeak)])
  else if off = 0x1C then (w, c.serial.toNat % 2 ^ 32)
  else if off = 0x20 then (w, c.serial.toNat / 2 ^ 32)
  else (w, 0)

/-- A write in the PAI block (R380). -/
def W.paiWrite (w : W) (t off v : Nat) : W × Nat :=
  if off = 0 then w.handoverReq t (v / 2 ^ 16) (tbit v 0) else (w, stDENIED)

end Sys2Proof.Machine
end

