-- ==== Sys2Proof/Machine/Rack.lean ====
section
/-! DEFINITION. The rack side of the barrier (chapters 10–12): the mirror, status pages, results, the lamplighter,
beacons, direct channels and the BAR registers; and the board-side inputs that no packet carries. -/

namespace Sys2Proof.Machine

/-! ## The mirror ("The lamplighter and missed refreshes") -/

/-- Sequence `a` is newer than `b`. -/
def seqNewer (a b : Nat) : Bool := let d := (a + 65536 - b) % 65536; decide (1 ≤ d) && decide (d < 32768)

/-- LSEQ moves up while the next number's news has been folded. -/
def Barrier.advance (b : Barrier) : Nat → Barrier
  | 0 => b
  | n + 1 =>
    let s := (b.lseq + 1) % 65536
    if b.news.contains s then ({ b with lseq := s, news := b.news.filter (· != s) } : Barrier).advance n else b

/-- Fold one lane's news: older news of that lane is ignored. -/
def Barrier.fold (b : Barrier) (n code seq : Nat) : Barrier :=
  let put := match b.mirror.find? (fun e => e.1 == n) with
    | some (_, s, _) => seqNewer seq s
    | none => true
  let b := if put then { b with mirror := tput b.mirror n (seq, code) } else b
  if seqNewer seq b.lseq then ({ b with news := (b.news ++ [seq]).eraseDups } : Barrier).advance (b.news.length + 1) else b

/-- Fold a whole page 1: every level up to its WSEQ (R223). -/
def Barrier.foldAll (b : Barrier) (lvl : List Nat) (wseq : Nat) : Barrier :=
  let b := (List.range 32).foldl (fun b n =>
    if nth lvl n = 3 then b
    else
      match b.mirror.find? (fun e => e.1 == n) with
      | some (_, s, _) => if seqNewer s wseq then b else { b with mirror := tput b.mirror n (wseq, nth lvl n) }
      | none => { b with mirror := tput b.mirror n (wseq, nth lvl n) }) b
  if seqNewer wseq b.lseq then
    let news := b.news.filter (fun s => seqNewer s wseq)
    ({ b with lseq := wseq, news := news } : Barrier).advance news.length
  else b

/-! ## Backward packets -/

/-- The next backward packet (R207): status, abort acknowledgements, Q0 results, the other results. -/
def Board.nextOut (b : Board) : Option Pkt :=
  match b.outS, b.outA, b.out0, b.outR with
  | p :: _, _, _, _ => some p
  | [], p :: _, _, _ => some p
  | [], [], p :: _, _ => some p
  | [], [], [], p :: _ => some p
  | [], [], [], [] => none

/-- Take the next backward packet. -/
def Board.popOut (b : Board) : Board :=
  match b.outS, b.outA, b.out0, b.outR with
  | _ :: r, _, _, _ => { b with outS := r }
  | [], _ :: r, _, _ => { b with outA := r }
  | [], [], _ :: r, _ => { b with out0 := r }
  | [], [], [], _ :: r => { b with outR := r }
  | [], [], [], [] => b

/-- The next backward packet, when the barrier is not parked. -/
def W.back (w : W) : Option Pkt := if w.dev.bar.parked then none else w.dev.bd.nextOut

/-- The next backward packet is taken. -/
def W.backTaken (w : W) : W := w.modBd Board.popOut

/-- The first status packet for which `f` answers, taken off the status list: pages are taken in the order sent. -/
def W.statusHead {α : Type} (w : W) (f : Payload → Option α) : Option (α × W) :=
  if w.dev.bar.parked then none
  else
    match w.dev.bd.outS with
    | p :: rest => (f p.body).map (fun a => (a, w.modBd (fun b => { b with outS := rest })))
    | [] => none

/-! ## Results (R90) -/

/-- The ticket that a result answers: issued, the same issue count, its tenant not being reset. -/
def W.answered (w : W) (p : Pkt) : Bool :=
  let k := w.dev.pool.tkt p.tkt
  decide (k.st = .issued) && k.board && k.icount == p.ic && (w.dev.ten k.ten).rst.isNone

/-- A result that no issued ticket awaits: discarded where the issue count differs or the ticket is quarantined; a ticket that is
already FREE, or another tenant's, is not retired again (R90, R91, R174). That of a ticket under reset is discarded, and as no
acknowledgement follows it, the ticket is retired (R88, log entry 47). -/
def W.lateResult (w : W) (p : Pkt) : W :=
  let k := w.dev.pool.tkt p.tkt
  if k.icount ≠ p.ic ∨ k.st = .quarantined ∨ 5 ≤ p.ten then w
  else if k.st = .free ∨ k.ten ≠ p.ten then w.retireFor p.tkt p.ten id
  else
  match (w.dev.ten k.ten).rst with
  | none => w
  | some r =>
    if decide (k.st = .issued) && r.await.contains (p.tkt, p.ic) then
      ((w.modTen k.ten (fun t => { t with rst := some { r with await := r.await.erase (p.tkt, p.ic) } })).freeTkt p.tkt).ask .finish
    else w

/-- A verdict of Table 14.4 is recorded: MISMATCH and SHORT, REPEAT and STALE are counted and raised (R285). -/
def W.verdict (w : W) (u n v : Nat) (owner : Nat) : W :=
  let w := w.modCk u (fun c => { c with
    verdict := v, vtkt := n, vseq := (c.vseq + 1) % 65536,
    mism := if v = 2 ∨ v = 6 then satAdd 16 c.mism 1 else c.mism, aliveRej := if v = 3 ∨ v = 4 then satAdd 16 c.aliveRej 1 else c.aliveRej })
  if v = 2 ∨ v = 6 then w.raise 0x50 owner { ten := owner, acc := 5, detail := u }
  else if v = 3 ∨ v = 4 then w.raise 0x51 owner { ten := owner, acc := 5, detail := u }
  else w

/-- The alive counter in received data; one that the data ended before is an open value. -/
def W.aliveOf (w : W) (c : CkCfg) (bs : List Byte) : Nat × W :=
  if bs.length < c.aoff + c.alwBytes then let d := w.draw; (d.1.toNat % 2 ^ c.alwBits, d.2)
  else (at' bs c.aoff c.alwBytes % 2 ^ c.alwBits, w)

/-- The alive procedure of a strip binding, its check agreed: the verdict, and an accepted counter kept (R286). -/
def W.stripAlive (w : W) (u : Nat) (c : CkCfg) (bs : List Byte) : W × Nat :=
  if c.alwBits = 0 then (w, 1)
  else
    let a := w.aliveOf c bs
    let r := a.1
    let x := a.2.dev.ckUnit u
    let take := fun (w : W) => w.modCk u (fun x => { x with seen := true, last := r })
    if !x.seen then (take a.2, 1)
    else
      let d := (r + 2 ^ c.alwBits - x.last % 2 ^ c.alwBits) % 2 ^ c.alwBits
      if d = 0 then (a.2, 3) else if 1 + c.gap < d then (a.2, 4) else (take a.2, 1)

/-- The strip of an ERX that has ended (R284, R285): the verdict, and the data its buffers hold. -/
def W.strip (w : W) (n u : Nat) (c : CkCfg) (bs : List Byte) (owner : Nat) : W × List Byte :=
  let w := w.ckUse u 1 0
  let failed := (w.dev.ckUnit u).failed
  if bs.length ≤ c.cb then (w.verdict u n (if failed then 2 else 6) owner, bs)
  else
    let data := bs.take (bs.length - c.cb)
    let tail := bs.drop (bs.length - c.cb)
    let rxv := leN (if c.order then tail.reverse else tail) % 2 ^ c.width
    let calc' := c.seeded c.init.toNat data
    let w := w.modCk u (fun x => { x with rxv := BitVec.ofNat 32 rxv, calcV := BitVec.ofNat 32 calc' })
    if failed || rxv != calc' then (w.verdict u n 2 owner, data)
    else let r := w.stripAlive u c data; (r.1.verdict u n r.2 owner, data)

/-- The bound unit's part in the end of an operation: the verdict, and the bytes for the buffers. An append whose check bytes
were not all placed gives no verdict. -/
def W.bindEnd (w : W) (n : Nat) (k : Ticket) : W × List Byte :=
  match k.op, k.bind with
  | some o, some (u, c, _) =>
    let owner := (w.cfg.eng ((o.addr.toNat - 0x60000) / 0x400)).owner
    if o.kind = .erx then w.strip n u c k.rx owner
    else if k.sent < o.dlen then (w, [])
    else ((w.modCk u (fun x => { x with calcV := BitVec.ofNat 32 (c.seeded c.init.toNat k.rx) })).verdict u n 5 owner, [])
  | _, _ => (w, k.rx)

/-- Complete an operation with the bytes it received in its buffers. -/
def W.finishOp (w : W) (n status step value : Nat) : W :=
  let k := w.dev.pool.tkt n
  let r := w.bindEnd n k
  let w := if r.2.isEmpty then r.1 else r.1.fillBufs k.bufs r.2
  ((w.complete n status step value).unhold).feedAll

/-- A word of a block operation has been answered: the next word goes, or the operation ends. -/
def W.blockResult (w : W) (n : Nat) (o : Op) (status step : Nat) (value : BitVec 32) : W :=
  let ok := decide (status = stOK) || decide (status = stOKC)
  let rd := decide (o.kind = .rdblk)
  let w := if ok then w.modPool (fun p => p.setTkt n { p.tkt n with sent := (p.tkt n).sent + 1, rx := (p.tkt n).rx ++ if rd then le 4 value.toNat else [] }) else w
  let k := w.dev.pool.tkt n
  if !ok then w.finishOp n status step (4 * k.sent)
  else if o.dlen ≤ 4 * k.sent then w.finishOp n status step (4 * k.sent)
  else w.sendOp n

/-- A RESULT packet received at the rack die: its news is folded and its operation completes; one that no ticket
answers to is discarded. -/
def W.resultPkt (w : W) : W :=
  match w.back with
  | none => w
  | some p =>
    match p.body with
    | .rdata bs =>
      let w := w.backTaken
      if w.answered p then w.modPool (fun q => q.setTkt p.tkt { q.tkt p.tkt with rx := (q.tkt p.tkt).rx ++ bs }) else w
    | .result status step value news view =>
      let w := w.backTaken
      if !w.answered p then w.lateResult p
      else
        let w := match news with
          | some (n, code, seq) => w.modBar (fun b => b.fold n code seq)
          | none => w
        let w := match view with
          | some (n, v) => w.modBar (fun b => { b with views := tput b.views n v, fsmap := if v.stage = 0 then b.fsmap &&& ~~~(BitVec.ofNat 32 (2 ^ n)) else b.fsmap ||| BitVec.ofNat 32 (2 ^ n) })
          | none => w
        match (w.dev.pool.tkt p.tkt).op with
        | some o =>
          if o.kind = .rdblk ∨ o.kind = .wrblk then w.blockResult p.tkt o status step value
          else w.finishOp p.tkt status step value.toNat
        | none => w
    | _ => w

/-! ## Tables for the board die (R220, R255) -/

/-- The mirror's level of each LEVEL_OUT lane. -/
def Dev.mirrorTbl (d : Dev) : Tbl Nat :=
  ((List.range 32).filter (fun n => (d.img.cfg.lane n).mode == 2)).map (fun n => (n, d.mirrorCode n))

/-- Send the board-side tables with a time chunk, the pair chunk of a parked unit, and the reaction union. -/
def W.sendTables (w : W) : W :=
  let w := w.control (.table { cfg := w.cfg, shadow := false, lseq := w.dev.bar.lseq, lvl := w.dev.mirrorTbl, stuck := w.dev.rst.stuckHold })
  let w := w.sendChunk
  let w := if w.dev.pai.parked then w.control (.pairChunk true []) else w
  let u := w.dev.flt.union
  if u = 0 then w else w.control (.lanecmd u 3 true)

/-- Start a board reset (Table 5.5): the reset packet is sent, and the loss that follows is the rack die's own order.
The board resets are counted and recorded (R105). -/
def W.orderBreset (w : W) : W :=
  let w := w.logT 0x15 [(6, 3, 2)]
  let w := (w.frozenReset none).modRst (fun r => { r with boardBusy := true, bnr := false, boardResets := satAdd 8 r.boardResets 1 })
  let w := w.modSup (fun s => { s with mode := 0 })
  (w.modBar (fun b => { b with ordered := true, parked := false })).control .breset

/-! ## Status pages -/

/-- The rack die takes page 0: the fail-safe map, banks, holdup state, PACE_B and lane states. A lost VB3 cuts an
identity read or write-back short (R334, R338). -/
def W.takePage0 (w : W) (fsmap : BitVec 32) (up low : BitVec 4) (ready : Bool) (holdV : Nat) (lost : Bool) (paceB : Nat)
    (views : Tbl LaneView) (misses : Nat) : W :=
  let fell := w.dev.sup.up.getLsbD 3 && !up.getLsbD 3
  let w := w.modBar (fun b => { b with fsmap := fsmap, views := views, misses := satAdd 16 b.misses misses })
  let w := w.modSup (fun s => { s with up := up, low := low, ready := ready, holdV := holdV })
  let w := w.modMon (fun m => { m with paceB := paceB, bSlow := m.bSlow && decide (2432 < paceB) })
  let w := if lost then (w.modBar (fun b => { b with aLoss := satAdd 8 b.aLoss 1 })).raiseU 0x38 else w
  if fell then w.idCut.wbStop else w

/-- The row STATUS_PAGE0. -/
def W.page0In (w : W) : W :=
  match w.statusHead (fun b => match b with
    | .page0 a c d e f g h i j => some (a, c, d, e, f, g, h, i, j)
    | _ => none) with
  | some ((a, c, d, e, f, g, h, i, j), w) => w.takePage0 a c d e f g h i j
  | none => w

/-- Page 1: the levels and WSEQ are folded, corrections counted. -/
def W.page1In (w : W) : W :=
  match w.statusHead (fun b => match b with
    | .page1 a c d => some (a, c, d)
    | _ => none) with
  | some ((lvl, wseq, n), w) => w.modBar (fun b => { b.foldAll lvl wseq with corrected := satAdd 16 b.corrected n })
  | none => w

/-- Page 2: the presence state. -/
def W.page2In (w : W) : W :=
  match w.statusHead (fun b => match b with
    | .page2 a c => some (a, c)
    | _ => none) with
  | some ((ps, prsn), w) => w.modBar (fun b => { b with pstate := ps, prsn := prsn })
  | none => w

/-- A board-side raise reaches the collector (R292). An attach has the tables sent, and a detach a board reset run (R254, R255). -/
def W.takeEvent (w : W) (e : BEvent) : W :=
  let w := if e.source = 0x0D then w.modMon (fun m => { m with bSlow := true }) else w
  let w := w.raise e.source e.dom { wire := e.wire, detail := e.detail, ten := if e.dom < 5 then e.dom else 7 }
  if e.source = 0x43 then (if w.dev.img.woven then w.sendTables else w)
  else if e.source = 0x44 then w.ask .board
  else w

/-- Page 3: the events in the order the board die decided them. -/
def W.page3In (w : W) : W :=
  match w.statusHead (fun b => match b with
    | .page3 es => some es
    | _ => none) with
  | some (es, w) => es.foldl W.takeEvent w
  | none => w

/-- Page 4: the identity summary. -/
def W.page4In (w : W) : W :=
  match w.statusHead (fun b => match b with
    | .page4 s => some s
    | _ => none) with
  | some (s, w) => w.takePage4 s
  | none => w

/-- Page 5: board-die decisions, inputs and edges join the order log (R347). -/
def W.page5In (w : W) : W :=
  match w.statusHead (fun b => match b with
    | .page5 es => some es
    | _ => none) with
  | some (es, w) => es.foldl W.logE w
  | none => w

/-- Pages 16–37: EEPROM bytes. -/
def W.eepromIn (w : W) : W :=
  match w.statusHead (fun b => match b with
    | .eeprom k bs => some (k, bs)
    | _ => none) with
  | some ((k, bs), w) => w.takePage k bs
  | none => w

/-- Page 6: the swap report ends the gap (R394, R395). -/
def W.swapIn (w : W) : W :=
  match w.statusHead (fun b => match b with
    | .page6 c => some c
    | _ => none) with
  | some (c, w) =>
    if c = w.cfg.imgcrc then w.gapEnd else w
  | none => w

/-- The holdup report (R76). -/
def W.holdupIn (w : W) : W :=
  match w.statusHead (fun b => match b with
    | .holdup r => some r
    | _ => none) with
  | some (r, w) => w.modBar (fun b => { b with holdSeen := some r })
  | none => w

/-- The board die's periodic pages (Table 11.5); none by period in STANDBY (R83). -/
def W.statusPages (w : W) : W :=
  if w.dev.bd.core && !w.dev.bd.holdup && w.dev.sup.mode == 0 then
    let w := w.page0
    let w := if w.dev.bd.tabs then w.page1 else w
    w.page2.page4
  else w

/-! ## The lamplighter (R222, R83) -/

/-- A REFRESH or KEEPALIVE packet of the mirror. -/
def W.lampPkt (w : W) (keep : Bool) : Pkt :=
  { body := .refresh keep (upto 32 w.dev.mirrorCode) w.dev.bar.lseq (fld w.now 10 16) w.dev.tim.qual }

/-- The lamplighter may run: its tables are accepted, the board die is alive and present. -/
def W.lampOn (w : W) : Bool := w.dev.bar.lamp && w.dev.bar.bAlive && w.dev.img.woven

/-- Every TREF in ACTIVE: one REFRESH is ready, replacing one still pending. -/
def W.lampTref (w : W) : W :=
  if w.lampOn && w.dev.sup.mode == 0 then
    let w := w.logK 0x07 [(6, 4, 1)]
    w.modArb (fun a => { a with lamp := some (w.lampPkt false) })
  else w

/-- Every 1 ms in STANDBY: one KEEPALIVE, which wakes the barrier (R83); the board die answers with its pages. -/
def W.keepalive (w : W) : W :=
  if w.lampOn && w.dev.sup.mode == 1 then
    let w := w.logK 0x07 [(6, 4, 1)]
    w.modArb (fun a => { a with lamp := some (w.lampPkt true) })
  else w

/-- Something waits in either direction, or a slot is unacknowledged. -/
def Dev.traffic (d : Dev) : Bool :=
  d.arb.flight.isSome || d.arb.lamp.isSome || !d.arb.ctl.isEmpty || d.arb.dbg.isSome || !d.arb.resend.isEmpty || !d.arb.urgent.isEmpty ||
  d.arb.fifos.any (fun f => !f.isEmpty) || d.bd.nextOut.isSome

/-- The packet lanes park in STANDBY (R83), or wake (R45). -/
def W.parkLanes (w : W) : W := if w.dev.sup.mode = 1 ∧ !w.dev.traffic then w.modBar (fun b => { b with parked := true }) else w
def W.wakeLanes (w : W) : W := if w.dev.bar.parked ∧ w.dev.traffic then w.modBar (fun b => { b with parked := false }) else w

/-! ## Direct channels (R213, R214) -/

/-- The unit's rack side transmits channel `ch`. -/
def Cfg.abChan (c : Cfg) (ch : Nat) : Bool := c.dirEn.getLsbD ch && !c.dirBA.getLsbD ch
def Cfg.baChan (c : Cfg) (ch : Nat) : Bool := c.dirEn.getLsbD ch && c.dirBA.getLsbD ch

def W.modDirA (w : W) (ch : Nat) (f : Direct → Direct) : W := w.modBar (fun b => { b with direct := tmod {} b.direct ch f })
def W.modDirB (w : W) (ch : Nat) (f : Direct → Direct) : W := w.modBd (fun b => { b with direct := tmod {} b.direct ch f })

/-- The input of a channel changes: a pulse with its level leaves. -/
def W.directEdge (w : W) (ch : Nat) (level : Bool) : W :=
  if w.cfg.abChan ch then w.modDirA ch (fun d => { d with inLevel := level, sent := some level })
  else if w.bcfg.baChan ch then
    (w.modDirB ch (fun d => { d with inLevel := level, sent := some level })).modLane ch (fun l => { l with pin := level })
  else w

/-- The refresh pulse of a channel carries its present level. -/
def W.directRefresh (w : W) (ch : Nat) : W :=
  if w.cfg.abChan ch then w.modDirA ch (fun d => { d with sent := some d.inLevel })
  else if w.bcfg.baChan ch then w.modDirB ch (fun d => { d with sent := some d.inLevel })
  else w

/-- A receiver after a valid pulse: it follows the input, or counts the pulse toward its return. -/
def Direct.pulse (d : Direct) (level hold : Bool) : Direct :=
  let v := if d.fs then min 2 (d.valid + 1) else d.valid
  if d.fs && (hold || decide (v < 2)) then { d with valid := v, inLevel := level }
  else { d with fs := false, stage2 := false, valid := v, inLevel := level, level := level }

/-- A valid pulse reaches the receiver of a channel. -/
def W.directPulse (w : W) (ch : Nat) (level : Bool) : W :=
  if w.bcfg.abLane ch && w.dev.bd.tabs then
    if w.dev.flt.fatal then w
    else
      let d := (tget {} w.dev.bd.direct ch : Direct).pulse level w.dev.bd.stuck
      let w := w.modDirB ch (fun _ => d)
      let up := w.dev.bd.bankUp ch
      if d.fs then w
      else w.modLane ch (fun l => { l with cause := l.cause &&& ~~~cDIRECT, stage := 0, armed := false, code := b2n d.level, hiz := false, kept := none,
                                           pin := if up && !w.dev.bd.parked then d.level else l.pin })
  else if w.cfg.baChan ch then w.modDirA ch (fun d => d.pulse level w.dev.rst.stuckHold)
  else w

/-- 3 µs without a pulse: the fail-safe value, and DIRECT_FS once per entry. -/
def W.directFs (w : W) (ch : Nat) : W :=
  if w.bcfg.abLane ch && w.dev.bd.tabs then
    let was := (tget {} w.dev.bd.direct ch : Direct).fs
    let f := w.bcfg.dirFs ch
    let w := w.modDirB ch (fun d => { d with fs := true, valid := 0, stage2 := d.stage2 && was, level := if was then d.level else f.directLevel d.level })
    if was then w
    else
      let up := w.dev.bd.bankUp ch
      let lv := (tget {} w.dev.bd.direct ch : Direct).level
      let w := w.modLane ch (fun l => { l with cause := l.cause ||| cDIRECT, stage := 1, hiz := f.fsv == 2,
                                               pin := if up && !w.dev.bd.parked && f.fsv != 2 then lv else l.pin })
      (w.bRaise 0x36 dUnit ch).page0
  else if w.cfg.baChan ch then
    let was := (tget {} w.dev.bar.direct ch : Direct).fs
    let f := w.cfg.dirFs ch
    let w := w.modDirA ch (fun d => { d with fs := true, valid := 0, stage2 := d.stage2 && was, level := if was then d.level else f.directLevel d.level })
    if was then w else w.raiseU 0x36 ch
  else w

/-- HOLD_T of a DA output expires on the time base (R225). -/
def W.holdDA (w : W) (ch : Nat) : W :=
  let f := w.cfg.dirFs ch
  if w.cfg.baChan ch && (tget {} w.dev.bar.direct ch : Direct).fs && f.fsv == 3 && f.holdT != 0 then
    (w.logK 0x07 [(6, 4, 7), (10, 16, ch)]).modDirA ch (fun d => { d with stage2 := true, level := ({ f with fsv := f.second } : FsCfg).directLevel d.level })
  else w

/-! ## Board-side inputs -/

/-- A conflict window ends after CWIN (R248). -/
def W.windowEnd (w : W) (n : Nat) : W :=
  if (w.dev.bd.lane n).wOpen then (w.bTimer 5 n).modLane n Lane.closeWindow else w

/-- A LIVE LEVEL_OUT lane's pin has differed from its drive for 2 µs: LANE_MISMATCH once per episode (R252). -/
def W.mismatch (w : W) (n : Nat) : W :=
  let l := w.dev.bd.lane n
  let c := w.bcfg.lane n
  if c.mode = 2 ∧ l.stage = 0 ∧ (l.code = 0 ∨ (l.code = 1 ∧ !c.od)) ∧ !l.mism ∧ w.dev.bd.tabs then
    (w.modLane n (fun l => { l with mism := true, pin := l.code == 0 })).bRaise 0x42 dUnit n
  else w

/-- A pin level held for the FILT time (R242); a lane in another mode that drives nothing shows it unfiltered. -/
def W.levelIn (w : W) (n : Nat) (level : Bool) : W :=
  if !w.dev.bd.core then w
  else if (w.bcfg.lane n).mode = 1 then
    if (w.dev.bd.lane n).pin = level then w
    else
      (w.modLane n (fun l => { l with pin := level, flt := level, evt := l.evt ||| (if level then 3 else 5) })).bLogT 0x11
        [(6, 5, n), (12, 8, b2n level)]
  else if (w.bcfg.lane n).mode = 2 ∧ w.dev.bd.tabs ∧ (w.dev.bd.lane n).code ≠ 2 then w
  else w.modLane n (fun l => { l with pin := level })

/-- A die's reference loop is measured (R43): its PACE fault is raised above 2560 and ends at or below 2432. -/
def W.pace (w : W) (d : Die) (p : Nat) : W :=
  match d with
  | .rack =>
    let was := w.dev.mon.aSlow
    let slow := decide (2560 < p) || (was && decide (2432 < p))
    let w := w.modMon (fun m => { m with pace := p, pacePeak := max m.pacePeak p, aSlow := slow })
    if slow && !was then w.raiseU 0x0C p else w
  | .board =>
    if !w.dev.bd.core then w
    else
      let was := w.dev.bd.paceSlow
      let slow := decide (2560 < p) || (was && decide (2432 < p))
      let w := w.modBd (fun b => { b with pace := p, paceSlow := slow })
      let w := if slow && !was then w.bRaise 0x0D dUnit p else w
      w.page0

/-- A common-mode transient (R60, R61, Table 3.12). -/
def W.cmt (w : W) (kv : Nat) : W :=
  let w := if 50 ≤ kv then w.modMon (fun m => { m with cmtSeen := satAdd 16 m.cmtSeen 1 }) else w
  if 300 < kv then (w.modMon (fun m => { m with cmtOver := satAdd 16 m.cmtOver 1 })).raiseU 0x3E kv else w

/-! ## BAR registers (Table 11.13) -/

/-- A named lane is in fail-safe with a cause other than FORCE present (R229, log entry 42). -/
def W.returnBlocked (w : W) (mask : BitVec 32) : Bool :=
  (List.range 32).any (fun n =>
    let v : LaneView := tget {} w.dev.bar.views n
    mask.getLsbD n && v.stage != 0 && v.cause &&& ~~~cFORCE != 0)

/-- Every named lane is the tenant's (R229, R260). -/
def W.ownsAll (w : W) (t : Nat) (mask : BitVec 32) : Bool := t == 4 || (List.range 32).all (fun n => !mask.getLsbD n || w.cfg.ownsLane t n)

/-- A LANECMD of a write: `tk` is the ticket that completes when the board die accepts it. -/
def W.laneCmdFor (w : W) (mask : BitVec 32) (act : Nat) (t : Nat) (tk : Option Nat) : W × Option Nat :=
  if !w.dev.bar.bAlive then (w, some stABORTED)
  else
    match tk with
    | none => (w.control (.lanecmd mask act false), some stOK)
    | some n =>
      let w := w.modPool (fun p => p.setTkt n { p.tkt n with board := true })
      (w.modArb (fun a => { a with ctl := a.ctl ++ [{ body := .lanecmd mask act false, tkt := n, ic := (w.dev.pool.tkt n).icount, ten := t }] }), none)

/-- A write to BAR_RETURN (R229); `none` while it waits for the board die. -/
def W.barReturn (w : W) (t : Nat) (mask : BitVec 32) (tk : Option Nat) : W × Option Nat :=
  if !w.ownsAll t mask || w.returnBlocked mask then (w, some stDENIED) else w.laneCmdFor mask 0 t tk

/-- A write to BAR_FORCE (R230). -/
def W.barForce (w : W) (t : Nat) (mask : BitVec 32) (tk : Option Nat) : W × Option Nat :=
  if t ≠ 4 then (w, some stDENIED) else w.laneCmdFor mask 1 t tk

/-- BAR_LANEn. -/
def W.barLane (w : W) (n : Nat) : Nat :=
  let v : LaneView := tget {} w.dev.bar.views n
  let f := w.cfg.lfs n
  packN [(0, 7, v.cause.toNat), (8, 1, b2n v.armed), (9, 2, v.stage), (11, 1, b2n f.auto), (12, 2, f.fsv), (14, 2, f.second), (16, 1, b2n v.level)]

/-- BAR_DIRECT: channel `n`'s output in fail-safe, direction and enable. -/
def W.barDirect (w : W) : Nat :=
  let fs := packN (upto 8 (fun n => (n, 1, b2n (if w.cfg.dirBA.getLsbD n then (tget {} w.dev.bar.direct n : Direct).fs
    else w.cfg.dirEn.getLsbD n && (tget {} w.dev.bar.views n : LaneView).cause.getLsbD 6))))
  packN [(0, 8, fs), (8, 8, w.cfg.dirBA.toNat), (16, 8, w.cfg.dirEn.toNat)]

/-- A read in the BAR block. -/
def W.barRead (w : W) (off : Nat) : W × Nat :=
  let b := w.dev.bar
  if off = 0 then (w, packN [(0, 11, w.cfg.tref), (12, 4, w.cfg.nmiss)])
  else if off = 4 then (w, packN [(0, 1, b2n (w.lampOn && w.dev.sup.mode != 2)), (1, 1, b2n b.beaconIn), (2, 1, b2n b.bdown), (16, 16, b.lseq)])
  else if off = 8 then (w, b.fsmap.toNat)
  else if off = 0x14 then (w, w.barDirect)
  else if off = 0x18 then (w.modBar (fun b => { b with fwdRej := 0, bwdRej := 0 }), packN [(0, 16, b.fwdRej), (16, 16, b.bwdRej)])
  else if off = 0x1C then (w.modBar (fun b => { b with misses := 0, corrected := 0 }), packN [(0, 16, b.misses), (16, 16, b.corrected)])
  else if off = 0x20 then (w.modBar (fun b => { b with bLoss := 0, aLoss := 0 }), packN [(0, 8, b.bLoss), (8, 8, b.aLoss)])
  else if 0x100 ≤ off ∧ off < 0x180 then (w, w.barLane ((off - 0x100) / 4))
  else (w, 0)

/-- A write in the BAR block (R236). -/
def W.barWrite (w : W) (t off v : Nat) (tk : Option Nat) : W × Option Nat :=
  if off = 0xC then w.barReturn t (BitVec.ofNat 32 v) tk
  else if off = 0x10 then w.barForce t (BitVec.ofNat 32 v) tk
  else (w, some stOK)

end Sys2Proof.Machine
end

