-- ==== Sys2Proof/Machine/Ring.lean ====
section
/-! DEFINITION. The Euryn ring (chapter 7): link states, forwarding and reflection, and roll call. -/

namespace Sys2Proof.Machine

/-! ## Who the unit is on the ring -/

/-- The unit acts as head: its strap, unless a head with a lower SERIAL was met (R140). -/
def Dev.isHead (d : Dev) : Bool := d.pins.head && !d.ring.demoted

/-- The sticky wish: the ADDRESS entry of the unit's own SERIAL, 0 when it is not listed. -/
def Dev.wish (d : Dev) : Nat :=
  match d.img.cfg.addrs.find? (fun e => e.1 == d.fus.serial) with
  | some e => e.2
  | none => 0

/-- A ring control frame of the unit's own: DST 63, GEN 0, TEN 7, its SEQ an open value. -/
def W.rcFrame (w : W) (type : Nat) (pay : List Byte) : List Byte × W :=
  let d := w.draw
  let f : Frame := { dst := 63, urg := false, rfl' := false, orig := w.dev.ring.addr, gen := 0, ten := 7, type := type, seq := d.1.toNat % 65536,
                     len := pay.length, hops := 0, payload := pay }
  (f.bytes, d.2)

/-- A unit that is not the head sends an RC_REQUEST. -/
def W.rcRequest (w : W) : W :=
  if w.dev.isHead then w
  else
    let f := w.rcFrame 0x10 (le 8 w.dev.fus.serial.toNat)
    f.2.sendBroadcast f.1

/-! ## Forwarding -/

/-- A forwarded frame reaches an output that is not in RUN (R131): unicast and RC frames go back once with RFL set, the
other broadcasts are dropped. -/
def W.noOutput (w : W) (inPort : RPort) (f : Frame) : W :=
  let rc := f.type == 0x11 || f.type == 0x12
  if f.dst = 63 ∧ !rc then w
  else if f.rfl' || !w.running inPort then w.modRing (fun r => { r with dropN := satAdd 8 r.dropN 1 })
  else w.putOut inPort { bytes := { f with rfl' := true }.bytes, own := false, urg := f.urg }

/-- Pass a frame on through the other port, with one more hop and a new HCRC. -/
def W.forward (w : W) (inPort : RPort) (f : Frame) (fcrc : List Byte) : W :=
  let f := { f with hops := min 255 (f.hops + 1) }
  let out := otherPort inPort
  if w.dev.log.lstate = 4 then w
  else if w.running out then w.putOut out { bytes := f.bytes.take (10 + f.len) ++ fcrc, own := false, urg := f.urg }
  else w.noOutput inPort f

/-! ## Link states (Table 7.2) -/

/-- The frames that waited at an output which has left RUN: a forwarded one goes back or is dropped, one of the unit's own
takes the other port or is dropped. -/
def W.rerouteAll (w : W) (p : RPort) (fwd own : List OutFrame) : W :=
  let w := fwd.foldl (fun w o => w.noOutput (otherPort p) (readFrame o.bytes)) w
  own.foldl (fun w o =>
    if w.running (otherPort p) then w.putOut (otherPort p) o
    else if (readFrame o.bytes).dst = 63 then w
    else w.modRing (fun r => { r with dropN := satAdd 8 r.dropN 1 })) w

/-- A trigger of R136 at the head: the hold-off starts, or a roll call under way is followed by another; triggers during the
hold-off belong to its burst. -/
def W.rollTrigger (w : W) : W :=
  let r := w.dev.ring
  if !w.dev.isHead || r.holdoff then w
  else if r.busy then w.modRing (fun r => { r with again := true })
  else w.modRing (fun r => { r with holdoff := true, rollT0 := w.mono })

/-- One of the unit's ports has entered or left RUN. -/
def W.linkChange (w : W) : W := if w.dev.isHead then w.rollTrigger else w.rcRequest

/-- A port takes a new state. Leaving RUN raises UP_LINK_DOWN or DN_LINK_DOWN (R125), loses the frame in transmission, and
sends the waiting ones another way. -/
def W.setPort (w : W) (p : RPort) (st : Nat) : W :=
  let r := w.dev.ring.port p
  let w := w.modPort p (fun r => { r with st := st, credit := if st = 4 then r.credit else 0 })
  if r.st = 4 ∧ st ≠ 4 then
    let w := w.modPort p (fun r => { r with cur := none, fwdQ := [], ownQ := [] })
    let w := w.raiseU (if p = .up then 0x10 else 0x11)
    (w.rerouteAll p r.fwdQ r.ownQ).linkChange
  else w

/-- Ports run: the unit is not in hard reset, not in DORMANT, not in REPLAY or STOPPED, and no boundary-scan instruction covers its pins. -/
def W.portsOn (w : W) : Bool :=
  !w.dev.rst.held && w.dev.rst.vdda && w.dev.sup.mode != 2 && decide (w.dev.log.lstate < 4) && w.dev.fus.inst != 0x00 && w.dev.fus.inst != 0x03 && w.dev.fus.inst != 0x04

/-- A port leaves OFF when it may run and is enabled, and goes OFF otherwise. -/
def W.evalPort (w : W) (p : RPort) : W :=
  let r := w.dev.ring.port p
  let on := w.portsOn && r.en
  if on && r.st == 0 then w.setPort p 1
  else if !on && r.st != 0 then w.setPort p 0
  else w

def W.evalPorts (w : W) : W := (w.evalPort .up).evalPort .dn

/-- SILENT for 6.4 µs: STARTED. -/
def W.silentEnd (w : W) (p : RPort) : W := if (w.dev.ring.port p).st = 1 then w.setPort p 2 else w

/-- 12.8 µs without a NULL in STARTED, or without an FCT in CONNECTING: SILENT. -/
def W.startTimeout (w : W) (p : RPort) : W :=
  let s := (w.dev.ring.port p).st
  if s = 2 ∨ s = 3 then w.setPort p 1 else w

/-- A NULL in STARTED: CONNECTING. -/
def W.nullIn (w : W) (p : RPort) : W := if (w.dev.ring.port p).st = 2 then w.setPort p 3 else w

/-- More than 16 link errors on one port within 1 s raise RING_LINK_ERRORS (R143). -/
def W.countLinkErr (w : W) (p : RPort) : W :=
  let t := w.mono
  let l := (t :: (w.dev.ring.port p).errT).filter (fun x => decide (t < x + 1000000000))
  if 16 < l.length then (w.modPort p (fun r => { r with errT := [] })).raiseU 0x17 (portNo p)
  else w.modPort p (fun r => { r with errT := l })

/-- A parity, escape or credit error: counted, and SILENT. -/
def W.linkErr (w : W) (p : RPort) (_ : LinkErr) : W :=
  let s := (w.dev.ring.port p).st
  if s < 2 then w
  else ((w.modPort p (fun r => { r with err := satAdd 8 r.err 1 })).countLinkErr p).setPort p 1

/-- A disconnect: counted, and SILENT. -/
def W.disconnect (w : W) (p : RPort) : W :=
  let s := (w.dev.ring.port p).st
  if s < 2 then w
  else ((w.modPort p (fun r => { r with disc := satAdd 8 r.disc 1 })).countLinkErr p).setPort p 1

/-- An FCT: the first takes CONNECTING to RUN, each grants eight characters, and one that would grant more than 56 is a
credit error. -/
def W.fctIn (w : W) (p : RPort) : W :=
  let r := w.dev.ring.port p
  if r.st = 3 then
    (((w.modPort p (fun r => { r with st := 4, credit := 8 })).linkChange).pumpLost).flush p
  else if r.st = 4 then
    if 56 < r.credit + 8 then w.linkErr p .credit
    else (w.modPort p (fun r => { r with credit := r.credit + 8 })).flush p
  else w

/-! ## Roll call -/

/-- The unit's own record. -/
def Dev.sweepRec (d : Dev) : SweepRec where
  serial := d.fus.serial
  cur := d.ring.addr
  wish := d.wish
  flags := BitVec.ofNat 8 (packN [(1, 1, b2n (!d.img.woven)), (2, 1, b2n d.flt.fatal), (3, 1, b2n d.isHead)])

/-- A record's 12 bytes (Table 7.6). -/
def SweepRec.bytes (r : SweepRec) : List Byte := le 8 r.serial.toNat ++ [BitVec.ofNat 8 r.cur, BitVec.ofNat 8 r.wish, r.flags, 0]

/-- An RC_SWEEP payload. -/
def sweepPayload (rollNo : Nat) (overflow up : Bool) (rs : List SweepRec) : List Byte :=
  le 2 rollNo ++ [BitVec.ofNat 8 (packN [(0, 1, b2n overflow), (1, 1, b2n up)]), BitVec.ofNat 8 rs.length] ++ rs.flatMap SweepRec.bytes

/-- The records of an RC_SWEEP payload. -/
def sweepRecs (pay : List Byte) : List SweepRec :=
  upto (min 62 (at' pay 3 1)) (fun k =>
    let b := (pay.drop (4 + 12 * k)).take 12
    { serial := BitVec.ofNat 64 (at' b 0 8), cur := at' b 8 1, wish := at' b 9 1, flags := BitVec.ofNat 8 (at' b 10 1) })

/-- Start a roll call: one sweep copy out of each port in RUN (R136). With a port not in RUN its string is empty. -/
def W.startRoll (w : W) : W :=
  if !w.dev.isHead then w
  else
    let no := (w.dev.ring.headNo + 1) % 65536
    let w := w.modRing (fun r => { r with holdoff := false, again := false, busy := true, headNo := no, rolls := satAdd 16 r.rolls 1,
                                          assignOut := 0, sweepDn := none, sweepUp := none })
    let one := fun (w : W) (p : RPort) (up : Bool) =>
      let f := w.rcFrame 0x11 (sweepPayload no false up [w.dev.sweepRec])
      f.2.sendPort p f.1
    one (one w .dn false) .up true

/-- The addresses of the sticky pass, in order: `none` where the record has none yet; with the wishes that clashed. -/
def stickyPass : List Nat → List SweepRec → List (Option Nat) × List Nat × List Nat
  | free, [] => ([], free, [])
  | free, r :: rs =>
    if r.flags.getLsbD 0 || r.wish = 0 then
      let x := stickyPass free rs
      (none :: x.1, x.2.1, x.2.2)
    else if free.contains r.wish then
      let x := stickyPass (free.erase r.wish) rs
      (some r.wish :: x.1, x.2.1, x.2.2)
    else
      let x := stickyPass free rs
      (none :: x.1, x.2.1, r.wish :: x.2.2)

/-- The keep pass. -/
def keepPass : List Nat → List (SweepRec × Option Nat) → List (Option Nat) × List Nat
  | free, [] => ([], free)
  | free, (r, a) :: rs =>
    if a.isNone && !r.flags.getLsbD 0 && r.cur != 0 && free.contains r.cur then
      let x := keepPass (free.erase r.cur) rs
      (some r.cur :: x.1, x.2)
    else
      let x := keepPass free rs
      (a :: x.1, x.2)

/-- The fill pass, with FULL. -/
def fillPass : List Nat → List (SweepRec × Option Nat) → List Nat × Bool
  | _, [] => ([], false)
  | free, (r, a) :: rs =>
    match a with
    | some x => let y := fillPass free rs; (x :: y.1, y.2)
    | none =>
      if r.flags.getLsbD 0 then let y := fillPass free rs; (0 :: y.1, y.2)
      else
        match free with
        | [] => let y := fillPass [] rs; (0 :: y.1, true)
        | f :: fr => let y := fillPass fr rs; (f :: y.1, y.2)

/-- The assignment procedure of "Roll call" (R137): addresses in order, FULL, and the wishes that clashed. -/
def assignAddrs (rs : List SweepRec) : List Nat × Bool × List Nat :=
  let s := stickyPass (upto 62 (· + 1)) rs
  let k := keepPass s.2.1 (rs.zip s.1)
  let f := fillPass k.2 (rs.zip k.1)
  (f.1, f.2, s.2.2)

/-- An RC_ASSIGN payload (Table 7.7). -/
def assignPayload (rollNo : Nat) (split up full : Bool) (headIdx : Nat) (es : List (BitVec 64 × Nat)) : List Byte :=
  le 2 rollNo ++ [BitVec.ofNat 8 (packN [(0, 1, b2n split), (1, 1, b2n up), (2, 1, b2n full)]), BitVec.ofNat 8 es.length,
    BitVec.ofNat 8 headIdx, 0] ++ es.flatMap (fun e => le 8 e.1.toNat ++ [BitVec.ofNat 8 e.2])

/-- A new address: the partner is looked up, and LOST completions that waited for an address leave. -/
def W.setAddr (w : W) (a : Nat) : W := ((w.modRing (fun r => { r with addr := a })).learnPartner).pumpLost

/-- The roll call ends: RING_SPLIT when it ended in SPLIT after a CLOSED one or with other strings (R142); a trigger that came
meanwhile starts the next. -/
def W.endRoll (w : W) : W :=
  let r := w.dev.ring
  let strings := r.view.map (·.1)
  let new : Bool := match r.lastStrings with
    | none => false
    | some (s, l) => r.split && (!s || l != strings)
  let w := w.modRing (fun r => { r with busy := false, assignOut := 0, lastStrings := some (r.split, strings),
                                        lastUs := min 65535 ((w.mono - r.rollT0) / 1000) })
  let w := if new then w.raiseU 0x12 else w
  if w.dev.ring.again then (w.modRing (fun r => { r with rollT0 := w.mono })).startRoll else w

/-- Both strings are known: assign, take the head's own address and view, and send RC_ASSIGN. -/
def W.assign (w : W) (split overflow : Bool) (down up : List SweepRec) : W :=
  let rs := w.dev.sweepRec :: (down ++ up)
  let x := assignAddrs rs
  let w := x.2.2.foldl (fun w a => w.raiseU 0x15 a) w
  let w := if x.2.1 || overflow then w.raiseU 0x16 (packN [(0, 1, b2n x.2.1), (1, 1, b2n overflow)]) else w
  let es := (rs.map (·.serial)).zip x.1
  let line := (es.drop (1 + down.length)).reverse ++ es.take (1 + down.length)
  let no := w.dev.ring.headNo
  let outs := (if w.running .dn then 1 else 0) + (if w.running .up then 2 else 0)
  let w := w.modRing (fun r => { r with split := split, view := line, rollNo := no, noaddr := decide (x.1.headD 0 = 0),
                                        assignOut := outs, sweepDn := none, sweepUp := none })
  let w := w.setAddr (x.1.headD 0)
  let one := fun (w : W) (p : RPort) (isUp : Bool) =>
    let f := w.rcFrame 0x12 (assignPayload no split isUp x.2.1 up.length line)
    f.2.sendPort p f.1
  let w := one (one w .dn false) .up true
  if outs = 0 then w.endRoll else w

/-- With both copies back, or the port of a missing copy not in RUN, the strings are complete. -/
def W.checkSweeps (w : W) : W :=
  let r := w.dev.ring
  let dn := if w.running .dn then r.sweepDn else some ([], false, false)
  let up := if w.running .up then r.sweepUp else some ([], false, false)
  match dn, up with
  | some (d, o, _), some (u, o', _) => if r.busy && r.assignOut == 0 then w.assign true (o || o') d u else w
  | _, _ => w

/-- A roll call with no port in RUN ends at once, the head alone on its line. -/
def W.rollNow (w : W) : W := w.startRoll.checkSweeps

/-- The hold-off of 20 µs ends. -/
def W.holdoffEnd (w : W) : W := if w.dev.ring.holdoff then w.rollNow else w

/-- A roll call at once: the head's weave, 10 ms without an image, or ROLL (R136). -/
def W.rollStart (w : W) : W :=
  if !w.dev.isHead then w
  else if w.dev.ring.busy then w.modRing (fun r => { r with again := true })
  else if w.dev.ring.holdoff then w
  else (w.modRing (fun r => { r with rollT0 := w.mono })).rollNow

/-- A sweep copy has not returned within 100 µs: a new roll call. A copy of RC_ASSIGN that does not return ends the roll call
(log entry 46). -/
def W.sweepLost (w : W) : W :=
  let r := w.dev.ring
  if !r.busy then w
  else if r.assignOut = 0 then w.rollNow
  else w.endRoll

/-- Two heads (R140): the one with the lower SERIAL goes on. -/
def W.twoHeads (w : W) (other : BitVec 64) : W :=
  let w := w.raiseU 0x13 (other.toNat % 2 ^ 32)
  if other.toNat < w.dev.fus.serial.toNat then
    w.modRing (fun r => { r with demoted := true, busy := false, holdoff := false, again := false, assignOut := 0, sweepDn := none, sweepUp := none })
  else w

/-- The head's own sweep copy is back. -/
def W.sweepBack (w : W) (p : RPort) (f : Frame) : W :=
  let rs := (sweepRecs f.payload).drop 1
  let flags := at' f.payload 2 1
  let w := match rs.find? (fun r => r.flags.getLsbD 3) with
    | some r => w.twoHeads r.serial
    | none => w
  let r := w.dev.ring
  if !w.dev.isHead || !r.busy || r.assignOut != 0 || at' f.payload 0 2 != r.headNo then w
  else if f.rfl' then
    let x : List SweepRec × Bool × Bool := (rs, tbit flags 0, false)
    (w.modRing (fun r => if tbit flags 1 then { r with sweepUp := some x } else { r with sweepDn := some x })).checkSweeps
  else if !tbit flags 1 && p == .up then w.assign false (tbit flags 0) rs []
  else w

/-- RC_SWEEP passes the unit. -/
def W.sweepIn (w : W) (p : RPort) (f : Frame) : W :=
  let rs := sweepRecs f.payload
  let first := rs.headD { serial := 0, cur := 0, wish := 0, flags := 0 }
  if w.dev.isHead ∧ first.serial = w.dev.fus.serial then w.sweepBack p f
  else
    let w := if w.dev.isHead && first.flags.getLsbD 3 then w.twoHeads first.serial else w
    let flags := at' f.payload 2 1
    let room := decide (rs.length < 62)
    let rs' := if !f.rfl' && room then rs ++ [w.dev.sweepRec] else rs
    let pay := sweepPayload (at' f.payload 0 2) (tbit flags 0 || (!f.rfl' && !room)) (tbit flags 1) rs'
    let g := { f with payload := pay, len := pay.length }
    w.forward p g (le 4 g.fcrc)

/-- The entries of an RC_ASSIGN. -/
def assignEnts (pay : List Byte) : List (BitVec 64 × Nat) :=
  upto (min 62 (at' pay 3 1)) (fun k => (BitVec.ofNat 64 (at' pay (6 + 9 * k) 8), at' pay (14 + 9 * k) 1))

/-- A unit takes its address and ring view from RC_ASSIGN (R137, R142). -/
def W.takeAssign (w : W) (f : Frame) : W :=
  let es := assignEnts f.payload
  let flags := at' f.payload 2 1
  let mine := es.find? (fun e => e.1 == w.dev.fus.serial)
  let a := match mine with
    | some e => e.2
    | none => 0
  let w := w.modRing (fun r => { r with split := tbit flags 0, view := es, noHead := false, rollNo := at' f.payload 0 2,
                                        rolls := satAdd 16 r.rolls 1, noaddr := decide (a = 0) && (mine.isNone || tbit flags 2) })
  w.setAddr a

/-- RC_ASSIGN passes the unit, or returns to the head that sent it. -/
def W.assignIn (w : W) (p : RPort) (f : Frame) : W :=
  let es := assignEnts f.payload
  let own := (es.getD (at' f.payload 4 1) (0, 0)).1 == w.dev.fus.serial && decide (at' f.payload 4 1 < es.length)
  if w.dev.isHead && own then
    let r := w.dev.ring
    if r.busy && r.assignOut != 0 && at' f.payload 0 2 == r.headNo then
      let left := r.assignOut &&& (3 - (if tbit (at' f.payload 2 1) 1 then 2 else 1))
      let w := w.modRing (fun r => { r with assignOut := left })
      if left = 0 then w.endRoll else w
    else w
  else (w.takeAssign f).forward p f (le 4 f.fcrc)

/-- 50 ms without an RC_ASSIGN (R141). -/
def W.ringNoHead (w : W) : W :=
  let r := w.dev.ring
  if w.dev.isHead || r.noHead || !(w.running .up || w.running .dn) then w
  else
    let w := (w.modRing (fun r => { r with noHead := true, split := true, view := [] })).raiseU 0x14
    if w.dev.wish = 0 then w else w.setAddr w.dev.wish

/-! ## CHN registers (Table 7.9) -/

/-- A write to CHN_CTRL (R144, R146): the port enables, RATE and ROLL. -/
def W.chnCtrl (w : W) (t v : Nat) : W × Nat :=
  if t ≠ 4 ∨ fld v 2 2 = 3 then (w, stDENIED)
  else
    let w := (w.modPort .up (fun r => { r with en := tbit v 0 })).modPort .dn (fun r => { r with en := tbit v 1 })
    let w := (w.modRing (fun r => { r with rate := fld v 2 2 })).evalPorts
    (if tbit v 4 then (if w.dev.isHead then w.rollStart else w.rcRequest) else w, stOK)

/-- A read in the CHN block. -/
def W.chnRead (w : W) (off : Nat) : W × Nat :=
  let r := w.dev.ring
  let wish := w.dev.wish
  if off = 0 then (w, packN [(0, 1, b2n r.up.en), (1, 1, b2n r.dn.en), (2, 2, r.rate)])
  else if off = 4 then
    (w, packN [(0, 3, r.up.st), (3, 3, r.dn.st), (6, 1, b2n r.split), (7, 1, b2n w.dev.isHead), (8, 1, b2n r.busy), (9, 1, b2n r.noaddr),
               (10, 6, if w.ringPos < r.view.length then w.ringPos else 0), (16, 6, r.view.length)])
  else if off = 8 then (w, packN [(0, 6, r.addr), (6, 1, b2n (wish != 0 && r.addr == wish)), (8, 6, wish), (16, 16, r.rollNo)])
  else if off = 0xC then
    ((w.modPort .up (fun r => { r with err := 0, disc := 0 })).modPort .dn (fun r => { r with err := 0, disc := 0 }),
     packN [(0, 8, r.up.err), (8, 8, r.dn.err), (16, 8, r.up.disc), (24, 8, r.dn.disc)])
  else if off = 0x10 then
    (w.modRing (fun r => { r with dropH := 0, dropF := 0, dropN := 0, dropHops := 0 }),
     packN [(0, 8, r.dropH), (8, 8, r.dropF), (16, 8, r.dropN), (24, 8, r.dropHops)])
  else if off = 0x14 then (w.modRing (fun r => { r with preempts := 0, frags := 0 }), packN [(0, 16, r.preempts), (16, 16, r.frags)])
  else if off = 0x18 then (w.modRing (fun r => { r with rolls := 0 }), packN [(0, 16, r.rolls), (16, 16, r.lastUs)])
  else (w, 0)

/-- A write in the CHN block. -/
def W.chnWrite (w : W) (t off v : Nat) : W × Nat :=
  if off = 0 then w.chnCtrl t v else if t = 4 then (w, stOK) else (w, stDENIED)

end Sys2Proof.Machine
end

