-- ==== Sys2Proof/Machine/Weave.lean ====
section
/-! DEFINITION. Weaving (chapter 20): image banks, the first, cold and hot weave, and the IMG registers. -/

namespace Sys2Proof.Machine

/-! ## Banks -/

/-- The bytes of image bank `k` as a read finds them: staged lines before home lines. -/
def W.bankBytes (w : W) (k : Nat) : List Byte :=
  let lo := k * 512
  let staged := (w.dev.sto.own ++ w.dev.sto.log ++ w.dev.sto.win).filter (fun l => decide (lo ≤ l.line) && decide (l.line < lo + 512))
  staged.foldl (fun bs l => bs.take (64 * (l.line - lo)) ++ l.data ++ bs.drop (64 * (l.line - lo) + 64)) (w.home (k * 0x8000) 0x8000)

/-- The store line of a bank's record. -/
def bankRecLine (k : Nat) : Nat := k * 512 + 511

/-- The bank record's BGEN, when the record is valid. -/
def W.bankRec (w : W) (k : Nat) : Option Nat :=
  let l := w.line (bankRecLine k)
  if l.take 4 == mark4 0x56 0x4E 0x42 0x4B && lcrcOk l then some (at' l 4 4) else none

/-- The active bank by the records (R386): the valid one with the higher BGEN. -/
def W.activeBank (w : W) : Option Nat :=
  match w.bankRec 0, w.bankRec 1 with
  | some a, some b => some (if a < b then 1 else 0)
  | some _, none => some 0
  | none, some _ => some 1
  | none, none => none

/-- The fuse settings for a weave. The tag is never checked in BLANK and RETURN. -/
def Dev.weaveAuth (d : Dev) : WeaveAuth where
  auth := d.fus.prot.getLsbD 0 && (d.fus.lcs == 1 || d.fus.lcs == 2)
  keyOk := d.fus.keyOk
  key := d.fus.key
  serial := d.fus.serial

/-- Activation: the record of bank `k` is committed with a BGEN one above the active bank's. -/
def W.activate (w : W) (k : Nat) (img : List Byte) (c : Cfg) : W :=
  let g := (w.dev.img.bgen + 1) % 2 ^ 32
  let rec' := lcrcLine (mark4 0x56 0x4E 0x42 0x4B ++ le 4 g ++ (img.drop 8).take 4 ++ le 4 c.imgcrc.toNat ++ List.replicate 44 0)
  (w.stageOwn (bankRecLine k) rec').modImg (fun i => { i with bank := k, bgen := g })

/-! ## Taking the settings -/

/-- Both arbiters restart with a new image (R192, R200, Table 20.5). -/
def W.arbRestart (w : W) : W :=
  let c := w.cfg
  let w := w.modArb (fun a => { a.reload c with
    prio := upto 20 (fun i => fld c.arb.level (2 * i) 2), pmode := c.arb.pmode, pos := 0, q0used := [], makeup := [],
    bgcred := upto 5 (fun t => nth c.arb.bgw t) })
  (List.range 5).foldl (fun w t => w.modTen t (fun x => { x with capSpent := false })) w

/-- At each weave every check unit loads INIT and clears its contexts (R288, R290). -/
def W.unitsRestart (w : W) : W :=
  { w with dev.cks := upto 4 (fun k => { mism := (w.dev.ckUnit k).mism, aliveRej := (w.dev.ckUnit k).aliveRej, run := (w.cfg.ck k).init }) }

/-- The rack-side settings of an image take effect. A change of TPER or TMPER discards the reference candidates (chapter 16,
Edges). -/
def W.takeSettings (w : W) (c : Cfg) : W :=
  let old := w.cfg
  let w := w.modImg (fun i => { i with cfg := c })
  let w := w.modHpt (fun h => { h with shortTen := c.shortTen, tmask := c.tenmask })
  let w := w.modSup (fun s => { s with warnA := c.vwarnA, warnB := c.vwarnB, banknom := c.banknom })
  let w := if old.time.tper = c.time.tper ∧ old.time.tmper = c.time.tmper then w
    else w.modTim (fun t => { t with candTpi := none, candTime := none })
  w.arbRestart.unitsRestart

/-- SEEN of every stream is cleared (R165). -/
def Tenant.unseen (t : Tenant) : Tenant := { t with streams := t.streams.map (fun (e : Nat × StreamSt) => (e.1, { e.2 with seen := false })) }

/-- Reservation debt at a hot weave (R184): a tenant whose use lies above its new effective minimum enters it. -/
def W.enterDebt (w : W) (t : Nat) : W :=
  let x := w.dev.ten t
  let td := decide (w.cfg.tktMin t < x.tktUse)
  let bd := decide (w.cfg.bufMin t < x.bufUse)
  let new := (td && !x.tdebt, bd && !x.bdebt)
  let w := (w.modTen t (fun x => { x with tdebt := x.tdebt || td, bdebt := x.bdebt || bd })).settle t
  let w := if new.1 then w.poolFault t 0x25 0 0 0 7 else w
  if new.2 then w.poolFault t 0x25 0 0 0 7 else w

/-! ## Step 9 of Table 5.2 -/

/-- The board die is alive to the rack die. -/
def W.boardUp (w : W) : Bool := w.dev.bar.bAlive && w.dev.bd.core

/-- Steps 8 and 9 of Table 5.2 with the settings `c`: the tables reach a board die that is alive and present, the lanes go
live (`live`) or stay in fail-safe, the START line is written before any other entry, and RESTART or RSTN_STUCK is raised
(R94, R96–R101, R105, R349). A unit of a pair starts in LISTEN with its lanes parked, and one that is not the head sends its RC_REQUEST
("Roll call"). -/
def W.steps89 (w : W) (c : Cfg) (live : Bool) : W :=
  let w := w.takeSettings c
  let w := (List.range 5).foldl (fun w t => w.modTen t (fun x => { x with gen := (c.ten t).gen, streams := [] })) w
  let p := c.pair.en
  let w := ((w.modImg (fun i => { i with woven := true })).modPai (fun x => { x with role := if p then 1 else 0, parked := p })).ask .ring
  let w := w.startLine w.dev.rst.last
  let stuck := w.dev.rst.stuckHold
  let up := w.boardUp && w.dev.bd.pstate != 0
  let w := if up then
      let w := w.modBd (fun b => { b with parked := p })
      (w.loadTables { cfg := c, shadow := false, lseq := w.dev.bar.lseq, lvl := w.dev.mirrorTbl, stuck := stuck } live).modBar
        (fun b => { b with lamp := true })
    else w
  let w := (w.sendChunk).regroup
  let w := (List.range 8).foldl (fun w ch =>
    if c.baChan ch then w.modDirA ch (fun d => { d with fs := true, stage2 := false, valid := 0, level := (c.dirFs ch).directLevel d.level }) else w) w
  let cause := w.dev.rst.last
  if cause = 3 then w.raiseU 0x0A w.dev.rst.lowS
  else if cause = 2 ∨ cause = 4 ∨ cause = 5 then w.raiseU 0x0B (packN [(0, 4, cause), (8, 8, w.dev.rst.lowS)])
  else w

/-! ## A weave's outcome -/

/-- IMG_FAULT with its detail (R400). -/
def W.imgFault (w : W) (code bank : Nat) (startup : Bool) : W := w.raiseU 0x5F (packN [(0, 8, code), (8, 1, bank), (9, 1, b2n startup)])

/-- The result of a request. -/
def W.imgResult (w : W) (code sect ten action : Nat) : W :=
  w.modImg (fun i => { i with phase := 0, code := code, sectNo := sect, ten := ten, action := action,
                              weaves := if code = 0x01 then satAdd 16 i.weaves 1 else i.weaves })

/-- A rejected weave (R390). -/
def W.imgReject (w : W) (r : Refuse) (ten action bank : Nat) : W :=
  ((w.imgResult r.code r.sect ten action).modImg (fun i => { i with rejects := satAdd 16 i.rejects 1 })).imgFault r.code bank false

/-- A first weave (R388): the bank is activated, and steps 8 and 9 of Table 5.2 run. -/
def W.firstWeave (w : W) (c : Cfg) (img : List Byte) (ten action bank : Nat) : W :=
  ((w.activate bank img c).steps89 c true).imgResult 0x01 0 ten action

/-- The swap decision (R393, R398, Table 20.5): every rack-side setting takes effect at once. -/
def W.swapDecision (w : W) (c : Cfg) : W :=
  let w := w.takeSettings c
  let w := w.startLine 0
  let w := (List.range 5).foldl (fun w t => w.modTen t Tenant.unseen) w
  let w := (List.range 5).foldl W.enterDebt w
  w.regroup

/-- A hot weave (R393): shadow tables, activation, swap decision, SWAP packet and the gap. With the board die not alive the
rack side completes it at once (R396). -/
def W.hotWeave (w : W) (c : Cfg) (img : List Byte) (ten bank : Nat) : W :=
  let w := w.control (.table { cfg := c, shadow := true, lseq := 0, lvl := [], stuck := false })
  let w := (w.activate bank img c).swapDecision c
  let w := w.control (.swap c.imgcrc)
  let w := w.modImg (fun i => { i with phase := 2, gapT0 := w.mono, ten := ten, action := 1, sectNo := 0 })
  if w.dev.bar.bAlive then w else w.gapEnd

/-- Run an accepted request (R388, R390, R392): `bank` matters for a first weave only. -/
def W.runWeave (w : W) (ten action bank : Nat) : W :=
  let k := if w.dev.img.woven then 1 - w.dev.img.bank else bank
  let img := w.bankBytes k
  match checkImage w.dev.weaveAuth img with
  | .error r => w.imgReject r ten action k
  | .ok c =>
    let cold := if w.dev.img.woven then w.cfg.coldSect c else 0
    if action = 3 then w.imgResult (if cold = 0 then 0x02 else 0x03) 0 ten action
    else if !w.dev.img.woven then w.firstWeave c img ten action k
    else if action = 2 then ((w.activate k img c).imgResult 0x01 0 ten action).ask (.soft 4)
    else if cold ≠ 0 then w.imgReject ⟨0x30, cold⟩ ten action k
    else w.hotWeave c img ten k

/-- The tenant may request this action now (R113, R119, R388). -/
def W.mayWeave (w : W) (t action : Nat) : Bool :=
  let f := w.dev.fus
  (if f.lcs = 3 then t == 4 && f.vdbg else f.prot.getLsbD (4 + t)) && (t == 4 || (w.dev.img.woven && action != 2))

/-- A write to IMG_CTRL (R388, R389). -/
def W.imgCtrl (w : W) (t v : Nat) : W × Nat :=
  let action := fld v 0 2
  let bank := fld v 2 1
  if v / 2 ^ 16 ≠ 0x6C4D ∨ action = 0 ∨ !w.mayWeave t action ∨ w.dev.img.phase ≠ 0 then (w, stDENIED)
  else if w.dev.sup.notice then
    ((w.modImg (fun i => { i with phase := 3, held := some (t, action, bank), ten := t, action := action })).modSup
      (fun s => { s with defer := s.defer ++ [.weave] }), stOK)
  else (w.runWeave t action bank, stOK)

/-- A held weave starts when the notice has ended (R74, R389). -/
def W.weaveDeferred (w : W) : W :=
  match w.dev.img.held with
  | none => w
  | some (t, action, bank) =>
    if w.dev.sup.notice then w
    else
      ((w.modImg (fun i => { i with phase := 0, held := none })).modSup (fun s => { s with defer := s.defer.filter (· != .weave) })).runWeave
        t action bank

/-- A soft or hard reset before activation ends the weave (R397). -/
def Image.abandon (i : Image) : Image := if i.held.isSome then { i with held := none, phase := 0, code := 0x31, sectNo := 0 } else i

/-! ## IMG registers (Table 20.6) -/

/-- A read in the IMG block. -/
def W.imgRead (w : W) (off : Nat) : W × Nat :=
  let i := w.dev.img
  if off = 4 then (w, packN [(0, 1, i.bank), (1, 1, b2n i.woven), (2, 2, i.phase), (4, 1, b2n i.fallback)])
  else if off = 8 then (w, packN [(0, 8, i.code), (8, 8, i.sectNo), (16, 3, i.ten), (19, 2, i.action)])
  else if off = 0xC then (w, i.cfg.imageId.toNat)
  else if off = 0x10 then (w, i.cfg.imgcrc.toNat)
  else if off = 0x14 then (w, i.bgen)
  else if off = 0x18 then (w.modImg (fun i => { i with weaves := 0, rejects := 0 }), packN [(0, 16, i.weaves), (16, 16, i.rejects)])
  else if off = 0x1C then (w.modImg (fun i => { i with gapPeak := 0 }), packN [(0, 16, min 65535 (i.gapLast / 10)), (16, 16, min 65535 (i.gapPeak / 10))])
  else (w, 0)

/-- A write in the IMG block (R399). -/
def W.imgWrite (w : W) (t off v : Nat) : W × Nat := if off = 0 then w.imgCtrl t v else (w, stOK)

end Sys2Proof.Machine
end

