-- ==== Sys2Proof/Machine/Reset.lean ====
section
/-! DEFINITION. Reset and start-up (chapters 5, 6, 11): beacons and losses, tenant, board, soft and hard reset, the RSTn
supervisor, and the serving of what faults and weaves ask for. -/

namespace Sys2Proof.Machine

/-- The rack die is out of hard reset. -/
def Dev.awake (d : Dev) : Bool := !d.rst.held && d.rst.vdda

/-- The rack die runs: out of hard reset and not in DORMANT. -/
def Dev.rackOn (d : Dev) : Bool := d.awake && d.sup.mode != 2

/-- The board die runs operations: its core is on and not in holdup. -/
def Board.runs (b : Board) : Bool := b.core && !b.holdup

/-! ## Tenant reset (R87–R91, R187) -/

/-- Packets of tenant `t` still waiting in the BXA, and operations held ahead of it. -/
def Dev.uncrossed (d : Dev) (t : Nat) : List Nat :=
  ((d.arb.urgent ++ d.arb.fifo t ++ d.arb.resend ++ d.arb.ctl).filter (fun p => p.ten == t && !(d.pool.tkt p.tkt).crossed)).map (·.tkt) ++
    d.arb.heldE.filter (fun n => (d.pool.tkt n).ten == t)

/-- The BXA without the waiting packets of tenant `t`. -/
def Arb.purge (a : Arb) (t : Nat) (held : List Nat) : Arb :=
  { a with
    urgent := a.urgent.filter (fun p => p.ten != t), fifos := a.fifos.set t [], resend := a.resend.filter (fun p => p.ten != t),
    ctl := a.ctl.filter (fun p => p.ten != t), heldE := a.heldE.filter (fun n => !held.contains n),
    pend := a.pend.filter (fun p => p.2 != t) }

/-- The tickets of tenant `t` in a state. -/
def Dev.tktsOf (d : Dev) (t : Nat) (st : TktState) : List (Nat × Ticket) := d.pool.tkts.filter (fun k => k.2.st == st && k.2.ten == t)

/-- A ticket that awaits its abort acknowledgement carries nothing more. -/
def Ticket.stripped (k : Ticket) : Ticket := { k with op := none, pins := [], bufs := [], rx := [] }

/-- The pins of tenant `t`'s tickets are removed, and its buffers go to the tail of the free list in ascending order. -/
def W.sweep (w : W) (t : Nat) : W :=
  let w := w.modPool (fun p => { p with tkts := p.tkts.map (fun (e : Nat × Ticket) => if e.2.ten = t then (e.1, e.2.stripped) else e) })
  w.releaseBufs t ((w.dev.pool.bufs.filter (fun (e : Nat × BufTag) => e.2.owned && e.2.ten == t)).map (·.1))

/-- The abort packet: a Q0 packet of the tenant that preempts nothing (R88). -/
def W.sendAbort (w : W) (t : Nat) : W :=
  let p : Pkt := { body := .tabort t, ten := t, queue := 0 }
  if w.dev.arb.capLeft w.cfg t then w.modArb (fun a => { a with urgent := a.urgent ++ [p] })
  else (w.modArb (fun a => { a with fifos := lmod a.fifos t (putQ0 p) })).capSpent t

/-- A selection in progress may have been won by the tenant whose queue is emptied (R196): an open bit. -/
def W.maybeDead (w : W) (t : Nat) : W :=
  match w.dev.tqaPick with
  | some i =>
    if i / 4 = t then
      let d := w.draw
      if d.1.getLsbD 0 then d.2.modArb (fun a => { a with sel := some i }) else d.2
    else w
  | none => w

/-- The check units that tenant `t` feeds load INIT (R290). -/
def W.feedInit (w : W) (t : Nat) : W :=
  { w with dev.cks := upto 4 (fun k =>
      let u := w.dev.ckUnit k
      let c := w.cfg.ck k
      if c.width != 0 && (c.fowner == t || (c.fowner == 7 && t == 4)) then { u with run := c.init } else u) }

/-- The strip bindings of engines that tenant `t` owns forget their alive counters (R286). -/
def W.bindInit (w : W) (t : Nat) : W :=
  { w with dev.cks := upto 4 (fun k =>
      let u := w.dev.ckUnit k
      if (w.cfg.eng (w.cfg.ck k).engine).owner == t then { u with seen := false } else u) }

/-- The end of a tenant reset: stream state, faults, credits, replies and interrupt cause cleared, a pending generation in
force, the reply sent, and the F slot that ordered the reset set (R88, R156, R169, R200, R300). -/
def W.tenFinish (w : W) (t : Nat) (r : TenRst) : W :=
  let c := w.cfg
  let w := w.modTen t (fun x => { x with rst := none, streams := [], tdebt := false, bdebt := false, tktUse := 0, queues := [[], [], [], []],
                                         gen := if w.dev.img.woven then (c.ten t).gen else x.gen })
  let w := w.modHpt (fun h => { h with rq := h.rq.filter (fun x => x.ten != t), irqTen := h.irqTen &&& ~~~(BitVec.ofNat 5 (2 ^ t)) })
  let w := w.clearDomain t
  let w := w.modArb (fun a => { a with
    cred := upto 20 (fun i => if i / 4 = t then c.weight i else nth a.cred i),
    makeup := upto 5 (fun k => if k = t then 0 else nth a.makeup k) })
  let w := ((w.feedInit t).bindInit t)
  let w := match r.op with
    | some o => w.answer o stOK 0 0 []
    | none => w
  match w.dev.flt.fpend.find? (fun e => e.1 == t) with
  | some (_, s, esc) =>
    (w.modFlt (fun f => ({ f with fpend := tdel f.fpend t }).setSlot t 2
      { st := 1, src := s, t0 := w.mono, esc := esc, word := w.cfg.flt.react' s t 2 })).regroup
  | none => w

/-- A tenant reset under way waits only for tickets that are still issued; with none left, and outside a hot weave's gap, it
ends. -/
def W.tenCheck (w : W) (t : Nat) : W :=
  match (w.dev.ten t).rst with
  | none => w
  | some r =>
    let left := r.await.filter (fun e => decide ((w.dev.pool.tkt e.1).st = .issued) && (w.dev.pool.tkt e.1).icount == e.2)
    let w := w.modTen t (fun x => { x with rst := some { r with await := left } })
    if left.isEmpty && w.dev.img.phase != 2 then w.tenFinish t r else w

/-- End the tenant resets that wait for nothing more. -/
def W.finishResets (w : W) : W := (List.range 5).foldl W.tenCheck w

/-- The Gen3 messages of the other tenants, and the one whose item asks for the reset, reduced to that item. -/
def keepMsg (t : Nat) (op : Option Op) (l : Tbl Msg) : Tbl Msg :=
  l.filterMap (fun (e : Nat × Msg) =>
    if e.2.ten ≠ t then some e
    else
      match op with
      | some o => if o.msg = some e.1 then some (e.1, { e.2 with items := (e.2.items.drop o.item).take 1 }) else none
      | none => none)

/-- A tenant reset of tenant `t` is accepted (R88, R89): `op` is the write that awaits the reply. -/
def W.tenReset (w : W) (t : Nat) (op : Option Op) : W :=
  if (w.dev.ten t).rst.isSome then w
  else
    let w := w.maybeDead t
    let w := w.logT 0x15 [(6, 3, 1), (9, 3, t)]
    let w := (w.frozenReset none).modRst (fun r => { r with tenResets := satAdd 8 r.tenResets 1 })
    let w := w.modPai (fun p => { p with tenResets := lmod p.tenResets t (fun n => (n + 1) % 256) })
    let gone := w.dev.uncrossed t
    let w := w.modArb (fun a => a.purge t gone)
    let queued := (w.dev.ten t).queues.flatten
    let w := w.modTen t (fun x => { x with queues := [[], [], [], []] })
    let w := w.modHpt (fun h => { h with msgs := keepMsg t op h.msgs })
    let op := op.map (fun o => if o.req.ten.val = t then { o with item := 0 } else o)
    let w := w.sweep t
    let w := queued.foldl W.freeTkt w
    let w := ((w.dev.tktsOf t .issued).filter (fun k => !k.2.board || gone.contains k.1)).foldl (fun w k => w.freeTkt k.1) w
    let left := (w.dev.tktsOf t .issued).map (fun k => (k.1, k.2.icount))
    let w := w.modTen t (fun x => { x with rst := some { await := left, op := op } })
    let w := if w.dev.bar.bAlive then w.sendAbort t else (left.foldl (fun w k => w.freeTkt k.1) w)
    w.tenCheck t

/-- One acknowledged ticket of the reset of tenant `t`: a quarantined one, or one whose tenant's reset awaits it, is retired
without completion (R88, R91). One already FREE, or another tenant's, is not, where its issue count matches (R174). -/
def W.ackOne (t : Nat) (w : W) (e : Nat × Nat) : W :=
  let k := w.dev.pool.tkt e.1
  if k.st = .quarantined then (if k.icount = e.2 then w.freeTkt e.1 else w)
  else if k.icount ≠ e.2 then w
  else if k.st = .free ∨ k.ten ≠ t then w.retireFor e.1 t id
  else
    match (w.dev.ten k.ten).rst with
    | none => w
    | some r => if decide (k.st = .issued) && r.await.contains e then w.freeTkt e.1 else w

/-- An abort acknowledgement reaches the rack die (R88, R91). -/
def W.abortAckIn (w : W) : W :=
  match w.back with
  | none => w
  | some p =>
    match p.body with
    | .abortAck es => (es.foldl (W.ackOne p.ten) w.backTaken).finishResets
    | _ => w

/-- A ticket leaves its tenant without going to the free list. -/
def W.quarantine (w : W) (n : Nat) : W :=
  let k := w.dev.pool.tkt n
  (w.modPool (fun p => p.setTkt n { k with st := .quarantined })).modTen k.ten (fun x => { x with tktUse := x.tktUse - 1 })

/-- 100 µs without an abort acknowledgement (R91). -/
def W.tresetSlow (w : W) (t : Nat) : W :=
  match (w.dev.ten t).rst with
  | none => w
  | some r =>
    if r.await.isEmpty then w
    else
      let w := r.await.foldl (fun w e => w.quarantine e.1) w
      (w.raiseU 0x0F t).tenCheck t

/-- The board die has restarted: every quarantine ends (R91). -/
def W.endQuarantine (w : W) : W :=
  (w.dev.pool.tkts.filter (fun (k : Nat × Ticket) => decide (k.2.st = .quarantined))).foldl (fun w k => w.freeTkt k.1) w

/-- A write to TEN_RESET (R87): `op` awaits the reply; `none` while it is outstanding. -/
def W.tenResetWrite (w : W) (t page v : Nat) (op : Option Op) : W × Option Nat :=
  if (t ≠ 4 ∧ t ≠ page) ∨ v / 2 ^ 16 ≠ 0x7E4E ∨ !tbit v 0 ∨ (w.dev.ten page).rst.isSome then (w, some stDENIED)
  else (w.tenReset page op, none)

/-! ## Beacons and the loss of the board die (R219–R221, R76) -/

/-- The rack die sees the board die not alive: the loss is counted and raised unless it was ordered, board-bound tickets
complete ABORTED, and an identity read or write-back is cut short. -/
def W.beaconGone (w : W) : W :=
  let b := w.dev.bar
  let w := w.modBar (fun b => { b with beaconIn := false, bSupply := false })
  if !b.beaconIn then w
  else
    let w := w.modBar (fun b => { b with bLoss := satAdd 8 b.bLoss 1 })
    let w := match b.holdSeen with
      | some r => w.raise 0x02 dUnit { ext := some r }
      | none => if b.ordered then w else w.raiseU 0x32
    (w.boardGone).idCut.wbStop

/-- ALIVE returns: the tables are sent again, with a time chunk, the parking of a parked unit and the reaction union (R220);
with the board absent the board reset that ran ends here. -/
def W.beaconBack (w : W) : W :=
  if w.dev.bar.beaconIn then w
  else
    let w := w.modBar (fun b => { b with beaconIn := true, bAlive := true, bdown := false, ordered := false, holdSeen := none, bstepSeen := true })
    let w := w.modRst (fun r => { r with bnr := true })
    if !w.dev.img.woven then w
    else if w.dev.bd.pstate = 0 then w.modRst (fun r => { r with boardBusy := false })
    else w.sendTables

/-- The transient flags of a board symbol (Table 11.6). -/
def W.symCmt (w : W) (x : Nat) : W :=
  let w := if tbit x 2 then w.modMon (fun m => { m with cmtSeen := satAdd 16 m.cmtSeen 1 }) else w
  if tbit x 3 then (w.modMon (fun m => { m with cmtOver := satAdd 16 m.cmtOver 1 })).raiseU 0x3E else w

/-- The rack beacon is absent at the board die: it changes no lane, but a paired unit's lanes are parked (R221, R370). -/
def W.rackGone (w : W) : W :=
  if w.dev.bd.rackAlive then
    w.modBd (fun b => { b with rackAlive := false, rackLost := true, parked := b.parked || (b.tabs && b.cfg.pair.en) })
  else w

/-- The board die has restarted, with what its restart ends on the rack die. -/
def W.boardAgain (w : W) : W := w.boardRestart.endQuarantine

/-- The rack beacon shows ALIVE again: board reset from step 5 of Table 5.5 (R221). -/
def W.rackBack (w : W) : W :=
  if w.dev.bd.rackAlive then w
  else if !w.dev.bd.runs then w.modBd (fun b => { b with rackAlive := true })
  else
    let lost := w.dev.bd.rackLost
    (w.failSafeAll.boardAgain).modBd (fun b => { b with rackLost := lost })

/-- A beacon symbol: [0] ALIVE, [1] SUPPLY_GOOD, [2] and [3] transients, [7:4] the complement of [3:0] (Table 11.6). `d` is the
die that receives it. A symbol whose complement fails is no valid symbol. -/
def W.beacon (w : W) (d : Die) (sym : Byte) : W :=
  let x := sym.toNat
  if x % 16 + x / 16 ≠ 15 then w
  else
    match d with
    | .rack =>
      if !w.dev.awake then w
      else
        let w := w.symCmt x
        let w := if tbit x 0 then w.beaconBack else w.beaconGone
        (w.modBar (fun b => { b with bSupply := tbit x 1 })).modSup (fun s => { s with bBrown := !tbit x 1 })
    | .board => if tbit x 0 then w.rackBack else w.rackGone

/-! ## Board reset (R93) -/

/-- A board reset request; in DORMANT none is made. -/
def W.boardReset (w : W) : W := if w.dev.sup.mode = 2 then w else w.orderBreset

/-- The board die is put into reset and restarted inside a larger reset. -/
def W.boardThrough (w : W) : W := if w.dev.bd.runs then w.failSafeAll.boardAgain else w

/-- What the rack die knows of a board die that has restarted within a start-up. -/
def W.meetBoard (w : W) : W :=
  let b := w.dev.bd
  let up := b.runs
  let w := w.modBar (fun x => { x with beaconIn := up, bAlive := up, bSupply := up, bstepSeen := x.bstepSeen || up, bdown := false, ordered := false,
                                       holdSeen := none, pstate := if up then b.pstate else 0, prsn := b.prsn, fsmap := 0xFFFFFFFF, views := [] })
  let w := w.modSup (fun s => if up then { s with up := b.up, low := b.low, bBrown := false } else s)
  (w.modRst (fun r => { r with bnr := r.bnr || up })).modBd (fun b => { b with outS := [], rackAlive := true })

/-! ## Start-up (Table 5.2) -/

/-- Every reset that leaves STOPPED or REPLAY leads to LOADING. -/
def afterReset (lstate : Nat) : Nat := if 4 ≤ lstate then 3 else lstate

/-- Take the log header and find the head (Table 18.6, R353). -/
def W.scanLog (w : W) : W :=
  let h := w.line lnOrder
  let ls := (upto 2047 (fun k => w.line (lnOrder + 1 + k))).filter (fun l => at' l 0 4 != 0 && lcrcOk l)
  let top := ls.foldl (fun m l => max m (at' l 0 4)) 0
  let start := (ls.filter (fun l => at' l 12 1 == 1)).foldl (fun m l => max m (at' l 0 4)) 0
  let w := w.modLog (fun g => { g with next := top + 1, start := start })
  if lcrcOk h && h.take 4 == mark4 0x56 0x4E 0x4F 0x4C then
    let recs := (upto 4 (fun k => (at' h (14 + 8 * k) 7, at' h (21 + 8 * k) 1))).filter (fun r => r.2 != 0)
    w.modLog (fun g => { g with lstate := afterReset (at' h 4 1), toseq := at' h 6 4, foseq := at' h 10 4, frst := recs })
  else (w.modLog (fun g => { g with lstate := 0, rebuilt := true })).logHeader

/-- Take the fault log header, or rebuild it (R307). -/
def W.scanFaults (w : W) : W :=
  let h := w.line lnFault
  if lcrcOk h && h.take 4 == mark4 0x56 0x4E 0x46 0x4C then
    w.modFlt (fun f => { f with next := at' h 4 4, head := at' h 8 1, vcount := at' h 12 8, vfail := at' h 20 2 })
  else
    let ls := (upto 255 (fun k => w.line (lnFault + 1 + k))).filter (fun l => at' l 0 4 != 0 && lcrcOk l)
    let best := ls.foldl (fun b l => if at' b 0 4 < at' l 0 4 then l else b) []
    (w.modFlt (fun f => { f with next := 1, head := 1, rebuilt := true, vcount := at' best 54 4, vfail := at' best 58 2 })).stageHeader

/-- A group of eight fuse bits counts as set when at least 5 read 1 (R106). -/
def groupSet (x k : Nat) : Bool := decide (5 ≤ ((List.range 8).filter (fun i => tbit x (8 * k + i))).length)

/-- The state of the LCS groups; none when inconsistent. -/
def lcsOf (x : Nat) : Option Nat :=
  match groupSet x 0, groupSet x 1, groupSet x 2 with
  | false, false, false => some 0
  | true, false, false => some 1
  | true, true, false => some 2
  | true, true, true => some 3
  | _, _, _ => none

/-- Fuse word `i` as the shadow of a start-up reads it. -/
def W.fuseN (w : W) (i : Nat) : Nat := (w.fuse i).toNat

/-- The 32 bytes of the eight fuse words from `i` on. -/
def W.fuseBytes (w : W) (i : Nat) : List Byte := (List.range 8).flatMap (fun k => le 4 (w.fuseN (i + k)))

/-- Load the fuse shadow (R106, R108, R111): `fail` marks the words whose two readings differ. KEY_LOCK of a failing word 1 is
an open value. -/
def W.sense (w : W) (fail : BitVec 32) : W :=
  let d := w.draw
  let st := if fail.getLsbD 0 then none else lcsOf (w.fuseN 0)
  let odd := st.isNone
  let key := w.fuseBytes 4
  let keyBad := (List.range 9).any (fun k => fail.getLsbD (4 + k))
  let keyOk := !keyBad && crc32 key == w.fuseN 12 && key != List.replicate 32 0xFF
  let one : BitVec 13 := BitVec.ofNat 13 (w.fuseN 1)
  let safe : BitVec 13 := 0x1F01 ||| (if d.1.getLsbD 0 then 8 else 0)
  let prot := if fail.getLsbD 1 then safe else one
  let prot := if odd then (prot ||| 0x1001) &&& ~~~6 else prot
  let w := if fail.getLsbD 1 then d.2 else w
  w.modFus (fun f => { f with
    lcs := st.getD 2, odd := odd, keyOk := keyOk, key := key, vkey := w.fuseBytes 14, prot := prot,
    serial := if fail.getLsbD 2 || fail.getLsbD 3 then 0 else BitVec.ofNat 64 (w.fuseN 2 + 2 ^ 32 * w.fuseN 3), failmask := fail,
    fieldPend := false })

/-- FUSE_CHECK of a start-up: inconsistent LCS or failing words. -/
def W.senseCheck (w : W) : W := if w.dev.fus.odd || w.dev.fus.failmask != 0 then w.raiseU 0x1E w.dev.fus.failmask.toNat else w

/-- Weave settings that pass the checks from bank `k`. -/
def W.checkBank (w : W) (k : Nat) : Except Refuse Cfg :=
  match w.bankRec k with
  | none => .error ⟨0x10, 0⟩
  | some _ => checkImage w.dev.weaveAuth (w.bankBytes k)

/-- Steps 5 to 9 of Table 5.2: the active bank, the fallback to the other, or the condition of R98 (R387). -/
def W.startWeave (w : W) (live : Bool) : W :=
  let k := w.activeBank.getD 0
  let w := w.modImg (fun i => { i with bank := k, bgen := (w.bankRec k).getD 0, woven := false, cfg := {}, fallback := false, phase := 0 })
  match w.checkBank k with
  | .ok c => w.steps89 c live
  | .error r =>
    match w.checkBank (1 - k) with
    | .ok c =>
      let w := (w.activate (1 - k) (w.bankBytes (1 - k)) c).modImg (fun i => { i with fallback := true })
      (w.imgFault r.code k true).steps89 c live
    | .error _ => w.imgFault r.code k true

/-- The regions that a return to maker clears, and the erase marker (steps 3–5 of Table 6.7): image banks, epochs, user. -/
def W.eraseStore (w : W) : W :=
  let zero : List Byte := List.replicate 64 0
  let lines := List.range 1024 ++ (List.range 256).map (lnEpoch + ·) ++ (List.range 384).map (lnUser + ·)
  let w := { w with dev.sto.own := [], dev.sto.win := [] }
  let w := lines.foldl (fun w n => w.homeLine { line := n, data := zero }) w
  w.homeLine { line := 0, data := padTo 64 (mark4 0x52 0x54 0x4E 0x45) }

/-- The key words blown to all ones (step 3). -/
def W.blowKey (w : W) : W := { w with blow := (List.range 9).map (fun k => (4 + k, 0xFFFFFFFF)) ++ w.blow }

/-- A start-up in RETURN without the erase marker finishes the erasure (R119). -/
def W.returnErase (w : W) : W := if w.home 0 4 = mark4 0x52 0x54 0x4E 0x45 then w else w.blowKey.eraseStore

/-- The pins and straps as they stand, for a start-up that no command describes. -/
def Dev.curPins (d : Dev) : StartPins where
  headLow := d.pins.head
  hostsel := ⟨d.pins.hostsel % 4, Nat.mod_lt _ (by decide)⟩
  rstHigh := d.pins.rstn
  boardUp := d.bd.vddb
  prsLow := !d.bd.prsn
  lanes := BitVec.ofNat 32 (packN (upto 32 (fun n => (n, 1, b2n (d.bd.lane n).pin))))
  vb := d.bd.up
  failMask := d.fus.failmask

/-- The board die as start-up finds it: restarted, or without supply. -/
def W.boardFound (w : W) (p : StartPins) : W :=
  let w := (List.range 32).foldl (fun w n => w.modLane n (fun l => { l with pin := p.lanes.getLsbD n })) w
  if p.boardUp then (w.modBd (fun b => { b with vddb := true, up := p.vb, low := b.low &&& p.vb, prsn := !p.prsLow })).boardAgain.meetBoard
  else (w.modBd (fun b => { b.halted with vddb := false, core := false, holdup := false })).meetBoard

/-- Start-up from step 2 of Table 5.2 (R96–R99). -/
def W.startUp (w : W) (p : StartPins) : W :=
  let w := w.modRst (fun r => { r with held := false })
  let w := w.sense p.failMask
  let w := (w.modPins (fun x => { x with head := p.headLow, hostsel := p.hostsel.val })).senseCheck
  let w := (w.boardFound p).evalPorts
  let w := w.scanLog.scanFaults
  let w := if w.dev.log.lstate = 2 then w.frozenReset (some w.dev.rst.last) else w
  if w.dev.fus.lcs = 3 then w.returnErase else w.startWeave true

/-! ## Hard reset (R95, Table 5.3) -/

/-- Each commit in flight leaves its line old or new: an open bit (R344). Staged lines are lost. -/
def W.loseLines (w : W) : W :=
  let w := ((w.dev.sto.own ++ w.dev.sto.log ++ w.dev.sto.win).filter (·.started)).foldl (fun w l =>
    let d := w.draw
    if d.1.getLsbD 0 then d.2.homeLine l else d.2) w
  { w with dev.sto := {} }

/-- The device in hard reset: everything at its reset values but the fuse shadow, the pins and the board die. An unfinished weave request is
shown ABANDONED (R397). -/
def Dev.cleared (d : Dev) : Dev :=
  { fus := { d.fus with vdbg := false, erasePend := false, dbgOpen := false, tapRefused := false, fails := 0, inst := 0x02, chal := [],
                        chalLive := false, chalHeld := false, tdr := 0, tdo := [] },
    pins := d.pins, bd := d.bd, freeCtr := d.freeCtr,
    img := if d.img.held.isSome then { code := 0x31, ten := d.img.ten, action := d.img.action } else {} }

/-- The rack die enters hard reset. -/
def W.hardReset (w : W) : W :=
  let w := w.loseLines
  { w with dev := { w.dev.cleared with rst := { held := true } }, rq := [] }

/-- TSTUCK in seconds, 0 for off (Table 6.5). -/
def Fuse.tstuck (f : Fuse) : Nat :=
  match fld f.prot.toNat 9 3 with
  | 1 => 5
  | 2 => 10
  | 3 => 60
  | 7 => 0
  | _ => 20

/-- RST_STATUS.TSTUCK. -/
def Fuse.tstuckCode (f : Fuse) : Nat :=
  match f.tstuck with
  | 0 => 0
  | 5 => 1
  | 10 => 2
  | 60 => 4
  | _ => 3

/-- VDDA crosses 1.56 V rising: power-on (R69, R96), or HELD with RSTn low. -/
def W.powerOn (w : W) (p : StartPins) : W :=
  let w := w.hardReset.modRst (fun r => { r with vdda := true, last := 1, lowS := 0, sup := if p.rstHigh then 0 else 1 })
  let w := w.modPins (fun x => { x with rstn := p.rstHigh })
  if p.rstHigh then w.startUp p else w.sense p.failMask

/-- VDDA falls below 1.50 V (R95). The supervisor starts afresh at power-on. -/
def W.vddaFall (w : W) : W := w.hardReset.modRst (fun r => { r with vdda := false, sup := 0 })

/-- The board die in reset on the RSTn reset packet: its lanes pass to their bus-keepers at their present levels (R95). -/
def W.boardHeld (w : W) : W := if w.dev.bd.core then w.modBd (fun b => { b.halted with core := false, holdup := false }) else w

/-- RSTn low for 1 µs (Table 5.4). -/
def W.rstLow (w : W) : W :=
  let w := w.modPins (fun x => { x with rstn := false })
  if w.dev.rst.vdda ∧ w.dev.rst.sup = 0 then
    w.hardReset.boardHeld.modRst (fun r => { r with sup := 1, held := true })
  else w

/-- RSTn rises: start-up from HELD. -/
def W.rstHigh (w : W) (p : StartPins) (low : Nat) : W :=
  let w := w.modPins (fun x => { x with rstn := true })
  if w.dev.rst.vdda ∧ w.dev.rst.sup = 1 then (w.modRst (fun r => { r with sup := 0, last := 2, lowS := min 255 low })).startUp p else w

/-- The stuck timer reaches TSTUCK: stuck release (R101). -/
def W.rstStuck (w : W) (p : StartPins) : W :=
  if w.dev.rst.vdda ∧ w.dev.rst.sup = 1 ∧ w.dev.fus.tstuck ≠ 0 then
    (w.modRst (fun r => { r with sup := 2, last := 3, lowS := w.dev.fus.tstuck, stuckHold := true })).startUp p
  else w

/-- 100 ms of continuous high in IGNORE. -/
def W.rearm (w : W) : W := if w.dev.rst.sup = 2 ∧ w.dev.pins.rstn then w.modRst (fun r => { r with sup := 0 }) else w

/-- The board beacon is not alive 100 ms after step 7, or 10 ms after a board reset request: once (R99). -/
def W.noReturn (w : W) : W :=
  if !w.dev.bar.bAlive && !w.dev.rst.bnr && (w.dev.img.woven || w.dev.rst.boardBusy) then (w.modRst (fun r => { r with bnr := true })).raiseU 0x0E else w

/-! ## Soft reset (R94, Table 5.3) -/

/-- A tenant block after a soft reset. -/
def Tenant.softCleared (t : Tenant) : Tenant :=
  { noticket := t.noticket, nobuf := t.nobuf, freeDenied := t.freeDenied, tktPeak := t.tktPeak, bufPeak := t.bufPeak, lastErr := t.lastErr,
    latchNow := t.latchNow, latchMono := t.latchMono, setLo := t.setLo, nextLo := t.nextLo }

/-- The arbiters after a soft reset: their counts are kept. -/
def Arb.softCleared (a : Arb) : Arb :=
  { dead := a.dead, aborts := a.aborts, limit := a.limit, emLamp := a.emLamp, emDbg := a.emDbg }

/-- The device after the clearing steps of a soft reset. -/
def Dev.softCleared (d : Dev) (cause : Nat) : Dev :=
  { d with
    sup := { d.sup with mode := 0, defer := [] },
    log := { d.log with lstate := afterReset d.log.lstate },
    rpl := { d.rpl with items := [] },
    flt := { d.flt.dropAll with fkey := 0, wren := false },
    hpt := {},
    tens := d.tens.map Tenant.softCleared,
    pool := {},
    arb := d.arb.softCleared,
    bar := { d.bar with lamp := false, mirror := [], news := [], runFwd := 0, runBwd := 0, direct := [], parked := false, debugOut := none },
    img := d.img.abandon,
    rst := { d.rst with softWait := none, last := cause, lowS := 0, boardBusy := false, bnr := false, softResets := satAdd 8 d.rst.softResets 1 } }

/-- The soft reset itself: `mid` acts once the rack die is cleared (the start of a replay sets its clock there). -/
def W.softNow (w : W) (cause : Nat) (mid : W → W) : W :=
  let w := w.commitAll
  let w := if w.dev.pai.role = 3 ∧ w.paired then (w.beginRelease 1).dropBaton else w
  let w := w.frozenReset (some cause)
  let w := w.idCut.wbStop
  let w := mid { w with dev := w.dev.softCleared cause, rq := [] }
  let w := w.boardThrough.meetBoard.evalPorts
  if w.dev.fus.lcs = 3 ∧ !w.dev.fus.vdbg then w.modImg (fun i => { i with woven := false, cfg := {} }) else w.startWeave false

/-- A unit soft reset with RST_CAUSE.LAST = `cause`; during a brown notice it is held. -/
def W.softReset (w : W) (cause : Nat) : W :=
  if w.dev.rst.softWait.isSome then w
  else if w.dev.sup.notice then
    (w.modRst (fun r => { r with softWait := some cause })).modSup (fun s => { s with defer := s.defer ++ [.soft] })
  else w.softNow cause id

end Sys2Proof.Machine
end

