-- ==== Sys2Proof/Machine/Supply.lean ====
section
/-! DEFINITION. Supplies, brown notices and modes (chapter 4), the release of lanes after a stuck release (R103), and the SUP and
RST registers. -/

namespace Sys2Proof.Machine

/-! ## Brown notice (R70–R75) -/

/-- A supply has stayed below its VWARN for 1 µs: a notice begins, or takes in the second supply. -/
def W.brownBegin (w : W) (a b : Bool) : W :=
  if !a && !b then w
  else
    w.modSup (fun s =>
      let s : Supply := if s.notice then s else { s with notice := true, raisedA := false, raisedB := false, t0 := w.mono }
      { s with aBrown := s.aBrown || a, bBrown := s.bBrown || b })

/-- Duration in a BROWN register. -/
def brownDur (d : Nat) : Nat := min 16777215 d

/-- Raise BROWN_A or BROWN_B, captured at the falling crossing. -/
def W.brownRaise (w : W) (src dur : Nat) : W := w.raise src dUnit { time := some (w.now - 1000 * dur) }

/-- Record one supply's dip and raise its source, once for each notice. -/
def W.dipA (w : W) (mn dur : Nat) : W :=
  let was := w.dev.sup.raisedA
  let w := w.modSup (fun s => { s with minA := mn % 256, durA := brownDur dur, raisedA := true })
  if was then w else w.brownRaise 0x00 dur

def W.dipB (w : W) (mn dur : Nat) : W :=
  let was := w.dev.sup.raisedB
  let w := w.modSup (fun s => { s with minB := mn % 256, durB := brownDur dur, raisedB := true })
  if was then w else w.brownRaise 0x01 dur

/-- A dip at the notice's end also counts. -/
def W.countA (w : W) : W := w.modSup (fun s => { s with cntA := satAdd 16 s.cntA 1 })
def W.countB (w : W) : W := w.modSup (fun s => { s with cntB := satAdd 16 s.cntB 1 })

/-- Recording resumes after dropped lines: one GAP line, LOG_GAP and its count (R350). -/
def W.gapLine (w : W) : W :=
  let n := w.dev.log.gapLines
  if n = 0 then w
  else
    let w := w.wholeLine 2 w.now (le 4 n ++ le 8 w.now)
    (w.modLog (fun g => { g with gapLines := 0, gaps := satAdd 16 g.gaps 1 })).raiseU 0x5C n

/-- One kind of deferred work starts; lines start in the order of their staging, and a weave, a write-back and a soft reset by
rows of their own. -/
def W.startDeferred (w : W) : Deferred → W
  | .epoch => if w.dev.pai.role = 3 ∧ w.dev.log.lstate ≠ 4 then w.sendEpoch false false else w
  | .rxEpoch => if w.dev.pai.waitCommit then w.commitEpoch else w
  | _ => w

/-- The notice has ended: the deferred work starts in order of request (R74). -/
def W.noticeOver (w : W) : W :=
  let ds := w.dev.sup.defer
  let w := w.modSup (fun s => { s with notice := false, aBrown := false, bBrown := false,
                                       defer := s.defer.filter (fun d => d == .weave || d == .writeback || d == .soft) })
  let go := fun (l : SLine) => { l with started := true }
  let w := w.modSto (fun s => { s with log := s.log.map go, own := s.own.map go, win := s.win.map go })
  let w := ds.foldl W.startDeferred w
  (w.pumpEvents w.dev.flt.evq.length).gapLine

/-- Every supply that dipped has recovered (R75): a supply with a duration of 0 did not dip. -/
def W.brownEnd (w : W) (minA durA minB durB : Nat) : W :=
  if !w.dev.sup.notice then w
  else
    let w := if durA = 0 then w else w.countA.dipA minA durA
    let w := if durB = 0 then w else w.countB.dipB minB durB
    w.noticeOver

/-- A notice has lasted 1 s (R75). -/
def W.brownLong (w : W) (mn dur : Nat) : W :=
  if !w.dev.sup.notice then w
  else
    let w := if w.dev.sup.aBrown ∧ !w.dev.sup.raisedA then w.dipA mn dur else w
    if w.dev.sup.bBrown ∧ !w.dev.sup.raisedB then w.dipB mn dur else w

/-- A dip of VDDB alone that ends in collapse is no brown notice: it ends without record (R70, Edges). -/
def W.noticeCollapse (w : W) : W :=
  if w.dev.sup.notice ∧ !w.dev.sup.aBrown then w.noticeOver else w.modSup (fun s => { s with bBrown := false })

/-- VDDB falls to 1.50 V (R76). -/
def W.vddbCollapse (w : W) : W := if w.dev.bd.vddb then w.vddbFall.noticeCollapse else w

/-- Holdup ends: board reset, with the bus-keepers at the driven levels (step 7 of Table 4.4). -/
def W.holdupOver (w : W) : W := if w.dev.bd.holdup then w.modBd (fun b => { b.halted with core := false, holdup := false }) else w

/-- The board die completes its restart once its supply is up (step 5 of Table 5.5). -/
def W.boardRise (w : W) : W := if !w.dev.bd.core && w.dev.bd.vddb && w.dev.sup.mode != 2 then w.boardAgain else w

/-- VDDB rises above 1.56 V (R69): out of power-on reset, unless holdup still runs. -/
def W.boardPower (w : W) (prsLow : Bool) : W :=
  let w := w.modBd (fun b => { b with vddb := true, prsn := !prsLow })
  if w.dev.bd.core || w.dev.sup.mode == 2 then w else w.boardAgain

/-- HOLD_READY is still 0, or has fallen (R81). -/
def W.holdbLow (w : W) : W :=
  if w.dev.bd.core && w.dev.bd.vddb then ((w.modBd (fun b => { b with ready := false })).bRaise 0x03 dUnit 0).page0 else w

/-! ## Modes (R82–R84) -/

/-- A board-bound ticket is in flight. -/
def Dev.boardBound (d : Dev) : Bool := !d.boardTkts.isEmpty

/-- STANDBY may be entered now: from ACTIVE, with no board-bound ticket in flight and no engine busy. -/
def Dev.mayStandby (d : Dev) : Bool := d.sup.mode == 0 && !d.boardBound && (List.range 8).all (fun e => (d.bd.eng e).st != 1)

/-- Entry to STANDBY: one KEEPALIVE at once. -/
def W.enterStandby (w : W) : W := (w.modSup (fun s => { s with mode := 1 })).keepalive

/-- DORMANT may be entered now. -/
def Dev.mayDormant (d : Dev) : Bool := d.sup.mode != 2 && !d.boardBound

/-- Entry to DORMANT (R84, R309, R369): the baton is dropped without a final epoch, the board core and the ring ports go off,
and TPO is held low. -/
def W.enterDormant (w : W) : W :=
  let w := if w.dev.pai.role = 3 then w.dropBaton else w
  let w := w.idCut.wbStop
  let w := w.modSup (fun s => { s with mode := 2 })
  let w := w.evalPorts
  let w := w.modBar (fun b => { b with ordered := true, beaconIn := false, bSupply := false })
  let w := w.boardGone
  let w := w.modTim (fun t => { t with dormLocked := t.state == 1, dormT0 := t.mono, tpo := false })
  w.modBd (fun b => { b.halted with core := false })

/-- The time base after DORMANT (R309). -/
def W.timeWake (w : W) : W :=
  let t := w.dev.tim
  if t.dormLocked then
    let long := decide (w.cfg.time.tholdMax * 60000000000 < t.mono - t.dormT0)
    let w := w.modTim (fun t => { t with dormLocked := false, holdT0 := t.dormT0, src := 0, accTpi := none, candTpi := none, accTime := none,
                                         candTime := none, stepPend := false })
    (w.timeState (if long then 3 else 2)).chunkIf
  else w

/-- A falling HCSn edge in DORMANT (R84): ACTIVE, with the board die restarted and its tables sent. -/
def W.wake (w : W) : W :=
  if w.dev.sup.mode ≠ 2 then w
  else
    let w := (w.modSup (fun s => { s with mode := 0 })).evalPorts
    let w := if w.dev.bd.vddb then w.boardAgain else w
    let w := w.meetBoard.timeWake
    if w.dev.img.woven ∧ w.dev.bar.bAlive ∧ w.dev.bar.pstate ≠ 0 then w.sendTables else w

/-- Back to ACTIVE: the lamplighter sends one REFRESH at once. -/
def W.toActive (w : W) : W := ((w.modSup (fun s => { s with mode := 0 })).modBar (fun b => { b with parked := false })).lampTref

/-- A write to SUP_MODE. -/
def W.supMode (w : W) (t req : Nat) : W × Nat :=
  if t ≠ 4 then (w, stDENIED)
  else
    match req with
    | 0 => (w, stOK)
    | 1 => if w.dev.mayStandby then (w.enterStandby, stOK) else (w, stDENIED)
    | 2 => if w.dev.mayDormant then (w.enterDormant, stOK) else (w, stDENIED)
    | _ => if w.dev.sup.mode = 1 then (w.toActive, stOK) else (w, stDENIED)

/-! ## SUP registers (Tables 4.6, 4.7) -/

/-- SUP_STATUS. -/
def Supply.status (s : Supply) : Nat :=
  packN [(0, 1, b2n s.aBrown), (1, 1, b2n s.bBrown), (2, 1, b2n s.notice), (3, 1, b2n s.ready), (4, 4, s.up.toNat), (8, 4, s.low.toNat),
         (12, 2, s.mode), (14, 8, s.holdV)]

/-- DEFER_STAT. -/
def W.deferStat (w : W) : Nat :=
  packN [(0, 6, (w.dev.sto.log.filter (fun l => !l.started)).length), (6, 5, (w.dev.sto.win.filter (fun l => !l.started)).length),
         (11, 1, b2n (w.dev.sup.defer.contains .epoch || w.dev.sup.defer.contains .rxEpoch)), (12, 1, b2n (w.dev.idn.wbState == 3)),
         (13, 1, b2n (w.dev.sup.defer.contains .weave)), (14, 18, w.dev.sup.dropped)]

/-- A read in the SUP block. -/
def W.supRead (w : W) (off : Nat) : W × Nat :=
  let s := w.dev.sup
  if off = 0 then (w, s.status)
  else if off = 4 then (w, packN [(0, 7, s.warnA), (8, 7, s.warnB)])
  else if off = 8 then (w, s.banknom.toNat)
  else if off = 0xC then (w, packN [(0, 8, s.minA), (8, 24, s.durA)])
  else if off = 0x10 then (w, packN [(0, 8, s.minB), (8, 24, s.durB)])
  else if off = 0x14 then (w.modSup (fun s => { s with cntA := 0, cntB := 0 }), packN [(0, 16, s.cntA), (16, 16, s.cntB)])
  else if off = 0x1C then (w.modSup (fun s => { s with dropped := 0 }), w.deferStat)
  else (w, 0)

/-- A write in the SUP block. -/
def W.supWrite (w : W) (t off v : Nat) : W × Nat :=
  if t ≠ 4 then (w, stDENIED)
  else if off = 4 then
    if 90 < fld v 0 7 ∨ 90 < fld v 8 7 then (w, stDENIED) else (w.modSup (fun s => { s with warnA := fld v 0 7, warnB := fld v 8 7 }), stOK)
  else if off = 8 then
    if (List.range 4).any (fun n => decide (4 < fld v (4 * n) 4)) then (w, stDENIED)
    else (w.modSup (fun s => { s with banknom := BitVec.ofNat 16 v }), stOK)
  else if off = 0x18 then w.supMode t (fld v 0 2)
  else (w, stOK)

/-! ## RELEASE_LANES and the RST registers (R103, R104, Tables 5.7, 5.8) -/

/-- The stuck hold ends on both dies; a DA output that has seen two valid pulses follows its input at once. -/
def W.releaseHold (w : W) : W :=
  let w := w.modRst (fun r => { r with stuckHold := false })
  let w := (List.range 8).foldl (fun w ch =>
    let d : Direct := tget {} w.dev.bar.direct ch
    if w.cfg.baChan ch && d.fs && decide (2 ≤ d.valid) then w.modDirA ch (fun d => { d with fs := false, stage2 := false, level := d.inLevel }) else w) w
  w.control (.lanecmd 0xFFFFFFFF 2 false)

/-- A write to RST_CTRL (R104, R301); the write completes, and the soft reset it asks for follows. -/
def W.rstCtrl (w : W) (t v : Nat) : W × Nat :=
  if t ≠ 4 ∨ v / 2 ^ 16 ≠ 0xC3A5 ∨ w.dev.flt.stopped dUnit then (w, stDENIED)
  else
    match fld v 0 3 with
    | 1 => if w.dev.sup.mode = 2 then (w, stDENIED) else (w.orderBreset, stOK)
    | 2 => (w.ask (.soft 4), stOK)
    | 4 => if w.dev.rst.stuckHold then (w.releaseHold, stOK) else (w, stDENIED)
    | _ => (w, stDENIED)

/-- RST_STATUS. -/
def W.rstStatus (w : W) : Nat :=
  let r := w.dev.rst
  packN [(0, 1, b2n (r.sup == 0)), (1, 1, b2n (r.sup == 2)), (2, 1, b2n r.stuckHold), (3, 1, b2n r.boardBusy), (4, 1, b2n r.softWait.isSome),
         (5, 5, packN (upto 5 (fun t => (t, 1, b2n (w.dev.ten t).rst.isSome)))), (10, 3, w.dev.fus.tstuckCode)]

/-- A read in the RST block. -/
def W.rstRead (w : W) (off : Nat) : W × Nat :=
  let r := w.dev.rst
  if off = 4 then (w, w.rstStatus)
  else if off = 8 then (w, packN [(0, 4, r.last), (8, 8, r.lowS)])
  else if off = 0xC then
    (w.modRst (fun r => { r with boardResets := 0, softResets := 0, tenResets := 0 }), packN [(0, 8, r.boardResets), (8, 8, r.softResets), (16, 8, r.tenResets)])
  else (w, 0)

/-- A write in the RST block. -/
def W.rstWrite (w : W) (t off v : Nat) : W × Nat := if off = 0 then w.rstCtrl t v else if t = 4 then (w, stOK) else (w, stDENIED)

end Sys2Proof.Machine
end

