-- ==== Sys2Proof/Machine/LogStore.lean ====
section
/-! DEFINITION. The record-store window, marks, the order log's actions, the start and end of a replay, and the LOG
registers (chapter 18; the window's rights are those of Table 1.6). -/

namespace Sys2Proof.Machine

/-! ## The window (R24, R345, R346, R386) -/

/-- Tenant `t` may read the window at `off` (Table 1.6). -/
def Dev.mayReadWin (d : Dev) (t off : Nat) : Bool :=
  t == 4 || (if off < 0x10000 then d.fus.prot.getLsbD (4 + t) else decide (0x38000 ≤ off))

/-- In RETURN, until vendor debug opens, no tenant writes the window. -/
def Dev.winLocked (d : Dev) : Bool := d.fus.lcs == 3 && !d.fus.vdbg

/-- Tenant `t` may write the image banks at `off`: it is in the weave set, the bank is not the active one nor held by a weave
request, and the word is not in the bank record line. -/
def W.mayWriteBank (w : W) (t off : Nat) : Bool :=
  w.dev.fus.prot.getLsbD (4 + t) && w.activeBank != some (off / 0x8000) && w.dev.img.phase == 0 && decide (off % 0x8000 < 0x7FC0)

/-- Tenant `t` may write the window at `off`. -/
def W.mayWriteWin (w : W) (t off : Nat) : Bool :=
  if w.dev.winLocked then false
  else if off < 0x10000 then w.mayWriteBank t off
  else if off < 0x30000 then t == 4 && w.dev.log.lstate == 3
  else decide (0x3A000 ≤ off)

/-- A 32-bit read through the window: the newest content, with the line's error counted (R346). -/
def W.winRead (w : W) (t off : Nat) : W × Nat × Nat :=
  if w.dev.mayReadWin t off then
    let n := off / 64
    let v := at' (w.line n) (off % 64) 4
    if w.dev.sto.badTwo.contains n then
      ((w.modSto (fun s => { s with uncorr := satAdd 8 s.uncorr 1 })).raise 0x5D dUnit { addr := 0x200000 + off, acc := 1, ten := t }, stOK, v)
    else if w.dev.sto.badOne.contains n then (w.modSto (fun s => { s with corr := satAdd 8 s.corr 1 }), stOK, v)
    else (w, stOK, v)
  else (w, stDENIED, 0)

/-- A line with the four bytes of `v` at offset `o`. -/
def putWord (l : List Byte) (o v : Nat) : List Byte := l.take o ++ le 4 v ++ l.drop (o + 4)

/-- The staging memory is full: every staged line starts its commit, outside a brown notice. -/
def W.winFull (w : W) : W :=
  if 16 ≤ w.dev.sto.win.length ∧ !w.dev.sup.notice then w.modSto (fun s => { s with win := s.win.map (fun l => { l with started := true }) })
  else w

/-- A word is staged in line `n` of the window staging memory: merged, in a new place, or not at all. -/
def W.winStage (w : W) (n o v : Nat) : W × Nat :=
  let s := w.dev.sto
  if s.win.any (fun l => l.line == n && !l.started) then
    (w.modSto (fun s => { s with win := s.win.map (fun l => if l.line == n && !l.started then { l with data := putWord l.data o v } else l) }), stOK)
  else if s.win.length < 16 then
    ((w.modSto (fun s => { s with win := s.win ++ [{ line := n, data := putWord (w.line n) o v }] })).winFull, stOK)
  else (w, stTIMEOUT)

/-- A 32-bit write through the window. -/
def W.winWrite (w : W) (t off v : Nat) : W × Nat :=
  if w.mayWriteWin t off then w.winStage (off / 64) (off % 64) v else (w, stDENIED)

/-- The oldest staged window line starts its commit; none starts during a brown notice (R71). -/
def W.winStart (w : W) : W :=
  if w.dev.sup.notice then w
  else
    match w.dev.sto.win.findIdx? (fun l => !l.started) with
    | some i => w.modSto (fun s => { s with win := lmod s.win i (fun l => { l with started := true }) })
    | none => w

/-! ## Marks (R352) -/

/-- Write a MARK entry. -/
def W.mark (w : W) (kind ten value : Nat) : W := w.logT 0x14 [(6, 1, kind), (7, 3, ten), (10, 16, value)]

/-- A RECn mark: counted, recorded, and a trigger when RECTRIG is 1. -/
def W.recMark (w : W) : W :=
  let w := w.modLog (fun g => { g with marks := satAdd 16 g.marks 1, lastRec := some w.mono })
  let w := w.mark 0 0 w.dev.log.marks
  if w.cfg.log.rectrig then w.trigger else w

/-- A filtered falling edge on RECn. In REPLAY the log says which marks there were (R358). -/
def W.recn (w : W) : W :=
  let soon := match w.dev.log.lastRec with
    | some t => decide (w.mono < t + 10000000)
    | none => false
  if !w.cfg.log.recen || soon then w
  else if w.dev.log.lstate = 4 then
    let x := w.rplExpect
    if x.2.any (fun e => fld (nth e 0) 0 6 == 0x14 && fld (nth e 0) 6 1 == 0) then x.1.recMark else x.1
  else w.recMark

/-- A write to LOG_MARK. -/
def W.logMark (w : W) (t v : Nat) : W × Nat := (w.mark 1 t v, stOK)

/-! ## Actions (R351, R355) -/

/-- FREEZE acts in RUN and POST. -/
def W.freeze (w : W) : W := if w.dev.log.recording then w.freezeLog else w

/-- ARM returns a frozen or loading log to RUN. -/
def W.armLog (w : W) : W :=
  if w.dev.log.lstate = 2 ∨ w.dev.log.lstate = 3 then (w.modLog (fun g => { g with lstate := 0, toseq := 0, foseq := 0 })).logHeader else w

/-- LOAD, GO and ABORT are accepted in this life-cycle state. -/
def Dev.mayLoad (d : Dev) : Bool := d.fus.lcs == 0 || (d.fus.lcs == 1 && !d.fus.odd) || (d.fus.lcs == 3 && d.fus.vdbg)

/-- LOAD from RUN or FROZEN: the line being filled is committed first. -/
def W.loadLog (w : W) : W :=
  if w.dev.log.lstate = 0 ∨ w.dev.log.lstate = 2 then ((w.closeLine).modLog (fun g => { g with lstate := 3 })).logHeader else w

/-! ## Replay (R356, R360) -/

/-- REV_ID [15:0]. -/
def Dev.revId (d : Dev) : Nat := packN [(0, 8, 0x02), (8, 8, if d.bar.bstepSeen then 0x02 else 0)]

/-- The reason a GO is refused for, if any (Table 18.10). -/
def W.goRefused (w : W) : Option Nat :=
  let q := w.dev.rpl.src
  let l := w.line (oLine q)
  if !w.dev.mayLoad then some 1
  else if w.dev.log.lstate ≠ 3 then some 5
  else if q = 0 ∨ at' l 0 4 ≠ q ∨ at' l 12 1 ≠ 1 ∨ !lcrcOk l then some 2
  else if at' l 24 2 ≠ w.dev.revId then some 3
  else if !w.dev.img.woven ∨ at' l 20 4 ≠ w.cfg.imgcrc.toNat then some 4
  else none

/-- The state that the START line gives, once the rack die is cleared. -/
def W.fromStart (l : List Byte) (q fo : Nat) (w : W) : W :=
  let w := w.modTim (fun t => { t with
    now := at' l 4 8, nowFrac := 0, mono := at' l 26 8, monoFrac := 0, fcorr := clampF (toInt 32 (at' l 38 4)), slewLeft := 0,
    state := fld (at' l 19 1) 2 2, tset := tbit (at' l 18 1) 7, stepPend := false })
  let w := w.modRing (fun r => { r with addr := at' l 17 1 })
  let w := w.modLog (fun g => { g with lstate := 4, foseq := fo })
  (w.modRpl (fun r => { src := r.src, rstate := 1, at' := q })).logHeader

/-- An accepted GO: a soft reset that starts from the START line (Export and replay). RST_CAUSE.LAST is that of the line. -/
def W.goNow (w : W) : W :=
  let q := w.dev.rpl.src
  let l := w.line (oLine q)
  let h := w.line lnOrder
  let fo := if lcrcOk h then at' h 10 4 else 0
  w.softNow (at' l 16 1 % 16) (W.fromStart l q fo)

/-- GO: refused with its reason, or the replay begins; the restart is asked for as a soft reset with the cause 256, and held
as one during a brown notice. -/
def W.goLog (w : W) : W × Nat :=
  match w.goRefused with
  | some r => (if 4 ≤ w.dev.log.lstate then w else w.modRpl (fun x => { x with rstate := 4, reason := r }), stDENIED)
  | none =>
    if w.dev.sup.notice then
      ((w.modRst (fun r => { r with softWait := some 256 })).modSup (fun s => { s with defer := s.defer ++ [.soft] }), stOK)
    else (w.ask (.soft 256), stOK)

/-- ABORT ends a replay. -/
def W.abortLog (w : W) : W := if w.dev.log.lstate = 4 then w.rplStop 2 12 0 0 0 0 else w

/-- RWAIT has run out: the report names the entry that did not come; what RPL_OBS then shows is an open value. -/
def W.rwait (w : W) : W :=
  let x := w.rplExpect
  match x.2 with
  | some e =>
    let k := match x.1.dev.rpl.head with
      | some h => h.2
      | none => 0
    let d := x.1.draw
    d.2.rplStop 3 9 (fld (nth e 0) 0 6) k (nth e 0) d.1.toNat
  | none => x.1

/-- A soft reset held during a brown notice starts once the deferred work has been committed (R94). -/
def W.softDeferred (w : W) : W :=
  match w.dev.rst.softWait with
  | none => w
  | some c =>
    if w.dev.sup.notice || (w.dev.sto.own ++ w.dev.sto.log ++ w.dev.sto.win).any (·.started) then w
    else
      let w := w.modRst (fun r => { r with softWait := none })
      if c = 256 then w.goNow else w.softReset c

/-- A write to LOG_CTRL by tenant `t`. -/
def W.logCtrl (w : W) (t v : Nat) : W × Nat :=
  if t ≠ 4 ∨ v / 2 ^ 16 ≠ 0x4D42 then (w, stDENIED)
  else
    match fld v 0 5 with
    | 1 => (w.freeze, stOK)
    | 2 => (w.armLog, stOK)
    | 4 => if w.dev.mayLoad then (w.loadLog, stOK) else (w, stDENIED)
    | 8 => w.goLog
    | 16 => if w.dev.mayLoad then (w.abortLog, stOK) else (w, stDENIED)
    | _ => (w, stDENIED)

/-! ## LOG registers (Table 18.9) -/

/-- A read in the LOG block. -/
def W.logRead (w : W) (off : Nat) : W × Nat :=
  let g := w.dev.log
  let c := w.cfg.log
  let r := w.dev.rpl
  let s := w.dev.sto
  if off = 4 then (w, packN [(0, 2, c.mode), (2, 2, c.tclass), (4, 1, b2n c.rectrig), (5, 1, b2n c.recen), (6, 11, c.post), (17, 15, c.rwait)])
  else if off = 8 then
    (w.modLog (fun g => { g with rebuilt := false }),
     packN [(0, 3, g.lstate), (3, 11, 1 + g.next % 2047), (14, 1, b2n g.rebuilt), (15, 3, g.frst.length)])
  else if off = 0xC then (w, g.next)
  else if off = 0x10 then (w, g.start)
  else if off = 0x18 then (w.modLog (fun g => { g with marks := 0, gaps := 0 }), packN [(0, 16, g.marks), (16, 16, g.gaps)])
  else if off = 0x1C then
    (w.modSto (fun s => { s with corr := 0, uncorr := 0 }), packN [(0, 5, s.win.length), (8, 8, s.corr), (16, 8, s.uncorr)])
  else if off = 0x20 then (w, r.src)
  else if off = 0x24 then (w, packN [(0, 3, r.rstate), (3, 5, r.reason), (8, 6, r.kind), (14, 4, r.word)])
  else if off = 0x28 then (w, r.at')
  else if off = 0x2C then (w, r.exp)
  else if off = 0x30 then (w, r.obs)
  else if off = 0x34 then (w, r.done)
  else (w, 0)

/-- A write in the LOG block (R362). -/
def W.logWrite (w : W) (t off v : Nat) : W × Nat :=
  if off = 0 then w.logCtrl t v
  else if off = 0x14 then w.logMark t (v % 65536)
  else if off = 0x20 then (if t = 4 then (w.modRpl (fun r => { r with src := v }), stOK) else (w, stDENIED))
  else (w, stDENIED)

end Sys2Proof.Machine
end

