-- ==== Sys2Proof/Machine/Check.lean ====
section
/-! DEFINITION. The check-value units' feed, self-test and registers, and the bindings of engine operations (chapter 14). -/

namespace Sys2Proof.Machine

/-! ## Feed (R289) -/

/-- The tenant may use unit `u`'s feed: the one named in FOWNER, and TS. -/
def Cfg.feeds (c : Cfg) (t u : Nat) : Bool := t == 4 || (c.ck u).fowner == t

/-- A feed write by tenant `t` is accepted. -/
def Cfg.mayFeed (c : Cfg) (t u : Nat) : Bool := c.feeds t u && (c.ck u).width != 0

/-- The running value after bytes are folded into it. -/
def CkCfg.fold (c : CkCfg) (run : Nat) (bs : List Byte) : Nat := crcFold c.params run bs

/-- A write to CK_FEED: COUNT bytes, byte 0 first. -/
def W.ckFeed (w : W) (t u v : Nat) : W × Nat :=
  let n := fld v 24 2
  if !w.cfg.mayFeed t u ∨ n = 0 then (w, stDENIED)
  else
    ((w.ckUse u 2 0).modCk u (fun c => { c with run := BitVec.ofNat 32 ((w.cfg.ck u).fold c.run.toNat ((le 3 v).take n)) }), stOK)

/-- A write to CK_CTRL: START loads INIT. -/
def W.ckStart (w : W) (t u v : Nat) : W × Nat :=
  if !w.cfg.mayFeed t u then (w, stDENIED)
  else (if tbit v 0 then w.modCk u (fun c => { c with run := (w.cfg.ck u).init }) else w, stOK)

/-- A write to CK_RUN stores its low W bits. -/
def W.ckRunWrite (w : W) (t u v : Nat) : W × Nat :=
  if !w.cfg.mayFeed t u then (w, stDENIED)
  else (w.modCk u (fun c => { c with run := BitVec.ofNat 32 (v % 2 ^ (w.cfg.ck u).width) }), stOK)

/-! ## Self-test (R288) -/

/-- Fixed checker `k` has recomputed its value, `ok` when it is that of Table 14.6. -/
def W.fixTest (w : W) (k : Nat) (ok : Bool) : W :=
  let bit : BitVec 7 := BitVec.ofNat 7 (2 ^ k)
  let was := w.dev.fixBad.getLsbD k
  let w := { w with dev.fixBad := if ok then w.dev.fixBad &&& ~~~bit else w.dev.fixBad ||| bit }
  if !ok && !was then w.raiseU 0x53 k else w

/-- A defined unit has recomputed its value, `ok` when it is REF. -/
def W.unitTest (w : W) (u : Nat) (ok : Bool) : W :=
  if (w.cfg.ck u).width = 0 then w
  else
    let was := (w.dev.ckUnit u).failed
    let w := w.ckUse u 3 0
    if !ok && !was then (w.modCk u (fun c => { c with failed := true })).raiseU 0x52 u else w

/-- A self-test that has fallen due: which fixed checkers and which units gave their values. -/
def W.selfTest (w : W) (fixedOk : BitVec 7) (unitOk : BitVec 4) : W :=
  let w := (List.range 7).foldl (fun w k => w.fixTest k (fixedOk.getLsbD k)) w
  (List.range 4).foldl (fun w u => w.unitTest u (unitOk.getLsbD u)) w

/-! ## Bindings (R283, R284) -/

/-- The unit bound to engine `e` in a direction: `true` strips. -/
def Cfg.bound (c : Cfg) (e : Nat) (dir : Bool) : Option Nat :=
  (List.range 4).find? (fun u => (c.ck u).en && (c.ck u).width != 0 && (c.ck u).engine == e && (c.ck u).dir == dir)

/-- The binding that an engine operation of ticket `n` begins under: `none` where it completes DENIED. An append lengthens the
operation by its check bytes and takes the next alive counter. -/
def W.bindOp (w : W) (n : Nat) (o : Op) (e : Nat) : Option W :=
  match w.cfg.bound e (decide (o.kind = .erx)) with
  | none => some w
  | some u =>
    let c := w.cfg.ck u
    let x := w.dev.ckUnit u
    let set := fun (w : W) (o : Op) => w.modPool (fun p => p.setTkt n { p.tkt n with op := some o, bind := some (u, c, x.txAlive) })
    if o.kind = .erx then
      if o.dlen ≤ c.cb ∨ (c.alw ≠ 0 ∧ o.dlen ≤ c.aoff + c.alwBytes + c.cb) then none else some (set w o)
    else if 4096 < o.dlen + c.cb ∨ x.failed then none
    else some ((set w { o with dlen := o.dlen + c.cb }).modCk u (fun y => { y with txAlive := (y.txAlive + 1) % 2 ^ c.alwBits }))

/-! ## CHK registers (Tables 14.7, 14.8) -/

/-- CK_CFG. -/
def CkCfg.cfgReg (c : CkCfg) : Nat :=
  packN [(0, 6, c.width), (6, 1, b2n c.refin), (7, 1, b2n c.refout), (8, 3, c.fowner), (12, 2, c.alw), (16, 4, c.gap)]

/-- CK_BIND. -/
def CkCfg.bindReg (c : CkCfg) : Nat := packN [(0, 3, c.engine), (3, 1, b2n c.en), (4, 1, b2n c.dir), (5, 1, b2n c.order), (8, 8, c.aoff)]

/-- CK_VALUE: the check value of RUN, 0 for an undefined unit. -/
def CkCfg.value (c : CkCfg) (run : Nat) : Nat := if c.width = 0 then 0 else crcOut c.params run

/-- A read in a unit's window. -/
def W.chkRead (w : W) (t off : Nat) : W × Nat × Nat :=
  if 0x100 ≤ off then (w, stOK, 0)
  else
    let u := off / 0x40
    let r := off % 0x40
    let c := w.cfg.ck u
    let x := w.dev.ckUnit u
    if r = 0 then (w, stOK, c.cfgReg)
    else if r = 4 then (w, stOK, c.poly.toNat)
    else if r = 8 then (w, stOK, c.init.toNat)
    else if r = 0xC then (w, stOK, c.xorout.toNat)
    else if r = 0x10 then (if w.cfg.feeds t u then (w, stOK, if c.width = 0 then 0 else x.run.toNat) else (w, stDENIED, 0))
    else if r = 0x1C then (if w.cfg.feeds t u then (w, stOK, c.value x.run.toNat) else (w, stDENIED, 0))
    else if r = 0x20 then (w, stOK, c.bindReg)
    else if r = 0x24 then (w, stOK, packN [(0, 3, x.verdict), (3, 10, x.vtkt), (16, 16, x.vseq)])
    else if r = 0x28 then (w, stOK, x.rxv.toNat)
    else if r = 0x2C then (w, stOK, x.calcV.toNat)
    else if r = 0x30 then (w.modCk u (fun x => { x with mism := 0, aliveRej := 0 }), stOK, packN [(0, 16, x.mism), (16, 16, x.aliveRej)])
    else if r = 0x34 then (w, stOK, c.ref.toNat)
    else if r = 0x38 then (w, stOK, packN [(0, 1, b2n x.failed), (1, 1, b2n x.seen), (8, 16, x.last)])
    else (w, stOK, 0)

/-- A write in the CHK block. -/
def W.chkWrite (w : W) (t off v : Nat) : W × Nat :=
  if 0x100 ≤ off then (w, stOK)
  else
    let u := off / 0x40
    if off % 0x40 = 0x10 then w.ckRunWrite t u v
    else if off % 0x40 = 0x14 then w.ckFeed t u v
    else if off % 0x40 = 0x18 then w.ckStart t u v
    else (w, stOK)

end Sys2Proof.Machine
end

