-- ==== Sys2Proof/Machine/Fuse.lean ====
section
/-! DEFINITION. Life cycle, fuses and the TAP (chapter 6). -/

namespace Sys2Proof.Machine

/-! ## TAP instructions (Table 6.6) -/

/-- The opcodes of Table 6.6. -/
abbrev tapOps : List Nat := [0x00, 0x01, 0x02, 0x03, 0x04, 0x10, 0x11, 0x12, 0x18, 0x1C, 0x3F]

/-- The instruction is available in the present state (R115, R120). -/
def Fuse.may (f : Fuse) (op : Nat) : Bool :=
  if op = 0x00 ∨ op = 0x03 ∨ op = 0x04 then f.lcs != 2 || f.prot.getLsbD 1
  else if op = 0x11 then decide (f.lcs ≤ 1)
  else if op = 0x12 then f.lcs != 3
  else if op = 0x18 then decide (f.lcs ≤ 1) || (f.lcs == 2 && f.prot.getLsbD 2) || (f.lcs == 3 && f.vdbg)
  else if op = 0x1C then f.lcs == 3 && decide (f.fails < 3)
  else tapOps.contains op

/-- An instruction is updated into the instruction register: it runs, or selects BYPASS with TAP_REFUSED set. Any update closes the
debug port, and the boundary-scan instructions take the ring ports' pins. -/
def W.tap (w : W) (op : Nat) (f : W → W) : W :=
  let w := w.modFus (fun x => { x with dbgOpen := false, chalHeld := false, chalLive := false, tdo := [] })
  if w.dev.fus.may op then f ((w.modFus (fun x => { x with inst := op })).evalPorts)
  else (w.modFus (fun x => { x with inst := 0x3F, tapRefused := true })).evalPorts

/-- An instruction without further effect. -/
def W.tapOnly (w : W) (op : Nat) : W := w.tap op id

/-- SAMPLE/PRELOAD: what the pins show is an open value, or a value is loaded. -/
def W.sample (w : W) (x : Option Nat) : W :=
  w.tap 0x01 (fun w =>
    match x with
    | some v => w.modFus (fun f => { f with boundary := v })
    | none => let d := w.draw; d.2.modFus (fun f => { f with boundary := d.1.toNat, tdo := le 4 d.1.toNat }))

/-- IDCODE. -/
def W.idcode (w : W) : W := w.tap 0x02 (fun w => w.modFus (fun f => { f with tdo := le 4 0x251247A5 }))

/-- BYPASS, or an unlisted opcode, or a listed one that is refused; one that is available has a row of its own. -/
def W.bypass (w : W) (op : Nat) : W :=
  if op = 0x3F ∨ !tapOps.contains op then w.tap 0x3F id
  else if w.dev.fus.may op then w
  else w.tapOnly op

/-- TRSTn low or Test-Logic-Reset: IDCODE, and the debug port closes. -/
def W.trst (w : W) : W := (w.modFus (fun f => { f with inst := 0x02, dbgOpen := false, chalHeld := false, chalLive := false })).evalPorts

/-! ## Fuses -/

/-- FUSE_READ of a word: the secret and reserved words read 0, TRIM outside BLANK too (Table 6.3, R111). -/
def W.fuseShown (w : W) (i : Nat) : Nat :=
  if (4 ≤ i ∧ i ≤ 21) ∨ 30 ≤ i ∨ (22 ≤ i ∧ w.dev.fus.lcs ≠ 0) then 0 else w.fuseN i

/-- FUSE_READ. -/
def W.fuseRead (w : W) (i : Nat) : W := w.tap 0x10 (fun w => w.modFus (fun f => { f with tdo := le 4 (w.fuseShown i) }))

/-- Blow bits of a word. -/
def W.blowBits (w : W) (i : Nat) (v : BitVec 32) : W := { w with blow := (i, v) :: w.blow }

/-- FUSE_PROG of a word is refused (R110). -/
def W.progRefused (w : W) (i : Nat) (v : BitVec 32) (inRange : Bool) : Bool :=
  (w.dev.fus.lcs != 0 && i != 1 && !(decide (4 ≤ i) && decide (i ≤ 12))) || (i == 1 && decide (2 ^ 13 ≤ v.toNat)) ||
    (decide (4 ≤ i) && decide (i ≤ 12) && tbit (w.fuseN 1) 3) || !inRange

/-- FUSE_PROG (R110): after a failed verify the bits that were blown are an open subset of the value. -/
def W.fuseProg (w : W) (i : Nat) (v : BitVec 32) (inRange verified : Bool) : W :=
  w.tap 0x11 (fun w =>
    if w.progRefused i v inRange then w.modFus (fun f => { f with tdr := 2 })
    else if verified then (w.blowBits i v).modFus (fun f => { f with tdr := 1 })
    else let d := w.draw; (d.2.blowBits i (v &&& d.1)).modFus (fun f => { f with tdr := 3 }))

/-! ## LC_ADVANCE (R107, R118) -/

/-- The return token: the first 128 bits of the tag over "VNRT" and SERIAL. -/
def Fuse.token (f : Fuse) : List Byte := (hmac f.key (mark4 0x56 0x4E 0x52 0x54 ++ le 8 f.serial.toNat)).take 16

/-- Every bit of LCS group `k` is blown. -/
def W.groupFull (w : W) (k : Nat) : Bool := fld (w.fuseN 0) (8 * k) 8 == 0xFF

/-- Blow what a group lacks. -/
def W.blowGroup (w : W) (k : Nat) : W := w.blowBits 0 (BitVec.ofNat 32 (0xFF * 2 ^ (8 * k)))

/-- Serial, vendor key and the TS weave bit are programmed. -/
def W.sealable (w : W) : Bool :=
  (w.fuseN 2 != 0 || w.fuseN 3 != 0) && (upto 8 (fun k => w.fuseN (14 + k))).any (· != 0) && tbit (w.fuseN 1) 8

/-- Entry to RETURN (Table 6.7): board reset, groups and key blown, the regions cleared, and an internal hard reset. -/
def W.toReturn (w : W) : W :=
  let w := if w.dev.bd.runs then w.failSafeAll else w
  let w := w.boardGone
  let w := if groupSet (w.fuseN 0) 1 then w else w.blowGroup 1
  let w := (w.blowGroup 2).blowKey.eraseStore
  let sup := w.dev.rst.sup
  let p := w.dev.curPins
  let w := w.hardReset.modRst (fun r => { r with last := 1, sup := sup })
  w.startUp p

/-- The outcome of LC_ADVANCE in the present state: 1 DONE with its effect, or REFUSED. -/
def W.advanceTo (w : W) (target : Nat) (token : Option (List Byte)) : W :=
  let f := w.dev.fus
  let done := fun (w : W) => w.modFus (fun f => { f with tdr := 1 })
  let refused := fun (w : W) => w.modFus (fun f => { f with tdr := 2 })
  if target = 1 ∧ f.lcs = 0 ∧ w.sealable then done (w.blowGroup 0)
  else if target = 1 ∧ f.lcs = 1 ∧ !w.groupFull 0 then done (w.blowGroup 0)
  else if target = 2 ∧ f.lcs = 1 ∧ (!f.prot.getLsbD 0 || f.keyOk) then (done (w.blowGroup 1)).modFus (fun f => { f with fieldPend := true })
  else if target = 2 ∧ f.lcs = 2 ∧ !f.odd ∧ !w.groupFull 1 then done (w.blowGroup 1)
  else if target = 3 ∧ (f.lcs = 1 ∨ f.lcs = 2) then
    if f.keyOk && token != some f.token then (refused w).raiseU 0x1E
    else done w.toReturn
  else refused w

/-- LC_ADVANCE. -/
def W.lcAdvance (w : W) (target : Nat) (token : Option (List Byte)) : W := w.tap 0x12 (fun w => w.advanceTo target token)

/-! ## Debug port and vendor challenge (R116, R120) -/

/-- DBG opens the debug port: DEBUG_OPEN and a DEBUG entry, once for each opening. -/
def W.dbg (w : W) : W :=
  if w.dev.fus.dbgOpen then w
  else w.tap 0x18 (fun w => ((w.modFus (fun f => { f with dbgOpen := true })).logK 0x16 []).raiseU 0x1F)

/-- A challenge: nonce, SERIAL and the challenge count, counted as it is made; held for 10 s above 16 stored failures. -/
def W.vchal (w : W) : W :=
  w.tap 0x1C (fun w =>
    let a := w.draw
    let b := a.2.draw
    let c := b.2.draw
    let d := c.2.draw
    let w := (d.2.modFlt (fun f => { f with vcount := (f.vcount + 1) % 2 ^ 64 })).stageHeader
    let ch := le 4 a.1.toNat ++ le 4 b.1.toNat ++ le 4 c.1.toNat ++ le 4 d.1.toNat ++ le 8 w.dev.fus.serial.toNat ++ le 8 w.dev.flt.vcount
    let held := decide (16 < w.dev.flt.vfail)
    w.modFus (fun f => { f with chal := ch, chalHeld := held, chalLive := !held, tdo := if held then [] else ch }))

/-- The 10 s hold of a challenge ends. -/
def W.vchalShift (w : W) : W :=
  if w.dev.fus.chalHeld then w.modFus (fun f => { f with chalHeld := false, chalLive := true, tdo := f.chal }) else w

/-- A response, taken once for each challenge: a full match opens vendor debug, and anything else is a failure. -/
def W.vchalResp (w : W) (r : List Byte) : W :=
  let f := w.dev.fus
  if f.inst = 0x1C ∧ f.chalLive then
    if r = hmac f.vkey f.chal then w.modFus (fun f => { f with vdbg := true, chalLive := false })
    else ((w.modFus (fun f => { f with fails := min 3 (f.fails + 1), chalLive := false })).modFlt (fun x => { x with vfail := satAdd 16 x.vfail 1 })).stageHeader
  else w

/-! ## FUS registers (Tables 6.8–6.10) -/

/-- FUS_LCS. -/
def Fuse.lcsReg (f : Fuse) : Nat :=
  packN [(0, 2, f.lcs), (2, 1, b2n f.odd), (3, 1, b2n f.keyOk), (4, 1, b2n f.vdbg), (5, 1, b2n f.erasePend), (6, 1, b2n f.fieldPend),
         (7, 1, b2n f.dbgOpen), (8, 1, b2n f.tapRefused)]

/-- A read in the FUS block. -/
def W.fusRead (w : W) (off : Nat) : W × Nat :=
  if off = 0 then (w.modFus (fun f => { f with tapRefused := false }), w.dev.fus.lcsReg)
  else if off = 4 then (w, w.dev.fus.prot.toNat)
  else if off = 8 then (w, w.dev.fus.failmask.toNat)
  else if off = 0xC then (w, packN [(0, 2, w.dev.fus.fails), (16, 16, w.dev.flt.vfail)])
  else (w, 0)

end Sys2Proof.Machine
end

