-- ==== Sys2Proof/Machine/FaultRegs.lean ====
section
/-! DEFINITION. The commands of the fault collector: wire faults, acknowledgement, force, quiet ends, WREN, and the FLT registers
(chapter 15). -/

namespace Sys2Proof.Machine

/-- A domain in which source `s` can be raised. -/
def validDom (s d : Nat) : Bool := if tenantSrc s then decide (d < 5) else d == dUnit

/-- The domain of a register's code: 7 is the unit, 5 and 6 are none. -/
def domOf (x : Nat) : Option Nat := if x = 7 then some dUnit else if x < 5 then some x else none

/-- The tenant whose access raised a fault, 7 for none. -/
def tenOfDom (d : Nat) : Nat := if d < 5 then d else 7

/-! ## Raises (R292, R293) -/

/-- One raise reaches the collector. In REPLAY the raises from pins come from the log (R358). -/
def W.faultRaise (w : W) (s d detail addr : Nat) : W :=
  if !validDom s d || (w.dev.log.lstate == 4 && pinSrc s) then w
  else w.raise s d { detail := detail, addr := addr, ten := tenOfDom d }

/-- A pair shows equal levels for 20 ns: on the rack die a raise, on the board die an event of page 3. -/
def W.wireFault (w : W) (s d : Nat) : W :=
  if !validDom s d || w.dev.flt.wired s then w
  else if boardSrc s then w.bRaise s d 0 true
  else if w.dev.rackOn then w.raise s d { wire := true, ten := tenOfDom d }
  else w

/-- The pair is complementary again. -/
def W.wireClear (w : W) (s : Nat) : W := w.modFlt (fun f => { f with wires := tdel f.wires s })

/-! ## Acknowledgement (R301, R303) -/

/-- The source holds the F slot of a tenant domain, or is one of its hard stop. -/
def Faults.tenantF (f : Faults) (s d : Nat) : Bool :=
  ((f.slot d 2).st != 0 && (f.slot d 2).src == s) || (f.stopOf d).contains s || f.fpend.any (fun e => e.1 == d && e.2.1 == s)

/-- Tenant `t` may acknowledge source `s` in domain `d`. -/
def Faults.mayAck (f : Faults) (t s d : Nat) : Bool := t == 4 || (t == d && !f.tenantF s d)

/-- A write to FLT_ACK. -/
def W.fltAck (w : W) (t s code : Nat) : W × Nat :=
  match domOf code with
  | none => (w, stDENIED)
  | some d =>
    if w.dev.flt.stopped dUnit || !w.dev.flt.mayAck t s d || w.dev.flt.wired s then (w, stDENIED)
    else if w.dev.flt.holds s d then (w.clearSource s d, stOK)
    else (w, stOK)

/-! ## Force (R117, R306) -/

/-- A write to FLT_FKEY. -/
def W.fkeyWrite (w : W) (t key : Nat) : W × Nat :=
  if t ≠ 4 then (w, stDENIED)
  else
    let f := w.dev.flt
    let st := if key = 0xA55A then 1 else if key = 0x5AA5 ∧ f.fkey = 1 ∧ w.mono ≤ f.fkeyT + 1000000 then 2 else 0
    (w.modFlt (fun f => { f with fkey := st, fkeyT := w.mono }), stOK)

/-- Force bits are accepted now from tenant `t`, or from the debug port. -/
def W.mayForce (w : W) (t : Nat) (debug : Bool) : Bool :=
  match w.dev.fus.lcs with
  | 2 => t == 4 && !debug && !w.dev.fus.prot.getLsbD 12 && w.dev.flt.fkey == 2 && decide (w.mono ≤ w.dev.flt.fkeyT + 1000000)
  | 3 => debug && w.dev.fus.vdbg
  | _ => t == 4

/-- The force of an accepted write. -/
def W.forceNow (w : W) (s kind d : Nat) : W :=
  if kind = 1 then w.raise s d { forced := true, ten := tenOfDom d }
  else if w.dev.flt.wired s then w
  else (w.raise s d { wire := true, forced := true, ten := tenOfDom d }).wireClear s

/-- A write to FLT_FORCE; the key sequence serves one write. -/
def W.forceWrite (w : W) (t s kind code : Nat) (debug : Bool) : W × Nat :=
  let ok := w.mayForce t debug && !w.dev.flt.stopped dUnit
  let w := w.modFlt (fun f => { f with fkey := 0 })
  match domOf code with
  | none => (w, stDENIED)
  | some d =>
    if !ok || reservedSrc s || !validDom s d || kind == 0 || (kind != 1 && boardSrc s) then (w, stDENIED)
    else (w.forceNow s kind d, stOK)

/-! ## Quiet ends (R302) -/

/-- The slot at CLEAR. -/
def Faults.clearSlot (f : Faults) (d c : Nat) : Faults := f.setSlot d c {}

/-- A slot's source recovers: it acts as an acknowledgement of the capture, is counted, and is logged. -/
def W.recovered (w : W) (d c : Nat) : W :=
  let s := (w.dev.flt.slot d c).src
  let cap : Capture := tget {} w.dev.flt.caps s
  let w := w.modFlt (fun f => { f with caps := tput f.caps s { cap with held := false }, recov := satAdd 16 f.recov 1 })
  w.logEvent { src := s, cls := c, esc := (w.dev.flt.slot d c).esc, wire := cap.wire, forced := cap.forced, dom := d, acc := cap.acc,
               ten := cap.ten, event := 4, time := w.now, q := w.dev.tim.qual, count := 0, addr := cap.addr, detail := cap.detail,
               ext := cap.ext, recov := w.dev.flt.recov }

/-- A slot recovers: its reactions end. -/
def W.recover (w : W) (d c : Nat) : W := ((w.recovered d c).modFlt (fun f => f.clearSlot d c)).regroup

/-- The unit F recovers by a soft reset, whose end clears the slot (R302, Edges). -/
def W.recoverF (w : W) : W := ((w.recovered dUnit 2).modFlt (fun f => { f with frec := f.frec + 1 })).ask (.soft 5)

/-- The quiet period of an ACTIVE slot ends; the unit F recovers while FREC is below FLIMIT, and waits where its soft reset does. -/
def W.quietEnd (w : W) (d c : Nat) : W :=
  let sl := w.dev.flt.slot d c
  let unitF := decide (d = dUnit) && decide (c = 2)
  if sl.st ≠ 1 ∨ (unitF ∧ w.dev.rst.softWait.isSome) then w
  else
    let w := w.logK 0x07 [(6, 4, 3), (10, 16, 3 * d + c)]
    let f := w.dev.flt
    if !tbit sl.word 13 || f.wired sl.src || f.stopped d || (unitF && decide (w.cfg.flt.flimit ≤ f.frec)) then
      w.modFlt (fun f => f.setSlot d c { sl with st := 2 })
    else if unitF then w.recoverF
    else w.recover d c

/-! ## WREN (R304) -/

/-- A slot holds a source whose reaction word stops WREN; STOPW of 0x0A does not count after a stuck release (R101). -/
def Dev.stopW (d : Dev) : Bool := d.flt.active.any (fun e => tbit e.2.2.word 7 && !(e.2.2.src == 0x0A && d.rst.last == 3))

/-- WREN is held low by a fault. -/
def Dev.wrenHeld (d : Dev) : Bool := d.flt.fatal || d.stopW

/-- A half-period of WREN ends. -/
def W.wrenStep (w : W) : W :=
  w.modFlt (fun f => { f with wren := if w.dev.wrenHeld || !w.dev.img.woven then false else !f.wren })

/-! ## FLT registers (Tables 15.9–15.11) -/

/-- FLT_STATUS. -/
def Dev.fltStatus (d : Dev) : Nat :=
  packN [(0, 1, b2n d.flt.fatal), (1, 1, b2n (d.flt.stopped dUnit)), (2, 1, b2n d.wrenHeld), (8, 8, (d.flt.slot dUnit 2).src)]

/-- FLT_DOMd. -/
def Faults.domReg (f : Faults) (d : Nat) : Nat :=
  packN [(0, 2, (f.slot d 0).st), (2, 2, (f.slot d 1).st), (4, 2, (f.slot d 2).st), (6, 1, b2n (f.blocked d)), (7, 1, b2n (f.stopped d)),
         (8, 7, (f.slot d 0).src), (16, 7, (f.slot d 1).src), (24, 7, (f.slot d 2).src)]

/-- FLT_RAISEDk and FLT_WIREk. -/
def Faults.raisedReg (f : Faults) (k : Nat) : Nat := packN (upto 32 (fun n => (n, 1, b2n (f.active.any (fun e => e.2.2.src == 32 * k + n)))))
def Faults.wireReg (f : Faults) (k : Nat) : Nat := packN (upto 32 (fun n => (n, 1, b2n (f.wired (32 * k + n)))))

/-- A read in the window of source `s`. -/
def W.fsRead (w : W) (s r : Nat) : W × Nat :=
  let c : Capture := tget {} w.dev.flt.caps s
  if r = 0 then
    ({ w with dev.flt.caps := tput w.dev.flt.caps s { c with count := 0 } },
     packN [(0, 2, c.cls), (2, 1, b2n c.esc), (3, 1, b2n c.wire), (4, 1, b2n c.forced), (5, 3, c.dom), (8, 8, c.count), (16, 2, nativeCls s)])
  else if r = 4 then (w, c.addr)
  else if r = 8 then (w, packN [(0, 4, c.acc), (4, 3, c.ten), (8, 2, c.q)])
  else if r = 0xC then (w, c.time % 2 ^ 32)
  else if r = 0x10 then (w, c.time / 2 ^ 32)
  else if r = 0x14 then (w, c.detail)
  else if r = 0x18 then
    (w, if c.held then w.cfg.flt.react' s (if c.dom < 5 then c.dom else dUnit) c.cls else w.cfg.flt.react' s dUnit (nativeCls s))
  else (w, 0)

/-- A read in the FLT block. -/
def W.fltRead (w : W) (off : Nat) : W × Nat :=
  let f := w.dev.flt
  let c := w.cfg.flt
  if off = 0 then (w, w.dev.fltStatus)
  else if off = 4 then (w, packN [(0, 16, f.recov), (16, 4, f.frec), (20, 4, c.flimit)])
  else if off = 0xC then (w, packN [(0, 10, c.qc), (10, 10, c.qu), (20, 10, c.qf)])
  else if 0x10 ≤ off ∧ off < 0x28 then (w, f.domReg ((off - 0x10) / 4))
  else if off = 0x38 then (w, packN (upto 5 (fun t => (6 * t, 6, nth c.naddr t))))
  else if off = 0x3C then
    (w.modFlt (fun f => { f with rebuilt := false }), packN [(0, 8, f.head), (8, 7, f.evq.length), (15, 1, b2n f.rebuilt), (16, 16, f.next)])
  else if 0x40 ≤ off ∧ off < 0x4C then (w, f.raisedReg ((off - 0x40) / 4))
  else if 0x50 ≤ off ∧ off < 0x5C then (w, f.wireReg ((off - 0x50) / 4))
  else if 0x60 ≤ off ∧ off < 0x7C then (w, (c.lgrp.getD ((off - 0x60) / 4) 0).toNat)
  else if 0x1000 ≤ off ∧ off < 0x1C00 then w.fsRead ((off - 0x1000) / 0x20) (off % 0x20)
  else (w, 0)

/-- A write in the FLT block (R308). -/
def W.fltWrite (w : W) (t off v : Nat) (debug : Bool) : W × Nat :=
  if off = 8 then w.fltAck t (fld v 0 7) (fld v 8 3)
  else if off = 0x30 then w.fkeyWrite t (v % 65536)
  else if off = 0x34 then w.forceWrite t (fld v 0 7) (fld v 8 2) (fld v 12 3) debug
  else (w, stDENIED)

end Sys2Proof.Machine
end

