-- ==== Sys2Proof/Machine/Regs.lean ====
section
/-! DEFINITION. Register access (chapter 1): the ID, HPT, TEN, POOL and ARB blocks, the buffer window, and the rack-side dispatch over
every block of Table 1.5 with the rights of R19–R25. -/

namespace Sys2Proof.Machine

/-! ## ID (Tables 1.8–1.14, 2.4–2.7, 3.9–3.12) -/

/-- DIE_STATUS. -/
def Dev.dieStatus (d : Dev) : Nat :=
  packN [(0, 1, b2n d.bar.beaconIn), (1, 1, b2n d.bar.bSupply), (2, 1, d.img.bank), (3, 1, b2n d.img.woven), (8, 6, d.ring.addr),
         (16, 2, d.pins.hostsel), (18, 1, b2n d.pins.head)]

/-- SLOT_AVG: 0 before 256 slots. -/
def Monitors.slotAvg (m : Monitors) : Nat := if m.slots.length < 256 then 0 else m.slots.sum / 256

/-- PIN_A: the levels of TPI, RECn and HEADn at the read are open values, which State then holds. -/
def W.pinA (w : W) : W × Nat :=
  let d := w.draw
  let x := d.1
  let w := d.2.modPins (fun p => { p with tpi := x.getLsbD 1, recn := x.getLsbD 2, headn := x.getLsbD 4 })
  (w, packN [(0, 1, b2n w.dev.pins.rstn), (1, 1, b2n (x.getLsbD 1)), (2, 1, b2n (x.getLsbD 2)), (3, 1, b2n w.dev.pai.pairn),
             (4, 1, b2n (x.getLsbD 4))])

/-- A read in the ID block. -/
def W.idRead (w : W) (off : Nat) : W × Nat :=
  let m := w.dev.mon
  let serial := if w.dev.fus.lcs = 0 then 0 else w.dev.fus.serial.toNat
  if off = 0 then (w, 0x51247A4C)
  else if off = 4 then (w, w.dev.revId)
  else if off = 8 then (w, serial % 2 ^ 32)
  else if off = 0xC then (w, serial / 2 ^ 32)
  else if off = 0x10 then (w, 0x10000400)
  else if off = 0x14 then (w, 0x00854820)
  else if off = 0x18 then (w, w.dev.dieStatus)
  else if off = 0x20 then (w.modMon (fun m => { m with pacePeak := m.pace }), packN [(0, 16, m.pace), (16, 16, m.pacePeak)])
  else if off = 0x24 then (w.modMon (fun m => { m with slotPeak := 0 }), packN [(0, 16, m.slotAvg), (16, 16, m.slotPeak)])
  else if off = 0x28 then (w, packN [(0, 1, b2n m.aSlow), (1, 1, b2n m.bSlow), (16, 16, m.paceB)])
  else if off = 0x30 then (w, 0x1170)
  else if off = 0x34 then w.pinA
  else if off = 0x38 then (w.modMon (fun m => { m with cmtSeen := 0, cmtOver := 0 }), packN [(0, 16, m.cmtSeen), (16, 16, m.cmtOver)])
  else (w, 0)

/-! ## HPT (Tables 8.14, 8.15) -/

/-- HPT_IRQ. -/
def HostPort.irq (h : HostPort) : Nat :=
  packN [(0, 1, b2n !h.rq.isEmpty), (1, 1, b2n h.irqDrop), (2, 1, b2n h.irqErr), (3, 5, h.irqTen.toNat)]

/-- HPT_STATUS. -/
def HostPort.statusReg (h : HostPort) : Nat :=
  packN [(0, 8, h.rq.length), (8, 7, (h.rqBytes + 1023) / 1024), (16, 2, h.rx.length)]

/-- A read in the HPT block. -/
def W.hptRead (w : W) (off : Nat) : W × Nat :=
  let h := w.dev.hpt
  if off = 0 then (w, h.shortTen)
  else if off = 4 then (w, h.tmask.toNat)
  else if off = 8 then (w, h.statusReg)
  else if off = 0xC then (w, h.irq)
  else if off = 0x10 then (w, h.irqEn.toNat)
  else if off = 0x14 then
    (w.modHpt (fun h => { h with frameErr := 0, overrun := 0, replyDrop := 0 }), packN [(0, 8, h.frameErr), (8, 8, h.overrun), (16, 8, h.replyDrop)])
  else if off = 0x18 then (w, packN [(0, 8, h.lastErr.1), (8, 8, h.lastErr.2.1), (16, 3, h.lastErr.2.2)])
  else (w, 0)

/-- A write to HPT_IRQ: a tenant other than TS clears its own bit alone (R170). -/
def HostPort.clearIrq (h : HostPort) (t v : Nat) : HostPort :=
  if t = 4 then { h with irqDrop := h.irqDrop && !tbit v 1, irqErr := h.irqErr && !tbit v 2, irqTen := h.irqTen &&& ~~~(BitVec.ofNat 5 (v / 8)) }
  else { h with irqTen := if tbit v (3 + t) then h.irqTen &&& ~~~(BitVec.ofNat 5 (2 ^ t)) else h.irqTen }

/-- A write in the HPT block (R170). -/
def W.hptWrite (w : W) (t off v : Nat) : W × Nat :=
  if off = 0 then (if t ≠ 4 ∨ 4 < v % 8 then (w, stDENIED) else (w.modHpt (fun h => { h with shortTen := v % 8 }), stOK))
  else if off = 4 then (if t ≠ 4 then (w, stDENIED) else (w.modHpt (fun h => { h with tmask := BitVec.ofNat 5 v }), stOK))
  else if off = 0x10 then (if t ≠ 4 then (w, stDENIED) else (w.modHpt (fun h => { h with irqEn := BitVec.ofNat 8 v }), stOK))
  else if off = 0xC then (w.modHpt (fun h => h.clearIrq t v), stOK)
  else (w, stOK)

/-! ## TEN (Tables 5.9, 8.16, 9.6, 9.7) -/

/-- The generation that takes effect at the tenant's next reset. -/
def Dev.genPend (d : Dev) (p : Nat) : Nat := if d.img.woven then (d.img.cfg.ten p).gen else (d.ten p).gen

/-- Stream `n` of a tenant block. -/
def Tenant.stream (x : Tenant) (n : Nat) : StreamSt := tget {} x.streams n

/-- A read in TEN page `p`. -/
def W.tenRead (w : W) (p off : Nat) : W × Nat :=
  let x := w.dev.ten p
  let c := w.cfg.ten p
  let q := fun (k : Nat) => (x.queues.getD k []).length
  if off = 0 then (w, packN [(0, 1, b2n x.tdebt), (1, 1, b2n x.bdebt)])
  else if off = 4 then (w, packN [(0, 11, c.minT), (16, 11, c.maxT)])
  else if off = 8 then (w, packN [(0, 13, c.minB), (16, 13, c.maxB)])
  else if off = 0xC then (w, packN [(0, 11, x.tktUse), (16, 13, x.bufUse)])
  else if off = 0x10 then (w, packN [(0, 11, q 0), (16, 11, q 1)])
  else if off = 0x14 then (w, packN [(0, 11, q 2), (16, 11, q 3)])
  else if off = 0x18 then
    (w.modTen p (fun x => { x with noticket := 0, nobuf := 0, freeDenied := 0 }), packN [(0, 8, x.noticket), (8, 8, x.nobuf), (16, 8, x.freeDenied)])
  else if off = 0x1C then
    (w.modTen p (fun x => { x with tktPeak := x.tktUse, bufPeak := x.bufUse }), packN [(0, 11, x.tktPeak), (16, 13, x.bufPeak)])
  else if off = 0x20 then (w, packN [(0, 8, x.lastErr.1), (8, 3, x.lastErr.2.1), (12, 12, x.lastErr.2.2)])
  else if 0x40 ≤ off ∧ off < 0x80 then
    let n := (off - 0x40) / 4
    let s := x.stream n
    (w.modTen p (fun x => { x with streams := tput x.streams n { x.stream n with gaps := 0, stale := 0, checkfail := 0 } }),
     packN [(0, 8, s.gaps), (8, 8, s.stale), (16, 8, s.checkfail)])
  else if 0x80 ≤ off ∧ off < 0xC0 then
    let s := x.stream ((off - 0x80) / 4)
    (w, packN [(0, 16, s.last), (16, 1, b2n s.seen)])
  else if off = 0xF0 then (w, packN [(0, 2, x.gen), (2, 2, w.dev.genPend p), (4, 5, c.streams.length)])
  else if off = 0xFC then (w, packN [(8, 1, b2n x.rst.isSome)])
  else (w, 0)

/-- A write of TEN_RESET from within an issued operation, which completes before the reset it asks for (R87). -/
def W.tenResetAsk (w : W) (t page v : Nat) : W × Nat :=
  if (t ≠ 4 ∧ t ≠ page) ∨ v / 2 ^ 16 ≠ 0x7E4E ∨ !tbit v 0 ∨ (w.dev.ten page).rst.isSome then (w, stDENIED)
  else (w.ask (.tenant page), stOK)

/-! ## POOL (Tables 9.8–9.11) -/

/-- A ticket's state code. -/
def TktState.code : TktState → Nat
  | .free => 0
  | .queued => 1
  | .issued => 2
  | .quarantined => 3

/-- TKT_TAG; a FREE ticket's reads 0. -/
def Ticket.tag (k : Ticket) : Nat :=
  if k.st = .free then 0 else packN [(0, 3, k.ten), (3, 2, k.queue), (5, 2, k.st.code), (7, 2, k.icount), (9, 1, b2n k.board)]

/-- BUF_TAG. -/
def BufTag.tag (b : BufTag) : Nat :=
  packN [(0, 12, b.next), (12, 1, b2n b.last), (13, 1, b2n b.owned), (14, 1, b2n (b.pin != 0)), (15, 3, b.ten), (18, 10, b.ticket)]

/-- A read in the POOL block (R188). -/
def W.poolRead (w : W) (t off : Nat) : W × Nat × Nat :=
  let d := w.dev
  if off = 0 then (w, stOK, packN [(0, 11, d.pool.tktFree.length), (16, 13, d.pool.bufFree.length)])
  else if off = 4 then (w, stOK, packN [(0, 11, (max 0 d.tktShared).toNat), (16, 13, (max 0 d.bufShared).toNat)])
  else if 0x4000 ≤ off ∧ off < 0x5000 then
    let k := d.pool.tkt ((off - 0x4000) / 4)
    if t = 4 ∨ k.st = .free ∨ k.ten = t then (w, stOK, k.tag) else (w, stDENIED, 0)
  else if 0x8000 ≤ off ∧ off < 0xC000 then
    let b := d.pool.buf ((off - 0x8000) / 4)
    if t = 4 ∨ !b.owned ∨ b.ten = t then (w, stOK, b.tag) else (w, stDENIED, 0)
  else (w, stOK, 0)

/-! ## ARB (Tables 10.6–10.8) -/

/-- No ISSUED board-bound ticket of T0–T3 remains. -/
def Dev.drained (d : Dev) : Bool := d.pool.tkts.all (fun k => !(decide (k.2.st = .issued) && k.2.board && k.2.ten != 4))

/-- Fields of `w` bits, one for each tenant. -/
def perTen (w : Nat) (f : Nat → Nat) : Nat := packN (upto 5 (fun t => (w * t, w, f t)))

/-- A read in the ARB block. -/
def W.arbRead (w : W) (off : Nat) : W × Nat :=
  let a := w.dev.arb
  let c := w.cfg
  if off = 0 then (w, b2n a.freeze)
  else if off = 4 then
    (w.modArb (fun a => { a with dead := 0 }),
     packN [(0, 1, b2n a.freeze), (1, 1, b2n (a.freeze && w.dev.drained)), (8, 8, a.wcount), (16, 16, a.dead)])
  else if off = 8 then (w, packN (upto 16 (fun i => (2 * i, 2, a.level i))))
  else if off = 0xC then (w, packN (upto 4 (fun j => (2 * j, 2, a.level (16 + j)))))
  else if 0x10 ≤ off ∧ off < 0x24 then (w, packN (upto 4 (fun q => (8 * q, 8, c.weight (off - 0x10 + q)))))
  else if 0x24 ≤ off ∧ off < 0x38 then (w, packN (upto 4 (fun q => (8 * q, 8, nth a.cred (off - 0x24 + q)))))
  else if off = 0x40 then (w, a.pmode)
  else if off = 0x44 then (w, packN [(0, 6, a.pos), (8, 1, b2n w.dev.urgentHead.isSome)])
  else if off = 0x48 then (w, perTen 5 c.q0cap)
  else if off = 0x4C then (w, perTen 5 (nth a.q0used))
  else if off = 0x50 then (w, perTen 4 (fun t => nth c.arb.bgw t))
  else if off = 0x54 then (w, perTen 6 (nth a.makeup))
  else if off = 0x58 then (w.modArb (fun a => { a with aborts := 0, limit := 0 }), packN [(0, 16, a.aborts), (16, 16, a.limit)])
  else if off = 0x5C then (w.modArb (fun a => { a with emLamp := 0, emDbg := 0 }), packN [(0, 16, a.emLamp), (16, 16, a.emDbg)])
  else if 0x100 ≤ off ∧ off < 0x200 then (w, c.slotOwner ((off - 0x100) / 4))
  else (w, 0)

/-- A write to TQA_PRIO0, or TQA_PRIO1 (R195). -/
def Arb.setPrio (a : Arb) (second : Bool) (v : Nat) : Arb :=
  { a with prio := upto 20 (fun i => if decide (16 ≤ i) == second then fld v (2 * (i % 16)) 2 else a.level i) }

/-- A write in the ARB block (R210). -/
def W.arbWrite (w : W) (t off v : Nat) : W × Nat :=
  if off = 0 ∨ off = 8 ∨ off = 0xC ∨ off = 0x40 then
    if t ≠ 4 then (w, stDENIED)
    else
      (w.modArb (fun a =>
        if off = 0 then { a with freeze := tbit v 0 }
        else if off = 0x40 then { a with pmode := v % 2 }
        else a.setPrio (off == 0xC) v), stOK)
  else (w, stOK)

/-! ## Buffer window (R23, R183) -/

/-- A refused access through the buffer window. -/
def W.bufDenied (w : W) (t b acc : Nat) : W := w.poolFault t 0x22 0 b (bufAddr b) acc

/-- A read through the buffer window. -/
def W.bufRead (w : W) (t off : Nat) : W × Nat × Nat :=
  let b := w.dev.pool.buf (off / 64)
  if b.owned && (t == 4 || b.ten == t) then (w, stOK, leN (w.bufBytes off 4)) else (w.bufDenied t (off / 64) 1, stDENIED, 0)

/-- A write through the buffer window. -/
def W.bufWrite (w : W) (t off v : Nat) : W × Nat :=
  let b := w.dev.pool.buf (off / 64)
  if b.owned && b.ten == t then (w.pokeBuf off (le 4 v), stOK) else (w.bufDenied t (off / 64) 2, stDENIED)

/-! ## Every rack-side block -/

/-- A read that the block answers OK. -/
def okRead (r : W × Nat) : W × Nat × Nat := (r.1, stOK, r.2)

/-- Tenant `t` may reach the TEN page of an address (R22). -/
def mayPage (t a : Nat) : Bool := t == 4 || t == (a - 0x10000) / 0x1000

/-- A read of a rack-side address by tenant `t` (R19–R25). -/
def W.regRead (w : W) (t a : Nat) : W × Nat × Nat :=
  if a % 4 ≠ 0 ∨ !isMapped a ∨ isBoardAddr a then (w, stDENIED, 0)
  else if a < 0x1000 then okRead (w.idRead a)
  else if a < 0x2000 then okRead (w.supRead (a - 0x1000))
  else if a < 0x3000 then okRead (w.rstRead (a - 0x2000))
  else if a < 0x4000 then okRead (w.chnRead (a - 0x3000))
  else if a < 0x5000 then okRead (w.hptRead (a - 0x4000))
  else if a < 0x20000 then (if mayPage t a then okRead (w.tenRead ((a - 0x10000) / 0x1000) (a % 0x1000)) else (w, stDENIED, 0))
  else if a < 0x30000 then w.poolRead t (a - 0x20000)
  else if a < 0x40000 then okRead (w.arbRead (a - 0x30000))
  else if a < 0x50000 then okRead (w.barRead (a - 0x40000))
  else if a < 0x80000 then w.chkRead t (a - 0x70000)
  else if a < 0x90000 then okRead (w.fltRead (a - 0x80000))
  else if a < 0xA0000 then okRead (w.timRead t (a - 0x90000))
  else if a < 0xB0000 then okRead (w.idnRead (a - 0xA0000))
  else if a < 0xC0000 then okRead (w.logRead (a - 0xB0000))
  else if a < 0xD0000 then okRead (w.paiRead (a - 0xC0000))
  else if a < 0xE0000 then okRead (w.imgRead (a - 0xD0000))
  else if a < 0x100000 then okRead (w.fusRead (a - 0xE0000))
  else if a < 0x200000 then w.bufRead t (a - 0x100000)
  else w.winRead t (a - 0x200000)

/-- A write that the block answers at once. -/
def doneWrite (r : W × Nat) : W × Option Nat := (r.1, some r.2)

/-- In the fatal state TS writes the FLT and RST blocks alone (R299). -/
def W.fatalBars (w : W) (t a : Nat) : Bool :=
  w.dev.flt.fatal && !(t == 4 && ((decide (0x2000 ≤ a) && decide (a < 0x3000)) || (decide (0x80000 ≤ a) && decide (a < 0x90000))))

/-- A write of a rack-side address by tenant `t`: `tk` is the ticket that a write waiting for the board die completes, `debug` says
that the debug port makes it. The status is `none` while it waits. -/
def W.regWrite (w : W) (t a v : Nat) (tk : Option Nat) (debug : Bool) : W × Option Nat :=
  if a % 4 ≠ 0 ∨ !isMapped a ∨ isBoardAddr a ∨ w.fatalBars t a then (w, some stDENIED)
  else if a < 0x1000 then (w, some stOK)
  else if a < 0x2000 then doneWrite (w.supWrite t (a - 0x1000) v)
  else if a < 0x3000 then doneWrite (w.rstWrite t (a - 0x2000) v)
  else if a < 0x4000 then doneWrite (w.chnWrite t (a - 0x3000) v)
  else if a < 0x5000 then doneWrite (w.hptWrite t (a - 0x4000) v)
  else if a < 0x20000 then
    if !mayPage t a then (w, some stDENIED)
    else if a % 0x1000 = 0xFC then doneWrite (w.tenResetAsk t ((a - 0x10000) / 0x1000) v)
    else (w, some stOK)
  else if a < 0x30000 then (w, some stDENIED)
  else if a < 0x40000 then doneWrite (w.arbWrite t (a - 0x30000) v)
  else if a < 0x50000 then w.barWrite t (a - 0x40000) v tk
  else if a < 0x80000 then doneWrite (w.chkWrite t (a - 0x70000) v)
  else if a < 0x90000 then doneWrite (w.fltWrite t (a - 0x80000) v debug)
  else if a < 0xA0000 then doneWrite (w.timWrite t (a - 0x90000) v)
  else if a < 0xB0000 then doneWrite (w.idnWrite t (a - 0xA0000) v)
  else if a < 0xC0000 then doneWrite (w.logWrite t (a - 0xB0000) v)
  else if a < 0xD0000 then doneWrite (w.paiWrite t (a - 0xC0000) v)
  else if a < 0xE0000 then doneWrite (w.imgWrite t (a - 0xD0000) v)
  else if a < 0x100000 then (w, some stDENIED)
  else if a < 0x200000 then doneWrite (w.bufWrite t (a - 0x100000) v)
  else doneWrite (w.winWrite t (a - 0x200000) v)

/-! ## Who may ask -/

/-- Every frame of tenant `t` completes DENIED: T0–T3 before the first weave, a blocked tenant, one under reset (R29, R300, R88). -/
def Dev.barred (d : Dev) (t : Nat) : Bool := (t != 4 && !d.img.woven) || d.flt.blocked t || (d.ten t).rst.isSome

/-- A register write by command, without a ticket: its status goes to the access record (log entry 5). -/
def W.act (w : W) (t a v : Nat) : W :=
  if w.dev.barred t then w.ack stDENIED
  else
    let r := w.regWrite t a v none false
    match r.2 with
    | some st => r.1.ack st
    | none => r.1

/-- A register read by command: its status and value go to the access record. -/
def W.look (w : W) (t a : Nat) : W :=
  if w.dev.barred t then w.ack stDENIED
  else
    let r := w.regRead t a
    r.1.ack r.2.1 (BitVec.ofNat 32 r.2.2)

end Sys2Proof.Machine
end

