-- ==== Sys2Proof/Machine/Front.lean ====
section
/-! DEFINITION. The protocol front (chapters 8 and 9): frame errors, tickets and data, the grant of the TQA and rack-side execution,
and the payloads of the three generations. -/

namespace Sys2Proof.Machine

/-! ## Frame errors (R167, R168) -/

/-- A frame error: counted, recorded, answered unless `silent`, and raised. -/
def W.frameErr (w : W) (rt : Route) (gen ten code detail offset : Nat) (silent : Bool := false) : W :=
  let w := w.modHpt (fun h => { h with frameErr := satAdd 8 h.frameErr 1, lastErr := (code, detail % 256, ten) })
  let w := if silent then w
    else w.sendBack rt gen ten 3 (errPayload code detail (if rt.ring then rt.seq.toNat else 0) offset gen ten) false
  w.raiseU 0x18 (packN [(0, 8, code), (8, 8, detail), (16, 3, ten)])

/-! ## Address and rights (check 11) -/

/-- The words a register operation reaches. -/
def Op.words (o : Op) : List Nat :=
  if o.kind = .rdblk ∨ o.kind = .wrblk then upto (o.dlen / 4) (fun i => o.addr.toNat + 4 * i) else [o.addr.toNat]

/-- The operation addresses the board die (R21). -/
def Op.board (o : Op) : Bool :=
  match o.kind with
  | .etx => true
  | .erx => true
  | .free => false
  | .fence => false
  | .tabort => true
  | _ => isBoardAddr o.addr.toNat

/-- Tenant `t` may address the word `a`: aligned, mapped, and no other tenant's TEN page (R11, R19, R22). -/
def addrOk (t a : Nat) : Bool :=
  a % 4 == 0 && isMapped a && (!(decide (0x10000 ≤ a) && decide (a < 0x15000)) || mayPage t a)

/-- The address and rights of an operation that are known before it issues. -/
def Op.addressed (o : Op) : Bool :=
  match o.kind with
  | .etx => (engBase o.addr.toNat).isSome
  | .erx => (engBase o.addr.toNat).isSome
  | .free => true
  | .fence => true
  | .tabort => true
  | _ => o.words.all (fun a => addrOk o.req.ten.val a && isBoardAddr a == isBoardAddr o.addr.toNat)

/-- The operation is a write of a TEN_RESET register (R87). -/
def Op.isReset (o : Op) : Bool :=
  decide (o.kind = .wr) && decide (0x10000 ≤ o.addr.toNat) && decide (o.addr.toNat < 0x15000) && o.addr.toNat % 0x1000 == 0xFC

/-! ## Data (R161, R182) -/

/-- The buffers of a list that a tenant names, or the first failure: source, subtype and buffer. -/
inductive ListRes where
  | ok (bs : List Nat)
  | bad (src sub buf : Nat)
deriving DecidableEq, Repr

/-- The first `n` buffers of the list at `b` for tenant `t` (R182). -/
def Pools.dataList (p : Pools) (t : Nat) : Nat → Nat → List Nat → ListRes
  | 0, _, acc => .ok acc
  | n + 1, b, acc =>
    let x := p.buf b
    if !x.owned || x.ten != t then .bad 0x22 0 b
    else if n ≠ 0 ∧ x.last then .bad 0x23 3 b
    else if 15 ≤ x.pin then .bad 0x23 4 b
    else p.dataList t n x.next (acc ++ [b])

/-- The `n` buffers of the list at `b` that a FREE of tenant `t` names (Table 9.5). -/
def Pools.freeList (p : Pools) (t : Nat) : Nat → Nat → List Nat → ListRes
  | 0, _, acc => .ok acc
  | n + 1, b, acc =>
    let x := p.buf b
    if !x.owned then .bad 0x20 2 b
    else if x.ten ≠ t then .bad 0x20 1 b
    else if n ≠ 0 ∧ x.last then .bad 0x23 3 b
    else if x.pin ≠ 0 then .bad 0x23 4 b
    else p.freeList t n x.next (acc ++ [b])

/-- Buffers for `n` bytes. -/
def bufsFor (n : Nat) : Nat := (n + 63) / 64

/-- A block operation's data needs new buffers. -/
def Op.takes (o : Op) : Bool :=
  decide (o.kind = .rdblk) || decide (o.kind = .erx) || (o.inlineB && (decide (o.kind = .wrblk) || decide (o.kind = .etx)))

/-- The operation reads a buffer list. -/
def Op.lists (o : Op) : Bool := !o.inlineB && (decide (o.kind = .wrblk) || decide (o.kind = .etx))

/-- One more pin for each listed buffer. -/
def Pools.pinAll (p : Pools) (bs : List Nat) : Pools :=
  { p with bufs := bs.foldl (fun t b => tmod {} t b (fun x => { x with pin := x.pin + 1 })) p.bufs }

/-- Ticket `n` takes the new buffers of its operation, filled with its inline data. -/
def W.takeNew (w : W) (n : Nat) (o : Op) : W × Option Nat :=
  let t := o.req.ten.val
  let k := bufsFor o.dlen
  match w.dev.bufTest t k with
  | .ok =>
    let r := w.takeBufs t n k
    let w := r.1.modPool (fun p => p.setTkt n { p.tkt n with bufs := r.2, pins := r.2 })
    (if o.inlineB then w.fillBufs r.2 o.inl else w, none)
  | .short => ((w.poolFault t 0x24 0 0 0 4).modTen t (fun x => { x with nobuf := satAdd 8 x.nobuf 1 }), some stNOBUF)
  | .fail => (w.modTen t (fun x => { x with nobuf := satAdd 8 x.nobuf 1 }), some stNOBUF)

/-- Ticket `n` pins the list that its operation names. -/
def W.pinList (w : W) (n : Nat) (o : Op) : W × Option Nat :=
  let t := o.req.ten.val
  match w.dev.pool.dataList t (bufsFor o.dlen) o.buf [] with
  | .ok bs => (w.modPool (fun p => (p.pinAll bs).setTkt n { p.tkt n with pins := bs }), none)
  | .bad src sub b => (w.poolFault t src sub b (bufAddr b) 4, some stDENIED)

/-- The data of ticket `n`: `some` status where the operation ends here. -/
def W.takeData (w : W) (n : Nat) (o : Op) : W × Option Nat :=
  let t := o.req.ten.val
  let b := w.dev.pool.buf o.buf
  if o.lists then w.pinList n o
  else if o.buf ≠ 0xFFFF ∧ o.kind ≠ .free ∧ !(b.owned && b.ten == t) then (w.poolFault t 0x22 0 o.buf (bufAddr o.buf) 4, some stDENIED)
  else if o.takes then w.takeNew n o
  else (w, none)

/-! ## Rack-side execution (steps 5–8 of Table 1.3) -/

/-- RMW32, SET and CLR read and write one register as one operation; a refused write leaves no trace of the read. -/
def W.modifyReg (w : W) (n : Nat) (o : Op) : W :=
  let t := o.req.ten.val
  let a := o.addr.toNat
  let r := w.regRead t a
  if r.2.1 ≠ stOK then w.complete n r.2.1 0 0
  else
    let v := o.kind.newValue r.2.2 o.value.toNat o.mask.toNat
    let x := r.1.regWrite t a v (some n) false
    match x.2 with
    | none => x.1
    | some st =>
      if st = stDENIED then (w.regWrite t a v (some n) false).1.complete n st 0 0
      else x.1.complete n st 0 r.2.2

/-- A block read of `m` words from `a` on: the bytes read, and the status of the first word that fails. -/
def W.readRegs (w : W) (t : Nat) : Nat → Nat → List Byte → W × List Byte × Nat
  | 0, _, acc => (w, acc, stOK)
  | m + 1, a, acc =>
    let r := w.regRead t a
    if r.2.1 = stOK then r.1.readRegs t m (a + 4) (acc ++ le 4 r.2.2) else (r.1, acc, r.2.1)

/-- A block write of `m` words from `a` on: the bytes written, and the status of the first word that fails. -/
def W.writeRegs (w : W) (t : Nat) (data : List Byte) : Nat → Nat → Nat → W × Nat × Nat
  | 0, _, done => (w, done, stOK)
  | m + 1, a, done =>
    let r := w.regWrite t a (at' data done 4) none false
    match r.2 with
    | some st => if st = stOK then r.1.writeRegs t data m (a + 4) (done + 4) else (r.1, done, st)
    | none => r.1.writeRegs t data m (a + 4) (done + 4)

/-- FREE (R179, R180). -/
def W.freeOp (w : W) (n : Nat) (o : Op) : W :=
  let t := o.req.ten.val
  match w.dev.pool.freeList t o.value.toNat o.buf [] with
  | .ok bs => (w.releaseBufs t bs).complete n stOK 0 bs.length
  | .bad src sub b =>
    ((w.modTen t (fun x => { x with freeDenied := satAdd 8 x.freeDenied 1 })).poolFault t src sub b (bufAddr b) 3).complete n stDENIED 0 0

/-- An earlier ticket of the tenant than ticket `n` has not completed. -/
def Dev.earlier (d : Dev) (n : Nat) : Bool :=
  let k := d.pool.tkt n
  d.pool.tkts.any (fun (e : Nat × Ticket) =>
    e.1 != n && e.2.ten == k.ten && (decide (e.2.st = .queued) || decide (e.2.st = .issued)) && decide (e.2.seqNo < k.seqNo))

/-- FENCE: it completes once every ticket that its tenant took earlier has completed. -/
def W.fenceOp (w : W) (n : Nat) : W := if w.dev.earlier n then w else w.complete n stOK 0 0

/-- A rack-side operation runs. -/
def W.execRack (w : W) (n : Nat) (o : Op) : W :=
  let t := o.req.ten.val
  let a := o.addr.toNat
  let k := w.dev.pool.tkt n
  match o.kind with
  | .rd => let r := w.regRead t a; r.1.complete n r.2.1 0 r.2.2
  | .wr =>
    let r := w.regWrite t a o.value.toNat (some n) false
    (match r.2 with
      | some st => r.1.complete n st 0 0
      | none => r.1)
  | .rmw => w.modifyReg n o
  | .set => w.modifyReg n o
  | .clr => w.modifyReg n o
  | .rdblk => let r := w.readRegs t (o.dlen / 4) a []; (r.1.fillBufs k.bufs r.2.1).complete n r.2.2 0 r.2.1.length
  | .wrblk => let r := w.writeRegs t (w.readBufs k.pins o.dlen) (o.dlen / 4) a 0; r.1.complete n r.2.2 0 r.2.1
  | .free => w.freeOp n o
  | .fence => w.fenceOp n
  | _ => w.complete n stDENIED 0 0

/-- A FENCE that waits completes when nothing earlier is left (R162). -/
def W.fenceDone (w : W) (t : Nat) : W :=
  match w.dev.pool.tkts.find? (fun (e : Nat × Ticket) =>
    decide (e.2.st = .issued) && e.2.ten == t && (match e.2.op with
      | some o => decide (o.kind = .fence)
      | none => false) && !w.dev.earlier e.1) with
  | some e => w.complete e.1 stOK 0 0
  | none => w

/-! ## Issue (R191, R192) -/

/-- A board-bound operation goes to the BXA: FAILSAFE in the fatal state, ABORTED without a live board die, DENIED by its binding (R299,
R220, R283). It ends STANDBY (R83). -/
def W.issueBoard (w : W) (n : Nat) (o : Op) : W :=
  let go := fun (w : W) => (if w.dev.sup.mode = 1 then w.toActive else w).sendOp n
  if w.dev.flt.fatal then w.complete n stFAILSAFE 0 0
  else if !w.dev.bar.bAlive then w.abortTkt n
  else if o.kind = .etx ∨ o.kind = .erx then
    match w.bindOp n o (engAddr o.addr.toNat).1 with
    | some w => go w
    | none => w.complete n stDENIED 0 0
  else go w

/-- An issued ticket starts its operation. -/
def W.issue (w : W) (n : Nat) : W :=
  match (w.dev.pool.tkt n).op with
  | none => w
  | some o => if (w.dev.pool.tkt n).board then w.issueBoard n o else w.execRack n o

/-- Pair `i` is granted. -/
def W.grantPair (w : W) (i : Nat) : W :=
  match w.handover i with
  | (w, some n) => w.issue n
  | (w, none) => w

/-- The TQA grants: the pair that wins selection, or in REPLAY the logged winner once it requests (R191, R357). In STOPPED the TQA is
frozen (R360). -/
def W.tqaGrant (w : W) : W :=
  if w.dev.log.lstate = 5 then w
  else if w.dev.log.lstate = 4 then
    let x := w.rplExpect
    match x.2 with
    | some e =>
      let i := fld (nth e 0) 6 5
      if fld (nth e 0) 0 6 = 1 ∧ (tbit (nth e 0) 23 ∨ !(x.1.dev.pairQueue i).isEmpty) then x.1.grantPair i else x.1
    | none => x.1
  else
    match w.dev.arb.sel with
    | some i => w.grantPair i
    | none =>
      match w.dev.tqaPick with
      | some i => w.grantPair i
      | none => w

/-- A lone waiting ticket is granted at once. -/
def W.kick (w : W) : W :=
  if decide (w.dev.log.lstate < 4) && w.dev.arb.sel.isNone && sum5 (fun t => ((w.dev.ten t).queues.map List.length).sum) == 1 then w.tqaGrant else w

/-! ## Submission (checks 8, 11 and 12) -/

/-- A ticket enters the tail of its queue. -/
def W.enter (w : W) (n : Nat) : W :=
  let k := w.dev.pool.tkt n
  w.modTen k.ten (fun x => { x with queues := lmod x.queues k.queue (fun q => q ++ [n]) })

/-- An operation with a ticket takes its data and enters its queue, or ends. -/
def W.enlist (w : W) (n : Nat) (o : Op) : W :=
  match w.takeData n o with
  | (w, some st) => w.complete n st 0 0
  | (w, none) => w.enter n

/-- A TEN_RESET write takes no ticket. -/
def W.submitReset (w : W) (o : Op) : W :=
  let t := o.req.ten.val
  if w.fatalBars t o.addr.toNat then w.refuse o stDENIED
  else
    match w.tenResetWrite t ((o.addr.toNat - 0x10000) / 0x1000) o.value.toNat (some o) with
    | (w, some st) => w.refuse o st
    | (w, none) => w

/-- One operation on its own: refused, or with a ticket and its data in its queue. -/
def W.submit (w : W) (o : Op) : W :=
  let t := o.req.ten.val
  if w.dev.barred t then w.refuse o stDENIED
  else if !o.addressed then w.refuse o stDENIED
  else if o.isReset then w.submitReset o
  else
    match w.dev.tktTest t 1 with
    | .ok => let r := w.takeTkt t o.req.queue.val o.board o; r.1.enlist r.2 o
    | .short => (w.poolFault t 0x24 0 0 0 4).refuse o stNOTICKET
    | .fail => w.refuse o stNOTICKET

/-! ## Gen1 payloads (Table 8.5) -/

/-- The check of a Gen1 payload: FORMAT detail and offset. -/
def gen1Fault (p : List Byte) : Option (Nat × Nat) :=
  if p.length ≠ 9 then some (10, 0xFFFF)
  else if crc8 (p.take 8) ≠ at' p 8 1 then some (1, 8)
  else if fld (at' p 0 1) 1 3 ≠ 0 then some (2, 0)
  else if at' p 1 3 % 4 ≠ 0 then some (2, 1)
  else none

/-- The operation of a Gen1 payload. -/
def gen1Op (p : List Byte) (rt : Route) (t : Ten) : Op where
  kind := if tbit (at' p 0 1) 0 then .wr else .rd
  req := { ten := t, gen := 1, queue := 2, tag := BitVec.ofNat 16 (fld (at' p 0 1) 4 4), quiet := false, route := rt }
  addr := BitVec.ofNat 32 (at' p 1 3)
  value := BitVec.ofNat 32 (at' p 4 4)

/-! ## Gen2 payloads (Tables 8.6, 8.7, R160) -/

/-- The opcode of a descriptor. -/
def gen2Kind (x : Nat) : Option OpKind :=
  match x with
  | 0x01 => some .rd
  | 0x02 => some .wr
  | 0x03 => some .rmw
  | 0x04 => some .rdblk
  | 0x05 => some .wrblk
  | 0x08 => some .erx
  | 0x09 => some .etx
  | 0x10 => some .free
  | 0x20 => some .fence
  | _ => none

/-- A block or engine opcode, which carries DLEN. -/
def OpKind.block (k : OpKind) : Bool := k == .rdblk || k == .wrblk || k == .erx || k == .etx

/-- What R160 and Table 13.2 refuse in a descriptor: the offset of the field at fault, with FORMAT detail 5. -/
def Op.gen2Fault (o : Op) : Option Nat :=
  if o.addr.toNat % 4 ≠ 0 then some 4
  else if o.kind.block && (o.dlen == 0 || decide (4096 < o.dlen)) then some 8
  else if (o.kind == .rdblk || o.kind == .wrblk) && o.dlen % 4 != 0 then some 8
  else if !o.kind.block && o.dlen != 0 then some 8
  else if o.inlineB && !(o.kind == .wrblk || o.kind == .etx) then some 1
  else if 4095 < o.buf ∧ o.buf ≠ 0xFFFF then some 10
  else if o.kind = .free ∧ (o.value.toNat = 0 ∨ 64 < o.value.toNat) then some 12
  else if o.buf = 0xFFFF ∧ (o.kind = .free ∨ o.lists) then some 10
  else if (o.kind = .erx ∨ o.kind = .etx) ∧ o.value.toNat / 2 ^ 24 ≠ 0 then some 12
  else if (o.kind = .erx ∨ o.kind = .etx) ∧ o.mask.toNat / 2 ^ 16 ≠ 0 then some 16
  else none

/-- The operation of a 32-byte descriptor of kind `k`. -/
def gen2Op (d : List Byte) (k : OpKind) (rt : Route) (t : Ten) : Op where
  kind := k
  req := { ten := t, gen := 2, queue := ⟨fld (at' d 1 1) 0 2, Nat.mod_lt _ (by decide)⟩, tag := BitVec.ofNat 16 (at' d 2 2),
           quiet := tbit (at' d 1 1) 3, route := rt }
  addr := BitVec.ofNat 32 (at' d 4 4)
  dlen := at' d 8 2
  buf := at' d 10 2
  value := BitVec.ofNat 32 (at' d 12 4)
  mask := BitVec.ofNat 32 (at' d 16 4)
  tmo := at' d 20 4
  inlineB := tbit (at' d 1 1) 2

/-- One descriptor at payload offset `pos`, with its inline data: the operation and the bytes used, or detail and offset. -/
def gen2One (rest : List Byte) (pos : Nat) (rt : Route) (t : Ten) : Except (Nat × Nat) (Op × Nat) :=
  let d := rest.take 32
  match gen2Kind (at' d 0 1) with
  | none => .error (4, pos)
  | some k =>
    if at' d 1 1 / 16 ≠ 0 then .error (5, pos + 1)
    else if !(d.drop 24).all (· == 0) then .error (5, pos + 24)
    else
      let o := gen2Op d k rt t
      match o.gen2Fault with
      | some off => .error (5, pos + off)
      | none =>
        if o.inlineB then
          let need := (o.dlen + 31) / 32 * 32
          let data := (rest.drop 32).take need
          if data.length < need then .error (3, pos + 32)
          else if !(data.drop o.dlen).all (· == 0) then .error (5, pos + 32 + o.dlen)
          else .ok ({ o with inl := data.take o.dlen }, 32 + need)
        else .ok (o, 32)

/-- The descriptors of a Gen2 payload from offset `pos` on, at most `n`. -/
def gen2Parse (rt : Route) (t : Ten) : Nat → Nat → List Byte → Except (Nat × Nat) (List Op)
  | 0, pos, rest => if rest.isEmpty then .ok [] else .error (3, pos)
  | n + 1, pos, rest =>
    if rest.isEmpty then .ok []
    else if rest.length < 32 then .error (3, pos)
    else
      match gen2One rest pos rt t with
      | .error e => .error e
      | .ok (o, k) =>
        match gen2Parse rt t n (pos + k) (rest.drop k) with
        | .error e => .error e
        | .ok os => .ok (o :: os)

/-! ## Gen3 payloads (Table 8.9, R163–R166) -/

/-- The opcode of an item. -/
def gen3Kind (x : Nat) : Option OpKind :=
  match x with
  | 0x01 => some .rd
  | 0x02 => some .wr
  | 0x06 => some .set
  | 0x07 => some .clr
  | _ => none

/-- The alive counter's bits. -/
def StreamCfg.aliveBits (s : StreamCfg) : Nat := if s.alive = 0 then 0 else 2 ^ (s.alive + 1)

/-- The items of a message. -/
def gen3Items (p : List Byte) : List (List Byte) := upto ((p.length - 8) / 12) (fun k => (p.drop (4 + 12 * k)).take 12)

/-- The first item with a wrong opcode or reserved byte: its offset. -/
def gen3ItemFault (p : List Byte) : Option Nat :=
  (List.range ((p.length - 8) / 12)).findSome? (fun k =>
    let o := 4 + 12 * k
    if (gen3Kind (at' p o 1)).isNone then some o else if at' p (o + 1) 1 ≠ 0 then some (o + 1) else none)

/-- The format of a Gen3 payload against its streams: detail and offset. -/
def gen3Fault (c : Cfg) (t : Nat) (p : List Byte) : Option (Nat × Nat) :=
  if p.length < 20 ∨ (p.length - 8) % 12 ≠ 0 ∨ 200 < p.length then some (7, 0xFFFF)
  else if 16 ≤ at' p 0 1 then some (8, 0)
  else if 2 ≤ at' p 1 1 then some (8, 1)
  else
    match (c.ten t).streams[at' p 0 1]? with
    | none => some (6, 0)
    | some s =>
      if 2 ^ s.aliveBits ≤ at' p 2 2 then some (8, 2)
      else
        match gen3ItemFault p with
        | some o => some (8, o)
        | none => if 2 ^ (c.ck s.ck).width ≤ at' p (p.length - 4) 4 then some (8, p.length - 4) else none

/-- The operation of item `k` of message `mi`. -/
def gen3Op (b : List Byte) (k mi queue : Nat) (rt : Route) (t : Ten) : Op where
  kind := (gen3Kind (at' b 0 1)).getD .rd
  req := { ten := t, gen := 3, queue := ⟨queue % 4, Nat.mod_lt _ (by decide)⟩, tag := BitVec.ofNat 16 (at' b 2 2), quiet := false, route := rt }
  addr := BitVec.ofNat 32 (at' b 4 4)
  value := BitVec.ofNat 32 (at' b 8 4)
  msg := some mi
  item := k

/-- A message is entered with its items outstanding; the answer is its number. -/
def W.newMsg (w : W) (m : Msg) : W × Nat :=
  let mi := w.dev.hpt.nextMsg
  (w.modHpt (fun h => { h with msgs := tput h.msgs mi m, nextMsg := mi + 1 }), mi)

/-- Every listed item completes with a status and no ticket. -/
def W.failAll (w : W) (os : List Op) (status : Nat) : W := os.foldl (fun w o => w.refuse o status) w

/-- The outcome of the alive procedure. -/
def StreamSt.alive (x : StreamSt) (s : StreamCfg) (r : Nat) : Option StreamSt :=
  if s.aliveBits = 0 then some x
  else if !x.seen then some { x with last := r, seen := true }
  else
    let d := (r + 2 ^ s.aliveBits - x.last % 2 ^ s.aliveBits) % 2 ^ s.aliveBits
    if d = 0 ∨ 1 + s.gap < d then none else some { x with gaps := satAdd 8 x.gaps (d - 1), last := r }

/-- The tickets of a message: one for every item that passed check 11, or none (R163). -/
def W.gen3Take (w : W) (t : Nat) (os : List Op) : W :=
  let bad := os.filter (fun o => !o.addressed)
  let resets := os.filter (fun o => o.addressed && o.isReset)
  let good := os.filter (fun o => o.addressed && !o.isReset)
  let w := w.failAll bad stDENIED
  let w := if good.isEmpty then w
    else
      match w.dev.tktTest t good.length with
      | .ok => good.foldl (fun w o => let r := w.takeTkt t o.req.queue.val o.board o; r.1.enlist r.2 o) w
      | .short => (w.poolFault t 0x24 0 0 0 4).failAll good stNOTICKET
      | .fail => w.failAll good stNOTICKET
  resets.foldl W.submitReset w

/-- A message with a good format runs checks 8 to 12. -/
def W.gen3Run (w : W) (t : Ten) (rt : Route) (p : List Byte) : W :=
  let si := at' p 0 1
  let s := (w.cfg.ten t.val).streams.getD si {}
  let items := gen3Items p
  let r := w.newMsg { ten := t.val, stream := si, hdr := p.take 4, ack := tbit (at' p 1 1) 0, route := rt,
                      items := items.map (fun b => (at' b 2 2, none)) }
  let os := ((List.range items.length).zip items).map (fun (e : Nat × List Byte) => gen3Op e.2 e.1 r.2 s.queue rt t)
  let w := r.1
  if w.dev.barred t.val then w.failAll os stDENIED
  else
    let w := w.ckFront t.val si
    if w.cfg.streamCheck t.val si false (p.take (p.length - 4)) ≠ at' p (p.length - 4) 4 ∨ (w.dev.ckUnit s.ck).failed then
      let w := (w.modTen t.val (fun x => { x with streams := tmod {} x.streams si (fun y => { y with checkfail := satAdd 8 y.checkfail 1 }) })).raise
        0x1A t.val { ten := t.val, acc := 6, detail := si }
      w.failAll os stCHECKFAIL
    else
      match ((w.dev.ten t.val).stream si).alive s (at' p 2 2) with
      | none =>
        let w := (w.modTen t.val (fun x => { x with streams := tmod {} x.streams si (fun y => { y with stale := satAdd 8 y.stale 1 }) })).raise
          0x1B t.val { ten := t.val, acc := 6, detail := si }
        w.failAll os stSTALE
      | some y => (w.modTen t.val (fun x => { x with streams := tput x.streams si y })).gen3Take t.val os

/-! ## One frame at the front (checks 4–12 of Table 8.11) -/

/-- A frame handed to the protocol front: its port and reply route, tenant and generation, whether its CRC agrees, its TYPE, its payload
and the digest that its FRAME entry carries. `dst63` marks a broadcast. -/
structure FrontIn where
  rt : Route
  ten : Nat
  gen : Nat
  crcOk : Bool
  type : Nat
  dst63 : Bool
  pay : List Byte
  digest : Nat
deriving DecidableEq, Repr

/-- The port's code in FRONT and FRAME entries. -/
def frontPort : FPort → Nat
  | .host => 0
  | .up => 1
  | .dn => 2

/-- The payload offset of the QUEUE field of the first descriptor that does not name Q0, from offset `pos` on (R157). -/
def urgOffset : Nat → List Op → Option Nat
  | _, [] => none
  | pos, o :: os =>
    if o.req.queue ≠ 0 then some (pos + 1) else urgOffset (pos + 32 + (if o.inlineB then (o.dlen + 31) / 32 * 32 else 0)) os

/-- The FORMAT fault of a payload in its generation. -/
def FrontIn.format (x : FrontIn) (c : Cfg) (t : Ten) : Except (Nat × Nat) (List Op) :=
  if x.gen = 1 then
    match gen1Fault x.pay with
    | some e => .error e
    | none => if x.rt.urg then .error (9, 0xFFFF) else .ok [gen1Op x.pay x.rt t]
  else if x.gen = 2 then
    if x.pay.isEmpty then .error (3, 0)
    else
      match gen2Parse x.rt t 32 0 x.pay with
      | .error e => .error e
      | .ok os =>
        match (if x.rt.urg then urgOffset 0 os else none) with
        | some off => .error (9, off)
        | none => .ok os
  else
    match gen3Fault c t.val x.pay with
    | some e => .error e
    | none => if x.rt.urg && ((c.ten t.val).streams.getD (at' x.pay 0 1) {}).queue != 0 then .error (9, 0) else .ok []

/-- The generation check (R156): before the first weave only GEN 0 fails. -/
def W.genBad (w : W) (t gen : Nat) : Bool := gen == 0 || (w.dev.img.woven && gen != (w.dev.ten t).gen)

/-- The protocol front takes a frame. -/
def W.front (w : W) (x : FrontIn) : W :=
  let w := w.logK 0x03 [(6, 2, frontPort x.rt.port)]
  if h : x.ten < 5 then
    let t : Ten := ⟨x.ten, h⟩
    if !x.crcOk then w.frameErr x.rt x.gen x.ten 0x02 0 0xFFFF
    else if x.type ≠ 1 then w.frameErr x.rt x.gen x.ten 0x05 x.type 0xFFFF x.dst63
    else if w.genBad x.ten x.gen then w.frameErr x.rt x.gen x.ten 0x06 (w.dev.ten x.ten).gen 0xFFFF
    else
      match x.format w.cfg t with
      | .error e => w.frameErr x.rt x.gen x.ten 0x07 e.1 e.2
      | .ok os =>
        let w := w.logT 0x10 [(6, 2, frontPort x.rt.port), (8, 3, x.ten), (11, 2, x.gen), (13, 16, if x.rt.ring then x.rt.seq.toNat else 0)]
          [(x.digest % 2 ^ 26) <<< 6]
        (if x.gen = 3 then w.gen3Run t x.rt x.pay else os.foldl W.submit w).kick
  else w.frameErr x.rt x.gen x.ten 0x04 0 0xFFFF

/-! ## One operation by command -/

/-- An operation that a command names as its request does: FORMAT and GEN errors as a frame of its own would have them (R156, R157, R160). -/
def W.request (w : W) (o : Op) : W :=
  let t := o.req.ten.val
  let g := o.req.gen.val
  if w.genBad t g then w.frameErr o.req.route g t 0x06 (w.dev.ten t).gen 0xFFFF
  else if o.req.route.urg && o.req.queue != 0 then w.frameErr o.req.route g t 0x07 9 (if g = 2 then 1 else 0xFFFF)
  else if g = 2 then
    match o.gen2Fault with
    | some off => w.frameErr o.req.route g t 0x07 5 off
    | none => (w.submit o).kick
  else (w.submit o).kick

/-- The queue's stream of a Gen3 tenant: the first that enters this queue. -/
def W.streamFor (w : W) (t q : Nat) : Nat :=
  let ss := (w.cfg.ten t).streams
  let i := ss.findIdx (fun s => s.queue == q)
  if i < ss.length then i else 0

/-- A Gen3 item by command: a message of one item with ACK set, its check value and alive counter accepted. -/
def W.requestItem (w : W) (o : Op) : W :=
  let t := o.req.ten.val
  let si := w.streamFor t o.req.queue.val
  if w.genBad t 3 then w.frameErr o.req.route 3 t 0x06 (w.dev.ten t).gen 0xFFFF
  else if (w.cfg.ten t).streams.isEmpty then w.frameErr o.req.route 3 t 0x07 6 0
  else if o.req.route.urg && o.req.queue != 0 then w.frameErr o.req.route 3 t 0x07 9 0
  else
    let r := w.newMsg { ten := t, stream := si, hdr := [BitVec.ofNat 8 si, BitVec.ofNat 8 (b2n (!o.req.quiet)), 0, 0], ack := !o.req.quiet,
                        route := o.req.route, items := [(o.req.tag.toNat, none)] }
    (r.1.submit { o with msg := some r.2, item := 0 }).kick

end Sys2Proof.Machine
end

