-- ==== Sys2Proof/Machine/HostIo.lean ====
section
/-! DEFINITION. Frames in: the host port's transactions (chapter 8) and the frames that arrive on the ring (chapter 7). -/

namespace Sys2Proof.Machine

/-! ## Local frames -/

/-- The tenant's bit in HPT_TENMASK is 1 (R155). -/
def Dev.admits (d : Dev) (t : Nat) : Bool := decide (t < 5) && d.hpt.tmask.getLsbD t

/-- The route of a ring-form frame's answers. -/
def Frame.route (f : Frame) (p : FPort) : Route :=
  { port := p, ring := true, orig := BitVec.ofNat 6 f.orig, seq := BitVec.ofNat 16 f.seq, urg := f.urg }

/-- A ring-form frame for this unit's own protocol front, taken as arriving on port `p`. -/
def W.localFrame (w : W) (bs : List Byte) (p : FPort) : W :=
  let f := readFrame bs
  if p = .host ∧ !w.dev.admits f.ten then w.frameErr (f.route p) f.gen f.ten 0x04 0 0xFFFF
  else
    w.front { rt := f.route p, ten := f.ten, gen := f.gen, crcOk := fcrcOk bs f, type := f.type, dst63 := false, pay := f.payload,
              digest := rxFcrc bs f }

/-- The tenant and the generation of a short-form frame (R154). -/
def Dev.shortTen (d : Dev) : Nat := if d.img.woven then d.hpt.shortTen else 4
def Dev.shortGen (d : Dev) : Nat := if d.img.woven then (d.ten d.hpt.shortTen).gen else d.pins.hostsel

/-- The route of a short-form frame's answers. -/
def shortRoute : Route := { port := .host, ring := false, orig := 0, seq := 0, urg := false }

/-- The bytes of a short-form frame: those before the payload and after it (Table 8.3), with the LEN of the frame. -/
def shortLen (gen : Nat) (bs : List Byte) : Nat := if gen = 1 then 9 else 6 + at' bs 0 2

/-- A complete short-form frame for the protocol front. -/
def W.shortFrame (w : W) (bs : List Byte) : W :=
  let g := w.dev.shortGen
  let t := w.dev.shortTen
  let n := at' bs 0 2
  if g = 0 ∨ !w.dev.admits t then w.frameErr shortRoute 0 t 0x04 0 0xFFFF
  else if g = 1 then
    w.front { rt := shortRoute, ten := t, gen := 1, crcOk := true, type := 1, dst63 := false, pay := bs.take 9, digest := crc32 (bs.take 9) }
  else
    w.front { rt := shortRoute, ten := t, gen := g, crcOk := crc32 (bs.take (2 + n)) == at' bs (2 + n) 4, type := 1, dst63 := false,
              pay := (bs.drop 2).take n, digest := at' bs (2 + n) 4 }

/-! ## Host transactions (R148–R151) -/

/-- The status byte (Table 8.2). -/
def Dev.statusByte (d : Dev) : Byte :=
  BitVec.ofNat 8 (packN [(0, 4, min 15 d.hpt.rq.length), (4, 1, b2n (decide (2 ≤ d.hpt.rx.length))), (5, 1, b2n d.img.woven), (6, 2, 2)])

/-- One transaction: lost in hard reset, and in DORMANT it wakes the unit and is discarded. The status byte leads what HSDO shows. -/
def W.hostTx (w : W) (f : W → W) : W :=
  if !w.dev.awake then w
  else if w.dev.sup.mode = 2 then w.wake.modHpt (fun h => { h with hsdo := [] })
  else f (w.modHpt (fun h => { h with hsdo := [w.dev.statusByte] }))

/-- Both receive buffers are occupied: BUSY and HPT_OVERRUN (R150). -/
def W.busy (w : W) (rt : Route) (gen ten : Nat) : W :=
  ((w.modHpt (fun h => { h with overrun := satAdd 8 h.overrun 1 })).frameErr rt gen ten 0x08 0 0xFFFF).raiseU 0x1C

/-- A complete frame is taken at once, or in REPLAY waits in a receive buffer for its FRONT entry (R358). -/
def W.takeOrHold (w : W) (cmd : Byte) (bs : List Byte) (f : W → W) : W :=
  if w.dev.log.lstate = 4 then w.modHpt (fun h => { h with rx := h.rx ++ [cmd :: bs] }) else f w

/-- The first entry test that a frame for the ring fails (R129). -/
def W.entryFault (w : W) (f : Frame) (bs : List Byte) : Option Nat :=
  if w.dev.ring.addr = 0 then some 1
  else if f.orig ≠ w.dev.ring.addr then some 2
  else if at' bs 8 2 ≠ 0 then some 3
  else if f.urg && !((f.gen == 2 || f.gen == 3) && decide (f.len ≤ 64)) then some 4
  else none

/-- Place a frame of the host on the ring: HOPS 0, HCRC computed, FCRC as supplied. -/
def W.placeRing (w : W) (f : Frame) (bs : List Byte) : W :=
  let b := { f with hops := 0 }.bytes.take (10 + f.len) ++ (bs.drop (10 + f.len)).take 4
  if f.dst = 63 then w.sendBroadcast b else w.sendUnicast f.dst b

/-- A whole ring-form frame on the host port. -/
def W.ringForm (w : W) (f : Frame) (bs : List Byte) : W :=
  if f.dst = 0 ∨ f.dst = w.dev.ring.addr then w.takeOrHold 0xA5 bs (fun w => w.localFrame bs .host)
  else
    match w.entryFault f bs with
    | some d => w.frameErr (f.route .host) f.gen f.ten 0x03 d 0xFFFF
    | none => if w.dev.admits f.ten then w.placeRing f bs else w.frameErr (f.route .host) f.gen f.ten 0x04 0 0xFFFF

/-- SEND_RING of the bytes shifted in before HCSn rose (R149, R150). -/
def W.sendRing (w : W) (bs : List Byte) : W :=
  let f := readFrame bs
  let rt := f.route .host
  w.hostTx (fun w =>
    if 2 ≤ w.dev.hpt.rx.length then w.busy rt f.gen f.ten
    else if bs.length < 8 then w.frameErr rt f.gen f.ten 0x01 (min 255 bs.length) 0xFFFF
    else if 1024 < f.len then w.frameErr rt f.gen f.ten 0x0A 1 0xFFFF
    else if bs.length < 14 + f.len then w.frameErr rt f.gen f.ten 0x01 (min 255 bs.length) 0xFFFF
    else w.ringForm f bs)

/-- SEND_SHORT of the bytes shifted in before HCSn rose. A tenant with no generation has no layout to measure (R154). -/
def W.sendShort (w : W) (bs : List Byte) : W :=
  w.hostTx (fun w =>
    let g := w.dev.shortGen
    let t := w.dev.shortTen
    if 2 ≤ w.dev.hpt.rx.length then w.busy shortRoute g t
    else if g = 0 then w.shortFrame bs
    else if g ≠ 1 ∧ bs.length < 2 then w.frameErr shortRoute g t 0x01 (min 255 bs.length) 0xFFFF
    else if g ≠ 1 ∧ (at' bs 0 2 = 0 ∨ 1024 < at' bs 0 2) then w.frameErr shortRoute g t 0x0A 2 0xFFFF
    else if bs.length < shortLen g bs then w.frameErr shortRoute g t 0x01 (min 255 bs.length) 0xFFFF
    else w.takeOrHold 0xA6 bs (fun w => w.shortFrame bs))

/-- RKIND. -/
def Reply.kind (r : Reply) : Byte := BitVec.ofNat 8 (packN [(0, 1, b2n r.short), (1, 1, b2n r.err)])

/-- FETCH, with HCSn rising after `shifted` of the RLEN bytes (R151). -/
def W.fetch (w : W) (shifted : Nat) : W :=
  w.hostTx (fun w =>
    match w.dev.hpt.rq with
    | [] => w.modHpt (fun h => { h with hsdo := h.hsdo ++ [0, 0, 0] })
    | r :: rest =>
      w.modHpt (fun h => { h with hsdo := h.hsdo ++ le 2 r.bytes.length ++ [r.kind] ++ r.bytes.take shifted,
                                  rq := if r.bytes.length ≤ shifted then rest else h.rq }))

/-- STAT. -/
def W.stat (w : W) : W := w.hostTx (fun w => w.modHpt (fun h => { h with hsdo := h.hsdo ++ le 4 h.statusReg }))

/-- A command byte not in Table 8.1: the status byte is shifted out, and nothing else happens. -/
def W.unknownCmd (w : W) : W := w.hostTx id

/-! ## Frames that arrive on the ring (R126–R133) -/

/-- The front's port for a ring port. -/
def frontOf : RPort → FPort
  | .up => .up
  | .dn => .dn

/-- A TIME frame is passed on with its residence, an open value, and the link delay of its input added to CORR, and a new FCRC (R314). -/
def W.forwardTime (w : W) (p : RPort) (f : Frame) : W :=
  let d := w.draw
  let dly := match p with
    | .up => w.cfg.time.upDly
    | .dn => w.cfg.time.dnDly
  let corr := (at' f.payload 8 4 + dly + d.1.toNat) % 2 ^ 32
  let g := { f with payload := f.payload.take 8 ++ le 4 corr ++ f.payload.drop 12 }
  d.2.forward p g (le 4 g.fcrc)

/-- Pass a frame on as it came. -/
def W.passOn (w : W) (p : RPort) (f : Frame) (bs : List Byte) : W :=
  if f.type = 4 ∧ fcrcOk bs f ∧ f.len = 16 then w.forwardTime p f else w.forward p f ((bs.drop (10 + f.len)).take 4)

/-- A REPLY or an ERROR addressed to this unit joins the reply queue. -/
def W.replyIn (w : W) (f : Frame) (bs : List Byte) : W :=
  w.queueReply { short := false, err := f.type == 3, ten := f.ten, bytes := bs.take (14 + f.len) }

/-- An accepted frame that has passed FCRC, by TYPE. -/
def W.acceptType (w : W) (p : RPort) (f : Frame) (bs : List Byte) : W :=
  match f.type with
  | 2 => w.replyIn f bs
  | 3 => w.replyIn f bs
  | 4 => w.timeFrame p f
  | 5 => w.epochFrame f
  | 6 => w.ackFrame f
  | 0x10 => w.rollTrigger
  | t =>
    if t ≠ 1 ∧ f.dst = 63 then w.frameErr (f.route (frontOf p)) f.gen f.ten 0x05 t 0xFFFF true
    else
      w.front { rt := f.route (frontOf p), ten := f.ten, gen := f.gen, crcOk := true, type := t, dst63 := f.dst == 63, pay := f.payload,
                digest := rxFcrc bs f }

/-- The unit takes an addressed frame (R127). -/
def W.acceptFrame (w : W) (p : RPort) (f : Frame) (bs : List Byte) : W :=
  if fcrcOk bs f then w.acceptType p f bs else w.modRing (fun r => { r with dropF := satAdd 8 r.dropF 1 })

/-- RC_SWEEP and RC_ASSIGN, whatever their DST (R128). -/
def W.ringControl (w : W) (p : RPort) (f : Frame) (bs : List Byte) : W :=
  if !fcrcOk bs f then w.modRing (fun r => { r with dropF := satAdd 8 r.dropF 1 })
  else if f.type = 0x11 then w.sweepIn p f
  else w.assignIn p f

/-- A frame whose header is right: processed, stripped, accepted, passed on or dropped. -/
def W.routeFrame (w : W) (p : RPort) (f : Frame) (bs : List Byte) : W :=
  let own := w.dev.ring.addr
  let mine := own != 0 && (f.dst == own || f.dst == 63)
  if f.type = 0x11 ∨ f.type = 0x12 then w.ringControl p f bs
  else if f.orig ≠ 0 ∧ f.orig = own ∧ f.dst ≠ own then
    (if f.dst = 63 then w else w.modRing (fun r => { r with dropN := satAdd 8 r.dropN 1 }))
  else if f.dst = own ∧ own ≠ 0 then w.acceptFrame p f bs
  else if 62 ≤ f.hops then
    (if mine then w.acceptFrame p f bs else w.modRing (fun r => { r with dropHops := satAdd 8 r.dropHops 1 }))
  else (if mine then w.acceptFrame p f bs else w).passOn p f bs

/-- A frame arrives on a port in RUN: a fragment is discarded, a frame with a wrong header is dropped. -/
def W.ringIn (w : W) (p : RPort) (bs : List Byte) (eop2 : Bool) : W :=
  let f := readFrame bs
  if !w.running p then w
  else if eop2 then w.modRing (fun r => { r with frags := satAdd 16 r.frags 1 })
  else if bs.length < 14 ∨ !hcrcOk bs ∨ 1024 < f.len ∨ bs.length < 14 + f.len then w.modRing (fun r => { r with dropH := satAdd 8 r.dropH 1 })
  else w.routeFrame p f bs

end Sys2Proof.Machine
end

