-- ==== Sys2Proof/Machine/Run.lean ====
section
/-! DEFINITION. The barrier's slots as commands (R198, R215, R415), the inputs that replay gives the board die (R358), the debug port, and
the outcome of a meaning: the requests its faults make are served, and replay is fed. -/

namespace Sys2Proof.Machine

/-! ## Forward slots -/

/-- The packet of a choice. -/
def Dev.choicePkt (d : Dev) (c : BxaClass × Nat) : Option Pkt :=
  match c.1 with
  | .lamp => d.arb.lamp
  | .control => d.arb.ctl.head?
  | .debug => d.arb.dbg
  | .resend => d.arb.resend.head?
  | .urgent => d.arb.urgent[c.2]?
  | _ => (d.arb.fifo c.2).head?

/-- Every choice whose packet waits and may start. -/
def Dev.choices (d : Dev) : List (BxaClass × Nat) :=
  let us := (List.range d.arb.urgent.length).map (fun i => (BxaClass.urgent, i))
  let ts := (List.range 5).filter d.waiting
  let e := d.img.cfg.slotOwner d.arb.pos
  ([(BxaClass.lamp, 0), (BxaClass.control, 0), (BxaClass.debug, 0)] ++ us ++ (ts.filter (· == e)).map (fun t => (BxaClass.owner, t)) ++
    (ts.filter (fun t => decide (0 < nth d.arb.makeup t))).map (fun t => (BxaClass.makeup, t)) ++
    ts.map (fun t => (BxaClass.background, t))).filter (fun c => (d.choicePkt c).any d.maySend)

/-- A logged entry that a board input gives: a lane level, an engine byte, a bank or presence event, a raise from pins. -/
def boardInput (e : List Nat) : Bool :=
  let x := nth e 0
  let k := fld x 0 6
  k == 0x11 || (k == 8 && (fld x 6 4 == 3 || fld x 6 4 == 6)) || (k == 5 && tbit x 19 && boardSrc (fld x 6 7))

/-- A REPLAY packet is on its way to the board die. -/
def Dev.replaying (d : Dev) : Bool :=
  let isR := fun (p : Pkt) => match p.body with
    | .replay _ => true
    | _ => false
  d.bd.inbox.any isR || d.arb.flight.any (fun f => isR f.pkt) || d.arb.resend.any isR || d.arb.silent.any isR

/-- The slot that the replay stream grants (R357): a resend, the input a REPLAY packet carries, or the logged winner once it waits. -/
def W.replaySlot (w : W) : W :=
  if !w.dev.arb.resend.isEmpty then w.startSlot .resend 0
  else
    let x := w.rplExpect
    match x.2 with
    | none => x.1
    | some e =>
      if boardInput e then
        if x.1.dev.replaying then x.1
        else x.1.modArb (fun a => { a with flight := some { pkt := { body := .replay e }, cls := .control, pmode := a.pmode } })
      else if fld (nth e 0) 0 6 = 2 ∧ !tbit (nth e 0) 25 ∧ !tbit (nth e 0) 26 then
        match x.1.dev.choices.find? (fun c => c.1.code == fld (nth e 0) 6 3 && (x.1.dev.choicePkt c).any (fun p => p.tkt == fld (nth e 0) 9 10)) with
        | some c => x.1.startSlot c.1 c.2
        | none => x.1
      else x.1

/-- A packet whose slot has ended with no acknowledgement is held out of the BXA (R415). -/
def W.setAside (w : W) : W :=
  match w.dev.arb.flight with
  | some f => if f.aborted ∨ w.dev.arb.silent.isSome then w else w.modArb (fun a => { a with silent := some f.pkt, flight := none })
  | none => w

/-- The next forward slot starts, when the board die is alive, the lanes are awake and no slot is in progress. -/
def W.bxaGrant (w : W) : W :=
  let w := w.setAside
  if w.dev.arb.flight.isSome || !w.dev.bar.bAlive || w.dev.bar.parked || w.dev.log.lstate == 5 then w
  else if w.dev.log.lstate = 4 then w.replaySlot
  else
    match w.dev.bxaPick with
    | some c => w.startSlot c.1 c.2
    | none => w

/-- A slot ends with a verdict; its length joins the monitors (R44, R215). -/
def W.slotAck (w : W) (d : Dir) (v : Verdict) (ns16 : Nat) : W :=
  let w := w.modMon (fun m => m.slot ns16)
  match d with
  | .fwd => w.fwdAck v
  | .bwd => w.bwdAck v

/-- 1.1 µs after a silent slot: it counts as a REJECT (R415). -/
def W.silentEnd' (w : W) : W :=
  match w.dev.arb.silent with
  | some p => (w.modArb (fun a => { a with silent := none })).fwdReject p true
  | none =>
    match w.dev.arb.flight with
    | some f => (w.modArb (fun a => { a with flight := none })).fwdReject f.pkt (!f.aborted)
    | none => w

/-! ## Inputs from the log (R358) -/

/-- An engine byte of the log reaches its engine. -/
def W.replayByte (w : W) (e b det : Nat) : W :=
  let by' : Byte := BitVec.ofNat 8 b
  match (w.ecfg e).mode with
  | 1 =>
    let w := w.modEng e (fun g => { g with shift := some by' })
    if (w.ecfg e).t1 2 2 = 1 then w.engEdge e (.ackActive by') else w
  | 2 => w.ocwSample e by'
  | 3 => w.engEdge e (.rxChar (BitVec.ofNat 9 b) (tbit det 0) (tbit det 1) (tbit det 2))
  | 5 => w.pulseEdge e det (tbit b 0)
  | 6 => w.engEdge e (.twoByte by')
  | _ => w

/-- The board die takes an input of the log from a REPLAY packet. -/
def W.replayInput (w : W) (e : List Nat) : W :=
  let x := nth e 0
  let i := fld x 6 5
  if fld x 0 6 = 0x11 then (if tbit x 11 then w.replayByte i (fld x 12 8) (fld x 20 8) else w.levelIn i (tbit x 12))
  else if fld x 0 6 = 8 then
    if fld x 6 4 = 3 then (if fld x 20 6 = 1 then w.bankUpEv (fld x 10 10) else w.bankDown (fld x 10 10))
    else if fld x 20 6 = 1 then w.attach else w.detach
  else w.bEvent { source := fld x 6 7, wire := false, dom := if fld x 13 3 < 5 then fld x 13 3 else dUnit, detail := 0 }

/-- The row REPLAY. -/
def W.replayPkt (w : W) : W :=
  match w.dev.bd.front with
  | none => w
  | some p =>
    match p.body with
    | .replay e => w.taken.replayInput e
    | _ => w

/-- A pin or supply event of the board die: in REPLAY the pins are ignored. -/
def W.pinIn (w : W) (f : W → W) : W := if w.dev.log.lstate = 4 then w else f w

/-- A timed behaviour: in REPLAY it fires at the place of its TIMER entry (Export and replay). -/
def W.timed (w : W) (kind idx : Nat) (f : W → W) : W :=
  if w.dev.log.lstate = 4 then
    let x := w.rplExpect
    if x.2 = some [packN [(0, 6, 7), (6, 4, kind), (10, 16, idx)]] then f x.1 else x.1
  else f w

/-! ## The debug port (R116, R117) -/

/-- A debug access on the board die, with the rights of TS. It carries no ticket, so it starts no engine operation. -/
def W.debugBoard (w : W) (write : Bool) (a v : Word) : W :=
  let op := decide (0x60000 ≤ a.toNat) && decide (a.toNat < 0x62000) && (a.toNat % 0x400 == 0x18 || a.toNat % 0x400 == 0x20)
  if a.toNat % 4 ≠ 0 ∨ (write ∧ op) then w.ack stDENIED
  else if write then
    let r := w.boardWrite 4 a.toNat v.toNat
    (r.1.modBar (fun b => { b with debugOut := some 0 })).ack r.2
  else
    let r := w.boardRead 4 a.toNat
    (r.1.modBar (fun b => { b with debugOut := some (BitVec.ofNat 32 r.2.2) })).ack r.2.1 (BitVec.ofNat 32 r.2.2)

/-- One debug access from the port: a rack-side one runs at once, a board-side one waits as an emergency packet. -/
def W.debugAccess (w : W) (write : Bool) (a v : Word) : W :=
  if !w.dev.fus.dbgOpen then w.ack stDENIED
  else if isBoardAddr a.toNat then
    if !w.dev.bar.bAlive then w.ack stABORTED
    else if w.dev.arb.dbg.isSome then w
    else w.modArb (fun x => { x with dbg := some { body := .debug write a v } })
  else if write then
    let r := w.regWrite 4 a.toNat v.toNat none true
    match r.2 with
    | some st => r.1.ack st
    | none => r.1
  else
    let r := w.regRead 4 a.toNat
    r.1.ack r.2.1 (BitVec.ofNat 32 r.2.2)

/-- The row DEBUG: the board die executes the debug packet it has received, or the port makes a new access. -/
def W.debug (w : W) (write : Bool) (a v : Word) : W :=
  match w.dev.bd.front with
  | some p =>
    (match p.body with
      | .debug wr ad va => if w.dev.bd.runs then w.taken.debugBoard wr ad va else w
      | _ => if w.dev.rackOn then w.debugAccess write a v else w)
  | none => if w.dev.rackOn then w.debugAccess write a v else w

/-! ## Serving requests -/

/-- Serve one request. -/
def W.serveOne (w : W) (r : ResetReq) : W :=
  match r with
  | .tenant t => w.tenReset t none
  | .board => w.boardReset
  | .soft c => if c = 256 then w.goNow else w.softReset c
  | .baton => w.beginRelease 1
  | .ring => w.rcRequest
  | .finish => w.finishResets

/-- Serve the requests in order, at most `n`, with those that serving them makes. -/
def W.serve : Nat → W → W
  | 0, w => w
  | n + 1, w =>
    match w.rq with
    | [] => w
    | r :: rest => W.serve n (({ w with rq := rest } : W).serveOne r)

/-- In REPLAY, a frame held for the port that the FRONT entry next in the stream names is taken (R358). -/
def W.feedFrame (w : W) : W :=
  match w.dev.hpt.rx with
  | [] => w
  | b :: rest =>
    let x := w.rplExpect
    match x.2 with
    | some e =>
      if fld (nth e 0) 0 6 = 3 then
        let w := x.1.modHpt (fun h => { h with rx := rest })
        let port : FPort := match fld (nth e 0) 6 2 with
          | 1 => .up
          | 2 => .dn
          | _ => .host
        if b.headD 0 = 0xA6 then w.shortFrame (b.drop 1) else w.localFrame (b.drop 1) port
      else x.1
    | none => x.1

/-- What every meaning ends with in REPLAY: a held frame at its turn. -/
def W.settleReplay (w : W) : W := if w.dev.log.lstate = 4 then w.feedFrame else w

/-! ## Outcomes -/

/-- The end of a meaning: its requests are served, and replay is fed. -/
def W.close (w : W) : W := W.serve 16 (W.serve 16 w).settleReplay

/-- The outcome of a meaning: its device, writes and fuse bits. -/
def runW (f : W → W) (s : State) : Host.Outcome State Fault Refusal := .next (commit s (f (load s)).close)

/-- The meaning `f` where the rack die runs. -/
def onRack (f : W → W) (w : W) : W := if w.dev.rackOn then f w else w

/-- The meaning `f` where the board die runs, outside STOPPED (R360). -/
def onBoard (f : W → W) (w : W) : W := if w.dev.bd.runs && w.dev.log.lstate != 5 then f w else w

/-- The outcome of a meaning that needs the rack die running. -/
def rackRun (f : W → W) (s : State) : Host.Outcome State Fault Refusal := runW (onRack f) s

/-- The outcome of a meaning that needs the board die running. -/
def boardRun (f : W → W) (s : State) : Host.Outcome State Fault Refusal := runW (onBoard f) s

/-! ## Accesses that commands name -/

/-- A register value with its key in [31:16]. -/
def keyed (key : BitVec 16) (x : Nat) : Nat := key.toNat * 65536 + x

/-- A write of `v` to address `a` by tenant `t` as an effect on the state: status to the access record. -/
def writeRun (t : Ten) (a v : Nat) (s : State) : Host.Outcome State Fault Refusal := rackRun (fun w => w.act t.val a v) s

/-- A read of address `a` by tenant `t`: status and value to the access record. -/
def readRun (t : Ten) (a : Nat) (s : State) : Host.Outcome State Fault Refusal := rackRun (fun w => w.look t.val a) s

/-- An operation of tenant `t` on the register at `a` that a command names without its request: it takes the tenant's generation, Q2 (in
Gen3 the queue of the tenant's first stream), and answers in short form. -/
def W.boardAccess (w : W) (t : Ten) (kind : OpKind) (a v : Nat) : W :=
  let g : Nat := if w.dev.img.woven then (w.dev.ten t.val).gen else 2
  let q := if g = 3 then (((w.cfg.ten t.val).streams.getD 0 {}).queue) % 4 else 2
  let o : Op := { kind := kind, addr := BitVec.ofNat 32 a, value := BitVec.ofNat 32 v,
                  req := { ten := t, gen := ⟨g % 4, Nat.mod_lt _ (by decide)⟩, queue := ⟨q % 4, Nat.mod_lt _ (by decide)⟩, tag := 0, quiet := false,
                           route := shortRoute } }
  if g = 3 then w.requestItem o else w.request o

/-- Base address of engine `e`. -/
def engAt (e : Fin 8) : Nat := 0x60000 + 0x400 * e.val

/-- Base address of check unit `u`. -/
def ckAt (u : Fin 4) : Nat := 0x70000 + 0x40 * u.val

/-- The meaning `f` while the rack die is out of hard reset, DORMANT included. -/
def onAwake (f : W → W) (w : W) : W := if w.dev.awake then f w else w

/-- The outcome of a meaning of the rack die that DORMANT does not stop. -/
def awakeRun (f : W → W) (s : State) : Host.Outcome State Fault Refusal := runW (onAwake f) s

end Sys2Proof.Machine
end

