-- ==== Sys2Proof/Machine/ArbCmds.lean ====
section
/-! DEFINITION. Meanings of the arbitration and packet commands (chapters 10 and 11). -/

namespace Sys2Proof.Machine

/-- TQA_GRANT (R191). -/
def execTqaGrant (s : State) : Host.Outcome State Fault Refusal := rackRun W.tqaGrant s

/-- FREEZE (R197). -/
def execFreeze (ten : Ten) (on : Bool) (s : State) : Host.Outcome State Fault Refusal := writeRun ten 0x30000 (b2n on) s

/-- TQA_PRIO_WRITE (R195). -/
def execTqaPrioWrite (ten : Ten) (second : Bool) (value : Word) (s : State) : Host.Outcome State Fault Refusal :=
  writeRun ten (if second then 0x3000C else 0x30008) value.toNat s

/-- BXA_GRANT (R198). -/
def execBxaGrant (s : State) : Host.Outcome State Fault Refusal := rackRun W.bxaGrant s

/-- PMODE_WRITE (R211). -/
def execPmodeWrite (ten : Ten) (emergencyOnly : Bool) (s : State) : Host.Outcome State Fault Refusal :=
  writeRun ten 0x30040 (b2n emergencyOnly) s

/-- SLOT_ACK (R215). -/
def execSlotAck (dir : Dir) (verdict : Verdict) (ns16 : Nat) (s : State) : Host.Outcome State Fault Refusal :=
  rackRun (fun w => w.slotAck dir verdict ns16) s

/-- SILENT_SLOT_TIMEOUT (R415). -/
def execSilentSlotTimeout (s : State) : Host.Outcome State Fault Refusal := rackRun W.silentEnd' s

/-- BARRIER_PARK (R83). -/
def execBarrierPark (s : State) : Host.Outcome State Fault Refusal := rackRun W.parkLanes s

/-- BARRIER_WAKE (R45). -/
def execBarrierWake (s : State) : Host.Outcome State Fault Refusal := rackRun W.wakeLanes s

/-! ## Backward packets at the rack die -/

/-- RESULT (R90). -/
def execResult (s : State) : Host.Outcome State Fault Refusal := rackRun W.resultPkt s

/-- ABORT_ACK (R91). -/
def execAbortAck (s : State) : Host.Outcome State Fault Refusal := rackRun W.abortAckIn s

/-- HOLDUP (R76). -/
def execHoldup (s : State) : Host.Outcome State Fault Refusal := rackRun W.holdupIn s

/-- STATUS_PAGE0 (R43). -/
def execStatusPage0 (s : State) : Host.Outcome State Fault Refusal := rackRun W.page0In s

/-- STATUS_PAGE1 (R223). -/
def execStatusPage1 (s : State) : Host.Outcome State Fault Refusal := rackRun W.page1In s

/-- STATUS_PAGE2 (R253). -/
def execStatusPage2 (s : State) : Host.Outcome State Fault Refusal := rackRun W.page2In s

/-- STATUS_PAGE3 (R292). -/
def execStatusPage3 (s : State) : Host.Outcome State Fault Refusal := rackRun W.page3In s

/-- STATUS_PAGE4 (R334). -/
def execStatusPage4 (s : State) : Host.Outcome State Fault Refusal := rackRun W.page4In s

/-- STATUS_PAGE5 (R347). -/
def execStatusPage5 (s : State) : Host.Outcome State Fault Refusal := rackRun W.page5In s

/-- SWAP_REPORT (R393). -/
def execSwapReport (s : State) : Host.Outcome State Fault Refusal := rackRun W.swapIn s

/-- EEPROM_DATA_PAGE (R334). -/
def execEepromDataPage (s : State) : Host.Outcome State Fault Refusal := rackRun W.eepromIn s

/-! ## Packets at the board die -/

/-- OP_PACKET (R243). -/
def execOpPacket (s : State) : Host.Outcome State Fault Refusal := boardRun W.opPacket s

/-- HOLD_READY and HOLD_V as the board die measures them, and whether a bank that was low still is: open values (log entry 48). -/
def W.measureHold (w : W) : W :=
  let d := w.draw
  d.2.modBd (fun b => { b with ready := d.1.getLsbD 0, holdV := fld d.1.toNat 8 8, low := b.low &&& BitVec.ofNat 4 (fld d.1.toNat 16 4) })

/-- STATUS_PERIOD (R83). -/
def execStatusPeriod (s : State) : Host.Outcome State Fault Refusal := boardRun (fun w => w.measureHold.statusPages) s

/-- PACE_MEASUREMENT (R43). -/
def execPaceMeasurement (die : Die) (pace : BitVec 16) (s : State) : Host.Outcome State Fault Refusal :=
  match die with
  | .rack => rackRun (fun w => w.pace .rack pace.toNat) s
  | .board => boardRun (fun w => w.pace .board pace.toNat) s

/-- TABLE (R220). -/
def execTable (s : State) : Host.Outcome State Fault Refusal := boardRun W.tablePkt s

/-- TIME_CHUNK (R323). -/
def execTimeChunk (s : State) : Host.Outcome State Fault Refusal := boardRun W.timeChunkPkt s

/-- PAIR_CHUNK (R372). -/
def execPairChunk (s : State) : Host.Outcome State Fault Refusal := boardRun W.pairChunkPkt s

/-- SWAP (R394). -/
def execSwap (s : State) : Host.Outcome State Fault Refusal := boardRun W.swapPkt s

/-- BRESET (R93). -/
def execBreset (s : State) : Host.Outcome State Fault Refusal := boardRun W.breset s

/-- BOARD_DIE_RESTART (R93). -/
def execBoardDieRestart (s : State) : Host.Outcome State Fault Refusal := runW W.boardRise s

/-- TABORT (R88). -/
def execTabort (s : State) : Host.Outcome State Fault Refusal := boardRun W.tabort s

/-- LANECMD_RETURN (R229). -/
def execLanecmdReturn (s : State) : Host.Outcome State Fault Refusal := boardRun (fun w => w.lanecmd 0) s

/-- LANECMD_FORCE (R230). -/
def execLanecmdForce (s : State) : Host.Outcome State Fault Refusal := boardRun (fun w => w.lanecmd 1) s

/-- LANECMD_RELEASE (R103). -/
def execLanecmdRelease (s : State) : Host.Outcome State Fault Refusal := boardRun (fun w => w.lanecmd 2) s

/-- LANECMD_REACTION (R231). -/
def execLanecmdReaction (s : State) : Host.Outcome State Fault Refusal := boardRun (fun w => w.lanecmd 3) s

/-- REPLAY (R358). -/
def execReplay (s : State) : Host.Outcome State Fault Refusal := boardRun W.replayPkt s

/-- DEBUG (R116). -/
def execDebug (write : Bool) (addr value : Word) (s : State) : Host.Outcome State Fault Refusal := runW (fun w => w.debug write addr value) s

/-- REFRESH (R223). -/
def execRefresh (s : State) : Host.Outcome State Fault Refusal := boardRun W.refreshPkt s

end Sys2Proof.Machine
end

