-- ==== Sys2Proof/Machine/BarrierCmds.lean ====
section
/-! DEFINITION. Meanings of the lamplighter, direct channel, beacon and lane commands (chapters 11 and 12). -/

namespace Sys2Proof.Machine

/-- LAMPLIGHTER_TREF (R222). -/
def execLamplighterTref (s : State) : Host.Outcome State Fault Refusal := rackRun (fun w => w.timed 1 0 W.lampTref) s

/-- KEEPALIVE_TIMER (R83). -/
def execKeepaliveTimer (s : State) : Host.Outcome State Fault Refusal := rackRun (fun w => w.timed 1 0 W.keepalive) s

/-- MISS_WINDOW_EXPIRY (R224). -/
def execMissWindowExpiry (s : State) : Host.Outcome State Fault Refusal := boardRun W.missWindow s

/-- HOLD_T expires on the die that drives the output (R225). -/
def W.holdExpiry (w : W) (n : Nat) : W :=
  if w.cfg.baChan n then onRack (fun w => w.timed 7 n (fun w => w.holdDA n)) w else onBoard (fun w => w.holdT n) w

/-- HOLD_T_EXPIRY (R225). -/
def execHoldTExpiry (lane : Fin 32) (s : State) : Host.Outcome State Fault Refusal := runW (fun w => w.holdExpiry lane.val) s

/-- `f` on the die where channel `ch` is received: the board die for A→B. -/
def W.atReceiver (w : W) (ch : Nat) (f : W → W) : W := if w.cfg.baChan ch then onRack f w else onBoard f w

/-- `f` on the die where channel `ch` is sent. -/
def W.atSender (w : W) (ch : Nat) (f : W → W) : W := if w.cfg.abChan ch then onRack f w else onBoard f w

/-- DIRECT_INPUT_EDGE (R213). -/
def execDirectInputEdge (ch : Fin 8) (level : Bool) (s : State) : Host.Outcome State Fault Refusal :=
  runW (fun w => w.atSender ch.val (fun w => w.directEdge ch.val level)) s

/-- DIRECT_REFRESH_TIMER (R213). -/
def execDirectRefreshTimer (ch : Fin 8) (s : State) : Host.Outcome State Fault Refusal :=
  runW (fun w => w.atSender ch.val (fun w => w.directRefresh ch.val)) s

/-- DIRECT_PULSE (R214). -/
def execDirectPulse (ch : Fin 8) (level : Bool) (s : State) : Host.Outcome State Fault Refusal :=
  runW (fun w => w.atReceiver ch.val (fun w => w.directPulse ch.val level)) s

/-- DIRECT_FS (R214). -/
def execDirectFs (ch : Fin 8) (s : State) : Host.Outcome State Fault Refusal := runW (fun w => w.atReceiver ch.val (fun w => w.directFs ch.val)) s

/-- BEACON_SYMBOL (R219). -/
def execBeaconSymbol (die : Die) (sym : Byte) (s : State) : Host.Outcome State Fault Refusal :=
  match die with
  | .rack => rackRun (fun w => w.beacon .rack sym) s
  | .board => runW (fun w => w.beacon .board sym) s

/-- BEACON_LOST_B (R220). -/
def execBeaconLostB (s : State) : Host.Outcome State Fault Refusal := rackRun W.beaconGone s

/-- BEACON_ALIVE_RETURN (R220). -/
def execBeaconAliveReturn (s : State) : Host.Outcome State Fault Refusal := rackRun W.beaconBack s

/-- RACK_LOST (R221). -/
def execRackLost (s : State) : Host.Outcome State Fault Refusal := runW W.rackGone s

/-- RACK_BEACON_RETURN (R221). -/
def execRackBeaconReturn (s : State) : Host.Outcome State Fault Refusal := runW W.rackBack s

/-- CMT_EVENT (R61). -/
def execCmtEvent (kvPerUs : Nat) (s : State) : Host.Outcome State Fault Refusal := rackRun (fun w => w.cmt kvPerUs) s

/-- BAR_RETURN (R229). -/
def execBarReturn (ten : Ten) (mask : BitVec 32) (s : State) : Host.Outcome State Fault Refusal := writeRun ten 0x4000C mask.toNat s

/-- BAR_FORCE (R230). -/
def execBarForce (ten : Ten) (mask : BitVec 32) (s : State) : Host.Outcome State Fault Refusal := writeRun ten 0x40010 mask.toNat s

/-- CONFLICT_WINDOW_END (R248). -/
def execConflictWindowEnd (lane : Fin 32) (s : State) : Host.Outcome State Fault Refusal := boardRun (fun w => w.windowEnd lane.val) s

/-- LANE_MISMATCH (R252). -/
def execLaneMismatch (lane : Fin 32) (s : State) : Host.Outcome State Fault Refusal := boardRun (fun w => w.mismatch lane.val) s

/-- LEVEL_IN_CHANGE (R242). -/
def execLevelInChange (lane : Fin 32) (level : Bool) (s : State) : Host.Outcome State Fault Refusal :=
  boardRun (fun w => w.pinIn (fun w => w.levelIn lane.val level)) s

/-- BOARD_ATTACH (R255). -/
def execBoardAttach (s : State) : Host.Outcome State Fault Refusal := runW (fun w => w.pinIn W.attach) s

/-- BOARD_DETACH (R254). -/
def execBoardDetach (s : State) : Host.Outcome State Fault Refusal := runW (fun w => w.pinIn W.detach) s

end Sys2Proof.Machine
end

