-- ==== Sys2Proof/Machine/CheckCmds.lean ====
section
/-! DEFINITION. Meanings of the check-value unit commands (chapter 14). -/

namespace Sys2Proof.Machine

/-- CK_FEED (R289). -/
def execCkFeed (ten : Ten) (unit : Fin 4) (value : Word) (s : State) : Host.Outcome State Fault Refusal :=
  writeRun ten (ckAt unit + 0x14) value.toNat s

/-- START: CK_CTRL.START (R289). -/
def execStart (ten : Ten) (unit : Fin 4) (s : State) : Host.Outcome State Fault Refusal := writeRun ten (ckAt unit + 0x18) 1 s

/-- CK_RUN_WRITE (R289). -/
def execCkRunWrite (ten : Ten) (unit : Fin 4) (value : Word) (s : State) : Host.Outcome State Fault Refusal :=
  writeRun ten (ckAt unit + 0x10) value.toNat s

/-- SELF_TEST (R288). -/
def execSelfTest (fixedOk : BitVec 7) (unitOk : BitVec 4) (s : State) : Host.Outcome State Fault Refusal :=
  rackRun (fun w => w.selfTest fixedOk unitOk) s

end Sys2Proof.Machine
end

