-- ==== Sys2Proof/Machine/EngineCmds.lean ====
section
/-! DEFINITION. Meanings of the channel engine commands (chapter 13). -/

namespace Sys2Proof.Machine

/-- A request whose inline data has another length than its DLEN is the FORMAT error of a truncated payload (detail 3). -/
def W.sourced (w : W) (o : Op) (src : Source) (dlen : Nat) : W :=
  match src with
  | .list b => w.request { o with buf := b.toNat }
  | .inline bs =>
    if bs.length = dlen then w.request { o with inlineB := true, inl := bs }
    else w.frameErr o.req.route o.req.gen.val o.req.ten.val 0x07 3 32

/-- The Gen2 form of a request. -/
def asGen2 (r : Req) : Req := { r with gen := 2 }

/-- ETX (R259). -/
def execEtx (req : Req) (addr : Word) (dlen : Nat) (src : Source) (tmo value mask : Word) (s : State) : Host.Outcome State Fault Refusal :=
  rackRun (fun w => w.sourced { kind := .etx, req := asGen2 req, addr := addr, dlen := dlen, tmo := tmo.toNat, value := value, mask := mask }
    src dlen) s

/-- ERX (R259). -/
def execErx (req : Req) (addr : Word) (dlen : Nat) (tmo value mask : Word) (s : State) : Host.Outcome State Fault Refusal :=
  rackRun (fun w => w.request { kind := .erx, req := asGen2 req, addr := addr, dlen := dlen, tmo := tmo.toNat, value := value, mask := mask }) s

/-- ENG_TXW: a write of ENG_TXW (R276). -/
def execEngTxw (ten : Ten) (eng : Fin 8) (value : Word) (s : State) : Host.Outcome State Fault Refusal :=
  rackRun (fun w => w.boardAccess ten .wr (engAt eng + 0x18) value.toNat) s

/-- ENG_RXW: a read of ENG_RXW (R276). -/
def execEngRxw (ten : Ten) (eng : Fin 8) (s : State) : Host.Outcome State Fault Refusal :=
  rackRun (fun w => w.boardAccess ten .rd (engAt eng + 0x1C) 0) s

/-- ENG_OCW: a write of ENG_OCW (R270). -/
def execEngOcw (ten : Ten) (eng : Fin 8) (value : Word) (s : State) : Host.Outcome State Fault Refusal :=
  rackRun (fun w => w.boardAccess ten .wr (engAt eng + 0x20) value.toNat) s

/-- FLUSH_RX: ENG_CTRL with FLUSH_RX set (R263). -/
def execFlushRx (ten : Ten) (eng : Fin 8) (s : State) : Host.Outcome State Fault Refusal :=
  rackRun (fun w => w.boardAccess ten .wr (engAt eng + 0x24) 1) s

/-- ENGINE_TIMER (R266). -/
def execEngineTimer (eng : Fin 8) (s : State) : Host.Outcome State Fault Refusal := boardRun (fun w => w.engTimer eng.val) s

/-- An edge that carries a byte of an engine's input: in REPLAY it comes from the log. -/
def edgeLogged : EngEdge → Bool
  | .ackActive _ => true
  | .rxChar _ _ _ _ => true
  | .twoByte _ => true
  | _ => false

/-- ENGINE_INPUT_EDGE (R266). -/
def execEngineInputEdge (eng : Fin 8) (edge : EngEdge) (s : State) : Host.Outcome State Fault Refusal :=
  boardRun (fun w => if edgeLogged edge then w.pinIn (fun w => w.engEdge eng.val edge) else w.engEdge eng.val edge) s

/-- ENGINE_TIMEOUT (R265). -/
def execEngineTimeout (eng : Fin 8) (limit : EngLimit) (s : State) : Host.Outcome State Fault Refusal :=
  boardRun (fun w => w.engTimeout eng.val limit) s

/-- OCW_SAMPLE (R270). -/
def execOcwSample (eng : Fin 8) (levels : Byte) (s : State) : Host.Outcome State Fault Refusal :=
  boardRun (fun w => w.pinIn (fun w => w.ocwSample eng.val levels)) s

/-- PULSE_INPUT_EDGE (R274). -/
def execPulseInputEdge (eng : Fin 8) (index : Fin 4) (level : Bool) (s : State) : Host.Outcome State Fault Refusal :=
  boardRun (fun w => w.pinIn (fun w => w.pulseEdge eng.val index.val level)) s

/-- PULSE_RECORD_DUE (R274). -/
def execPulseRecordDue (eng : Fin 8) (s : State) : Host.Outcome State Fault Refusal := boardRun (fun w => w.pulseDue eng.val) s

/-- ENGINE_STOP (R267). -/
def execEngineStop (eng : Fin 8) (cause : StopCause) (s : State) : Host.Outcome State Fault Refusal := boardRun (fun w => w.engStop eng.val cause) s

/-- IDLE_SEQUENCE (R268). -/
def execIdleSequence (eng : Fin 8) (s : State) : Host.Outcome State Fault Refusal := boardRun (fun w => w.idleSeq eng.val) s

end Sys2Proof.Machine
end

