-- ==== Sys2Proof/Machine/FaultCmds.lean ====
section
/-! DEFINITION. Meanings of the fault collector commands (chapter 15). -/

namespace Sys2Proof.Machine

/-- FAULT_RAISE (R295). -/
def execFaultRaise (source : Fin 96) (domain : Fin 6) (detail addr : Word) (s : State) : Host.Outcome State Fault Refusal :=
  rackRun (fun w => w.faultRaise source.val domain.val detail.toNat addr.toNat) s

/-- WIRE_FAULT (R293). -/
def execWireFault (source : Fin 96) (domain : Fin 6) (s : State) : Host.Outcome State Fault Refusal :=
  runW (fun w => w.wireFault source.val domain.val) s

/-- WIRE_FAULT_CLEAR (R293). -/
def execWireFaultClear (source : Fin 96) (s : State) : Host.Outcome State Fault Refusal := runW (fun w => w.wireClear source.val) s

/-- A value of FLT_ACK: source and domain code. -/
def ackValue (source : BitVec 7) (domain : BitVec 3) : Nat := packN [(0, 7, source.toNat), (8, 3, domain.toNat)]

/-- FLT_ACK (R303). -/
def execFltAck (ten : Ten) (source : BitVec 7) (domain : BitVec 3) (s : State) : Host.Outcome State Fault Refusal :=
  writeRun ten 0x80008 (ackValue source domain) s

/-- FLT_FKEY (R306). -/
def execFltFkey (ten : Ten) (key : BitVec 16) (s : State) : Host.Outcome State Fault Refusal := writeRun ten 0x80030 key.toNat s

/-- A value of FLT_FORCE: source, kind and domain code. -/
def forceValue (source : BitVec 7) (kind : Nat) (domain : BitVec 3) : Nat := packN [(0, 7, source.toNat), (8, 2, kind), (12, 3, domain.toNat)]

/-- FORCE_RAISE (R306). -/
def execForceRaise (ten : Ten) (source : BitVec 7) (domain : BitVec 3) (s : State) : Host.Outcome State Fault Refusal :=
  writeRun ten 0x80034 (forceValue source 1 domain) s

/-- FORCE_WIRE00 (R306). -/
def execForceWire00 (ten : Ten) (source : BitVec 7) (domain : BitVec 3) (s : State) : Host.Outcome State Fault Refusal :=
  writeRun ten 0x80034 (forceValue source 2 domain) s

/-- FORCE_WIRE11 (R306). -/
def execForceWire11 (ten : Ten) (source : BitVec 7) (domain : BitVec 3) (s : State) : Host.Outcome State Fault Refusal :=
  writeRun ten 0x80034 (forceValue source 3 domain) s

/-- QUIET_END (R302). -/
def execQuietEnd (domain : Fin 6) (cls : Fin 3) (s : State) : Host.Outcome State Fault Refusal :=
  rackRun (fun w => w.timed 3 (3 * domain.val + cls.val) (fun w => w.quietEnd domain.val cls.val)) s

/-- WREN_TOGGLE (R304). -/
def execWrenToggle (s : State) : Host.Outcome State Fault Refusal := rackRun W.wrenStep s

end Sys2Proof.Machine
end

