-- ==== Sys2Proof/Machine/FuseCmds.lean ====
section
/-! DEFINITION. Meanings of the TAP instructions (chapter 6). -/

namespace Sys2Proof.Machine

/-- EXTEST (R115). -/
def execExtest (s : State) : Host.Outcome State Fault Refusal := awakeRun (fun w => w.tapOnly 0x00) s

/-- SAMPLE_PRELOAD (R115). -/
def execSamplePreload (load : Option Nat) (s : State) : Host.Outcome State Fault Refusal := awakeRun (fun w => w.sample load) s

/-- IDCODE (R115). -/
def execIdcode (s : State) : Host.Outcome State Fault Refusal := awakeRun W.idcode s

/-- HIGHZ (R115). -/
def execHighz (s : State) : Host.Outcome State Fault Refusal := awakeRun (fun w => w.tapOnly 0x03) s

/-- CLAMP (R115). -/
def execClamp (s : State) : Host.Outcome State Fault Refusal := awakeRun (fun w => w.tapOnly 0x04) s

/-- FUSE_READ (R109). -/
def execFuseRead (word : Fin 32) (s : State) : Host.Outcome State Fault Refusal := awakeRun (fun w => w.fuseRead word.val) s

/-- FUSE_PROG (R110). -/
def execFuseProg (word : Fin 32) (value : Word) (inRange verified : Bool) (s : State) : Host.Outcome State Fault Refusal :=
  awakeRun (fun w => w.fuseProg word.val value inRange verified) s

/-- LC_ADVANCE (R107). -/
def execLcAdvance (target : Fin 4) (token : Option (List Byte)) (s : State) : Host.Outcome State Fault Refusal :=
  awakeRun (fun w => w.lcAdvance target.val token) s

/-- DBG (R116). -/
def execDbg (s : State) : Host.Outcome State Fault Refusal := awakeRun W.dbg s

/-- VCHAL (R120). -/
def execVchal (s : State) : Host.Outcome State Fault Refusal := awakeRun W.vchal s

/-- VCHAL_RESPONSE (R120). -/
def execVchalResponse (resp : List Byte) (s : State) : Host.Outcome State Fault Refusal := awakeRun (fun w => w.vchalResp resp) s

/-- VCHAL_HOLD_EXPIRY (R120). -/
def execVchalHoldExpiry (s : State) : Host.Outcome State Fault Refusal := awakeRun W.vchalShift s

/-- BYPASS (R115). -/
def execBypass (opcode : BitVec 6) (s : State) : Host.Outcome State Fault Refusal := awakeRun (fun w => w.bypass opcode.toNat) s

/-- TRSTN_LOW (R115). -/
def execTrstnLow (s : State) : Host.Outcome State Fault Refusal := awakeRun W.trst s

end Sys2Proof.Machine
end

