-- ==== Sys2Proof/Machine/HostCmds.lean ====
section
/-! DEFINITION. Meanings of the host port and ring commands (chapters 7 and 8). -/

namespace Sys2Proof.Machine

/-- SEND_RING (R149). -/
def execSendRing (bytes : List Byte) (s : State) : Host.Outcome State Fault Refusal := runW (fun w => w.sendRing bytes) s

/-- SEND_SHORT (R154). -/
def execSendShort (bytes : List Byte) (s : State) : Host.Outcome State Fault Refusal := runW (fun w => w.sendShort bytes) s

/-- FETCH (R151). -/
def execFetch (shifted : Nat) (s : State) : Host.Outcome State Fault Refusal := runW (fun w => w.fetch shifted) s

/-- STAT (R148). -/
def execStat (s : State) : Host.Outcome State Fault Refusal := runW W.stat s

/-- UNKNOWN_COMMAND (R148). -/
def execUnknownCommand (_cmd : Byte) (s : State) : Host.Outcome State Fault Refusal := runW W.unknownCmd s

/-- LENGTH: a SEND transaction that HCSn ends after these bytes (R149). -/
def execLength (short : Bool) (bytes : List Byte) (s : State) : Host.Outcome State Fault Refusal :=
  runW (fun w => if short then w.sendShort bytes else w.sendRing bytes) s

/-- RING_FRAME (R126). -/
def execRingFrame (port : RPort) (bytes : List Byte) (eop2 : Bool) (s : State) : Host.Outcome State Fault Refusal :=
  rackRun (fun w => w.ringIn port bytes eop2) s

/-- ROLL_CALL_HOLDOFF_EXPIRY (R136). -/
def execRollCallHoldoffExpiry (s : State) : Host.Outcome State Fault Refusal := rackRun W.holdoffEnd s

/-- ROLL_CALL_START (R136). -/
def execRollCallStart (s : State) : Host.Outcome State Fault Refusal := rackRun W.rollStart s

/-- SWEEP_LOST_TIMEOUT (R136). -/
def execSweepLostTimeout (s : State) : Host.Outcome State Fault Refusal := rackRun W.sweepLost s

/-- RING_NO_HEAD (R141). -/
def execRingNoHead (s : State) : Host.Outcome State Fault Refusal := rackRun W.ringNoHead s

/-- SILENT_EXPIRY (R125). -/
def execSilentExpiry (port : RPort) (s : State) : Host.Outcome State Fault Refusal := rackRun (fun w => w.silentEnd port) s

/-- LINK_START_TIMEOUT (R125). -/
def execLinkStartTimeout (port : RPort) (s : State) : Host.Outcome State Fault Refusal := rackRun (fun w => w.startTimeout port) s

/-- NULL (R125). -/
def execNull (port : RPort) (s : State) : Host.Outcome State Fault Refusal := rackRun (fun w => w.nullIn port) s

/-- FCT (R125). -/
def execFct (port : RPort) (s : State) : Host.Outcome State Fault Refusal := rackRun (fun w => w.fctIn port) s

/-- DISCONNECT (R125). -/
def execDisconnect (port : RPort) (s : State) : Host.Outcome State Fault Refusal := rackRun (fun w => w.disconnect port) s

/-- LINK_ERROR (R125). -/
def execLinkError (port : RPort) (kind : LinkErr) (s : State) : Host.Outcome State Fault Refusal := rackRun (fun w => w.linkErr port kind) s

/-- CHN_CTRL with the present enables and RATE, and ROLL set. -/
def W.rollValue (w : W) : Nat := packN [(0, 1, b2n w.dev.ring.up.en), (1, 1, b2n w.dev.ring.dn.en), (2, 2, w.dev.ring.rate), (4, 1, 1)]

/-- CHN_CTRL with these enables and the present RATE. -/
def W.enableValue (w : W) (up dn : Bool) : Nat := packN [(0, 1, b2n up), (1, 1, b2n dn), (2, 2, w.dev.ring.rate)]

/-- ROLL (R136). -/
def execRoll (ten : Ten) (s : State) : Host.Outcome State Fault Refusal := rackRun (fun w => w.act ten.val 0x3000 w.rollValue) s

/-- PORT_ENABLE (R144). -/
def execPortEnable (ten : Ten) (upEn dnEn : Bool) (s : State) : Host.Outcome State Fault Refusal :=
  rackRun (fun w => w.act ten.val 0x3000 (w.enableValue upEn dnEn)) s

end Sys2Proof.Machine
end

