-- ==== Sys2Proof/Machine/IdentCmds.lean ====
section
/-! DEFINITION. Meanings of the identity commands (chapter 17). -/

namespace Sys2Proof.Machine

/-- IDENTITY_READ (R328): the rack die starts it and the board die performs it. -/
def execIdentityRead (reason : IdReason) (s : State) : Host.Outcome State Fault Refusal := rackRun (onBoard (fun w => w.idStart reason)) s

/-- STRAP_PHASE_END (R330). -/
def execStrapPhaseEnd (levels : Byte) (s : State) : Host.Outcome State Fault Refusal := boardRun (fun w => w.strapPhase levels) s

/-- IDS_CONVERSION (R329). -/
def execIdsConversion (ratio : Nat) (s : State) : Host.Outcome State Fault Refusal := boardRun (fun w => w.idsConv ratio) s

/-- EEPROM_READ_DONE (R331). -/
def execEepromReadDone (how : EeEnd) (s : State) : Host.Outcome State Fault Refusal := boardRun (fun w => w.eeDone how) s

/-- IDN_WB (R335). -/
def execIdnWb (ten : Ten) (note : Bool) (key : BitVec 16) (s : State) : Host.Outcome State Fault Refusal :=
  writeRun ten 0xA0014 (keyed key (1 + 2 * b2n note)) s

/-- WRITEBACK_START (R339). -/
def execWritebackStart (s : State) : Host.Outcome State Fault Refusal := rackRun W.wbStart s

/-- WRITEBACK_POLL (R338). -/
def execWritebackPoll (ack : Bool) (s : State) : Host.Outcome State Fault Refusal := rackRun (fun w => w.wbPoll ack) s

/-- WRITEBACK_TIMEOUT (R338). -/
def execWritebackTimeout (s : State) : Host.Outcome State Fault Refusal := rackRun W.wbTimeout s

/-- WRITEBACK_VERIFY (R338). -/
def execWritebackVerify (bytes : List Byte) (s : State) : Host.Outcome State Fault Refusal := rackRun (fun w => w.wbVerify bytes) s

end Sys2Proof.Machine
end

