-- ==== Sys2Proof/Machine/ImageCmds.lean ====
section
/-! DEFINITION. Meanings of the image and weave commands (chapter 20). -/

namespace Sys2Proof.Machine

/-- IMG_CTRL with an action and a bank. -/
def imgValue (key : BitVec 16) (action : Nat) (bank : Bool) : Nat := keyed key (action + 4 * b2n bank)

/-- HOT: IMG_CTRL (R393). -/
def execHot (ten : Ten) (key : BitVec 16) (s : State) : Host.Outcome State Fault Refusal := writeRun ten 0xD0000 (imgValue key 1 false) s

/-- COLD: IMG_CTRL (R392). -/
def execCold (ten : Ten) (key : BitVec 16) (bank : Bool) (s : State) : Host.Outcome State Fault Refusal :=
  writeRun ten 0xD0000 (imgValue key 2 bank) s

/-- CHECK: IMG_CTRL (R392). -/
def execCheck (ten : Ten) (key : BitVec 16) (bank : Bool) (s : State) : Host.Outcome State Fault Refusal :=
  writeRun ten 0xD0000 (imgValue key 3 bank) s

/-- WEAVE_DEFERRED_START (R389). -/
def execWeaveDeferredStart (s : State) : Host.Outcome State Fault Refusal := rackRun W.weaveDeferred s

end Sys2Proof.Machine
end

