-- ==== Sys2Proof/Machine/OpCmds.lean ====
section
/-! DEFINITION. Meanings of the operations that a command names with its request (chapters 8 and 9). -/

namespace Sys2Proof.Machine

/-- GEN1_READ (R158). -/
def execGen1Read (req : Req) (addr : Word) (s : State) : Host.Outcome State Fault Refusal :=
  rackRun (fun w => w.request { kind := .rd, req := { req with gen := 1, queue := 2 }, addr := addr }) s

/-- GEN1_WRITE (R158). -/
def execGen1Write (req : Req) (addr value : Word) (s : State) : Host.Outcome State Fault Refusal :=
  rackRun (fun w => w.request { kind := .wr, req := { req with gen := 1, queue := 2 }, addr := addr, value := value }) s

/-- A Gen3 item or a descriptor of its own, by the request's generation. -/
def W.either (w : W) (o : Op) : W := if o.req.gen = 3 then w.requestItem o else w.request { o with req := asGen2 o.req }

/-- RD32 (R162). -/
def execRd32 (req : Req) (addr : Word) (s : State) : Host.Outcome State Fault Refusal :=
  rackRun (fun w => w.either { kind := .rd, req := req, addr := addr }) s

/-- WR32 (R162). -/
def execWr32 (req : Req) (addr value : Word) (s : State) : Host.Outcome State Fault Refusal :=
  rackRun (fun w => w.either { kind := .wr, req := req, addr := addr, value := value }) s

/-- RMW32 (R162). -/
def execRmw32 (req : Req) (addr value mask : Word) (s : State) : Host.Outcome State Fault Refusal :=
  rackRun (fun w => w.request { kind := .rmw, req := asGen2 req, addr := addr, value := value, mask := mask }) s

/-- RDBLK (R161). -/
def execRdblk (req : Req) (addr : Word) (dlen : Nat) (s : State) : Host.Outcome State Fault Refusal :=
  rackRun (fun w => w.request { kind := .rdblk, req := asGen2 req, addr := addr, dlen := dlen }) s

/-- WRBLK (R161). -/
def execWrblk (req : Req) (addr : Word) (dlen : Nat) (src : Source) (s : State) : Host.Outcome State Fault Refusal :=
  rackRun (fun w => w.sourced { kind := .wrblk, req := asGen2 req, addr := addr, dlen := dlen } src dlen) s

/-- FREE (R179). -/
def execFree (req : Req) (buf : BitVec 16) (count : Nat) (s : State) : Host.Outcome State Fault Refusal :=
  rackRun (fun w => w.request { kind := .free, req := asGen2 req, buf := buf.toNat, value := BitVec.ofNat 32 count }) s

/-- FENCE (R162). -/
def execFence (req : Req) (s : State) : Host.Outcome State Fault Refusal :=
  rackRun (fun w => w.request { kind := .fence, req := asGen2 req }) s

/-- FENCE_DONE (R162). -/
def execFenceDone (ten : Ten) (s : State) : Host.Outcome State Fault Refusal := rackRun (fun w => w.fenceDone ten.val) s

/-- SET (R163). -/
def execSet (req : Req) (addr value : Word) (s : State) : Host.Outcome State Fault Refusal :=
  rackRun (fun w => w.requestItem { kind := .set, req := { req with gen := 3 }, addr := addr, value := value }) s

/-- CLR (R163). -/
def execClr (req : Req) (addr value : Word) (s : State) : Host.Outcome State Fault Refusal :=
  rackRun (fun w => w.requestItem { kind := .clr, req := { req with gen := 3 }, addr := addr, value := value }) s

/-- REGISTER_WRITE (R11): a board die register takes a request's path, a rack die register is written directly. -/
def execRegisterWrite (ten : Ten) (addr value : Word) (s : State) : Host.Outcome State Fault Refusal :=
  rackRun (fun w => if isBoardAddr addr.toNat then w.boardAccess ten .wr addr.toNat value.toNat else w.act ten.val addr.toNat value.toNat) s

end Sys2Proof.Machine
end

