-- ==== Sys2Proof/Machine/PairCmds.lean ====
section
/-! DEFINITION. Meanings of the pairing commands (chapter 19). -/

namespace Sys2Proof.Machine

/-- EPOCH_CUT (R368). -/
def execEpochCut (s : State) : Host.Outcome State Fault Refusal := rackRun (fun w => w.timed 4 0 W.epochCut) s

/-- EPOCH_NOACK (R368). -/
def execEpochNoack (s : State) : Host.Outcome State Fault Refusal := rackRun W.noAck s

/-- START_TAKE (R367). -/
def execStartTake (s : State) : Host.Outcome State Fault Refusal := rackRun W.startTake s

/-- SILENCE (R372). -/
def execSilence (pairnHigh : Bool) (s : State) : Host.Outcome State Fault Refusal := rackRun (fun w => w.silence pairnHigh) s

/-- HELD_SILENT_TAKEOVER (R372). -/
def execHeldSilentTakeover (s : State) : Host.Outcome State Fault Refusal := rackRun W.heldTake s

/-- FORCED_TAKEOVER (R374). -/
def execForcedTakeover (s : State) : Host.Outcome State Fault Refusal := rackRun W.forcedTake s

/-- HANDOVER: PAI_CTRL.HANDOVER (R376). -/
def execHandover (ten : Ten) (key : BitVec 16) (s : State) : Host.Outcome State Fault Refusal := writeRun ten 0xC0000 (keyed key 1) s

/-- RELEASE_ACK_WAIT_END (R369). -/
def execReleaseAckWaitEnd (s : State) : Host.Outcome State Fault Refusal := rackRun W.releaseEnd s

end Sys2Proof.Machine
end

