-- ==== Sys2Proof/Machine/ResetCmds.lean ====
section
/-! DEFINITION. Meanings of the reset commands (chapter 5). -/

namespace Sys2Proof.Machine

/-- The write of a TEN_RESET register on a page, its outcome to the access record. -/
def W.tenResetCmd (w : W) (t page v : Nat) : W :=
  if w.dev.barred t || w.fatalBars t (0x100FC + 0x1000 * page) then w.ack stDENIED
  else
    match w.tenResetWrite t page v none with
    | (w, some st) => w.ack st
    | (w, none) => w.ack stOK

/-- TEN_RESET (R88). -/
def execTenReset (ten page : Ten) (key : BitVec 16) (s : State) : Host.Outcome State Fault Refusal :=
  rackRun (fun w => w.tenResetCmd ten.val page.val (keyed key 1)) s

/-- TRESET_SLOW (R91). -/
def execTresetSlow (ten : Ten) (s : State) : Host.Outcome State Fault Refusal := rackRun (fun w => w.tresetSlow ten.val) s

/-- BOARD: RST_CTRL.BOARD (R93). -/
def execBoard (ten : Ten) (key : BitVec 16) (s : State) : Host.Outcome State Fault Refusal := writeRun ten 0x2000 (keyed key 1) s

/-- SOFT: RST_CTRL.SOFT (R94). -/
def execSoft (ten : Ten) (key : BitVec 16) (s : State) : Host.Outcome State Fault Refusal := writeRun ten 0x2000 (keyed key 2) s

/-- SOFT_RESET_DEFERRED_START (R94). -/
def execSoftResetDeferredStart (s : State) : Host.Outcome State Fault Refusal := rackRun W.softDeferred s

/-- RELEASE_LANES: RST_CTRL.RELEASE_LANES (R103). -/
def execReleaseLanes (ten : Ten) (key : BitVec 16) (s : State) : Host.Outcome State Fault Refusal := writeRun ten 0x2000 (keyed key 4) s

/-- POWER_ON (R96). -/
def execPowerOn (pins : StartPins) (s : State) : Host.Outcome State Fault Refusal := runW (fun w => w.powerOn pins) s

/-- VDDA_COLLAPSE (R95). -/
def execVddaCollapse (s : State) : Host.Outcome State Fault Refusal := runW W.vddaFall s

/-- RSTN_LOW (R95). -/
def execRstnLow (s : State) : Host.Outcome State Fault Refusal := runW W.rstLow s

/-- RSTN_HIGH (R100). -/
def execRstnHigh (pins : StartPins) (lowSeconds : Nat) (s : State) : Host.Outcome State Fault Refusal := runW (fun w => w.rstHigh pins lowSeconds) s

/-- RSTN_STUCK (R101). -/
def execRstnStuck (pins : StartPins) (s : State) : Host.Outcome State Fault Refusal := runW (fun w => w.rstStuck pins) s

/-- REARM (R100). -/
def execRearm (s : State) : Host.Outcome State Fault Refusal := runW W.rearm s

/-- BOARD_NO_RETURN (R99). -/
def execBoardNoReturn (s : State) : Host.Outcome State Fault Refusal := rackRun W.noReturn s

end Sys2Proof.Machine
end

