-- ==== Sys2Proof/Machine/StoreCmds.lean ====
section
/-! DEFINITION. Meanings of the record store, order log and replay commands (chapter 18). -/

namespace Sys2Proof.Machine

/-- WINDOW_WRITE (R345). -/
def execWindowWrite (ten : Ten) (offset : BitVec 18) (value : Word) (s : State) : Host.Outcome State Fault Refusal :=
  writeRun ten (0x200000 + offset.toNat) value.toNat s

/-- WINDOW_LINE_COMMIT_START (R345). -/
def execWindowLineCommitStart (s : State) : Host.Outcome State Fault Refusal := awakeRun W.winStart s

/-- LINE_COMMIT_DONE (R344). -/
def execLineCommitDone (s : State) : Host.Outcome State Fault Refusal := awakeRun W.lineDone s

/-- LOG_LINE_COMMIT (R348). -/
def execLogLineCommit (s : State) : Host.Outcome State Fault Refusal := awakeRun W.commitCur s

/-- RECN_MARK (R352). -/
def execRecnMark (s : State) : Host.Outcome State Fault Refusal := rackRun W.recn s

/-- LOG_MARK (R352). -/
def execLogMark (ten : Ten) (value : BitVec 16) (s : State) : Host.Outcome State Fault Refusal := writeRun ten 0xB0014 value.toNat s

/-- LOG_FREEZE: LOG_CTRL.FREEZE (R351). -/
def execLogFreeze (ten : Ten) (key : BitVec 16) (s : State) : Host.Outcome State Fault Refusal := writeRun ten 0xB0000 (keyed key 1) s

/-- ARM: LOG_CTRL.ARM (R351). -/
def execArm (ten : Ten) (key : BitVec 16) (s : State) : Host.Outcome State Fault Refusal := writeRun ten 0xB0000 (keyed key 2) s

/-- LOAD: LOG_CTRL.LOAD (R355). -/
def execLoad (ten : Ten) (key : BitVec 16) (s : State) : Host.Outcome State Fault Refusal := writeRun ten 0xB0000 (keyed key 4) s

/-- GO: LOG_CTRL.GO (R356). -/
def execGo (ten : Ten) (key : BitVec 16) (s : State) : Host.Outcome State Fault Refusal := writeRun ten 0xB0000 (keyed key 8) s

/-- ABORT: LOG_CTRL.ABORT (R360). -/
def execAbort (ten : Ten) (key : BitVec 16) (s : State) : Host.Outcome State Fault Refusal := writeRun ten 0xB0000 (keyed key 16) s

/-- RWAIT_EXPIRY (R360). -/
def execRwaitExpiry (s : State) : Host.Outcome State Fault Refusal := rackRun W.rwait s

end Sys2Proof.Machine
end

