-- ==== Sys2Proof/Machine/SupplyCmds.lean ====
section
/-! DEFINITION. Meanings of the supply, clock and mode commands (chapters 3 and 4). -/

namespace Sys2Proof.Machine

/-- BROWN_NOTICE_BEGIN (R71). -/
def execBrownNoticeBegin (a b : Bool) (s : State) : Host.Outcome State Fault Refusal := awakeRun (fun w => w.brownBegin a b) s

/-- BROWN_NOTICE_END (R74). -/
def execBrownNoticeEnd (minA durA minB durB : Nat) (s : State) : Host.Outcome State Fault Refusal :=
  awakeRun (fun w => w.brownEnd minA durA minB durB) s

/-- BROWN_LONG (R75). -/
def execBrownLong (min dur : Nat) (s : State) : Host.Outcome State Fault Refusal := awakeRun (fun w => w.brownLong min dur) s

/-- VDDB_COLLAPSE (R76). -/
def execVddbCollapse (s : State) : Host.Outcome State Fault Refusal := runW W.vddbCollapse s

/-- HOLDUP_END (R76). -/
def execHoldupEnd (s : State) : Host.Outcome State Fault Refusal := runW W.holdupOver s

/-- BANK_DOWN (R78). -/
def execBankDown (bank : Fin 4) (s : State) : Host.Outcome State Fault Refusal := runW (fun w => w.pinIn (fun w => w.bankDown bank.val)) s

/-- BANK_UP (R78). -/
def execBankUp (bank : Fin 4) (s : State) : Host.Outcome State Fault Refusal := runW (fun w => w.pinIn (fun w => w.bankUpEv bank.val)) s

/-- BANK_LOW (R79). -/
def execBankLow (bank : Fin 4) (s : State) : Host.Outcome State Fault Refusal := runW (fun w => w.bankLowEv bank.val) s

/-- HOLDB_LOW (R81). -/
def execHoldbLow (s : State) : Host.Outcome State Fault Refusal := runW W.holdbLow s

/-- STANDBY: SUP_MODE (R83). -/
def execStandby (ten : Ten) (s : State) : Host.Outcome State Fault Refusal := writeRun ten 0x1018 1 s

/-- DORMANT: SUP_MODE (R84). -/
def execDormant (ten : Ten) (s : State) : Host.Outcome State Fault Refusal := writeRun ten 0x1018 2 s

/-- ACTIVE: SUP_MODE (R83). -/
def execActive (ten : Ten) (s : State) : Host.Outcome State Fault Refusal := writeRun ten 0x1018 3 s

/-- HCSN_WAKE (R84). -/
def execHcsnWake (s : State) : Host.Outcome State Fault Refusal := awakeRun W.wake s

/-- BOARD_DIE_POWER_ON (R69). -/
def execBoardDiePowerOn (prsLow : Bool) (s : State) : Host.Outcome State Fault Refusal := runW (fun w => w.boardPower prsLow) s

end Sys2Proof.Machine
end

