-- ==== Sys2Proof/Machine/TimeCmds.lean ====
section
/-! DEFINITION. Meanings of the time base commands (chapter 16). -/

namespace Sys2Proof.Machine

/-- TPI (R313). -/
def execTpi (s : State) : Host.Outcome State Fault Refusal := rackRun W.tpi s

/-- REFERENCE_LOSS (R316). -/
def execReferenceLoss (s : State) : Host.Outcome State Fault Refusal := rackRun W.refLoss s

/-- THOLD_MAX_EXPIRY (R316). -/
def execTholdMaxExpiry (s : State) : Host.Outcome State Fault Refusal := rackRun W.holdMax s

/-- CRYSTAL_LOST (R312). -/
def execCrystalLost (s : State) : Host.Outcome State Fault Refusal := rackRun W.xtalLost s

/-- CRYSTAL_RESTORED (R312). -/
def execCrystalRestored (s : State) : Host.Outcome State Fault Refusal := rackRun W.xtalBack s

/-- TIME_SEND (R314). -/
def execTimeSend (s : State) : Host.Outcome State Fault Refusal := rackRun W.timeSend s

/-- TPO_RISE (R321). -/
def execTpoRise (s : State) : Host.Outcome State Fault Refusal := rackRun W.tpoUp s

/-- TPO_FALL (R321). -/
def execTpoFall (s : State) : Host.Outcome State Fault Refusal := rackRun W.tpoDown s

/-- TIM_SET_HI (R320). -/
def execTimSetHi (ten : Ten) (value : Word) (s : State) : Host.Outcome State Fault Refusal := writeRun ten 0x9003C value.toNat s

/-- TIM_NEXT_HI (R320). -/
def execTimNextHi (ten : Ten) (value : Word) (s : State) : Host.Outcome State Fault Refusal := writeRun ten 0x90034 value.toNat s

/-- TIM_NOW_LO_READ (R325). -/
def execTimNowLoRead (ten : Ten) (s : State) : Host.Outcome State Fault Refusal := readRun ten 0x90014 s

/-- TIM_MONO_LO_READ (R325). -/
def execTimMonoLoRead (ten : Ten) (s : State) : Host.Outcome State Fault Refusal := readRun ten 0x9001C s

/-- SLEW_DONE (R318). -/
def execSlewDone (s : State) : Host.Outcome State Fault Refusal := rackRun W.slewDone s

end Sys2Proof.Machine
end

