-- ==== Sys2Proof/Machine/Dispatch.lean ====
section
/-! DEFINITION. One arm for each command: a direct call of its meaning. -/

namespace Sys2Proof.Machine

/-- The effect of a command on everything but the queue. -/
def exec (i : Instr) (s : State) : Host.Outcome State Fault Refusal :=
  match i with
  | .sendRing bytes => Sys2Proof.Machine.execSendRing bytes s
  | .sendShort bytes => Sys2Proof.Machine.execSendShort bytes s
  | .fetch shifted => Sys2Proof.Machine.execFetch shifted s
  | .stat => Sys2Proof.Machine.execStat s
  | .unknownCommand cmd => Sys2Proof.Machine.execUnknownCommand cmd s
  | .length short bytes => Sys2Proof.Machine.execLength short bytes s
  | .ringFrame port bytes eop2 => Sys2Proof.Machine.execRingFrame port bytes eop2 s
  | .rollCallHoldoffExpiry => Sys2Proof.Machine.execRollCallHoldoffExpiry s
  | .rollCallStart => Sys2Proof.Machine.execRollCallStart s
  | .sweepLostTimeout => Sys2Proof.Machine.execSweepLostTimeout s
  | .ringNoHead => Sys2Proof.Machine.execRingNoHead s
  | .silentExpiry port => Sys2Proof.Machine.execSilentExpiry port s
  | .linkStartTimeout port => Sys2Proof.Machine.execLinkStartTimeout port s
  | .null port => Sys2Proof.Machine.execNull port s
  | .fct port => Sys2Proof.Machine.execFct port s
  | .disconnect port => Sys2Proof.Machine.execDisconnect port s
  | .linkError port kind => Sys2Proof.Machine.execLinkError port kind s
  | .roll ten => Sys2Proof.Machine.execRoll ten s
  | .portEnable ten upEn dnEn => Sys2Proof.Machine.execPortEnable ten upEn dnEn s
  | .tqaGrant => Sys2Proof.Machine.execTqaGrant s
  | .freeze ten on => Sys2Proof.Machine.execFreeze ten on s
  | .tqaPrioWrite ten second value => Sys2Proof.Machine.execTqaPrioWrite ten second value s
  | .bxaGrant => Sys2Proof.Machine.execBxaGrant s
  | .pmodeWrite ten emergencyOnly => Sys2Proof.Machine.execPmodeWrite ten emergencyOnly s
  | .slotAck dir verdict ns16 => Sys2Proof.Machine.execSlotAck dir verdict ns16 s
  | .silentSlotTimeout => Sys2Proof.Machine.execSilentSlotTimeout s
  | .barrierPark => Sys2Proof.Machine.execBarrierPark s
  | .barrierWake => Sys2Proof.Machine.execBarrierWake s
  | .opPacket => Sys2Proof.Machine.execOpPacket s
  | .result => Sys2Proof.Machine.execResult s
  | .abortAck => Sys2Proof.Machine.execAbortAck s
  | .holdup => Sys2Proof.Machine.execHoldup s
  | .statusPage0 => Sys2Proof.Machine.execStatusPage0 s
  | .statusPage1 => Sys2Proof.Machine.execStatusPage1 s
  | .statusPage2 => Sys2Proof.Machine.execStatusPage2 s
  | .statusPage3 => Sys2Proof.Machine.execStatusPage3 s
  | .statusPage4 => Sys2Proof.Machine.execStatusPage4 s
  | .statusPage5 => Sys2Proof.Machine.execStatusPage5 s
  | .swapReport => Sys2Proof.Machine.execSwapReport s
  | .eepromDataPage => Sys2Proof.Machine.execEepromDataPage s
  | .statusPeriod => Sys2Proof.Machine.execStatusPeriod s
  | .paceMeasurement die pace => Sys2Proof.Machine.execPaceMeasurement die pace s
  | .table => Sys2Proof.Machine.execTable s
  | .timeChunk => Sys2Proof.Machine.execTimeChunk s
  | .pairChunk => Sys2Proof.Machine.execPairChunk s
  | .swap => Sys2Proof.Machine.execSwap s
  | .breset => Sys2Proof.Machine.execBreset s
  | .boardDieRestart => Sys2Proof.Machine.execBoardDieRestart s
  | .tabort => Sys2Proof.Machine.execTabort s
  | .lanecmdReturn => Sys2Proof.Machine.execLanecmdReturn s
  | .lanecmdForce => Sys2Proof.Machine.execLanecmdForce s
  | .lanecmdRelease => Sys2Proof.Machine.execLanecmdRelease s
  | .lanecmdReaction => Sys2Proof.Machine.execLanecmdReaction s
  | .replay => Sys2Proof.Machine.execReplay s
  | .debug write addr value => Sys2Proof.Machine.execDebug write addr value s
  | .lamplighterTref => Sys2Proof.Machine.execLamplighterTref s
  | .keepaliveTimer => Sys2Proof.Machine.execKeepaliveTimer s
  | .refresh => Sys2Proof.Machine.execRefresh s
  | .missWindowExpiry => Sys2Proof.Machine.execMissWindowExpiry s
  | .holdTExpiry lane => Sys2Proof.Machine.execHoldTExpiry lane s
  | .directInputEdge ch level => Sys2Proof.Machine.execDirectInputEdge ch level s
  | .directRefreshTimer ch => Sys2Proof.Machine.execDirectRefreshTimer ch s
  | .directPulse ch level => Sys2Proof.Machine.execDirectPulse ch level s
  | .directFs ch => Sys2Proof.Machine.execDirectFs ch s
  | .beaconSymbol die sym => Sys2Proof.Machine.execBeaconSymbol die sym s
  | .beaconLostB => Sys2Proof.Machine.execBeaconLostB s
  | .beaconAliveReturn => Sys2Proof.Machine.execBeaconAliveReturn s
  | .rackLost => Sys2Proof.Machine.execRackLost s
  | .rackBeaconReturn => Sys2Proof.Machine.execRackBeaconReturn s
  | .cmtEvent kvPerUs => Sys2Proof.Machine.execCmtEvent kvPerUs s
  | .barReturn ten mask => Sys2Proof.Machine.execBarReturn ten mask s
  | .barForce ten mask => Sys2Proof.Machine.execBarForce ten mask s
  | .conflictWindowEnd lane => Sys2Proof.Machine.execConflictWindowEnd lane s
  | .laneMismatch lane => Sys2Proof.Machine.execLaneMismatch lane s
  | .levelInChange lane level => Sys2Proof.Machine.execLevelInChange lane level s
  | .boardAttach => Sys2Proof.Machine.execBoardAttach s
  | .boardDetach => Sys2Proof.Machine.execBoardDetach s
  | .etx req addr dlen src tmo value mask => Sys2Proof.Machine.execEtx req addr dlen src tmo value mask s
  | .erx req addr dlen tmo value mask => Sys2Proof.Machine.execErx req addr dlen tmo value mask s
  | .engTxw ten eng value => Sys2Proof.Machine.execEngTxw ten eng value s
  | .engRxw ten eng => Sys2Proof.Machine.execEngRxw ten eng s
  | .engOcw ten eng value => Sys2Proof.Machine.execEngOcw ten eng value s
  | .flushRx ten eng => Sys2Proof.Machine.execFlushRx ten eng s
  | .engineTimer eng => Sys2Proof.Machine.execEngineTimer eng s
  | .engineInputEdge eng edge => Sys2Proof.Machine.execEngineInputEdge eng edge s
  | .engineTimeout eng limit => Sys2Proof.Machine.execEngineTimeout eng limit s
  | .ocwSample eng levels => Sys2Proof.Machine.execOcwSample eng levels s
  | .pulseInputEdge eng index level => Sys2Proof.Machine.execPulseInputEdge eng index level s
  | .pulseRecordDue eng => Sys2Proof.Machine.execPulseRecordDue eng s
  | .engineStop eng cause => Sys2Proof.Machine.execEngineStop eng cause s
  | .idleSequence eng => Sys2Proof.Machine.execIdleSequence eng s
  | .gen1Read req addr => Sys2Proof.Machine.execGen1Read req addr s
  | .gen1Write req addr value => Sys2Proof.Machine.execGen1Write req addr value s
  | .rd32 req addr => Sys2Proof.Machine.execRd32 req addr s
  | .wr32 req addr value => Sys2Proof.Machine.execWr32 req addr value s
  | .rmw32 req addr value mask => Sys2Proof.Machine.execRmw32 req addr value mask s
  | .rdblk req addr dlen => Sys2Proof.Machine.execRdblk req addr dlen s
  | .wrblk req addr dlen src => Sys2Proof.Machine.execWrblk req addr dlen src s
  | .free req buf count => Sys2Proof.Machine.execFree req buf count s
  | .fence req => Sys2Proof.Machine.execFence req s
  | .fenceDone ten => Sys2Proof.Machine.execFenceDone ten s
  | .set req addr value => Sys2Proof.Machine.execSet req addr value s
  | .clr req addr value => Sys2Proof.Machine.execClr req addr value s
  | .tenReset ten page key => Sys2Proof.Machine.execTenReset ten page key s
  | .tresetSlow ten => Sys2Proof.Machine.execTresetSlow ten s
  | .board ten key => Sys2Proof.Machine.execBoard ten key s
  | .soft ten key => Sys2Proof.Machine.execSoft ten key s
  | .softResetDeferredStart => Sys2Proof.Machine.execSoftResetDeferredStart s
  | .releaseLanes ten key => Sys2Proof.Machine.execReleaseLanes ten key s
  | .powerOn pins => Sys2Proof.Machine.execPowerOn pins s
  | .vddaCollapse => Sys2Proof.Machine.execVddaCollapse s
  | .rstnLow => Sys2Proof.Machine.execRstnLow s
  | .rstnHigh pins lowSeconds => Sys2Proof.Machine.execRstnHigh pins lowSeconds s
  | .rstnStuck pins => Sys2Proof.Machine.execRstnStuck pins s
  | .rearm => Sys2Proof.Machine.execRearm s
  | .boardNoReturn => Sys2Proof.Machine.execBoardNoReturn s
  | .brownNoticeBegin a b => Sys2Proof.Machine.execBrownNoticeBegin a b s
  | .brownNoticeEnd minA durA minB durB => Sys2Proof.Machine.execBrownNoticeEnd minA durA minB durB s
  | .brownLong min dur => Sys2Proof.Machine.execBrownLong min dur s
  | .vddbCollapse => Sys2Proof.Machine.execVddbCollapse s
  | .holdupEnd => Sys2Proof.Machine.execHoldupEnd s
  | .bankDown bank => Sys2Proof.Machine.execBankDown bank s
  | .bankUp bank => Sys2Proof.Machine.execBankUp bank s
  | .bankLow bank => Sys2Proof.Machine.execBankLow bank s
  | .holdbLow => Sys2Proof.Machine.execHoldbLow s
  | .standby ten => Sys2Proof.Machine.execStandby ten s
  | .dormant ten => Sys2Proof.Machine.execDormant ten s
  | .active ten => Sys2Proof.Machine.execActive ten s
  | .hcsnWake => Sys2Proof.Machine.execHcsnWake s
  | .extest => Sys2Proof.Machine.execExtest s
  | .samplePreload load => Sys2Proof.Machine.execSamplePreload load s
  | .idcode => Sys2Proof.Machine.execIdcode s
  | .highz => Sys2Proof.Machine.execHighz s
  | .clamp => Sys2Proof.Machine.execClamp s
  | .fuseRead word => Sys2Proof.Machine.execFuseRead word s
  | .fuseProg word value inRange verified => Sys2Proof.Machine.execFuseProg word value inRange verified s
  | .lcAdvance target token => Sys2Proof.Machine.execLcAdvance target token s
  | .dbg => Sys2Proof.Machine.execDbg s
  | .vchal => Sys2Proof.Machine.execVchal s
  | .vchalResponse resp => Sys2Proof.Machine.execVchalResponse resp s
  | .vchalHoldExpiry => Sys2Proof.Machine.execVchalHoldExpiry s
  | .bypass opcode => Sys2Proof.Machine.execBypass opcode s
  | .trstnLow => Sys2Proof.Machine.execTrstnLow s
  | .faultRaise source domain detail addr => Sys2Proof.Machine.execFaultRaise source domain detail addr s
  | .wireFault source domain => Sys2Proof.Machine.execWireFault source domain s
  | .fltAck ten source domain => Sys2Proof.Machine.execFltAck ten source domain s
  | .fltFkey ten key => Sys2Proof.Machine.execFltFkey ten key s
  | .forceRaise ten source domain => Sys2Proof.Machine.execForceRaise ten source domain s
  | .forceWire00 ten source domain => Sys2Proof.Machine.execForceWire00 ten source domain s
  | .forceWire11 ten source domain => Sys2Proof.Machine.execForceWire11 ten source domain s
  | .quietEnd domain cls => Sys2Proof.Machine.execQuietEnd domain cls s
  | .wrenToggle => Sys2Proof.Machine.execWrenToggle s
  | .tpi => Sys2Proof.Machine.execTpi s
  | .referenceLoss => Sys2Proof.Machine.execReferenceLoss s
  | .tholdMaxExpiry => Sys2Proof.Machine.execTholdMaxExpiry s
  | .crystalLost => Sys2Proof.Machine.execCrystalLost s
  | .crystalRestored => Sys2Proof.Machine.execCrystalRestored s
  | .timeSend => Sys2Proof.Machine.execTimeSend s
  | .tpoRise => Sys2Proof.Machine.execTpoRise s
  | .tpoFall => Sys2Proof.Machine.execTpoFall s
  | .timSetHi ten value => Sys2Proof.Machine.execTimSetHi ten value s
  | .timNextHi ten value => Sys2Proof.Machine.execTimNextHi ten value s
  | .timNowLoRead ten => Sys2Proof.Machine.execTimNowLoRead ten s
  | .timMonoLoRead ten => Sys2Proof.Machine.execTimMonoLoRead ten s
  | .slewDone => Sys2Proof.Machine.execSlewDone s
  | .identityRead reason => Sys2Proof.Machine.execIdentityRead reason s
  | .strapPhaseEnd levels => Sys2Proof.Machine.execStrapPhaseEnd levels s
  | .idsConversion ratio => Sys2Proof.Machine.execIdsConversion ratio s
  | .eepromReadDone how => Sys2Proof.Machine.execEepromReadDone how s
  | .idnWb ten note key => Sys2Proof.Machine.execIdnWb ten note key s
  | .writebackStart => Sys2Proof.Machine.execWritebackStart s
  | .writebackPoll ack => Sys2Proof.Machine.execWritebackPoll ack s
  | .writebackTimeout => Sys2Proof.Machine.execWritebackTimeout s
  | .writebackVerify bytes => Sys2Proof.Machine.execWritebackVerify bytes s
  | .ckFeed ten unit value => Sys2Proof.Machine.execCkFeed ten unit value s
  | .start ten unit => Sys2Proof.Machine.execStart ten unit s
  | .ckRunWrite ten unit value => Sys2Proof.Machine.execCkRunWrite ten unit value s
  | .selfTest fixedOk unitOk => Sys2Proof.Machine.execSelfTest fixedOk unitOk s
  | .windowWrite ten offset value => Sys2Proof.Machine.execWindowWrite ten offset value s
  | .windowLineCommitStart => Sys2Proof.Machine.execWindowLineCommitStart s
  | .lineCommitDone => Sys2Proof.Machine.execLineCommitDone s
  | .logLineCommit => Sys2Proof.Machine.execLogLineCommit s
  | .recnMark => Sys2Proof.Machine.execRecnMark s
  | .logMark ten value => Sys2Proof.Machine.execLogMark ten value s
  | .logFreeze ten key => Sys2Proof.Machine.execLogFreeze ten key s
  | .arm ten key => Sys2Proof.Machine.execArm ten key s
  | .load ten key => Sys2Proof.Machine.execLoad ten key s
  | .go ten key => Sys2Proof.Machine.execGo ten key s
  | .abort ten key => Sys2Proof.Machine.execAbort ten key s
  | .rwaitExpiry => Sys2Proof.Machine.execRwaitExpiry s
  | .epochCut => Sys2Proof.Machine.execEpochCut s
  | .epochNoack => Sys2Proof.Machine.execEpochNoack s
  | .startTake => Sys2Proof.Machine.execStartTake s
  | .silence pairnHigh => Sys2Proof.Machine.execSilence pairnHigh s
  | .heldSilentTakeover => Sys2Proof.Machine.execHeldSilentTakeover s
  | .forcedTakeover => Sys2Proof.Machine.execForcedTakeover s
  | .handover ten key => Sys2Proof.Machine.execHandover ten key s
  | .releaseAckWaitEnd => Sys2Proof.Machine.execReleaseAckWaitEnd s
  | .hot ten key => Sys2Proof.Machine.execHot ten key s
  | .cold ten key bank => Sys2Proof.Machine.execCold ten key bank s
  | .check ten key bank => Sys2Proof.Machine.execCheck ten key bank s
  | .weaveDeferredStart => Sys2Proof.Machine.execWeaveDeferredStart s
  | .registerWrite ten addr value => Sys2Proof.Machine.execRegisterWrite ten addr value s
  | .boardDiePowerOn prsLow => Sys2Proof.Machine.execBoardDiePowerOn prsLow s
  | .wireFaultClear source => Sys2Proof.Machine.execWireFaultClear source s

end Sys2Proof.Machine
end

