-- ==== Sys2Proof/Machine/Step.lean ====
section
/-! DEFINITION. One step of the block: the command at the front of the queue, or one lantern tick when no
command waits. -/

namespace Sys2Proof.Machine

/-- The state with the front command taken off the queue. -/
def State.rest (s : State) : State := { s with pending := s.pending.tail }

/-- One tick of the lantern, in place of idling (log entry 1): NOW and MONO advance (R309). -/
def State.idle (s : State) : State := commit s (load s).tick

/-- One step: take the command at the front and answer its outcome; on an empty queue the lantern ticks. -/
def step (s : State) : Host.Outcome State Fault Refusal :=
  match s.pending with
  | [] => .next s.idle
  | c :: _ => exec c s.rest

/-- The state with the command that a word spells put at the front of the queue; no word of the table
spells one. -/
def State.withFetchWord (s : State) (nbits w : Nat) : State :=
  match decodeTableWord nbits w with
  | some c => { s with pending := c :: s.pending }
  | none => s

end Sys2Proof.Machine
end

