-- ==== Sys2Proof/Machine/Flags.lean ====
section
/-! DEFINITION. The outputs and summary flags that State determines: HIRQn, FSn, WREN, TPO, PAIRn, and the beacon symbols. -/

namespace Sys2Proof.Machine

/-- A cause of HPT_IRQ is 1 and enabled. -/
def HostPort.irqActive (h : HostPort) : Bool := h.irq &&& h.irqEn.toNat != 0

/-- HIRQn is high (R153); it is released in hard reset. -/
def Dev.hirqn (d : Dev) : Bool := !(d.awake && d.hpt.irqActive)

/-- FSn is high: no lane counts as in fail-safe (R55, R233). -/
def Dev.fsn (d : Dev) : Bool := !d.bd.fsnLow

/-- WREN: low in hard reset and until a weave, high in DORMANT, else the toggling level (R304). -/
def Dev.wrenPin (d : Dev) : Bool := if !d.awake || !d.img.woven then false else if d.sup.mode = 2 then true else d.flt.wren

/-- TPO. -/
def Dev.tpoPin (d : Dev) : Bool := d.awake && d.tim.tpo

/-- The unit pulls PAIRn low. -/
def Dev.pairPull (d : Dev) : Bool := d.awake && d.pai.pull

/-- A beacon symbol of a die: its four states and their complement (Table 11.6). -/
def beaconSym (alive supply : Bool) : Byte :=
  let x := packN [(0, 1, b2n alive), (1, 1, b2n supply)]
  BitVec.ofNat 8 (x ||| ((15 - x) <<< 4))

/-- The symbol that the board die sends: die-alive while its core runs (R219). -/
def Board.symbol (b : Board) : Byte := beaconSym (b.core && !b.holdup) b.vddb

/-- The symbol that the rack die sends. -/
def Dev.symbol (d : Dev) : Byte := beaconSym d.rackOn d.rst.vdda

end Sys2Proof.Machine
end

