-- ==== Sys2Proof/Safety.lean ====
section
/-! DEFINITION. The terms the statements use: the invariants, when a command meets a running die, and what the next state is. -/

namespace Sys2Proof.Machine

/-! ## Invariants -/

/-- The record store and the buffer RAM are in canonical form: addresses strictly rising, no listed byte 0. -/
abbrev State.Inv (s : State) : Prop := Memory.wf s.store = true ∧ Memory.wf s.bufs = true

/-- Every fuse bit that reads 1 in `s` reads 1 in `t`. -/
def State.FusesKept (s t : State) : Prop := ∀ i b, (tget 0 s.fuses i).getLsbD b = true → (tget 0 t.fuses i).getLsbD b = true

/-! ## Where a command meets the machine -/

/-- `c` at `s` answers a next state, and `P` holds of it. -/
def Does (c : Instr) (s : State) (P : State → Prop) : Prop := ∃ t, exec c s = .next t ∧ P t

/-- The rack die runs, and the order log does not replay. -/
def State.rack (s : State) : Prop := s.dev.rackOn = true ∧ s.dev.log.lstate ≠ 4

/-- The rack die is out of hard reset, and the order log does not replay. -/
def State.awake (s : State) : Prop := s.dev.awake = true ∧ s.dev.log.lstate ≠ 4

/-- The board die runs, and the order log is in neither REPLAY nor STOPPED. -/
def State.board (s : State) : Prop := s.dev.bd.runs = true ∧ s.dev.log.lstate < 4

/-- Tenant `t` may write: its frames are not turned away, and the unit is not in the fatal state. -/
def State.writer (s : State) (t : Ten) : Prop := s.dev.barred t.val = false ∧ s.dev.flt.fatal = false

/-- The raise of source `x` in domain `d` orders no reset: the class it takes is C or U, with RESET = 0 in its reaction word. -/
def State.calm (s : State) (x d : Nat) : Prop :=
  let k := (load s).decision x d false
  (∃ c e, k = .again c e) ∨ ∃ c e, k = .fresh c e ∧ c ≠ 2 ∧ fld (s.dev.img.cfg.flt.react' x d c) 11 2 = 0

/-- With the instruction `op` in the TAP's instruction register, both ring ports already stand as their conditions ask: OFF where they may not
run or are not enabled, and not OFF otherwise. -/
def State.portsRest (s : State) (op : Nat) : Prop :=
  ∀ p, (W.portsOn (load { s with dev.fus.inst := op }) && (s.dev.ring.port p).en) = ((s.dev.ring.port p).st != 0)

/-! ## What a next state keeps -/

/-- `s` with what recording an order-log entry can change taken from `t`: the log, the staging memory, the replay record, SUP's
count of dropped lines, and the record store. -/
def State.logged (s t : State) : State :=
  { s with store := t.store, dev.log := t.dev.log, dev.sto := t.dev.sto, dev.rpl := t.dev.rpl, dev.sup.dropped := t.dev.sup.dropped }

/-- `s` with what a raise that orders no reset can change taken from `t`: the logs, the collector, the replies and ring frames of its
notices, the LANECMD packets of its lane group, and the service log's last fault. -/
def State.raised (s t : State) : State :=
  { s.logged t with
    dev.flt := t.dev.flt, dev.hpt.rq := t.dev.hpt.rq, dev.hpt.irqErr := t.dev.hpt.irqErr, dev.hpt.irqDrop := t.dev.hpt.irqDrop,
    dev.hpt.replyDrop := t.dev.hpt.replyDrop, dev.hpt.irqTen := t.dev.hpt.irqTen, dev.ring.up := t.dev.ring.up, dev.ring.dn := t.dev.ring.dn,
    dev.ring.preempts := t.dev.ring.preempts, dev.ring.dropN := t.dev.ring.dropN, dev.arb.ctl := t.dev.arb.ctl,
    dev.idn.lfsrc := t.dev.idn.lfsrc, dev.idn.lfcls := t.dev.idn.lfcls }

/-- What a raise of source `x` with `i`, at class `c`, has put into the collector of `t`: its capture, which a later raise only counts, its wire fault,
and nothing else but `slots`, the events of the fault log and the lane union. -/
def State.captured (s t : State) (x d : Nat) (i : RaiseInfo) (c : Nat) (esc : Bool) (slots : Tbl Slot) : Prop :=
  let o : Capture := tget {} s.dev.flt.caps x
  t.dev.flt = { s.dev.flt with
    slots := slots
    caps := tput s.dev.flt.caps x (if o.held then { o with count := satAdd 8 o.count 1 } else
      { held := true, cls := c, esc := esc, wire := i.wire, forced := i.forced, dom := domCode d, count := 1, addr := i.addr,
        acc := i.acc, ten := i.ten, q := s.dev.tim.qual, time := i.time.getD s.dev.tim.now, detail := i.detail, ext := i.ext })
    wires := (if i.wire then tput s.dev.flt.wires x d else s.dev.flt.wires)
    evq := t.dev.flt.evq, head := t.dev.flt.head, next := t.dev.flt.next, union := t.dev.flt.union }

/-- The slot of domain `d` and class `c` set ACTIVE by source `x`. -/
def State.activated (s : State) (x d c : Nat) (esc : Bool) : Tbl Slot :=
  tput s.dev.flt.slots (3 * d + c) { st := 1, src := x, t0 := s.dev.tim.mono, esc := esc, word := s.dev.img.cfg.flt.react' x d c }

/-- The reaction word of source `x` in domain `d` at class `c` asks for no reset. -/
def State.noReset (s : State) (x d c : Nat) : Prop := fld (s.dev.img.cfg.flt.react' x d c) 11 2 = 0

/-- `s` with the ring port `p` as given. -/
def State.withPort (s : State) (p : RPort) (x : RingPort) : State :=
  match p with
  | .up => { s with dev.ring.up := x }
  | .dn => { s with dev.ring.dn := x }

/-- The port can send a frame of `n` characters at once: in RUN, nothing in transmission or waiting, and credit enough. -/
def RingPort.ready (r : RingPort) (n : Nat) : Prop := r.st = 4 ∧ r.cur = none ∧ r.fwdQ = [] ∧ r.ownQ = [] ∧ n ≤ r.credit

/-- `s` after the frame `b` has left port `p`: one credit for each character is used. -/
def State.sent (s : State) (p : RPort) (b : List Byte) (own : Bool) : State :=
  let r := s.dev.ring.port p
  s.withPort p { r with credit := r.credit - b.length, tx := (b, false) :: r.tx, lastOwn := own }

/-- The error reply of Table 8.12 for a frame with route `rt`, in ring form or in short form; `addr` is the unit's own address. -/
def errorReply (addr : Nat) (rt : Route) (gen ten code detail offset : Nat) : Reply :=
  let pay := errPayload code detail (if rt.ring then rt.seq.toNat else 0) offset gen ten
  if rt.ring then
    { short := false, err := true, ten := ten,
      bytes := ({ dst := rt.orig.toNat, urg := rt.urg, rfl' := false, orig := addr, gen := gen, ten := ten, type := 3, seq := rt.seq.toNat,
                  len := 8, hops := 0, payload := pay } : Frame).bytes }
  else { short := true, err := true, ten := ten, bytes := shortForm pay }

/-- `s` with lane `n` of the board die as given. -/
def State.withLane (s : State) (n : Nat) (x : Lane) : State := { s with dev.bd.lanes := tput s.dev.bd.lanes n x }

/-- `s` after an accepted register access: status OK, and the value read (0 for a write). -/
def State.okAcc (s : State) (v : BitVec 32 := 0) : State := { s with dev.acc := { status := stOK, value := v } }

/-- `s` after a refused register access: status DENIED. -/
def State.denied (s : State) : State := { s with dev.acc := { status := stDENIED, value := 0 } }

/-- The packet `p` is the next that the board die takes, and `rest` waits behind it. -/
def State.boardHas (s : State) (p : Pkt) (rest : List Pkt) : Prop := s.board ∧ s.dev.bd.inbox = p :: rest

/-- `s` with the board die as given. -/
def State.withBoard (s : State) (b : Board) : State := { s with dev.bd := b }

/-- The board die with the packets `ps` made ready behind its status packets. -/
def Board.tells (b : Board) (ps : List Payload) : Board := { b with outS := b.outS ++ ps.map (fun x => ({ body := x } : Pkt)) }

/-- A TIMER entry of the board die's part of the order log. -/
def timerEntry (kind index : Nat) : Payload := .page5 [[packN [(0, 6, 7), (6, 4, kind), (10, 16, index)]]]

/-- A BOARD entry: a decision of the board die. -/
def boardEntry (kind index detail : Nat) : Payload := .page5 [[packN [(0, 6, 8), (6, 4, kind), (10, 10, index), (20, 6, detail)]]]

/-- The next status packet of the board die is `x`, with `rest` behind it, and the packet lanes are awake. -/
def State.hears (s : State) (x : Payload) (rest : List Pkt) : Prop :=
  s.rack ∧ s.dev.bar.parked = false ∧ ∃ p, p.body = x ∧ s.dev.bd.outS = p :: rest

/-- `s` with the board die's status list as given. -/
def State.heard (s : State) (rest : List Pkt) : State := { s with dev.bd.outS := rest }

/-! ## What the board die reports and drives -/

/-- The board die after STATUS page 0: FSMAP, banks, holdup, PACE_B and lane states; misses and the loss of the rack die are told once. -/
def Board.page0 (b : Board) : Board :=
  { b.tells [.page0 b.fsmap b.up b.low b.ready b.holdV (b.rackLost && b.tabs) b.pace ((List.range 32).map (fun n => (n, b.view n))) b.missed] with
    missed := 0, rackLost := b.rackLost && !b.tabs }

/-- The board die after STATUS page 1: the levels, WSEQ and the corrections. -/
def Board.page1 (b : Board) : Board := { b.tells [.page1 b.levels b.wseq b.corrected] with corrected := 0 }

/-- The board die after STATUS page 2: the presence state. -/
def Board.page2 (b : Board) : Board := b.tells [.page2 b.pstate b.prsn]

/-- The board die after its report of pages 0, 1 (once tables are in force), 2 and 4. -/
def Board.reports (b : Board) : Board := (if b.tabs then b.page0.page1 else b.page0).page2.tells [.page4 { b.probe.sum with phase := b.probe.phase }]

/-- The board die after a raise: the event waits in a STATUS page 3 packet. -/
def Board.raises (b : Board) (source dom detail : Nat) : Board :=
  { b with outS := addEvent { source := source, wire := false, dom := dom, detail := detail } b.outS }

/-- The board die with lane `n` as given. -/
def Board.setLane (b : Board) (n : Nat) (x : Lane) : Board := { b with lanes := tput b.lanes n x }

/-- The board die after lane `n` takes the intended state `code`: WSEQ counts a LEVEL_OUT lane's change, the pin follows in a
powered bank of an unparked unit, and the EDGE entry is recorded. -/
def Board.drive (b : Board) (n code : Nat) : Board :=
  let q := if (b.cfg.lane n).mode = 2 then (b.wseq + 1) % 65536 else b.wseq
  let l := b.lane n
  let pin := if b.parked || !b.bankUp n then l.pin else if code = 0 then false else if code = 1 then true else l.pin
  (({ b with wseq := q } : Board).setLane n { l with code := code, hiz := false, mism := false, pin := pin }).tells
    [.page5 [[packN [(0, 6, 9), (6, 5, n), (11, 2, code), (13, 16, q)]]]]

/-- The board die after the RESULT of packet `p` without an engine has joined its queue. -/
def Board.replies (b : Board) (p : Pkt) (status : Nat) (value : BitVec 32) (news : Option (Nat × Nat × Nat)) (view : Option (Nat × LaneView)) : Board :=
  let r : Pkt := { body := .result status 0 value news view, tkt := p.tkt, ic := p.ic, ten := p.ten, queue := p.queue }
  if p.queue = 0 then { b with out0 := b.out0 ++ [r] } else { b with outR := b.outR ++ [r] }

/-! ## Engines -/

/-- The settings engine `e` runs under. -/
def Board.ecfg (b : Board) (e : Nat) : EngCfg := (b.eng e).kept.getD (b.cfg.eng e)

/-- The board die with engine `e` as given. -/
def Board.setEng (b : Board) (e : Nat) (g : Eng) : Board := { b with engs := tput b.engs e g }

/-- Engine `e` is BUSY with `o`, and `rest` waits behind it. -/
def Board.busy (b : Board) (e : Nat) (o : EngOp) (rest : List EngOp) : Prop := (b.eng e).st = 1 ∧ (b.eng e).ops = o :: rest

/-- The engine with `o` at step `n` and `rest` behind it. -/
def Eng.at (g : Eng) (o : EngOp) (rest : List EngOp) (n : Nat) : Eng := { g with ops := { o with step := n } :: rest, step := n, sub := 0 }

/-- The engine IDLE after its only operation ended with a status at a step. -/
def Eng.idled (g : Eng) (o : EngOp) (status step : Nat) : Eng :=
  { g with ops := [], st := 0, step := 0, sub := 0, lastF := (o.errf.toNat, status, step) }

/-- The board die with the data and the RESULT of `o` in its result queue. -/
def Board.ends (b : Board) (o : EngOp) (status step : Nat) (value : BitVec 32) : Board :=
  let ps := ((pieces 10 o.rx.length o.rx).map Payload.rdata ++ [Payload.result status step value none none]).map (fun x =>
    ({ body := x, tkt := o.tkt, ic := o.ic, ten := o.op.req.ten.val, queue := o.op.req.queue.val } : Pkt))
  if o.op.req.queue = 0 then { b with out0 := b.out0 ++ ps } else { b with outR := b.outR ++ ps }

/-- The board die with role lane `k` of engine `e` driven, where it is bound, LIVE and powered. -/
def Board.drivesRole (b : Board) (e k : Nat) (high : Bool) : Board :=
  match (b.ecfg e).role k with
  | some n => if (b.lane n).stage = 0 ∧ b.bankUp n then b.drive n (if high then 1 else 0) else b
  | none => b

/-- The levels at the pins of the group of engine `e`. -/
def Board.groupPins (b : Board) (e : Nat) : Byte :=
  BitVec.ofNat 8 (packN (((b.ecfg e).group.zip (List.range 8)).map (fun p => (p.2, 1, b2n (b.pinOf p.1)))))

/-- The event record of Table 13.8. -/
def Board.record (b : Board) (e index : Nat) (level : Bool) : List (Byte × BitVec 8) :=
  (le 8 (packN [(0, 56, b.timer), (56, 3, index), (59, 1, b2n level), (60, 2, b.timerQ), (62, 1, b2n (b.eng e).overEp)])).map (fun x => (x, 0))

/-- A PIN entry that carries a byte of engine `e`. -/
def pinEntry (e byte detail : Nat) : Payload := .page5 [[packN [(0, 6, 0x11), (6, 5, e), (11, 1, 1), (12, 8, byte), (20, 8, detail)], 0x3F]]

/-! ## Operations at the front -/

/-- The front admits `o`: generation, queue and descriptor are good, its tenant is not turned away and may have a ticket, its
address and rights hold, and it resets no tenant. -/
def State.fits (s : State) (o : Op) : Prop :=
  let t := o.req.ten.val
  o.req.gen ≠ 0 ∧ (s.dev.img.woven = true → o.req.gen.val = (s.dev.ten t).gen) ∧ (o.req.route.urg = true → o.req.queue = 0) ∧
  (o.req.gen = 2 → o.gen2Fault = none) ∧ (o.req.gen = 3 → (s.dev.img.cfg.ten t).streams ≠ []) ∧
  s.dev.barred t = false ∧ o.addressed = true ∧ o.isReset = false ∧ s.dev.tktTest t 1 = .ok

/-- A new ticket is not granted at once: a pair has won the selection, or two tickets wait already. -/
def State.contended (s : State) : Prop := s.dev.arb.sel ≠ none ∨ 2 ≤ sum5 (fun t => ((s.dev.ten t).queues.map List.length).sum)

/-- `s` with `o` on the ticket `k` made from the head of the free list, at the tail of its queue. -/
def State.ticketed (s : State) (o : Op) (k : Ticket → Ticket) : State :=
  let p := s.dev.pool
  let n := p.tktFree.headD 0
  { s with
    dev.pool := { p.setTkt n (k {
        st := .queued
        ten := o.req.ten.val
        queue := o.req.queue.val
        icount := ((p.tkt n).icount + 1) % 4
        board := o.board
        op := some o
        seqNo := p.order }) with
      tktFree := p.tktFree.drop 1
      order := p.order + 1 }
    dev.tens := lmod s.dev.tens o.req.ten.val (fun x => { x with
      tktUse := x.tktUse + 1
      tktPeak := max x.tktPeak (x.tktUse + 1)
      queues := lmod x.queues o.req.queue.val (fun q => q ++ [n]) }) }

/-- The operation as it waits: a Gen3 item names its message. -/
def State.item (s : State) (o : Op) : Op := if o.req.gen = 3 then { o with msg := some s.dev.hpt.nextMsg, item := 0 } else o

/-- `s` with the message of a Gen3 item that a command names. -/
def State.messaged (s : State) (o : Op) : State :=
  if o.req.gen = 3 then
    let t := o.req.ten.val
    let si := (load s).streamFor t o.req.queue.val
    { s with
      dev.hpt.msgs := tput s.dev.hpt.msgs s.dev.hpt.nextMsg {
        ten := t
        stream := si
        hdr := [BitVec.ofNat 8 si, if o.req.quiet then 0 else 1, 0, 0]
        ack := !o.req.quiet
        route := o.req.route
        items := [(o.req.tag.toNat, none)] }
      dev.hpt.nextMsg := s.dev.hpt.nextMsg + 1 }
  else s

/-- `s` after a command's request `o`: it waits in its queue. -/
def State.waits (s : State) (o : Op) : State := (s.messaged o).ticketed (s.item o) id

/-- The operation of tenant `t` on the board register `a` that a command names without a request. -/
def State.portOp (s : State) (t : Ten) (kind : OpKind) (a : Nat) (v : BitVec 32) : Op :=
  let g : Nat := if s.dev.img.woven then (s.dev.ten t.val).gen else 2
  let q : Nat := if g = 3 then (((s.dev.img.cfg.ten t.val).streams.getD 0 {}).queue) % 4 else 2
  { kind := kind, addr := BitVec.ofNat 32 a, value := v,
    req := { ten := t, gen := ⟨g % 4, Nat.mod_lt _ (by decide)⟩, queue := ⟨q % 4, Nat.mod_lt _ (by decide)⟩, tag := 0, quiet := false, route := shortRoute } }

end Sys2Proof.Machine
end

