-- ==== Sys2Proof/Certificates/Slice0/Obligations.lean ====
section
/-! DEFINITION. The statements of this model. -/

open Sys2Proof Sys2Proof.Machine

/-! ## The machine as a whole -/

/-- Every step keeps the record store and the buffer RAM in canonical form. -/
def Obligations.StepKeepsMemoryCanonical : Prop := ∀ (s t : State), s.Inv → step s = .next t → t.Inv

/-- Reset has both memories in canonical form. -/
def Obligations.ResetMemoryCanonical : Prop := State.reset.Inv

/-- No step clears a fuse bit (R110). -/
def Obligations.StepKeepsFuses : Prop := ∀ (s t : State), step s = .next t → s.FusesKept t

/-- A step runs the command at the front of the queue, with the queue's rest; on an empty queue the lantern ticks once
(the tick is the model's choice, log entry 1). -/
def Obligations.StepRunsFront : Prop :=
  (∀ (c : Instr) (s : State), step { s with pending := c :: s.pending } = exec c s) ∧
  ∀ (s : State), s.pending = [] → step s = .next s.idle

/-- Every command, in every state, answers a next state with the queue as it was: none stops the machine. -/
def Obligations.EveryCommandCompletes : Prop :=
  ∀ (c : Instr) (s : State), Does c s (fun t => t.pending = s.pending)

/-! ## The host port (chapter 8) -/

/-- STAT shifts out the status byte and HPT_STATUS; a command byte of no command shifts out the status byte; FETCH shifts out the status
byte, RLEN, RKIND and as much of the oldest reply as the host clocks, and drops that reply once its last byte has gone. Nothing else changes. -/
def Obligations.HostReads : Prop :=
  ∀ (s : State), s.awake → s.dev.sup.mode ≠ 2 →
    exec .stat s = .next { s with dev.hpt.hsdo := s.dev.statusByte :: le 4 s.dev.hpt.statusReg } ∧
    (∀ b, exec (.unknownCommand b) s = .next { s with dev.hpt.hsdo := [s.dev.statusByte] }) ∧
    (∀ n, s.dev.hpt.rq = [] → exec (.fetch n) s = .next { s with dev.hpt.hsdo := [s.dev.statusByte, 0, 0, 0] }) ∧
    (∀ n r rest, s.dev.hpt.rq = r :: rest →
      exec (.fetch n) s = .next { s with
        dev.hpt.hsdo := s.dev.statusByte :: (le 2 r.bytes.length ++ [r.kind] ++ r.bytes.take n),
        dev.hpt.rq := if r.bytes.length ≤ n then rest else r :: rest })

/-- SEND_RING of a complete frame for another unit places it on the ring: HOPS 0, HCRC computed, FCRC as supplied. It leaves the port that
R131 gives; only that port, HSDO and the order log change. -/
def Obligations.SendRingPlacesFrame : Prop :=
  ∀ (s : State) (bs : List Byte), s.awake → s.dev.sup.mode ≠ 2 → s.dev.hpt.rx.length < 2 →
    let f := readFrame bs
    let b := ({ f with hops := 0 } : Frame).bytes.take (10 + f.len) ++ (bs.drop (10 + f.len)).take 4
    let p := (load s).unicastPort f.dst
    8 ≤ bs.length → f.len ≤ 1024 → 14 + f.len ≤ bs.length → f.dst ≠ 0 → f.dst ≠ s.dev.ring.addr → f.dst ≠ 63 →
    (load s).entryFault f bs = none → s.dev.admits f.ten = true → (readFrame b).type ≠ 4 → (s.dev.ring.port p).ready b.length →
    Does (.sendRing bs) s (fun t => t = ({ s.sent p b true with dev.hpt.hsdo := [s.dev.statusByte] }).logged t)

/-- LENGTH: a frame that HCSn cuts short of its header is counted, answered with the error reply LENGTH and raised (R149, R168). -/
def Obligations.LengthAnswersError : Prop :=
  ∀ (s : State) (bs : List Byte), s.awake → s.dev.sup.mode ≠ 2 → s.dev.hpt.rx.length < 2 → s.dev.hpt.rqFull 22 = false → s.calm 0x18 dUnit →
    (bs.length < 8 →
      let f := readFrame bs
      Does (.length false bs) s (fun t =>
        t = ({ s with dev.hpt.hsdo := [s.dev.statusByte], dev.hpt.frameErr := satAdd 8 s.dev.hpt.frameErr 1,
                      dev.hpt.lastErr := (1, bs.length, f.ten) }).raised t ∧
        s.dev.hpt.rq ++ [errorReply s.dev.ring.addr (f.route .host) f.gen f.ten 1 bs.length 0xFFFF] <+: t.dev.hpt.rq)) ∧
    (bs.length < 2 → 2 ≤ s.dev.shortGen →
      Does (.length true bs) s (fun t =>
        t = ({ s with dev.hpt.hsdo := [s.dev.statusByte], dev.hpt.frameErr := satAdd 8 s.dev.hpt.frameErr 1,
                      dev.hpt.lastErr := (1, bs.length, s.dev.shortTen) }).raised t ∧
        s.dev.hpt.rq ++ [errorReply s.dev.ring.addr shortRoute s.dev.shortGen s.dev.shortTen 1 bs.length 0xFFFF] <+: t.dev.hpt.rq))

/-! ## The ring (chapter 7) -/

/-- RING_FRAME: a frame with a right header that arrives on a port in RUN is passed on through the other port with one more hop when it is for
another unit, and a REPLY or ERROR addressed to this unit joins the reply queue (R126, R127, R131). -/
def Obligations.RingFrameMovesOn : Prop :=
  ∀ (s : State) (p : RPort) (bs : List Byte), s.rack → (s.dev.ring.port p).st = 4 →
    let f := readFrame bs
    14 ≤ bs.length → hcrcOk bs = true → f.len ≤ 1024 → 14 + f.len ≤ bs.length →
    (f.type ≠ 0x11 → f.type ≠ 0x12 → f.type ≠ 4 → f.dst ≠ 63 → (f.dst ≠ s.dev.ring.addr ∨ s.dev.ring.addr = 0) →
      (f.orig = 0 ∨ f.orig ≠ s.dev.ring.addr) → f.hops < 62 →
      let b := ({ f with hops := f.hops + 1 } : Frame).bytes.take (10 + f.len) ++ (bs.drop (10 + f.len)).take 4
      (s.dev.ring.port (otherPort p)).ready b.length →
      Does (.ringFrame p bs false) s (fun t => t = (s.sent (otherPort p) b false).logged t)) ∧
    (f.type = 2 ∨ f.type = 3 → f.dst = s.dev.ring.addr → s.dev.ring.addr ≠ 0 → fcrcOk bs f = true → s.dev.hpt.rqFull (14 + f.len) = false →
      exec (.ringFrame p bs false) s = .next { s with
        dev.hpt.rq := s.dev.hpt.rq ++ [{ short := false, err := f.type == 3, ten := f.ten, bytes := bs.take (14 + f.len) }],
        dev.hpt.irqErr := s.dev.hpt.irqErr || f.type == 3 })

/-- The link states of Table 7.2 that no loss of RUN is part of: SILENT to STARTED, STARTED to CONNECTING at a NULL, back to SILENT at a
timeout; an FCT in RUN grants eight characters; a disconnect or a link error outside RUN is counted and leads to SILENT (R125, R143). -/
def Obligations.LinkSteps : Prop :=
  ∀ (s : State) (p : RPort), s.rack →
    let r := s.dev.ring.port p
    let errs := (s.dev.tim.mono :: r.errT).filter (fun x => decide (s.dev.tim.mono < x + 1000000000))
    (r.st = 1 → exec (.silentExpiry p) s = .next (s.withPort p { r with st := 2, credit := 0 })) ∧
    (r.st = 2 → exec (.null p) s = .next (s.withPort p { r with st := 3, credit := 0 })) ∧
    (r.st = 2 ∨ r.st = 3 → exec (.linkStartTimeout p) s = .next (s.withPort p { r with st := 1, credit := 0 })) ∧
    (r.st = 4 → r.credit + 8 ≤ 56 → r.cur = none → r.fwdQ = [] → r.ownQ = [] →
      exec (.fct p) s = .next (s.withPort p { r with credit := r.credit + 8 })) ∧
    (r.st = 2 ∨ r.st = 3 → errs.length ≤ 16 →
      exec (.disconnect p) s = .next (s.withPort p { r with st := 1, credit := 0, disc := satAdd 8 r.disc 1, errT := errs }) ∧
      ∀ k, exec (.linkError p k) s = .next (s.withPort p { r with st := 1, credit := 0, err := satAdd 8 r.err 1, errT := errs }))

/-- The hold-off's end, a head's own start, a lost sweep and ROLL each start a roll call at an idle head with a port in RUN: BUSY, a new number, one
more in ROLLS, and the sweep out of each port in RUN. Beside that the port enables, the rest of the ring state and of the unit stay. -/
def Obligations.RollCallStarts : Prop :=
  ∀ (s : State), s.rack → s.dev.isHead = true → ((s.dev.ring.port .up).st = 4 ∨ (s.dev.ring.port .dn).st = 4) →
    let begun := fun (s t : State) => t = ({ s with
      dev.ring.holdoff := false, dev.ring.again := false, dev.ring.busy := true, dev.ring.headNo := (s.dev.ring.headNo + 1) % 65536,
      dev.ring.rolls := satAdd 16 s.dev.ring.rolls 1, dev.ring.assignOut := 0, dev.ring.sweepDn := none, dev.ring.sweepUp := none,
      dev.freeCtr := s.dev.freeCtr + 2 }).raised t
    (s.dev.ring.holdoff = true → Does .rollCallHoldoffExpiry s (begun s)) ∧
    (s.dev.ring.busy = true → s.dev.ring.assignOut = 0 → Does .sweepLostTimeout s (begun s)) ∧
    (s.dev.ring.busy = false → s.dev.ring.holdoff = false →
      Does .rollCallStart s (begun { s with dev.ring.rollT0 := s.dev.tim.mono }) ∧
      (s.writer 4 → (load s).portsOn = true → s.dev.ring.rate < 3 →
        (∀ p, (s.dev.ring.port p).en = decide ((s.dev.ring.port p).st ≠ 0)) →
        Does (.roll 4) s (begun ({ s with dev.ring.rollT0 := s.dev.tim.mono }).okAcc)))

/-- PORT_ENABLE by TS: each port takes its enable; one that may run leaves OFF for SILENT when it is enabled, and one that is disabled goes
OFF (R125, R144). Ports in RUN, whose loss R125 describes, are not spoken of.
RING_NO_HEAD at a unit that is no head, without a wish: NOHEAD, split, an empty view, and the raise of RING_NO_HEAD (R141). -/
def Obligations.PortsAndNoHead : Prop :=
  (∀ (s : State) (up dn : Bool), s.rack → s.writer 4 → s.dev.ring.rate < 3 → s.dev.ring.up.st ≠ 4 → s.dev.ring.dn.st ≠ 4 →
     let set := fun (r : RingPort) (en : Bool) =>
       if (load s).portsOn && en then { r with en := en, st := if r.st = 0 then 1 else r.st, credit := if r.st = 0 then 0 else r.credit }
       else { r with en := en, st := 0, credit := if r.st = 0 then r.credit else 0 }
     exec (.portEnable 4 up dn) s =
       .next (({ s with dev.ring.up := set s.dev.ring.up up, dev.ring.dn := set s.dev.ring.dn dn }).okAcc)) ∧
  (∀ (s : State), s.rack → s.dev.isHead = false → s.dev.ring.noHead = false → ((s.dev.ring.port .up).st = 4 ∨ (s.dev.ring.port .dn).st = 4) →
     s.dev.wish = 0 → s.calm 0x14 dUnit →
     Does .ringNoHead s (fun t => t = ({ s with dev.ring.noHead := true, dev.ring.split := true, dev.ring.view := [] }).raised t))

/-! ## The arbiters and the packet lanes (chapters 10 and 11) -/

/-- FREEZE, TQA_PRIO_WRITE and PMODE_WRITE set their register when TS makes them, and nothing else; from T0 to T3 they are DENIED (R195, R197,
R210, R211). -/
def Obligations.ArbiterSettings : Prop :=
  ∀ (s : State) (t : Ten) (on second : Bool) (v : Word), s.rack →
    (s.writer 4 →
      exec (.freeze 4 on) s = .next (({ s with dev.arb.freeze := on }).okAcc) ∧
      exec (.pmodeWrite 4 on) s = .next (({ s with dev.arb.pmode := if on then 1 else 0 }).okAcc) ∧
      exec (.tqaPrioWrite 4 second v) s = .next (({ s with dev.arb.prio := upto 20 (fun i =>
        if decide (16 ≤ i) = second then fld v.toNat (2 * (i % 16)) 2 else s.dev.arb.level i) }).okAcc)) ∧
    (t ≠ 4 → exec (.freeze t on) s = .next s.denied ∧ exec (.pmodeWrite t on) s = .next s.denied ∧
      exec (.tqaPrioWrite t second v) s = .next s.denied)

/-- The pair that the TQA picks requests, and of every other requesting pair it has the higher level, or on equal level the higher credit, or on
equal credit the lower index, so that a pair of level 0 is picked only while no pair of level 1 to 3 requests; it picks none only when no
pair requests. Pair 4t + q requests while queue q of tenant t holds a ticket, and under FREEZE only TS's pairs do (R191, R197). -/
def Obligations.TqaPicksHighest : Prop :=
  ∀ (d : Dev),
    (∀ i, d.tqaPick = some i → i < 20 ∧ d.requests i = true ∧
      ∀ j < 20, j ≠ i → d.requests j = true →
        d.arb.level j < d.arb.level i ∨ (d.arb.level i = d.arb.level j ∧
          (nth d.arb.cred j < nth d.arb.cred i ∨ (nth d.arb.cred i = nth d.arb.cred j ∧ i < j)))) ∧
    (∀ i, d.tqaPick = some i → d.arb.level i = 0 → ∀ j < 20, d.requests j = true → d.arb.level j = 0) ∧
    (d.tqaPick = none → ∀ j < 20, d.requests j = false) ∧
    (∀ t < 5, ∀ q < 4, d.requests (4 * t + q) = true ↔ (d.ten t).queues.getD q [] ≠ [] ∧ (d.arb.freeze = true → t = 4))

/-- TQA_GRANT: the head ticket of the pair picked is ISSUED, its pair's credit is debited, and its packet goes to the tail of its tenant's FIFO.
Said of a board-bound operation of one word in Q1 to Q3 while the board die is alive (R191, R192, R199). -/
def Obligations.TqaGrantIssues : Prop :=
  ∀ (s : State) (i n : Nat) (rest : List Nat) (o : Op), s.rack → s.dev.log.lstate < 4 → s.dev.arb.sel = none → s.dev.tqaPick = some i →
    s.dev.pairQueue i = n :: rest → (s.dev.pool.tkt n).op = some o → (s.dev.pool.tkt n).board = true → (s.dev.pool.tkt n).queue ≠ 0 →
    o.kind ∈ [OpKind.rd, OpKind.wr, OpKind.rmw, OpKind.set, OpKind.clr] → o.engine = none → s.dev.flt.fatal = false → s.dev.bar.bAlive = true → s.dev.sup.mode = 0 →
    let k := s.dev.pool.tkt n
    Does .tqaGrant s (fun t => t = ({ s with
      dev.tens := lmod s.dev.tens (i / 4) (fun x => { x with queues := x.queues.set (i % 4) rest }),
      dev.pool := s.dev.pool.setTkt n { k with st := .issued },
      dev.arb := { s.dev.arb.debit s.dev.img.cfg i with
        sel := none,
        fifos := lmod s.dev.arb.fifos k.ten (fun l => l ++ [({ body := .op o, tkt := n, ic := k.icount, ten := k.ten, queue := k.queue } : Pkt)]) } }).logged t)

/-- BXA_GRANT: the waiting lamplighter packet takes the slot before every other packet; without one, a control packet; with nothing of a higher
class waiting, the packet at the head of the slot owner's FIFO, and the table advances (R198, R200). -/
def Obligations.BxaGrantStarts : Prop :=
  ∀ (s : State), s.rack → s.dev.log.lstate < 4 → s.dev.arb.flight = none → s.dev.bar.bAlive = true → s.dev.bar.parked = false →
    let a := s.dev.arb
    let fly := fun (p : Pkt) (c : BxaClass) => some ({ pkt := p, cls := c, pmode := a.pmode } : Flight)
    (∀ p, a.lamp = some p → Does .bxaGrant s (fun t => t = ({ s with
      dev.arb := { a with lamp := none, emLamp := satAdd 16 a.emLamp 1, flight := fly p .lamp, pend := none } }).logged t)) ∧
    (∀ p rest, a.lamp = none → a.ctl = p :: rest → Does .bxaGrant s (fun t => t = ({ s with
      dev.arb := { a with ctl := rest, emLamp := satAdd 16 a.emLamp 1, flight := fly p .control, pend := none } }).logged t)) ∧
    (∀ p rest, a.lamp = none → a.ctl = [] → a.dbg = none → a.resend = [] → a.pend = none → a.urgent = [] →
      let e := s.dev.img.cfg.slotOwner a.pos
      e < 5 → a.fifo e = p :: rest → s.dev.maySend p = true → a.pos < 63 →
      Does .bxaGrant s (fun t => t = ({ s with
        dev.arb := { a with fifos := a.fifos.set e rest, flight := fly p .owner, pend := none, pos := a.pos + 1 } }).logged t))

/-- SLOT_ACK: an accepted packet waits at the board die, an aborted slot that was discarded ends the run of rejects, an accepted backward packet ends
that of its direction; the slot's length joins the monitors (R44, R203, R215).
SILENT_SLOT_TIMEOUT: a packet that no acknowledgement came for counts as a REJECT, is raised and is sent again before new grants (R215, R217,
R415). -/
def Obligations.SlotsEnd : Prop :=
  (∀ (s : State) (ns16 : Nat), s.rack → s.dev.bar.bdown = false →
     let mon := s.dev.mon.slot ns16
     (∀ f b, s.dev.arb.flight = some f → f.aborted = false → f.pkt.body = b →
       ((∃ k l q tb z, b = .refresh k l q tb z) ∨ (∃ t, b = .tabort t) ∨ (∃ n, b = .timeChunk n) ∨ b = .breset) →
       exec (.slotAck .fwd .accept ns16) s = .next { s with
         dev.mon := mon, dev.arb.flight := none, dev.bar.runFwd := 0, dev.bd.inbox := s.dev.bd.inbox ++ [f.pkt] }) ∧
     (∀ f, s.dev.arb.flight = some f → f.aborted = true →
       exec (.slotAck .fwd .discard ns16) s = .next { s with dev.mon := mon, dev.arb.flight := none, dev.bar.runFwd := 0 }) ∧
     exec (.slotAck .bwd .accept ns16) s = .next { s with dev.mon := mon, dev.bar.runBwd := 0 }) ∧
  (∀ (s : State) (p : Pkt), s.rack → s.dev.arb.silent = some p → (∀ k l q tb z, p.body ≠ .refresh k l q tb z) → s.dev.bar.runFwd < 7 → s.calm 0x33 dUnit →
     Does .silentSlotTimeout s (fun t => t = ({ s with
       dev.arb.silent := none, dev.arb.resend := s.dev.arb.resend ++ [p],
       dev.bar.fwdRej := satAdd 16 s.dev.bar.fwdRej 1, dev.bar.runFwd := s.dev.bar.runFwd + 1 }).raised t))

/-- BARRIER_PARK and BARRIER_WAKE: in STANDBY with nothing to send the packet lanes park, and traffic wakes them (R45, R83).
LAMPLIGHTER_TREF in ACTIVE and KEEPALIVE_TIMER in STANDBY make one REFRESH, or one KEEPALIVE, ready: the mirror's level of each lane, LSEQ, the
time of the board timer's bits 25:10, and the quality (R83, R222). -/
def Obligations.ParkingAndLamp : Prop :=
  (∀ (s : State), s.rack →
     (s.dev.sup.mode = 1 → s.dev.traffic = false → exec .barrierPark s = .next { s with dev.bar.parked := true }) ∧
     (s.dev.bar.parked = true → s.dev.traffic = true → exec .barrierWake s = .next { s with dev.bar.parked := false })) ∧
  (∀ (s : State), s.rack → s.dev.bar.lamp = true → s.dev.bar.bAlive = true → s.dev.img.woven = true →
     let body := fun (keep : Bool) => Payload.refresh keep (upto 32 s.dev.mirrorCode) s.dev.bar.lseq (fld s.dev.tim.now 10 16) s.dev.tim.qual
     let lit := fun (keep : Bool) => ({ s with dev.arb.lamp := some { body := body keep } } : State)
     (s.dev.sup.mode = 0 → Does .lamplighterTref s (fun t => t = (lit false).logged t)) ∧
     (s.dev.sup.mode = 1 → Does .keepaliveTimer s (fun t => t = (lit true).logged t)))

/-! ## Packets at the rack die (chapters 8, 11, 12, 17, 18 and 20) -/

/-- RESULT: a result whose ticket is ISSUED with the same issue count completes and retires the ticket. Said of a one-word write that asks for no
reply, with no other ticket issued: its ticket reads FREE and goes to the tail of the free list, the lane's news is folded into the
mirror, and its tenant's use is one less (R90, R162, R223).
ABORT_ACK: a quarantined ticket that is acknowledged with its issue count is retired: it reads FREE, keeps its issue count and goes to the
tail of the free list (R91). -/
def Obligations.TicketsRetire : Prop :=
  (∀ (s : State) (p : Pkt) (o : Op) (news : Option (Nat × Nat × Nat)), s.rack → s.dev.bar.parked = false → s.dev.bd.nextOut = some p →
     let k := s.dev.pool.tkt p.tkt
     let pool := s.dev.pool.setTkt p.tkt { icount := k.icount }
     p.body = .result stOK 0 0 news none → k.st = .issued → k.board = true → k.icount = p.ic → (s.dev.ten k.ten).rst = none →
     k.op = some o → o.kind ∈ [OpKind.wr, OpKind.rmw] → o.msg = none → o.req.gen = 2 → o.req.quiet = true →
     k.bind = none → k.rx = [] → k.pins = [] → s.dev.arb.heldE = [] → (∀ e ∈ pool.tkts, e.2.st ≠ .issued) →
     Does .result s (fun t => t = ({ s with
       dev.bd := s.dev.bd.popOut,
       dev.bar := match news with
         | some (n, code, seq) => s.dev.bar.fold n code seq
         | none => s.dev.bar,
       dev.pool := { pool with tktFree := s.dev.pool.tktFree ++ [p.tkt] },
       dev.tens := lmod s.dev.tens k.ten (fun y => { y with
         tktUse := y.tktUse - 1,
         tdebt := y.tdebt && !debtOver (y.tktUse - 1) (s.dev.img.cfg.tktMin k.ten),
         bdebt := y.bdebt && !debtOver y.bufUse (s.dev.img.cfg.bufMin k.ten) }) }).logged t)) ∧
  (∀ (s : State) (p : Pkt) (n : Nat), s.rack → s.dev.bar.parked = false → s.dev.bd.nextOut = some p →
     let k := s.dev.pool.tkt n
     p.body = .abortAck [(n, k.icount)] → k.st = .quarantined → k.pins = [] → (∀ t < 5, (s.dev.ten t).rst = none) →
     exec .abortAck s = .next { s with
       dev.bd := s.dev.bd.popOut,
       dev.pool := { s.dev.pool.setTkt n { icount := k.icount } with tktFree := s.dev.pool.tktFree ++ [n] } })

/-- STATUS_PAGE0, 1, 2 and 4, HOLDUP and EEPROM_DATA_PAGE: the rack die takes what the packet carries. Page 0: fail-safe map, banks, holdup, PACE_B and
lane states; page 1: levels up to WSEQ; page 2: presence; page 4: what the identity read has found; a data page: its bytes; the
holdup report waits for the loss it explains (R43, R76, R223, R253, R334).
STATUS_PAGE3 brings a board-side raise to the collector, STATUS_PAGE5 brings entries to the order log, and the swap report ends the gap of a hot
weave with the result WOVEN (R292, R347, R395). -/
def Obligations.StatusPackets : Prop :=
  (∀ (s : State) (rest : List Pkt),
     let q := s.heard rest
     (∀ (fsmap : BitVec 32) (up low : BitVec 4) (ready : Bool) (holdV paceB : Nat) (views : Tbl LaneView) (misses : Nat),
       s.hears (.page0 fsmap up low ready holdV false paceB views misses) rest → (s.dev.sup.up.getLsbD 3 = false ∨ up.getLsbD 3 = true) →
       exec .statusPage0 s = .next { q with
         dev.bar.fsmap := fsmap, dev.bar.views := views, dev.bar.misses := satAdd 16 s.dev.bar.misses misses,
         dev.sup.up := up, dev.sup.low := low, dev.sup.ready := ready, dev.sup.holdV := holdV,
         dev.mon.paceB := paceB, dev.mon.bSlow := s.dev.mon.bSlow && decide (2432 < paceB) }) ∧
     (∀ (lvl : List Nat) (wseq n : Nat), s.hears (.page1 lvl wseq n) rest →
       exec .statusPage1 s = .next { q with
         dev.bar := { s.dev.bar.foldAll lvl wseq with corrected := satAdd 16 s.dev.bar.corrected n } }) ∧
     (∀ (st : Nat) (prsn : Bool), s.hears (.page2 st prsn) rest →
       exec .statusPage2 s = .next { q with dev.bar.pstate := st, dev.bar.prsn := prsn }) ∧
     (∀ (x : IdSummary), s.hears (.page4 x) rest → s.dev.idn.astate ≠ 1 → x.ids ≠ 17 →
       exec .statusPage4 s = .next { q with
         dev.idn.ids := x.ids, dev.idn.strapH := x.strapH, dev.idn.strapZ := x.strapZ, dev.idn.eestat := x.eestat }) ∧
     (∀ (k : Nat) (bs : List Byte), s.hears (.eeprom k bs) rest → s.dev.idn.astate = 1 → k ≠ 37 →
       exec .eepromDataPage s = .next { q with dev.idn.rbuf := s.dev.idn.rbuf ++ bs, dev.idn.pages := s.dev.idn.pages + 1 }) ∧
     (∀ (r : HoldRep), s.hears (.holdup r) rest → exec .holdup s = .next { q with dev.bar.holdSeen := some r })) ∧
  (∀ (s : State) (rest : List Pkt),
     let q := s.heard rest
     (∀ (e : BEvent), s.hears (.page3 [e]) rest → e.wire = false → e.source ∉ [0x0D, 0x43, 0x44] → s.calm e.source e.dom →
       Does .statusPage3 s (fun t => t = q.raised t)) ∧
     (∀ (es : List (List Nat)), s.hears (.page5 es) rest → Does .statusPage5 s (fun t => t = q.logged t)) ∧
     (s.hears (.page6 s.dev.img.cfg.imgcrc) rest → s.dev.img.phase = 2 → s.dev.isHead = true → (∀ t < 5, (s.dev.ten t).rst = none) →
       let gap := s.dev.tim.mono - s.dev.img.gapT0
       exec .swapReport s = .next { q with
         dev.img.phase := 0, dev.img.gapLast := gap, dev.img.gapPeak := max s.dev.img.gapPeak gap, dev.img.code := 0x01,
         dev.img.weaves := satAdd 16 s.dev.img.weaves 1 }))

/-! ## Packets at the board die (chapters 11, 12, 18, 20) -/

/-- TIME_CHUNK, TABLE (the shadow tables of a hot weave), PAIR_CHUNK (parking), SWAP and TABORT each have their effect on the board die and
nothing else. The swap closes every window, keeps the old settings of a lane in fail-safe and of an operation in progress, and reports; the abort drops
what the tenant has waiting and acknowledges it. Said of TABORT where no engine holds an operation of the tenant (R88, R220, R235, R323, R366, R394). -/
def Obligations.BoardPacketsTaken : Prop :=
  ∀ (s : State) (p : Pkt) (rest : List Pkt), s.boardHas p rest →
    let b : Board := { s.dev.bd with inbox := rest }
    (∀ now, p.body = .timeChunk now →
      exec .timeChunk s = .next (s.withBoard { b with timer := fld now 0 56, chunkQ := fld now 56 2, stepno := fld now 58 6 })) ∧
    (∀ x, p.body = .table x → x.shadow = true → exec .table s = .next (s.withBoard { b with shadow := some x })) ∧
    (∀ lvl, p.body = .pairChunk true lvl → exec .pairChunk s = .next (s.withBoard { b with parked := true })) ∧
    (∀ crc x, p.body = .swap crc → b.shadow = some x →
      let b' : Board := { b with
        cfg := x.cfg, shadow := none, miss := 0,
        lanes := b.lanes.map (fun (e : Nat × Lane) => (e.1, ({ e.2 with
          wOpen := false, kept := if e.2.stage = 0 then none else some (e.2.kept.getD (b.cfg.fsOf e.1)) } : Lane))),
        engs := b.engs.map (fun (e : Nat × Eng) => if e.2.st = 1 then (e.1, { e.2 with kept := some (e.2.kept.getD (b.cfg.eng e.1)) }) else e) }
      exec .swap s = .next (s.withBoard ((b'.tells [.page6 crc]).page0.page1))) ∧
    (∀ t, p.body = .tabort t → (∀ e < 8, ∀ o ∈ (b.eng e).ops ++ (b.eng e).opsRx, o.op.req.ten.val ≠ t) →
      let mine := fun (q : Pkt) => match q.body with
        | .op o => o.req.ten.val == t
        | .data _ => q.ten == t
        | _ => false
      let acks := (((b.out0 ++ b.outR).filter (fun q => q.ten == t)).map (fun q => (q.tkt, q.ic)) ++ (rest.filter mine).map (fun q => (q.tkt, q.ic))).eraseDups
      exec .tabort s = .next (s.withBoard ({ b with
        inbox := rest.filter (fun q => !mine q),
        out0 := b.out0.filter (fun q => q.ten != t), outR := b.outR.filter (fun q => q.ten != t),
        lanes := b.lanes.map (fun (e : Nat × Lane) => if e.2.wOpen && e.2.wHolder == t then (e.1, { e.2 with wOpen := false }) else e),
        outA := b.outA ++ (pieces 8 acks.length acks).map (fun l => ({ body := .abortAck l, ten := t } : Pkt)) }.tells [boardEntry 5 t 0])))

/-- TABLE of a restarted board die or a cold weave, BRESET and BOARD_DIE_RESTART: the tables come into force with the miss count at 0; the reset packet stops the
board die with every output lane out of LIVE; a board die whose core was off runs again without tables, with nothing held, its presence following PRSn. Only the
board die changes; of the restart that is said where no ticket is quarantined (R91, R93, R220, R256; Table 5.5). -/
def Obligations.BoardTablesAndReset : Prop :=
  ∀ (s : State),
    (∀ (p : Pkt) (rest : List Pkt), s.boardHas p rest →
      (∀ x, p.body = .table x → x.shadow = false → Does .table s (fun t => t = s.withBoard t.dev.bd ∧
        t.dev.bd.inbox = rest ∧ t.dev.bd.cfg = x.cfg ∧ t.dev.bd.tabs = true ∧ t.dev.bd.stuck = x.stuck ∧ t.dev.bd.shadow = none ∧ t.dev.bd.miss = 0)) ∧
      (p.body = .breset → Does .breset s (fun t => t = s.withBoard t.dev.bd ∧
        t.dev.bd.core = false ∧ t.dev.bd.tabs = false ∧ t.dev.bd.inbox = [] ∧ t.dev.bd.outS = [] ∧ t.dev.bd.outA = [] ∧ t.dev.bd.out0 = [] ∧ t.dev.bd.outR = [] ∧
        ∀ n < 32, s.dev.bd.tabs = true → s.dev.bd.cfg.outLane n = true → (t.dev.bd.lane n).stage ≠ 0))) ∧
    (s.dev.log.lstate ≠ 4 → s.dev.bd.core = false → s.dev.bd.vddb = true → s.dev.sup.mode ≠ 2 → (∀ e ∈ s.dev.pool.tkts, e.2.st ≠ .quarantined) →
      Does .boardDieRestart s (fun t => t = s.withBoard t.dev.bd ∧
        t.dev.bd.core = true ∧ t.dev.bd.holdup = false ∧ t.dev.bd.tabs = false ∧ t.dev.bd.stuck = false ∧ t.dev.bd.shadow = none ∧ t.dev.bd.rackAlive = true ∧
        t.dev.bd.inbox = [] ∧ t.dev.bd.outA = [] ∧ t.dev.bd.out0 = [] ∧ t.dev.bd.outR = [] ∧ t.dev.bd.pstate = (if s.dev.bd.prsn then 0 else 2) ∧
        t.dev.bd.outS = [{ body := .page2 t.dev.bd.pstate t.dev.bd.prsn }] ∧
        ∀ n < 32, s.dev.bd.cfg.outLane n = true → (t.dev.bd.lane n).stage = (if s.dev.bd.bankUp n then 1 else 3) ∧ (t.dev.bd.lane n).refr = 0))

/-- REFRESH: a valid refresh restarts the miss count and steers the board timer; with no lane under MISS and another LSEQ than WSEQ nothing else
of the lanes changes. With LSEQ = WSEQ, a lane in fail-safe that is armed, has no cause and has had one such refresh since is LIVE; one that has had
none counts it; a lane under MISS loses that cause (R222, R223, R225, R228, R323). -/
def Obligations.RefreshTaken : Prop :=
  ∀ (s : State) (p : Pkt) (rest : List Pkt) (keep : Bool) (lvl : List Nat) (lseq tb q : Nat),
    s.boardHas p rest → s.dev.bd.tabs = true → p.body = .refresh keep lvl lseq tb q →
    let b := s.dev.bd
    let clear := ∀ n < 32, (b.lane n).cause.getLsbD 0 = false
    (clear → lseq ≠ b.wseq →
      exec .refresh s = .next (s.withBoard (({ b with
        inbox := rest, miss := 0, keepP := keep, timer := (b.timer / 2 ^ 26) * 2 ^ 26 + (tb % 2 ^ 16) * 2 ^ 10 + b.timer % 2 ^ 10, timerQ := b.chunkQ } : Board).tells
          [boardEntry 1 0 0]).page0)) ∧
    (Does .refresh s (fun t => t = s.withBoard t.dev.bd ∧ t.dev.bd.miss = 0 ∧
      ∀ n < 32, b.cfg.outLane n = true →
        (t.dev.bd.lane n).cause = (b.lane n).cause &&& 0x7E ∧
        (lseq = b.wseq → (b.lane n).stage ≠ 0 → (b.lane n).armed = true → (b.lane n).cause = 0 →
          (1 ≤ (b.lane n).refr → (t.dev.bd.lane n).stage = 0 ∧ (t.dev.bd.lane n).armed = false) ∧
          ((b.lane n).refr = 0 → (t.dev.bd.lane n).stage = (b.lane n).stage ∧ (t.dev.bd.lane n).refr = 1))))

/-- MISS_WINDOW_EXPIRY counts and records a miss; at NMISS every output lane has the cause MISS and is out of LIVE. HOLD_T_EXPIRY: an output lane that holds its level
in FS1 takes its second-stage value and is in FS2, and so does an A→B channel's output in fail-safe. CONFLICT_WINDOW_END closes the lane's window. Each leaves a TIMER entry
(R224, R225, R227, R248). -/
def Obligations.BoardTimers : Prop :=
  ∀ (s : State) (n : Fin 32), s.board →
    let b := s.dev.bd
    let f := (load s).lfs n
    (b.tabs = true → b.pstate ≠ 0 →
      (b.miss + 1 ≠ b.cfg.nmiss → exec .missWindowExpiry s =
        .next (s.withBoard (({ b with miss := b.miss + 1, missed := satAdd 16 b.missed 1 } : Board).tells [timerEntry 2 0, boardEntry 2 0 0]))) ∧
      (b.miss + 1 = b.cfg.nmiss → Does .missWindowExpiry s (fun t => t = s.withBoard t.dev.bd ∧ t.dev.bd.miss = b.cfg.nmiss ∧
        ∀ n < 32, b.cfg.outLane n = true → (t.dev.bd.lane n).cause = (b.lane n).cause ||| 1 ∧ (t.dev.bd.lane n).stage ≠ 0))) ∧
    (s.dev.img.cfg.baChan n = false → b.cfg.outLane n = true → (b.lane n).stage = 1 → f.fsv = 3 → f.second ≠ 3 → f.holdT ≠ 0 →
      let b' := (b.tells [timerEntry 7 n]).drive n (if f.second = 0 then 0 else if f.second = 1 && !(b.cfg.lane n).od then 1 else 2)
      exec (.holdTExpiry n) s = .next (s.withBoard (b'.setLane n { b'.lane n with hiz := f.second == 2, stage := 2 }).page1.page0)) ∧
    (s.dev.img.cfg.baChan n = false → b.cfg.outLane n = false → b.cfg.abLane n = true → (tget {} b.direct n).fs = true → f.fsv = 3 → f.holdT ≠ 0 →
      let high := f.second != 0
      let l := b.lane n
      exec (.holdTExpiry n) s = .next (s.withBoard (({ b.tells [timerEntry 7 n] with
        direct := tput b.direct n { (tget {} b.direct n) with stage2 := true, level := if f.second = 3 then (tget {} b.direct n).level else high } } : Board).setLane n { l with
          stage := 2, hiz := f.second == 2,
          pin := if b.bankUp n && !b.parked && f.second != 2 then (if f.second = 3 then (tget {} b.direct n).level else high) else l.pin }).page0)) ∧
    ((b.lane n).wOpen = true → exec (.conflictWindowEnd n) s = .next (s.withBoard ((b.tells [timerEntry 5 n]).setLane n { b.lane n with wOpen := false })))

/-- LANECMD_RETURN, LANECMD_FORCE, LANECMD_REACTION and LANECMD_RELEASE, lane by lane. RETURN arms each named lane in fail-safe that has no cause but FORCE and ends its
FORCE; FORCE and a set REACTION give their cause to each named output lane; a cleared REACTION takes it away; RELEASE ends the stuck hold, and a lane without another
cause is LIVE with no edge (R103, R229, R230, R231). -/
def Obligations.LaneCommands : Prop :=
  ∀ (s : State) (p : Pkt) (rest : List Pkt) (mask : BitVec 32), s.boardHas p rest → s.dev.bd.tabs = true →
    let b := s.dev.bd
    let did := fun (t : State) => t = s.withBoard t.dev.bd ∧ t.dev.bd.inbox = rest ∧ t.dev.bd.cfg = b.cfg ∧ t.dev.bd.tabs = true
    let named := fun (n : Nat) => n < 32 ∧ b.cfg.outLane n = true ∧ mask.getLsbD n = true
    (∀ r, p.body = .lanecmd mask 0 r → Does .lanecmdReturn s (fun t => did t ∧ t.dev.bd.wseq = b.wseq ∧ ∀ n,
      let l := b.lane n
      let c := l.cause &&& 0x5F
      (named n → l.stage ≠ 0 → c = 0 → t.dev.bd.lane n = { l with cause := 0, armed := true, refr := 0 }) ∧
      (named n → l.stage ≠ 0 → c ≠ 0 → (t.dev.bd.lane n).cause = c ∧ (t.dev.bd.lane n).armed = l.armed) ∧
      ((mask.getLsbD n = false ∨ l.stage = 0) → t.dev.bd.lane n = l))) ∧
    (∀ r, p.body = .lanecmd mask 1 r → Does .lanecmdForce s (fun t => did t ∧ ∀ n,
      (named n → (t.dev.bd.lane n).cause = (b.lane n).cause ||| 0x20 ∧ (t.dev.bd.lane n).stage ≠ 0) ∧
      (¬ named n → t.dev.bd.lane n = b.lane n))) ∧
    (p.body = .lanecmd mask 3 true → Does .lanecmdReaction s (fun t => did t ∧ ∀ n,
      (named n → (t.dev.bd.lane n).cause = (b.lane n).cause ||| 0x10 ∧ (t.dev.bd.lane n).stage ≠ 0) ∧
      (¬ named n → t.dev.bd.lane n = b.lane n))) ∧
    (p.body = .lanecmd mask 3 false → Does .lanecmdReaction s (fun t => did t ∧ ∀ n,
      (named n → t.dev.bd.lane n = { b.lane n with cause := (b.lane n).cause &&& 0x6F, refr := 0 }) ∧
      (¬ named n → t.dev.bd.lane n = b.lane n))) ∧
    (∀ r, p.body = .lanecmd mask 2 r → (∀ n < 8, b.cfg.abLane n = false) → Does .lanecmdRelease s (fun t => did t ∧ t.dev.bd.stuck = false ∧ ∀ n,
      let l := b.lane n
      (n < 32 → b.cfg.outLane n = true →
        (l.cause = 8 → l.stage ≠ 3 → t.dev.bd.lane n = { l with cause := 0, refr := 0, stage := 0, armed := false, hiz := false, kept := none }) ∧
        (l.cause &&& 0x77 ≠ 0 → (t.dev.bd.lane n).cause = l.cause &&& 0x77 ∧ (t.dev.bd.lane n).stage = l.stage)) ∧
      (¬ (n < 32 ∧ b.cfg.outLane n = true) → t.dev.bd.lane n = l)))

/-- OP_PACKET of a lane write: in an unparked unit with tables in force, the owner's write to a LIVE LEVEL_OUT lane without a window drives the lane, counts WSEQ, opens the window
and answers OK with the level and WSEQ; a write that conflicts with another tenant's window under the policy FIRST changes no level, counts, raises LANE_CONFLICT and answers CONFLICT; another
tenant's write is DENIED; a write to a lane in fail-safe or during the stuck hold answers FAILSAFE (R226, R243, R244, R245, R249). -/
def Obligations.LaneWriteApplies : Prop :=
  ∀ (s : State) (p : Pkt) (rest : List Pkt) (o : Op) (n : Nat), s.boardHas p rest → p.body = .op o → o.kind = .wr → n < 32 → o.addr.toNat = 0x50000 + 0x40 * n →
    s.dev.bd.refuses = false → s.dev.bd.parked = false → (s.dev.bd.cfg.lane n).mode = 2 → o.value.toNat % 4 ≠ 3 →
    let b := ({ s.dev.bd with inbox := rest } : Board).tells [boardEntry 0 p.tkt 0]
    let t := o.req.ten.val
    let c := b.cfg.lane n
    let v := if c.od && o.value.toNat % 4 == 1 then 2 else o.value.toNat % 4
    let l := b.lane n
    (c.owners.getLsbD t = true → s.dev.bd.safe n = false → b.stuck = false → (l.wOpen = false ∨ l.wHolder = t) →
      let b' := b.drive n v
      let b' := if c.cwin = 0 then b' else b'.setLane n { b'.lane n with wOpen := true, wHolder := t, wCode := v, wStart := b.timer, wRaised := false }
      exec .opPacket s = .next (s.withBoard (b'.replies p stOK 0 (some (n, v, b'.wseq)) (some (n, b'.view n))))) ∧
    (c.owners.getLsbD t = true → s.dev.bd.safe n = false → b.stuck = false → l.wOpen = true → l.wHolder ≠ t → l.wCode ≠ v → c.policy = 0 → l.wRaised = false →
      let b' := b.raises 0x41 t n
      exec .opPacket s = .next (s.withBoard ((b'.setLane n { l with
        wRaised := true, lastLoser := t, conflicts := satAdd 8 l.conflicts 1 }).replies p stCONFLICT 0 none none))) ∧
    (c.owners.getLsbD t = false → exec .opPacket s = .next (s.withBoard ((b.raises 0x40 t n).replies p stDENIED 0 none none))) ∧
    (c.owners.getLsbD t = true → s.dev.bd.safe n = true ∨ b.stuck = true → exec .opPacket s = .next (s.withBoard (b.replies p stFAILSAFE 0 none none)))

/-- LEVEL_IN_CHANGE, LANE_MISMATCH, BOARD_ATTACH, BOARD_DETACH and REPLAY of a lane level: a filtered change of a LEVEL_IN lane latches CHANGED and its direction and is recorded, from the pin and,
in REPLAY, from the log; a mismatch is raised once; an attach leads from ABSENT to ATTACHING and a detach is raised, each reported at once (R242, R252, R254, R255, R358). -/
def Obligations.BoardInputs : Prop :=
  ∀ (s : State) (n : Fin 32),
    let b := s.dev.bd
    let l := b.lane n
    let changed := fun (b : Board) (n : Nat) (level : Bool) =>
      (b.setLane n { b.lane n with pin := level, flt := level, evt := (b.lane n).evt ||| (if level then 3 else 5) }).tells
        [.page5 [[packN [(0, 6, 0x11), (6, 5, n), (12, 8, if level then 1 else 0)], 0x3F]]]
    (∀ level, s.board → (b.cfg.lane n).mode = 1 → l.pin ≠ level → exec (.levelInChange n level) s = .next (s.withBoard (changed b n level))) ∧
    (∀ level, s.board → (b.cfg.lane n).mode = 1 → l.pin = level → exec (.levelInChange n level) s = .next s) ∧
    (s.board → (b.cfg.lane n).mode = 2 → b.tabs = true → l.stage = 0 → (l.code = 0 ∨ (l.code = 1 ∧ (b.cfg.lane n).od = false)) → l.mism = false →
      exec (.laneMismatch n) s = .next (s.withBoard ((b.setLane n { l with mism := true, pin := l.code == 0 }).raises 0x42 dUnit n))) ∧
    (s.board → b.pstate = 0 → exec .boardAttach s = .next (s.withBoard
      ({ ({ b with attaches := satAdd 8 b.attaches 1 } : Board).tells [boardEntry 6 0 1] |>.raises 0x43 dUnit 0 with pstate := 1, prsn := false } : Board).page2)) ∧
    (s.board → b.pstate ≠ 0 → exec .boardDetach s = .next (s.withBoard
      ((({ b with detaches := satAdd 8 b.detaches 1, prsn := true } : Board).tells [boardEntry 6 0 0]).raises 0x44 dUnit 0).page2)) ∧
    (∀ p rest e, s.dev.bd.runs = true → s.dev.log.lstate = 4 → s.dev.hpt.rx = [] → b.inbox = p :: rest → p.body = .replay e →
      let x := nth e 0
      let m := fld x 6 5
      let level := tbit x 12
      fld x 0 6 = 0x11 → tbit x 11 = false → (b.cfg.lane m).mode = 1 → (b.lane m).pin ≠ level →
      exec .replay s = .next (s.withBoard (changed { b with inbox := rest } m level)))

/-- STATUS_PERIOD and PACE_MEASUREMENT: in ACTIVE the board die reports pages 0, 1, 2 and 4 with the holdup state it measures (which the spec leaves open), in STANDBY none; a pace joins
the monitors, and above 2560 it is raised once (R43, R83; Table 11.5). -/
def Obligations.PeriodicReports : Prop :=
  ∀ (s : State) (pace : BitVec 16),
    let p := pace.toNat
    (s.board → Does .statusPeriod s (fun t =>
      let b : Board := { s.dev.bd with ready := t.dev.bd.ready, holdV := t.dev.bd.holdV, low := t.dev.bd.low }
      t = { s with dev.freeCtr := s.dev.freeCtr + 1, dev.bd :=
        if s.dev.sup.mode = 0 then b.reports else b })) ∧
    (s.rack → (p ≤ 2432 ∨ (p ≤ 2560 ∧ s.dev.mon.aSlow = false)) →
      exec (.paceMeasurement .rack pace) s = .next { s with dev.mon.pace := p, dev.mon.pacePeak := max s.dev.mon.pacePeak p, dev.mon.aSlow := false }) ∧
    (s.rack → 2560 < p → s.dev.mon.aSlow = false → s.calm 0x0C dUnit →
      Does (.paceMeasurement .rack pace) s (fun t =>
        t = ({ s with dev.mon.pace := p, dev.mon.pacePeak := max s.dev.mon.pacePeak p, dev.mon.aSlow := true }).raised t)) ∧
    (s.board → (p ≤ 2432 ∨ (p ≤ 2560 ∧ s.dev.bd.paceSlow = false)) →
      exec (.paceMeasurement .board pace) s = .next (s.withBoard ({ s.dev.bd with pace := p, paceSlow := false } : Board).page0)) ∧
    (s.board → 2560 < p → s.dev.bd.paceSlow = false →
      exec (.paceMeasurement .board pace) s = .next (s.withBoard (({ s.dev.bd with pace := p, paceSlow := true } : Board).raises 0x0D dUnit p).page0))

/-- DIRECT_INPUT_EDGE, DIRECT_REFRESH_TIMER, DIRECT_PULSE and DIRECT_FS: an edge or a refresh sends the input's level; a receiver follows each pulse, in fail-safe from the second one on
unless the stuck hold lasts; without pulses it drives the channel's fail-safe value and raises DIRECT_FS once (R213, R214). -/
def Obligations.DirectChannels : Prop :=
  ∀ (s : State) (ch : Fin 8) (level : Bool),
    let c := s.dev.img.cfg
    let da := tget ({} : Direct) s.dev.bar.direct ch
    let db := tget ({} : Direct) s.dev.bd.direct ch
    let atRack := fun (d : Direct) => ({ s with dev.bar.direct := tput s.dev.bar.direct ch d } : State)
    let atBoard := fun (d : Direct) => ({ s.dev.bd with direct := tput s.dev.bd.direct ch d } : Board)
    let l := s.dev.bd.lane ch
    let up := s.dev.bd.bankUp ch
    (s.rack → c.abChan ch = true →
      exec (.directInputEdge ch level) s = .next (atRack { da with inLevel := level, sent := some level }) ∧
      exec (.directRefreshTimer ch) s = .next (atRack { da with sent := some da.inLevel })) ∧
    (s.board → c.abChan ch = false → s.dev.bd.cfg.baChan ch = true →
      exec (.directInputEdge ch level) s =
        .next (s.withBoard ((atBoard { db with inLevel := level, sent := some level }).setLane ch { l with pin := level })) ∧
      exec (.directRefreshTimer ch) s = .next (s.withBoard (atBoard { db with sent := some db.inLevel }))) ∧
    (s.board → c.baChan ch = false → s.dev.bd.cfg.abLane ch = true → s.dev.bd.tabs = true → s.dev.flt.fatal = false →
      (db.fs = true → db.valid = 0 →
        exec (.directPulse ch level) s = .next (s.withBoard (atBoard { db with valid := 1, inLevel := level }))) ∧
      (db.fs = true → db.valid = 1 → s.dev.bd.stuck = true →
        exec (.directPulse ch level) s = .next (s.withBoard (atBoard { db with valid := 2, inLevel := level }))) ∧
      (db.fs = true → db.valid = 1 → s.dev.bd.stuck = false →
        exec (.directPulse ch level) s = .next (s.withBoard ((atBoard { db with fs := false, stage2 := false, valid := 2, inLevel := level, level := level }).setLane ch { l with
          cause := l.cause &&& 0x3F, stage := 0, armed := false, code := if level then 1 else 0, hiz := false, kept := none,
          pin := if up && !s.dev.bd.parked then level else l.pin }))) ∧
      (db.fs = false →
        let f := s.dev.bd.cfg.dirFs ch
        let v := if f.fsv = 0 then false else if f.fsv = 3 then db.level else true
        exec (.directFs ch) s = .next (s.withBoard ((((atBoard { db with fs := true, valid := 0, stage2 := false, level := v }).setLane ch { l with
          cause := l.cause ||| 0x40, stage := 1, hiz := f.fsv == 2,
          pin := if up && !s.dev.bd.parked && f.fsv != 2 then v else l.pin }).raises 0x36 dUnit ch).page0)))) ∧
    (s.rack → c.baChan ch = true → s.dev.bd.cfg.abLane ch = false →
      (da.fs = true → da.valid = 1 → s.dev.rst.stuckHold = false →
        exec (.directPulse ch level) s = .next (atRack { da with fs := false, stage2 := false, valid := 2, inLevel := level, level := level })) ∧
      (da.fs = false → s.calm 0x36 dUnit →
        let f := c.dirFs ch
        let v := if f.fsv = 0 then false else if f.fsv = 3 then da.level else true
        Does (.directFs ch) s (fun t => t = (atRack { da with fs := true, valid := 0, stage2 := false, level := v }).raised t)))

/-- BEACON_SYMBOL, BEACON_LOST_B, BEACON_ALIVE_RETURN, RACK_LOST and RACK_BEACON_RETURN. A symbol whose complement fails does nothing, and a valid one of a board die that is known alive shows
VDDB. A lost board die is counted, raised unless the rack die ordered it, and its queue is emptied, here where no board-bound ticket is in flight. ALIVE again sends the tables, the time chunk, the
parking and the reaction union. A board die without the rack beacon latches RACK_LOST and parks the lanes of a paired unit; with it again it restarts (R219, R220, R221, R370). -/
def Obligations.BeaconsSeen : Prop :=
  ∀ (s : State) (die : Die) (sym : Byte),
    let b := s.dev.bar
    (s.rack → sym.toNat % 16 + sym.toNat / 16 ≠ 15 → exec (.beaconSymbol die sym) s = .next s) ∧
    (s.rack → (sym = 0xE1 ∨ sym = 0xC3) → b.beaconIn = true →
      exec (.beaconSymbol .rack sym) s = .next { s with dev.bar.bSupply := sym == 0xC3, dev.sup.bBrown := sym != 0xC3 }) ∧
    (s.rack → b.beaconIn = true → b.holdSeen = none → s.dev.boardTkts = [] → s.dev.tens.any (fun t => t.rst.isSome) = false → s.dev.img.phase ≠ 2 →
      s.dev.idn.astate ≠ 1 → s.dev.idn.wbState ≠ 2 →
      let gone : State := { s with
        dev.bar := { b with beaconIn := false, bSupply := false, bLoss := satAdd 8 b.bLoss 1, bAlive := false, lamp := false },
        dev.arb := { s.dev.arb with ctl := [], lamp := none, dbg := none, resend := [], silent := none, flight := none,
                                    urgent := [], fifos := [[], [], [], [], []], heldE := [], pend := none } }
      (b.ordered = true → exec .beaconLostB s = .next gone) ∧
      (b.ordered = false → s.calm 0x32 dUnit → Does .beaconLostB s (fun t => t = gone.raised t ∧ t.dev.arb.ctl = []))) ∧
    (s.rack → b.beaconIn = false →
      let back : State := { s with
        dev.bar := { b with beaconIn := true, bAlive := true, bdown := false, ordered := false, holdSeen := none, bstepSeen := true }, dev.rst.bnr := true }
      (s.dev.img.woven = false → exec .beaconAliveReturn s = .next back) ∧
      (s.dev.img.woven = true → s.dev.bd.pstate = 0 → exec .beaconAliveReturn s = .next { back with dev.rst.boardBusy := false }) ∧
      (s.dev.img.woven = true → s.dev.bd.pstate ≠ 0 → exec .beaconAliveReturn s = .next { back with
        dev.tim.chunkQ := s.dev.tim.qual,
        dev.arb.ctl := s.dev.arb.ctl ++
          ([Payload.table { cfg := s.dev.img.cfg, shadow := false, lseq := b.lseq, lvl := s.dev.mirrorTbl, stuck := s.dev.rst.stuckHold },
            Payload.timeChunk s.dev.tim.chunk] ++ (if s.dev.pai.parked then [Payload.pairChunk true []] else []) ++
            (if s.dev.flt.union = 0 then [] else [Payload.lanecmd s.dev.flt.union 3 true])).map (fun x => ({ body := x } : Pkt)) })) ∧
    (s.dev.log.lstate ≠ 4 → s.dev.bd.rackAlive = true → exec .rackLost s = .next (s.withBoard { s.dev.bd with
      rackAlive := false, rackLost := true, parked := s.dev.bd.parked || (s.dev.bd.tabs && s.dev.bd.cfg.pair.en) })) ∧
    (s.dev.log.lstate ≠ 4 → s.dev.bd.rackAlive = false →
      (s.dev.bd.runs = false → exec .rackBeaconReturn s = .next (s.withBoard { s.dev.bd with rackAlive := true })) ∧
      (s.dev.bd.runs = true → (∀ e ∈ s.dev.pool.tkts, e.2.st ≠ .quarantined) → Does .rackBeaconReturn s (fun t => t = s.withBoard t.dev.bd ∧
        t.dev.bd.rackAlive = true ∧ t.dev.bd.core = true ∧ t.dev.bd.tabs = false ∧ t.dev.bd.rackLost = s.dev.bd.rackLost ∧ t.dev.bd.inbox = [] ∧
        t.dev.bd.outA = [] ∧ t.dev.bd.out0 = [] ∧ t.dev.bd.outR = [])))

/-- CMT_EVENT: a transient of 50 kV/µs or more is counted, and one above 300 kV/µs is counted as beyond the immunity and raised (R60, R61). BAR_RETURN and BAR_FORCE by TS send one LANECMD, in the order decided; they are ABORTED while the board die is not alive,
a return of a lane with a cause other than FORCE is DENIED, and so is a force by T0–T3. DEBUG: closed it is DENIED; a board-side access waits as the one debug packet; the board die answers a read of a lane's level (R117, R229, R230). -/
def Obligations.LaneWritesAndDebug : Prop :=
  ∀ (s : State) (t : Ten) (mask addr v : BitVec 32) (kv : Nat),
    let seen := satAdd 16 s.dev.mon.cmtSeen 1
    (s.rack →
      (kv < 50 → exec (.cmtEvent kv) s = .next s) ∧
      (50 ≤ kv → kv ≤ 300 → exec (.cmtEvent kv) s = .next { s with dev.mon.cmtSeen := seen }) ∧
      (300 < kv → s.calm 0x3E dUnit →
        Does (.cmtEvent kv) s (fun t => t = ({ s with dev.mon.cmtSeen := seen, dev.mon.cmtOver := satAdd 16 s.dev.mon.cmtOver 1 }).raised t))) ∧
    (s.rack → s.writer 4 →
      let free := ∀ n < 32, mask.getLsbD n = true → (tget ({} : LaneView) s.dev.bar.views n).stage = 0 ∨ (tget ({} : LaneView) s.dev.bar.views n).cause &&& 0x5F = 0
      let sends := fun (act : Nat) => ({ s with dev.arb.ctl := s.dev.arb.ctl ++ [{ body := .lanecmd mask act false }] } : State).okAcc
      (s.dev.bar.bAlive = true → free → exec (.barReturn 4 mask) s = .next (sends 0)) ∧
      (¬ free → exec (.barReturn 4 mask) s = .next s.denied) ∧
      (s.dev.bar.bAlive = true → exec (.barForce 4 mask) s = .next (sends 1)) ∧
      (s.dev.bar.bAlive = false → free →
        exec (.barReturn 4 mask) s = .next { s with dev.acc := { status := stABORTED, value := 0 } } ∧
        exec (.barForce 4 mask) s = .next { s with dev.acc := { status := stABORTED, value := 0 } })) ∧
    (s.rack → t ≠ 4 → exec (.barForce t mask) s = .next s.denied) ∧
    (∀ write, s.rack → (∀ p ∈ s.dev.bd.inbox.head?, ∀ w a x, p.body ≠ .debug w a x) →
      (s.dev.fus.dbgOpen = false → exec (.debug write addr v) s = .next s.denied) ∧
      (s.dev.fus.dbgOpen = true → isBoardAddr addr.toNat = true → s.dev.bar.bAlive = true → s.dev.arb.dbg = none →
        exec (.debug write addr v) s = .next { s with dev.arb.dbg := some { body := .debug write addr v } })) ∧
    (∀ p rest n w a x, s.boardHas p rest → n < 32 → p.body = .debug false (BitVec.ofNat 32 (0x50000 + 0x40 * n)) x →
      let b : Board := { s.dev.bd with inbox := rest }
      let l := b.lane n
      let y := BitVec.ofNat 32 (packN [(0, 2, l.code), (8, 1, if b.bankUp n && l.pin then 1 else 0), (9, 1, if b.bankUp n then 0 else 1)])
      exec (.debug w a v) s = .next { (s.withBoard b).okAcc y with dev.bar.debugOut := some y })

/-- ENGINE_TIMER: an engine takes its next action (R266, R269–R273, R275): STRB puts the byte out with its strobe and releases it, ASYN ends TLEAD and sends characters while CTS
allows, a SYNC master ends TSEL and shifts a byte, OCW answers with the levels sampled, TWO ends after its stop. -/
def Obligations.EngineSteps : Prop :=
  ∀ (s : State) (e : Fin 8) (o : EngOp) (rest : List EngOp), s.board → s.dev.bd.busy e o rest →
    let b := s.dev.bd
    let g := b.eng e
    let c := b.ecfg e
    let run := fun (b' : Board) => exec (.engineTimer e) s = .next (s.withBoard b')
    (c.mode = 1 → o.op.kind ≠ .erx →
      (∀ x d, o.step = 1 → o.data = x :: d →
        run ((b.setEng e { ({ g with txd := x :: g.txd } : Eng).at o rest 2 with strobe := true }).drivesRole e 0 (c.t1 0 1 == 1))) ∧
      (o.step = 2 → c.t1 2 2 ≠ 1 → run ((b.setEng e { g.at o rest 4 with strobe := false }).drivesRole e 0 (c.t1 0 1 != 1))) ∧
      (o.step = 2 → c.t1 2 2 = 1 → g.ackOn = false → run (b.setEng e (g.at o rest 3)))) ∧
    (c.mode = 3 → o.op.kind ≠ .erx →
      let n := c.charBytes
      (o.step = 1 → run (b.setEng e (g.at o rest 2))) ∧
      (o.step = 2 → g.ctsOn = false → exec (.engineTimer e) s = .next s) ∧
      (o.step = 2 → g.ctsOn = true → n ≤ o.data.length → o.moved + n < o.dlen → run (b.setEng e { g with
        txd := (o.data.take n).reverse ++ g.txd, ops := { o with moved := o.moved + n, data := o.data.drop n } :: rest }))) ∧
    (c.mode = 4 → c.slave = false → o.op.kind ≠ .erx →
      (o.step = 1 → run (b.setEng e (g.at o rest 2))) ∧
      (∀ x d, o.step = 2 → o.data = x :: d → c.t0 14 1 = 0 →
        let o' := { o with moved := o.moved + 1, data := d }
        let g' : Eng := { g with shift := none, txd := x :: g.txd }
        run (b.setEng e (if o.dlen ≤ o.moved + 1 then g'.at o' rest 3 else { g' with ops := o' :: rest })))) ∧
    (c.mode = 2 → o.op.kind ≠ .erx → o.step = 2 → rest = [] → g.opsRx = [] →
      let v := b.groupPins e
      run ((b.ends o stOK 4 (v.setWidth 32)).setEng e (({ g with smp := v } : Eng).idled o stOK 4))) ∧
    (c.mode = 6 → (o.step = 5 ∨ o.step = 6) → rest = [] → g.opsRx = [] →
      run ((b.ends o stOK o.step o.value).setEng e (g.idled o stOK o.step)))

/-- ENGINE_INPUT_EDGE: an acknowledge lets STRB release its strobe; ASYN follows CTS, puts a character into the receive FIFO, and discards one while it sends without echo; SEL is seen by a SYNC
slave; TWO goes on at an acknowledge, ends at a missing one with the line error raised, takes a byte and loses arbitration (R263, R264, R266, R269, R271, R273, R275). -/
def Obligations.EngineEdges : Prop :=
  ∀ (s : State) (e : Fin 8), s.board →
    let b := s.dev.bd
    let g := b.eng e
    let c := b.ecfg e
    let run := fun (x : EngEdge) (b' : Board) => exec (.engineInputEdge e x) s = .next (s.withBoard b')
    (c.mode = 1 → g.ops = [] →
      (∀ d, run (.ackActive d) (b.setEng e { g with ackOn := true })) ∧ run .ackInactive (b.setEng e { g with ackOn := false })) ∧
    (∀ o rest d, c.mode = 1 → b.busy e o rest → o.step = 3 → o.op.kind ≠ .erx →
      run (.ackActive d) ((b.setEng e { g.at o rest 4 with ackOn := true, strobe := false }).drivesRole e 0 (c.t1 0 1 != 1))) ∧
    (c.mode = 3 → ∀ a, (c.role 3).isSome = true → run (.cts a) (b.setEng e { g with ctsOn := a })) ∧
    (c.mode = 3 → ∀ ch p f brk, g.dirOn = true → c.t1 9 1 = 0 → exec (.engineInputEdge e (.rxChar ch p f brk)) s = .next s) ∧
    (c.mode = 3 → ∀ ch, (g.dirOn = false ∨ c.t1 9 1 = 1) → c.charBytes = 1 → g.rx.length < 256 → g.ops = [] → g.opsRx = [] →
      run (.rxChar ch false false false) ((b.tells [pinEntry e (ch.setWidth 8 : Byte).toNat 0]).setEng e { g with rx := g.rx ++ [(ch.setWidth 8, 0)], gap := false })) ∧
    (c.mode = 4 → c.slave = true → g.ops = [] → ∀ high, run (.sel high) (b.setEng e { g with selLow := !high })) ∧
    (∀ o rest, c.mode = 6 → b.busy e o rest →
      let err := fun (f : BitVec 8) (n : Nat) =>
        (b.raises 0x4A c.owner e).setEng e (({ g with line := satAdd 8 g.line 1 } : Eng).at { o with errf := o.errf ||| f } rest n)
      (o.step = 1 → o.nsub = 0 → o.dlen ≠ 0 → run .twoAck (b.setEng e (({ g with
        txd := BitVec.ofNat 8 (2 * fld o.op.value.toNat 0 7 + (if o.op.kind = .erx then 1 else 0)) :: g.txd } : Eng).at o rest 4))) ∧
      (o.step = 1 → run .twoNack (err 32 5)) ∧
      (o.step ≠ 0 → o.step ≠ 6 → run .arbLost (err 64 6)) ∧
      (∀ x, o.step = 4 → o.op.kind = .erx →
        let o' := { o with moved := o.moved + 1, rx := o.rx ++ [x] }
        run (.twoByte x) ((b.tells [.page5 [[packN [(0, 6, 0x11), (6, 5, e), (11, 1, 1), (12, 8, x.toNat)], 0x3F]]]).setEng e
          (if o.dlen ≤ o.moved + 1 then g.at o' rest 5 else { g with ops := o' :: rest }))))

/-- ENGINE_TIMEOUT, ENGINE_STOP and IDLE_SEQUENCE: a limit ends the operation in progress TIMEOUT at its step, counted, recorded and raised in the owner's domain; a stop cause halts the engine, answers its
operation and raises ENG_HALT once, here for one operation in progress or none; without the cause nothing happens; a reset of the owner retires its operation with an ABORT_ACK; an engine
whose lanes are all LIVE again is IDLE (R264, R265, R267, R268, R88). -/
def Obligations.EngineStops : Prop :=
  ∀ (s : State) (e : Fin 8), s.board →
    let b := s.dev.bd
    let g := b.eng e
    let c := b.ecfg e
    let quiet := c.mode = 2 ∨ c.mode = 5 ∨ c.mode = 6
    let stop := fun (x : StopCause) (b' : Board) => exec (.engineStop e x) s = .next (s.withBoard b')
    let has := fun (m : BitVec 7) => ∃ n ∈ c.outLanes, (b.lane n).cause &&& m ≠ 0
    let missing := b.cfg.nmiss ≤ b.miss ∨ has 1
    let dark := ∃ n ∈ c.lanes, b.bankUp n = false
    let off : Eng := { g with st := 2, step := 0, sub := 0 }
    (∀ o, quiet → b.busy e o [] → g.opsRx = [] → o.step ≠ 0 → exec (.engineTimeout e .tmo) s = .next (s.withBoard
      ((((b.tells [timerEntry 6 e]).raises 0x49 c.owner e).ends o stTIMEOUT o.step o.value).setEng e
        (({ g with tmoCnt := satAdd 8 g.tmoCnt 1 } : Eng).idled o stTIMEOUT o.step)))) ∧
    (¬ missing → exec (.engineStop e .miss) s = .next s) ∧
    (¬ has 0x38 → exec (.engineStop e .laneCause) s = .next s) ∧
    (¬ dark → exec (.engineStop e .bank) s = .next s) ∧
    (b.pstate ≠ 0 → exec (.engineStop e .absent) s = .next s) ∧
    (b.tabs = true → exec (.engineStop e .reset) s = .next s) ∧
    (c.mode ≠ 0 → g.ops = [] → g.opsRx = [] → g.st ≠ 2 →
      let b' := (b.setEng e off).raises 0x4D c.owner e
      (missing → stop .miss b') ∧ (has 0x38 → stop .laneCause b') ∧ (b.pstate = 0 → stop .absent b') ∧ (b.tabs = false → stop .reset b')) ∧
    (c.mode ≠ 0 → g.ops = [] → g.opsRx = [] → g.st = 2 → missing → stop .miss (b.setEng e off)) ∧
    (∀ o, c.mode ≠ 0 → b.busy e o [] → g.opsRx = [] → o.step ≠ 0 →
      let b' := fun (status : Nat) => ((b.ends o status o.step o.value).setEng e
        { off with ops := [], lastF := (o.errf.toNat, status, o.step) }).raises 0x4D c.owner e
      (missing → stop .miss (b' stFAILSAFE)) ∧ (has 0x38 → stop .laneCause (b' stFAILSAFE)) ∧
      (∀ n, c.lanes.find? (fun n => !b.bankUp n) = some n → stop .bank { b' stFAILSAFE with fails := lmod b.fails (n / 8) (fun x => satAdd 8 x 1) }) ∧
      (b.pstate = 0 → stop .absent (b' stABORTED)) ∧ (b.tabs = false → stop .reset (b' stABORTED))) ∧
    (∀ o, quiet → b.busy e o [] → g.opsRx = [] → o.op.req.ten.val = c.owner →
      stop .tenantReset { b.setEng e { g with ops := [], st := 0, step := 0, sub := 0 } with
        outA := b.outA ++ [{ body := .abortAck [(o.tkt, o.ic)], ten := c.owner }] }) ∧
    (quiet → g.st = 2 → b.tabs = true → b.pstate ≠ 0 → ¬ dark → b.miss < b.cfg.nmiss → (∀ n ∈ c.outLanes, (b.lane n).stage = 0) →
      exec (.idleSequence e) s = .next (s.withBoard (b.setEng e { g with st := 0, step := 0 })))

/-- OCW_SAMPLE, PULSE_INPUT_EDGE and PULSE_RECORD_DUE: a sampled level that holds for FILT samples writes an event record, as an enabled edge of a pulse input does, each with its PIN entry;
the next record of a pulse transfer drives its output lane, and one that lies before the last ends the transfer DENIED (R270, R274, Table 13.8). The OCW clauses take a group of one lane. -/
def Obligations.EngineRecords : Prop :=
  ∀ (s : State) (e : Fin 8), s.board →
    let b := s.dev.bd
    let g := b.eng e
    let c := b.ecfg e
    (∀ levels v n, c.mode = 2 → c.gcount = 1 → g.filt = [(v, n)] → g.ops = [] → g.opsRx = [] →
      let x : Eng := { g with smp := levels }
      let need := c.t0 16 2 + 1
      (levels.getLsbD 0 = v → exec (.ocwSample e levels) s = .next (s.withBoard (b.setEng e { x with filt := [(v, 0)] }))) ∧
      (levels.getLsbD 0 ≠ v → n + 1 < need → exec (.ocwSample e levels) s = .next (s.withBoard (b.setEng e { x with filt := [(v, n + 1)] }))) ∧
      (levels.getLsbD 0 ≠ v → need ≤ n + 1 → g.rx.length + 8 ≤ 256 → exec (.ocwSample e levels) s = .next (s.withBoard
        ((b.tells [.page5 [[packN [(0, 6, 0x11), (6, 5, e), (11, 1, 1), (12, 8, levels.toNat)], 0x3F]]]).setEng e
          { x with filt := [(!v, 0)], rx := g.rx ++ b.record e 0 (!v), gap := false, overEp := false })))) ∧
    (∀ (k : Fin 4) level, c.mode = 5 → k.val < c.gcount → tbit (c.t0 0 4) k = false → g.ops = [] → g.opsRx = [] →
      let enabled := tbit (c.t0 (4 + 2 * k) 2) (if level then 0 else 1)
      (enabled = false → exec (.pulseInputEdge e k level) s = .next s) ∧
      (enabled = true → g.rx.length + 8 ≤ 256 → exec (.pulseInputEdge e k level) s = .next (s.withBoard
        ((b.tells [pinEntry e (if level then 1 else 0) k]).setEng e { g with rx := g.rx ++ b.record e k level, gap := false, overEp := false })))) ∧
    (∀ o rest, c.mode = 5 → b.busy e o rest → o.op.kind ≠ .erx → 8 ≤ o.data.length →
      let r := leN (o.data.take 8)
      let at' := fld r 0 56
      let lane := c.gbase + fld r 56 3
      (o.lastTime ≤ at' → b.timer ≤ at' → o.moved + 8 < o.dlen → tbit (c.t0 0 4) (fld r 56 3) = true → (b.lane lane).stage = 0 →
        exec (.pulseRecordDue e) s = .next (s.withBoard ((b.drive lane (if tbit r 59 then 1 else 0)).setEng e
          { g with ops := { o with moved := o.moved + 8, data := o.data.drop 8, lastTime := at' } :: rest }))) ∧
      (at' < o.lastTime → rest = [] → g.opsRx = [] → exec (.pulseRecordDue e) s = .next (s.withBoard
        ((b.ends o stDENIED o.step o.value).setEng e (g.idled o stDENIED o.step)))))

/-! ## Operations -/

/-- GEN1_READ, GEN1_WRITE, RD32, WR32, RMW32, SET, CLR, FREE, FENCE, and the accesses ENG_TXW, ENG_RXW, ENG_OCW, FLUSH_RX and REGISTER_WRITE of a board register: the request takes the ticket at the head
of the free list with its issue count one more, and waits at the tail of its queue; an item of Gen3 enters a message of its own (R158, R162, R163, R173, R175, R190). -/
def Obligations.RequestsQueue : Prop :=
  ∀ (s : State) (r : Req) (a v m : BitVec 32) (x : BitVec 16) (n : Nat) (t : Ten) (e : Fin 8), s.rack → s.contended →
    let r1 : Req := { r with gen := 1, queue := 2 }
    let r2 : Req := { r with gen := 2 }
    let r3 : Req := { r with gen := 3 }
    let rg := if r.gen = 3 then r3 else r2
    let goes := fun (c : Instr) (o : Op) => s.fits o → exec c s = .next (s.waits o)
    goes (.gen1Read r a) { kind := .rd, req := r1, addr := a } ∧
    goes (.gen1Write r a v) { kind := .wr, req := r1, addr := a, value := v } ∧
    goes (.rd32 r a) { kind := .rd, req := rg, addr := a } ∧
    goes (.wr32 r a v) { kind := .wr, req := rg, addr := a, value := v } ∧
    goes (.rmw32 r a v m) { kind := .rmw, req := r2, addr := a, value := v, mask := m } ∧
    goes (.set r a v) { kind := .set, req := r3, addr := a, value := v } ∧
    goes (.clr r a v) { kind := .clr, req := r3, addr := a, value := v } ∧
    goes (.free r x n) { kind := .free, req := r2, buf := x.toNat, value := BitVec.ofNat 32 n } ∧
    goes (.fence r) { kind := .fence, req := r2 } ∧
    goes (.engTxw t e v) (s.portOp t .wr (0x60018 + 0x400 * e) v) ∧
    goes (.engRxw t e) (s.portOp t .rd (0x6001C + 0x400 * e) 0) ∧
    goes (.engOcw t e v) (s.portOp t .wr (0x60020 + 0x400 * e) v) ∧
    goes (.flushRx t e) (s.portOp t .wr (0x60024 + 0x400 * e) 1) ∧
    (isBoardAddr a.toNat = true → goes (.registerWrite t a v) (s.portOp t .wr a.toNat v))

/-- RDBLK, ERX, WRBLK and ETX: a block read, or a write with inline data, takes its buffers from the head of the free list, owned and pinned once by its ticket, cleared and then filled with the
inline data from their first byte on; a write from a list pins the list's buffers; then the ticket waits in its queue. Every other byte of the buffers keeps its value (R161, R177, R182). The memory is in
canonical form, and the free list repeats no buffer. -/
def Obligations.BlocksQueue : Prop :=
  ∀ (s : State) (r : Req) (a tmo v m : BitVec 32) (n : Nat) (b : BitVec 16), s.rack → s.contended → s.Inv →
    let k := bufsFor n
    let t := r.ten.val
    let r2 : Req := { r with gen := 2 }
    let new := s.dev.pool.bufFree.take k
    let takes := fun (c : Instr) (o : Op) (bs : List Byte) => s.fits o → s.dev.bufTest t k = .ok → new.Nodup → Does c s (fun u =>
      let w := s.ticketed o (fun y => { y with bufs := new, pins := new })
      u = { w with
        bufs := u.bufs
        dev.pool := { w.dev.pool with
          bufFree := s.dev.pool.bufFree.drop k
          bufs := ((List.range new.length).zip new).foldl (fun l e => tput l e.2
            { next := new.getD (e.1 + 1) 0, last := decide (e.1 + 1 = new.length), owned := true, pin := 1, ten := t, ticket := s.dev.pool.tktFree.headD 0 }) s.dev.pool.bufs }
        dev.tens := lmod w.dev.tens t (fun y => { y with bufUse := y.bufUse + new.length, bufPeak := max y.bufPeak (y.bufUse + new.length) }) } ∧
      ∀ i, mget u.bufs i = if new.contains (i / 64) then bs.getD (64 * new.idxOf (i / 64) + i % 64) 0 else mget s.bufs i)
    let lists := fun (c : Instr) (o : Op) => ∀ l, s.fits o → s.dev.pool.dataList t k b.toNat [] = .ok l →
      let w := s.ticketed o (fun y => { y with pins := l })
      exec c s = .next { w with
        dev.pool := { w.dev.pool with bufs := l.foldl (fun x i => tmod {} x i (fun y => { y with pin := y.pin + 1 })) s.dev.pool.bufs } }
    takes (.rdblk r a n) { kind := .rdblk, req := r2, addr := a, dlen := n } [] ∧
    takes (.erx r a n tmo v m) { kind := .erx, req := r2, addr := a, dlen := n, tmo := tmo.toNat, value := v, mask := m } [] ∧
    (∀ bs, bs.length = n →
      takes (.wrblk r a n (.inline bs)) { kind := .wrblk, req := r2, addr := a, dlen := n, inlineB := true, inl := bs } bs ∧
      takes (.etx r a n (.inline bs) tmo v m) { kind := .etx, req := r2, addr := a, dlen := n, tmo := tmo.toNat, value := v, mask := m, inlineB := true, inl := bs } bs) ∧
    lists (.wrblk r a n (.list b)) { kind := .wrblk, req := r2, addr := a, dlen := n, buf := b.toNat } ∧
    lists (.etx r a n (.list b) tmo v m) { kind := .etx, req := r2, addr := a, dlen := n, tmo := tmo.toNat, value := v, mask := m, buf := b.toNat }

/-- FENCE_DONE: a FENCE that has issued completes once no earlier ticket of its tenant is left: its ticket reads FREE and goes to the tail of the free list. Said of a FENCE that asks for no
reply and is the only ticket issued. SEND_SHORT: a frame of a Gen1 tenant becomes its operation, which waits in Q2; in hard reset a
transaction is lost (R148, R154, R158, R162, R173). -/
def Obligations.FenceAndShort : Prop :=
  ∀ (s : State) (t : Ten) (n : Nat) (k : Ticket) (o : Op) (bytes : List Byte),
    (s.rack → s.dev.pool.tkts = [(n, k)] → k.st = .issued → k.ten = t.val → k.op = some o → o.kind = .fence → o.msg = none → o.req.gen = 2 → o.req.quiet = true → k.pins = [] →
      Does (.fenceDone t) s (fun u => u = ({ s with
        dev.pool := { s.dev.pool with tkts := [(n, { icount := k.icount })], tktFree := s.dev.pool.tktFree ++ [n] }
        dev.tens := lmod s.dev.tens t (fun x => { x with
          tktUse := x.tktUse - 1
          tdebt := x.tdebt && !debtOver (x.tktUse - 1) (s.dev.img.cfg.tktMin t)
          bdebt := x.bdebt && !debtOver x.bufUse (s.dev.img.cfg.bufMin t) }) }).logged u)) ∧
    (s.rack → (∀ e ∈ s.dev.pool.tkts, e.2.st ≠ .issued) → exec (.fenceDone t) s = .next s) ∧
    (s.dev.awake = false → s.dev.log.lstate ≠ 4 → exec (.sendShort bytes) s = .next s) ∧
    (s.rack → s.contended → s.dev.shortGen = 1 → s.dev.hpt.rx.length < 2 → s.dev.admits s.dev.shortTen = true →
      ∀ u : Ten, u.val = s.dev.shortTen → bytes.length = 9 → gen1Fault bytes = none →
      let o := gen1Op bytes shortRoute u
      s.fits o → Does (.sendShort bytes) s (fun t => t = ((({ s with dev.hpt.hsdo := [s.dev.statusByte] } : State).waits o)).logged t))

/-! ## Supplies, modes and resets (chapters 4 and 5) -/

/-- BROWN_NOTICE_BEGIN, BROWN_LONG and BROWN_NOTICE_END: a notice opens with the supplies that dip and takes in a second one; after 1 s the dip so far is recorded and raised, once; at its end the
depths and lengths join the registers and the counts, the notice bits clear and what was deferred may start. The end is stated for dips that are raised already and nothing deferred (R70, R71, R74, R75). -/
def Obligations.BrownNotices : Prop :=
  ∀ (s : State) (a b : Bool) (minA durA minB durB : Nat), s.awake →
    let p := s.dev.sup
    (p.notice = false → (a || b) = true → exec (.brownNoticeBegin a b) s = .next { s with
      dev.sup := { p with notice := true, raisedA := false, raisedB := false, t0 := s.dev.tim.mono, aBrown := p.aBrown || a, bBrown := p.bBrown || b } }) ∧
    (p.notice = true → exec (.brownNoticeBegin a b) s = .next { s with dev.sup := { p with aBrown := p.aBrown || a, bBrown := p.bBrown || b } }) ∧
    (p.notice = true → p.aBrown = true → p.raisedA = false → p.bBrown = false → s.calm 0x00 dUnit →
      Does (.brownLong minA durA) s (fun t =>
        t = ({ s with dev.sup := { p with minA := minA % 256, durA := min 16777215 durA, raisedA := true } }).raised t)) ∧
    (p.notice = true → p.aBrown = true → p.raisedA = true → (p.bBrown = true → p.raisedB = true) → exec (.brownLong minA durA) s = .next s) ∧
    (p.notice = false → exec (.brownLong minA durA) s = .next s ∧ exec (.brownNoticeEnd minA durA minB durB) s = .next s) ∧
    (p.notice = true → p.raisedA = true → p.raisedB = true → durA ≠ 0 → durB ≠ 0 → p.defer = [] → s.dev.sto = {} → s.dev.flt.evq = [] → s.dev.log.gapLines = 0 →
      exec (.brownNoticeEnd minA durA minB durB) s = .next { s with
        dev.sup := { p with
          notice := false, aBrown := false, bBrown := false, cntA := satAdd 16 p.cntA 1, cntB := satAdd 16 p.cntB 1
          minA := minA % 256, durA := min 16777215 durA, minB := minB % 256, durB := min 16777215 durB } })

/-- BANK_DOWN, BANK_UP, BANK_LOW and HOLDB_LOW: a bank that falls is counted and raised, and its output lanes are DARK with the cause BANK; one that rises brings its DARK lanes to FS1 without that
cause, and the board ends of its A→B channels drive their levels again; a low bank with a nominal code, and a holdup that is not ready, are raised and reported. Of the fall this is said where no engine has a lane in the bank (R78, R79, R81). -/
def Obligations.BankEvents : Prop :=
  ∀ (s : State) (k : Fin 4), s.board →
    let b := s.dev.bd
    let mine := fun (n : Nat) => n < 32 ∧ b.cfg.outLane n = true ∧ n / 8 = k.val
    (b.vddb = true → b.up.getLsbD k = true → (∀ e < 8, ∀ n ∈ (b.ecfg e).lanes, n / 8 ≠ k.val) →
      Does (.bankDown k) s (fun t => t = s.withBoard t.dev.bd ∧
        t.dev.bd.up = b.up &&& ~~~(BitVec.ofNat 4 (2 ^ k.val)) ∧ t.dev.bd.downs = lmod b.downs k (fun x => satAdd 8 x 1) ∧ t.dev.bd.cfg = b.cfg ∧ t.dev.bd.engs = b.engs ∧
        ∀ n, (mine n → (t.dev.bd.lane n).cause = (b.lane n).cause ||| 2 ∧ ((b.lane n).stage ≤ 3 → (t.dev.bd.lane n).stage = 3)) ∧ (¬ mine n → t.dev.bd.lane n = b.lane n))) ∧
    (b.up.getLsbD k = false →
      Does (.bankUp k) s (fun t => t = s.withBoard t.dev.bd ∧
        t.dev.bd.up = b.up ||| BitVec.ofNat 4 (2 ^ k.val) ∧ t.dev.bd.low = b.low &&& ~~~(BitVec.ofNat 4 (2 ^ k.val)) ∧ t.dev.bd.cfg = b.cfg ∧ t.dev.bd.engs = b.engs ∧
        ∀ n, (mine n → (b.lane n).stage = 3 → (t.dev.bd.lane n).cause = (b.lane n).cause &&& 0x7D ∧ (t.dev.bd.lane n).stage = 1) ∧
          (¬ (mine n ∧ (b.lane n).stage = 3) →
            t.dev.bd.lane n = if b.cfg.abLane n && n / 8 == k.val && !(b.lane n).hiz && !b.parked then { b.lane n with pin := (tget ({} : Direct) b.direct n).level } else b.lane n))) ∧
    (b.vddb = true → b.low.getLsbD k = false → fld s.dev.sup.banknom.toNat (4 * k) 4 ≠ 0 →
      exec (.bankLow k) s = .next (s.withBoard (({ b with low := b.low ||| BitVec.ofNat 4 (2 ^ k.val) } : Board).raises 0x08 dUnit k).page0)) ∧
    (fld s.dev.sup.banknom.toNat (4 * k) 4 = 0 → exec (.bankLow k) s = .next s) ∧
    (b.vddb = true → exec .holdbLow s = .next (s.withBoard (({ b with ready := false } : Board).raises 0x03 dUnit 0).page0))

/-- VDDB_COLLAPSE, HOLDUP_END and BOARD_DIE_POWER_ON: a board die that loses its supply stops, drives its fail-safe values from the holdup and sends the report of what it was doing and of the banks down alone; when the
holdup ends it is in reset and every pin keeps its level; with its supply again it runs without tables, and its presence follows PRSn. Of the last this is said where no ticket is quarantined (R69, R76; Table 4.4). -/
def Obligations.BoardSupply : Prop :=
  ∀ (s : State) (prsLow : Bool), s.dev.log.lstate ≠ 4 →
    let b := s.dev.bd
    (b.core = true → b.vddb = true → s.dev.sup.notice = false → Does .vddbCollapse s (fun t => t = { s.withBoard t.dev.bd with dev.sup.bBrown := false } ∧
      t.dev.bd.vddb = false ∧ t.dev.bd.core = true ∧ t.dev.bd.holdup = true ∧ t.dev.bd.tabs = false ∧ t.dev.bd.inbox = [] ∧ t.dev.bd.outA = [] ∧ t.dev.bd.out0 = [] ∧ t.dev.bd.outR = [] ∧
      t.dev.bd.outS = [{ body := .holdup {
        ops := b.engs.flatMap (fun (e : Nat × Eng) => ((e.2.ops ++ e.2.opsRx).filter (fun o => o.step != 0)).map (fun o => (o.tkt + 1024 * o.ic, o.step))), banks := ~~~b.up } }] ∧
      ∀ n < 32, b.tabs = true → b.cfg.outLane n = true → (t.dev.bd.lane n).stage ≠ 0)) ∧
    (b.vddb = false → exec .vddbCollapse s = .next s) ∧
    (b.holdup = true → Does .holdupEnd s (fun t => t = s.withBoard t.dev.bd ∧ t.dev.bd.core = false ∧ t.dev.bd.holdup = false ∧ t.dev.bd.tabs = false ∧ t.dev.bd.outS = [] ∧
      ∀ n, (t.dev.bd.lane n).pin = (b.lane n).pin ∧ (t.dev.bd.lane n).stage = (b.lane n).stage)) ∧
    (b.core = true → exec (.boardDiePowerOn prsLow) s = .next (s.withBoard { b with vddb := true, prsn := !prsLow })) ∧
    (b.core = false → s.dev.sup.mode ≠ 2 → (∀ e ∈ s.dev.pool.tkts, e.2.st ≠ .quarantined) → Does (.boardDiePowerOn prsLow) s (fun t => t = s.withBoard t.dev.bd ∧
      t.dev.bd.vddb = true ∧ t.dev.bd.core = true ∧ t.dev.bd.tabs = false ∧ t.dev.bd.prsn = !prsLow ∧ t.dev.bd.pstate = (if prsLow then 2 else 0) ∧ t.dev.bd.inbox = [] ∧
      t.dev.bd.outS = [{ body := .page2 t.dev.bd.pstate t.dev.bd.prsn }]))

/-- STANDBY, ACTIVE, DORMANT and HCSN_WAKE. TS enters STANDBY from ACTIVE with no board-bound ticket and no busy engine, and leaves it; a KEEPALIVE or a REFRESH is ready at once while the lamplighter runs. DORMANT ends every
die's work: ports OFF, board core off, TPO low, the reference state kept; a falling HCSn brings ACTIVE back with the board die restarted. Anyone else's write is DENIED. DORMANT is stated with ports out of RUN and nothing under
way, the wake with no image woven (R82, R83, R84, R309). -/
def Obligations.ModeCommands : Prop :=
  ∀ (s : State) (t : Ten),
    let b := s.dev.bar
    let lit := b.lamp = true ∧ b.bAlive = true ∧ s.dev.img.woven = true
    let lamp := fun (keep : Bool) => some ({ body := .refresh keep (upto 32 s.dev.mirrorCode) b.lseq (fld s.dev.tim.now 10 16) s.dev.tim.qual } : Pkt)
    let busy := s.dev.boardTkts ≠ [] ∨ ∃ e < 8, (s.dev.bd.eng e).st = 1
    (s.rack → t ≠ 4 → exec (.standby t) s = .next s.denied ∧ exec (.active t) s = .next s.denied ∧ exec (.dormant t) s = .next s.denied) ∧
    (s.rack → s.writer 4 → s.dev.sup.mode = 0 → ¬ busy →
      (lit → Does (.standby 4) s (fun t => t = (({ s with dev.sup.mode := 1, dev.arb.lamp := lamp true }).okAcc).logged t)) ∧
      (¬ lit → exec (.standby 4) s = .next (({ s with dev.sup.mode := 1 }).okAcc))) ∧
    (s.rack → s.writer 4 → s.dev.sup.mode ≠ 0 ∨ busy → exec (.standby 4) s = .next s.denied) ∧
    (s.rack → s.writer 4 → s.dev.sup.mode = 1 →
      (lit → Does (.active 4) s (fun t => t = (({ s with dev.sup.mode := 0, dev.bar.parked := false, dev.arb.lamp := lamp false }).okAcc).logged t)) ∧
      (¬ lit → exec (.active 4) s = .next (({ s with dev.sup.mode := 0, dev.bar.parked := false }).okAcc))) ∧
    (s.rack → s.writer 4 → s.dev.sup.mode ≠ 1 → exec (.active 4) s = .next s.denied) ∧
    (s.rack → s.writer 4 → s.dev.boardTkts ≠ [] → exec (.dormant 4) s = .next s.denied) ∧
    (s.rack → s.writer 4 → s.dev.boardTkts = [] → s.dev.pai.role ≠ 3 → s.dev.ring.up.st ≠ 4 → s.dev.ring.dn.st ≠ 4 → s.dev.tens.any (fun t => t.rst.isSome) = false →
      s.dev.img.phase ≠ 2 → s.dev.idn.astate ≠ 1 → s.dev.idn.wbState ≠ 2 →
      let off := fun (r : RingPort) => if r.st = 0 then r else { r with st := 0, credit := 0 }
      Does (.dormant 4) s (fun t => t = ({ s with
          dev.sup.mode := 2, dev.ring.up := off s.dev.ring.up, dev.ring.dn := off s.dev.ring.dn, dev.bd := t.dev.bd,
          dev.bar := { b with beaconIn := false, bSupply := false, ordered := true, bAlive := false, lamp := false },
          dev.arb := { s.dev.arb with ctl := [], lamp := none, dbg := none, resend := [], silent := none, flight := none,
                                      urgent := [], fifos := [[], [], [], [], []], heldE := [], pend := none },
          dev.tim := { s.dev.tim with dormLocked := s.dev.tim.state == 1, dormT0 := s.dev.tim.mono, tpo := false } } : State).okAcc ∧
        t.dev.bd.core = false ∧ t.dev.bd.tabs = false ∧ t.dev.bd.inbox = [] ∧ t.dev.bd.outS = [] ∧ t.dev.bd.vddb = s.dev.bd.vddb ∧
        ∀ n, (t.dev.bd.lane n).pin = (s.dev.bd.lane n).pin)) ∧
    (s.awake → s.dev.sup.mode ≠ 2 → exec .hcsnWake s = .next s) ∧
    (s.awake → s.dev.sup.mode = 2 → s.dev.img.woven = false → s.dev.tim.dormLocked = false → s.dev.bd.vddb = true → s.dev.rst.held = false → s.dev.log.lstate < 4 → 5 ≤ s.dev.fus.inst →
      (∀ e ∈ s.dev.pool.tkts, e.2.st ≠ .quarantined) →
      let on := fun (r : RingPort) => if r.en then (if r.st = 0 then { r with st := 1, credit := 0 } else r) else r
      (s.dev.ring.up.en = true ∨ s.dev.ring.up.st = 0) → (s.dev.ring.dn.en = true ∨ s.dev.ring.dn.st = 0) →
      Does .hcsnWake s (fun t => t = { s with
          dev.sup := { s.dev.sup with mode := 0, up := s.dev.bd.up, low := s.dev.bd.low, bBrown := false },
          dev.ring.up := on s.dev.ring.up, dev.ring.dn := on s.dev.ring.dn, dev.rst.bnr := true, dev.bd := t.dev.bd,
          dev.bar := { b with beaconIn := true, bAlive := true, bSupply := true, bstepSeen := true, bdown := false, ordered := false, holdSeen := none,
                              pstate := if s.dev.bd.prsn then 0 else 2, prsn := s.dev.bd.prsn, fsmap := 0xFFFFFFFF, views := [] } } ∧
        t.dev.bd.core = true ∧ t.dev.bd.tabs = false ∧ t.dev.bd.inbox = [] ∧ t.dev.bd.outS = [] ∧ t.dev.bd.rackAlive = true))

/-- BOARD, RELEASE_LANES, BOARD_NO_RETURN and REARM. RST_CTRL.BOARD by TS sends the reset packet, counts the reset, and leaves STANDBY; RELEASE_LANES during the stuck hold ends it and tells the board die; a board die that does not
return is raised once; 100 ms of high RSTn in IGNORE arms the supervisor. A wrong key, a wrong tenant and a release without hold are DENIED (R93, R99, R100, R103, R104). -/
def Obligations.ResetCommands : Prop :=
  ∀ (s : State) (t : Ten) (key : BitVec 16),
    (s.rack → (t ≠ 4 ∨ key ≠ 0xC3A5) →
      exec (.board t key) s = .next s.denied ∧ exec (.soft t key) s = .next s.denied ∧ exec (.releaseLanes t key) s = .next s.denied) ∧
    (s.rack → s.dev.barred 4 = false → s.dev.flt.stopped dUnit = false →
      Does (.board 4 0xC3A5) s (fun t => t = (({ s with
        dev.sup.mode := 0
        dev.bar.ordered := true
        dev.bar.parked := false
        dev.rst.boardBusy := true
        dev.rst.bnr := false
        dev.rst.boardResets := satAdd 8 s.dev.rst.boardResets 1
        dev.arb.ctl := t.dev.arb.ctl
        dev.freeCtr := t.dev.freeCtr } : State).okAcc).logged t ∧
        (s.dev.bar.bAlive = true → t.dev.arb.ctl = s.dev.arb.ctl ++ [{ body := .breset }]))) ∧
    (s.rack → s.dev.barred 4 = false → s.dev.flt.stopped dUnit = false → s.dev.rst.stuckHold = false → exec (.releaseLanes 4 0xC3A5) s = .next s.denied) ∧
    (s.rack → s.dev.barred 4 = false → s.dev.flt.stopped dUnit = false → s.dev.rst.stuckHold = true → s.dev.bar.bAlive = true → (∀ ch < 8, s.dev.img.cfg.baChan ch = false) →
      exec (.releaseLanes 4 0xC3A5) s = .next (({ s with
        dev.rst.stuckHold := false
        dev.arb.ctl := s.dev.arb.ctl ++ [{ body := .lanecmd 0xFFFFFFFF 2 false }] } : State).okAcc)) ∧
    (s.rack → s.dev.bar.bAlive = false → s.dev.rst.bnr = false → (s.dev.img.woven = true ∨ s.dev.rst.boardBusy = true) → s.calm 0x0E dUnit →
      Does .boardNoReturn s (fun t => t = ({ s with dev.rst.bnr := true }).raised t)) ∧
    (s.rack → (s.dev.bar.bAlive = true ∨ s.dev.rst.bnr = true) → exec .boardNoReturn s = .next s) ∧
    (s.dev.log.lstate ≠ 4 →
      (s.dev.rst.sup = 2 → s.dev.pins.rstn = true → exec .rearm s = .next { s with dev.rst.sup := 0 }) ∧
      ((s.dev.rst.sup ≠ 2 ∨ s.dev.pins.rstn = false) → exec .rearm s = .next s))

/-- VDDA_COLLAPSE and RSTN_LOW: hard reset. Every register is at its reset value but the fuse shadow, the pins and the board die; a line whose commit was in flight is old or new, and no other byte of the store changes; an unfinished held weave
is shown ABANDONED. RSTN_LOW also holds the board die in reset with its pins as they stand, and in IGNORE or HELD does nothing but lower the pin (R95, R100, R344, R397).
POWER_ON, RSTN_HIGH and RSTN_STUCK: start-up. The fuses are sensed, the straps are taken, the board die is met, and the reset cause says which start it was; a stuck RSTn starts with the stuck hold and the supervisor in IGNORE, and RSTn low at
power-on is HELD. Stated for readable fuses in a state other than RETURN and for a store without a valid bank record, which leaves the unit running unwoven; RSTN_HIGH and RSTN_STUCK from the state that hard reset left (R96, R97, R98, R100, R101, R106). -/
def Obligations.HardResetAndStart : Prop :=
  (∀ (s : State),
     let cleared := fun (t : State) (rst : Reset) (pins : Pins) (b : Board) =>
       t = { s with
         store := t.store
         dev := { rst := rst, pins := pins, bd := b, fus := t.dev.fus, freeCtr := t.dev.freeCtr, img := if s.dev.img.held.isSome then { code := 0x31, ten := s.dev.img.ten, action := s.dev.img.action } else {} } } ∧
       t.dev.fus.lcs = s.dev.fus.lcs ∧ t.dev.fus.prot = s.dev.fus.prot ∧ t.dev.fus.serial = s.dev.fus.serial ∧ t.dev.fus.key = s.dev.fus.key ∧ t.dev.fus.vdbg = false ∧ t.dev.fus.inst = 0x02 ∧
       (s.dev.sto = {} → t.store = s.store)
     Does .vddaCollapse s (fun t => cleared t { vdda := false, held := true } s.dev.pins s.dev.bd) ∧
     (s.dev.rst.vdda = true → s.dev.rst.sup = 0 → Does .rstnLow s (fun t =>
       cleared t { sup := 1, held := true } { s.dev.pins with rstn := false } t.dev.bd ∧
       (s.dev.bd.core = false → t.dev.bd = s.dev.bd) ∧
       (s.dev.bd.core = true → t.dev.bd.core = false ∧ t.dev.bd.holdup = false ∧ t.dev.bd.tabs = false ∧ t.dev.bd.outS = [] ∧ t.dev.bd.inbox = [] ∧
         ∀ n, (t.dev.bd.lane n).pin = (s.dev.bd.lane n).pin))) ∧
     ((s.dev.rst.vdda = false ∨ s.dev.rst.sup ≠ 0) → s.dev.log.lstate ≠ 4 → exec .rstnLow s = .next { s with dev.pins.rstn := false })) ∧
  (∀ (s : State) (p : StartPins) (low m : Nat),
     s.dev.sto = {} → (load s).bankRec 0 = none → (load s).bankRec 1 = none → lcsOf (tget 0 s.fuses 0).toNat = some m → m ≠ 3 → p.failMask = 0 →
     let up := fun (t : State) (last lowS sup : Nat) (stuck : Bool) =>
       t.dev.rst.held = false ∧ t.dev.rst.vdda = true ∧ t.dev.rst.last = last ∧ t.dev.rst.lowS = lowS ∧ t.dev.rst.sup = sup ∧ t.dev.rst.stuckHold = stuck ∧ t.dev.img.woven = false ∧
       t.dev.fus.lcs = m ∧ t.dev.fus.prot = BitVec.ofNat 13 (tget 0 s.fuses 1).toNat ∧ t.dev.pins.head = p.headLow ∧ t.dev.pins.hostsel = p.hostsel.val ∧ t.dev.pins.rstn = true ∧
       t.dev.bd.core = p.boardUp ∧ t.dev.bar.bAlive = p.boardUp ∧ t.fuses = s.fuses ∧ t.pending = s.pending
     let heldState := s.dev.rst.vdda = true ∧ s.dev.rst.sup = 1 ∧ s.dev.flt = {} ∧ s.dev.ring = {} ∧ s.dev.sup = {} ∧ s.dev.pool = {}
     (p.rstHigh = true → Does (.powerOn p) s (fun t => up t 1 0 0 false)) ∧
     (p.rstHigh = false → Does (.powerOn p) s (fun t => t.dev.rst = { sup := 1, held := true } ∧ t.dev.fus.lcs = m ∧ t.dev.pins.rstn = false ∧ t.dev.bd = s.dev.bd ∧ t.dev.img.woven = false ∧
       t.store = s.store ∧ t.fuses = s.fuses)) ∧
     (heldState → Does (.rstnHigh p low) s (fun t => up t 2 (min 255 low) 0 s.dev.rst.stuckHold)) ∧
     (heldState → s.dev.fus.tstuck ≠ 0 → Does (.rstnStuck p) s (fun t => up { t with dev.pins.rstn := true } 3 s.dev.fus.tstuck 2 true)))

/-- TEN_RESET and TRESET_SLOW: a tenant reset by TS or the tenant itself drops what the tenant has waiting, strips its issued tickets, sends the abort packet and waits for the acknowledgements, other tenants untouched; a wrong key, another tenant's
page and a reset under way are DENIED. 100 µs without an acknowledgement quarantines the ticket, raises TEN_RESET_SLOW and ends the reset. Stated for a tenant with one ticket at the board die (R87, R88, R91). -/
def Obligations.TenantResets : Prop :=
  ∀ (s : State) (t page : Ten) (key : BitVec 16) (n : Nat) (k : Ticket),
    let p := page.val
    let a := s.dev.arb
    let q4 : List (List Nat) := [[], [], [], []]
    (s.rack → ((t ≠ 4 ∧ t ≠ page) ∨ key ≠ 0x7E4E ∨ (s.dev.ten p).rst ≠ none) → exec (.tenReset t page key) s = .next s.denied) ∧
    (s.rack → (t = 4 ∨ t = page) → s.dev.barred t = false → s.dev.flt.fatal = false → s.dev.tens.length = 5 → (s.dev.ten p).rst = none → (s.dev.ten p).queues = q4 →
      (∀ i, s.dev.tqaPick = some i → i / 4 ≠ p) → s.dev.uncrossed p = [] → s.dev.tktsOf p .issued = [(n, k)] → k.board = true → s.dev.pool.tkt n = k →
      (∀ e ∈ s.dev.pool.bufs, e.2.owned = true → e.2.ten ≠ p) → a.capLeft s.dev.img.cfg p = true → s.dev.bar.bAlive = true →
      Does (.tenReset t page 0x7E4E) s (fun t => t = (({ s with
          dev.rst.tenResets := satAdd 8 s.dev.rst.tenResets 1
          dev.pai.tenResets := lmod s.dev.pai.tenResets p (fun n => (n + 1) % 256)
          dev.hpt.msgs := s.dev.hpt.msgs.filter (fun e => e.2.ten != p)
          dev.arb := { a with
            urgent := a.urgent.filter (fun x => x.ten != p) ++ [{ body := .tabort p, ten := p, queue := 0 }]
            fifos := a.fifos.set p []
            resend := a.resend.filter (fun x => x.ten != p)
            ctl := a.ctl.filter (fun x => x.ten != p)
            pend := a.pend.filter (fun x => x.2 != p) }
          dev.pool.tkts := s.dev.pool.tkts.map (fun (e : Nat × Ticket) => if e.2.ten = p then (e.1, { e.2 with op := none, pins := [], bufs := [], rx := [] }) else e)
          dev.tens := t.dev.tens
          dev.freeCtr := t.dev.freeCtr } : State).okAcc).logged t ∧
        (t.dev.ten p).rst = some { await := [(n, k.icount)], op := none } ∧ (t.dev.ten p).queues = q4 ∧ (t.dev.ten p).tktUse = (s.dev.ten p).tktUse ∧
        ∀ u, u ≠ p → t.dev.ten u = s.dev.ten u)) ∧
    (s.rack → ((s.dev.ten p).rst = none ∨ ∃ o, (s.dev.ten p).rst = some { await := [], op := o }) → exec (.tresetSlow page) s = .next s) ∧
    (s.rack → s.dev.tens.length = 5 → (s.dev.ten p).rst = some { await := [(n, k.icount)], op := none } → s.dev.pool.tkt n = k → k.st = .issued → k.ten = p → s.dev.img.phase ≠ 2 →
      s.calm 0x0F dUnit →
      Does (.tresetSlow page) s (fun t =>
        (t.dev.ten p).rst = none ∧ (t.dev.ten p).queues = q4 ∧ (t.dev.ten p).streams = [] ∧ (t.dev.ten p).tktUse = 0 ∧ (t.dev.ten p).tdebt = false ∧ (t.dev.ten p).bdebt = false ∧
        (s.dev.img.woven = true → (t.dev.ten p).gen = (s.dev.img.cfg.ten p).gen) ∧ (∀ r ∈ t.dev.hpt.rq, r.ten ≠ p) ∧ (∀ u, u ≠ p → t.dev.ten u = s.dev.ten u) ∧
        t.dev.pool = s.dev.pool.setTkt n { k with st := .quarantined } ∧ t.dev.bd = s.dev.bd ∧ t.bufs = s.bufs ∧ t.fuses = s.fuses ∧ t.pending = s.pending))

/-- SOFT and SOFT_RESET_DEFERRED_START: a soft reset during a brown notice is held in order, and starts when the notice has ended and no line is in flight. It empties the pools, the tenants' queues, streams and resets, the deferred work and the packets,
sends the board die through a reset, and shows its cause; the time base and the fuses stay. Stated for a store without staged lines or a valid bank record, outside a hard stop of the unit (R94, R301; Table 5.3). -/
def Obligations.SoftResets : Prop :=
  ∀ (s : State) (cause : Nat),
    let quiet := s.dev.sto = {} ∧ (load s).bankRec 0 = none ∧ (load s).bankRec 1 = none ∧ s.dev.fus.lcs ≠ 3 ∧ s.dev.pai.role ≠ 3 ∧ s.dev.bd.runs = true ∧ s.dev.flt.stopped dUnit = false ∧
      (s.dev.fus.inst ≠ 0 ∧ s.dev.fus.inst ≠ 3 ∧ s.dev.fus.inst ≠ 4) ∧ s.dev.rst.held = false ∧ s.dev.idn.astate ≠ 1 ∧ s.dev.idn.wbState ≠ 2 ∧
      (s.dev.ring.up.en = true ∨ s.dev.ring.up.st = 0) ∧ (s.dev.ring.dn.en = true ∨ s.dev.ring.dn.st = 0)
    let done := fun (t : State) (cause : Nat) =>
      t.dev.rst.last = cause ∧ t.dev.rst.softResets = satAdd 8 s.dev.rst.softResets 1 ∧ t.dev.rst.boardBusy = false ∧ t.dev.rst.softWait = none ∧ t.dev.rst.stuckHold = s.dev.rst.stuckHold ∧
      t.dev.img.woven = false ∧ t.dev.sup.mode = 0 ∧ t.dev.sup.defer = [] ∧ t.dev.pool = {} ∧ (∀ u, (t.dev.ten u).queues = [[], [], [], []] ∧ (t.dev.ten u).rst = none ∧ (t.dev.ten u).streams = [] ∧ (t.dev.ten u).tktUse = 0 ∧
        (t.dev.ten u).tktPeak = (s.dev.ten u).tktPeak) ∧ t.dev.arb.urgent = [] ∧ t.dev.arb.fifos = ({} : Arb).fifos ∧ t.dev.arb.flight = none ∧ t.dev.bd.core = true ∧ t.dev.bd.tabs = false ∧
      t.dev.bar.bAlive = true ∧ t.dev.tim = s.dev.tim ∧ t.dev.fus = s.dev.fus ∧ t.dev.pins = s.dev.pins ∧ t.fuses = s.fuses ∧ t.bufs = s.bufs ∧ t.pending = s.pending
    (s.rack → s.dev.barred 4 = false → s.dev.flt.stopped dUnit = false → s.dev.rst.softWait = none →
      (s.dev.sup.notice = true → exec (.soft 4 0xC3A5) s = .next (({ s with dev.rst.softWait := some 4, dev.sup.defer := s.dev.sup.defer ++ [Deferred.soft] }).okAcc)) ∧
      (s.dev.sup.notice = false → quiet → Does (.soft 4 0xC3A5) s (fun t => done t 4 ∧ t.dev.acc.status = stOK))) ∧
    (s.rack → (s.dev.rst.softWait = none ∨ s.dev.sup.notice = true) → exec .softResetDeferredStart s = .next s) ∧
    (s.rack → s.dev.rst.softWait = some cause → cause ≠ 256 → s.dev.sup.notice = false → quiet → Does .softResetDeferredStart s (fun t => done t cause))

/-! ## Life cycle and the TAP (chapter 6) -/

/-- EXTEST, HIGHZ, CLAMP, SAMPLE_PRELOAD, IDCODE, BYPASS, TRSTN_LOW, DBG and FUSE_READ: an instruction that the life-cycle state allows is in the instruction register and has its effect, one that it does not allow selects BYPASS and sets TAP_REFUSED, and each
update closes the debug port and ends a challenge. FUSE_READ shows 0 for the key words and for words the state does not let it see; DBG raises DEBUG_OPEN. Stated where the ring ports already stand as the instruction leaves them (R109, R111, R115, R116; Table 6.6). -/
def Obligations.TapCommands : Prop :=
  ∀ (s : State), s.awake →
    let f0 : Fuse := { s.dev.fus with dbgOpen := false, chalHeld := false, chalLive := false, tdo := [] }
    let runs := fun (op : Nat) => ({ s with dev.fus := { f0 with inst := op } } : State)
    let refused : State := { s with dev.fus := { f0 with inst := 0x3F, tapRefused := true } }
    let pinsFree := s.dev.fus.lcs ≠ 2 ∨ s.dev.fus.prot.getLsbD 1 = true
    let pinsKept := s.dev.fus.lcs = 2 ∧ s.dev.fus.prot.getLsbD 1 = false
    (∀ c op, (c, op) = (Instr.extest, 0x00) ∨ (c, op) = (Instr.highz, 0x03) ∨ (c, op) = (Instr.clamp, 0x04) →
      (pinsFree → s.portsRest op → exec c s = .next (runs op)) ∧ (pinsKept → s.portsRest 0x3F → exec c s = .next refused)) ∧
    (s.portsRest 0x01 → ∀ v, exec (.samplePreload (some v)) s = .next { (runs 0x01) with dev.fus.boundary := v }) ∧
    (s.portsRest 0x01 → Does (.samplePreload none) s (fun t =>
      t = { (runs 0x01) with dev.fus.boundary := t.dev.fus.boundary, dev.fus.tdo := le 4 t.dev.fus.boundary, dev.freeCtr := s.dev.freeCtr + 1 })) ∧
    (s.portsRest 0x02 → exec .idcode s = .next { (runs 0x02) with dev.fus.tdo := [0xA5, 0x47, 0x12, 0x25] }) ∧
    (s.portsRest 0x3F → ∀ op : BitVec 6, (op = 0x3F ∨ op ∉ ([0x00, 0x01, 0x02, 0x03, 0x04, 0x10, 0x11, 0x12, 0x18, 0x1C] : List (BitVec 6))) → exec (.bypass op) s = .next (runs 0x3F)) ∧
    (s.portsRest 0x3F → pinsKept → exec (.bypass 0x00) s = .next refused) ∧ (pinsFree → exec (.bypass 0x00) s = .next s) ∧
    (s.portsRest 0x02 → exec .trstnLow s = .next { s with dev.fus := { s.dev.fus with inst := 0x02, dbgOpen := false, chalHeld := false, chalLive := false } }) ∧
    (s.portsRest 0x10 → ∀ n : Fin 32, exec (.fuseRead n) s = .next { (runs 0x10) with dev.fus.tdo := le 4 (if (4 ≤ n.val ∧ n.val ≤ 21) ∨ 30 ≤ n.val ∨ (22 ≤ n.val ∧ s.dev.fus.lcs ≠ 0) then 0 else (tget 0 s.fuses n.val).toNat) }) ∧
    (s.dev.fus.dbgOpen = true → exec .dbg s = .next s) ∧
    (s.dev.fus.dbgOpen = false → (s.dev.fus.lcs = 2 ∧ s.dev.fus.prot.getLsbD 2 = false) ∨ (s.dev.fus.lcs = 3 ∧ s.dev.fus.vdbg = false) → s.portsRest 0x3F → exec .dbg s = .next refused) ∧
    (s.dev.fus.dbgOpen = false → s.dev.fus.lcs ≤ 1 ∨ (s.dev.fus.lcs = 2 ∧ s.dev.fus.prot.getLsbD 2 = true) ∨ (s.dev.fus.lcs = 3 ∧ s.dev.fus.vdbg = true) → s.portsRest 0x18 → s.calm 0x1F dUnit →
      Does .dbg s (fun t => t = (({ (runs 0x18) with dev.fus.dbgOpen := true } : State).raised t)))

/-- FUSE_PROG, LC_ADVANCE, VCHAL, VCHAL_RESPONSE and VCHAL_HOLD_EXPIRY: a fuse program ORs its value into its word where it is accepted and blows nothing where it is refused; an advance blows the group of its target and nothing else, takes effect at the
next hard reset, and is refused for another target, for an unmet condition, and, with FUSE_CHECK raised, for a wrong return token; a challenge is answered once, a wrong answer is counted, and three failures select BYPASS (R107, R109, R110, R118, R120). -/
def Obligations.LifeCycle : Prop :=
  ∀ (s : State), s.awake →
    let g := s.dev.fus
    let f0 : Fuse := { g with dbgOpen := false, chalHeld := false, chalLive := false, tdo := [] }
    let runs := fun (op : Nat) => ({ s with dev.fus := { f0 with inst := op } } : State)
    let refused : State := { s with dev.fus := { f0 with inst := 0x3F, tapRefused := true } }
    let word := fun (i : Nat) => tget 0 s.fuses i
    let blown := fun (i : Nat) (v : BitVec 32) => tput s.fuses i (word i ||| v)
    let open' := fun (n : Nat) (v : BitVec 32) (ok : Bool) => ok = true ∧ (g.lcs = 0 ∨ n = 1 ∨ (4 ≤ n ∧ n ≤ 12)) ∧ (n = 1 → v.toNat < 2 ^ 13) ∧ (4 ≤ n ∧ n ≤ 12 → (word 1).getLsbD 3 = false)
    (s.portsRest 0x3F → 2 ≤ g.lcs → ∀ n v ok ver, exec (.fuseProg n v ok ver) s = .next refused) ∧
    (s.portsRest 0x11 → g.lcs ≤ 1 → ∀ (n : Fin 32) (v : BitVec 32) (ok ver : Bool),
      (¬ open' n.val v ok → exec (.fuseProg n v ok ver) s = .next { (runs 0x11) with dev.fus.tdr := 2 }) ∧
      (open' n.val v ok → exec (.fuseProg n v ok true) s = .next { (runs 0x11) with dev.fus.tdr := 1, fuses := blown n.val v }) ∧
      (open' n.val v ok → Does (.fuseProg n v ok false) s (fun t => ∃ x, t = { (runs 0x11) with dev.fus.tdr := 3, dev.freeCtr := s.dev.freeCtr + 1, fuses := blown n.val (v &&& x) }))) ∧
    (s.portsRest 0x3F → g.lcs = 3 → ∀ x tok, exec (.lcAdvance x tok) s = .next refused) ∧
    (s.portsRest 0x12 → ∀ tok,
      let serial := word 2 ≠ 0 ∨ word 3 ≠ 0
      let vkey := ∃ k, k < 8 ∧ word (14 + k) ≠ 0
      let full := fun (k : Nat) => (word 0).toNat / 2 ^ (8 * k) % 256 = 255
      (g.lcs = 0 → serial → vkey → (word 1).getLsbD 8 = true → exec (.lcAdvance 1 tok) s = .next { (runs 0x12) with dev.fus.tdr := 1, fuses := blown 0 0xFF }) ∧
      (g.lcs = 0 → ¬ (serial ∧ vkey ∧ (word 1).getLsbD 8 = true) → exec (.lcAdvance 1 tok) s = .next { (runs 0x12) with dev.fus.tdr := 2 }) ∧
      (g.lcs = 0 → exec (.lcAdvance 2 tok) s = .next { (runs 0x12) with dev.fus.tdr := 2 } ∧ exec (.lcAdvance 3 tok) s = .next { runs 0x12 with dev.fus.tdr := 2 }) ∧
      (g.lcs = 1 → g.prot.getLsbD 0 = false ∨ g.keyOk = true → exec (.lcAdvance 2 tok) s = .next { (runs 0x12) with dev.fus.tdr := 1, dev.fus.fieldPend := true, fuses := blown 0 0xFF00 }) ∧
      (g.lcs = 1 → g.prot.getLsbD 0 = true → g.keyOk = false → exec (.lcAdvance 2 tok) s = .next { (runs 0x12) with dev.fus.tdr := 2 }) ∧
      (g.lcs = 1 → full 0 → exec (.lcAdvance 1 tok) s = .next { (runs 0x12) with dev.fus.tdr := 2 }) ∧
      (g.lcs = 1 ∨ g.lcs = 2 → exec (.lcAdvance 0 tok) s = .next { (runs 0x12) with dev.fus.tdr := 2 }) ∧
      (g.lcs = 2 → exec (.lcAdvance 1 tok) s = .next { (runs 0x12) with dev.fus.tdr := 2 }) ∧
      (g.lcs = 1 ∨ g.lcs = 2 → g.keyOk = true → tok ≠ some ((hmac g.key (mark4 0x56 0x4E 0x52 0x54 ++ le 8 g.serial.toNat)).take 16) → s.calm 0x1E dUnit →
        Does (.lcAdvance 3 tok) s (fun t => t = (({ (runs 0x12) with dev.fus.tdr := 2 } : State).raised t)))) ∧
    (s.portsRest 0x3F → g.lcs ≠ 3 ∨ 3 ≤ g.fails → exec .vchal s = .next refused) ∧
    (s.portsRest 0x1C → g.lcs = 3 → g.fails < 3 → Does .vchal s (fun t =>
      let held := decide (16 < s.dev.flt.vfail)
      t = { (runs 0x1C) with
        dev.sto := t.dev.sto, dev.freeCtr := s.dev.freeCtr + 4, dev.flt.vcount := (s.dev.flt.vcount + 1) % 2 ^ 64
        dev.fus := { f0 with inst := 0x1C, chal := t.dev.fus.chal, chalHeld := held, chalLive := !held, tdo := if held then [] else t.dev.fus.chal } } ∧
      t.dev.fus.chal.length = 32 ∧ t.dev.fus.chal.drop 16 = le 8 g.serial.toNat ++ le 8 ((s.dev.flt.vcount + 1) % 2 ^ 64))) ∧
    (g.inst = 0x1C → g.chalLive = true →
      exec (.vchalResponse (hmac g.vkey g.chal)) s = .next { s with dev.fus.vdbg := true, dev.fus.chalLive := false } ∧
      ∀ r, r ≠ hmac g.vkey g.chal → Does (.vchalResponse r) s (fun t =>
        t = { s with dev.sto := t.dev.sto, dev.fus.fails := min 3 (g.fails + 1), dev.fus.chalLive := false, dev.flt.vfail := min 0xFFFF (s.dev.flt.vfail + 1) })) ∧
    (g.inst ≠ 0x1C ∨ g.chalLive = false → ∀ r, exec (.vchalResponse r) s = .next s) ∧
    (exec .vchalHoldExpiry s = .next (if g.chalHeld then { s with dev.fus.chalHeld := false, dev.fus.chalLive := true, dev.fus.tdo := g.chal } else s))

/-! ## Faults (chapter 15) -/

/-- FAULT_RAISE, WIRE_FAULT and WIRE_FAULT_CLEAR: a raise of a source that its domain admits takes the first slot from its effective class up that is not ACTIVE: CLEAR becomes ACTIVE, STANDING stays as it is, and a raise that finds the lower slot ACTIVE escalates.
The first raise is captured and a later one counted; other slots and sources stay as they are. A pair at equal levels is taken at U or above, and on the board die it waits in a STATUS page 3 packet; while it is there its source raises nothing. A unit-domain F is
the fatal state. Stated for reaction words with RESET = 0, the F for a unit that does not hold the baton (R292, R293, R295, R296, R297, R299).
FLT_ACK, FLT_FKEY, FORCE_RAISE, FORCE_WIRE00, FORCE_WIRE11, QUIET_END and WREN_TOGGLE: an acknowledgement takes the slots of its domain that hold its source to CLEAR, and is DENIED for another tenant's domain, a tenant's own F, a source whose wire fault is present,
no domain and a unit in hard stop; a force raises its source as if it had signalled, and is DENIED without the rights of R117, without the key sequence in FIELD, and for a source or domain that cannot be raised; a quiet end recovers a slot with AUTO and makes another
STANDING; WREN toggles unless a fault holds it. Stated for a unit out of hard stop where it completes (R117, R301, R302, R303, R304, R306). -/
def Obligations.Faults : Prop :=
  (∀ (s : State) (x : Fin 96) (d : Fin 6) (det a : Word), s.rack →
     let f := s.dev.flt
     let ok := (if tenantSrc x.val then d.val < 5 else d.val = 5) ∧ reservedSrc x.val = false ∧ f.wired x.val = false
     let eff := s.dev.img.cfg.flt.effClass x.val
     let i : RaiseInfo := { detail := det.toNat, addr := a.toNat, ten := if d.val < 5 then d.val else 7 }
     let wi : RaiseInfo := { wire := true, ten := if d.val < 5 then d.val else 7 }
     let slot := fun (c : Nat) => (f.slot d.val c).st
     (¬ ok → exec (.faultRaise x d det a) s = .next s) ∧
     (ok → eff ≤ 1 → slot eff = 0 → s.noReset x.val d.val eff →
       Does (.faultRaise x d det a) s (fun t => t = s.raised t ∧ s.captured t x.val d.val i eff false (s.activated x.val d.val eff false))) ∧
     (ok → eff = 0 → slot 0 = 1 → slot 1 = 0 → s.noReset x.val d.val 1 →
       Does (.faultRaise x d det a) s (fun t => t = s.raised t ∧ s.captured t x.val d.val i 1 true (s.activated x.val d.val 1 true))) ∧
     (ok → eff ≤ 1 → slot eff = 2 → Does (.faultRaise x d det a) s (fun t => t = s.raised t ∧ s.captured t x.val d.val i eff false f.slots)) ∧
     (ok → d = 5 → eff = 2 → slot 2 = 0 → f.fpend = [] → s.dev.pai.role ≠ 3 →
       Does (.faultRaise x d det a) s (fun t => t = s.raised t ∧ t.dev.flt.fatal = true ∧ s.captured t x.val 5 i 2 false (s.activated x.val 5 2 false))) ∧
     (ok → boardSrc x.val = false → eff ≤ 1 → slot 1 = 0 → s.noReset x.val d.val 1 →
       Does (.wireFault x d) s (fun t => t = s.raised t ∧ t.dev.flt.wired x.val = true ∧ s.captured t x.val d.val wi 1 false (s.activated x.val d.val 1 false))) ∧
     (ok → boardSrc x.val = true → s.dev.bd.core = true →
       exec (.wireFault x d) s = .next { s with dev.bd.outS := addEvent { source := x.val, wire := true, dom := d.val, detail := 0 } s.dev.bd.outS }) ∧
     (f.wired x.val = true → exec (.wireFault x d) s = .next s) ∧
     (exec (.wireFaultClear x) s = .next { s with dev.flt.wires := tdel f.wires x.val })) ∧
  (∀ (s : State) (t : Ten) (x : BitVec 7) (dc : BitVec 3) (d : Nat), s.rack →
     let f := s.dev.flt
     let n := x.toNat
     let key := s.dev.fus.lcs ≠ 2 ∨ (s.dev.fus.prot.getLsbD 12 = false ∧ f.fkey = 2 ∧ s.dev.tim.mono ≤ f.fkeyT + 1000000)
     let may := s.dev.barred t.val = false ∧ (f.fatal = false ∨ t = 4)
     let forces := t = 4 ∧ s.dev.fus.lcs ≠ 3 ∧ key
     let named := domOf dc.toNat = some d
     let open' : State := { s with dev.flt.fkey := 0 }
     let raises := (if tenantSrc n then d < 5 else d = 5) ∧ reservedSrc n = false ∧ f.wired n = false
     let i : RaiseInfo := { forced := true, ten := if d < 5 then d else 7 }
     let eff := s.dev.img.cfg.flt.effClass n
     (may → f.stopped dUnit = false →
       (domOf dc.toNat = none ∨ f.wired n = true ∨ (named ∧ t ≠ 4 ∧ (t.val ≠ d ∨ f.tenantF n d = true)) → exec (.fltAck t x dc) s = .next s.denied) ∧
       (named → f.wired n = false → t = 4 ∨ (t.val = d ∧ f.tenantF n d = false) → f.holds n d = false → exec (.fltAck t x dc) s = .next s.okAcc) ∧
       (named → f.wired n = false → t = 4 ∨ (t.val = d ∧ f.tenantF n d = false) → f.holds n d = true → f.stopOf d = [] →
         Does (.fltAck t x dc) s (fun u => u = s.okAcc.raised u ∧ u.dev.flt.caps = (if (tget ({} : Capture) f.caps n).held then tput f.caps n { tget ({} : Capture) f.caps n with held := false } else f.caps) ∧ u.dev.flt.hstop = tdel f.hstop d ∧
           u.dev.flt.slots = f.slots.map (fun e => if e.1 / 3 = d ∧ e.2.src = n ∧ e.2.st ≠ 0 then (e.1, {}) else e)))) ∧
     (s.dev.barred t.val = false → f.stopped dUnit = true → exec (.fltAck t x dc) s = .next s.denied ∧ (f.fkey = 0 → exec (.forceRaise t x dc) s = .next s.denied)) ∧
     (s.writer t → t ≠ 4 → ∀ k, exec (.fltFkey t k) s = .next s.denied) ∧
     (s.dev.barred 4 = false → ∀ k : BitVec 16, exec (.fltFkey 4 k) s = .next (({ s with
       dev.flt.fkey := if k = 0xA55A then 1 else if k = 0x5AA5 ∧ f.fkey = 1 ∧ s.dev.tim.mono ≤ f.fkeyT + 1000000 then 2 else 0
       dev.flt.fkeyT := s.dev.tim.mono } : State).okAcc)) ∧
     (may → f.stopped dUnit = false →
       (¬ forces ∨ domOf dc.toNat = none ∨ reservedSrc n = true → exec (.forceRaise t x dc) s = .next open'.denied ∧ exec (.forceWire00 t x dc) s = .next open'.denied ∧ exec (.forceWire11 t x dc) s = .next open'.denied) ∧
       (boardSrc n = true → exec (.forceWire00 t x dc) s = .next open'.denied ∧ exec (.forceWire11 t x dc) s = .next open'.denied) ∧
       (forces → named → raises → eff ≤ 1 → (f.slot d eff).st = 0 → s.noReset n d eff →
         Does (.forceRaise t x dc) s (fun u => u = open'.okAcc.raised u ∧ open'.captured u n d i eff false (s.activated n d eff false))) ∧
       (forces → named → raises → boardSrc n = false → eff ≤ 1 → (f.slot d 1).st = 0 → s.noReset n d 1 → ∀ c, c = Instr.forceWire00 t x dc ∨ c = Instr.forceWire11 t x dc →
         Does c s (fun u => u = open'.okAcc.raised u ∧ u.dev.flt.wires = tdel (tput f.wires n d) n ∧ u.dev.flt.slots = s.activated n d 1 false))) ∧
     (∀ (d : Fin 6) (c : Fin 3),
       let sl := f.slot d.val c.val
       let recovers := tbit sl.word 13 = true ∧ f.wired sl.src = false ∧ f.stopped d.val = false
       (sl.st ≠ 1 → exec (.quietEnd d c) s = .next s) ∧
       (sl.st = 1 → (d ≠ 5 ∨ c ≠ 2) → ¬ recovers → Does (.quietEnd d c) s (fun u => u = (({ s with dev.flt := f.setSlot d.val c.val { sl with st := 2 } } : State).logged u))) ∧
       (sl.st = 1 → (d ≠ 5 ∨ c ≠ 2) → recovers → Does (.quietEnd d c) s (fun u => u = s.raised u ∧ u.dev.flt.slots = tput f.slots (3 * d.val + c.val) {} ∧ u.dev.flt.recov = satAdd 16 f.recov 1 ∧
         u.dev.flt.caps = tput f.caps sl.src { tget {} f.caps sl.src with held := false } ∧ u.dev.flt.hstop = f.hstop))) ∧
     (exec .wrenToggle s = .next { s with dev.flt.wren := if s.dev.wrenHeld || !s.dev.img.woven then false else !f.wren }))

/-! ## Time (chapter 16) -/

/-- TPI, REFERENCE_LOSS, THOLD_MAX_EXPIRY, CRYSTAL_LOST, CRYSTAL_RESTORED and SLEW_DONE: the first edge is a candidate, an inconsistent one is counted and becomes the candidate, and a consistent one is accepted. An offset below STEPTHR corrects the rate by one eighth of its
error and is slewed, one at or above it sets STEP_PEND, and the next accepted edge then steps NOW, raises TIME_STEP and sends a time chunk. A lost reference ends in HOLDOVER, or on the ring, and THOLD_MAX in FREE. Acceptance is stated for a unit in ACQUIRE, where an edge
aligns NOW or sets it to TIM_NEXT, and for one locked on TPI, without a crystal and with its quality known to the board die (R312, R313, R315, R316, R318, R319).
TIME_SEND, TPO_RISE, TPO_FALL, TIM_SET_HI, TIM_NEXT_HI, TIM_NOW_LO_READ and TIM_MONO_LO_READ: the master sends a TIME frame once the time is set, and clears DISC; TPO rises only when the time is set, outside DORMANT and hard reset, and skips the one pulse that a step omitted;
TIM_SET sets NOW and, in ACQUIRE, moves to FREE, with TIME_STEP where the time was set before; TIM_NEXT is armed; both are DENIED to another tenant, and to TS while LOCKED with the time set; a read of a low word latches the high word for its reader alone (R314, R319, R320, R321, R325). -/
def Obligations.Time : Prop :=
  (∀ (s : State), s.rack →
     let x := s.dev.tim
     let c := s.dev.img.cfg.time
     let per := c.tper * 1000000
     let tol := per / 1000 + 1000
     let consistent := fun (m : Nat) => per ≤ x.mono - m + tol ∧ x.mono - m ≤ per + tol
     let r := (x.now + per / 2) / per * per
     let off : Int := (x.now : Int) - (r : Int)
     let thr : Int := (c.stepthr * 1000 : Nat)
     let shown := max (-2147483648) (min 2147483647 off)
     let locked := c.srcTpi = true ∧ s.dev.sup.mode ≠ 2 ∧ x.state = 1 ∧ x.src = 1 ∧ x.tset = true ∧ x.nextArm = none ∧ x.xtalOk = false ∧ x.chunkQ = 0 ∧ (x.stepPend = true → x.heldQual = 0)
     let taken : TimeSt := { x with accTpi := some x.mono, candTpi := some x.mono, off := shown }
     (c.srcTpi = false ∨ s.dev.sup.mode = 2 → exec .tpi s = .next s) ∧
     (c.srcTpi = true → s.dev.sup.mode ≠ 2 → x.candTpi = none → exec .tpi s = .next { s with dev.tim.candTpi := some x.mono }) ∧
     (∀ m, c.srcTpi = true → s.dev.sup.mode ≠ 2 → x.candTpi = some m → ¬ consistent m →
       exec .tpi s = .next { s with dev.tim.candTpi := some x.mono, dev.tim.tpiBad := satAdd 8 x.tpiBad 1 }) ∧
     (∀ m, locked → x.candTpi = some m → consistent m →
       (-thr < off → off < thr → Does .tpi s (fun t => t = (({ s with dev.tim := { taken with
         stepPend := false, fcorr := max (-524288) (min 524287 (x.fcorr - (off * 1000000000).tdiv (8 * per : Nat))), slewLeft := -off * (2 ^ 32 : Nat) } } : State).logged t))) ∧
       (thr ≤ off ∨ off ≤ -thr → x.stepPend = false → Does .tpi s (fun t => t = (({ s with dev.tim := { taken with stepPend := true, slewLeft := 0, heldQual := 0 } } : State).logged t))) ∧
       (thr ≤ off ∨ off ≤ -thr → x.stepPend = true → x.tpoRise = none → s.calm 0x59 dUnit → s.dev.bar.bAlive = true → Does .tpi s (fun t =>
         t = (({ s with dev.tim := { taken with
           now := r % 2 ^ 64, nowFrac := 0, slewLeft := 0, stepPend := false, tset := true, stepno := (x.stepno + 1) % 256, disc := r % 2 ^ 64, discFlag := true, steps := satAdd 8 x.steps 1, tpoSkip := false } } : State).raised t) ∧
         ∃ l, t.dev.arb.ctl = l ++ [{ body := .timeChunk t.dev.tim.chunk }]))) ∧
     (∀ m, c.srcTpi = true → s.dev.sup.mode ≠ 2 → x.state = 0 → x.src = 0 → x.tset = false → x.xtalOk = false → x.chunkQ = 3 → x.candTpi = some m → consistent m →
       (x.nextArm = none → Does .tpi s (fun t => t = (({ s with dev.tim := { x with accTpi := some x.mono, candTpi := some x.mono, state := 1, src := 1, now := r, nowFrac := 0 } } : State).logged t))) ∧
       (∀ n, x.nextArm = some n → Does .tpi s (fun t => t = (({ s with dev.tim := { x with accTpi := some x.mono, candTpi := some x.mono, state := 1, src := 1, nextArm := none, now := n % 2 ^ 64, nowFrac := 0, slewLeft := 0, stepPend := false, tset := true, stepno := (x.stepno + 1) % 256, disc := n % 2 ^ 64, discFlag := true, tpoSkip := false, chunkQ := 0 }, dev.arb.ctl := t.dev.arb.ctl } : State).logged t) ∧
         t.dev.arb.ctl = (if s.dev.bar.bAlive then s.dev.arb.ctl ++ [{ body := .timeChunk t.dev.tim.chunk }] else s.dev.arb.ctl)))) ∧
     (x.state ≠ 1 → exec .referenceLoss s = .next s) ∧
     (x.state = 1 → x.src = 1 → c.srcRing = true → x.accTime ≠ none → s.calm 0x58 dUnit → Does .referenceLoss s (fun t =>
       t = (({ s with dev.tim := { x with accTpi := none, candTpi := none, src := 2, chunkQ := t.dev.tim.qual } } : State).raised t))) ∧
     (x.state = 1 → (x.src ≠ 1 ∨ c.srcRing = false ∨ x.accTime = none) → s.calm 0x58 dUnit → Does .referenceLoss s (fun t =>
       t = (({ s with dev.tim := { x with accTpi := none, candTpi := none, accTime := none, candTime := none, src := 0, stepPend := false, holdT0 := x.mono, holds := satAdd 8 x.holds 1, state := 2, chunkQ := if x.tset then 1 else 3 } } : State).raised t))) ∧
     (x.state = 2 → s.calm 0x58 dUnit → Does .tholdMaxExpiry s (fun t => t = (({ s with dev.tim := { x with state := 3, chunkQ := t.dev.tim.qual } } : State).raised t))) ∧
     (x.state ≠ 2 → exec .tholdMaxExpiry s = .next s) ∧
     (c.xtal = true → x.xtalOk = true → s.calm 0x58 dUnit → Does .crystalLost s (fun t => t = (({ s with dev.tim.xtalOk := false } : State).raised t))) ∧
     (c.xtal = false ∨ x.xtalOk = false → exec .crystalLost s = .next s) ∧
     (exec .crystalRestored s = .next (if c.xtal then { s with dev.tim.xtalOk := true } else s)) ∧
     (let n := ((x.now * 2 ^ 32 + x.nowFrac : Nat) + x.slewLeft : Int).toNat
      exec .slewDone s = .next { s with dev.tim := { x with slewLeft := 0, now := n / 2 ^ 32 % 2 ^ 64, nowFrac := n % 2 ^ 32 } })) ∧
  (∀ (s : State) (u : Ten) (v : Word), s.rack →
     let x := s.dev.tim
     let c := s.dev.img.cfg.time
     let may := u = 4 ∧ (x.state ≠ 1 ∨ x.tset = false)
     let lo := (s.dev.ten 4).setLo.toNat
     let n := (v.toNat * 2 ^ 32 + lo) % 2 ^ 64
     let now' : TimeSt := { x with now := n, nowFrac := 0, slewLeft := 0, stepPend := false, tset := true, stepno := (x.stepno + 1) % 256, disc := n, discFlag := true }
     (c.master = false ∨ x.tset = false ∨ s.dev.sup.mode = 2 → exec .timeSend s = .next s) ∧
     (c.master = true → x.tset = true → s.dev.sup.mode ≠ 2 → Does .timeSend s (fun t =>
       t = (({ s with dev.tim.discFlag := false, dev.freeCtr := s.dev.freeCtr + 1 } : State).raised t) ∧ t.dev.flt = s.dev.flt ∧ t.dev.hpt = s.dev.hpt)) ∧
     (x.tset = false ∨ x.tpo = true ∨ s.dev.sup.mode = 2 ∨ s.dev.rst.held = true → exec .tpoRise s = .next s) ∧
     (x.tset = true → x.tpo = false → s.dev.sup.mode ≠ 2 → s.dev.rst.held = false →
       exec .tpoRise s = .next (if x.tpoSkip then { s with dev.tim.tpoSkip := false } else { s with dev.tim.tpo := true, dev.tim.tpoRise := some x.mono })) ∧
     (exec .tpoFall s = .next { s with dev.tim.tpo := false }) ∧
     (s.writer u → ¬ may → exec (.timSetHi u v) s = .next s.denied ∧ exec (.timNextHi u v) s = .next s.denied) ∧
     (s.writer 4 → (x.state ≠ 1 ∨ x.tset = false) → exec (.timNextHi 4 v) s = .next (({ s with dev.tim.nextArm := some (v.toNat * 2 ^ 32 + (s.dev.ten 4).nextLo.toNat) } : State).okAcc)) ∧
     (s.writer 4 → x.tset = false → x.tpoRise = none → Does (.timSetHi 4 v) s (fun t =>
       t = (({ s with dev.tim := { now' with state := if x.state = 0 then 3 else x.state, holdT0 := if x.state = 0 then x.mono else x.holdT0, tpoSkip := false, chunkQ := t.dev.tim.qual } } : State).okAcc.raised t) ∧
       t.dev.flt = s.dev.flt ∧ (s.dev.bar.bAlive = true → ({ body := .timeChunk t.dev.tim.chunk } : Pkt) ∈ t.dev.arb.ctl))) ∧
     (s.writer 4 → x.tset = true → x.state = 2 ∨ x.state = 3 → x.tpoRise = none → s.calm 0x59 dUnit → Does (.timSetHi 4 v) s (fun t =>
       t = (({ s with dev.tim := { now' with steps := satAdd 8 x.steps 1, tpoSkip := false, chunkQ := t.dev.tim.qual } } : State).okAcc.raised t) ∧
       (s.dev.bar.bAlive = true → ∃ l, t.dev.arb.ctl = l ++ [{ body := .timeChunk t.dev.tim.chunk }]))) ∧
     (s.dev.barred u.val = false → exec (.timNowLoRead u) s = .next (({ s with dev.tens := lmod s.dev.tens u.val (fun y => { y with latchNow := BitVec.ofNat 32 (x.now / 2 ^ 32) }) } : State).okAcc (BitVec.ofNat 32 (x.now % 2 ^ 32)))) ∧
     (s.dev.barred u.val = false → exec (.timMonoLoRead u) s = .next (({ s with dev.tens := lmod s.dev.tens u.val (fun y => { y with latchMono := BitVec.ofNat 32 (x.mono / 2 ^ 32) }) } : State).okAcc (BitVec.ofNat 32 (x.mono % 2 ^ 32)))))

/-! ## Board identity (chapter 17) -/

/-- IDENTITY_READ, STRAP_PHASE_END, IDS_CONVERSION and EEPROM_READ_DONE: an identity read starts where the board die drives a board with VB3 up and no write-back runs, an attach or a re-read of a PRESENT board; the first strap phase is held, the second gives the strap digits, the conversion gives the IDS
code, and once both are there the summary goes in STATUS page 4 and the EEPROM read starts; its 22 pages follow, or the summary says why there are none. The second strap phase is stated for lanes that follow the pulls or are tied (R328, R329, R330, R331; Table 17.6). -/
def Obligations.IdentityReads : Prop :=
  ∀ (s : State),
    let b := s.dev.bd
    let p := b.probe
    let c := b.cfg.id
    let page4 := fun (b : Board) => b.tells [.page4 { b.probe.sum with phase := b.probe.phase }]
    let ready := b.tabs = true ∧ b.parked = false ∧ b.up.getLsbD 3 = true ∧ b.pstate ≠ 0 ∧ s.dev.idn.wbState ≠ 2
    let after1 : Board → Board := fun b => page4 { b with probe := { b.probe with phase := if c.eeEn then 2 else 0 } }
    let code := fun (r : Nat) => if r * 100 < 256 then 17 else if 32 * 256 ≤ r * 34 then 16 else r * 17 / 256
    (s.rack → s.board → ∀ r, (¬ ready ∨ (r ≠ IdReason.attach ∧ b.pstate ≠ 2)) → exec (.identityRead r) s = .next s) ∧
    (s.rack → s.board → ready →
      (c.idsEn = true ∨ c.strapEn = true →
        exec (.identityRead .attach) s = .next { s with
          dev.bd := { b with probe := { p with phase := 1, sum := {}, strap1 := none, idsDone := !c.idsEn, strapDone := !c.strapEn } }
          dev.idn := { s.dev.idn with
            astate := 1, t0 := s.dev.tim.now, t0q := s.dev.tim.qual, reread := false, pages := 0, rbuf := [], attaches := s.dev.idn.attaches + 1, lfsrc := 0, lfcls := 0, presentT0 := s.dev.tim.mono } } ∧
        ∀ r, r ≠ IdReason.attach → b.pstate = 2 → exec (.identityRead r) s = .next { s with
          dev.bd := { b with probe := { p with phase := 1, sum := {}, strap1 := none, idsDone := !c.idsEn, strapDone := !c.strapEn } }
          dev.idn := { s.dev.idn with astate := 1, t0 := s.dev.tim.now, t0q := s.dev.tim.qual, reread := true, pages := 0, rbuf := [] } }) ∧
      (c.idsEn = false → c.strapEn = false →
        exec (.identityRead .attach) s = .next { s with
          dev.bd := after1 { b with probe := { p with phase := 1, sum := {}, strap1 := none, idsDone := true, strapDone := true } }
          dev.idn := { s.dev.idn with
            astate := 1, t0 := s.dev.tim.now, t0q := s.dev.tim.qual, reread := false, pages := 0, rbuf := [], attaches := s.dev.idn.attaches + 1, lfsrc := 0, lfcls := 0, presentT0 := s.dev.tim.mono } })) ∧
    (s.board → (p.phase ≠ 1 ∨ p.strapDone = true) → ∀ l, exec (.strapPhaseEnd l) s = .next s) ∧
    (s.board → p.phase = 1 → p.strapDone = false → p.strap1 = none → ∀ l, exec (.strapPhaseEnd l) s = .next (s.withBoard { b with probe := { p with strap1 := some l } })) ∧
    (s.board → p.phase = 1 → p.strapDone = false → ∀ l1 l2, p.strap1 = some l1 → ~~~l1 &&& l2 &&& c.strapMask = 0 → Does (.strapPhaseEnd l2) s (fun t =>
      let done : Board := { b with
        lanes := t.dev.bd.lanes
        probe := { p with strapDone := true, sum := { p.sum with strapH := c.strapMask &&& (l1 &&& l2), strapZ := c.strapMask &&& (l1 &&& ~~~l2) } } }
      t = s.withBoard (if p.idsDone then after1 done else done) ∧
      ∀ n, t.dev.bd.lane n = if 24 ≤ n ∧ n < 32 ∧ c.strapMask.getLsbD (n - 24) = true then { b.lane n with pin := l2.getLsbD (n - 24) } else b.lane n)) ∧
    (s.board → (p.phase ≠ 1 ∨ p.idsDone = true) → ∀ r, exec (.idsConversion r) s = .next s) ∧
    (s.board → p.phase = 1 → p.idsDone = false → ∀ r,
      let done : Board := { b with probe := { p with idsDone := true, sum := { p.sum with ids := code r } } }
      exec (.idsConversion r) s = .next (s.withBoard (if p.strapDone then after1 done else done))) ∧
    (s.board → p.phase ≠ 2 → ∀ h, exec (.eepromReadDone h) s = .next s) ∧
    (s.board → p.phase = 2 →
      exec (.eepromReadDone .noAck) s = .next (s.withBoard (page4 { b with probe := { p with phase := 0, nacks := satAdd 8 p.nacks 1, sum := { p.sum with eestat := 1 } } })) ∧
      exec (.eepromReadDone .busError) s = .next (s.withBoard (page4 { b with probe := { p with phase := 0, nacks := satAdd 8 p.nacks 1, sum := { p.sum with eestat := 3 } } })) ∧
      ∀ bs, bs.length = 256 → exec (.eepromReadDone (.data bs)) s = .next (s.withBoard ((page4 { b with probe := { p with phase := 0, sum := { p.sum with eestat := 2 } } }).tells
        ((List.range 22).map (fun k => .eeprom (16 + k) (padTo 12 ((bs.drop (12 * k)).take 12)))))))

/-- IDN_WB, WRITEBACK_START, WRITEBACK_POLL, WRITEBACK_TIMEOUT and WRITEBACK_VERIFY: a write-back is requested by TS with the key on a PRESENT board with a log, waits in a brown notice or with VB3 low, and starts with the highest page of the slot that is not current; a poll with an ACK sends the
next page or ends in the verify read; 10 ms without one ends it TIMEOUT; a verify that agrees makes the target current, one that differs repeats the write once and then ends it VERIFY_FAIL (R335, R336, R338, R339). -/
def Obligations.WriteBacks : Prop :=
  ∀ (s : State) (u : Ten) (note : Bool) (key : BitVec 16), s.rack →
    let i := s.dev.idn
    let p := s.dev.bd.probe
    let vb3 := s.dev.sup.up.getLsbD 3 = true ∧ s.dev.sup.low.getLsbD 3 = false
    let allowed := i.wbState = 0 ∧ i.eestat = 2 ∧ i.tsirOk = true ∧ i.logslots = 2 ∧ s.dev.bar.pstate = 2
    let starts := (i.wbState = 1 ∨ i.wbState = 3) ∧ i.astate ≠ 1 ∧ s.dev.sup.notice = false ∧ vb3 ∧ s.dev.bd.core = true ∧ s.dev.bd.pstate = 2
    let pages := 64 / (8 * 2 ^ s.dev.bd.cfg.id.page)
    (s.writer u → (u ≠ 4 ∨ key ≠ 0x1D5B ∨ ¬ allowed) → exec (.idnWb u note key) s = .next s.denied) ∧
    (s.writer 4 → allowed → vb3 → s.dev.sup.notice = false → exec (.idnWb 4 note 0x1D5B) s = .next (({ s with dev.idn.wbState := 1, dev.idn.wbNote := note } : State).okAcc)) ∧
    (s.writer 4 → allowed → ¬ vb3 ∨ s.dev.sup.notice = true →
      exec (.idnWb 4 note 0x1D5B) s = .next (({ s with dev.idn.wbState := 3, dev.idn.wbNote := note, dev.sup.defer := s.dev.sup.defer ++ [Deferred.writeback] } : State).okAcc)) ∧
    (¬ starts → exec .writebackStart s = .next s) ∧
    (starts → i.notes.length = 8 → Does .writebackStart s (fun t =>
      t = { s with
        dev.sup.defer := s.dev.sup.defer.filter (fun d => d != Deferred.writeback)
        dev.bd.probe := { p with phase := 3, wbTarget := if i.slot = 1 then 1 else 0, wbRec := t.dev.idn.wbRec, wbPage := pages - 1, wbTry := 0 }
        dev.idn := { i with wbState := 2, wbStep := 4, wbTarget := if i.slot = 1 then 1 else 0, wbRec := t.dev.idn.wbRec, wbResult := 0 } } ∧
      t.dev.idn.wbRec.length = 64 ∧ at' t.dev.idn.wbRec 0 4 = (i.logseq + 1) % 2 ^ 32 ∧ at' t.dev.idn.wbRec 62 2 = crc16 (t.dev.idn.wbRec.take 62) % 65536)) ∧
    (i.wbState ≠ 2 ∨ i.wbStep ≠ 4 → (∀ a, exec (.writebackPoll a) s = .next s) ∧ exec .writebackTimeout s = .next s) ∧
    (i.wbState = 2 → i.wbStep = 4 →
      exec (.writebackPoll false) s = .next { s with dev.bd.probe.nacks := satAdd 8 p.nacks 1 } ∧
      exec (.writebackPoll true) s = .next (if p.wbPage = 0 then { s with dev.idn.wbStep := 5 } else { s with dev.bd.probe.wbPage := p.wbPage - 1 }) ∧
      (s.calm 0x5B dUnit → Does .writebackTimeout s (fun t => t = (({ s with dev.idn.wbState := 0, dev.idn.wbResult := 3, dev.bd.probe.phase := 0 } : State).raised t)))) ∧
    (i.wbState ≠ 2 ∨ i.wbStep ≠ 5 → ∀ bs, exec (.writebackVerify bs) s = .next s) ∧
    (i.wbState = 2 → i.wbStep = 5 →
      Does (.writebackVerify i.wbRec) s (fun t =>
        let hours := (s.dev.tim.mono - i.presentT0) / 3600000000000
        t = { s with
          dev.sto := t.dev.sto
          dev.bd.probe.phase := 0
          dev.idn := { i with
            wbState := 0, wbResult := 1, bytes := i.bytes.take (128 + 64 * i.wbTarget) ++ i.wbRec ++ i.bytes.drop (192 + 64 * i.wbTarget), slot := i.wbTarget + 1, logseq := i.logseq + 1,
            wbCount := satAdd 16 i.wbCount 1, attaches := 0, presentT0 := i.presentT0 + hours * 3600000000000, aOk := i.aOk || i.wbTarget == 0, bOk := i.bOk || i.wbTarget == 1 } } ∧
        s.dev.sto.own <+: t.dev.sto.own) ∧
      (∀ bs, bs ≠ i.wbRec → p.wbTry = 0 → exec (.writebackVerify bs) s = .next { s with dev.bd.probe.wbTry := 1, dev.bd.probe.wbPage := pages - 1, dev.idn.wbStep := 4 }) ∧
      (∀ bs, bs ≠ i.wbRec → p.wbTry ≠ 0 → s.calm 0x5B dUnit → Does (.writebackVerify bs) s (fun t =>
        t = (({ s with dev.idn.wbState := 0, dev.idn.wbResult := 4, dev.bd.probe.phase := 0 } : State).raised t))))

/-! ## Check-value units (chapter 14) -/

/-- CK_FEED, START and CK_RUN_WRITE: the tenant named in FOWNER, and TS, load INIT, write the low W bits of the running value, and fold COUNT bytes into it, byte 0 first; any other tenant, an undefined unit and a COUNT of 0 are DENIED. SELF_TEST: fixed checkers that give their values leave no mark and
raise nothing; a fixed checker, or a defined unit, that first fails raises FIX_SELF or CK_SELF with its number, and the unit is FAILED. Each use of a unit names itself its user (R281, R287, R288, R289). -/
def Obligations.CheckUnits : Prop :=
  ∀ (s : State) (t : Ten) (u : Fin 4) (v : Word), s.rack →
    let c := s.dev.img.cfg.ck u.val
    let feeds := (t = 4 ∨ c.fowner = t.val) ∧ c.width ≠ 0
    let count := fld v.toNat 24 2
    let runs := fun (x : BitVec 32) => ({ s with dev.cks := lmod s.dev.cks u.val (fun y => { y with run := x }) } : State).okAcc
    let tested := fun (y : CkUnit) => ({ y with user := some (3, 0) } : CkUnit)
    (s.writer t → ¬ feeds → exec (.ckFeed t u v) s = .next s.denied ∧ exec (.start t u) s = .next s.denied ∧ exec (.ckRunWrite t u v) s = .next s.denied) ∧
    (s.writer t → feeds →
      (count = 0 → exec (.ckFeed t u v) s = .next s.denied) ∧
      (count ≠ 0 → Does (.ckFeed t u v) s (fun n => n = (({ s with dev.cks := lmod s.dev.cks u.val (fun y => { y with
        user := some (2, 0), run := BitVec.ofNat 32 (crcFold c.params y.run.toNat ((le 3 v.toNat).take count)) }) } : State).okAcc).logged n)) ∧
      exec (.start t u) s = .next (runs c.init) ∧
      exec (.ckRunWrite t u v) s = .next (runs (BitVec.ofNat 32 (v.toNat % 2 ^ c.width)))) ∧
    ((∀ k < 4, (s.dev.img.cfg.ck k).width = 0) →
      (∀ b, exec (.selfTest 0x7F b) s = .next { s with dev.fixBad := 0 }) ∧
      ∀ (k : Fin 7) (b : BitVec 4), s.dev.fixBad.getLsbD k.val = false → s.calm 0x53 dUnit →
        Does (.selfTest (~~~(BitVec.ofNat 7 (2 ^ k.val))) b) s (fun n => n = ({ s with dev.fixBad := BitVec.ofNat 7 (2 ^ k.val) } : State).raised n)) ∧
    (c.width ≠ 0 → (∀ k < 4, k ≠ u.val → (s.dev.img.cfg.ck k).width = 0) →
      Does (.selfTest 0x7F 0xF) s (fun n => n = ({ s with dev.fixBad := 0, dev.cks := lmod s.dev.cks u.val tested } : State).logged n) ∧
      ((s.dev.ckUnit u.val).failed = false → s.calm 0x52 dUnit →
        Does (.selfTest 0x7F (~~~(BitVec.ofNat 4 (2 ^ u.val)))) s (fun n =>
          n = ({ s with dev.fixBad := 0, dev.cks := lmod s.dev.cks u.val (fun y => { tested y with failed := true }) } : State).raised n)))

/-! ## Record store, order log and replay (chapter 18) -/

/-- WINDOW_WRITE, WINDOW_LINE_COMMIT_START and LINE_COMMIT_DONE: a word that Table 1.6 lets the tenant write is merged into its line's staged content, or staged in a new place with the rest of the line as it reads, and reads back at once; the sixteenth staged line starts every commit, and a full staging memory answers
TIMEOUT. The oldest staged line starts its commit outside a brown notice, and the end of a commit puts the started line's 64 bytes in its home line and nothing elsewhere, order-log and fault-log lines first (R71, R344, R345, R346; Table 1.6). -/
def Obligations.RecordStore : Prop :=
  ∀ (s : State) (t : Ten) (off : BitVec 18) (v : Word),
    let a := off.toNat
    let n := a / 64
    let o := a % 64
    let d := s.dev
    let win := d.sto.win
    let rights := ¬ (d.fus.lcs = 3 ∧ d.fus.vdbg = false) ∧
      (a < 0x10000 → d.fus.prot.getLsbD (4 + t.val) = true ∧ (load s).activeBank ≠ some (a / 0x8000) ∧ d.img.phase = 0 ∧ a % 0x8000 < 0x7FC0) ∧
      (0x10000 ≤ a → a < 0x30000 → t = 4 ∧ d.log.lstate = 3) ∧ (0x30000 ≤ a → 0x3A000 ≤ a)
    let staged := ∃ l ∈ win, l.line = n ∧ l.started = false
    let put := fun (x : List Byte) => x.take o ++ le 4 v.toNat ++ x.drop (o + 4)
    let fresh : SLine := { line := n, data := put ((load s).line n) }
    let homed := fun (l : SLine) (st : Store) (u : State) =>
      u = { s with store := u.store, dev.sto := { st with badOne := d.sto.badOne.filter (· != l.line), badTwo := d.sto.badTwo.filter (· != l.line) } } ∧
      ∀ x, mget u.store x = if l.line * 64 ≤ x ∧ x < l.line * 64 + 64 then l.data.getD (x - l.line * 64) 0 else mget s.store x
    (s.rack → s.writer t → a % 4 = 0 →
      (¬ rights → exec (.windowWrite t off v) s = .next s.denied) ∧
      (rights → staged → exec (.windowWrite t off v) s = .next (({ s with
        dev.sto.win := win.map (fun l => if l.line == n && !l.started then { l with data := put l.data } else l) } : State).okAcc)) ∧
      (rights → ¬ staged → win.length < 16 → Does (.windowWrite t off v) s (fun u =>
        u = ({ s with dev.sto.win := if win.length = 15 ∧ d.sup.notice = false then (win ++ [fresh]).map (fun l => { l with started := true }) else win ++ [fresh] } : State).okAcc ∧
        (((load s).line n).length = 64 → at' ((load u).line n) o 4 = v.toNat))) ∧
      (rights → ¬ staged → 16 ≤ win.length → exec (.windowWrite t off v) s = .next { s with dev.acc := { status := stTIMEOUT, value := 0 } })) ∧
    (s.awake →
      (d.sup.notice = true ∨ (∀ l ∈ win, l.started = true) → exec .windowLineCommitStart s = .next s) ∧
      (∀ x l y, d.sup.notice = false → win = x ++ l :: y → (∀ e ∈ x, e.started = true) → l.started = false →
        exec .windowLineCommitStart s = .next { s with dev.sto.win := x ++ { l with started := true } :: y }) ∧
      (Memory.wf s.store = true → ∀ x l y, l.data.length = 64 → l.started = true → (∀ e ∈ x, e.started = false) →
        (d.sto.log = x ++ l :: y → d.log.lstate ≠ 1 ∨ l.count = false → Does .lineCommitDone s (homed l { d.sto with log := x ++ y })) ∧
        ((∀ e ∈ d.sto.log, e.started = false) → d.sto.own = x ++ l :: y → Does .lineCommitDone s (homed l { d.sto with own := x ++ y })) ∧
        ((∀ e ∈ d.sto.log ++ d.sto.own, e.started = false) → win = x ++ l :: y → Does .lineCommitDone s (homed l { d.sto with win := x ++ y }))) ∧
      ((∀ e ∈ d.sto.log ++ d.sto.own ++ win, e.started = false) → exec .lineCommitDone s = .next s))

/-- LOG_LINE_COMMIT, LOG_MARK, RECN_MARK, LOG_FREEZE, ARM and LOAD. A mark joins the line being filled, or begins a line at the next OSEQ with the time; a RECn edge within 10 ms of the last, or with RECEN = 0, is none, and one that counts is in the count of marks. The line being filled is committed, but stays open while its last
entry is a REPEAT that still counts. FREEZE in RUN or POST commits the line being filled and ends at FROZEN with FOSEQ the newest OSEQ; ARM leaves FROZEN or LOAD for RUN; LOAD, where the life-cycle state allows it, leaves RUN or FROZEN for LOAD. Only TS with the key acts (R348, R351, R352, R355). -/
def Obligations.OrderLogCommands : Prop :=
  ∀ (s : State) (t : Ten) (key : BitVec 16), s.rack →
    let g := s.dev.log
    let c := s.dev.img.cfg.log
    let soon := ∃ x, g.lastRec = some x ∧ s.dev.tim.mono < x + 10000000
    let entry := fun (kind ten value : Nat) => [packN [(0, 6, 0x14), (6, 1, kind), (7, 3, ten), (10, 16, value)], 0x3F]
    let joins := fun (e : List Nat) (s u : State) =>
      (∀ o es, s.dev.log.lstate ≤ 1 → s.dev.log.cur = some o → (s.dev.tim.now - o.time) / 5 < 2 ^ 26 → addTo o.ents (putDT e ((s.dev.tim.now - o.time) / 5)) = some es →
        u = { s with dev.log.cur := some { o with ents := es, dirty := true } }) ∧
      (s.dev.log.lstate = 0 → s.dev.log.cur = none → s.dev.log.start = 0 → s.dev.log.next < 2 ^ 32 - 1 →
        u = { s with dev.log.cur := some { oseq := s.dev.log.next, time := s.dev.tim.now, ents := [putDT e 0] }, dev.log.next := s.dev.log.next + 1 }) ∧
      (1 < s.dev.log.lstate → u = s) ∧ u = s.logged u
    let goes := fun (x : OrderLog) (u : State) => u = s.okAcc.logged u ∧ u.dev.log = { x with gapLines := u.dev.log.gapLines }
    let mayLoad := s.dev.fus.lcs = 0 ∨ (s.dev.fus.lcs = 1 ∧ s.dev.fus.odd = false) ∨ (s.dev.fus.lcs = 3 ∧ s.dev.fus.vdbg = true)
    (∀ (v : BitVec 16), s.writer t → Does (.logMark t v) s (fun u => ∃ m, u = m.okAcc ∧ joins (entry 1 t.val v.toNat) s m)) ∧
    (c.recen = false ∨ soon → exec .recnMark s = .next s) ∧
    (c.recen = true → ¬ soon → c.rectrig = false → Does .recnMark s (fun u =>
      joins (entry 0 0 (satAdd 16 g.marks 1)) { s with dev.log.marks := satAdd 16 g.marks 1, dev.log.lastRec := some s.dev.tim.mono } u)) ∧
    (g.cur = none → exec .logLineCommit s = .next s) ∧
    (∀ o e, g.cur = some o → o.ents.getLast? = some e →
      let keeps := isRepeat e = true ∧ fld (nth e 0) 6 16 < 65535
      let line : SLine := { line := oLine o.oseq, data := o.bytes, order := true, started := !s.dev.sup.notice }
      let room := s.dev.sto.log.length < 32 ∧ ∀ x ∈ s.dev.sto.log, x.line = oLine o.oseq → x.started = true
      (keeps → o.dirty = false → exec .logLineCommit s = .next s) ∧
      (keeps → o.dirty = true → room → exec .logLineCommit s = .next { s with dev.log.cur := some { o with dirty := false }, dev.sto.log := s.dev.sto.log ++ [line] }) ∧
      (¬ keeps → room → exec .logLineCommit s = .next { s with dev.log.cur := none, dev.sto.log := s.dev.sto.log ++ [{ line with count := true }] })) ∧
    (s.writer t → t ≠ 4 ∨ key ≠ 0x4D42 → exec (.logFreeze t key) s = .next s.denied ∧ exec (.arm t key) s = .next s.denied ∧ exec (.load t key) s = .next s.denied) ∧
    (s.writer 4 →
      (g.lstate ≤ 1 → Does (.logFreeze 4 0x4D42) s (goes { g with lstate := 2, foseq := g.next - 1, cur := none })) ∧
      (1 < g.lstate → exec (.logFreeze 4 0x4D42) s = .next s.okAcc) ∧
      (g.lstate = 2 ∨ g.lstate = 3 → Does (.arm 4 0x4D42) s (goes { g with lstate := 0, toseq := 0, foseq := 0 })) ∧
      (g.lstate ≠ 2 → g.lstate ≠ 3 → exec (.arm 4 0x4D42) s = .next s.okAcc) ∧
      (mayLoad → g.lstate = 0 ∨ g.lstate = 2 → Does (.load 4 0x4D42) s (goes { g with lstate := 3, cur := none })) ∧
      (mayLoad → g.lstate ≠ 0 → g.lstate ≠ 2 → exec (.load 4 0x4D42) s = .next s.okAcc) ∧
      (¬ mayLoad → exec (.load 4 0x4D42) s = .next s.denied))

/-- GO, ABORT and RWAIT_EXPIRY. GO is refused with the reason of the first of its conditions that fails; an accepted one is held in a brown notice, and otherwise restarts the unit as a soft reset does, with the time, the ring address and the reset cause of the START line. ABORT stops a replay ABORTED, the end of RWAIT stops it with the
entry that did not come (the observed word is left open, log entry 2). An accepted restart is stated for a store without staged lines or a valid bank record (R355, R356, R360; Tables 18.5, 18.10). -/
def Obligations.Replay : Prop :=
  ∀ (s : State) (t : Ten) (key : BitVec 16), s.dev.rackOn = true →
    let g := s.dev.log
    let q := s.dev.rpl.src
    let l := (load s).line (oLine q)
    let mayLoad := s.dev.fus.lcs = 0 ∨ (s.dev.fus.lcs = 1 ∧ s.dev.fus.odd = false) ∨ (s.dev.fus.lcs = 3 ∧ s.dev.fus.vdbg = true)
    let start := q ≠ 0 ∧ at' l 0 4 = q ∧ at' l 12 1 = 1 ∧ lcrcOk l = true
    let revision := at' l 24 2 = 0x02 + 0x100 * (if s.dev.bar.bstepSeen then 0x02 else 0)
    let image := s.dev.img.woven = true ∧ at' l 20 4 = s.dev.img.cfg.imgcrc.toNat
    let refused := fun (r : Nat) => ({ s with dev.rpl.rstate := 4, dev.rpl.reason := r } : State).denied
    let quiet := s.dev.sto = {} ∧ (load s).bankRec 0 = none ∧ (load s).bankRec 1 = none ∧ s.dev.fus.lcs ≠ 3 ∧ s.dev.pai.role ≠ 3 ∧ s.dev.bd.runs = true ∧ s.dev.rst.softWait = none ∧
      s.dev.idn.astate ≠ 1 ∧ s.dev.idn.wbState ≠ 2 ∧ s.dev.ring.up.st = 0 ∧ s.dev.ring.dn.st = 0 ∧ s.dev.flt.stopped dUnit = false
    let stops := fun (rstate reason kind word exp obs : Nat) (u : State) =>
      u.dev.log = { g with lstate := 5, gapLines := u.dev.log.gapLines } ∧
      u.dev.rpl = { s.dev.rpl with rstate := rstate, reason := reason, kind := kind, word := word, exp := exp, obs := obs, items := [] }
    (s.writer t → g.lstate ≠ 4 → t ≠ 4 ∨ key ≠ 0x4D42 → exec (.go t key) s = .next s.denied ∧ exec (.abort t key) s = .next s.denied) ∧
    (s.writer 4 → g.lstate < 4 →
      (¬ mayLoad → exec (.go 4 0x4D42) s = .next (refused 1) ∧ exec (.abort 4 0x4D42) s = .next s.denied) ∧
      (mayLoad → g.lstate ≠ 3 → exec (.go 4 0x4D42) s = .next (refused 5)) ∧
      (mayLoad → g.lstate = 3 → ¬ start → exec (.go 4 0x4D42) s = .next (refused 2)) ∧
      (mayLoad → g.lstate = 3 → start → ¬ revision → exec (.go 4 0x4D42) s = .next (refused 3)) ∧
      (mayLoad → g.lstate = 3 → start → revision → ¬ image → exec (.go 4 0x4D42) s = .next (refused 4)) ∧
      (mayLoad → g.lstate = 3 → start → revision → image →
        (s.dev.sup.notice = true → exec (.go 4 0x4D42) s = .next (({ s with dev.rst.softWait := some 256, dev.sup.defer := s.dev.sup.defer ++ [Deferred.soft] }).okAcc)) ∧
        (s.dev.sup.notice = false → quiet → Does (.go 4 0x4D42) s (fun u =>
          u.dev.tim.now = at' l 4 8 ∧ u.dev.tim.mono = at' l 26 8 ∧ u.dev.tim.state = fld (at' l 19 1) 2 2 ∧ u.dev.tim.tset = tbit (at' l 18 1) 7 ∧ u.dev.tim.fcorr = clampF (toInt 32 (at' l 38 4)) ∧
          u.dev.ring.addr = at' l 17 1 ∧ u.dev.rst.last = at' l 16 1 % 16 ∧ u.dev.rst.softResets = satAdd 8 s.dev.rst.softResets 1 ∧ u.dev.pool = {} ∧ u.dev.sup.mode = 0 ∧ u.dev.img.woven = false ∧
          u.dev.bd.core = true ∧ u.dev.bd.tabs = false ∧ u.dev.acc.status = stOK ∧ u.dev.fus = s.dev.fus ∧ u.dev.pins = s.dev.pins ∧ u.fuses = s.fuses ∧ u.bufs = s.bufs ∧ u.pending = s.pending)))) ∧
    (s.writer 4 → mayLoad → g.lstate ≠ 4 → exec (.abort 4 0x4D42) s = .next s.okAcc) ∧
    (s.writer 4 → mayLoad → g.lstate = 4 → Does (.abort 4 0x4D42) s (fun u => u = s.okAcc.logged u ∧ stops 2 12 0 0 0 0 u)) ∧
    (g.lstate ≠ 4 → exec .rwaitExpiry s = .next s) ∧
    (∀ e k rest, g.lstate = 4 → s.dev.rpl.items = .ent e k :: rest → Does .rwaitExpiry s (fun u =>
      u = ({ s with dev.freeCtr := s.dev.freeCtr + 1 } : State).logged u ∧ stops 3 9 (fld (nth e 0) 0 6) k (nth e 0) (Config.free s.dev.freeCtr).toNat u))

/-! ## Unit pairing (chapter 19) -/

/-- EPOCH_CUT, EPOCH_NOACK, HANDOVER and RELEASE_ACK_WAIT_END. The holder sends an epoch under the next number at each EPER, and in a brown notice a hold marker with the epoch deferred; the first 3 × EPER without an acknowledgement raises PAIR_EVENT once. HANDOVER by TS with the key, soon after an acknowledgement, sends the final epoch; the end of the wait drops
the baton, parks the lanes and leaves the unit in LISTEN (R366, R368, R369, R376). -/
def Obligations.Epochs : Prop :=
  ∀ (s : State) (t : Ten) (key : BitVec 16), s.rack →
    let p := s.dev.pai
    let c := s.dev.img.cfg.pair
    let alone := p.pAddr = 0 ∨ s.dev.ring.addr = 0
    let eno := (p.eno + 1) % 2 ^ 32
    let sent := fun (release : Bool) =>
      let bs := s.dev.epoch eno release false
      ({ s with
        dev.pai := { p with eno := eno, sizeLast := bs.length, sizePeak := max p.sizePeak bs.length, ackT := some (p.ackT.getD s.dev.tim.mono) }
        dev.freeCtr := s.dev.freeCtr + (if alone then 0 else (pieces 1016 5 bs).length) } : State)
    let ok := t = 4 ∧ key = 0x5A1B ∧ p.role = 3 ∧ ∃ a, p.ackT = some a ∧ s.dev.tim.mono - a ≤ 2 * (c.eper * 100000) ∧ p.acked ≠ 0
    (p.role ≠ 3 ∨ c.en = false → exec .epochCut s = .next s) ∧
    (p.role = 3 → c.en = true →
      (s.dev.sup.notice = false → Does .epochCut s (fun u => u = (sent false).raised u)) ∧
      (s.dev.sup.notice = true → Does .epochCut s (fun u => u = ({ s with
        dev.sup.defer := if s.dev.sup.defer.contains .epoch then s.dev.sup.defer else s.dev.sup.defer ++ [Deferred.epoch]
        dev.freeCtr := s.dev.freeCtr + (if alone then 0 else 1) } : State).raised u))) ∧
    (p.role ≠ 3 ∨ p.noackNow = true → exec .epochNoack s = .next s) ∧
    (p.role = 3 → p.noackNow = false → s.calm 0x5E dUnit → Does .epochNoack s (fun u =>
      u = ({ s with dev.pai := { p with noack := satAdd 8 p.noack 1, noackNow := true } } : State).raised u)) ∧
    (s.writer t → ¬ ok → exec (.handover t key) s = .next s.denied) ∧
    (s.writer t → ok →
      (p.releasing ≠ 0 → exec (.handover t key) s = .next s.okAcc) ∧
      (p.releasing = 0 → s.dev.sup.notice = true → exec (.handover t key) s = .next (({ s with dev.pai := { p with releasing := 3 } } : State).okAcc)) ∧
      (p.releasing = 0 → s.dev.sup.notice = false → Does (.handover t key) s (fun u =>
        u = (({ (sent true) with dev.pai := { (sent true).dev.pai with releasing := 3 } } : State).okAcc).raised u))) ∧
    (p.releasing = 0 → exec .releaseAckWaitEnd s = .next s) ∧
    (p.releasing ≠ 0 → exec .releaseAckWaitEnd s = .next { s with
      dev.arb.ctl := if s.dev.bar.bAlive then s.dev.arb.ctl ++ [({ body := .pairChunk true [] } : Pkt)] else s.dev.arb.ctl
      dev.pai := { p with
        handovers := if p.releasing = 3 then satAdd 8 p.handovers 1 else p.handovers
        parked := true, pull := false, pairn := true, role := 1, releasing := 0, heldSilent := false, deadCount := 0, forceSent := false, relSeen := none, part := none, frags := [] } })

/-- START_TAKE, SILENCE, HELD_SILENT_TAKEOVER and FORCED_TAKEOVER. A unit with a woven image and pairing enabled, not in the fatal state, takes the baton at its start from LISTEN; a STANDBY takes it when the partner is silent and PAIRn reads high, and otherwise notes the silence once; a RELEASE epoch lets it take it with or without its levels. Each take pulls PAIRn and sends
the pair chunk; a takeover loads LSEQ, the mirror, the stream numbers and the identity view from the newest epoch, and its LOST completions wait for a ring address (R367, R372, R373, R374). Stated for a takeover with no LOST completion to send at once. -/
def Obligations.Takeovers : Prop :=
  ∀ (s : State), s.rack →
    let p := s.dev.pai
    let c := s.dev.img.cfg
    let bs := p.newest
    let may := c.pair.en = true ∧ s.dev.img.woven = true ∧ s.dev.flt.fatal = false
    let waits := s.dev.ring.addr = 0 ∨ epochEntries bs = []
    let whole : Pair := { p with
      part := none, frags := if p.part = none then p.frags else [], discarded := if p.part = none then p.discarded else satAdd 8 p.discarded 1 }
    let held := fun (p : Pair) => ({ p with
      role := 3, pull := true, pairn := false, parked := false, heldSilent := false, releasing := 0, deadCount := 0, forceSent := false, relSeen := none, ackT := some s.dev.tim.mono, acked := 0, noackNow := false } : Pair)
    let chunk := fun (lvl : Tbl Nat) => if s.dev.bar.bAlive then s.dev.arb.ctl ++ [({ body := .pairChunk false lvl } : Pkt)] else s.dev.arb.ctl
    let loaded := fun (p : Pair) (lvl : Tbl Nat) => ({ s with
      dev.pai := p
      dev.arb.ctl := chunk lvl
      dev.bar := { s.dev.bar with lseq := at' bs 38 2, news := [], mirror := upto 24 (fun i => (8 + i, (at' bs 38 2, fld (at' bs 32 6) (2 * i) 2))) }
      dev.tens := (List.range 5).foldl (fun l u => lmod l u (fun x => { x with streams := upto 16 (fun k =>
        (k, { (tget {} x.streams k : StreamSt) with seen := tbit (at' (bs.drop (128 + 64 * u)) 2 2) k, last := at' (bs.drop (128 + 64 * u)) (4 + 2 * k) 2 })) })) s.dev.tens
      dev.idn := { s.dev.idn with
        result := fld (at' bs 448 1) 0 2, slot := fld (at' bs 448 1) 2 2, ids := at' bs 449 1, strapH := BitVec.ofNat 8 (at' bs 450 1), strapZ := BitVec.ofNat 8 (at' bs 451 1)
        profile := BitVec.ofNat 32 (at' bs 452 4), logseq := at' bs 456 4, aseq := at' bs 460 4 } } : State)
    let taken := loaded { (held whole) with takeovers := satAdd 8 p.takeovers 1, lostQ := (load s).lostFrames [] (epochEntries bs) } (epochLevels c bs)
    (¬ may ∨ p.role ≠ 1 → exec .startTake s = .next s) ∧
    (may → p.role = 1 → exec .startTake s = .next { s with dev.pai := held p, dev.arb.ctl := chunk [] }) ∧
    (p.role ≠ 2 → (∀ b, exec (.silence b) s = .next s) ∧ exec .heldSilentTakeover s = .next s ∧ exec .forcedTakeover s = .next s) ∧
    (p.role = 2 →
      (p.heldSilent = true → exec (.silence false) s = .next { s with dev.pai := { whole with pairn := false } }) ∧
      (p.heldSilent = false → exec .heldSilentTakeover s = .next s) ∧
      (p.heldSilent = false → s.calm 0x5E dUnit → Does (.silence false) s (fun t => t = ({ s with dev.pai := { whole with pairn := false, heldSilent := true } } : State).raised t)) ∧
      (¬ may → exec (.silence true) s = .next { s with dev.pai := { whole with pairn := true } } ∧
        (p.heldSilent = true → exec .heldSilentTakeover s = .next { s with dev.pai := { p with pairn := true } }) ∧ exec .forcedTakeover s = .next s) ∧
      (may → waits → s.calm 0x5E dUnit → Does (.silence true) s (fun t => t = taken.raised t) ∧ (p.heldSilent = true → Does .heldSilentTakeover s (fun t => t = taken.raised t))) ∧
      (may → p.relSeen = none → exec .forcedTakeover s = .next s) ∧
      (may → p.relSeen = some true → s.calm 0x5E dUnit → Does .forcedTakeover s (fun t =>
        t = (loaded { (held whole) with takeovers := satAdd 8 p.takeovers 1 } [(32, 1)]).raised t)) ∧
      (may → p.relSeen = some false → exec .forcedTakeover s = .next (loaded { (held whole) with handovers := satAdd 8 p.handovers 1 } (epochLevels c bs))))

/-! ## Images (chapter 20) -/

/-- HOT, COLD, CHECK and WEAVE_DEFERRED_START. A request with the key by a tenant that may make it, with no weave in progress, is held in a brown notice, and otherwise run: an image that fails a check is counted, reported and raised, and changes nothing else; CHECK answers its result; a hot image that differs from the woven one in a cold-only setting is rejected. A hot weave activates the
bank, takes every rack-side setting at once, clears SEEN and sends the tables and the swap; a cold weave activates the bank and restarts as a soft reset does; a first weave gives the unit its image and its tenants their generations. Stated for a hot weave that puts no tenant in debt, with the board die alive, and for a first weave after power-on without it (R388, R389, R390, R392, R393). -/
def Obligations.Weaves : Prop :=
  ∀ (s : State) (t : Ten) (key : BitVec 16) (b : Bool) (i : Instr) (action : Nat), s.rack →
    (i, action) = (Instr.hot t key, 1) ∨ (i, action) = (Instr.cold t key b, 2) ∨ (i, action) = (Instr.check t key b, 3) →
    let m := s.dev.img
    let bank := if action = 1 then 0 else b2n b
    let f := s.dev.fus
    let may := key = 0x6C4D ∧ (if f.lcs = 3 then t = 4 ∧ f.vdbg = true else f.prot.getLsbD (4 + t.val) = true) ∧ (t = 4 ∨ (m.woven = true ∧ action ≠ 2)) ∧ m.phase = 0
    let runs := fun (s : State) (out : State → State) (P : State → Prop) =>
      let k := if m.woven then 1 - m.bank else bank
      let img := (load s).bankBytes k
      let result := fun (code sect : Nat) => { s.dev.img with phase := 0, code := code, sectNo := sect, ten := t.val, action := action }
      let rejected := fun (code sect : Nat) => ({ s with dev.img := { result code sect with rejects := satAdd 16 m.rejects 1 } } : State)
      (∀ r, checkImage s.dev.weaveAuth img = .error r → s.calm 0x5F dUnit → (∃ u, P u ∧ u = (out (rejected r.code r.sect)).raised u)) ∧
      (∀ x, checkImage s.dev.weaveAuth img = .ok x →
        let cold := if m.woven then m.cfg.coldSect x else 0
        (action = 3 → P (out { s with dev.img := result (if cold = 0 then 0x02 else 0x03) 0 })) ∧
        (action = 1 → m.woven = true → cold ≠ 0 → s.calm 0x5F dUnit → (∃ u, P u ∧ u = (out (rejected 0x30 cold)).raised u)) ∧
        (action = 1 → m.woven = true → cold = 0 → s.dev.bar.bAlive = true → (∀ u < 5, (s.dev.ten u).tktUse ≤ x.tktMin u ∧ (s.dev.ten u).bufUse ≤ x.bufMin u) → (∃ u, P u ∧
          u.dev.img = { s.dev.img with cfg := x, bank := k, bgen := (m.bgen + 1) % 2 ^ 32, phase := 2, gapT0 := s.dev.tim.mono, ten := t.val, action := 1, sectNo := 0 } ∧
          u.dev.hpt.shortTen = x.shortTen ∧ u.dev.hpt.tmask = x.tenmask ∧ u.dev.sup.warnA = x.vwarnA ∧ u.dev.sup.warnB = x.vwarnB ∧ u.dev.sup.banknom = x.banknom ∧
          u.dev.arb.pmode = x.arb.pmode ∧ u.dev.arb.pos = 0 ∧ u.dev.arb.cred = upto 20 x.weight ∧ u.dev.arb.prio = upto 20 (fun n => fld x.arb.level (2 * n) 2) ∧
          (∀ n < 4, (u.dev.ckUnit n).run = (x.ck n).init) ∧ (∀ n < 5, ∀ e ∈ (u.dev.ten n).streams, e.2.seen = false) ∧
          (∃ l, u.dev.arb.ctl = l ++ [({ body := .swap x.imgcrc } : Pkt)]) ∧ (∀ n, (u.dev.ten n).queues = (s.dev.ten n).queues ∧ (u.dev.ten n).tktUse = (s.dev.ten n).tktUse ∧ (u.dev.ten n).gen = (s.dev.ten n).gen) ∧
          u.dev.pool = s.dev.pool ∧ u.dev.bd = s.dev.bd ∧ u.dev.fus = s.dev.fus ∧ u.dev.rst = s.dev.rst ∧ u.bufs = s.bufs ∧ u.pending = s.pending)) ∧
        (action ≠ 3 → m.woven = false → s.dev.bar.bAlive = false → s.dev.rst.last < 2 → (∃ u, P u ∧
          u.dev.img = { result 0x01 0 with woven := true, cfg := x, bank := k, bgen := (m.bgen + 1) % 2 ^ 32, weaves := satAdd 16 m.weaves 1 } ∧
          (∀ n < 5, n < s.dev.tens.length → (u.dev.ten n).gen = (x.ten n).gen ∧ (u.dev.ten n).streams = []) ∧ u.dev.pai.role = (if x.pair.en then 1 else 0) ∧ u.dev.pai.parked = x.pair.en ∧
          u.dev.pool = s.dev.pool ∧ u.dev.bd = s.dev.bd ∧ u.dev.fus = s.dev.fus ∧ u.dev.rst = s.dev.rst ∧ u.bufs = s.bufs ∧ u.pending = s.pending)))
    (s.writer t → ¬ may → exec i s = .next s.denied) ∧
    (s.writer t → may → s.dev.sup.notice = true → exec i s = .next (({ s with
      dev.img := { m with phase := 3, held := some (t.val, action, bank), ten := t.val, action := action }, dev.sup.defer := s.dev.sup.defer ++ [Deferred.weave] } : State).okAcc)) ∧
    (s.writer t → may → s.dev.sup.notice = false → runs s (fun u => u.okAcc) (fun u => exec i s = .next u)) ∧
    (s.writer t → may → s.dev.sup.notice = false → action = 2 → m.woven = true → s.dev.rst.softWait = none → s.dev.flt.stopped dUnit = false →
      ∀ x, let k := 1 - m.bank
      let img := (load s).bankBytes k
      let line : SLine := {
        line := k * 512 + 511
        data := lcrcLine (mark4 0x56 0x4E 0x42 0x4B ++ le 4 ((m.bgen + 1) % 2 ^ 32) ++ (img.drop 8).take 4 ++ le 4 x.imgcrc.toNat ++ List.replicate 44 0), started := true }
      checkImage s.dev.weaveAuth img = .ok x → ∃ u, exec i s = .next u ∧ exec (.soft 4 0xC3A5) { s with
        dev.sto.own := s.dev.sto.own ++ [line]
        dev.img := { m with
          phase := 0, code := 0x01, sectNo := 0, ten := t.val, action := 2, bank := k, bgen := (m.bgen + 1) % 2 ^ 32, weaves := satAdd 16 m.weaves 1 } } = .next u) ∧
    (m.held = none ∨ s.dev.sup.notice = true → exec .weaveDeferredStart s = .next s) ∧
    (m.held = some (t.val, action, bank) → s.dev.sup.notice = false →
      runs { s with dev.img := { m with phase := 0, held := none }, dev.sup.defer := s.dev.sup.defer.filter (fun d => d != Deferred.weave) } (fun u => u) (fun u => exec .weaveDeferredStart s = .next u))

/-! ## Registers (chapters 0 and 1) -/

/-- Registers. At reset they read as their tables say. REGISTER_WRITE of a rack die register: DENIED for a tenant that is barred, outside the fatal state DENIED at an address that is no
word of the map and in a block that has no writable register for it, OK and without effect on the ID block; TS sets HPT_CTRL, HPT_TENMASK and HPT_IRQEN, and a write to HPT_IRQ clears the bits it writes as 1 (another tenant its
own alone); every tenant may read the HPT block; a TEN page is reached by TS and its own tenant, and every other access to it, a read or a write, completes DENIED; a word of the buffer window is written by the buffer's
owner, and no other byte changes (R11, R12, R19, R22, R23, R170). -/
def Obligations.Registers : Prop :=
  let reads := fun (a v : Nat) => ((load State.reset).regRead 4 a).2 = (stOK, v)
  (reads 0x00000 0x51247A4C ∧ reads 0x00004 2 ∧ reads 0x00010 0x10000400 ∧ reads 0x00014 0x00854820 ∧ reads 0x00020 0 ∧ reads 0x00024 0 ∧ reads 0x00028 0 ∧ reads 0x00030 0x1170 ∧ reads 0x00038 0 ∧
    reads 0x01004 0 ∧ reads 0x01008 0 ∧ reads 0x0100C 0 ∧ reads 0x01010 0 ∧ reads 0x01014 0 ∧ reads 0x01018 0 ∧ reads 0x0101C 0 ∧ reads 0x02000 0 ∧ reads 0x0200C 0 ∧ reads 0x04000 4 ∧ reads 0x04004 0x10 ∧
    reads 0x04008 0 ∧ reads 0x0400C 0 ∧ reads 0x04010 0xFF ∧ reads 0x04014 0 ∧ reads 0x04018 0 ∧ reads 0x12000 0 ∧ reads 0x12004 0 ∧ reads 0x1200C 0 ∧ reads 0x12010 0 ∧ reads 0x12018 0 ∧ reads 0x1201C 0 ∧
    reads 0x12020 0 ∧ reads 0x12040 0 ∧ reads 0x12080 0 ∧ reads 0x20000 0x10000400 ∧ reads 0x20004 0x0FC003E0 ∧ reads 0x24000 0 ∧ reads 0x28000 0 ∧ reads 0x30000 0 ∧ reads 0x30008 0x57575757 ∧
    reads 0x3000C 0x57 ∧ reads 0x30010 0 ∧ reads 0x30024 0 ∧ reads 0x30040 0 ∧ reads 0x30048 0 ∧ reads 0x30058 0 ∧ reads 0x30100 7) ∧
  ∀ (s : State) (t : Ten) (a v : BitVec 32), s.rack →
    let h := s.dev.hpt
    let x := a.toNat
    let c : Instr := .registerWrite t a v
    (s.dev.barred t.val = true → isBoardAddr x = false → exec c s = .next s.denied) ∧
    (s.writer t →
      (isBoardAddr x = false → x % 4 ≠ 0 ∨ isMapped x = false → exec c s = .next s.denied) ∧
      (x % 4 = 0 → x < 0x1000 → exec c s = .next s.okAcc) ∧
      (x % 4 = 0 → (0x20000 ≤ x ∧ x < 0x30000) ∨ (0xE0000 ≤ x ∧ x < 0xF0000) → exec c s = .next s.denied) ∧
      (x = 0x4000 → exec c s = .next (if t = 4 ∧ v.toNat % 8 ≤ 4 then { s with dev.hpt := { h with shortTen := v.toNat % 8 } }.okAcc else s.denied)) ∧
      (x = 0x4004 → exec c s = .next (if t = 4 then { s with dev.hpt := { h with tmask := v.setWidth 5 } }.okAcc else s.denied)) ∧
      (x = 0x4010 → exec c s = .next (if t = 4 then { s with dev.hpt := { h with irqEn := v.setWidth 8 } }.okAcc else s.denied)) ∧
      (x = 0x400C → exec c s = .next ({ s with dev.hpt := { h with
        irqDrop := h.irqDrop && !(decide (t = 4) && v.getLsbD 1)
        irqErr := h.irqErr && !(decide (t = 4) && v.getLsbD 2)
        irqTen := h.irqTen &&& ~~~((v.extractLsb' 3 5) &&& (if t = 4 then 31#5 else 1#5 <<< t.val)) } }.okAcc)) ∧
      (x % 4 = 0 → 0x4000 ≤ x → x < 0x5000 → ((load s).regRead t.val x).2.1 = stOK) ∧
      (x % 4 = 0 → 0x10000 ≤ x → x < 0x15000 →
        let mine := t = 4 ∨ t.val = (x - 0x10000) / 0x1000
        ((load s).regRead t.val x).2.1 = (if mine then stOK else stDENIED) ∧ (¬ mine → exec c s = .next s.denied) ∧ (mine → x % 0x1000 ≠ 0xFC → exec c s = .next s.okAcc)) ∧
      (s.Inv → ∀ o, x = 0x100000 + o → o < 0x40000 → o % 4 = 0 → (s.dev.pool.buf (o / 64)).owned = true → (s.dev.pool.buf (o / 64)).ten = t.val →
        Does c s (fun u => u = { s.okAcc with bufs := u.bufs } ∧ ∀ n, mget u.bufs n = if o ≤ n ∧ n < o + 4 then (le 4 v.toNat).getD (n - o) 0 else mget s.bufs n)))
end

