-- ==== Sys2Proof/Laws/Log.lean ====
section
/-! SUPPORT. What the order log can change: itself, the staging memory, the replay position, the count of dropped lines and
the record store; everything else is as before. -/

namespace Sys2Proof.Machine

/-- `b` differs from `a` in the order log, the staging memory, the replay record, SUP's count of dropped lines and the
bytes written to the record store alone, and the log has not entered REPLAY. -/
def W.SameButLog (a b : W) : Prop :=
  b = { a with dev := { a.dev with log := b.dev.log, sto := b.dev.sto, rpl := b.dev.rpl,
                                   sup := { a.dev.sup with dropped := b.dev.sup.dropped } }, out := b.out } ∧
  (a.dev.log.lstate ≠ 4 → b.dev.log.lstate ≠ 4)

theorem W.SameButLog.refl (w : W) : w.SameButLog w := ⟨rfl, id⟩

theorem W.SameButLog.trans {a b c : W} (h : a.SameButLog b) (k : b.SameButLog c) : a.SameButLog c := by
  refine ⟨?_, k.2 ∘ h.2⟩
  rw [k.1, h.1]

/-- A foldl of steps that change the log alone changes the log alone. -/
theorem W.SameButLog.foldl {α : Type} (f : W → α → W) (hf : ∀ (w : W) a, w.SameButLog (f w a)) (l : List α) (w : W) :
    w.SameButLog (l.foldl f w) := by
  induction l generalizing w with
  | nil => exact .refl w
  | cons a l ih => exact (hf w a).trans (ih _)

theorem W.poke_log (w : W) (a : Nat) (bs : List Byte) : w.SameButLog (w.poke a bs) := ⟨rfl, id⟩

theorem W.homeLine_log (w : W) (l : SLine) : w.SameButLog (w.homeLine l) := ⟨rfl, id⟩

theorem W.stageLog_log (w : W) (l : SLine) : w.SameButLog (w.stageLog l).1 := by
  unfold W.stageLog
  dsimp only
  repeat' split
  all_goals exact ⟨rfl, id⟩

theorem W.logHeader_log (w : W) : w.SameButLog w.logHeader := w.stageLog_log _

theorem W.closeLine_log (w : W) : w.SameButLog w.closeLine := by
  unfold W.closeLine
  split
  · exact .refl w
  · exact (w.stageLog_log _).trans ⟨rfl, id⟩

theorem W.freezeLog_log (w : W) : w.SameButLog w.freezeLog := by
  have h : w.closeLine.SameButLog ({ w.closeLine with dev.log.lstate := 2, dev.log.foseq := w.closeLine.dev.log.next - 1 } : W) :=
    ⟨rfl, fun _ => by simp⟩
  exact (w.closeLine_log.trans h).trans (W.logHeader_log _)

theorem W.trigger_log (w : W) : w.SameButLog w.trigger := by
  unfold W.trigger
  dsimp only
  split
  · have h : ∀ n, w.SameButLog { w with dev.log.lstate := 1, dev.log.toseq := n } := fun _ => ⟨rfl, fun _ => by simp⟩
    repeat' split
    all_goals first
      | exact (h _).trans (W.freezeLog_log _)
      | exact (h _).trans (W.logHeader_log _)
  · exact .refl w

theorem W.takeOseq_log (w : W) : w.SameButLog w.takeOseq.1 := by
  unfold W.takeOseq
  dsimp only
  repeat' split
  · exact w.freezeLog_log
  · exact w.freezeLog_log
  all_goals exact ⟨rfl, id⟩

theorem W.newLine_log (w : W) (e : List Nat) : w.SameButLog (w.newLine e) := by
  have h := w.takeOseq_log
  unfold W.newLine
  split
  · rename_i h'; rw [h'] at h; exact h
  · rename_i h'; rw [h'] at h; exact h.trans ⟨rfl, id⟩

theorem W.rplStop_log (w : W) (a b c d e f : Nat) : w.SameButLog (w.rplStop a b c d e f) :=
  W.SameButLog.trans (by exact ⟨rfl, fun _ => by simp⟩) (W.logHeader_log _)

theorem W.rplNext_log (w : W) : w.SameButLog w.rplNext := by
  unfold W.rplNext
  dsimp only
  repeat' split
  all_goals first | exact W.rplStop_log .. | exact ⟨rfl, id⟩

theorem W.rplLoad_log (w : W) :
    w.SameButLog (if ({ w with dev.rpl.items := unfoldRep w.dev.rpl.items } : W).dev.rpl.items.isEmpty
      then ({ w with dev.rpl.items := unfoldRep w.dev.rpl.items } : W).rplNext
      else { w with dev.rpl.items := unfoldRep w.dev.rpl.items }) := by
  split
  · exact W.SameButLog.trans (by exact ⟨rfl, id⟩) (W.rplNext_log _)
  · exact ⟨rfl, id⟩

theorem W.rplProduce_log (w : W) (e : List Nat) : w.SameButLog (w.rplProduce e) := by
  have h := w.rplLoad_log
  unfold W.rplProduce
  dsimp only at h ⊢
  refine h.trans ?_
  repeat' split
  all_goals first | exact W.rplStop_log .. | exact ⟨rfl, id⟩

theorem W.rplExpect_log (w : W) : w.SameButLog w.rplExpect.1 := by
  unfold W.rplExpect
  split
  · exact .refl w
  · exact w.rplLoad_log

theorem W.logE_log (w : W) (e : List Nat) : w.SameButLog (w.logE e) := by
  unfold W.logE
  dsimp only
  repeat' split
  · exact w.rplProduce_log e
  · exact .refl w
  · exact w.newLine_log e
  · exact w.closeLine_log.trans (W.newLine_log _ e)
  · exact ⟨rfl, id⟩
  · exact w.closeLine_log.trans (W.newLine_log _ e)

theorem W.logK_log (w : W) (k : Nat) (fs : List (Nat × Nat × Nat)) : w.SameButLog (w.logK k fs) := w.logE_log _

theorem W.logT_log (w : W) (k : Nat) (fs : List (Nat × Nat × Nat)) (r : List Nat) : w.SameButLog (w.logT k fs r) := w.logE_log _

theorem W.wholeLine_log (w : W) (t i : Nat) (b : List Byte) : w.SameButLog (w.wholeLine t i b) := by
  have h := w.closeLine_log.trans w.closeLine.takeOseq_log
  unfold W.wholeLine
  split
  · exact .refl w
  · split
    · rename_i h'; rw [h'] at h; exact h
    · rename_i h'; rw [h'] at h
      refine h.trans ?_
      dsimp only
      split
      · exact (W.stageLog_log _ _).trans ⟨rfl, id⟩
      · exact W.stageLog_log _ _

theorem W.startLine_log (w : W) (c : Nat) : w.SameButLog (w.startLine c) := w.wholeLine_log ..

theorem W.countPost_log (w : W) (l : SLine) : w.SameButLog (w.countPost l) := by
  unfold W.countPost
  split
  · exact w.freezeLog_log
  · exact .refl w

theorem W.lineDone_log (w : W) : w.SameButLog w.lineDone := by
  unfold W.lineDone
  repeat' split
  · exact W.SameButLog.trans (W.SameButLog.trans (by exact ⟨rfl, id⟩) (W.homeLine_log _ _)) (W.countPost_log _ _)
  all_goals exact ⟨rfl, id⟩

theorem W.commitCur_log (w : W) : w.SameButLog w.commitCur := by
  unfold W.commitCur
  repeat' split
  all_goals first
    | exact .refl w
    | exact (w.stageLog_log _).trans ⟨rfl, id⟩
    | exact w.closeLine_log

/-- The order log frozen or stopped takes no entry. -/
theorem W.logE_idle (w : W) (e : List Nat) (h : w.dev.log.lstate ≠ 4) (k : 1 < w.dev.log.lstate) : w.logE e = w := by
  unfold W.logE
  rw [if_neg h, if_pos]
  simp only [OrderLog.recording, Bool.not_eq_true', decide_eq_false_iff_not]
  omega

end Sys2Proof.Machine
end

