-- ==== Sys2Proof/Laws/Raise.lean ====
section
/-! SUPPORT. What a raise can change: the collector, the logs, the reply queue and the ring outputs (its notices), the control
packets (its lane groups) and the service log's last fault. It asks for resets only where its class or its reaction word does. -/

namespace Sys2Proof.Machine

/-- `b` differs from `a` in what a raise that orders no reset can change alone, the reply queue only grows, and the
log has not entered REPLAY. -/
def W.SameButRaise (a b : W) : Prop :=
  b = { a with
    dev := { a.dev with
      log := b.dev.log, sto := b.dev.sto, rpl := b.dev.rpl, flt := b.dev.flt,
      sup := { a.dev.sup with dropped := b.dev.sup.dropped },
      hpt := { a.dev.hpt with rq := b.dev.hpt.rq, irqErr := b.dev.hpt.irqErr, irqDrop := b.dev.hpt.irqDrop,
                              replyDrop := b.dev.hpt.replyDrop, irqTen := b.dev.hpt.irqTen },
      ring := { a.dev.ring with up := b.dev.ring.up, dn := b.dev.ring.dn, preempts := b.dev.ring.preempts, dropN := b.dev.ring.dropN },
      arb := { a.dev.arb with ctl := b.dev.arb.ctl },
      idn := { a.dev.idn with lfsrc := b.dev.idn.lfsrc, lfcls := b.dev.idn.lfcls } }
    out := b.out } ∧
  (a.dev.log.lstate ≠ 4 → b.dev.log.lstate ≠ 4) ∧ a.dev.hpt.rq <+: b.dev.hpt.rq

theorem W.SameButRaise.refl (w : W) : w.SameButRaise w := ⟨rfl, id, List.prefix_rfl⟩

theorem W.SameButRaise.trans {a b c : W} (h : a.SameButRaise b) (k : b.SameButRaise c) : a.SameButRaise c := by
  refine ⟨?_, k.2.1 ∘ h.2.1, h.2.2.trans k.2.2⟩
  rw [k.1, h.1]

theorem W.SameButLog.raise {a b : W} (h : a.SameButLog b) : a.SameButRaise b := by
  refine ⟨?_, h.2, ?_⟩ <;> rw [h.1]

theorem W.SameButRaise.foldl {α : Type} (f : W → α → W) (hf : ∀ (w : W) a, w.SameButRaise (f w a)) (l : List α) (w : W) :
    w.SameButRaise (l.foldl f w) := by
  induction l generalizing w with
  | nil => exact .refl w
  | cons a l ih => exact (hf w a).trans (ih _)

theorem W.modPort_raise (w : W) (p : RPort) (f : RingPort → RingPort) : w.SameButRaise (w.modPort p f) := by
  cases p <;> exact ⟨rfl, id, List.prefix_rfl⟩

theorem W.startOut_raise (w : W) (p : RPort) : w.SameButRaise (w.startOut p) := by
  unfold W.startOut
  dsimp only
  repeat' split
  all_goals first
    | exact W.modPort_raise _ _ _
    | exact ((W.modPort_raise _ _ _).trans (W.logK_log _ _ _).raise).trans (W.modPort_raise _ _ _)

theorem W.preempt_raise (w : W) (p : RPort) : w.SameButRaise (w.preempt p) := by
  unfold W.preempt
  dsimp only
  split
  · split
    · exact W.SameButRaise.trans (b := { w with dev.ring.preempts := satAdd 16 w.dev.ring.preempts 1 }) ⟨rfl, id, List.prefix_rfl⟩ (W.modPort_raise _ _ _)
    · exact .refl w
  · exact .refl w

theorem W.pump_raise (w : W) (p : RPort) (n : Nat) : w.SameButRaise (w.pump p n) := by
  induction n generalizing w with
  | zero => exact .refl w
  | succ n ih =>
    unfold W.pump
    dsimp only
    split
    · exact .refl w
    · refine (w.preempt_raise p).trans ?_
      generalize w.preempt p = v
      have h : v.SameButRaise (if (v.dev.ring.port p).cur.isNone then v.startOut p else v) := by
        split
        · exact v.startOut_raise p
        · exact .refl v
      refine h.trans ?_
      generalize (if (v.dev.ring.port p).cur.isNone then v.startOut p else v) = u
      split
      · exact .refl u
      · split
        · exact (W.modPort_raise _ _ _).trans (ih _)
        · exact W.modPort_raise _ _ _

theorem W.putOut_raise (w : W) (p : RPort) (o : OutFrame) : w.SameButRaise (w.putOut p o) :=
  (w.modPort_raise p _).trans (W.pump_raise _ _ _)

theorem W.sendUnicast_raise (w : W) (d : Nat) (b : List Byte) : w.SameButRaise (w.sendUnicast d b) := by
  unfold W.sendUnicast
  dsimp only
  repeat' split
  · exact .refl w
  · exact W.putOut_raise _ _ _
  · exact ⟨rfl, id, List.prefix_rfl⟩

theorem W.control_raise (w : W) (b : Payload) : w.SameButRaise (w.control b) := by
  unfold W.control
  split <;> exact ⟨rfl, id, List.prefix_rfl⟩

theorem W.union_raise (w : W) (u : BitVec 32) : w.SameButRaise { w with dev.flt.union := u } := ⟨rfl, id, List.prefix_rfl⟩

theorem W.regroup_raise (w : W) : w.SameButRaise w.regroup := by
  unfold W.regroup
  dsimp only
  repeat' split
  all_goals first
    | exact w.union_raise _
    | exact (w.union_raise _).trans (W.control_raise _ _)
    | exact ((w.union_raise _).trans (W.control_raise _ _)).trans (W.control_raise _ _)

theorem W.stageOwn_log (w : W) (n : Nat) (d : List Byte) : w.SameButLog (w.stageOwn n d) := ⟨rfl, id⟩

theorem W.stageHeader_log (w : W) : w.SameButLog w.stageHeader := by
  unfold W.stageHeader
  dsimp only
  split <;> exact ⟨rfl, id⟩

theorem W.pumpEvents_raise (w : W) (n : Nat) : w.SameButRaise (w.pumpEvents n) := by
  induction n generalizing w with
  | zero => exact .refl w
  | succ n ih =>
    unfold W.pumpEvents
    dsimp only
    split
    · exact .refl w
    · split
      · exact ((w.stageLog_log _).raise.trans (W.SameButRaise.trans (by exact ⟨rfl, id, List.prefix_rfl⟩) (W.stageHeader_log _).raise)).trans (ih _)
      · exact .refl w

theorem W.logEvent_raise (w : W) (e : LogEv) : w.SameButRaise (w.logEvent e) :=
  W.SameButRaise.trans (by exact ⟨rfl, id, List.prefix_rfl⟩) (W.pumpEvents_raise _ _)

theorem W.notice_raise (w : W) (t s d c : Nat) (a b e : Bool) (q : Nat) : w.SameButRaise (w.notice t s d c a b e q) := by
  unfold W.notice
  dsimp only
  repeat' split
  all_goals first
    | exact .refl w
    | exact W.sendUnicast_raise _ _ _
    | exact ⟨rfl, id, List.prefix_rfl⟩
    | exact ⟨rfl, id, List.prefix_append _ _⟩

theorem W.notices_raise (w : W) (s d : Nat) (b : Bool) (x : Decision) (q : Nat) : w.SameButRaise (w.notices s d b x q) := by
  unfold W.notices W.forEach
  refine W.SameButRaise.foldl _ (fun w t => ?_) _ w
  split
  · exact W.notice_raise _ _ _ _ _ _ _ _ _
  · exact .refl w

theorem W.capture_raise (w : W) (s d c : Nat) (e : Bool) (x : RaiseInfo) : w.SameButRaise (w.capture s d c e x) := ⟨rfl, id, List.prefix_rfl⟩

/-- The decision orders no reset: it sets or repeats a C or U slot whose reaction word has RESET = 0. -/
def W.calm (w : W) (s d : Nat) (k : Decision) : Prop :=
  (∃ c e, k = .again c e) ∨ ∃ c e, k = .fresh c e ∧ c ≠ 2 ∧ fld (w.cfg.flt.react' s d c) 11 2 = 0

theorem W.react_raise (w : W) (s d c : Nat) (e : Bool) (h : c ≠ 2) (k : fld (w.cfg.flt.react' s d c) 11 2 = 0) :
    w.SameButRaise (w.react s d c e) := by
  unfold W.react
  dsimp only
  rw [if_neg (fun x => h x.1), if_neg h, k]
  have g : w.SameButRaise { w with dev.flt := w.dev.flt.setSlot d c { st := 1, src := s, t0 := w.mono, esc := e, word := w.cfg.flt.react' s d c } } := ⟨rfl, id, List.prefix_rfl⟩
  exact g.trans (W.regroup_raise _)

theorem W.reactTo_raise (w : W) (s d : Nat) (x : Decision) (h : w.calm s d x) : w.SameButRaise (w.reactTo s d x) := by
  rcases h with ⟨c, e, rfl⟩ | ⟨c, e, rfl, h, k⟩
  · exact .refl w
  · exact w.react_raise s d c e h k

theorem W.wires_raise (w : W) (t : Tbl Nat) : w.SameButRaise (w.modFlt (fun f => { f with wires := t })) := ⟨rfl, id, List.prefix_rfl⟩

theorem W.record_raise (w : W) (s d : Nat) (x : RaiseInfo) (k : Decision) : w.SameButRaise (w.record s d x k) := by
  unfold W.record
  dsimp only
  refine W.SameButRaise.trans ?_ (W.logEvent_raise _ _)
  split
  · exact W.SameButRaise.trans (((w.logK_log _ _).raise).trans ((W.capture_raise _ _ _ _ _ _).trans (by exact ⟨rfl, id, List.prefix_rfl⟩)))
      (b := W.modFlt _ _) (by exact ⟨rfl, id, List.prefix_rfl⟩)
  · exact ((w.logK_log _ _).raise).trans ((W.capture_raise _ _ _ _ _ _).trans (by exact ⟨rfl, id, List.prefix_rfl⟩))

theorem W.classTrigger_raise (w : W) (c : Nat) : w.SameButRaise (w.classTrigger c) := by
  unfold W.classTrigger
  split
  · exact w.trigger_log.raise
  · exact .refl w

/-- A raise that orders no reset changes what such a raise can change alone. -/
theorem W.raise_raise (w : W) (s d : Nat) (x : RaiseInfo) (h : w.calm s d (w.decision s d x.wire)) : w.SameButRaise (w.raise s d x) := by
  unfold W.raise
  dsimp only
  split
  · exact .refl w
  · have k := w.record_raise s d x (w.decision s d x.wire)
    have c : (w.record s d x (w.decision s d x.wire)).cfg = w.cfg := by unfold W.cfg; rw [k.1]
    have h' : (w.record s d x (w.decision s d x.wire)).calm s d (w.decision s d x.wire) := by unfold W.calm; rw [c]; exact h
    exact ((k.trans (W.reactTo_raise _ _ _ _ h')).trans (W.notices_raise _ _ _ _ _ _)).trans (W.classTrigger_raise _ _)

end Sys2Proof.Machine
end

