-- ==== Sys2Proof/Laws/Run.lean ====
section
/-! SUPPORT. The outcome of a meaning that asks for no reset, and what recording and raising leave unchanged, field by field. -/

namespace Sys2Proof.Machine

/-! ## The end of a meaning -/

/-- With nothing asked for, outside REPLAY, the end of a meaning changes nothing. -/
theorem W.close_quiet (w : W) (h : w.rq = []) (k : w.dev.log.lstate ≠ 4) : w.close = w := by
  have s : ∀ n, W.serve n w = w := fun n => by cases n <;> simp [W.serve, h]
  unfold W.close
  rw [s, W.settleReplay, if_neg k, s]

theorem runW_quiet (f : W → W) (s : State) (h : (f (load s)).rq = []) (k : (f (load s)).dev.log.lstate ≠ 4) :
    runW f s = .next (commit s (f (load s))) := by
  rw [runW, W.close_quiet _ h k]

theorem rackRun_quiet (f : W → W) (s : State) (r : s.dev.rackOn = true) (h : (f (load s)).rq = []) (k : (f (load s)).dev.log.lstate ≠ 4) :
    rackRun f s = .next (commit s (f (load s))) := by
  have e : onRack f (load s) = f (load s) := if_pos r
  rw [rackRun, runW_quiet] <;> rw [e] <;> assumption

theorem awakeRun_quiet (f : W → W) (s : State) (r : s.dev.awake = true) (h : (f (load s)).rq = []) (k : (f (load s)).dev.log.lstate ≠ 4) :
    awakeRun f s = .next (commit s (f (load s))) := by
  have e : onAwake f (load s) = f (load s) := if_pos r
  rw [awakeRun, runW_quiet] <;> rw [e] <;> assumption

theorem boardRun_quiet (f : W → W) (s : State) (r : s.dev.bd.runs = true) (l : s.dev.log.lstate < 4)
    (h : (f (load s)).rq = []) (k : (f (load s)).dev.log.lstate ≠ 4) :
    boardRun f s = .next (commit s (f (load s))) := by
  have e : onBoard f (load s) = f (load s) := by
    have : (load s).dev.bd.runs && (load s).dev.log.lstate != 5 := by
      have : s.dev.log.lstate ≠ 5 := by omega
      simp [load, r, this]
    exact if_pos this
  rw [boardRun, runW_quiet] <;> rw [e] <;> assumption

/-! ## After recording -/

/-- Committing a record that differs from `v` in what logging changes alone. -/
theorem commit_logged (s : State) (v w : W) (h : v.SameButLog w) : commit s w = (commit s v).logged (commit s w) := by
  rw [h.1]; rfl

/-- Committing a record that differs from `v` in what a raise changes alone. -/
theorem commit_raised (s : State) (v w : W) (h : v.SameButRaise w) : commit s w = (commit s v).raised (commit s w) := by
  rw [h.1]; rfl

/-! ## The outcome of a meaning whose working record is known -/

/-- `f` at `s` ends at `v`, asking for nothing, outside REPLAY. -/
def W.Ends (f : W → W) (s : State) (v : W) : Prop := f (load s) = v ∧ v.rq = [] ∧ v.dev.log.lstate ≠ 4

theorem runW_next {f : W → W} {s : State} {v : W} (h : W.Ends f s v) : runW f s = .next (commit s v) := by
  obtain ⟨h, q, l⟩ := h; subst h; exact runW_quiet f s q l

theorem rackRun_next {f : W → W} {s : State} {v : W} (r : s.rack) (h : W.Ends f s v) : rackRun f s = .next (commit s v) := by
  obtain ⟨h, q, l⟩ := h; subst h; exact rackRun_quiet f s r.1 q l

theorem awakeRun_next {f : W → W} {s : State} {v : W} (r : s.awake) (h : W.Ends f s v) : awakeRun f s = .next (commit s v) := by
  obtain ⟨h, q, l⟩ := h; subst h; exact awakeRun_quiet f s r.1 q l

theorem boardRun_next {f : W → W} {s : State} {v : W} (r : s.board) (h : W.Ends f s v) : boardRun f s = .next (commit s v) := by
  obtain ⟨h, q, l⟩ := h; subst h; exact boardRun_quiet f s r.1 r.2 q l

/-- Where `f` differs from `v` in what logging changes alone, and `v` asks for nothing. -/
theorem W.SameButLog.ends {f : W → W} {s : State} {v : W} (h : v.SameButLog (f (load s))) (q : v.rq = []) (l : v.dev.log.lstate ≠ 4) :
    W.Ends f s (f (load s)) := ⟨rfl, by rw [h.1]; exact q, h.2 l⟩

theorem W.SameButRaise.ends {f : W → W} {s : State} {v : W} (h : v.SameButRaise (f (load s))) (q : v.rq = []) (l : v.dev.log.lstate ≠ 4) :
    W.Ends f s (f (load s)) := ⟨rfl, by rw [h.1]; exact q, h.2.1 l⟩

theorem rackRun_logged {f : W → W} {s : State} {v : W} (r : s.rack) (h : v.SameButLog (f (load s))) (q : v.rq = []) (l : v.dev.log.lstate ≠ 4) :
    ∃ t, rackRun f s = .next t ∧ t = (commit s v).logged t :=
  ⟨_, rackRun_next r (h.ends q l), commit_logged s v _ h⟩

theorem rackRun_raised {f : W → W} {s : State} {v : W} (r : s.rack) (h : v.SameButRaise (f (load s))) (q : v.rq = []) (l : v.dev.log.lstate ≠ 4) :
    ∃ t, rackRun f s = .next t ∧ t = (commit s v).raised t :=
  ⟨_, rackRun_next r (h.ends q l), commit_raised s v _ h⟩

theorem awakeRun_logged {f : W → W} {s : State} {v : W} (r : s.awake) (h : v.SameButLog (f (load s))) (q : v.rq = []) (l : v.dev.log.lstate ≠ 4) :
    ∃ t, awakeRun f s = .next t ∧ t = (commit s v).logged t :=
  ⟨_, awakeRun_next r (h.ends q l), commit_logged s v _ h⟩

theorem awakeRun_raised {f : W → W} {s : State} {v : W} (r : s.awake) (h : v.SameButRaise (f (load s))) (q : v.rq = []) (l : v.dev.log.lstate ≠ 4) :
    ∃ t, awakeRun f s = .next t ∧ t = (commit s v).raised t :=
  ⟨_, awakeRun_next r (h.ends q l), commit_raised s v _ h⟩

theorem runW_logged {f : W → W} {s : State} {v : W} (h : v.SameButLog (f (load s))) (q : v.rq = []) (l : v.dev.log.lstate ≠ 4) :
    ∃ t, runW f s = .next t ∧ t = (commit s v).logged t :=
  ⟨_, runW_next (h.ends q l), commit_logged s v _ h⟩

theorem runW_raised {f : W → W} {s : State} {v : W} (h : v.SameButRaise (f (load s))) (q : v.rq = []) (l : v.dev.log.lstate ≠ 4) :
    ∃ t, runW f s = .next t ∧ t = (commit s v).raised t :=
  ⟨_, runW_next (h.ends q l), commit_raised s v _ h⟩

end Sys2Proof.Machine
end

