-- ==== Sys2Proof/Laws/Access.lean ====
section
/-! SUPPORT. Register accesses by command: which block a write or a read reaches, and what the access record then holds. -/

namespace Sys2Proof.Machine

/-! ## Who is turned away -/

theorem fatalBars_writer (s : State) (a : Nat) (h : s.writer 4) : (load s).fatalBars 4 a = false := by
  have := h.2
  simp only [W.fatalBars, load, this, Bool.false_and]

theorem fatalBars_calm (w : W) (t a : Nat) (h : w.dev.flt.fatal = false) : w.fatalBars t a = false := by
  simp only [W.fatalBars, h, Bool.false_and]

/-! ## The block of an address -/

/-- An aligned, mapped address of the rack die. -/
def rackWord (a : Nat) : Prop := a % 4 = 0 ∧ isMapped a = true ∧ isBoardAddr a = false

theorem rackWord_low (a : Nat) (h : a % 4 = 0) (k : a ≤ 0x4FFF ∨ (0x20000 ≤ a ∧ a ≤ 0x4FFFF) ∨ (0x70000 ≤ a ∧ a ≤ 0x9FFFF) ∨ (0xA0000 ≤ a ∧ a ≤ 0xA7FFF) ∨
    (0xB0000 ≤ a ∧ a ≤ 0xEFFFF) ∨ (0x200000 ≤ a ∧ a ≤ 0x23FFFF)) : rackWord a := by
  refine ⟨h, ?_, ?_⟩
  · unfold isMapped
    simp only [Bool.or_eq_true, Bool.and_eq_true, decide_eq_true_eq]
    omega
  · unfold isBoardAddr
    simp only [Bool.or_eq_false_iff, Bool.and_eq_false_iff, decide_eq_false_iff_not]
    omega

theorem regWrite_gate (w : W) (t a : Nat) (h : rackWord a) (f : w.fatalBars t a = false) :
    ¬ (a % 4 ≠ 0 ∨ !isMapped a ∨ isBoardAddr a ∨ w.fatalBars t a) := by
  simp [h.1, h.2.1, h.2.2, f]

section
variable (w : W) (t v : Nat) (tk : Option Nat) (b : Bool) (a : Nat) (h : rackWord a) (f : w.fatalBars t a = false)
include h f

theorem regWrite_sup (l : 0x1000 ≤ a) (u : a < 0x2000) : w.regWrite t a v tk b = doneWrite (w.supWrite t (a - 0x1000) v) := by
  unfold W.regWrite
  rw [if_neg (regWrite_gate w t a h f), if_neg (by omega), if_pos u]

theorem regWrite_rst (l : 0x2000 ≤ a) (u : a < 0x3000) : w.regWrite t a v tk b = doneWrite (w.rstWrite t (a - 0x2000) v) := by
  unfold W.regWrite
  rw [if_neg (regWrite_gate w t a h f), if_neg (by omega), if_neg (by omega), if_pos u]

theorem regWrite_arb (l : 0x30000 ≤ a) (u : a < 0x40000) : w.regWrite t a v tk b = doneWrite (w.arbWrite t (a - 0x30000) v) := by
  unfold W.regWrite
  rw [if_neg (regWrite_gate w t a h f), if_neg (by omega), if_neg (by omega), if_neg (by omega), if_neg (by omega), if_neg (by omega),
    if_neg (by omega), if_neg (by omega), if_pos u]

theorem regWrite_bar (l : 0x40000 ≤ a) (u : a < 0x50000) : w.regWrite t a v tk b = w.barWrite t (a - 0x40000) v tk := by
  unfold W.regWrite
  rw [if_neg (regWrite_gate w t a h f), if_neg (by omega), if_neg (by omega), if_neg (by omega), if_neg (by omega), if_neg (by omega),
    if_neg (by omega), if_neg (by omega), if_neg (by omega), if_pos u]

theorem regWrite_chk (l : 0x70000 ≤ a) (u : a < 0x80000) : w.regWrite t a v tk b = doneWrite (w.chkWrite t (a - 0x70000) v) := by
  unfold W.regWrite
  rw [if_neg (regWrite_gate w t a h f)]
  iterate 9 rw [if_neg (by omega)]
  rw [if_pos u]

theorem regWrite_flt (l : 0x80000 ≤ a) (u : a < 0x90000) : w.regWrite t a v tk b = doneWrite (w.fltWrite t (a - 0x80000) v b) := by
  unfold W.regWrite
  rw [if_neg (regWrite_gate w t a h f)]
  iterate 10 rw [if_neg (by omega)]
  rw [if_pos u]

theorem regWrite_tim (l : 0x90000 ≤ a) (u : a < 0xA0000) : w.regWrite t a v tk b = doneWrite (w.timWrite t (a - 0x90000) v) := by
  unfold W.regWrite
  rw [if_neg (regWrite_gate w t a h f)]
  iterate 11 rw [if_neg (by omega)]
  rw [if_pos u]

theorem regWrite_idn (l : 0xA0000 ≤ a) (u : a < 0xB0000) : w.regWrite t a v tk b = doneWrite (w.idnWrite t (a - 0xA0000) v) := by
  unfold W.regWrite
  rw [if_neg (regWrite_gate w t a h f)]
  iterate 12 rw [if_neg (by omega)]
  rw [if_pos u]

theorem regWrite_log (l : 0xB0000 ≤ a) (u : a < 0xC0000) : w.regWrite t a v tk b = doneWrite (w.logWrite t (a - 0xB0000) v) := by
  unfold W.regWrite
  rw [if_neg (regWrite_gate w t a h f)]
  iterate 13 rw [if_neg (by omega)]
  rw [if_pos u]

theorem regWrite_pai (l : 0xC0000 ≤ a) (u : a < 0xD0000) : w.regWrite t a v tk b = doneWrite (w.paiWrite t (a - 0xC0000) v) := by
  unfold W.regWrite
  rw [if_neg (regWrite_gate w t a h f)]
  iterate 14 rw [if_neg (by omega)]
  rw [if_pos u]

theorem regWrite_img (l : 0xD0000 ≤ a) (u : a < 0xE0000) : w.regWrite t a v tk b = doneWrite (w.imgWrite t (a - 0xD0000) v) := by
  unfold W.regWrite
  rw [if_neg (regWrite_gate w t a h f)]
  iterate 15 rw [if_neg (by omega)]
  rw [if_pos u]

theorem regWrite_win (l : 0x200000 ≤ a) : w.regWrite t a v tk b = doneWrite (w.winWrite t (a - 0x200000) v) := by
  unfold W.regWrite
  rw [if_neg (regWrite_gate w t a h f)]
  iterate 18 rw [if_neg (by omega)]

end

/-- A read in the TIM block. -/
theorem regRead_tim (w : W) (t a : Nat) (h : rackWord a) (l : 0x90000 ≤ a) (u : a < 0xA0000) : w.regRead t a = okRead (w.timRead t (a - 0x90000)) := by
  unfold W.regRead
  rw [if_neg (by simp [h.1, h.2.1, h.2.2])]
  iterate 11 rw [if_neg (by omega)]
  rw [if_pos u]

/-! ## The access record -/

theorem act_done (w : W) (t a v : Nat) (h : w.dev.barred t = false) (x : W) (st : Nat) (k : w.regWrite t a v none false = (x, some st)) :
    w.act t a v = x.ack st := by
  unfold W.act
  rw [if_neg (by rw [h]; exact Bool.false_ne_true)]
  simp only [k]

theorem look_done (w : W) (t a : Nat) (h : w.dev.barred t = false) (x : W) (st y : Nat) (k : w.regRead t a = (x, st, y)) :
    w.look t a = x.ack st (BitVec.ofNat 32 y) := by
  unfold W.look
  rw [if_neg (by rw [h]; exact Bool.false_ne_true)]
  simp only [k]

/-- A write refused whatever the unit's state answers DENIED and changes nothing else. -/
theorem act_denied (w : W) (t a v : Nat) (k : w.fatalBars t a = false → w.regWrite t a v none false = (w, some stDENIED)) :
    w.act t a v = w.ack stDENIED := by
  unfold W.act
  split
  · rfl
  · have : w.regWrite t a v none false = (w, some stDENIED) := by
      cases f : w.fatalBars t a with
      | false => exact k f
      | true =>
        unfold W.regWrite
        rw [if_pos (Or.inr (Or.inr (Or.inr f)))]
    simp only [this]

end Sys2Proof.Machine
end

