-- ==== Sys2Proof/Laws/Board.lean ====
section
/-! SUPPORT. The board die alone: the operations that change no other block, as functions of the board die, and what a walk over
lanes changes. -/

namespace Sys2Proof.Machine

/-! ## Sparse tables -/

theorem tget_tput {α : Type} (d : α) (t : Tbl α) (i : Nat) (a : α) : tget d (tput t i a) i = a := by
  induction t with
  | nil => simp [tput, tget]
  | cons e t ih =>
    obtain ⟨k, b⟩ := e
    unfold tput
    split
    · simp [tget]
    · split
      · simp [tget]
      · rename_i h; simp [tget, h, ih]

theorem tget_tput_ne {α : Type} (d : α) (t : Tbl α) (i j : Nat) (a : α) (h : j ≠ i) : tget d (tput t i a) j = tget d t j := by
  induction t with
  | nil => simp [tput, tget, Ne.symm h]
  | cons e t ih =>
    obtain ⟨k, b⟩ := e
    unfold tput
    split
    · simp [tget, Ne.symm h]
    · split
      · rename_i h'; subst h'; simp [tget, Ne.symm h]
      · simp only [tget, ih]

/-- Mapping a function over the entries maps what is read, where the function keeps the default. -/
theorem tget_map {α : Type} (d : α) (t : Tbl α) (f : α → α) (h : f d = d) (i : Nat) :
    tget d (t.map (fun (e : Nat × α) => (e.1, f e.2))) i = f (tget d t i) := by
  induction t with
  | nil => simp [tget, h]
  | cons e t ih =>
    obtain ⟨k, b⟩ := e
    simp only [List.map_cons, tget]
    split
    · rfl
    · exact ih

/-! ## The board die in the working record -/

/-- The record with the board die as given. -/
def W.withBd (w : W) (b : Board) : W := { w with dev.bd := b }

theorem W.withBd_self (w : W) : w.withBd w.dev.bd = w := rfl
@[simp] theorem W.withBd_bd (w : W) (b : Board) : (w.withBd b).dev.bd = b := rfl
@[simp] theorem W.withBd_log (w : W) (b : Board) : (w.withBd b).dev.log = w.dev.log := rfl
@[simp] theorem W.withBd_rq (w : W) (b : Board) : (w.withBd b).rq = w.rq := rfl
@[simp] theorem W.withBd_modBd (w : W) (b : Board) (f : Board → Board) : (w.withBd b).modBd f = w.withBd (f b) := rfl
@[simp] theorem W.withBd_withBd (w : W) (b c : Board) : (w.withBd b).withBd c = w.withBd c := rfl
theorem commit_withBd (s : State) (b : Board) : commit s ((load s).withBd b) = s.withBoard b := rfl

@[simp] theorem Board.tells_core (b : Board) (l : List Payload) : (b.tells l).core = b.core := rfl
@[simp] theorem Board.page0_core (b : Board) : b.page0.core = b.core := rfl
@[simp] theorem Board.page1_core (b : Board) : b.page1.core = b.core := rfl
@[simp] theorem Board.page2_core (b : Board) : b.page2.core = b.core := rfl
@[simp] theorem Board.raises_core (b : Board) (s d e : Nat) : (b.raises s d e).core = b.core := rfl
@[simp] theorem Board.setLane_core (b : Board) (n : Nat) (x : Lane) : (b.setLane n x).core = b.core := rfl
@[simp] theorem Board.drive_core (b : Board) (n c : Nat) : (b.drive n c).core = b.core := rfl
@[simp] theorem Board.tells_lane (b : Board) (l : List Payload) (n : Nat) : (b.tells l).lane n = b.lane n := rfl
@[simp] theorem Board.page0_lane (b : Board) (n : Nat) : b.page0.lane n = b.lane n := rfl
@[simp] theorem Board.page1_lane (b : Board) (n : Nat) : b.page1.lane n = b.lane n := rfl
@[simp] theorem Board.page2_lane (b : Board) (n : Nat) : b.page2.lane n = b.lane n := rfl
@[simp] theorem Board.raises_lane (b : Board) (s d e n : Nat) : (b.raises s d e).lane n = b.lane n := rfl
@[simp] theorem Board.setLane_lane (b : Board) (n : Nat) (x : Lane) : (b.setLane n x).lane n = x := tget_tput _ _ _ _
theorem Board.setLane_lane_ne (b : Board) (n m : Nat) (x : Lane) (h : m ≠ n) : (b.setLane n x).lane m = b.lane m := tget_tput_ne _ _ _ _ _ h
theorem Board.drive_lane_ne (b : Board) (n m c : Nat) (h : m ≠ n) : (b.drive n c).lane m = b.lane m := tget_tput_ne _ _ _ _ _ h

theorem Board.tells_tells (b : Board) (k l : List Payload) : (b.tells k).tells l = b.tells (k ++ l) := by
  simp [Board.tells, List.append_assoc]

section
variable (w : W) (b : Board)

theorem W.withBd_modLane (n : Nat) (f : Lane → Lane) : (w.withBd b).modLane n f = w.withBd (b.setLane n (f (b.lane n))) := rfl
theorem W.withBd_modEng (n : Nat) (f : Eng → Eng) : (w.withBd b).modEng n f = w.withBd { b with engs := tmod {} b.engs n f } := rfl
theorem W.withBd_reply (p : Pkt) (st v : Nat) (x : Option (Nat × Nat × Nat)) (y : Option (Nat × LaneView)) :
    (w.withBd b).reply p st v x y = w.withBd (b.replies p st (BitVec.ofNat 32 v) x y) := by
  unfold W.reply Board.replies; dsimp only; split <;> rfl

variable (h : b.core = true)
include h

theorem W.withBd_status (x : Payload) : (w.withBd b).status x = w.withBd (b.tells [x]) := if_pos h
theorem W.withBd_bLog (e : List Nat) : (w.withBd b).bLog e = w.withBd (b.tells [.page5 [e]]) := if_pos h
theorem W.withBd_bLogT (k : Nat) (fs : List (Nat × Nat × Nat)) (r : List Nat) :
    (w.withBd b).bLogT k fs r = w.withBd (b.tells [.page5 [packN ((0, 6, k) :: fs) :: 0x3F :: r]]) := if_pos h
theorem W.withBd_bDecide (k i d : Nat) : (w.withBd b).bDecide k i d = w.withBd (b.tells [boardEntry k i d]) := if_pos h
theorem W.withBd_bTimer (k i : Nat) : (w.withBd b).bTimer k i = w.withBd (b.tells [timerEntry k i]) := if_pos h
theorem W.withBd_page0 : (w.withBd b).page0 = w.withBd b.page0 := by
  unfold W.page0; dsimp only; rw [W.withBd_status _ _ h]; rfl
theorem W.withBd_page1 : (w.withBd b).page1 = w.withBd b.page1 := by
  unfold W.page1; dsimp only; rw [W.withBd_status _ _ h]; rfl
theorem W.withBd_page2 : (w.withBd b).page2 = w.withBd b.page2 := by
  unfold W.page2; rw [W.withBd_status _ _ h]; rfl
theorem W.withBd_bRaise (k : w.dev.log.lstate ≠ 4) (src d e : Nat) : (w.withBd b).bRaise src d e = w.withBd (b.raises src d e) := by
  unfold W.bRaise
  refine (if_neg (fun x => k x.1)).trans ?_
  unfold W.bEvent
  exact if_pos h
theorem W.withBd_applyCode (n c : Nat) : (w.withBd b).applyCode n c = w.withBd (b.drive n c) := by
  unfold W.applyCode Board.drive
  by_cases m : (b.cfg.lane n).mode = 2
  · have : ((w.withBd b).bcfg.lane n).mode = 2 := m
    simp only [this, m, decide_true, if_true]
    unfold W.bLogK
    rw [W.withBd_modBd, W.withBd_modLane, W.withBd_bLog _ _ (by exact h)]; rfl
  · have : ¬ ((w.withBd b).bcfg.lane n).mode = 2 := m
    simp only [this, m, decide_false, if_false, Bool.false_eq_true]
    unfold W.bLogK
    rw [W.withBd_modLane, W.withBd_bLog _ _ (by exact h)]; rfl

end

/-! ## Walks over lanes -/

/-- `b'` differs from `b` in the lanes, WSEQ and what is ready to send alone. -/
def Board.LanesOnly (b b' : Board) : Prop := b' = { b with lanes := b'.lanes, wseq := b'.wseq, outS := b'.outS }

theorem Board.LanesOnly.refl (b : Board) : b.LanesOnly b := rfl
theorem Board.LanesOnly.trans {a b c : Board} (h : a.LanesOnly b) (k : b.LanesOnly c) : a.LanesOnly c := by
  unfold Board.LanesOnly at *; rw [k, h]
theorem Board.LanesOnly.core {b b' : Board} (h : b.LanesOnly b') : b'.core = b.core := by rw [h]
theorem Board.LanesOnly.cfg {b b' : Board} (h : b.LanesOnly b') : b'.cfg = b.cfg := by rw [h]
theorem Board.LanesOnly.bankUp {b b' : Board} (h : b.LanesOnly b') (n : Nat) : b'.bankUp n = b.bankUp n := by rw [h]; rfl

theorem Board.setLane_only (b : Board) (n : Nat) (x : Lane) : b.LanesOnly (b.setLane n x) := rfl
theorem Board.tells_only (b : Board) (l : List Payload) : b.LanesOnly (b.tells l) := rfl
theorem Board.drive_only (b : Board) (n c : Nat) : b.LanesOnly (b.drive n c) := rfl

/-- A relation that steps of a walk keep: it holds of no change, adds up, and keeps the core running. -/
structure Walks (O : Board → Board → Prop) : Prop where
  refl : ∀ b, O b b
  trans : ∀ {a b c}, O a b → O b c → O a c
  core : ∀ {a b}, O a b → b.core = a.core

theorem LanesOnly.walks : Walks Board.LanesOnly := ⟨Board.LanesOnly.refl, Board.LanesOnly.trans, Board.LanesOnly.core⟩

/-- `f n` changes lane `n` and no other, as `R` says, and what `O` allows. -/
def StepsLane (O : Board → Board → Prop) (f : W → Nat → W) (n : Nat) (R : Board → Lane → Lane → Prop) : Prop :=
  ∀ (w : W) (b : Board), b.core = true → ∃ b', f (w.withBd b) n = w.withBd b' ∧ O b b' ∧
    (∀ m, m ≠ n → b'.lane m = b.lane m) ∧ R b (b.lane n) (b'.lane n)

/-- A walk over distinct lanes steps each of them once. -/
theorem walk_lanes {O : Board → Board → Prop} (ho : Walks O) (f : W → Nat → W) (R : Nat → Board → Lane → Lane → Prop) (l : List Nat) (hd : l.Nodup)
    (hf : ∀ n ∈ l, StepsLane O f n (R n)) (w : W) (b : Board) (h : b.core = true)
    (hR : ∀ n b b' x y, O b b' → R n b' x y → R n b x y) :
    ∃ b', l.foldl f (w.withBd b) = w.withBd b' ∧ O b b' ∧ (∀ m, m ∉ l → b'.lane m = b.lane m) ∧
      ∀ n ∈ l, R n b (b.lane n) (b'.lane n) := by
  induction l generalizing b with
  | nil => exact ⟨b, rfl, ho.refl _, fun _ _ => rfl, by simp⟩
  | cons n l ih =>
    obtain ⟨b1, e1, o1, k1, r1⟩ := hf n (by simp) w b h
    rw [List.nodup_cons] at hd
    obtain ⟨b2, e2, o2, k2, r2⟩ := ih hd.2 (fun m hm => hf m (by simp [hm])) b1 ((ho.core o1).trans h)
    refine ⟨b2, by rw [List.foldl_cons, e1, e2], ho.trans o1 o2, ?_, ?_⟩
    · intro m hm
      rw [k2 m (fun x => hm (by simp [x])), k1 m (fun x => hm (by simp [x]))]
    · intro m hm
      rcases List.mem_cons.mp hm with rfl | hm
      · rw [k2 m hd.1]; exact r1
      · have : m ≠ n := fun x => hd.1 (x ▸ hm)
        have := r2 m hm
        rw [k1 m ‹m ≠ n›] at this
        exact hR m b b1 _ _ o1 this

theorem StepsLane.weaken {O O' : Board → Board → Prop} {f : W → Nat → W} {n : Nat} {R : Board → Lane → Lane → Prop} (h : StepsLane O f n R)
    (k : ∀ {a b}, O a b → O' a b) : StepsLane O' f n R := by
  intro w b hc
  obtain ⟨b', e, o, r⟩ := h w b hc
  exact ⟨b', e, k o, r⟩

theorem W.outLanes_nodup (w : W) : w.outLanes.Nodup := List.nodup_range.filter _
theorem W.safeLanes_nodup (w : W) : w.safeLanes.Nodup := List.nodup_range.filter _

/-! ## Causes -/

theorem driveSafe_steps (n : Nat) (x : Bool) (w : W) (b : Board) (h : b.core = true) :
    ∃ b', (w.withBd b).driveSafe n x = w.withBd b' ∧ b.LanesOnly b' ∧ (∀ m, m ≠ n → b'.lane m = b.lane m) ∧
      (b'.lane n).cause = (b.lane n).cause ∧ (b'.lane n).stage = (b.lane n).stage := by
  unfold W.driveSafe
  extract_lets f v
  split
  · rw [W.withBd_applyCode _ _ h]
    exact ⟨_, rfl, b.drive_only _ _, fun m hm => b.drive_lane_ne _ _ _ hm, by simp [Board.drive], by simp [Board.drive]⟩
  · rw [W.withBd_applyCode _ _ h, W.withBd_modLane]
    refine ⟨_, rfl, (b.drive_only _ _).trans (Board.setLane_only _ _ _), fun m hm => ?_, by simp [Board.drive], by simp [Board.drive]⟩
    rw [Board.setLane_lane_ne _ _ _ _ hm, Board.drive_lane_ne _ _ _ _ hm]

/-- Taking a fail-safe cause: the cause is added, and the lane is out of LIVE. -/
theorem laneCause_steps (n : Nat) (c : BitVec 7) :
    StepsLane Board.LanesOnly (fun w n => w.laneCause n c) n (fun _ l l' => l'.cause = l.cause ||| c ∧ l'.stage ≠ 0) := by
  intro w b h
  dsimp only
  unfold W.laneCause
  dsimp only
  rw [W.withBd_modLane]
  by_cases live : (b.lane n).stage = 0
  · have e : (((w.withBd b).dev.bd.lane n).stage == 0) = true := by simp [live]
    rw [if_pos e, W.withBd_modLane]
    have hl : ∀ x, ((b.setLane n x).lane n) = x := fun x => Board.setLane_lane _ _ _
    have o1 : b.LanesOnly ((b.setLane n { b.lane n with cause := (b.lane n).cause ||| c, refr := 0, armed := if ((w.withBd b).dev.bd.lane n).stage == 0 then ((w.withBd b).lfs n).auto else (b.lane n).armed }).setLane n
        { (((b.setLane n { b.lane n with cause := (b.lane n).cause ||| c, refr := 0, armed := if ((w.withBd b).dev.bd.lane n).stage == 0 then ((w.withBd b).lfs n).auto else (b.lane n).armed }).lane n : Lane)).closeWindow with stage := 1 }) :=
      (Board.setLane_only _ _ _).trans (Board.setLane_only _ _ _)
    revert o1
    generalize hb : Board.setLane (b.setLane n _) n _ = b1
    intro o1
    have k1 : ∀ m, m ≠ n → b1.lane m = b.lane m := fun m hm => by
      rw [← hb, Board.setLane_lane_ne _ _ _ _ hm, Board.setLane_lane_ne _ _ _ _ hm]
    have c1 : (b1.lane n).cause = (b.lane n).cause ||| c := by rw [← hb, Board.setLane_lane, hl]; rfl
    have s1 : (b1.lane n).stage = 1 := by rw [← hb, Board.setLane_lane]
    have h1 : b1.core = true := o1.core.trans h
    split
    · obtain ⟨b', e', o, k, cc, ss⟩ := driveSafe_steps n false w b1 h1
      exact ⟨b', e', o1.trans o, fun m hm => (k m hm).trans (k1 m hm), cc.trans c1, by rw [ss, s1]; simp⟩
    · rw [W.withBd_applyCode _ _ h1, W.withBd_modLane]
      refine ⟨_, rfl, (o1.trans (Board.drive_only _ _ _)).trans (Board.setLane_only _ _ _), ?_, ?_⟩
      · intro m hm
        rw [Board.setLane_lane_ne _ _ _ _ hm, Board.drive_lane_ne _ _ _ _ hm, k1 m hm]
      · rw [Board.setLane_lane]; exact ⟨by rw [← c1]; simp [Board.drive], by simp⟩
  · have e : (((w.withBd b).dev.bd.lane n).stage == 0) = false := by simp [live]
    rw [if_neg (by rw [e]; simp)]
    refine ⟨_, rfl, Board.setLane_only _ _ _, fun m hm => Board.setLane_lane_ne _ _ _ _ hm, ?_⟩
    rw [Board.setLane_lane]
    exact ⟨rfl, live⟩

/-- `b'` differs from `b` in the lanes alone. -/
def Board.LanesAlone (b b' : Board) : Prop := b' = { b with lanes := b'.lanes }
theorem LanesAlone.walks : Walks Board.LanesAlone :=
  ⟨fun _ => rfl, fun h k => by unfold Board.LanesAlone at *; rw [k, h], fun h => by rw [h]⟩
theorem Board.LanesAlone.only {b b' : Board} (h : b.LanesAlone b') : b.LanesOnly b' := by unfold Board.LanesOnly; rw [h]
theorem Board.setLane_alone (b : Board) (n : Nat) (x : Lane) : b.LanesAlone (b.setLane n x) := rfl

/-- Changing one lane. -/
theorem modLane_steps (n : Nat) (f : Board → Lane → Lane) :
    StepsLane Board.LanesAlone (fun w n => w.modLane n (f w.dev.bd)) n (fun b l l' => l' = f b l) :=
  fun _ _ _ => ⟨_, rfl, Board.setLane_alone _ _ _, fun _ hm => Board.setLane_lane_ne _ _ _ _ hm, Board.setLane_lane _ _ _⟩

/-- Ending a cause. -/
theorem endCause_steps (n : Nat) (c : BitVec 7) :
    StepsLane Board.LanesAlone (fun w n => w.endCause n c) n (fun _ l l' => l' = { l with cause := l.cause &&& ~~~c, refr := 0 }) :=
  fun _ _ _ => ⟨_, rfl, Board.setLane_alone _ _ _, fun _ hm => Board.setLane_lane_ne _ _ _ _ hm, Board.setLane_lane _ _ _⟩

/-! ## What driving and reporting can change -/

/-- `b'` differs from `b` in the lanes, the engines, the direct channels, WSEQ, what is ready to send, the statuses told once, and the bank failure counts alone. -/
def Board.Around (b b' : Board) : Prop :=
  b' = { b with lanes := b'.lanes, engs := b'.engs, direct := b'.direct, wseq := b'.wseq, outS := b'.outS, out0 := b'.out0, outR := b'.outR,
                missed := b'.missed, rackLost := b'.rackLost, corrected := b'.corrected, fails := b'.fails }

theorem Board.Around.refl (b : Board) : b.Around b := rfl
theorem Board.Around.trans {a b c : Board} (h : a.Around b) (k : b.Around c) : a.Around c := by
  unfold Board.Around at *; rw [k, h]
theorem Board.Around.core {b b' : Board} (h : b.Around b') : b'.core = b.core := by rw [h]
theorem Board.LanesOnly.around {b b' : Board} (h : b.LanesOnly b') : b.Around b' := by unfold Board.Around; rw [h]

theorem Board.page0_around (b : Board) : b.Around b.page0 := rfl
theorem Board.page1_around (b : Board) : b.Around b.page1 := rfl
theorem Board.page2_around (b : Board) : b.Around b.page2 := rfl
theorem Board.tells_around (b : Board) (l : List Payload) : b.Around (b.tells l) := rfl
theorem Board.raises_around (b : Board) (s d e : Nat) : b.Around (b.raises s d e) := rfl
theorem Board.drive_around (b : Board) (n c : Nat) : b.Around (b.drive n c) := rfl
theorem Board.setLane_around (b : Board) (n : Nat) (x : Lane) : b.Around (b.setLane n x) := rfl

/-- `f` changes what driving and reporting can change alone. -/
def Moves (f : W → W) : Prop := ∀ (w : W) (b : Board), b.core = true → ∃ b', f (w.withBd b) = w.withBd b' ∧ b.Around b'

theorem Moves.id : Moves (fun w => w) := fun _ b _ => ⟨b, rfl, rfl⟩
theorem Moves.comp {f g : W → W} (hf : Moves f) (hg : Moves g) : Moves (fun w => g (f w)) := by
  intro w b h
  obtain ⟨b1, e1, a1⟩ := hf w b h
  obtain ⟨b2, e2, a2⟩ := hg w b1 (a1.core.trans h)
  exact ⟨b2, by show g (f _) = _; rw [e1, e2], a1.trans a2⟩
theorem Moves.foldl {α : Type} {f : W → α → W} (hf : ∀ a, Moves (fun w => f w a)) (l : List α) : Moves (fun w => l.foldl f w) := by
  induction l with
  | nil => exact Moves.id
  | cons a l ih => exact Moves.comp (hf a) ih
theorem Around.walks : Walks Board.Around := ⟨Board.Around.refl, Board.Around.trans, Board.Around.core⟩
theorem StepsLane.moves {f : W → Nat → W} {n : Nat} {R : Board → Lane → Lane → Prop} (h : StepsLane Board.LanesOnly f n R) : Moves (fun w => f w n) := by
  intro w b hc
  obtain ⟨b', e, o, _⟩ := h w b hc
  exact ⟨b', e, o.around⟩
theorem Moves.ite {c : W → Prop} [∀ w, Decidable (c w)] {f g : W → W} (hf : Moves f) (hg : Moves g) : Moves (fun w => if c w then f w else g w) := by
  intro w b h
  by_cases k : c (w.withBd b)
  · obtain ⟨b', e, a⟩ := hf w b h; exact ⟨b', by rw [← e]; exact if_pos k, a⟩
  · obtain ⟨b', e, a⟩ := hg w b h; exact ⟨b', by rw [← e]; exact if_neg k, a⟩

theorem moves_modLane (n : Nat) (f : W → Lane → Lane) : Moves (fun w => w.modLane n (f w)) := fun _ _ _ => ⟨_, rfl, rfl⟩
theorem moves_modEng (n : Nat) (f : W → Eng → Eng) : Moves (fun w => w.modEng n (f w)) := fun _ _ _ => ⟨_, rfl, rfl⟩
theorem moves_applyCode (n : Nat) (c : W → Nat) : Moves (fun w => w.applyCode n (c w)) :=
  fun w b h => ⟨_, W.withBd_applyCode w b h n _, rfl⟩
theorem moves_page0 : Moves W.page0 := fun w b h => ⟨_, W.withBd_page0 w b h, rfl⟩
theorem moves_page1 : Moves W.page1 := fun w b h => ⟨_, W.withBd_page1 w b h, rfl⟩
theorem moves_page2 : Moves W.page2 := fun w b h => ⟨_, W.withBd_page2 w b h, rfl⟩
theorem moves_bDecide (k i d : Nat) : Moves (fun w => w.bDecide k i d) := fun w b h => ⟨_, W.withBd_bDecide w b h k i d, rfl⟩
theorem moves_bTimer (k i : Nat) : Moves (fun w => w.bTimer k i) := fun w b h => ⟨_, W.withBd_bTimer w b h k i, rfl⟩
theorem moves_bLog (e : W → List Nat) : Moves (fun w => w.bLog (e w)) := fun w b h => ⟨_, W.withBd_bLog w b h _, rfl⟩
theorem moves_bRaise (src : Nat) (d e : W → Nat) : Moves (fun w => w.bRaise src (d w) (e w)) := by
  intro w b h
  unfold W.bRaise
  dsimp only
  split
  · exact ⟨b, rfl, rfl⟩
  · exact ⟨_, if_pos h, rfl⟩
theorem moves_driveSafe (n : Nat) (x : Bool) : Moves (fun w => w.driveSafe n x) := by
  intro w b h
  obtain ⟨b', e, o, _⟩ := driveSafe_steps n x w b h
  exact ⟨b', e, o.around⟩
theorem moves_laneCause (n : Nat) (c : BitVec 7) : Moves (fun w => w.laneCause n c) := (laneCause_steps n c).moves
theorem moves_driveRole (e k : Nat) (x : W → Bool) : Moves (fun w => w.driveRole e k (x w)) := by
  intro w b h
  unfold W.driveRole
  dsimp only
  split
  · split
    · exact ⟨_, W.withBd_applyCode w b h _ _, rfl⟩
    · exact ⟨b, rfl, rfl⟩
  · exact ⟨b, rfl, rfl⟩
theorem moves_driveGroup (e : Nat) (v : W → Option Byte) (od : Bool) : Moves (fun w => w.driveGroup e (v w) od) := by
  intro w b h
  unfold W.driveGroup W.forEach
  dsimp only
  generalize ((w.withBd b).ecfg e).group.zip (List.range 8) = l
  generalize v (w.withBd b) = x
  refine Moves.foldl (f := fun w p => if (w.dev.bd.lane p.1).stage = 0 ∧ w.dev.bd.bankUp p.1 then _ else w) (fun p => ?_) l w b h
  refine Moves.ite ?_ Moves.id
  cases x with
  | none => exact moves_applyCode p.1 (fun _ => 2)
  | some y => exact moves_applyCode p.1 (fun _ => if y.getLsbD p.2 then 1 else if od then 2 else 0)
theorem moves_strobe (e : Nat) (a : Bool) : Moves (fun w => w.strobe e a) := by
  intro w b h
  obtain ⟨b', k, o⟩ := moves_driveRole e 0 (fun _ => (a == (((w.withBd b).ecfg e).t1 0 1 == 1))) w _ (show ({ b with engs := tmod {} b.engs e (fun g => { g with strobe := a }) } : Board).core = true from h)
  exact ⟨b', k, o⟩

/-- The idle levels of an engine. -/
theorem moves_idleLevels (e : Nat) : Moves (fun w => w.idleLevels e) := by
  intro w b h
  unfold W.idleLevels
  dsimp only
  split
  · refine (Moves.comp (Moves.comp (moves_strobe e false) (moves_driveRole e 2 (fun _ => _))) (moves_driveGroup e (fun _ => none) false)) w b h
  · exact (Moves.comp (Moves.comp (moves_driveRole e 0 (fun _ => _)) (moves_driveRole e 2 (fun _ => false))) (moves_modEng e (fun _ g => { g with dirOn := false }))) w b h
  · split
    · exact moves_modEng e (fun _ g => { g with selLow := g.selLow }) w b h
    · exact (Moves.comp (Moves.comp (Moves.comp (moves_driveRole e 0 (fun _ => _)) (moves_driveRole e 3 (fun _ => true))) (moves_driveRole e 1 (fun _ => false)))
        (moves_modEng e (fun _ g => { g with selLow := false }))) w b h
  · exact ⟨b, rfl, rfl⟩

end Sys2Proof.Machine
end

