-- ==== Sys2Proof/Laws/Collector.lean ====
section
/-! SUPPORT. The fault collector after a raise, an acknowledgement or a recovery, field by field. -/

namespace Sys2Proof.Machine

/-! ## What leaves the collector as it is -/

theorem W.modPort_flt (w : W) (p : RPort) (f : RingPort → RingPort) : (w.modPort p f).dev.flt = w.dev.flt := by cases p <;> rfl

theorem W.SameButLog.flt {a b : W} (h : a.SameButLog b) : b.dev.flt = a.dev.flt := by rw [h.1]

theorem W.startOut_flt (w : W) (p : RPort) : (w.startOut p).dev.flt = w.dev.flt := by
  unfold W.startOut
  dsimp only
  repeat' split
  all_goals first
    | exact W.modPort_flt _ _ _
    | exact (W.modPort_flt _ _ _).trans (((W.logK_log _ _ _).flt).trans (W.modPort_flt _ _ _))

theorem W.preempt_flt (w : W) (p : RPort) : (w.preempt p).dev.flt = w.dev.flt := by
  unfold W.preempt
  dsimp only
  repeat' split
  all_goals first | rfl | exact W.modPort_flt _ _ _

theorem W.pump_flt (w : W) (p : RPort) (n : Nat) : (w.pump p n).dev.flt = w.dev.flt := by
  induction n generalizing w with
  | zero => rfl
  | succ n ih =>
    unfold W.pump
    dsimp only
    split
    · rfl
    · rw [← w.preempt_flt p]
      generalize w.preempt p = v
      have h : (if (v.dev.ring.port p).cur.isNone then v.startOut p else v).dev.flt = v.dev.flt := by
        split
        · exact v.startOut_flt p
        · rfl
      rw [← h]
      generalize (if (v.dev.ring.port p).cur.isNone then v.startOut p else v) = u
      split
      · rfl
      · split
        · exact (ih _).trans (W.modPort_flt _ _ _)
        · exact W.modPort_flt _ _ _

theorem W.sendUnicast_flt (w : W) (d : Nat) (b : List Byte) : (w.sendUnicast d b).dev.flt = w.dev.flt := by
  unfold W.sendUnicast W.putOut
  dsimp only
  repeat' split
  all_goals first | rfl | exact (W.pump_flt _ _ _).trans (W.modPort_flt _ _ _)

theorem W.notice_flt (w : W) (t s d c : Nat) (a b e : Bool) (q : Nat) : (w.notice t s d c a b e q).dev.flt = w.dev.flt := by
  unfold W.notice
  dsimp only
  repeat' split
  all_goals first | rfl | exact W.sendUnicast_flt _ _ _

theorem W.notices_flt (w : W) (s d : Nat) (b : Bool) (x : Decision) (q : Nat) : (w.notices s d b x q).dev.flt = w.dev.flt := by
  unfold W.notices W.forEach
  dsimp only
  generalize noticeMask _ _ _ = m
  generalize List.range 5 = l
  induction l generalizing w with
  | nil => rfl
  | cons t l ih =>
    rw [List.foldl_cons, ih]
    split
    · exact W.notice_flt _ _ _ _ _ _ _ _ _
    · rfl

theorem W.classTrigger_flt (w : W) (c : Nat) : (w.classTrigger c).dev.flt = w.dev.flt := by
  unfold W.classTrigger
  split
  · exact w.trigger_log.flt
  · rfl

/-! ## The fault log's own progress -/

/-- `f` with the events of the fault log and the lane union taken from `g`. -/
def Faults.beside (f g : Faults) : Faults := { f with evq := g.evq, head := g.head, next := g.next, union := g.union }

theorem Faults.beside_self (f : Faults) : f.beside f = f := rfl

theorem Faults.beside_of {f g h : Faults} (k : g = f.beside g) : g.beside h = f.beside h := by rw [k]; rfl

theorem W.stageHeader_flt (w : W) : w.stageHeader.dev.flt = w.dev.flt := by
  unfold W.stageHeader
  dsimp only
  split <;> rfl

theorem W.pumpEvents_flt (w : W) (n : Nat) : (w.pumpEvents n).dev.flt = w.dev.flt.beside (w.pumpEvents n).dev.flt := by
  induction n generalizing w with
  | zero => rfl
  | succ n ih =>
    unfold W.pumpEvents
    dsimp only
    split
    · rfl
    · rename_i e _ _
      split
      · refine (ih _).trans ?_
        rw [W.stageHeader_flt]
        have h := (w.stageLog_log { line := lnFault + w.dev.flt.head, data := LogEv.bytes e w.dev.flt.next w.dev.flt.vcount w.dev.flt.vfail, flt := true }).flt
        generalize W.stageLog w _ = r at *
        show ({ r.1.dev.flt with evq := _, head := _, next := _ } : Faults).beside _ = _
        rw [h]
        rfl
      · rfl

theorem W.logEvent_flt (w : W) (e : LogEv) : (w.logEvent e).dev.flt = w.dev.flt.beside (w.logEvent e).dev.flt := by
  unfold W.logEvent
  exact (W.pumpEvents_flt _ _).trans rfl

theorem W.control_flt (w : W) (b : Payload) : (w.control b).dev.flt = w.dev.flt := by
  unfold W.control
  split <;> rfl

theorem W.regroup_flt (w : W) : w.regroup.dev.flt = w.dev.flt.beside w.regroup.dev.flt := by
  unfold W.regroup
  dsimp only
  repeat' split
  all_goals first
    | rfl
    | (rw [W.control_flt]; rfl)
    | (rw [W.control_flt, W.control_flt]; rfl)

/-! ## One raise -/

/-- The capture that a raise leaves. -/
def W.captureOf (w : W) (s d c : Nat) (esc : Bool) (x : RaiseInfo) : Capture :=
  let o := tget {} w.dev.flt.caps s
  if o.held then { o with count := satAdd 8 o.count 1 } else
    { held := true, cls := c, esc := esc, wire := x.wire, forced := x.forced, dom := domCode d, count := 1, addr := x.addr,
      acc := x.acc, ten := x.ten, q := w.dev.tim.qual, time := x.time.getD w.now, detail := x.detail, ext := x.ext }

/-- The collector with a raise captured. -/
def W.fltCaptured (w : W) (s d c : Nat) (esc : Bool) (x : RaiseInfo) : Faults :=
  { w.dev.flt with
    caps := tput w.dev.flt.caps s (w.captureOf s d c esc x)
    wires := if x.wire then tput w.dev.flt.wires s d else w.dev.flt.wires }

theorem W.record_flt (w : W) (s d : Nat) (x : RaiseInfo) (k : Decision) :
    (w.record s d x k).dev.flt = (w.fltCaptured s d k.cls k.esc x).beside (w.record s d x k).dev.flt := by
  unfold W.record
  dsimp only
  refine (W.logEvent_flt _ _).trans ?_
  have L := (w.logK_log 0x05 [(6, 7, s), (13, 3, domCode d), (16, 2, k.cls), (18, 1, b2n k.esc), (19, 1, b2n (pinSrc s && !x.forced))]).1
  generalize w.logK 0x05 _ = v at *
  have C : ((v.capture s d k.cls k.esc x).modFlt (fun f => { f with wires := if x.wire then tput f.wires s d else f.wires })).dev.flt = w.fltCaptured s d k.cls k.esc x := by
    rw [L]; rfl
  split
  · exact congrArg (fun f => Faults.beside f _) C
  · exact congrArg (fun f => Faults.beside f _) C

/-- The slots after a decision that orders no tenant reset. -/
def W.slotsAfter (w : W) (s d : Nat) : Decision → Tbl Slot
  | .fresh c e => tput w.dev.flt.slots (3 * d + c) { st := 1, src := s, t0 := w.mono, esc := e, word := w.cfg.flt.react' s d c }
  | _ => w.dev.flt.slots

theorem W.ask_flt (w : W) (r : ResetReq) : (w.ask r).dev.flt = w.dev.flt := rfl

theorem W.react_flt (w : W) (s d c : Nat) (e : Bool) (h : ¬ (c = 2 ∧ d ≠ dUnit)) :
    (w.react s d c e).dev.flt = ({ w.dev.flt with slots := w.slotsAfter s d (.fresh c e) } : Faults).beside (w.react s d c e).dev.flt := by
  unfold W.react
  dsimp only
  rw [if_neg h]
  have R := W.regroup_flt { w with dev.flt := w.dev.flt.setSlot d c { st := 1, src := s, t0 := w.mono, esc := e, word := w.cfg.flt.react' s d c } }
  generalize W.regroup _ = v at *
  have R' : v.dev.flt = ({ w.dev.flt with slots := w.slotsAfter s d (.fresh c e) } : Faults).beside v.dev.flt := R
  repeat' split
  all_goals exact R'

/-- The collector after a raise that orders no tenant reset. -/
theorem W.raise_flt (w : W) (s d : Nat) (x : RaiseInfo) (hr : reservedSrc s = false) (hw : w.dev.flt.wired s = false)
    (k : (∃ c e, w.decision s d x.wire = .fresh c e ∧ ¬ (c = 2 ∧ d ≠ dUnit)) ∨ ∃ c e, w.decision s d x.wire = .again c e) :
    (w.raise s d x).dev.flt =
      ({ w.fltCaptured s d (w.decision s d x.wire).cls (w.decision s d x.wire).esc x with slots := w.slotsAfter s d (w.decision s d x.wire) } : Faults).beside (w.raise s d x).dev.flt := by
  unfold W.raise
  rw [if_neg (by rw [hr, hw]; simp)]
  dsimp only
  generalize hk : w.decision s d x.wire = dec at *
  have A := w.record_flt s d x dec
  rw [W.classTrigger_flt, W.notices_flt]
  have B : (w.record s d x dec).mono = w.mono ∧ (w.record s d x dec).cfg = w.cfg := by
    have := (w.record_raise s d x dec).1
    generalize w.record s d x dec = v at *
    rw [this]; exact ⟨rfl, rfl⟩
  generalize w.record s d x dec = v at *
  rcases k with ⟨c, e, rfl, hc⟩ | ⟨c, e, rfl⟩
  · show (v.react s d c e).dev.flt = _
    refine (v.react_flt s d c e hc).trans ?_
    show Faults.beside _ (v.react s d c e).dev.flt = Faults.beside _ (v.react s d c e).dev.flt
    have E : v.slotsAfter s d (.fresh c e) = w.slotsAfter s d (.fresh c e) := by
      unfold W.slotsAfter
      dsimp only
      rw [B.1, B.2, show v.dev.flt.slots = w.dev.flt.slots by rw [A]; rfl]
    rw [E, A]
    rfl
  · exact A

/-- The collector after a raise by a command, in the terms of the statements. -/
theorem State.captured_of (s : State) (w : W) (x d : Nat) (i : RaiseInfo) (t : State) (hf : w.dev.flt = s.dev.flt) (ht : w.dev.tim = s.dev.tim) (hc : w.cfg = s.dev.img.cfg)
    (c : Nat) (esc : Bool) (k : w.decision x d i.wire = .fresh c esc) (h : ¬ (c = 2 ∧ d ≠ dUnit)) (hr : reservedSrc x = false) (hw : s.dev.flt.wired x = false)
    (e : t.dev.flt = (w.raise x d i).dev.flt) : s.captured t x d i c esc (s.activated x d c esc) := by
  have R := w.raise_flt x d i hr (by rw [hf]; exact hw) (.inl ⟨c, esc, k, h⟩)
  rw [k] at R
  unfold State.captured
  dsimp only
  rw [e]
  refine R.trans ?_
  generalize (w.raise x d i).dev.flt = g
  have C : w.captureOf x d c esc i = (load s).captureOf x d c esc i := by
    unfold W.captureOf W.now; rw [hf, ht]; rfl
  have M : w.mono = s.dev.tim.mono := congrArg TimeSt.mono ht
  show Faults.beside { w.dev.flt with
    caps := tput w.dev.flt.caps x (w.captureOf x d c esc i)
    wires := if i.wire then tput w.dev.flt.wires x d else w.dev.flt.wires
    slots := tput w.dev.flt.slots (3 * d + c) { st := 1, src := x, t0 := w.mono, esc := esc, word := w.cfg.flt.react' x d c } } g = _
  rw [C, M, hf, hc]
  rfl

/-- A raise in a STANDING slot. -/
theorem State.captured_again (s : State) (w : W) (x d : Nat) (i : RaiseInfo) (t : State) (hf : w.dev.flt = s.dev.flt) (ht : w.dev.tim = s.dev.tim)
    (c : Nat) (esc : Bool) (k : w.decision x d i.wire = .again c esc) (hr : reservedSrc x = false) (hw : s.dev.flt.wired x = false)
    (e : t.dev.flt = (w.raise x d i).dev.flt) : s.captured t x d i c esc s.dev.flt.slots := by
  have R := w.raise_flt x d i hr (by rw [hf]; exact hw) (.inr ⟨c, esc, k⟩)
  rw [k] at R
  unfold State.captured
  dsimp only
  rw [e]
  refine R.trans ?_
  generalize (w.raise x d i).dev.flt = g
  have C : w.captureOf x d c esc i = (load s).captureOf x d c esc i := by
    unfold W.captureOf W.now; rw [hf, ht]; rfl
  show Faults.beside { w.dev.flt with
    caps := tput w.dev.flt.caps x (w.captureOf x d c esc i)
    wires := if i.wire then tput w.dev.flt.wires x d else w.dev.flt.wires
    slots := w.dev.flt.slots } g = _
  rw [C, hf]
  rfl

/-! ## The decision (R295, R296) -/

theorem W.decision_clear (w : W) (x d : Nat) (wire : Bool) (c : Nat) (hc : (if wire then max (w.cfg.flt.effClass x) 1 else w.cfg.flt.effClass x) = c) (h1 : c ≤ 1)
    (h : (w.dev.flt.slot d c).st = 0) : w.decision x d wire = .fresh c false := by
  unfold W.decision
  dsimp only
  rw [hc]
  unfold Faults.decide'
  dsimp only
  rw [if_pos ⟨h, fun y => by omega⟩]

theorem W.decision_up (w : W) (x d : Nat) (hc : w.cfg.flt.effClass x = 0) (h0 : (w.dev.flt.slot d 0).st = 1) (h1 : (w.dev.flt.slot d 1).st = 0) :
    w.decision x d false = .fresh 1 true := by
  unfold W.decision
  dsimp only
  rw [if_neg (by simp), hc]
  unfold Faults.decide'
  dsimp only
  rw [if_neg (by rw [h0]; simp), if_neg (by simp), if_pos h0]
  unfold Faults.decide'
  dsimp only
  rw [if_pos ⟨h1, by simp⟩]

theorem W.decision_standing (w : W) (x d : Nat) (c : Nat) (hc : w.cfg.flt.effClass x = c) (h1 : c ≤ 1) (h : (w.dev.flt.slot d c).st = 2) :
    w.decision x d false = .again c false := by
  unfold W.decision
  dsimp only
  rw [if_neg (by simp), hc]
  unfold Faults.decide'
  dsimp only
  rw [if_neg (by rw [h]; simp), if_neg (by omega), if_neg (by rw [h]; simp)]

theorem W.decision_f (w : W) (x d : Nat) (hc : w.cfg.flt.effClass x = 2) (h : (w.dev.flt.slot d 2).st = 0) (hp : w.dev.flt.fpend = []) :
    w.decision x d false = .fresh 2 false := by
  unfold W.decision
  dsimp only
  rw [if_neg (by simp), hc]
  unfold Faults.decide'
  dsimp only
  rw [if_pos ⟨h, by rw [hp]; simp⟩]

end Sys2Proof.Machine
end

