-- ==== Sys2Proof/Laws/Engines.lean ====
section
/-! SUPPORT. The engines: what each operation of chapter 13 does to the board die alone. -/

namespace Sys2Proof.Machine

theorem tput_tput {α : Type} (t : Tbl α) (i : Nat) (a b : α) : tput (tput t i a) i b = tput t i b := by
  induction t with
  | nil => simp [tput]
  | cons e t ih =>
    obtain ⟨k, c⟩ := e
    unfold tput
    by_cases h : i < k
    · simp [h, tput]
    · by_cases h' : k = i
      · subst h'; simp [tput]
      · simp [h, h', tput, ih]

theorem Board.setLane_setLane (b : Board) (n : Nat) (x y : Lane) : (b.setLane n x).setLane n y = b.setLane n y := by
  unfold Board.setLane; simp only [tput_tput]

@[simp] theorem Board.setEng_eng (b : Board) (e : Nat) (g : Eng) : (b.setEng e g).eng e = g := tget_tput _ _ _ _
@[simp] theorem Board.setEng_core (b : Board) (e : Nat) (g : Eng) : (b.setEng e g).core = b.core := rfl
@[simp] theorem Board.setEng_lane (b : Board) (e n : Nat) (g : Eng) : (b.setEng e g).lane n = b.lane n := rfl
theorem Board.setEng_setEng (b : Board) (e : Nat) (x y : Eng) : (b.setEng e x).setEng e y = b.setEng e y := by
  unfold Board.setEng; simp only [tput_tput]
theorem Board.setEng_ecfg (b : Board) (e : Nat) (g : Eng) (h : g.kept = (b.eng e).kept) : (b.setEng e g).ecfg e = b.ecfg e := by
  unfold Board.ecfg; rw [Board.setEng_eng, h]; rfl
@[simp] theorem Board.ends_core (b : Board) (o : EngOp) (st sp : Nat) (v : BitVec 32) : (b.ends o st sp v).core = b.core := by
  unfold Board.ends; dsimp only; split <;> rfl
theorem Board.ends_eng (b : Board) (o : EngOp) (st sp : Nat) (v : BitVec 32) (e : Nat) : (b.ends o st sp v).eng e = b.eng e := by
  unfold Board.ends; dsimp only; split <;> rfl
theorem Board.ends_cfg (b : Board) (o : EngOp) (st sp : Nat) (v : BitVec 32) : (b.ends o st sp v).cfg = b.cfg := by
  unfold Board.ends; dsimp only; split <;> rfl
theorem Board.ends_ecfg (b : Board) (o : EngOp) (st sp : Nat) (v : BitVec 32) (e : Nat) : (b.ends o st sp v).ecfg e = b.ecfg e := by
  unfold Board.ecfg; rw [Board.ends_eng, Board.ends_cfg]
theorem Board.ends_setEng (b : Board) (o : EngOp) (st sp : Nat) (v : BitVec 32) (e : Nat) (g : Eng) :
    (b.setEng e g).ends o st sp v = (b.ends o st sp v).setEng e g := by
  unfold Board.ends; dsimp only; split <;> rfl

section
variable (w : W) (b : Board) (e : Nat)

theorem W.withBd_ecfg : (w.withBd b).ecfg e = b.ecfg e := rfl
theorem W.withBd_engHead (rx : Bool) : (w.withBd b).engHead e rx = ((b.eng e).chan rx).head? := rfl
theorem W.withBd_setEng (f : Eng → Eng) : (w.withBd b).modEng e f = w.withBd (b.setEng e (f (b.eng e))) := rfl
theorem W.withBd_engStep (n : Nat) (rx : Bool) : (w.withBd b).engStep e rx n =
    w.withBd (b.setEng e { ((b.eng e).modHead rx (fun o => { o with step := n })) with step := n, sub := 0 }) := rfl
theorem W.withBd_putLine (l : List Byte) : (w.withBd b).putLine e l = w.withBd (b.setEng e { b.eng e with txd := l.reverse ++ (b.eng e).txd }) := rfl

/-- The step of the operation at the head of the first channel. -/
theorem W.withBd_engStepHead (o : EngOp) (rest : List EngOp) (n : Nat) (h : (b.eng e).ops = o :: rest) :
    (w.withBd b).engStep e false n = w.withBd (b.setEng e ((b.eng e).at o rest n)) := by
  rw [W.withBd_engStep]
  have : (b.eng e).modHead false (fun o => { o with step := n }) = { b.eng e with ops := { o with step := n } :: rest } := by
    unfold Eng.modHead Eng.chan; simp only [Bool.false_eq_true, if_false, h]; rfl
  rw [this]; rfl

/-- Changing the operation at the head of the first channel. -/
theorem Eng.modHead_first (g : Eng) (o : EngOp) (rest : List EngOp) (f : EngOp → EngOp) (h : g.ops = o :: rest) :
    g.modHead false f = { g with ops := f o :: rest } := by
  unfold Eng.modHead Eng.chan; simp only [Bool.false_eq_true, if_false, h]; rfl

theorem W.withBd_backward (o : EngOp) (x : Payload) : (w.withBd b).backward o x = w.withBd
    (if o.op.req.queue = 0 then { b with out0 := b.out0 ++ [{ body := x, tkt := o.tkt, ic := o.ic, ten := o.op.req.ten.val, queue := o.op.req.queue.val }] }
     else { b with outR := b.outR ++ [{ body := x, tkt := o.tkt, ic := o.ic, ten := o.op.req.ten.val, queue := o.op.req.queue.val }] }) := by
  unfold W.backward; dsimp only; split <;> rfl

/-- The end of an operation: its data and its RESULT join its queue. -/
theorem W.withBd_engResult (o : EngOp) (st sp : Nat) (v : BitVec 32) : (w.withBd b).engResult o st sp v = w.withBd (b.ends o st sp v) := by
  unfold W.engResult Board.ends
  generalize pieces 10 o.rx.length o.rx = l
  have key : ∀ (l : List (List Byte)) (b : Board), l.foldl (fun w p => w.backward o (.rdata p)) (w.withBd b) = w.withBd
      (if o.op.req.queue = 0 then { b with out0 := b.out0 ++ (l.map Payload.rdata).map (fun x =>
          ({ body := x, tkt := o.tkt, ic := o.ic, ten := o.op.req.ten.val, queue := o.op.req.queue.val } : Pkt)) }
       else { b with outR := b.outR ++ (l.map Payload.rdata).map (fun x =>
          ({ body := x, tkt := o.tkt, ic := o.ic, ten := o.op.req.ten.val, queue := o.op.req.queue.val } : Pkt)) }) := by
    intro l
    induction l with
    | nil => intro b; split <;> simp only [List.foldl_nil, List.map_nil, List.append_nil]
    | cons p l ih =>
      intro b
      rw [List.foldl_cons, W.withBd_backward, ih]
      by_cases q : o.op.req.queue = 0
      · rw [if_pos q, if_pos q, if_pos q]
        simp only [List.map_cons, List.append_assoc, List.cons_append, List.nil_append]
      · rw [if_neg q, if_neg q, if_neg q]
        simp only [List.map_cons, List.append_assoc, List.cons_append, List.nil_append]
  rw [key, W.withBd_backward]
  by_cases q : o.op.req.queue = 0
  · simp only [if_pos q, List.map_append, List.map_cons, List.map_nil, List.append_assoc]
  · simp only [if_neg q, List.map_append, List.map_cons, List.map_nil, List.append_assoc]

variable (hc : b.core = true)
include hc

theorem W.withBd_driveRole (k : Nat) (high : Bool) : (w.withBd b).driveRole e k high = w.withBd (b.drivesRole e k high) := by
  unfold W.driveRole Board.drivesRole
  rw [W.withBd_ecfg]
  cases (b.ecfg e).role k with
  | none => rfl
  | some n =>
    dsimp only
    by_cases h : (b.lane n).stage = 0 ∧ b.bankUp n = true
    · rw [if_pos h]; exact (if_pos h).trans (W.withBd_applyCode _ _ hc _ _)
    · rw [if_neg h]; exact if_neg h

theorem W.withBd_engFault (h4 : w.dev.log.lstate ≠ 4) (src : Nat) : (w.withBd b).engFault e src = w.withBd (b.raises src (b.ecfg e).owner e) :=
  W.withBd_bRaise _ _ hc h4 _ _ _

end

end Sys2Proof.Machine
end

