-- ==== Sys2Proof/Laws/Memory.lean ====
section
/-! SUPPORT. Byte memories: what a read gives after a write, and that every write keeps the canonical form. -/

namespace Sys2Proof.Machine

/-! ## The canonical form -/

theorem memWf_weaken {lo lo' : Nat} {m : Mem} (h : memWfFrom lo m = true) (k : lo' ≤ lo) : memWfFrom lo' m = true := by
  cases m with
  | nil => rfl
  | cons e m =>
    obtain ⟨a, b⟩ := e
    simp only [memWfFrom, Bool.and_eq_true, decide_eq_true_eq] at h ⊢
    exact ⟨⟨by omega, h.1.2⟩, h.2⟩

/-- A write at or above the lowest address keeps the canonical form. -/
theorem memWf_mset {lo : Nat} {m : Mem} (h : memWfFrom lo m = true) (a : Nat) (b : Byte) (k : lo ≤ a) : memWfFrom lo (mset m a b) = true := by
  induction m generalizing lo with
  | nil =>
    unfold mset
    by_cases hb : b = 0
    · rw [if_pos hb]; rfl
    · rw [if_neg hb]
      simp only [memWfFrom, Bool.and_eq_true, decide_eq_true_eq, bne_iff_ne]
      exact ⟨⟨k, hb⟩, trivial⟩
  | cons e m ih =>
    obtain ⟨c, d⟩ := e
    simp only [memWfFrom, Bool.and_eq_true, decide_eq_true_eq] at h
    unfold mset
    by_cases h1 : a < c
    · rw [if_pos h1]
      by_cases hb : b = 0
      · rw [if_pos hb]
        simp only [memWfFrom, Bool.and_eq_true, decide_eq_true_eq]
        exact h
      · rw [if_neg hb]
        simp only [memWfFrom, Bool.and_eq_true, decide_eq_true_eq, bne_iff_ne]
        exact ⟨⟨k, hb⟩, ⟨⟨by omega, by simpa using h.1.2⟩, h.2⟩⟩
    · rw [if_neg h1]
      by_cases h2 : c = a
      · rw [if_pos h2]
        subst h2
        by_cases hb : b = 0
        · rw [if_pos hb]; exact memWf_weaken h.2 (by omega)
        · rw [if_neg hb]
          simp only [memWfFrom, Bool.and_eq_true, decide_eq_true_eq, bne_iff_ne]
          exact ⟨⟨k, hb⟩, h.2⟩
      · rw [if_neg h2]
        simp only [memWfFrom, Bool.and_eq_true, decide_eq_true_eq]
        exact ⟨⟨h.1.1, h.1.2⟩, ih h.2 (by omega)⟩

theorem Memory.wf_mset {m : Mem} (h : Memory.wf m = true) (a : Nat) (b : Byte) : Memory.wf (mset m a b) = true := memWf_mset h a b (Nat.zero_le _)

/-- The writes of a meaning keep the canonical form. -/
theorem Memory.wf_writeAll {m : Mem} (h : Memory.wf m = true) (out : List Host.Cell) : Memory.wf (writeAll m out) = true := by
  induction out with
  | nil => exact h
  | cons c out ih => exact Memory.wf_mset ih _ _

/-- The state after a meaning has canonical memories where the one before had. -/
theorem commit_inv {s : State} (h : s.Inv) (w : W) : (commit s w).Inv := ⟨Memory.wf_writeAll h.1 _, Memory.wf_writeAll h.2 _⟩

/-! ## Reads -/

/-- Below its lowest address a canonical memory reads 0. -/
theorem mget_below {lo a : Nat} {m : Mem} (h : memWfFrom lo m = true) (k : a < lo) : mget m a = 0 := by
  induction m generalizing lo with
  | nil => rfl
  | cons e m ih =>
    obtain ⟨c, d⟩ := e
    simp only [memWfFrom, Bool.and_eq_true, decide_eq_true_eq] at h
    unfold mget tget
    rw [if_neg (by omega)]
    exact ih h.2 (by omega)

theorem mget_mset_from {lo : Nat} {m : Mem} (h : memWfFrom lo m = true) (a : Nat) (b : Byte) (x : Nat) :
    mget (mset m a b) x = if x = a then b else mget m x := by
  induction m generalizing lo with
  | nil =>
    unfold mset
    by_cases hb : b = 0
    · rw [if_pos hb, hb]; split <;> rfl
    · rw [if_neg hb]
      unfold mget
      by_cases hx : x = a
      · simp [tget, hx]
      · rw [if_neg hx]; simp only [tget]; rw [if_neg (fun y => hx y.symm)]
  | cons e m ih =>
    obtain ⟨c, d⟩ := e
    simp only [memWfFrom, Bool.and_eq_true, decide_eq_true_eq] at h
    unfold mset
    by_cases h1 : a < c
    · rw [if_pos h1]
      by_cases hb : b = 0
      · rw [if_pos hb]
        split
        · rename_i hx
          subst hx
          rw [hb]
          unfold mget tget
          rw [if_neg (by omega)]
          exact mget_below h.2 (by omega)
        · rfl
      · rw [if_neg hb]
        by_cases hx : x = a
        · rw [if_pos hx]; simp [mget, tget, hx]
        · rw [if_neg hx]
          show (if a = x then b else mget ((c, d) :: m) x) = _
          rw [if_neg (fun y => hx y.symm)]
    · rw [if_neg h1]
      by_cases h2 : c = a
      · rw [if_pos h2]
        subst h2
        by_cases hb : b = 0
        · rw [if_pos hb]
          by_cases hx : x = c
          · rw [if_pos hx, hb, hx]; exact mget_below h.2 (by omega)
          · rw [if_neg hx]
            show _ = if c = x then d else mget m x
            rw [if_neg (fun y => hx y.symm)]
        · rw [if_neg hb]
          by_cases hx : x = c
          · rw [if_pos hx]; simp [mget, tget, hx]
          · rw [if_neg hx]
            show (if c = x then b else mget m x) = if c = x then d else mget m x
            rw [if_neg (fun y => hx y.symm), if_neg (fun y => hx y.symm)]
      · rw [if_neg h2]
        show (if c = x then d else mget (mset m a b) x) = _
        by_cases hx : c = x
        · rw [if_pos hx, if_neg (by omega)]
          show d = if c = x then d else mget m x
          rw [if_pos hx]
        · rw [if_neg hx, ih h.2]
          split
          · rfl
          · show _ = if c = x then d else mget m x
            rw [if_neg hx]

/-- A read after a write to a canonical memory. -/
theorem mget_mset {m : Mem} (h : Memory.wf m = true) (a : Nat) (b : Byte) (x : Nat) : mget (mset m a b) x = if x = a then b else mget m x :=
  mget_mset_from h a b x

/-- A read after the writes of a meaning: the newest one of its address counts. -/
theorem mget_writeAll {m : Mem} (h : Memory.wf m = true) (out : List Host.Cell) (x : Nat) :
    mget (writeAll m out) x = ((out.find? (fun c => c.1 == x)).map (·.2)).getD (mget m x) := by
  induction out with
  | nil => rfl
  | cons c out ih =>
    show mget (mset (writeAll m out) c.1 c.2) x = _
    rw [mget_mset (Memory.wf_writeAll h out), ih, List.find?_cons]
    by_cases k : x = c.1
    · rw [if_pos k]; simp [k]
    · rw [if_neg k]
      have : (c.1 == x) = false := by simpa using fun y : c.1 = x => k y.symm
      rw [this]

end Sys2Proof.Machine
end

