-- ==== Sys2Proof/Laws/Restart.lean ====
section
/-! SUPPORT. The board die stopping, restarting and losing a bank: what `failSafeAll`, `boardRestart`, `endQuarantine`, `bankDown`
and `bankUpEv` leave, and what a report keeps. -/

namespace Sys2Proof.Machine

/-! ## Stopping and restarting -/

/-- An output lane is one of the lanes that follow the fail-safe states. -/
theorem safe_of_out (w : W) (n : Nat) (h : n < 32) (k : w.bcfg.outLane n = true) : n ∈ w.safeLanes := by
  unfold W.safeLanes; simp [h, k]

/-- A board die that stops keeps every lane but its window. -/
theorem halted_lane (b : Board) (n : Nat) : b.halted.lane n = (b.lane n).closeWindow := by
  unfold Board.lane Board.halted
  exact tget_map _ _ _ rfl _

/-- Stopping with the fail-safe values driven: every output lane is out of LIVE. -/
theorem failSafe_at (w : W) (b : Board) (h : b.core = true) :
    ∃ b', (w.withBd b).failSafeAll = w.withBd b'.halted ∧ b.LanesOnly b' ∧ (∀ n < 32, b.tabs = true → b.cfg.outLane n = true → (b'.lane n).stage ≠ 0) := by
  unfold W.failSafeAll W.forEach
  dsimp only
  split
  · obtain ⟨b', e, o, _, r⟩ := walk_lanes LanesOnly.walks (fun w n => w.laneCause n cRESET) (fun n _ l l' => l'.cause = l.cause ||| cRESET ∧ l'.stage ≠ 0)
      (w.withBd b).safeLanes (W.safeLanes_nodup _) (fun n _ => laneCause_steps n cRESET) w b h (fun _ _ _ _ _ _ k => k)
    refine ⟨b', by rw [e]; rfl, o, fun n hn _ hk => (r n (safe_of_out _ n hn hk)).2⟩
  · rename_i ht
    exact ⟨b, rfl, rfl, fun n _ hk => absurd hk ht⟩

/-- The same, with what changes named. -/
theorem failSafe_any (w : W) (b : Board) (h : b.core = true) : ∃ l q, (w.withBd b).failSafeAll = w.withBd ({ b with lanes := l, wseq := q } : Board).halted := by
  unfold W.failSafeAll W.forEach
  dsimp only
  split
  · obtain ⟨b', e, o, _, r⟩ := walk_lanes LanesOnly.walks (fun w n => w.laneCause n cRESET) (fun n _ l l' => l'.cause = l.cause ||| cRESET ∧ l'.stage ≠ 0)
      (w.withBd b).safeLanes (W.safeLanes_nodup _) (fun n _ => laneCause_steps n cRESET) w b h (fun _ _ _ _ _ _ k => k)
    refine ⟨b'.lanes, b'.wseq, ?_⟩
    rw [e]
    show w.withBd b'.halted = _
    rw [o]; rfl
  · exact ⟨b.lanes, b.wseq, rfl⟩

/-- The board die after a restart, but for its lanes. -/
theorem restart_at (w : W) (b : Board) : ∃ l, (w.withBd b).boardRestart =
    w.withBd ({ b.halted with core := true, holdup := false, stuck := false, direct := [], chunkQ := 3, timerQ := 3, pstate := if b.prsn then 0 else 2, probe := {}, rackAlive := true, lanes := l } : Board).page2 := by
  let f := fun (w : W) (n : Nat) => w.modLane n (fun l =>
      { l with cause := w.dev.bd.resetCause n, stage := if w.dev.bd.bankUp n || !w.bcfg.outLane n then 1 else 3, armed := (w.lfs n).auto, refr := 0 })
  let b0 : Board := { b.halted with core := true, holdup := false, stuck := false, direct := [], chunkQ := 3, timerQ := 3, pstate := if b.prsn then 0 else 2, probe := {}, rackAlive := true }
  obtain ⟨b1, e1, o1, _, _⟩ := walk_lanes LanesAlone.walks f (fun _ _ _ _ => True)
      ((w.withBd b0).safeLanes) (W.safeLanes_nodup _) (fun n _ w b _ => ⟨_, rfl, Board.setLane_alone _ _ _, fun m hm => Board.setLane_lane_ne _ _ _ _ hm, trivial⟩) w b0 rfl
      (fun n b b' x y o k => k)
  refine ⟨b1.lanes, ?_⟩
  unfold W.boardRestart W.forEach
  have : (w.withBd b).modBd (fun b => { b.halted with core := true, holdup := false, stuck := false, direct := [], chunkQ := 3, timerQ := 3, pstate := if b.prsn then 0 else 2, probe := {}, rackAlive := true }) = w.withBd b0 := rfl
  simp only [this]
  rw [show List.foldl (fun w n => w.modLane n (fun l => { l with cause := w.dev.bd.resetCause n, stage := if w.dev.bd.bankUp n || !w.bcfg.outLane n then 1 else 3, armed := (w.lfs n).auto, refr := 0 })) (w.withBd b0) (w.withBd b0).safeLanes = _ from e1]
  rw [W.withBd_page2 _ _ (LanesAlone.walks.core o1)]
  rw [o1]

/-- With no ticket in quarantine there is nothing to end. -/
theorem endQuarantine_none (w : W) (h : ∀ e ∈ w.dev.pool.tkts, e.2.st ≠ .quarantined) : w.endQuarantine = w := by
  unfold W.endQuarantine
  rw [List.filter_eq_nil_iff.mpr (by intro e he; simpa using h e he)]; rfl

/-! ## Reports keep the rest -/

theorem page0_keeps (b : Board) : b.page0.up = b.up ∧ b.page0.downs = b.downs ∧ b.page0.cfg = b.cfg ∧ b.page0.engs = b.engs ∧ b.page0.low = b.low ∧ ∀ n, b.page0.lane n = b.lane n :=
  ⟨rfl, rfl, rfl, rfl, rfl, fun _ => rfl⟩

theorem page1_keeps (b : Board) : b.page1.up = b.up ∧ b.page1.downs = b.downs ∧ b.page1.cfg = b.cfg ∧ b.page1.engs = b.engs ∧ b.page1.low = b.low ∧ ∀ n, b.page1.lane n = b.lane n :=
  ⟨rfl, rfl, rfl, rfl, rfl, fun _ => rfl⟩

theorem paged_keeps (b : Board) : b.page1.page0.up = b.up ∧ b.page1.page0.downs = b.downs ∧ b.page1.page0.cfg = b.cfg ∧ b.page1.page0.engs = b.engs ∧ b.page1.page0.low = b.low ∧
    ∀ n, b.page1.page0.lane n = b.lane n := by
  obtain ⟨p1, p2, p3, p4, p5, p6⟩ := page0_keeps b.page1
  obtain ⟨q1, q2, q3, q4, q5, q6⟩ := page1_keeps b
  exact ⟨p1.trans q1, p2.trans q2, p3.trans q3, p4.trans q4, p5.trans q5, fun n => (p6 n).trans (q6 n)⟩

theorem raised_keeps (b : Board) (x y z : Nat) : (b.raises x y z).up = b.up ∧ (b.raises x y z).downs = b.downs ∧ (b.raises x y z).cfg = b.cfg ∧ (b.raises x y z).engs = b.engs ∧ (b.raises x y z).low = b.low ∧
    ∀ n, (b.raises x y z).lane n = b.lane n := ⟨rfl, rfl, rfl, rfl, rfl, fun _ => rfl⟩

/-! ## Banks -/

theorem mem_outLanes (w : W) (n : Nat) : n ∈ w.outLanes ↔ n < 32 ∧ w.bcfg.outLane n = true := by
  unfold W.outLanes; rw [List.mem_filter, List.mem_range]

theorem Board.LanesOnly.keeps {b b' : Board} (h : b.LanesOnly b') : b'.up = b.up ∧ b'.downs = b.downs ∧ b'.cfg = b.cfg ∧ b'.engs = b.engs ∧ b'.low = b.low := by
  refine ⟨?_, ?_, ?_, ?_, ?_⟩ <;> rw [h]

/-- What a lane of a fallen bank takes. -/
def W.darken (w : W) (n : Nat) : W :=
  let was := (w.dev.bd.lane n).stage
  let w := w.laneCause n cBANK
  if was = 1 ∨ was = 2 then (w.applyCode n 2).modLane n (fun l => { l with stage := 3 }) else w

theorem dark_steps (n : Nat) : StepsLane Board.LanesOnly W.darken n
    (fun b l l' => b.bankUp n = false → l'.cause = l.cause ||| cBANK ∧ (l.stage ≤ 3 → l'.stage = 3)) := by
  intro w b h
  obtain ⟨b1, e1, o1, k1, r1⟩ := laneCause_steps n cBANK w b h
  have e1 : (w.withBd b).laneCause n cBANK = w.withBd b1 := e1
  unfold W.darken
  dsimp only
  rw [e1]
  have h1 := o1.core.trans h
  by_cases was : (b.lane n).stage = 1 ∨ (b.lane n).stage = 2
  · rw [if_pos (by exact was), W.withBd_applyCode _ _ h1, W.withBd_modLane]
    refine ⟨_, rfl, (o1.trans (Board.drive_only _ _ _)).trans (Board.setLane_only _ _ _), ?_, fun _ => ⟨?_, ?_⟩⟩
    · intro m hm
      rw [Board.setLane_lane_ne _ _ _ _ hm, Board.drive_lane_ne _ _ _ _ hm, k1 m hm]
    · rw [Board.setLane_lane, ← r1.1]; simp [Board.drive]
    · intro _; rw [Board.setLane_lane]
  · rw [if_neg (by exact was)]
    refine ⟨b1, rfl, o1, k1, fun hu => ⟨r1.1, ?_⟩⟩
    intro hs
    unfold W.laneCause at e1
    dsimp only at e1
    by_cases s0 : (b.lane n).stage = 0
    · rw [W.withBd_modLane, if_pos (by show ((b.lane n).stage == 0) = true; simp [s0]), W.withBd_modLane, if_neg, W.withBd_applyCode _ _ (by exact h), W.withBd_modLane] at e1
      · have k := congrArg (fun (w : W) => (w.dev.bd.lane n).stage) e1
        simp only [W.withBd_bd, Board.setLane_lane] at k
        exact k.symm
      · show ¬ b.bankUp n = true
        rw [hu]; simp
    · have hs3 : (b.lane n).stage = 3 := by
        have : ¬ (b.lane n).stage = 1 ∧ ¬ (b.lane n).stage = 2 := not_or.mp was
        omega
      rw [W.withBd_modLane, if_neg (by show ¬ ((b.lane n).stage == 0) = true; simp [s0])] at e1
      have k := congrArg (fun (w : W) => (w.dev.bd.lane n).stage) e1
      simp only [W.withBd_bd, Board.setLane_lane] at k
      rw [← k]; exact hs3

theorem foldl_id {α β : Type} (f : β → α → β) (l : List α) (w : β) (h : ∀ a ∈ l, f w a = w) : l.foldl f w = w := by
  induction l with
  | nil => rfl
  | cons a l ih => rw [List.foldl_cons, h a (by simp)]; exact ih (fun x hx => h x (by simp [hx]))

theorem bit_off (x : BitVec 4) (k : Fin 4) : (x &&& ~~~(BitVec.ofNat 4 (2 ^ k.val))).getLsbD k.val = false := by revert x k; decide

/-- A bank falls in which no engine has a lane. -/
theorem bankDown_at (s : State) (k : Fin 4) (h4 : s.dev.log.lstate ≠ 4) (hc : s.dev.bd.core = true) (hv : s.dev.bd.vddb = true) (hu : s.dev.bd.up.getLsbD k = true)
    (he : ∀ e < 8, ∀ n ∈ (s.dev.bd.ecfg e).lanes, n / 8 ≠ k.val) :
    ∃ b3 : Board, (load s).bankDown k.val = (load s).withBd ((b3.raises (4 + k.val) dUnit k.val).page1.page0) ∧
      b3.up = s.dev.bd.up &&& ~~~(BitVec.ofNat 4 (2 ^ k.val)) ∧ b3.downs = lmod s.dev.bd.downs k (fun x => satAdd 8 x 1) ∧ b3.cfg = s.dev.bd.cfg ∧ b3.engs = s.dev.bd.engs ∧
      ∀ n, ((n < 32 ∧ s.dev.bd.cfg.outLane n = true ∧ n / 8 = k.val) → (b3.lane n).cause = (s.dev.bd.lane n).cause ||| 2 ∧ ((s.dev.bd.lane n).stage ≤ 3 → (b3.lane n).stage = 3)) ∧
        (¬ (n < 32 ∧ s.dev.bd.cfg.outLane n = true ∧ n / 8 = k.val) → b3.lane n = s.dev.bd.lane n) := by
    let b := s.dev.bd
    let mine := fun (n : Nat) => n < 32 ∧ b.cfg.outLane n = true ∧ n / 8 = k.val
    let b1 : Board := { b with up := b.up &&& ~~~(BitVec.ofNat 4 (2 ^ k.val)), downs := lmod b.downs k (fun x => satAdd 8 x 1) }
    let b2 := b1.tells [boardEntry 3 k 0]
    have b2c : b2.core = true := hc
    let l := (load s).outLanes.filter (fun n => bankOf n == k.val)
    have hl : ∀ n, n ∈ l ↔ mine n := by
      intro n
      simp only [l]
      rw [List.mem_filter, mem_outLanes]
      simp only [mine, and_assoc, beq_iff_eq]; rfl
    obtain ⟨b3, e3, o3, k3, r3⟩ := walk_lanes LanesOnly.walks W.darken (fun n b x y => b.bankUp n = false → y.cause = x.cause ||| cBANK ∧ (x.stage ≤ 3 → y.stage = 3)) l
      ((W.outLanes_nodup _).filter _) (fun n _ => dark_steps n) (load s) b2 b2c (fun n b b' x y o r hb => r ((o.bankUp n).trans hb))
    have b3c := o3.core.trans b2c
    have K := o3.keeps
    have key : (load s).bankDown k.val = (load s).withBd ((b3.raises (4 + k.val) dUnit k.val).page1.page0) := by
      unfold W.bankDown
      rw [if_neg (by show ¬ ((!b.vddb) || !b.up.getLsbD k.val) = true; rw [hv, show b.up.getLsbD k.val = true from hu]; simp)]
      have a1 : (load s).modBd (fun b => { b with up := b.up &&& ~~~(BitVec.ofNat 4 (2 ^ k.val)), downs := lmod b.downs k.val (fun x => satAdd 8 x 1) }) = (load s).withBd b1 := rfl
      rw [a1]
      dsimp only
      rw [if_neg (by show ¬ (!b.core) = true; rw [hc]; simp)]
      rw [W.withBd_bDecide _ _ (by exact hc)]
      have a2 : (List.foldl (fun w n => let was := (w.dev.bd.lane n).stage
          let w := w.laneCause n cBANK
          if was = 1 ∨ was = 2 then (w.applyCode n 2).modLane n (fun l => { l with stage := 3 }) else w) ((load s).withBd b2)
            (List.filter (fun n => bankOf n == k.val) ((load s).withBd b2).outLanes)) = (load s).withBd b3 := e3
      rw [show b1.tells [boardEntry 3 k.val 0] = b2 from rfl]
      have a2' := a2
      dsimp only at a2'
      rw [a2', foldl_id]
      · rw [W.withBd_bRaise _ _ b3c (by exact h4), W.withBd_page1 _ _ (by exact b3c), W.withBd_page0 _ _ (by exact b3c)]
      · intro e he'
        have hg : b3.engs = b.engs ∧ b3.cfg = b.cfg := ⟨K.2.2.2.1, K.2.2.1⟩
        have : (((load s).withBd b3).ecfg e) = b.ecfg e := by
          show (tget ({} : Eng) b3.engs e).kept.getD (b3.cfg.eng e) = _
          rw [hg.1, hg.2]; rfl
        rw [if_neg]
        rw [this]
        intro hx
        rw [List.any_eq_true] at hx
        obtain ⟨n, hn, hx⟩ := hx
        exact he e (List.mem_range.mp he') n hn (by simpa [bankOf] using hx)
    refine ⟨b3, key, K.1, K.2.1, K.2.2.1, K.2.2.2.1, ?_⟩
    intro n
    constructor
    · intro hn
      have hb : b2.bankUp n = false := by
        show (b.up &&& ~~~(BitVec.ofNat 4 (2 ^ k.val))).getLsbD (bankOf n) = false
        rw [show bankOf n = k.val from hn.2.2]
        exact bit_off _ _
      have := r3 n ((hl n).mpr hn) hb
      exact ⟨this.1, this.2⟩
    · intro hn
      exact k3 n (fun x => hn ((hl n).mp x))

/-- What a DARK lane of a bank that rises takes. -/
def W.lighten (w : W) (n : Nat) : W :=
  let w := w.endCause n cBANK
  (w.driveSafe n true).modLane n (fun l => { l with stage := 1 })

theorem lighten_steps (n : Nat) : StepsLane Board.LanesOnly W.lighten n (fun _ l l' => l'.cause = l.cause &&& 0x7D ∧ l'.stage = 1) := by
  intro w b h
  unfold W.lighten W.endCause
  dsimp only
  rw [W.withBd_modLane]
  obtain ⟨b1, e1, o1, k1, c1, s1⟩ := driveSafe_steps n true w (b.setLane n { b.lane n with cause := (b.lane n).cause &&& ~~~cBANK, refr := 0 }) h
  rw [e1, W.withBd_modLane]
  refine ⟨_, rfl, ((Board.setLane_only _ _ _).trans o1).trans (Board.setLane_only _ _ _), ?_, ?_⟩
  · intro m hm
    rw [Board.setLane_lane_ne _ _ _ _ hm, k1 m hm, Board.setLane_lane_ne _ _ _ _ hm]
  · rw [Board.setLane_lane]
    refine ⟨?_, rfl⟩
    show (b1.lane n).cause = _
    rw [c1, Board.setLane_lane]; rfl

/-- A bank rises. -/
theorem bankUp_at (s : State) (k : Fin 4) (hc : s.dev.bd.core = true) (hu : s.dev.bd.up.getLsbD k = false) :
    ∃ b3 : Board, (load s).bankUpEv k.val = (load s).withBd b3.page1.page0 ∧
      b3.up = s.dev.bd.up ||| BitVec.ofNat 4 (2 ^ k.val) ∧ b3.low = s.dev.bd.low &&& ~~~(BitVec.ofNat 4 (2 ^ k.val)) ∧ b3.cfg = s.dev.bd.cfg ∧ b3.engs = s.dev.bd.engs ∧
      ∀ n, ((n < 32 ∧ s.dev.bd.cfg.outLane n = true ∧ n / 8 = k.val) → (s.dev.bd.lane n).stage = 3 → (b3.lane n).cause = (s.dev.bd.lane n).cause &&& 0x7D ∧ (b3.lane n).stage = 1) ∧
        (¬ ((n < 32 ∧ s.dev.bd.cfg.outLane n = true ∧ n / 8 = k.val) ∧ (s.dev.bd.lane n).stage = 3) →
          b3.lane n = if s.dev.bd.cfg.abLane n && bankOf n == k.val then (s.dev.bd.lane n).relit (s.dev.bd.parked) (tget {} s.dev.bd.direct n : Direct).level else s.dev.bd.lane n) := by
  let b := s.dev.bd
  let b1 : Board := { b with up := b.up ||| BitVec.ofNat 4 (2 ^ k.val), low := b.low &&& ~~~(BitVec.ofNat 4 (2 ^ k.val)) }
  let b2 := b1.tells [boardEntry 3 k 1]
  have b2c : b2.core = true := hc
  let l := (load s).outLanes.filter (fun n => bankOf n == k.val && (b2.lane n).stage == 3)
  have hl : ∀ n, n ∈ l ↔ (n < 32 ∧ s.dev.bd.cfg.outLane n = true ∧ n / 8 = k.val) ∧ (s.dev.bd.lane n).stage = 3 := by
    intro n
    simp only [l]
    rw [List.mem_filter, mem_outLanes]
    simp only [and_assoc, beq_iff_eq, Bool.and_eq_true]; rfl
  obtain ⟨b3, e3, o3, k3, r3⟩ := walk_lanes LanesOnly.walks W.lighten (fun n b x y => y.cause = x.cause &&& 0x7D ∧ y.stage = 1) l
    ((W.outLanes_nodup _).filter _) (fun n _ => lighten_steps n) (load s) b2 b2c (fun n b b' x y o r => r)
  have b3c := o3.core.trans b2c
  let l4 := (List.range 8).filter (fun n => b.cfg.abLane n && bankOf n == k.val)
  have hl4 : ∀ n, n ∈ l4 ↔ (b.cfg.abLane n && bankOf n == k.val) = true := by
    intro n
    simp only [l4]
    rw [List.mem_filter, List.mem_range]
    refine ⟨fun x => x.2, fun x => ⟨?_, x⟩⟩
    simp only [Cfg.abLane, Bool.and_eq_true, decide_eq_true_eq] at x
    exact x.1.1.1
  obtain ⟨b4, e4, o4, k4, r4⟩ := walk_lanes LanesOnly.walks W.relight (fun n b x y => y = x.relit b.parked (tget {} b.direct n : Direct).level) l4
    (List.nodup_range.filter _) (fun n _ w b _ => ⟨_, rfl, Board.setLane_only _ _ _, fun m hm => Board.setLane_lane_ne _ _ _ _ hm, Board.setLane_lane _ _ _⟩) (load s) b3 b3c
    (fun n b b' x y o r => by rw [r, o])
  have b4c := o4.core.trans b3c
  have K := (o3.trans o4).keeps
  have key : (load s).bankUpEv k.val = (load s).withBd b4.page1.page0 := by
    unfold W.bankUpEv
    rw [if_neg (by show ¬ s.dev.bd.up.getLsbD k.val = true; rw [hu]; simp)]
    have a1 : (load s).modBd (fun b => { b with up := b.up ||| BitVec.ofNat 4 (2 ^ k.val), low := b.low &&& ~~~(BitVec.ofNat 4 (2 ^ k.val)) }) = (load s).withBd b1 := rfl
    rw [a1]
    dsimp only
    rw [if_neg (by show ¬ (!b.core) = true; rw [hc]; simp)]
    rw [W.withBd_bDecide _ _ (by exact hc)]
    have a2 : (List.foldl (fun w n => ((w.endCause n cBANK).driveSafe n true).modLane n (fun l => { l with stage := 1 })) ((load s).withBd b2)
          (List.filter (fun n => bankOf n == k.val && ((((load s).withBd b2)).dev.bd.lane n).stage == 3) ((load s).withBd b2).outLanes)) = (load s).withBd b3 := e3
    have a4 : List.foldl W.relight ((load s).withBd b3) ((List.range 8).filter (fun n => ((load s).withBd b3).bcfg.abLane n && bankOf n == k.val)) = (load s).withBd b4 := by
      have hc3 : ((load s).withBd b3).bcfg = b.cfg := o3.cfg
      rw [hc3]; exact e4
    rw [show b1.tells [boardEntry 3 k.val 1] = b2 from rfl, a2, a4, W.withBd_page1 _ _ (by exact b4c), W.withBd_page0 _ _ (by exact b4c)]
  have hp : b3.parked = b.parked ∧ b3.direct = b.direct := by rw [o3]; exact ⟨rfl, rfl⟩
  have h4 : ∀ n, b4.lane n = if b.cfg.abLane n && bankOf n == k.val then (b3.lane n).relit b.parked (tget {} b.direct n : Direct).level else b3.lane n := by
    intro n
    split
    · rename_i hn; rw [r4 n ((hl4 n).mpr hn), hp.1, hp.2]
    · rename_i hn; exact k4 n (fun x => hn ((hl4 n).mp x))
  refine ⟨b4, key, K.1, K.2.2.2.2, K.2.2.1, K.2.2.2.1, ?_⟩
  intro n
  constructor
  · intro hn hs
    have := r3 n ((hl n).mpr ⟨hn, hs⟩)
    rw [h4 n]; split
    · exact this
    · exact this
  · intro hn
    rw [h4 n, k3 n (fun x => hn ((hl n).mp x))]; rfl

/-! ## The loss of the board die -/

/-- The rack die once the board die is lost, with nothing board-bound and nothing under way. -/
def W.lost (w : W) : W := { w with
        dev.bar.bAlive := false, dev.bar.lamp := false
        dev.arb := { w.dev.arb with ctl := [], lamp := none, dbg := none, resend := [], silent := none, flight := none,
                                    urgent := [], fifos := [[], [], [], [], []], heldE := [], pend := none } }

/-- The loss with nothing board-bound and nothing under way. -/
theorem boardGone_lost (w : W) (h1 : w.dev.boardTkts = []) (h2 : w.dev.tens.any (fun t => t.rst.isSome) = false) (h3 : w.dev.img.phase ≠ 2) : w.boardGone = w.lost := by
  unfold W.boardGone
  extract_lets w1 w2 w3
  have e3 : w3 = w2 := if_neg (by show ¬ w.dev.tens.any (fun t => t.rst.isSome) = true; rw [h2]; simp)
  have eb : w3.dev.boardTkts = [] := by rw [e3]; exact h1
  rw [eb]
  show w3.gapEnd = _
  unfold W.gapEnd
  rw [if_neg (by rw [e3]; exact h3), e3]; rfl

/-- With no identity read and no write-back in progress nothing is cut short. -/
theorem cut_none (w : W) (h4 : w.dev.idn.astate ≠ 1) (h5 : w.dev.idn.wbState ≠ 2) : w.idCut.wbStop = w := by
  have e2 : w.idCut = w := if_neg h4
  rw [e2]
  exact if_neg h5

theorem lost_gone (w : W) (h1 : w.dev.boardTkts = []) (h2 : w.dev.tens.any (fun t => t.rst.isSome) = false) (h3 : w.dev.img.phase ≠ 2) (h4 : w.dev.idn.astate ≠ 1) (h5 : w.dev.idn.wbState ≠ 2) :
    w.boardGone.idCut.wbStop = w.lost := by
  rw [boardGone_lost w h1 h2 h3]
  exact cut_none w.lost h4 h5

/-- What a raise changes, the loss leaves. -/
theorem lost_same {a b : W} (h : a.SameButRaise b) : a.lost.SameButRaise b.lost := by
  refine ⟨?_, h.2⟩
  have := h.1
  unfold W.lost
  rw [this]

end Sys2Proof.Machine
end

