-- ==== Sys2Proof/Laws/Common.lean ====
section
/-! SUPPORT. Shorthands for the outcome of a board die meaning and of a rack die meaning. -/

namespace Sys2Proof.Machine

theorem boardHas_front {s : State} {p : Pkt} {rest : List Pkt} (h : s.boardHas p rest) : (load s).dev.bd.front = some p := by
  show s.dev.bd.inbox.head? = some p; rw [h.2]; rfl

theorem boardHas_taken {s : State} {p : Pkt} {rest : List Pkt} (h : s.boardHas p rest) :
    (load s).taken = (load s).withBd { s.dev.bd with inbox := rest } := by
  show (load s).withBd { s.dev.bd with inbox := s.dev.bd.inbox.drop 1 } = _
  rw [h.2]; rfl

theorem board_core {s : State} (h : s.board) : s.dev.bd.core = true := by
  have := h.1; unfold Board.runs at this; simp at this; exact this.1

theorem board_next {f : W → W} {s : State} (h : s.board) (b : Board) (e : f (load s) = (load s).withBd b) : boardRun f s = .next (s.withBoard b) :=
  boardRun_next h (v := (load s).withBd b) ⟨e, rfl, by have := h.2; show s.dev.log.lstate ≠ 4; omega⟩

theorem run_board {f : W → W} {s : State} {b : Board} (h4 : s.dev.log.lstate ≠ 4) (e : f (load s) = (load s).withBd b) : runW f s = .next (s.withBoard b) :=
  runW_next (v := (load s).withBd b) ⟨e, rfl, h4⟩

theorem rack_next {f : W → W} {s : State} (r : s.rack) (v : W) (e : f (load s) = v) (q : v.rq = []) (l : v.dev.log.lstate ≠ 4) : rackRun f s = .next (commit s v) :=
  rackRun_next r (v := v) ⟨e, q, l⟩

theorem ls_board {s : State} (h : s.board) : s.dev.log.lstate ≠ 4 := by have := h.2; omega

end Sys2Proof.Machine
end

