-- ==== Sys2Proof/Laws/RackPackets.lean ====
section
/-! SUPPORT. Packets that the rack die takes, and the tickets they retire. -/

namespace Sys2Proof.Machine

theorem hostTx_eq (s : State) (f : W → W) (h : s.awake) (m : s.dev.sup.mode ≠ 2) :
   (load s).hostTx f = f ((load s).modHpt (fun h => { h with hsdo := [s.dev.statusByte] })) := by
  unfold W.hostTx
  have : (load s).dev.awake = true := h.1
  rw [this]
  simp only [Bool.not_true, Bool.false_eq_true, if_false]
  rw [if_neg (show ¬ (load s).dev.sup.mode = 2 from m)]; rfl

theorem load_port (s : State) (p : RPort) : (load s).dev.ring.port p = s.dev.ring.port p := rfl

theorem modPort_port (w : W) (p : RPort) (f) : (w.modPort p f).dev.ring.port p = f (w.dev.ring.port p) := by cases p <;> rfl

theorem commit_modPort (s : State) (p : RPort) (f) : commit s ((load s).modPort p f) = s.withPort p (f (s.dev.ring.port p)) := by cases p <;> rfl

theorem modPort_modPort (w : W) (p : RPort) (f g) : (w.modPort p f).modPort p g = w.modPort p (fun r => g (f r)) := by cases p <;> rfl

theorem modPort_rq (w : W) (p : RPort) (f) : (w.modPort p f).rq = w.rq := by cases p <;> rfl

theorem modPort_log (w : W) (p : RPort) (f) : (w.modPort p f).dev.log = w.dev.log := by cases p <;> rfl

theorem setPort_quiet (w : W) (p : RPort) (st : Nat) (h : (w.dev.ring.port p).st ≠ 4) :
   w.setPort p st = w.modPort p (fun r => { r with st := st, credit := if st = 4 then r.credit else 0 }) := by
  unfold W.setPort; simp only; rw [if_neg]; tauto

theorem rack_port (s : State) (p : RPort) (h : s.rack) (f : W → W) (g) (k : f (load s) = (load s).modPort p g) :
   rackRun f s = .next (s.withPort p (g (s.dev.ring.port p))) := by
  rw [rackRun_quiet f s h.1] <;> rw [k]
  · rw [commit_modPort]
  · rw [modPort_rq]; rfl
  · rw [modPort_log]; exact h.2

theorem running_iff (w : W) (p) : w.running p = true ↔ (w.dev.ring.port p).st = 4 := by simp [W.running]

theorem flush_empty (w : W) (p : RPort) (h : (w.dev.ring.port p).cur = none) (h1 : (w.dev.ring.port p).fwdQ = []) (h2 : (w.dev.ring.port p).ownQ = []) (n : Nat) :
   w.pump p n = w := by
  cases n with
  | zero => rfl
  | succ n =>
    unfold W.pump
    split
    · rfl
    · have hp : w.preempt p = w := by unfold W.preempt; simp [h]
      simp only [hp, h, Option.isNone_none, if_true]
      have : w.startOut p = w := by
        have e : w.modPort p (fun r => { r with fwdQ := urgFirst r.fwdQ, ownQ := urgFirst r.ownQ }) = w := by
          have g : ∀ r : RingPort, r.fwdQ = [] → r.ownQ = [] → ({ r with fwdQ := urgFirst r.fwdQ, ownQ := urgFirst r.ownQ } : RingPort) = r := by
            intro r a b; cases r; simp only at a b; subst a; subst b; rfl
          cases p <;> (simp only [W.modPort, Ring.port] at *; rw [g _ h1 h2])
        unfold W.startOut
        rw [e]
        simp [pickOut, h1, h2]
      rw [this, h]

theorem timed_on {w : W} {k i : Nat} {f : W → W} (h : w.dev.log.lstate ≠ 4) : w.timed k i f = f w := by
  unfold W.timed; rw [if_neg h]

theorem W.SameButLog.modArb {a b : W} (h : a.SameButLog b) (f : Arb → Arb) : (a.modArb f).SameButLog (b.modArb f) := by
  refine ⟨?_, h.2⟩; rw [h.1]; rfl

theorem W.SameButRaise.modArbR {a b : W} (h : a.SameButRaise b) (f : Pkt) :
   (a.modArb (fun x => { x with resend := x.resend ++ [f] })).SameButRaise (b.modArb (fun x => { x with resend := x.resend ++ [f] })) := by
  refine ⟨?_, h.2.1, h.2.2⟩; rw [h.1]; rfl

theorem statusHead_of {α : Type} (s : State) (x : Payload) (rest : List Pkt) (f : Payload → Option α) (a : α) (h : s.hears x rest) (k : f x = some a) :
   (load s).statusHead f = some (a, (load s).modBd (fun b => { b with outS := rest })) := by
  obtain ⟨h, hp, p, rfl, ho⟩ := h
  unfold W.statusHead
  rw [if_neg (show ¬ (load s).dev.bar.parked = true by show ¬ s.dev.bar.parked = true; rw [hp]; simp)]
  rw [show (load s).dev.bd.outS = p :: rest from ho]
  simp only [k]; rfl

theorem tenCheck_none (w : W) (t : Nat) (h : (w.dev.ten t).rst = none) : w.tenCheck t = w := by
  unfold W.tenCheck; rw [h]

theorem finish_none (w : W) (h : ∀ t < 5, (w.dev.ten t).rst = none) : w.finishResets = w := by
  unfold W.finishResets
  simp [List.range_succ, tenCheck_none _ _ (h 0 (by omega)), tenCheck_none _ _ (h 1 (by omega)), tenCheck_none _ _ (h 2 (by omega)), tenCheck_none _ _ (h 3 (by omega)), tenCheck_none _ _ (h 4 (by omega))]

theorem serve_cons (n : Nat) (w : W) (r : ResetReq) (rest : List ResetReq) (h : w.rq = r :: rest) :
    W.serve (n + 1) w = W.serve n (({ w with rq := rest } : W).serveOne r) := by simp only [W.serve, h]

theorem result_finish (s : State) (p : Pkt) (o : Op) (bar : Barrier) (r : s.rack)
    (hst : (s.dev.pool.tkt p.tkt).st = .issued) 
    (hop : (s.dev.pool.tkt p.tkt).op = some o) (hmsg : o.msg = none) (hgen : o.req.gen = 2) (hq : o.req.quiet = true)
    (hbind : (s.dev.pool.tkt p.tkt).bind = none) (hrx : (s.dev.pool.tkt p.tkt).rx = []) (hpins : (s.dev.pool.tkt p.tkt).pins = [])
    (hheld : s.dev.arb.heldE = []) (hall : ∀ e ∈ (s.dev.pool.setTkt p.tkt { icount := (s.dev.pool.tkt p.tkt).icount }).tkts, e.2.st ≠ .issued)
    (f : W → W) (hf : f (load s) = ({ load s with dev.bd := s.dev.bd.popOut, dev.bar := bar } : W).finishOp p.tkt stOK 0 0) :
    ∃ t, rackRun f s = .next t ∧ t = ({ s with
      dev.bd := s.dev.bd.popOut,
      dev.bar := bar,
      dev.pool := { s.dev.pool.setTkt p.tkt { icount := (s.dev.pool.tkt p.tkt).icount } with tktFree := s.dev.pool.tktFree ++ [p.tkt] },
      dev.tens := lmod s.dev.tens (s.dev.pool.tkt p.tkt).ten (fun y => { y with
        tktUse := y.tktUse - 1,
        tdebt := y.tdebt && !debtOver (y.tktUse - 1) (s.dev.img.cfg.tktMin (s.dev.pool.tkt p.tkt).ten),
        bdebt := y.bdebt && !debtOver y.bufUse (s.dev.img.cfg.bufMin (s.dev.pool.tkt p.tkt).ten) }) } : State).logged t := by
  generalize hk : s.dev.pool.tkt p.tkt = k at *
  let w2 : W := { load s with dev.bd := s.dev.bd.popOut, dev.bar := bar }
  have kt : w2.dev.pool.tkt p.tkt = k := hk
  let v : W := { w2 with
      dev.pool := { s.dev.pool.setTkt p.tkt { icount := k.icount } with tktFree := s.dev.pool.tktFree ++ [p.tkt] },
      dev.tens := lmod s.dev.tens k.ten (fun y => { y with
        tktUse := y.tktUse - 1,
        tdebt := y.tdebt && !debtOver (y.tktUse - 1) (s.dev.img.cfg.tktMin k.ten),
        bdebt := y.bdebt && !debtOver y.bufUse (s.dev.img.cfg.bufMin k.ten) }) }
  have l : v.SameButLog (f (load s)) := by
    rw [hf]
    show v.SameButLog (w2.finishOp p.tkt stOK 0 0)
    let x := w2.logK 0x0A [(6, 10, p.tkt), (16, 8, stOK), (24, 6, 0)]
    have lx : w2.SameButLog x := W.logK_log _ _ _
    have kx : x.dev.pool.tkt p.tkt = k := by rw [lx.1]; exact kt
    have c : w2.complete p.tkt stOK 0 0 = x.freeTkt p.tkt := by
      unfold W.complete
      rw [kt]
      dsimp only
      rw [hop]
      dsimp only
      unfold W.answer
      rw [hmsg]
      simp only [hgen, hq]
      rfl
    have y : x.freeTkt p.tkt = { v with dev := { v.dev with log := x.dev.log, sto := x.dev.sto, rpl := x.dev.rpl, sup := { v.dev.sup with dropped := x.dev.sup.dropped } }, out := x.out } := by
      unfold W.freeTkt
      rw [kx]
      simp only
      rw [if_neg (by rw [hst]; simp), hpins]
      rw [lx.1]
      simp only [v, W.settle, W.modTen, W.modPool, unpin, lmod, W.cfg, List.foldl_nil]
      rw [List.modify_modify_eq]
      rfl
    have fin : w2.finishOp p.tkt stOK 0 0 = x.freeTkt p.tkt := by
      unfold W.finishOp
      have b : w2.bindEnd p.tkt k = (w2, k.rx) := by unfold W.bindEnd; rw [hop, hbind]
      simp only [kt, b, hrx, List.isEmpty_nil, if_true, c]
      have u : (x.freeTkt p.tkt).unhold = x.freeTkt p.tkt := by
        unfold W.unhold
        have : (x.freeTkt p.tkt).dev.arb.heldE = [] := by rw [y]; exact hheld
        rw [this]; rfl
      rw [u]
      unfold W.feedAll
      have : (x.freeTkt p.tkt).dev.pool.tkts.filter (fun k => decide (k.2.st = .issued) && k.2.crossed) = [] := by
        rw [List.filter_eq_nil_iff]
        intro e he
        have : e.2.st ≠ .issued := hall e (by rw [y] at he; exact he)
        simp [this]
      rw [this]; rfl
    rw [fin, y]
    exact ⟨rfl, fun h => by exact lx.2 h⟩
  obtain ⟨t, h1, h2⟩ := rackRun_logged r l rfl r.2
  exact ⟨t, h1, h2⟩

end Sys2Proof.Machine
end

