-- ==== Sys2Proof/Laws/BoardPackets.lean ====
section
/-! SUPPORT. Packets that the board die takes, its lanes and its timers. -/

namespace Sys2Proof.Machine

theorem list_filter_contains {α : Type} [BEq α] [LawfulBEq α] (l : List α) (f : α → Bool) :
    l.filter (fun q => !(l.filter f).contains q) = l.filter (fun q => !f q) := by
  apply List.filter_congr
  intro q hq
  congr 1
  rw [Bool.eq_iff_iff]
  simp [hq]

theorem engRetire_none (w : W) (e t : Nat) (h : ∀ o ∈ (w.dev.bd.eng e).ops ++ (w.dev.bd.eng e).opsRx, o.op.req.ten.val ≠ t) : w.engRetire e t = (w, []) := by
  unfold W.engRetire
  dsimp only
  refine if_pos ?_
  rw [List.isEmpty_iff, List.filter_eq_nil_iff]
  intro o ho; simpa using h o ho

theorem moves_coldLane (lvl : Tbl Nat) (live : Bool) (n : Nat) : Moves (fun w => w.coldLane lvl live n) := by
  intro w b h
  dsimp only
  unfold W.coldLane
  extract_lets up stuck code hiz w1
  have : ∃ b1, w1 = w.withBd b1 ∧ b.Around b1 := by
    simp only [w1]
    split
    · exact moves_modLane n (fun _ l => { l with code := code }) w b h
    · exact moves_applyCode n (fun _ => code) w b h
  obtain ⟨b1, e1, a1⟩ := this
  rw [e1]
  obtain ⟨b2, e2, a2⟩ := moves_modLane n (fun w1 => _) w b1 (a1.core.trans h)
  exact ⟨b2, e2, a1.trans a2⟩

theorem moves_startDirectB : Moves W.startDirectB := by
  unfold W.startDirectB W.forEach
  refine Moves.foldl (f := fun w n => _) (fun n => ?_) _
  refine Moves.ite ?_ Moves.id
  intro w b h
  exact ⟨_, rfl, rfl⟩

theorem moves_startEngines : Moves W.startEngines := by
  unfold W.startEngines
  refine Moves.foldl (f := fun w n => _) (fun e => ?_) _
  dsimp only
  intro w b h
  obtain ⟨b1, e1, a1⟩ := moves_modEng e (fun w g => { g with st := if (w.ecfg e).mode = 0 then 3 else 0, step := 0, sub := 0, ops := [], opsRx := [] }) w b h
  dsimp only at e1 ⊢
  rw [e1]
  split
  · exact ⟨b1, rfl, a1⟩
  · split
    · obtain ⟨b2, e2, a2⟩ := moves_modEng e (fun _ g => { g with st := 2 }) w b1 (a1.core.trans h)
      exact ⟨b2, e2, a1.trans a2⟩
    · obtain ⟨b2, e2, a2⟩ := moves_idleLevels e w b1 (a1.core.trans h)
      exact ⟨b2, e2, a1.trans a2⟩

theorem loadTables_at (x : Tables) (live : Bool) (w : W) (b : Board) (h : b.core = true) :
    ∃ b', (w.withBd b).loadTables x live = w.withBd b' ∧ b'.inbox = b.inbox ∧ b'.cfg = x.cfg ∧ b'.tabs = true ∧ b'.stuck = x.stuck ∧ b'.shadow = none ∧ b'.miss = 0 := by
  unfold W.loadTables
  dsimp only
  rw [W.withBd_modBd, W.withBd_modBd]
  generalize hb : ({ ({ b with cfg := x.cfg, tabs := true, stuck := x.stuck, shadow := none, wseq := x.lseq, miss := 0, pstate := if b.pstate = 1 then 2 else b.pstate } : Board) with lanes := _ } : Board) = b1
  have h1 : b1.core = true := by rw [← hb]; exact h
  have m : Moves (fun w => ((((((List.range 32).foldl (fun w n => if x.cfg.outLane n then w.coldLane x.lvl live n else w) w).startDirectB).startEngines).page0).page1).page2) := by
    refine Moves.comp (Moves.comp (Moves.comp (Moves.comp (Moves.comp ?_ moves_startDirectB) moves_startEngines) moves_page0) moves_page1) moves_page2
    refine Moves.foldl (f := fun w n => if x.cfg.outLane n then w.coldLane x.lvl live n else w) (fun n => ?_) _
    exact Moves.ite (c := fun _ => x.cfg.outLane n = true) (moves_coldLane _ _ _) Moves.id
  obtain ⟨b', e, a⟩ := m w b1 h1
  refine ⟨b', e, ?_⟩
  rw [a, ← hb]
  exact ⟨rfl, rfl, rfl, rfl, rfl, rfl⟩

theorem cause_bit0 (c : BitVec 7) (h : c.getLsbD 0 = false) : (c &&& cMISS != 0) = false := by
  revert c; decide

theorem cause_and (c : BitVec 7) : (if (c &&& cMISS != 0) = true then c &&& ~~~cMISS else c) = c &&& 0x7E := by
  revert c; decide

theorem foldl_same {α β : Type} (f : α → β → α) (l : List β) (a : α) (h : ∀ b ∈ l, f a b = a) : l.foldl f a = a := by
  induction l with
  | nil => rfl
  | cons b l ih => rw [List.foldl_cons, h b (by simp)]; exact ih (fun c hc => h c (by simp [hc]))

theorem mem_safe {w : W} {n : Nat} (h : n ∈ w.safeLanes) : n < 32 := by
  unfold W.safeLanes at h; simp at h; exact h.1

/-- Every lane keeps its causes and its stage. -/
def lanesKeep (b b' : Board) : Prop := ∀ n, (b'.lane n).cause = (b.lane n).cause ∧ (b'.lane n).stage = (b.lane n).stage ∧ (b'.lane n).armed = (b.lane n).armed ∧ (b'.lane n).refr = (b.lane n).refr

theorem drive_keep (b : Board) (n c m : Nat) : ((b.drive n c).lane m).cause = (b.lane m).cause ∧ ((b.drive n c).lane m).stage = (b.lane m).stage ∧
    ((b.drive n c).lane m).armed = (b.lane m).armed ∧ ((b.drive n c).lane m).refr = (b.lane m).refr := by
  by_cases h : m = n
  · subst h; simp [Board.drive]
  · rw [Board.drive_lane_ne _ _ _ _ h]; exact ⟨rfl, rfl, rfl, rfl⟩

theorem correct_at (w : W) (lvl : List Nat) (n : Nat) (b : Board) (h : b.core = true) (k : w.dev.log.lstate ≠ 4) :
    ∃ b', (w.withBd b).correct lvl n = w.withBd b' ∧ b.Around b' ∧ lanesKeep b b' := by
  unfold W.correct
  dsimp only
  split
  · rw [W.withBd_applyCode _ _ h, W.withBd_bRaise _ _ (by exact h) k]
    exact ⟨_, rfl, rfl, fun m => drive_keep _ _ _ _⟩
  · exact ⟨b, rfl, rfl, fun _ => ⟨rfl, rfl, rfl, rfl⟩⟩

theorem corrects_at (w : W) (lvl : List Nat) (l : List Nat) (b : Board) (h : b.core = true) (k : w.dev.log.lstate ≠ 4) :
    ∃ b', l.foldl (fun w n => w.correct lvl n) (w.withBd b) = w.withBd b' ∧ b.Around b' ∧ lanesKeep b b' := by
  induction l generalizing b with
  | nil => exact ⟨b, rfl, rfl, fun _ => ⟨rfl, rfl, rfl, rfl⟩⟩
  | cons n l ih =>
    obtain ⟨b1, e1, a1, k1⟩ := correct_at w lvl n b h k
    obtain ⟨b2, e2, a2, k2⟩ := ih b1 (a1.core.trans h)
    refine ⟨b2, by rw [List.foldl_cons, e1, e2], a1.trans a2, fun m => ?_⟩
    obtain ⟨x1, x2, x3, x4⟩ := k1 m
    obtain ⟨y1, y2, y3, y4⟩ := k2 m
    exact ⟨y1.trans x1, y2.trans x2, y3.trans x3, y4.trans x4⟩

/-- What one REFRESH does to a lane that may return (R228). -/
def ReturnStep (l l' : Lane) : Prop := l'.cause = l.cause ∧
  (l.stage ≠ 0 → l.armed = true → l.cause = 0 → (1 ≤ l.refr → l'.stage = 0 ∧ l'.armed = false) ∧ (l.refr = 0 → l'.stage = l.stage ∧ l'.refr = 1))

theorem toward_steps (n : Nat) : StepsLane Board.LanesAlone W.towardReturn n (fun _ l l' => ReturnStep l l') := by
  intro w b h
  unfold W.towardReturn
  dsimp only
  split
  · rename_i g
    split
    · rename_i r
      rw [W.withBd_modLane]
      refine ⟨_, rfl, Board.setLane_alone _ _ _, fun _ hm => Board.setLane_lane_ne _ _ _ _ hm, ?_⟩
      rw [Board.setLane_lane]
      exact ⟨rfl, fun _ _ _ => ⟨fun _ => ⟨rfl, rfl⟩, fun x => by simp at r; omega⟩⟩
    · rename_i r
      rw [W.withBd_modLane]
      refine ⟨_, rfl, Board.setLane_alone _ _ _, fun _ hm => Board.setLane_lane_ne _ _ _ _ hm, ?_⟩
      rw [Board.setLane_lane]
      exact ⟨rfl, fun _ _ _ => ⟨fun x => absurd x r, fun x => ⟨rfl, by show (b.lane n).refr + 1 = 1; omega⟩⟩⟩
  · rename_i g
    refine ⟨b, rfl, rfl, fun _ _ => rfl, rfl, fun a c d => ?_⟩
    exact absurd (by simp [W.withBd, a, c, d]) g

theorem missEnd_steps (n : Nat) : StepsLane Board.LanesAlone (fun w n => if (w.dev.bd.lane n).cause &&& cMISS != 0 then w.endCause n cMISS else w) n
    (fun _ l l' => l'.cause = l.cause &&& 0x7E ∧ l'.stage = l.stage ∧ l'.armed = l.armed ∧ (l.cause = 0 → l'.refr = l.refr)) := by
  intro w b h
  dsimp only
  have ca := cause_and (b.lane n).cause
  split
  · rename_i g
    unfold W.endCause
    rw [W.withBd_modLane]
    refine ⟨_, rfl, Board.setLane_alone _ _ _, fun _ hm => Board.setLane_lane_ne _ _ _ _ hm, ?_⟩
    rw [Board.setLane_lane]
    refine ⟨?_, rfl, rfl, fun z => ?_⟩
    · exact (if_pos g).symm.trans ca
    · exfalso; revert g; show ¬ (((b.lane n).cause &&& cMISS != 0) = true); rw [z]; decide
  · rename_i g
    exact ⟨b, rfl, rfl, fun _ _ => rfl, (if_neg g).symm.trans ca, rfl, rfl, fun _ => rfl⟩

theorem outLanes_mem (w : W) (n : Nat) (h : n < 32) (k : w.bcfg.outLane n = true) : n ∈ w.outLanes := by
  unfold W.outLanes; simp [h, k]

/-- The two board dies differ in their engines and their queues to the rack die alone. -/
def Board.EngOnly (b b' : Board) : Prop := b' = { b with engs := b'.engs, outS := b'.outS, out0 := b'.out0, outR := b'.outR }

theorem EngOnly.walks : Walks Board.EngOnly := ⟨fun _ => rfl, fun h k => by unfold Board.EngOnly at *; rw [k, h], fun h => by rw [h]⟩

/-- A function of the working record that moves the board die alone, in its engines. -/
def EngMoves (f : W → W) : Prop := ∀ (w : W) (b : Board), b.core = true → ∃ b', f (w.withBd b) = w.withBd b' ∧ b.EngOnly b'

theorem EngMoves.comp {f g : W → W} (hf : EngMoves f) (hg : EngMoves g) : EngMoves (fun w => g (f w)) := by
  intro w b h
  obtain ⟨b1, e1, a1⟩ := hf w b h
  obtain ⟨b2, e2, a2⟩ := hg w b1 ((EngOnly.walks.core a1).trans h)
  exact ⟨b2, by show g (f _) = _; rw [e1, e2], EngOnly.walks.trans a1 a2⟩

theorem EngMoves.id : EngMoves (fun w => w) := fun _ b _ => ⟨b, rfl, rfl⟩

theorem EngMoves.foldl {α : Type} {f : W → α → W} (hf : ∀ a, EngMoves (fun w => f w a)) (l : List α) : EngMoves (fun w => l.foldl f w) := by
  induction l with
  | nil => exact EngMoves.id
  | cons a l ih => exact EngMoves.comp (hf a) ih

theorem engMoves_backward (o : EngOp) (x : Payload) : EngMoves (fun w => w.backward o x) := by
  intro w b h
  unfold W.backward
  dsimp only
  split <;> exact ⟨_, rfl, rfl⟩

theorem engMoves_result (o : EngOp) (st sp : Nat) (v : BitVec 32) : EngMoves (fun w => w.engResult o st sp v) :=
  EngMoves.comp (EngMoves.foldl (f := fun w p => w.backward o (.rdata p)) (fun p => engMoves_backward o _) _) (engMoves_backward o _)

theorem engMoves_modEng (n : Nat) (f : W → Eng → Eng) : EngMoves (fun w => w.modEng n (f w)) := fun _ _ _ => ⟨_, rfl, rfl⟩

theorem engMoves_bRaise (src : Nat) (d e : W → Nat) : EngMoves (fun w => w.bRaise src (d w) (e w)) := by
  intro w b h
  unfold W.bRaise
  dsimp only
  split
  · exact ⟨b, rfl, rfl⟩
  · exact ⟨_, if_pos h, rfl⟩

theorem engMoves_stopChan (e : Nat) (rx : Bool) (st q : Nat) : EngMoves (fun w => w.stopChan e rx st q) := by
  intro w b h
  unfold W.stopChan
  dsimp only
  generalize ((w.withBd b).dev.bd.eng e).chan rx = l
  obtain ⟨b1, e1, a1⟩ := EngMoves.foldl (f := fun w o => w.engResult o (if o.step = 0 then q else st) o.step o.value) (fun o => engMoves_result _ _ _ _) l w b h
  dsimp only at e1
  rw [e1]
  have h1 := (EngOnly.walks.core a1).trans h
  cases l with
  | nil =>
    obtain ⟨b2, e2, a2⟩ := engMoves_modEng e (fun _ g => g.setChan rx []) w b1 h1
    exact ⟨b2, e2, EngOnly.walks.trans a1 a2⟩
  | cons o l =>
    obtain ⟨b2, e2, a2⟩ := EngMoves.comp (engMoves_modEng e (fun _ g => { g with lastF := (o.errf.toNat, st, o.step) })) (engMoves_modEng e (fun _ g => g.setChan rx [])) w b1 h1
    exact ⟨b2, e2, EngOnly.walks.trans a1 a2⟩

theorem engMoves_halt (e st q : Nat) : EngMoves (fun w => w.engHalt e st q) := by
  intro w b h
  unfold W.engHalt
  dsimp only
  split
  · exact ⟨b, rfl, rfl⟩
  · obtain ⟨b1, e1, a1⟩ := EngMoves.comp (EngMoves.comp (engMoves_stopChan e false st q) (engMoves_stopChan e true st q)) (engMoves_modEng e (fun _ g => { g with st := 2, step := 0, sub := 0 })) w b h
    dsimp only at e1
    rw [e1]
    split
    · exact ⟨b1, rfl, a1⟩
    · obtain ⟨b2, e2, a2⟩ := engMoves_bRaise 0x4D (fun w => (w.ecfg e).owner) (fun _ => e) w b1 ((EngOnly.walks.core a1).trans h)
      exact ⟨b2, e2, EngOnly.walks.trans a1 a2⟩

theorem engMoves_ite {c : W → Prop} [∀ w, Decidable (c w)] {f : W → W} (hf : EngMoves f) : EngMoves (fun w => if c w then f w else w) := by
  intro w b h
  by_cases k : c (w.withBd b)
  · obtain ⟨b', e, a⟩ := hf w b h; exact ⟨b', by rw [← e]; exact if_pos k, a⟩
  · exact ⟨b, if_neg k, rfl⟩

theorem engMoves_haltEngines : EngMoves W.haltEngines := by
  unfold W.haltEngines
  exact EngMoves.foldl (f := fun w e => if w.haltCause e then w.engHalt e stFAILSAFE else w) (fun e => engMoves_ite (c := fun w => w.haltCause e = true) (engMoves_halt e _ _)) _

theorem engMoves_haltMiss : EngMoves (fun w => (List.range 8).foldl (fun w e => if w.haltMiss e then w.engHalt e stFAILSAFE else w) w) :=
  EngMoves.foldl (f := fun w e => if w.haltMiss e then w.engHalt e stFAILSAFE else w) (fun e => engMoves_ite (c := fun w => w.haltMiss e = true) (engMoves_halt e _ _)) _

theorem EngOnly.lane {b b' : Board} (h : b.EngOnly b') (n : Nat) : b'.lane n = b.lane n := by rw [h]; rfl

theorem board_running {s : State} (h : s.board) : ((load s).dev.bd.runs && (load s).dev.log.lstate != 5) = true := by
    have := h.2
    have : s.dev.log.lstate ≠ 5 := by omega
    simp [load, h.1, this]

theorem missWindow_at (s : State) (h : s.board) (ht : s.dev.bd.tabs = true) (hp : s.dev.bd.pstate ≠ 0) :
    W.missWindow (load s) = (fun (w : W) => if w.dev.bd.miss = w.bcfg.nmiss then
      (((w.allCause cMISS |> fun w => (List.range 8).foldl (fun w e => if w.haltMiss e then w.engHalt e stFAILSAFE else w) w).bRaise 0x35 dUnit 0).page1).page0 else w)
      ((load s).withBd { (s.dev.bd.tells [timerEntry 2 0]).tells [boardEntry 2 0 0] with miss := s.dev.bd.miss + 1, missed := satAdd 16 s.dev.bd.missed 1 }) := by
    have core := board_core h
    have g : ¬ (!(load s).dev.bd.tabs || !(load s).dev.bd.core || (load s).dev.bd.pstate == 0) = true := by
      show ¬ (!s.dev.bd.tabs || !s.dev.bd.core || s.dev.bd.pstate == 0) = true
      rw [ht, core]; simpa using hp
    have e0 : ((((load s).bTimer 2 0).bDecide 2 0).modBd (fun b => { b with miss := b.miss + 1, missed := satAdd 16 b.missed 1 })) = (load s).withBd { (s.dev.bd.tells [timerEntry 2 0]).tells [boardEntry 2 0 0] with miss := s.dev.bd.miss + 1, missed := satAdd 16 s.dev.bd.missed 1 } := by
      rw [show (load s).bTimer 2 0 = (load s).withBd (s.dev.bd.tells [timerEntry 2 0]) from W.withBd_bTimer (load s) s.dev.bd core 2 0]
      rw [W.withBd_bDecide _ _ (by exact core)]; rfl
    unfold W.missWindow
    rw [if_neg g]
    simp only [e0]

theorem does_board {c : Instr} {s : State} {b : Board} {P : State → Prop} (e : exec c s = .next (s.withBoard b)) (k : P (s.withBoard b)) : Does c s P := ⟨_, e, k⟩

/-- The work of a lane command (R229–R231). -/
def laneAction (w : W) (mask : BitVec 32) (act : Nat) (r : Bool) : W :=
  match act with
          | 0 => w.cmdReturn mask
          | 1 => (w.cmdForce mask).haltEngines
          | 2 => w.cmdRelease
          | _ => (w.cmdReaction mask r).haltEngines

/-- The board die after it took a lane command off its inbox. -/
def commandTaken (s : State) (rest : List Pkt) (act : Nat) : Board := ({ s.dev.bd with inbox := rest } : Board).tells [boardEntry 4 0 act]

theorem lanecmd_at (s : State) (p : Pkt) (rest : List Pkt) (mask : BitVec 32) (act : Nat) (r : Bool) (h : s.boardHas p rest) (ht : s.dev.bd.tabs = true)
    (hb : p.body = .lanecmd mask act r) (b' : Board)
    (hg : laneAction ((load s).withBd (commandTaken s rest act)) mask act r = (load s).withBd b') (hc : b'.core = true) :
    W.lanecmd (load s) act = (load s).withBd b'.page1.page0 := by
  unfold W.lanecmd
  rw [boardHas_front h]; simp only [hb, boardHas_taken h]
  rw [if_neg (by simp), if_neg (by show ¬ (!s.dev.bd.tabs) = true; rw [ht]; simp)]
  rw [W.withBd_bDecide _ _ (by exact board_core h.1)]
  show (laneAction ((load s).withBd (commandTaken s rest act)) mask act r).page1.page0 = _
  rw [hg, W.withBd_page1 _ _ hc, W.withBd_page0 _ _ (by simpa using hc)]

/-- What every lane command leaves as it was. -/
def CommandKeeps (s : State) (rest : List Pkt) (b : Board) : Prop := b.inbox = rest ∧ b.cfg = s.dev.bd.cfg ∧ b.tabs = s.dev.bd.tabs

theorem causeNotForce (c : BitVec 7) : (if (c &&& cFORCE != 0) = true then c &&& ~~~cFORCE else c) = c &&& 0x5F := by revert c; decide

theorem out_named (s : State) (rest : List Pkt) (act n : Nat) (mask : BitVec 32) :
    n ∈ ((load s).withBd (commandTaken s rest act)).outLanes.filter (fun n => mask.getLsbD n) ↔ (n < 32 ∧ s.dev.bd.cfg.outLane n = true ∧ mask.getLsbD n = true) := by
  unfold W.outLanes W.bcfg commandTaken Board.tells
  simp only [List.mem_filter, List.mem_range, W.withBd_bd]
  constructor
  · rintro ⟨⟨a, b⟩, c⟩; exact ⟨a, b, c⟩
  · rintro ⟨a, b, c⟩; exact ⟨⟨a, b⟩, c⟩

theorem cause_cmd (s : State) (p : Pkt) (rest : List Pkt) (mask : BitVec 32) (act : Nat) (r : Bool) (c : BitVec 7) (h : s.boardHas p rest) (ht : s.dev.bd.tabs = true)
    (hb : p.body = .lanecmd mask act r)
    (hg : laneAction ((load s).withBd (commandTaken s rest act)) mask act r =
       ((((load s).withBd (commandTaken s rest act)).outLanes.filter (fun n => mask.getLsbD n)).foldl (fun w n => w.laneCause n c) ((load s).withBd (commandTaken s rest act))).haltEngines) :
    ∃ b', W.lanecmd (load s) act = (load s).withBd b' ∧ CommandKeeps s rest b' ∧ ∀ n,
      ((n < 32 ∧ s.dev.bd.cfg.outLane n = true ∧ mask.getLsbD n = true) → (b'.lane n).cause = (s.dev.bd.lane n).cause ||| c ∧ (b'.lane n).stage ≠ 0) ∧
      (¬ (n < 32 ∧ s.dev.bd.cfg.outLane n = true ∧ mask.getLsbD n = true) → b'.lane n = s.dev.bd.lane n) := by
  have core : (commandTaken s rest act).core = true := board_core h.1
  obtain ⟨b2, e2, o2, k2, r2⟩ := walk_lanes LanesOnly.walks (fun w n => w.laneCause n c) (fun n _ l l' => l'.cause = l.cause ||| c ∧ l'.stage ≠ 0)
        (((load s).withBd (commandTaken s rest act)).outLanes.filter (fun n => mask.getLsbD n)) ((W.outLanes_nodup _).filter _) (fun n _ => laneCause_steps n c) (load s) _ core (fun _ _ _ _ _ _ k => k)
  obtain ⟨b3, e3, a3⟩ := engMoves_haltEngines (load s) b2 (o2.core.trans core)
  have c3 := (EngOnly.walks.core a3).trans (o2.core.trans core)
  refine ⟨_, lanecmd_at s p rest mask act r h ht hb b3 (by rw [hg, e2, e3]) c3, ?_, ?_⟩
  · have x : b3.Around b3.page1.page0 := (Board.page1_around _).trans (Board.page0_around _)
    have y : CommandKeeps s rest b3 := by
      unfold CommandKeeps; rw [a3]; show b2.inbox = _ ∧ b2.cfg = _ ∧ b2.tabs = _; rw [o2]; exact ⟨rfl, rfl, rfl⟩
    unfold CommandKeeps; rw [x]; exact y
  · intro n
    rw [Board.page0_lane, Board.page1_lane, EngOnly.lane a3]
    refine ⟨fun hn => r2 n ((out_named _ _ _ _ _).mpr hn), fun hn => k2 n (fun x => hn ((out_named _ _ _ _ _).mp x))⟩

theorem lanecmd_force (s : State) (p : Pkt) (rest : List Pkt) (mask : BitVec 32) (r : Bool) (h : s.boardHas p rest) (ht : s.dev.bd.tabs = true) (hb : p.body = .lanecmd mask 1 r) :
   ∃ b', W.lanecmd (load s) 1 = (load s).withBd b' ∧ CommandKeeps s rest b' ∧ ∀ n,
      ((n < 32 ∧ s.dev.bd.cfg.outLane n = true ∧ mask.getLsbD n = true) → (b'.lane n).cause = (s.dev.bd.lane n).cause ||| 0x20 ∧ (b'.lane n).stage ≠ 0) ∧
      (¬ (n < 32 ∧ s.dev.bd.cfg.outLane n = true ∧ mask.getLsbD n = true) → b'.lane n = s.dev.bd.lane n) :=
  cause_cmd s p rest mask 1 r cFORCE h ht hb rfl

theorem lanecmd_react (s : State) (p : Pkt) (rest : List Pkt) (mask : BitVec 32) (h : s.boardHas p rest) (ht : s.dev.bd.tabs = true) (hb : p.body = .lanecmd mask 3 true) :
   ∃ b', W.lanecmd (load s) 3 = (load s).withBd b' ∧ CommandKeeps s rest b' ∧ ∀ n,
      ((n < 32 ∧ s.dev.bd.cfg.outLane n = true ∧ mask.getLsbD n = true) → (b'.lane n).cause = (s.dev.bd.lane n).cause ||| 0x10 ∧ (b'.lane n).stage ≠ 0) ∧
      (¬ (n < 32 ∧ s.dev.bd.cfg.outLane n = true ∧ mask.getLsbD n = true) → b'.lane n = s.dev.bd.lane n) :=
  cause_cmd s p rest mask 3 true cREACTION h ht hb rfl

theorem commandKeeps_of {s : State} {rest : List Pkt} {act : Nat} {b3 : Board} (o : (commandTaken s rest act).LanesOnly b3) : CommandKeeps s rest b3.page1.page0 := by
  have x : b3.Around b3.page1.page0 := (Board.page1_around _).trans (Board.page0_around _)
  have y : CommandKeeps s rest b3 := by
      unfold CommandKeeps; rw [o]; exact ⟨rfl, rfl, rfl⟩
  unfold CommandKeeps; rw [x]; exact y

theorem lanecmd_clear (s : State) (p : Pkt) (rest : List Pkt) (mask : BitVec 32) (h : s.boardHas p rest) (ht : s.dev.bd.tabs = true) (hb : p.body = .lanecmd mask 3 false) :
   ∃ b', W.lanecmd (load s) 3 = (load s).withBd b' ∧ CommandKeeps s rest b' ∧ ∀ n,
      ((n < 32 ∧ s.dev.bd.cfg.outLane n = true ∧ mask.getLsbD n = true) → b'.lane n = { s.dev.bd.lane n with cause := (s.dev.bd.lane n).cause &&& 0x6F, refr := 0 }) ∧
      (¬ (n < 32 ∧ s.dev.bd.cfg.outLane n = true ∧ mask.getLsbD n = true) → b'.lane n = s.dev.bd.lane n) := by
  have core : (commandTaken s rest 3).core = true := board_core h.1
  obtain ⟨b2, e2, o2, k2, r2⟩ := walk_lanes LanesAlone.walks (fun w n => w.endCause n cREACTION) (fun n _ l l' => l' = { l with cause := l.cause &&& ~~~cREACTION, refr := 0 })
        (((load s).withBd (commandTaken s rest 3)).outLanes.filter (fun n => mask.getLsbD n)) ((W.outLanes_nodup _).filter _) (fun n _ => endCause_steps n cREACTION) (load s) _ core (fun _ _ _ _ _ _ k => k)
  have c2 := (LanesAlone.walks.core o2).trans core
  obtain ⟨b3, e3, a3⟩ := engMoves_haltEngines (load s) b2 c2
  have c3 := (EngOnly.walks.core a3).trans c2
  refine ⟨_, lanecmd_at s p rest mask 3 false h ht hb b3 (by
     show (((load s).withBd (commandTaken s rest 3)).cmdReaction mask false).haltEngines = _
     rw [show ((load s).withBd (commandTaken s rest 3)).cmdReaction mask false = _ from e2, e3]) c3, ?_, ?_⟩
  · have x : b3.Around b3.page1.page0 := (Board.page1_around _).trans (Board.page0_around _)
    have y : CommandKeeps s rest b3 := by
      unfold CommandKeeps; rw [a3]; show b2.inbox = _ ∧ b2.cfg = _ ∧ b2.tabs = _; rw [o2]; exact ⟨rfl, rfl, rfl⟩
    unfold CommandKeeps; rw [x]; exact y
  · intro n
    rw [Board.page0_lane, Board.page1_lane, EngOnly.lane a3]
    refine ⟨fun hn => r2 n ((out_named _ _ _ _ _).mpr hn), fun hn => k2 n (fun x => hn ((out_named _ _ _ _ _).mp x))⟩

/-- BAR_RETURN at one lane. -/
def retStep (w : W) (n : Nat) : W :=
    let l := w.dev.bd.lane n
    if l.stage ≠ 0 then
      let w := if l.cause &&& cFORCE != 0 then w.endCause n cFORCE else w
      if (w.dev.bd.lane n).cause = 0 then w.modLane n (fun l => { l with armed := true, refr := 0 }) else w
    else w

theorem retStep_steps (n : Nat) : StepsLane Board.LanesAlone retStep n (fun _ l l' =>
      (l.stage ≠ 0 → l.cause &&& 0x5F = 0 → l' = { l with cause := 0, armed := true, refr := 0 }) ∧
      (l.stage ≠ 0 → l.cause &&& 0x5F ≠ 0 → l'.cause = l.cause &&& 0x5F ∧ l'.armed = l.armed) ∧ (l.stage = 0 → l' = l)) := by
  intro w b h
  have cf := causeNotForce (b.lane n).cause
  unfold retStep
  dsimp only
  split
  · rename_i hs
    have A : ∃ b1, (if (((w.withBd b).dev.bd.lane n).cause &&& cFORCE != 0) = true then (w.withBd b).endCause n cFORCE else w.withBd b) = w.withBd b1 ∧ b.LanesAlone b1 ∧ (∀ m, m ≠ n → b1.lane m = b.lane m) ∧
        (b1.lane n).cause = (b.lane n).cause &&& 0x5F ∧ (b1.lane n).armed = (b.lane n).armed ∧ { (b1.lane n) with cause := 0, armed := true, refr := 0 } = { (b.lane n) with cause := 0, armed := true, refr := 0 } := by
      split
      · rename_i g
        unfold W.endCause
        rw [W.withBd_modLane]
        refine ⟨_, rfl, Board.setLane_alone _ _ _, fun _ hm => Board.setLane_lane_ne _ _ _ _ hm, ?_⟩
        rw [Board.setLane_lane]
        exact ⟨(if_pos g).symm.trans cf, rfl, rfl⟩
      · rename_i g
        exact ⟨b, rfl, rfl, fun _ _ => rfl, (if_neg g).symm.trans cf, rfl, rfl⟩
    obtain ⟨b1, e1, o1, k1, x1, x2, x3⟩ := A
    rw [e1]
    split
    · rename_i z
      rw [W.withBd_modLane]
      refine ⟨_, rfl, LanesAlone.walks.trans o1 (Board.setLane_alone _ _ _), fun m hm => (Board.setLane_lane_ne _ _ _ _ hm).trans (k1 m hm), ?_⟩
      rw [Board.setLane_lane]
      refine ⟨fun _ _ => ?_, fun _ y => absurd (x1 ▸ z) y, fun y => absurd y hs⟩
      rw [← x3]
      rw [show (b1.lane n).cause = 0 from z]
    · rename_i z
      exact ⟨b1, rfl, o1, k1, fun _ y => absurd (x1.trans y) z, fun _ _ => ⟨x1, x2⟩, fun y => absurd y hs⟩
  · rename_i hs
    refine ⟨b, rfl, rfl, fun _ _ => rfl, fun y => absurd y hs, fun y => absurd y hs, fun _ => rfl⟩

/-- RELEASE_LANES at one lane. -/
def relStep (w : W) (n : Nat) : W :=
    let held := (w.dev.bd.lane n).cause &&& cSTUCK != 0
    let w := w.endCause n cSTUCK
    if held && (w.dev.bd.lane n).cause == 0 && (w.dev.bd.lane n).stage != 3 then w.modLane n Lane.goLive else w

theorem relStep_steps (n : Nat) : StepsLane Board.LanesAlone relStep n (fun _ l l' =>
   (l.cause = 8 → l.stage ≠ 3 → l' = { l with cause := 0, refr := 0, stage := 0, armed := false, hiz := false, kept := none }) ∧
        (l.cause &&& 0x77 ≠ 0 → l'.cause = l.cause &&& 0x77 ∧ l'.stage = l.stage)) := by
  intro w b h
  unfold relStep W.endCause
  dsimp only
  rw [W.withBd_modLane]
  split
  · rename_i g
    rw [W.withBd_modLane, Board.setLane_setLane, Board.setLane_lane]
    refine ⟨_, rfl, Board.setLane_alone _ _ _, fun _ hm => Board.setLane_lane_ne _ _ _ _ hm, ?_⟩
    rw [Board.setLane_lane]
    simp only [W.withBd_bd, Board.setLane_lane] at g
    refine ⟨fun x _ => ?_, fun x => ?_⟩
    · simp only [Lane.goLive, x]; rfl
    · exfalso; apply x
      simp only [Bool.and_eq_true, beq_iff_eq] at g
      exact g.1.2
  · rename_i g
    simp only [W.withBd_bd, Board.setLane_lane] at g
    refine ⟨_, rfl, Board.setLane_alone _ _ _, fun _ hm => Board.setLane_lane_ne _ _ _ _ hm, ?_⟩
    rw [Board.setLane_lane]
    refine ⟨fun x y => ?_, fun x => ⟨rfl, rfl⟩⟩
    exfalso; apply g
    rw [x]; simpa using y

theorem lanecmd_release (s : State) (p : Pkt) (rest : List Pkt) (mask : BitVec 32) (r : Bool) (h : s.boardHas p rest) (ht : s.dev.bd.tabs = true) (hb : p.body = .lanecmd mask 2 r)
   (hab : ∀ n < 8, s.dev.bd.cfg.abLane n = false) :
   ∃ b', W.lanecmd (load s) 2 = (load s).withBd b' ∧ CommandKeeps s rest b' ∧ b'.stuck = false ∧ ∀ n,
      (n < 32 → s.dev.bd.cfg.outLane n = true →
        ((s.dev.bd.lane n).cause = 8 → (s.dev.bd.lane n).stage ≠ 3 → b'.lane n = { (s.dev.bd.lane n) with cause := 0, refr := 0, stage := 0, armed := false, hiz := false, kept := none }) ∧
        ((s.dev.bd.lane n).cause &&& 0x77 ≠ 0 → (b'.lane n).cause = (s.dev.bd.lane n).cause &&& 0x77 ∧ (b'.lane n).stage = (s.dev.bd.lane n).stage)) ∧
      (¬ (n < 32 ∧ s.dev.bd.cfg.outLane n = true) → b'.lane n = s.dev.bd.lane n) := by
  let b0 : Board := { commandTaken s rest 2 with stuck := false }
  have core : b0.core = true := board_core h.1
  obtain ⟨b2, e2, o2, k2, r2⟩ := walk_lanes LanesAlone.walks relStep (fun n _ l l' =>
   (l.cause = 8 → l.stage ≠ 3 → l' = { l with cause := 0, refr := 0, stage := 0, armed := false, hiz := false, kept := none }) ∧
        (l.cause &&& 0x77 ≠ 0 → l'.cause = l.cause &&& 0x77 ∧ l'.stage = l.stage))
        (((load s).withBd b0).outLanes) (W.outLanes_nodup _) (fun n _ => relStep_steps n) (load s) _ core (fun _ _ _ _ _ _ k => k)
  have c2 := (LanesAlone.walks.core o2).trans core
  have mem : ∀ n, n ∈ ((load s).withBd b0).outLanes ↔ (n < 32 ∧ s.dev.bd.cfg.outLane n = true) := by
    intro n; unfold W.outLanes W.bcfg; simp only [List.mem_filter, List.mem_range, W.withBd_bd]; rfl
  have e3 : ((load s).withBd b2).releaseDirect = (load s).withBd b2 := by
    unfold W.releaseDirect
    refine foldl_same _ _ _ (fun n hn => if_neg ?_)
    rintro ⟨x, _⟩
    have : b2.cfg.abLane n = s.dev.bd.cfg.abLane n := by rw [o2]; rfl
    rw [show ((load s).withBd b2).bcfg.abLane n = b2.cfg.abLane n from rfl, this, hab n (List.mem_range.mp hn)] at x
    simp at x
  have e : ((load s).withBd (commandTaken s rest 2)).cmdRelease = (load s).withBd b2 := by
    unfold W.cmdRelease
    rw [W.withBd_modBd]
    show (List.foldl relStep ((load s).withBd b0) ((load s).withBd b0).outLanes).releaseDirect = _
    rw [e2, e3]
  refine ⟨_, lanecmd_at s p rest mask 2 r h ht hb b2 e c2, ?_, ?_, ?_⟩
  · have x : b2.Around b2.page1.page0 := (Board.page1_around _).trans (Board.page0_around _)
    have y : CommandKeeps s rest b2 := by unfold CommandKeeps; rw [o2]; exact ⟨rfl, rfl, rfl⟩
    unfold CommandKeeps; rw [x]; exact y
  · have x : b2.Around b2.page1.page0 := (Board.page1_around _).trans (Board.page0_around _)
    rw [x]; show b2.stuck = false; rw [o2]
  · intro n
    rw [Board.page0_lane, Board.page1_lane]
    exact ⟨fun a b => r2 n ((mem n).mpr ⟨a, b⟩), fun x => k2 n (fun y => x ((mem n).mp y))⟩

theorem lanAddr (n : Nat) (h : n < 32) : (0x50000 + 0x40 * n - 0x50000) / 0x40 = n ∧ (0x50000 + 0x40 * n) % 0x40 = 0 ∧ 0x50000 + 0x40 * n < 0x60000 := by omega

theorem opPacket_at (s : State) (p : Pkt) (rest : List Pkt) (o : Op) (h : s.boardHas p rest) (hb : p.body = .op o) :
    W.opPacket (load s) = ((load s).withBd (({ s.dev.bd with inbox := rest } : Board).tells [boardEntry 0 p.tkt 0])).execOp p o := by
  unfold W.opPacket
  rw [boardHas_front h]; simp only [hb, boardHas_taken h]
  rw [W.withBd_bDecide _ _ (by exact board_core h.1)]

theorem laneWrite_at (w : W) (b : Board) (p : Pkt) (o : Op) (n : Nat) (hk : o.kind = .wr) (hn : n < 32) (ha : o.addr.toNat = 0x50000 + 0x40 * n) (hp : b.parked = false)
    (r : W × Nat) (hr : (w.withBd b).laneWrite o.req.ten.val n (o.value.toNat % 4) = r) :
    (w.withBd b).execOp p o = r.1.reply p r.2 0 (if r.1.dev.bd.wseq = b.wseq then (none, none) else r.1.laneNews (0x50000 + 0x40 * n)).1
      (if r.1.dev.bd.wseq = b.wseq then (none, none) else r.1.laneNews (0x50000 + 0x40 * n)).2 := by
  obtain ⟨a1, a2, a3⟩ := lanAddr n hn
  unfold W.execOp
  simp only [hk, ha, W.newAt, OpKind.readsOld, Bool.false_eq_true, if_false, OpKind.newValue]
  rw [if_neg (by omega), if_neg (by omega)]
  have : (w.withBd b).boardWrite o.req.ten.val (0x50000 + 0x40 * n) o.value.toNat = r := by
    unfold W.boardWrite
    rw [if_pos a3, if_neg (by rintro ⟨x, _⟩; rw [show (w.withBd b).dev.bd.parked = false from hp] at x; simp at x)]
    unfold W.lanWrite
    rw [a1, a2, if_pos rfl, hr]
  simp only [this, false_and, if_false]
  rfl

theorem bump_ne (q : Nat) : ¬ (q + 1) % 65536 = q := by omega

theorem drive_wseq (b : Board) (n c : Nat) (h : (b.cfg.lane n).mode = 2) : (b.drive n c).wseq = (b.wseq + 1) % 65536 := by
  unfold Board.drive; simp [h, Board.tells, Board.setLane]

theorem drive_code (b : Board) (n c : Nat) : ((b.drive n c).lane n).code = c := by
  simp [Board.drive]

end Sys2Proof.Machine
end

