-- ==== Sys2Proof/Laws/LaneWrites.lean ====
section
/-! SUPPORT. Direct channels, beacons, lane writes and the debug slot. -/

namespace Sys2Proof.Machine

theorem board_commits {f : W → W} {s : State} (b : Board) (h4 : s.dev.log.lstate ≠ 4) (e : f (load s) = (load s).withBd b) : runW f s = .next (s.withBoard b) :=
  run_board h4 e

theorem levelIn_ch (w : W) (b : Board) (n : Nat) (level : Bool) (hc : b.core = true) (hm : (b.cfg.lane n).mode = 1) (hp : (b.lane n).pin ≠ level) :
   (w.withBd b).levelIn n level = w.withBd ((b.setLane n { b.lane n with pin := level, flt := level, evt := (b.lane n).evt ||| (if level then 3 else 5) }).tells
        [.page5 [[packN [(0, 6, 0x11), (6, 5, n), (12, 8, if level then 1 else 0)], 0x3F]]]) := by
  unfold W.levelIn
  rw [if_neg (by rw [W.withBd_bd, hc]; simp), if_pos (by exact hm), if_neg (by exact hp), W.withBd_modLane, W.withBd_bLogT _ _ (by exact hc)]
  rfl

theorem replay_close (w : W) (h : w.rq = []) (k : w.dev.log.lstate = 4) (x : w.dev.hpt.rx = []) : w.close = w := by
  have s : ∀ n, W.serve n w = w := fun n => by cases n <;> simp [W.serve, h]
  unfold W.close
  rw [s, W.settleReplay, if_pos k]
  unfold W.feedFrame
  rw [x]; exact s 16

theorem pages_at (w : W) (b : Board) (hc : b.core = true) (hh : b.holdup = false) : (w.withBd b).statusPages =
    w.withBd (if w.dev.sup.mode = 0 then b.reports else b) := by
  unfold W.statusPages
  have g : ((w.withBd b).dev.bd.core && !(w.withBd b).dev.bd.holdup && (w.withBd b).dev.sup.mode == 0) = decide (w.dev.sup.mode = 0) := by
    show (b.core && !b.holdup && w.dev.sup.mode == 0) = _
    rw [hc, hh]; simp; rfl
  rw [g]
  by_cases m : w.dev.sup.mode = 0
  · rw [if_pos m, if_pos (decide_eq_true m)]
    unfold Board.reports
    dsimp only
    rw [W.withBd_page0 _ _ hc]
    have : (if (w.withBd b.page0).dev.bd.tabs = true then (w.withBd b.page0).page1 else w.withBd b.page0) = w.withBd (if b.tabs then b.page0.page1 else b.page0) := by
      by_cases t : b.tabs = true
      · rw [if_pos t]; exact (if_pos t).trans (W.withBd_page1 _ _ (by exact hc))
      · rw [if_neg t]; exact if_neg t
    rw [this]
    have k : (if b.tabs then b.page0.page1 else b.page0).core = true := by split <;> exact hc
    have kp : (if b.tabs then b.page0.page1 else b.page0).probe = b.probe := by split <;> rfl
    revert k kp
    generalize (if b.tabs then b.page0.page1 else b.page0) = c
    intro k kp
    rw [W.withBd_page2 _ _ k]
    unfold W.page4
    rw [W.withBd_status _ _ (by exact k)]
    simp only [W.withBd_bd, Board.page2, Board.tells, kp]
  · rw [if_neg m, if_neg (by simpa using m)]

theorem reports_around (b : Board) : b.Around b.reports := by
  unfold Board.reports
  split
  · exact ((b.page0_around.trans (Board.page1_around _)).trans (Board.page2_around _)).trans (Board.tells_around _ _)
  · exact (b.page0_around.trans (Board.page2_around _)).trans (Board.tells_around _ _)

theorem pages_keep (b : Board) (m : Prop) [Decidable m] : 
   (if m then b.reports else b).ready = b.ready ∧ (if m then b.reports else b).holdV = b.holdV ∧ (if m then b.reports else b).low = b.low := by
  split
  · have A := reports_around b
    generalize b.reports = c at A
    refine ⟨?_, ?_, ?_⟩ <;> rw [A]
  · exact ⟨rfl, rfl, rfl⟩

theorem blocked_iff (w : W) (mask : BitVec 32) : w.returnBlocked mask = false ↔
    ∀ n < 32, mask.getLsbD n = true → (tget ({} : LaneView) w.dev.bar.views n).stage = 0 ∨ (tget ({} : LaneView) w.dev.bar.views n).cause &&& 0x5F = 0 := by
  unfold W.returnBlocked
  rw [List.any_eq_false]
  simp only [List.mem_range, Bool.and_eq_true, not_and, bne_iff_ne, ne_eq]
  constructor
  · intro h n hn hm
    by_cases x : (tget ({} : LaneView) w.dev.bar.views n).stage = 0
    · exact .inl x
    · refine .inr ?_
      have := h n hn ⟨hm, x⟩
      simpa using this
  · intro h n hn ⟨hm, hx⟩
    rcases h n hn hm with x | x
    · exact absurd x hx
    · simpa using x

theorem endQuarantine_quiet (w : W) (h : ∀ e ∈ w.dev.pool.tkts, e.2.st ≠ .quarantined) : w.endQuarantine = w := by
  unfold W.endQuarantine
  rw [List.filter_eq_nil_iff.mpr (by intro e he; simpa using h e he)]; rfl

theorem onBoard_runs (w : W) (f : W → W) (r : w.dev.bd.runs = true) (h : w.dev.log.lstate < 4) : onBoard f w = f w := by
  refine if_pos ?_
  have : w.dev.log.lstate ≠ 5 := by omega
  rw [r]; simpa using this

end Sys2Proof.Machine
end

