-- ==== Sys2Proof/Laws/EngineSteps.lean ====
section
/-! SUPPORT. Steps, edges, ends and records of the protocol engines. -/

namespace Sys2Proof.Machine

theorem timer_at (s : State) (e : Fin 8) (o : EngOp) (rest : List EngOp) (hb : s.dev.bd.busy e o rest) :
    W.engTimer (load s) e = match (s.dev.bd.ecfg e).mode with
      | 1 => (load s).strbTimer e o
      | 2 =>
        if o.op.kind ≠ .erx ∧ o.step = 2 then
          let x := (load s).groupPins e
          ((load s).modEng e (fun g => { g with smp := x })).engEnd e false stOK 4 (some (x.setWidth 32))
        else load s
      | 3 => (load s).asynTimer e o
      | 4 => (load s).syncTimer e o
      | 6 => if o.step = 5 ∨ o.step = 6 then (load s).engEnd e false stOK o.step none else load s
      | _ => load s := by
  unfold W.engTimer
  have h : (load s).engHead e false = some o := by
    show (s.dev.bd.eng e).ops.head? = _; rw [hb.2]; rfl
  rw [h]
  dsimp only
  rw [if_neg (show ¬ ((load s).dev.bd.eng e).st ≠ 1 by show ¬ (s.dev.bd.eng e).st ≠ 1; rw [hb.1]; simp)]
  rfl

theorem engEnd_last (w : W) (b : Board) (e : Nat) (o : EngOp) (st sp : Nat) (v : Option (BitVec 32)) (hc : b.core = true) (h1 : (b.eng e).ops = [o]) (h2 : (b.eng e).opsRx = []) (h3 : (b.eng e).st = 1)
    (hm : (b.ecfg e).mode = 2 ∨ (b.ecfg e).mode = 5 ∨ (b.ecfg e).mode = 6) :
    (w.withBd b).engEnd e false st sp v = w.withBd ((b.ends o st sp (v.getD o.value)).setEng e ((b.eng e).idled o st sp)) := by
  unfold W.engEnd
  have h : (w.withBd b).engHead e false = some o := by
    show (b.eng e).ops.head? = _; rw [h1]; rfl
  rw [h]
  dsimp only
  rw [W.withBd_engResult, W.withBd_setEng, Board.ends_eng]
  have g1 : ({ ((b.eng e).setChan false (((b.eng e).chan false).drop 1)) with lastF := (o.errf.toNat, st, sp) } : Eng) = { b.eng e with ops := [], lastF := (o.errf.toNat, st, sp) } := by
    have : ((b.eng e).chan false).drop 1 = [] := by show (b.eng e).ops.drop 1 = []; rw [h1]; rfl
    rw [this]; rfl
  rw [g1]
  generalize hb' : (b.ends o st sp (v.getD o.value)).setEng e _ = b'
  have ge : b'.eng e = { b.eng e with ops := [], lastF := (o.errf.toNat, st, sp) } := by rw [← hb', Board.setEng_eng]
  have e1 : (((w.withBd b').dev.bd.eng e).chan false).isEmpty = true := by
    show (b'.eng e).ops.isEmpty = true; rw [ge]; rfl
  have e2 : ((((w.withBd b').dev.bd.eng e).chan (!false)).isEmpty && ((w.withBd b').dev.bd.eng e).st == 1) = true := by
    show ((b'.eng e).opsRx.isEmpty && (b'.eng e).st == 1) = true; rw [ge]
    show ((b.eng e).opsRx.isEmpty && (b.eng e).st == 1) = true
    rw [h2, h3]; rfl
  rw [if_pos e1, if_pos e2, W.withBd_setEng, ge]
  rw [← hb', Board.setEng_setEng]
  have cfg : ∀ g : Eng, g.kept = (b.eng e).kept → ((b.ends o st sp (v.getD o.value)).setEng e g).ecfg e = b.ecfg e := by
    intro g hg
    rw [Board.setEng_ecfg _ _ _ (by rw [Board.ends_eng]; exact hg), Board.ends_ecfg]
  unfold W.idleLevels
  rw [W.withBd_ecfg, cfg _ (by rfl)]
  have : ({ ({ b.eng e with ops := [], lastF := (o.errf.toNat, st, sp) } : Eng) with st := 0, step := 0, sub := 0 } : Eng) = (b.eng e).idled o st sp := rfl
  rcases hm with m | m | m <;> (dsimp only; rw [m]; rfl)

theorem edge_run {s : State} (e : Fin 8) (x : EngEdge) (h : s.board) (b' : Board) (k : W.engEdge (load s) e x = (load s).withBd b') :
    exec (.engineInputEdge e x) s = .next (s.withBoard b') := by
  refine board_next (f := fun w => if edgeLogged x then w.pinIn (fun w => w.engEdge e.val x) else w.engEdge e.val x) h b' ?_
  show (if edgeLogged x then _ else _) = _
  split
  · exact (if_neg (show ¬ s.dev.log.lstate = 4 from ls_board h)).trans k
  · exact k

theorem edge_same {s : State} (e : Fin 8) (x : EngEdge) (h : s.board) (k : W.engEdge (load s) e x = load s) :
    exec (.engineInputEdge e x) s = .next s := edge_run e x h s.dev.bd k

theorem pushRx_room (w : W) (b : Board) (e : Nat) (l : List (Byte × BitVec 8)) (h : (b.eng e).rx.length + l.length ≤ 256) :
    (w.withBd b).pushRx e l = w.withBd (b.setEng e { b.eng e with rx := (b.eng e).rx ++ l, gap := false }) := by
  unfold W.pushRx
  exact if_pos h

theorem serveRx_none (w : W) (b : Board) (e : Nat) (h1 : (b.eng e).ops = []) (h2 : (b.eng e).opsRx = []) : (w.withBd b).serveRx e = w.withBd b := by
  unfold W.serveRx
  have : (w.withBd b).engHead e (((w.withBd b).ecfg e).chanOf .erx) = none := by
    rw [W.withBd_engHead]
    unfold Eng.chan
    split
    · rw [h2]; rfl
    · rw [h1]; rfl
  simp only [this]

theorem lineErr_at (w : W) (b : Board) (e : Nat) (o : EngOp) (rest : List EngOp) (f : BitVec 8) (hc : b.core = true) (h4 : w.dev.log.lstate ≠ 4) (h : (b.eng e).ops = o :: rest) (n : Nat) :
    ((w.withBd b).lineErr e f).engStep e false n = w.withBd
      ((b.raises 0x4A (b.ecfg e).owner e).setEng e (({ b.eng e with line := satAdd 8 (b.eng e).line 1 } : Eng).at { o with errf := o.errf ||| f } rest n)) := by
  unfold W.lineErr
  rw [W.withBd_setEng, Eng.modHead_first _ o rest _ h, W.withBd_engFault _ _ _ (by exact hc) h4]
  rw [W.withBd_engStepHead _ _ _ { o with errf := o.errf ||| f } rest n (by
    show ((b.setEng e _).eng e).ops = _
    rw [Board.setEng_eng])]
  have : ∀ g : Eng, ((b.setEng e g).raises 0x4A ((b.setEng e g).ecfg e).owner e).eng e = g := fun g => by
    show ((b.setEng e g)).eng e = g
    exact Board.setEng_eng _ _ _
  rw [this, Board.setEng_ecfg _ _ _ (by rfl)]
  have k : ∀ (g g' : Eng) o, ((b.setEng e g).raises 0x4A o e).setEng e g' = (b.raises 0x4A o e).setEng e g' := fun g g' o => by
    show ({ b with engs := _, outS := _ } : Board) = { b with engs := _, outS := _ }
    congr 1
    exact tput_tput _ _ _ _
  rw [k]; rfl

theorem stopChan_run {s : State} (e : Fin 8) (x : StopCause) (h : s.board) (b' : Board) (k : W.engStop (load s) e x = (load s).withBd b') :
    exec (.engineStop e x) s = .next (s.withBoard b') := board_next (f := fun w => w.engStop e.val x) h b' k

theorem stopChan_nil (w : W) (b : Board) (e : Nat) (rx : Bool) (st q : Nat) (h : (b.eng e).chan rx = []) : (w.withBd b).stopChan e rx st q = w.withBd (b.setEng e ((b.eng e).setChan rx [])) := by
  unfold W.stopChan
  have : ((w.withBd b).dev.bd.eng e).chan rx = [] := h
  simp only [this, List.foldl_nil]
  rfl

theorem halt_nil (w : W) (b : Board) (e st : Nat) (hc : b.core = true) (h4 : w.dev.log.lstate ≠ 4) (h : (b.ecfg e).mode ≠ 0) (h1 : (b.eng e).ops = []) (h2 : (b.eng e).opsRx = []) (q : Nat) :
    (w.withBd b).engHalt e st q = w.withBd (if (b.eng e).st = 2 then b.setEng e { b.eng e with st := 2, step := 0, sub := 0 } else
      (b.setEng e { b.eng e with st := 2, step := 0, sub := 0 }).raises 0x4D (b.ecfg e).owner e) := by
  unfold W.engHalt
  rw [if_neg (by exact h)]
  dsimp only
  have n1 : (b.eng e).setChan false [] = b.eng e := by
    show { b.eng e with ops := [] } = b.eng e
    rw [← h1]
  have n2 : (b.eng e).setChan true [] = b.eng e := by
    show { b.eng e with opsRx := [] } = b.eng e
    rw [← h2]
  rw [stopChan_nil _ _ _ _ _ _ (by exact h1), n1, stopChan_nil _ _ _ _ _ _ (by rw [Board.setEng_eng]; exact h2), Board.setEng_eng, n2, Board.setEng_setEng, W.withBd_setEng, Board.setEng_eng, Board.setEng_setEng]
  by_cases x : (b.eng e).st = 2
  · rw [if_pos x, if_pos (by exact x)]
  · rw [if_neg x, if_neg (by exact x), W.withBd_engFault _ _ _ (by exact hc) h4, Board.setEng_ecfg _ _ _ (by rfl)]

theorem halt_one (w : W) (b : Board) (e st : Nat) (o : EngOp) (hc : b.core = true) (h4 : w.dev.log.lstate ≠ 4) (h : (b.ecfg e).mode ≠ 0) (h1 : (b.eng e).ops = [o]) (h2 : (b.eng e).opsRx = []) (hs : (b.eng e).st = 1) (ho : o.step ≠ 0) (q : Nat) :
    (w.withBd b).engHalt e st q = w.withBd (((b.ends o st o.step o.value).setEng e
        { b.eng e with st := 2, step := 0, sub := 0, ops := [], lastF := (o.errf.toNat, st, o.step) }).raises 0x4D (b.ecfg e).owner e) := by
  unfold W.engHalt
  rw [if_neg (by exact h)]
  dsimp only
  have e1 : (w.withBd b).stopChan e false st q = w.withBd ((b.ends o st o.step o.value).setEng e { b.eng e with ops := [], lastF := (o.errf.toNat, st, o.step) }) := by
    unfold W.stopChan
    have : ((w.withBd b).dev.bd.eng e).chan false = [o] := h1
    simp only [this, List.foldl_cons, List.foldl_nil]
    rw [if_neg ho, W.withBd_engResult, W.withBd_setEng, W.withBd_setEng, Board.setEng_eng, Board.setEng_setEng, Board.ends_eng]
    rfl
  rw [e1]
  have ge : ((b.ends o st o.step o.value).setEng e { b.eng e with ops := [], lastF := (o.errf.toNat, st, o.step) }).eng e = { b.eng e with ops := [], lastF := (o.errf.toNat, st, o.step) } := Board.setEng_eng _ _ _
  have n2 : ({ b.eng e with ops := [], lastF := (o.errf.toNat, st, o.step) } : Eng).setChan true [] = { b.eng e with ops := [], lastF := (o.errf.toNat, st, o.step) } := by
    show { b.eng e with ops := [], opsRx := [], lastF := (o.errf.toNat, st, o.step) } = { b.eng e with ops := [], lastF := (o.errf.toNat, st, o.step) }
    rw [← h2]
  rw [stopChan_nil _ _ _ _ _ _ (by rw [ge]; exact h2), ge, n2, Board.setEng_setEng, W.withBd_setEng, Board.setEng_eng, Board.setEng_setEng]
  rw [if_neg (show ¬ ((w.withBd b).dev.bd.eng e).st = 2 by show ¬ (b.eng e).st = 2; rw [hs]; simp)]
  rw [W.withBd_engFault _ _ _ (by rw [Board.setEng_core, Board.ends_core]; exact hc) h4, Board.setEng_ecfg _ _ _ (by rw [Board.ends_eng]), Board.ends_ecfg]

theorem any_contains (l : List Nat) (f : Nat → Bool) : (∃ n ∈ l, f n = true) ↔ l.any f = true := by simp

theorem eventRecord_at (w : W) (b : Board) (e k : Nat) (l : Bool) (h : (b.eng e).rx.length + 8 ≤ 256) :
    (w.withBd b).eventRecord e k l = w.withBd (b.setEng e { b.eng e with rx := (b.eng e).rx ++ b.record e k l, gap := false, overEp := false }) := by
  unfold W.eventRecord
  dsimp only
  have len : ∀ x : Nat, ((le 8 x).map (fun b => ((b, 0) : Byte × BitVec 8))).length = 8 := fun x => by simp [le, upto]
  rw [pushRx_room _ _ _ _ (by rw [len]; exact h), if_pos (by exact decide_eq_true h), W.withBd_setEng, Board.setEng_eng, Board.setEng_setEng]
  rfl

theorem ocw_one (w : W) (b : Board) (e : Nat) (levels : Byte) (v : Bool) (n : Nat) (hm : (b.ecfg e).mode = 2) (hg : (b.ecfg e).gcount = 1) (hf : (b.eng e).filt = [(v, n)])
    (h1 : (b.eng e).ops = []) (h2 : (b.eng e).opsRx = []) (hc : b.core = true) :
    (w.withBd b).ocwSample e levels =
      let r := filtStep ((b.ecfg e).t0 16 2 + 1) (v, n) (levels.getLsbD 0)
      let x : Eng := { b.eng e with smp := levels, filt := [r.1] }
      let w1 := w.withBd (b.setEng e x)
      if r.2 then ((w1.eventRecord e 0 r.1.1).bLogT 0x11 [(6, 5, e), (11, 1, 1), (12, 8, levels.toNat)]).serveRx e else w1 := by
  unfold W.ocwSample
  rw [W.withBd_ecfg]
  rw [if_neg (by rw [hm]; simp)]
  dsimp only
  rw [hg]
  unfold W.forEach
  have r1 : List.range 1 = [0] := rfl
  rw [r1, List.foldl_cons, List.foldl_nil, W.withBd_setEng]
  have gf : ((((w.withBd (b.setEng e { b.eng e with smp := levels })).dev.bd.eng e).filt).getD 0 (true, 0)) = (v, n) := by
    show ((b.setEng e _).eng e).filt.getD 0 _ = _
    rw [Board.setEng_eng]
    show (b.eng e).filt.getD 0 _ = _
    rw [hf]; rfl
  rw [gf]
  generalize filtStep ((b.ecfg e).t0 16 2 + 1) (v, n) (levels.getLsbD 0) = r
  rw [W.withBd_setEng, Board.setEng_eng, Board.setEng_setEng]
  have fx : ({ ({ b.eng e with smp := levels } : Eng) with filt := ((b.eng e).filt ++ List.replicate (1 - (b.eng e).filt.length) (true, 0)).set 0 r.1 } : Eng) = { b.eng e with smp := levels, filt := [r.1] } := by
    rw [hf]; rfl
  have fx' : ({ ({ b.eng e with smp := levels } : Eng) with filt := (({ b.eng e with smp := levels } : Eng).filt ++ List.replicate (1 - ({ b.eng e with smp := levels } : Eng).filt.length) (true, 0)).set 0 r.1 } : Eng) = { b.eng e with smp := levels, filt := [r.1] } := fx
  rw [fx']
  by_cases q : r.2 = true
  · rw [if_pos q, if_pos q]
  · rw [if_neg q, if_neg q, serveRx_none _ _ _ (by rw [Board.setEng_eng]; exact h1) (by rw [Board.setEng_eng]; exact h2)]

theorem tells_setEng (b : Board) (e : Nat) (g g' : Eng) (l : List Payload) : ((b.setEng e g).tells l).setEng e g' = (b.tells l).setEng e g' := by
  show ({ b with engs := _, outS := _ } : Board) = { b with engs := _, outS := _ }
  congr 1
  exact tput_tput _ _ _ _

end Sys2Proof.Machine
end

