-- ==== Sys2Proof/Laws/Operations.lean ====
section
/-! SUPPORT. Requests, blocks, fences and short frames. -/

namespace Sys2Proof.Machine

theorem rack_awake {s : State} (r : s.rack) : s.dev.awake = true := by have := r.1; unfold Dev.rackOn at this; simp at this; exact this.1

/-- The tickets a tenant has in its queues. -/
def qlen (x : Tenant) : Nat := (x.queues.map List.length).sum

theorem modify_len (l : List (List Nat)) (q n : Nat) : (l.map List.length).sum ≤ ((lmod l q (fun x => x ++ [n])).map List.length).sum := by
  unfold lmod
  induction l generalizing q with
  | nil => simp
  | cons a l ih =>
    cases q with
    | zero => simp
    | succ q => simp only [List.modify_succ_cons, List.map_cons, List.sum_cons]; have := ih q; omega

theorem qlen_mono (l : List Tenant) (t : Nat) (f : Tenant → Tenant) (h : ∀ x, qlen x ≤ qlen (f x)) (j : Nat) : qlen (l.getD j {}) ≤ qlen ((lmod l t f).getD j {}) := by
  unfold lmod
  induction l generalizing t j with
  | nil => simp
  | cons a l ih =>
    cases t with
    | zero =>
      cases j with
      | zero => simpa using h a
      | succ j => simp
    | succ t =>
      cases j with
      | zero => simp
      | succ j => simpa using ih t j

/-- The working record once an operation has its ticket and its place in the queue. -/
def W.ticketed (w : W) (o : Op) (k : Ticket → Ticket) : W :=
  let p := w.dev.pool
  let n := p.tktFree.headD 0
  { w with
    dev.pool := { p.setTkt n (k {
        st := .queued
        ten := o.req.ten.val
        queue := o.req.queue.val
        icount := ((p.tkt n).icount + 1) % 4
        board := o.board
        op := some o
        seqNo := p.order }) with
      tktFree := p.tktFree.drop 1
      order := p.order + 1 }
    dev.tens := lmod w.dev.tens o.req.ten.val (fun x => { x with
      tktUse := x.tktUse + 1
      tktPeak := max x.tktPeak (x.tktUse + 1)
      queues := lmod x.queues o.req.queue.val (fun q => q ++ [n]) }) }

theorem submit_plain (w : W) (o : Op) (hb : w.dev.barred o.req.ten.val = false) (ha : o.addressed = true) (hr : o.isReset = false) (ht : w.dev.tktTest o.req.ten.val 1 = .ok)
    (hl : o.lists = false) (hk : o.takes = false) (hf : o.buf = 0xFFFF ∨ o.kind = .free) : w.submit o = w.ticketed o id := by
  unfold W.submit
  dsimp only
  rw [if_neg (by rw [hb]; simp), if_neg (by rw [ha]; simp), if_neg (by rw [hr]; simp)]
  rw [ht]
  dsimp only
  unfold W.enlist
  have td : ∀ (v : W) n, v.takeData n o = (v, none) := by
    intro v n
    unfold W.takeData
    dsimp only
    rw [if_neg (by rw [hl]; simp), if_neg (by
      rintro ⟨x, y, -⟩
      rcases hf with z | z
      · exact x z
      · exact y z), if_neg (by rw [hk]; simp)]
  rw [td]
  unfold W.enter
  dsimp only
  have e : (w.takeTkt o.req.ten.val o.req.queue.val o.board o).2 = w.dev.pool.tktFree.headD 0 := rfl
  rw [e]
  have tk : (w.takeTkt o.req.ten.val o.req.queue.val o.board o).1.dev.pool.tkt (w.dev.pool.tktFree.headD 0) = {
        st := .queued, ten := o.req.ten.val, queue := o.req.queue.val, icount := ((w.dev.pool.tkt (w.dev.pool.tktFree.headD 0)).icount + 1) % 4, board := o.board, op := some o, seqNo := w.dev.pool.order } := by
    show tget {} (tput w.dev.pool.tkts _ _) _ = _
    exact tget_tput _ _ _ _
  rw [tk]
  unfold W.ticketed W.takeTkt W.modTen W.modPool Pools.setTkt lmod
  dsimp only [id]
  rw [List.modify_modify_eq]
  rfl

theorem kick_quiet (w v : W) (o : Op) (k : Ticket → Ticket) (h : w.dev.arb.sel ≠ none ∨ 2 ≤ sum5 (fun t => ((w.dev.ten t).queues.map List.length).sum))
   (e1 : v.dev.arb.sel = w.dev.arb.sel) (e2 : ∀ t, ((w.dev.ten t).queues.map List.length).sum ≤ ((v.dev.ten t).queues.map List.length).sum) : v.kick = v := by
  unfold W.kick
  refine if_neg ?_
  intro x
  simp only [Bool.and_eq_true, decide_eq_true_eq, beq_iff_eq] at x
  rcases h with h | h
  · rw [e1] at x
    cases q : w.dev.arb.sel with
    | none => exact h q
    | some y => rw [q] at x; simp at x
  · have := x.2
    simp only [sum5] at this h
    have a0 := e2 0; have a1 := e2 1; have a2 := e2 2; have a3 := e2 3; have a4 := e2 4
    omega

theorem kick_ticketed (w : W) (o : Op) (k : Ticket → Ticket) (h : w.dev.arb.sel ≠ none ∨ 2 ≤ sum5 (fun t => ((w.dev.ten t).queues.map List.length).sum)) : (w.ticketed o k).kick = w.ticketed o k := by
  refine kick_quiet w _ o k h rfl (fun t => ?_)
  exact qlen_mono w.dev.tens o.req.ten.val (fun x => { x with tktUse := x.tktUse + 1, tktPeak := max x.tktPeak (x.tktUse + 1), queues := lmod x.queues o.req.queue.val (fun q => q ++ [w.dev.pool.tktFree.headD 0]) }) (fun x => modify_len x.queues _ _) t

theorem request_plain (w : W) (o : Op) (hg : o.req.gen ≠ 0) (hg3 : o.req.gen ≠ 3) (hw : w.dev.img.woven = true → o.req.gen.val = (w.dev.ten o.req.ten.val).gen) (hu : o.req.route.urg = true → o.req.queue = 0) (h2 : o.req.gen = 2 → o.gen2Fault = none)
    (hb : w.dev.barred o.req.ten.val = false) (ha : o.addressed = true) (hr : o.isReset = false) (ht : w.dev.tktTest o.req.ten.val 1 = .ok)
    (hl : o.lists = false) (hk : o.takes = false) (hf : o.buf = 0xFFFF ∨ o.kind = .free)
    (h : w.dev.arb.sel ≠ none ∨ 2 ≤ sum5 (fun t => ((w.dev.ten t).queues.map List.length).sum)) : w.request o = w.ticketed o id := by
  unfold W.request
  dsimp only
  have g0 : o.req.gen.val ≠ 0 := fun x => hg (Fin.ext x)
  have gb : w.genBad o.req.ten.val o.req.gen.val = false := by
    unfold W.genBad
    cases q : w.dev.img.woven with
    | false => simp [g0]
    | true => have z := hw q; simp [← z, g0]
  rw [if_neg (by rw [gb]; simp)]
  rw [if_neg (by
    cases q : o.req.route.urg with
    | false => simp
    | true => simp [hu q])]
  have S : (w.submit o).kick = w.ticketed o id := by
    rw [submit_plain w o hb ha hr ht hl hk hf, kick_ticketed _ _ _ h]
  split
  · rename_i g2
    rw [h2 (Fin.ext g2)]
    exact S
  · exact S

theorem item_plain (w : W) (o : Op) (hg3 : o.req.gen = 3) (hw : w.dev.img.woven = true → o.req.gen.val = (w.dev.ten o.req.ten.val).gen) (hu : o.req.route.urg = true → o.req.queue = 0) (hs : (w.dev.img.cfg.ten o.req.ten.val).streams ≠ [])
    (hb : w.dev.barred o.req.ten.val = false) (ha : o.addressed = true) (hr : o.isReset = false) (ht : w.dev.tktTest o.req.ten.val 1 = .ok)
    (hl : o.lists = false) (hk : o.takes = false) (hf : o.buf = 0xFFFF ∨ o.kind = .free)
    (h : w.dev.arb.sel ≠ none ∨ 2 ≤ sum5 (fun t => ((w.dev.ten t).queues.map List.length).sum)) :
    w.requestItem o = (w.newMsg { ten := o.req.ten.val, stream := w.streamFor o.req.ten.val o.req.queue.val, hdr := [BitVec.ofNat 8 (w.streamFor o.req.ten.val o.req.queue.val), BitVec.ofNat 8 (b2n (!o.req.quiet)), 0, 0], ack := !o.req.quiet, route := o.req.route, items := [(o.req.tag.toNat, none)] }).1.ticketed { o with msg := some w.dev.hpt.nextMsg, item := 0 } id := by
  unfold W.requestItem
  dsimp only
  have gb : w.genBad o.req.ten.val 3 = false := by
    unfold W.genBad
    have : o.req.gen.val = 3 := by rw [hg3]; rfl
    cases q : w.dev.img.woven with
    | false => simp
    | true => simp [← hw q, this]
  rw [if_neg (by rw [gb]; simp)]
  rw [if_neg (show ¬ (w.cfg.ten o.req.ten.val).streams.isEmpty = true by rw [List.isEmpty_iff]; exact hs)]
  rw [if_neg (by
    cases q : o.req.route.urg with
    | false => simp
    | true => simp [hu q])]
  rw [submit_plain _ _ (by exact hb) (by exact ha) (by exact hr) (by exact ht) (by exact hl) (by exact hk) (by exact hf)]
  rw [kick_ticketed _ _ _ (by exact h)]
  rfl

theorem waits_gen (s : State) (o : Op) (h : o.req.gen ≠ 3) : s.waits o = commit s ((load s).ticketed o id) := by
  unfold State.waits State.messaged State.item
  rw [if_neg h, if_neg h]; rfl

theorem goes_request (s : State) (o : Op) (r : s.rack) (c : s.contended) (f : s.fits o) (h3 : o.req.gen ≠ 3)
    (hl : o.lists = false) (hk : o.takes = false) (hf : o.buf = 0xFFFF ∨ o.kind = .free) : rackRun (fun w => w.request o) s = .next (s.waits o) := by
  obtain ⟨f1, f2, f3, f4, f5, f6, f7, f8, f9⟩ := f
  rw [waits_gen _ _ h3]
  exact rack_next (f := fun w => w.request o) r _ (request_plain (load s) o f1 h3 f2 f3 f4 f6 f7 f8 f9 hl hk hf c) rfl r.2

theorem goes_item (s : State) (o : Op) (r : s.rack) (c : s.contended) (f : s.fits o) (h3 : o.req.gen = 3)
    (hl : o.lists = false) (hk : o.takes = false) (hf : o.buf = 0xFFFF ∨ o.kind = .free) : rackRun (fun w => w.requestItem o) s = .next (s.waits o) := by
  obtain ⟨f1, f2, f3, f4, f5, f6, f7, f8, f9⟩ := f
  have e : s.waits o = commit s (((load s).newMsg { ten := o.req.ten.val, stream := (load s).streamFor o.req.ten.val o.req.queue.val, hdr := [BitVec.ofNat 8 ((load s).streamFor o.req.ten.val o.req.queue.val), BitVec.ofNat 8 (b2n (!o.req.quiet)), 0, 0], ack := !o.req.quiet, route := o.req.route, items := [(o.req.tag.toNat, none)] }).1.ticketed { o with msg := some s.dev.hpt.nextMsg, item := 0 } id) := by
    unfold State.waits State.messaged State.item
    rw [if_pos h3, if_pos h3]
    have : (if o.req.quiet = true then (0 : Byte) else 1) = BitVec.ofNat 8 (b2n (!o.req.quiet)) := by cases o.req.quiet <;> rfl
    dsimp only
    rw [this]; rfl
  rw [e]
  exact rack_next (f := fun w => w.requestItem o) r _ (item_plain (load s) o h3 f2 f3 (f5 h3) f6 f7 f8 f9 hl hk hf c) rfl r.2

theorem goes_port (s : State) (t : Ten) (k : OpKind) (a v : Nat) (x : BitVec 32) (hx : BitVec.ofNat 32 v = x) (r : s.rack) (c : s.contended) (f : s.fits (s.portOp t k a x)) (hk : k = .wr ∨ k = .rd) :
    rackRun (fun w => w.boardAccess t k a v) s = .next (s.waits (s.portOp t k a x)) := by
  subst hx
  have hl : (s.portOp t k a (BitVec.ofNat 32 v)).lists = false := by rcases hk with z | z <;> subst z <;> rfl
  have ht : (s.portOp t k a (BitVec.ofNat 32 v)).takes = false := by rcases hk with z | z <;> subst z <;> rfl
  have hb : (s.portOp t k a (BitVec.ofNat 32 v)).buf = 0xFFFF ∨ (s.portOp t k a (BitVec.ofNat 32 v)).kind = .free := Or.inl rfl
  have E : (load s).boardAccess t k a v = if (if s.dev.img.woven then (s.dev.ten t.val).gen else 2) = 3 then (load s).requestItem (s.portOp t k a (BitVec.ofNat 32 v)) else (load s).request (s.portOp t k a (BitVec.ofNat 32 v)) := rfl
  by_cases g : (if s.dev.img.woven then (s.dev.ten t.val).gen else 2) = 3
  · have g3 : (s.portOp t k a (BitVec.ofNat 32 v)).req.gen = 3 := by
      refine Fin.ext ?_
      show (if s.dev.img.woven then (s.dev.ten t.val).gen else 2) % 4 = 3
      rw [g]
    have := goes_item s _ r c f g3 hl ht hb
    rw [← this]
    unfold rackRun runW onRack
    rw [if_pos (by exact r.1), if_pos (by exact r.1)]
    show Host.Outcome.next (commit s ((load s).boardAccess t k a v).close) = _
    rw [E, if_pos g]
  · have g3 : (s.portOp t k a (BitVec.ofNat 32 v)).req.gen ≠ 3 := by
      intro y
      have y' : (if s.dev.img.woven then (s.dev.ten t.val).gen else 2) % 4 = 3 := congrArg Fin.val y
      obtain ⟨f1, f2, _⟩ := f
      by_cases w : s.dev.img.woven = true
      · rw [if_pos w] at g y'
        have := f2 w
        have z : (if s.dev.img.woven then (s.dev.ten t.val).gen else 2) % 4 = (s.dev.ten t.val).gen := this
        rw [if_pos w] at z
        omega
      · rw [if_neg w] at y'; omega
    have := goes_request s _ r c f g3 hl ht hb
    rw [← this]
    unfold rackRun runW onRack
    rw [if_pos (by exact r.1), if_pos (by exact r.1)]
    show Host.Outcome.next (commit s ((load s).boardAccess t k a v).close) = _
    rw [E, if_neg g]

theorem pokeBuf_bout (w : W) (a : Nat) (bs : List Byte) : (w.pokeBuf a bs).bout = ((List.range bs.length).zip bs).foldl (fun o e => (a + e.1, e.2) :: o) w.bout := rfl

theorem zero_find (l : List (Nat × Byte)) (a x : Nat) (out : List Host.Cell) (v : Byte) (hz : ∀ e ∈ l, a + e.1 = x → e.2 = v) :
    (((l.foldl (fun o e => (a + e.1, e.2) :: o) out).find? (fun c => c.1 == x)).map (·.2)) =
      if l.any (fun e => a + e.1 == x) then some v else (out.find? (fun c => c.1 == x)).map (·.2) := by
  induction l generalizing out with
  | nil => simp
  | cons e l ih =>
    rw [List.foldl_cons, ih _ (fun y hy => hz y (by simp [hy]))]
    by_cases k : l.any (fun e => a + e.1 == x) = true
    · rw [if_pos k, if_pos (by simp only [List.any_cons, k, Bool.or_true])]
    · rw [if_neg k]
      by_cases q : (a + e.1 == x) = true
      · rw [if_pos (by simp only [List.any_cons, q, Bool.true_or]), List.find?_cons]
        simp only [q]
        rw [Option.map_some, hz e (by simp) (by simpa using q)]
      · rw [if_neg (by simp only [List.any_cons, Bool.or_eq_true, not_or]; exact ⟨q, k⟩), List.find?_cons]
        have : (a + e.1 == x) = false := by simpa using q
        simp only [this]

theorem any_block (b x : Nat) : ((List.range 64).zip (List.replicate 64 (0 : Byte))).any (fun e => 64 * b + e.1 == x) = (x / 64 == b) := by
  rw [Bool.eq_iff_iff]
  simp only [List.any_eq_true, beq_iff_eq]
  constructor
  · rintro ⟨e, he, h⟩
    have := List.of_mem_zip he
    have := this.1
    simp at this
    omega
  · intro h
    refine ⟨(x % 64, 0), ?_, by simp only; omega⟩
    rw [List.mem_iff_getElem]
    refine ⟨x % 64, by rw [List.length_zip, List.length_range, List.length_replicate]; omega, ?_⟩
    rw [List.getElem_zip, List.getElem_range, List.getElem_replicate]

theorem zero_one (w : W) (b x : Nat) : (((w.pokeBuf (64 * b) (List.replicate 64 0)).bout.find? (fun c => c.1 == x)).map (·.2)) =
    if x / 64 = b then some 0 else (w.bout.find? (fun c => c.1 == x)).map (·.2) := by
  rw [pokeBuf_bout]
  have : (List.replicate 64 (0 : Byte)).length = 64 := by simp
  rw [this, zero_find _ _ _ _ 0 (fun e he _ => by
    have := (List.of_mem_zip he).2
    simpa using this), any_block]
  simp

theorem zero_all (l : List Nat) (w : W) (x : Nat) : (((l.foldl (fun w b => w.pokeBuf (64 * b) (List.replicate 64 0)) w).bout.find? (fun c => c.1 == x)).map (·.2)) =
    if l.contains (x / 64) then some 0 else (w.bout.find? (fun c => c.1 == x)).map (·.2) := by
  induction l generalizing w with
  | nil => simp
  | cons b l ih =>
    rw [List.foldl_cons, ih, zero_one]
    by_cases k : l.contains (x / 64) = true
    · rw [if_pos k, if_pos (by simp only [List.contains_cons, k, Bool.or_true])]
    · rw [if_neg k]
      by_cases q : x / 64 = b
      · rw [if_pos q, if_pos (by simp [q])]
      · rw [if_neg q, if_neg (by simp only [List.contains_cons, Bool.or_eq_true, not_or, beq_iff_eq]; exact ⟨q, k⟩)]

theorem zero_dev (l : List Nat) (w : W) : ∃ o, l.foldl (fun w b => w.pokeBuf (64 * b) (List.replicate 64 0)) w = { w with bout := o } := by
  induction l generalizing w with
  | nil => exact ⟨_, rfl⟩
  | cons b l ih =>
    obtain ⟨o, h⟩ := ih (w.pokeBuf (64 * b) (List.replicate 64 0))
    exact ⟨o, by rw [List.foldl_cons, h]; rfl⟩

/-- An operation whose buffers are taken for what it reads, or hold inline data. -/
def readOp (o : Op) : Prop := (((o.kind = .rdblk ∨ o.kind = .erx) ∧ o.inlineB = false) ∨ ((o.kind = .wrblk ∨ o.kind = .etx) ∧ o.inlineB = true)) ∧ o.buf = 0xFFFF ∧ o.req.gen = 2

/-- The bytes that inline data puts into a list of buffers. -/
def fillOut (out : List Host.Cell) (bs : List Nat) (data : List Byte) : List Host.Cell :=
  ((List.range bs.length).zip bs).foldl (fun o e => (((List.range ((data.drop (64 * e.1)).take 64).length).zip ((data.drop (64 * e.1)).take 64)).foldl (fun o f => (64 * e.2 + f.1, f.2) :: o) o)) out

theorem fill_dev (w : W) (bs : List Nat) (data : List Byte) : w.fillBufs bs data = { w with bout := fillOut w.bout bs data } := by
  unfold W.fillBufs fillOut
  generalize (List.range bs.length).zip bs = l
  induction l generalizing w with
  | nil => rfl
  | cons e l ih => rw [List.foldl_cons, ih, List.foldl_cons]; rfl

theorem any_piece (b x : Nat) (l : List Byte) (hl : l.length ≤ 64) : ((List.range l.length).zip l).any (fun e => 64 * b + e.1 == x) = (x / 64 == b && decide (x % 64 < l.length)) := by
  rw [Bool.eq_iff_iff]
  simp only [List.any_eq_true, beq_iff_eq, Bool.and_eq_true, decide_eq_true_eq]
  constructor
  · rintro ⟨e, he, h⟩
    have := (List.of_mem_zip he).1
    simp at this
    omega
  · rintro ⟨h, h2⟩
    refine ⟨(x % 64, l[x % 64]), ?_, by simp only; omega⟩
    rw [List.mem_iff_getElem]
    refine ⟨x % 64, by rw [List.length_zip, List.length_range]; omega, ?_⟩
    rw [List.getElem_zip, List.getElem_range]

theorem piece_find (b x : Nat) (l : List Byte) (hl : l.length ≤ 64) (out : List Host.Cell) :
    ((((List.range l.length).zip l).foldl (fun o f => (64 * b + f.1, f.2) :: o) out).find? (fun c => c.1 == x)).map (·.2) =
      if x / 64 = b ∧ x % 64 < l.length then some (l.getD (x % 64) 0) else (out.find? (fun c => c.1 == x)).map (·.2) := by
  rw [zero_find _ _ _ _ (l.getD (x % 64) 0) (fun e he hx => by
    rw [List.mem_iff_getElem] at he
    obtain ⟨i, hi, he⟩ := he
    rw [List.getElem_zip, List.getElem_range] at he
    rw [List.length_zip, List.length_range] at hi
    have e1 : e.1 = i := by rw [← he]
    have : x % 64 = i := by omega
    rw [this, ← he, List.getD_eq_getElem?_getD, List.getElem?_eq_getElem (by omega)]
    rfl), any_piece _ _ _ hl]
  by_cases q : x / 64 = b ∧ x % 64 < l.length
  · rw [if_pos q, if_pos (by simpa using q)]
  · rw [if_neg q, if_neg (by simpa using q)]

theorem fill_find_l (L : List (Nat × Nat)) (data : List Byte) (x : Nat) (out : List Host.Cell) (q : Nat) (hq : ∀ e ∈ L, e.2 = x / 64 → e.1 = q) :
    ((L.foldl (fun o e => (((List.range ((data.drop (64 * e.1)).take 64).length).zip ((data.drop (64 * e.1)).take 64)).foldl (fun o f => (64 * e.2 + f.1, f.2) :: o) o)) out).find? (fun c => c.1 == x)).map (·.2) =
      if L.any (fun e => e.2 == x / 64) && decide (x % 64 < ((data.drop (64 * q)).take 64).length) then some (((data.drop (64 * q)).take 64).getD (x % 64) 0) else (out.find? (fun c => c.1 == x)).map (·.2) := by
  induction L generalizing out with
  | nil => simp
  | cons e L ih =>
    rw [List.foldl_cons, ih _ (fun y hy => hq y (by simp [hy])), piece_find _ _ _ (by rw [List.length_take]; omega)]
    by_cases a : (L.any (fun e => e.2 == x / 64) && decide (x % 64 < ((data.drop (64 * q)).take 64).length)) = true
    · rw [if_pos a, if_pos (by
        rw [Bool.and_eq_true] at a ⊢
        exact ⟨by simp only [List.any_cons, a.1, Bool.or_true], a.2⟩)]
    · rw [if_neg a]
      by_cases h : e.2 = x / 64
      · have e1 := hq e (by simp) h
        rw [e1]
        by_cases k : x % 64 < ((data.drop (64 * q)).take 64).length
        · rw [if_pos ⟨h.symm, k⟩, if_pos (by simp only [List.any_cons, h, beq_self_eq_true, Bool.true_or, Bool.true_and]; exact decide_eq_true k)]
        · rw [if_neg (fun y => k y.2), if_neg (by
            rw [Bool.and_eq_true, not_and]
            intro _; simpa using k)]
      · rw [if_neg (fun y => h y.1.symm), if_neg (by
          have : (e.2 == x / 64) = false := by simpa using h
          simp only [List.any_cons, this, Bool.false_or]
          exact a)]

theorem fill_find (bs : List Nat) (data : List Byte) (x : Nat) (out : List Host.Cell) (hd : bs.Nodup) :
    ((fillOut out bs data).find? (fun c => c.1 == x)).map (·.2) =
      if bs.contains (x / 64) && decide (64 * bs.idxOf (x / 64) + x % 64 < data.length) then some (data.getD (64 * bs.idxOf (x / 64) + x % 64) 0) else (out.find? (fun c => c.1 == x)).map (·.2) := by
  unfold fillOut
  rw [fill_find_l _ _ _ _ (bs.idxOf (x / 64)) (fun e he h => by
    rw [List.mem_iff_getElem] at he
    obtain ⟨i, hi, he⟩ := he
    rw [List.length_zip, List.length_range] at hi
    rw [List.getElem_zip, List.getElem_range] at he
    have e1 : e.1 = i := by rw [← he]
    have e2 : e.2 = bs[i]'(by omega) := (congrArg Prod.snd he).symm
    rw [e1, ← h, e2]
    exact (hd.idxOf_getElem i (by omega)).symm)]
  have an : ((List.range bs.length).zip bs).any (fun e => e.2 == x / 64) = bs.contains (x / 64) := by
    rw [Bool.eq_iff_iff]
    simp only [List.any_eq_true, beq_iff_eq, List.contains_iff_mem]
    constructor
    · rintro ⟨e, he, h⟩
      rw [← h]; exact (List.of_mem_zip he).2
    · intro h
      obtain ⟨i, hi, h⟩ := List.mem_iff_getElem.mp h
      refine ⟨(i, bs[i]), ?_, h⟩
      rw [List.mem_iff_getElem]
      refine ⟨i, by rw [List.length_zip, List.length_range]; omega, ?_⟩
      rw [List.getElem_zip, List.getElem_range]
  rw [an]
  generalize bs.idxOf (x / 64) = q
  have lt : (x % 64 < ((data.drop (64 * q)).take 64).length) ↔ 64 * q + x % 64 < data.length := by
    rw [List.length_take, List.length_drop]; omega
  have gd : ((data.drop (64 * q)).take 64).getD (x % 64) 0 = data.getD (64 * q + x % 64) 0 := by
    rw [List.getD_eq_getElem?_getD, List.getD_eq_getElem?_getD, List.getElem?_take, if_pos (Nat.mod_lt _ (by omega)), List.getElem?_drop]
  rw [gd]
  by_cases k : 64 * q + x % 64 < data.length
  · rw [decide_eq_true k, decide_eq_true (lt.mpr k)]
  · rw [decide_eq_false k, decide_eq_false (fun y => k (lt.mp y))]

/-- The working record once a block operation has its buffers. -/
def W.blocked (w : W) (o : Op) : W :=
  let new := w.dev.pool.bufFree.take (bufsFor o.dlen)
  let t := o.req.ten.val
  let v := (new.foldl (fun w b => w.pokeBuf (64 * b) (List.replicate 64 0)) w).ticketed o (fun y => { y with bufs := new, pins := new })
  { v with
    dev.pool := { v.dev.pool with
      bufFree := w.dev.pool.bufFree.drop (bufsFor o.dlen)
      bufs := ((List.range new.length).zip new).foldl (fun l e => tput l e.2
            { next := new.getD (e.1 + 1) 0, last := decide (e.1 + 1 = new.length), owned := true, pin := 1, ten := t, ticket := w.dev.pool.tktFree.headD 0 }) w.dev.pool.bufs }
    dev.tens := lmod v.dev.tens t (fun y => { y with bufUse := y.bufUse + new.length, bufPeak := max y.bufPeak (y.bufUse + new.length) }) }

/-- The working record once the buffers hold the inline data. -/
def W.filled (w : W) (o : Op) : W :=
  let v := w.blocked o
  { v with bout := if o.inlineB then fillOut v.bout (w.dev.pool.bufFree.take (bufsFor o.dlen)) o.inl else v.bout }

theorem submit_block (w : W) (o : Op) (hb : w.dev.barred o.req.ten.val = false) (ha : o.addressed = true) (hr : o.isReset = false) (ht : w.dev.tktTest o.req.ten.val 1 = .ok)
    (hbt : w.dev.bufTest o.req.ten.val (bufsFor o.dlen) = .ok) (ho : readOp o) : w.submit o = w.filled o := by
  obtain ⟨hk, hbf, -⟩ := ho
  have hl : o.lists = false := by unfold Op.lists; rcases hk with ⟨x | x, y⟩ | ⟨x | x, y⟩ <;> rw [x, y] <;> rfl
  have htk : o.takes = true := by unfold Op.takes; rcases hk with ⟨x | x, y⟩ | ⟨x | x, y⟩ <;> rw [x, y] <;> rfl
  unfold W.submit
  dsimp only
  rw [if_neg (by rw [hb]; simp), if_neg (by rw [ha]; simp), if_neg (by rw [hr]; simp), ht]
  dsimp only
  unfold W.enlist
  generalize hv : (w.takeTkt o.req.ten.val o.req.queue.val o.board o).1 = v
  have e : (w.takeTkt o.req.ten.val o.req.queue.val o.board o).2 = w.dev.pool.tktFree.headD 0 := rfl
  rw [e]
  generalize hn : w.dev.pool.tktFree.headD 0 = n
  have bt : v.dev.bufTest o.req.ten.val (bufsFor o.dlen) = .ok := by
    rw [← hbt, ← hv]
    unfold Dev.bufTest Dev.bufOwed Dev.bufShared Dev.bufOwed
    have K : ∀ j, ((w.takeTkt o.req.ten.val o.req.queue.val o.board o).1.dev.ten j).bdebt = (w.dev.ten j).bdebt ∧ ((w.takeTkt o.req.ten.val o.req.queue.val o.board o).1.dev.ten j).bufUse = (w.dev.ten j).bufUse := by
      intro j
      show (Tenant.bdebt ((lmod w.dev.tens o.req.ten.val _).getD j {})) = _ ∧ (Tenant.bufUse ((lmod w.dev.tens o.req.ten.val _).getD j {})) = _
      unfold lmod Dev.ten
      generalize o.req.ten.val = t
      generalize w.dev.tens = l
      induction l generalizing t j with
      | nil => simp
      | cons a l ih =>
        cases t with
        | zero => cases j <;> simp
        | succ t =>
          cases j with
          | zero => simp
          | succ j => simpa using ih j t
    simp only [sum5, (K _).1, (K _).2]
    rfl
  have td : v.takeData n o = ({ ((v.takeBufs o.req.ten.val n (bufsFor o.dlen)).1.modPool (fun p => p.setTkt n { p.tkt n with bufs := (v.takeBufs o.req.ten.val n (bufsFor o.dlen)).2, pins := (v.takeBufs o.req.ten.val n (bufsFor o.dlen)).2 })) with bout := if o.inlineB then fillOut (v.takeBufs o.req.ten.val n (bufsFor o.dlen)).1.bout (v.takeBufs o.req.ten.val n (bufsFor o.dlen)).2 o.inl else (v.takeBufs o.req.ten.val n (bufsFor o.dlen)).1.bout }, none) := by
    unfold W.takeData
    dsimp only
    rw [if_neg (by rw [hl]; simp), if_neg (by rintro ⟨x, -⟩; exact x hbf), if_pos (by rw [htk])]
    unfold W.takeNew
    dsimp only
    rw [bt]
    dsimp only
    by_cases hi : o.inlineB = true
    · rw [if_pos hi, if_pos hi, fill_dev]; rfl
    · rw [if_neg hi, if_neg hi]; rfl
  rw [td]
  dsimp only
  unfold W.enter W.takeBufs
  obtain ⟨out, hout⟩ := zero_dev (w.dev.pool.bufFree.take (bufsFor o.dlen)) v
  have hv2 : v.dev.pool.bufFree = w.dev.pool.bufFree := by rw [← hv]; rfl
  rw [hv2]
  obtain ⟨out2, hout2⟩ := zero_dev (w.dev.pool.bufFree.take (bufsFor o.dlen)) w
  have same : out = out2 := by
    have : ∀ (l : List Nat) (a b : W), a.bout = b.bout → (l.foldl (fun w b => w.pokeBuf (64 * b) (List.replicate 64 0)) a).bout = (l.foldl (fun w b => w.pokeBuf (64 * b) (List.replicate 64 0)) b).bout := by
      intro l
      induction l with
      | nil => intro a b h; exact h
      | cons x l ih => intro a b h; rw [List.foldl_cons, List.foldl_cons]; exact ih _ _ (by rw [pokeBuf_bout, pokeBuf_bout, h])
    have h := this (w.dev.pool.bufFree.take (bufsFor o.dlen)) v w (by rw [← hv]; rfl)
    rw [hout, hout2] at h
    exact h
  dsimp only
  rw [hout]
  unfold W.filled W.blocked
  dsimp only
  rw [hout2, ← same]
  unfold W.ticketed W.modTen W.modPool Pools.setTkt Pools.tkt lmod
  dsimp only
  rw [hn]
  simp only [tget_tput]
  rw [← hv]
  unfold W.takeTkt W.modTen W.modPool Pools.setTkt Pools.tkt lmod
  dsimp only
  rw [hn]
  simp only [tget_tput, List.modify_modify_eq, tput_tput]
  have hd : (w.dev.pool.bufFree.drop (bufsFor o.dlen)) = (w.dev.pool.bufFree.drop (bufsFor o.dlen)) := rfl
  rfl

theorem qlen_trans (l : List Tenant) (t : Nat) (f g : Tenant → Tenant) (hf : ∀ x, qlen x ≤ qlen (f x)) (hg : ∀ x, qlen x ≤ qlen (g x)) (j : Nat) :
    qlen (l.getD j {}) ≤ qlen ((lmod (lmod l t f) t g).getD j {}) := (qlen_mono l t f hf j).trans (qlen_mono _ t g hg j)

theorem filled_kick (w : W) (o : Op) (h : w.dev.arb.sel ≠ none ∨ 2 ≤ sum5 (fun t => ((w.dev.ten t).queues.map List.length).sum)) : (w.filled o).kick = w.filled o := by
  obtain ⟨out, hout⟩ := zero_dev (w.dev.pool.bufFree.take (bufsFor o.dlen)) w
  refine kick_quiet w _ o id h ?_ (fun t => ?_)
  · unfold W.filled W.blocked; dsimp only; rw [hout]; rfl
  · have : (w.filled o).dev.tens = lmod (lmod w.dev.tens o.req.ten.val (fun x => { x with tktUse := x.tktUse + 1, tktPeak := max x.tktPeak (x.tktUse + 1), queues := lmod x.queues o.req.queue.val (fun q => q ++ [w.dev.pool.tktFree.headD 0]) })) o.req.ten.val (fun y => { y with bufUse := y.bufUse + (w.dev.pool.bufFree.take (bufsFor o.dlen)).length, bufPeak := max y.bufPeak (y.bufUse + (w.dev.pool.bufFree.take (bufsFor o.dlen)).length) }) := by
      unfold W.filled W.blocked; dsimp only; rw [hout]; rfl
    show qlen (w.dev.tens.getD t {}) ≤ qlen ((w.filled o).dev.tens.getD t {})
    rw [this]
    exact qlen_trans w.dev.tens o.req.ten.val (fun x => { x with tktUse := x.tktUse + 1, tktPeak := max x.tktPeak (x.tktUse + 1), queues := lmod x.queues o.req.queue.val (fun q => q ++ [w.dev.pool.tktFree.headD 0]) }) (fun y => { y with bufUse := y.bufUse + (w.dev.pool.bufFree.take (bufsFor o.dlen)).length, bufPeak := max y.bufPeak (y.bufUse + (w.dev.pool.bufFree.take (bufsFor o.dlen)).length) }) (fun x => modify_len x.queues _ _) (fun x => Nat.le_refl _) t

theorem request_gen2 (w : W) (o : Op) (v : W) (hg : o.req.gen = 2) (hw : w.dev.img.woven = true → o.req.gen.val = (w.dev.ten o.req.ten.val).gen) (hu : o.req.route.urg = true → o.req.queue = 0) (h2 : o.gen2Fault = none)
    (hs : w.submit o = v) (hk : v.kick = v) : w.request o = v := by
  unfold W.request
  dsimp only
  have g2 : o.req.gen.val = 2 := by rw [hg]; rfl
  have gb : w.genBad o.req.ten.val o.req.gen.val = false := by
    unfold W.genBad
    cases q : w.dev.img.woven with
    | false => simp [g2]
    | true => have z := hw q; simp [← z, g2]
  rw [if_neg (by rw [gb]; simp)]
  rw [if_neg (by
    cases q : o.req.route.urg with
    | false => simp
    | true => simp [hu q])]
  rw [if_pos g2, h2]
  dsimp only
  rw [hs, hk]

/-- The working record once a write from a list has pinned its buffers. -/
def W.listed (w : W) (o : Op) (l : List Nat) : W :=
  let v := w.ticketed o (fun y => { y with pins := l })
  { v with dev.pool := { v.dev.pool with bufs := l.foldl (fun x i => tmod {} x i (fun (y : BufTag) => { y with pin := y.pin + 1 })) w.dev.pool.bufs } }

theorem dataList_tk (p q : Pools) (h : p.bufs = q.bufs) (t n : Nat) : ∀ b acc, p.dataList t n b acc = q.dataList t n b acc := by
  induction n with
  | zero => intro b acc; rfl
  | succ n ih =>
    intro b acc
    unfold Pools.dataList
    have : p.buf b = q.buf b := by unfold Pools.buf; rw [h]
    dsimp only
    rw [this, ih]

theorem submit_list (w : W) (o : Op) (l : List Nat) (hb : w.dev.barred o.req.ten.val = false) (ha : o.addressed = true) (hr : o.isReset = false) (ht : w.dev.tktTest o.req.ten.val 1 = .ok)
    (hl : o.lists = true) (hd : w.dev.pool.dataList o.req.ten.val (bufsFor o.dlen) o.buf [] = .ok l) : w.submit o = w.listed o l := by
  unfold W.submit
  dsimp only
  rw [if_neg (by rw [hb]; simp), if_neg (by rw [ha]; simp), if_neg (by rw [hr]; simp), ht]
  dsimp only
  unfold W.enlist
  have e : (w.takeTkt o.req.ten.val o.req.queue.val o.board o).2 = w.dev.pool.tktFree.headD 0 := rfl
  rw [e]
  generalize hn : w.dev.pool.tktFree.headD 0 = n
  generalize hv : (w.takeTkt o.req.ten.val o.req.queue.val o.board o).1 = v
  have td : v.takeData n o = (v.modPool (fun p => (p.pinAll l).setTkt n { p.tkt n with pins := l }), none) := by
    unfold W.takeData
    dsimp only
    rw [if_pos hl]
    unfold W.pinList
    dsimp only
    rw [dataList_tk v.dev.pool w.dev.pool (by rw [← hv]; rfl), hd]
  rw [td]
  dsimp only
  unfold W.enter W.listed W.ticketed W.modTen W.modPool Pools.setTkt Pools.tkt Pools.pinAll lmod
  dsimp only
  rw [hn]
  simp only [tget_tput]
  rw [← hv]
  unfold W.takeTkt W.modTen W.modPool Pools.setTkt Pools.tkt lmod
  dsimp only
  rw [hn]
  simp only [tget_tput, List.modify_modify_eq, tput_tput]
  rfl

theorem listed_kick (w : W) (o : Op) (l : List Nat) (h : w.dev.arb.sel ≠ none ∨ 2 ≤ sum5 (fun t => ((w.dev.ten t).queues.map List.length).sum)) : (w.listed o l).kick = w.listed o l := by
  refine kick_quiet w _ o id h rfl (fun t => ?_)
  exact qlen_mono w.dev.tens o.req.ten.val (fun x => { x with tktUse := x.tktUse + 1, tktPeak := max x.tktPeak (x.tktUse + 1), queues := lmod x.queues o.req.queue.val (fun q => q ++ [w.dev.pool.tktFree.headD 0]) }) (fun x => modify_len x.queues _ _) t

theorem ticketed_log {a b : W} (h : a.SameButLog b) (o : Op) (k : Ticket → Ticket) : (a.ticketed o k).SameButLog (b.ticketed o k) := by
  refine ⟨?_, h.2⟩
  have := h.1
  unfold W.ticketed
  rw [this]

theorem complete_quiet (w : W) (n st v : Nat) (o : Op) (k : Ticket) (hk : w.dev.pool.tkt n = k) (ho : k.op = some o) (hm : o.msg = none) (hg : o.req.gen = 2) (hq : o.req.quiet = true) (hp : k.pins = []) (hst : k.st ≠ .quarantined) (h0 : st = stOK) :
    W.SameButLog (w.freeTkt n) (w.complete n st 0 v) := by
  unfold W.complete
  dsimp only
  rw [hk, ho]
  dsimp only
  have a : ∀ (x : W) bufs, x.answer o st 0 v bufs = x := by
    intro x bufs
    unfold W.answer
    rw [hm]
    dsimp only
    rw [if_neg (by rw [hg]; decide), if_pos (by rw [hq, h0]; rfl)]
  rw [a]
  have L := w.logK_log 0x0A [(6, 10, n), (16, 8, st), (24, 6, if st = stFAILSAFE then 0 else 0)]
  generalize w.logK 0x0A [(6, 10, n), (16, 8, st), (24, 6, if st = stFAILSAFE then 0 else 0)] = x at L
  refine ⟨?_, ?_⟩
  · have := L.1
    unfold W.freeTkt
    rw [this]
    dsimp only
    split <;> rfl
  · have l2 := L.2
    intro y
    have : (w.freeTkt n).dev.log = w.dev.log := by unfold W.freeTkt; dsimp only; split <;> rfl
    rw [this] at y
    have : (x.freeTkt n).dev.log = x.dev.log := by unfold W.freeTkt; dsimp only; split <;> rfl
    rw [this]
    exact l2 y

theorem fenceDone_none (w : W) (t : Nat) (h : ∀ e ∈ w.dev.pool.tkts, e.2.st ≠ .issued) : w.fenceDone t = w := by
  unfold W.fenceDone
  split
  · rename_i e heq
    have a := List.find?_some heq
    have b := List.mem_of_find?_eq_some heq
    have := h e b
    simp [this] at a
  · rfl

end Sys2Proof.Machine
end

