-- ==== Sys2Proof/Laws/Supplies.lean ====
section
/-! SUPPORT. Brown notices, banks and the board supply. -/

namespace Sys2Proof.Machine

theorem awake_next {f : W → W} {s : State} (r : s.awake) (v : W) (e : f (load s) = v) (q : v.rq = []) (l : v.dev.log.lstate ≠ 4) : awakeRun f s = .next (commit s v) :=
  awakeRun_next r (v := v) ⟨e, q, l⟩

theorem pin_run {f : W → W} {s : State} {b : Board} (h4 : s.dev.log.lstate ≠ 4) (e : f (load s) = (load s).withBd b) : runW (fun w => w.pinIn f) s = .next (s.withBoard b) :=
  run_board (f := fun w => w.pinIn f) h4 ((if_neg h4).trans e)

theorem noticeCollapse_quiet (w : W) (h : w.dev.sup.notice = false) : w.noticeCollapse = { w with dev.sup.bBrown := false } :=
  if_neg (by rw [h]; simp)

end Sys2Proof.Machine
end

