-- ==== Sys2Proof/Laws/Modes.lean ====
section
/-! SUPPORT. Standby, DORMANT, and the reset commands. -/

namespace Sys2Proof.Machine

theorem act_sup {s : State} (h : s.writer 4) (off v : Nat) (ho : off % 4 = 0) (hl : off < 0x1000) (x : W) (st : Nat) (e : (load s).supWrite 4 off v = (x, st)) :
    (load s).act 4 (0x1000 + off) v = x.ack st := by
  refine act_done _ _ _ _ h.1 _ _ ?_
  rw [regWrite_sup _ _ _ _ _ _ (rackWord_low _ (by omega) (by omega)) (fatalBars_writer s _ h) (by omega) (by omega), Nat.add_sub_cancel_left, e]; rfl

theorem sup_denied (s : State) (r : s.rack) (t : Ten) (h : t ≠ 4) (v : Nat) : writeRun t 0x1018 v s = .next s.denied := by
  have ht : t.val ≠ 4 := fun x => h (Fin.ext x)
  refine (rackRun_next r (v := (load s).ack stDENIED) ⟨?_, rfl, r.2⟩)
  refine act_denied _ _ _ _ (fun f => ?_)
  rw [regWrite_sup _ _ _ _ _ _ (rackWord_low _ (by omega) (by omega)) f (by omega) (by omega)]
  unfold W.supWrite
  rw [if_pos ht]; rfl

theorem sup_mode (s : State) (r : s.rack) (h : s.writer 4) (v : Nat) (x : W) (st : Nat) (e : (load s).supMode 4 (fld v 0 2) = (x, st)) (q : x.rq = []) (l : x.dev.log.lstate ≠ 4) :
    writeRun 4 0x1018 v s = .next (commit s (x.ack st)) := by
  refine rackRun_next r (v := x.ack st) ⟨act_sup h 0x18 v rfl (by omega) x st ?_, q, l⟩
  exact e

theorem lit_lamp (s : State) (m : Nat) (keep : Bool) (f : W → W) (w : W) (hf : f = if keep then W.keepalive else W.lampTref) (hm : w.dev.sup.mode = if keep then 1 else 0)
    (h1 : w.dev.bar.lamp = true ∧ w.dev.bar.bAlive = true ∧ w.dev.img.woven = true) :
    (w.modArb (fun a => { a with lamp := some (w.lampPkt keep) })).SameButLog (f w) := by
  have on : w.lampOn = true := by simp [W.lampOn, h1]
  have l := W.logK_log w 0x07 [(6, 4, 1)]
  have e : (w.logK 0x07 [(6, 4, 1)]).lampPkt keep = w.lampPkt keep := by rw [l.1]; rfl
  have k : (w.modArb (fun a => { a with lamp := some (w.lampPkt keep) })).SameButLog ((w.logK 0x07 [(6, 4, 1)]).modArb (fun a => { a with lamp := some (w.lampPkt keep) })) := by
    refine ⟨?_, l.2⟩
    have := l.1
    generalize w.logK 0x07 [(6, 4, 1)] = u at this
    rw [this]; rfl
  subst hf
  cases keep
  · simp only [Bool.false_eq_true, if_false] at hm ⊢
    unfold W.lampTref
    rw [on, hm]
    simp only [Bool.true_and, beq_self_eq_true, if_true, e]
    exact k
  · simp only [if_true] at hm ⊢
    unfold W.keepalive
    rw [on, hm]
    simp only [Bool.true_and, beq_self_eq_true, if_true, e]
    exact k

theorem unlit (w : W) (h : ¬ (w.dev.bar.lamp = true ∧ w.dev.bar.bAlive = true ∧ w.dev.img.woven = true)) : w.keepalive = w ∧ w.lampTref = w := by
  have on : w.lampOn = false := by
    unfold W.lampOn
    cases a : w.dev.bar.lamp <;> cases b : w.dev.bar.bAlive <;> cases c : w.dev.img.woven <;> simp_all
  unfold W.keepalive W.lampTref
  rw [on]; exact ⟨rfl, rfl⟩

theorem evalPort_off (w : W) (p : RPort) (h : w.portsOn = false) (h4 : (w.dev.ring.port p).st ≠ 4) :
    w.evalPort p = w.modPort p (fun r => if r.st = 0 then r else { r with st := 0, credit := 0 }) := by
  unfold W.evalPort
  rw [h]
  dsimp only
  rw [if_neg (by simp)]
  by_cases h0 : (w.dev.ring.port p).st = 0
  · rw [if_neg (by simp [h0])]
    cases p <;> (unfold W.modPort Ring.port at *; simp_all)
  · rw [if_pos (by simpa using h0)]
    unfold W.setPort
    extract_lets r w1
    rw [if_neg (by intro x; exact h4 x.1)]
    simp only [w1]
    cases p <;> (unfold W.modPort Ring.port at *; simp_all)

theorem evalPort_on (w : W) (p : RPort) (h : w.portsOn = true) (he : (w.dev.ring.port p).en = true ∨ (w.dev.ring.port p).st = 0) :
    w.evalPort p = w.modPort p (fun r => if r.en then (if r.st = 0 then { r with st := 1, credit := 0 } else r) else r) := by
  unfold W.evalPort
  rw [h]
  dsimp only
  by_cases en : (w.dev.ring.port p).en = true
  · by_cases h0 : (w.dev.ring.port p).st = 0
    · rw [if_pos (by simp [en, h0])]
      unfold W.setPort
      extract_lets r w1
      rw [if_neg (by intro x; have : (w.dev.ring.port p).st = 4 := x.1; omega)]
      simp only [w1]
      cases p <;> (unfold W.modPort Ring.port at *; simp_all)
    · rw [if_neg (by simp [h0]), if_neg (by simp [en])]
      cases p <;> (unfold W.modPort Ring.port at *; simp_all)
  · have h0 : (w.dev.ring.port p).st = 0 := by rcases he with x | x; exact absurd x en; exact x
    rw [if_neg (by simp [en]), if_neg (by simp [h0])]
    cases p <;> (unfold W.modPort Ring.port at *; simp_all)

theorem boardTkts_bound (d : Dev) : d.boardBound = false ↔ d.boardTkts = [] := by
  unfold Dev.boardBound; simp

theorem fatalBars_rst (w : W) (a : Nat) (h : 0x2000 ≤ a) (k : a < 0x3000) : w.fatalBars 4 a = false := by
  unfold W.fatalBars; simp [h, k]

theorem act_rst {w : W} (h : w.dev.barred 4 = false) (v : Nat) (x : W) (st : Nat) (e : w.rstCtrl 4 v = (x, st)) : w.act 4 0x2000 v = x.ack st := by
  refine act_done _ _ _ _ h _ _ ?_
  rw [regWrite_rst _ _ _ _ _ _ (rackWord_low _ (by omega) (by omega)) (fatalBars_rst _ _ (by omega) (by omega)) (by omega) (by omega)]
  show doneWrite (w.rstWrite 4 0 v) = _
  unfold W.rstWrite
  rw [if_pos rfl, e]; rfl

theorem rstCtrl_denied (w : W) (t : Ten) (key : BitVec 16) (x : Nat) (hx : x < 65536) (h : t ≠ 4 ∨ key ≠ 0xC3A5) : w.act t.val 0x2000 (keyed key x) = w.ack stDENIED := by
  refine act_denied _ _ _ _ (fun f => ?_)
  rw [regWrite_rst _ _ _ _ _ _ (rackWord_low _ (by omega) (by omega)) f (by omega) (by omega)]
  show doneWrite (w.rstWrite t.val 0 _) = _
  unfold W.rstWrite
  rw [if_pos rfl]
  unfold W.rstCtrl
  rw [if_pos]; rfl
  rcases h with h | h
  · exact .inl (fun x => h (Fin.ext x))
  · refine .inr (.inl ?_)
    unfold keyed
    intro y
    apply h
    apply BitVec.eq_of_toNat_eq
    show key.toNat = 0xC3A5
    omega

theorem rstCtrl_go (w : W) (v : Nat) (k : v / 2 ^ 16 = 0xC3A5) (hs : w.dev.flt.stopped dUnit = false) : w.rstCtrl 4 v =
    match fld v 0 3 with
    | 1 => if w.dev.sup.mode = 2 then (w, stDENIED) else (w.orderBreset, stOK)
    | 2 => (w.ask (.soft 4), stOK)
    | 4 => if w.dev.rst.stuckHold then (w.releaseHold, stOK) else (w, stDENIED)
    | _ => (w, stDENIED) := by
  unfold W.rstCtrl
  have : ¬ ((4 : Nat) ≠ 4 ∨ v / 2 ^ 16 ≠ 0xC3A5 ∨ w.dev.flt.stopped dUnit = true) := by
    rintro (h | h | h)
    · exact h rfl
    · exact h k
    · rw [hs] at h; simp at h
  exact (if_neg this).trans rfl

theorem keyed_val (x : Nat) : keyed 0xC3A5 x = 0xC3A50000 + x := rfl

theorem keyed_top (x : Nat) (h : x < 65536) : keyed 0xC3A5 x / 2 ^ 16 = 0xC3A5 := by rw [keyed_val]; omega

theorem frozenReset_log (w : W) : ∃ n, ({ w with dev.freeCtr := n } : W).SameButLog (w.frozenReset none) := by
  unfold W.frozenReset
  by_cases h : w.dev.log.lstate = 2
  · rw [if_pos h]
    refine ⟨w.dev.freeCtr + 1, ?_⟩
    refine W.SameButLog.trans ?_ (W.logHeader_log _)
    exact ⟨rfl, id⟩
  · rw [if_neg h]
    exact ⟨w.dev.freeCtr, rfl, id⟩

end Sys2Proof.Machine
end

