-- ==== Sys2Proof/Laws/StartUp.lean ====
section
/-! SUPPORT. Hard reset and the start of the unit. -/

namespace Sys2Proof.Machine

theorem loseLines_at (w : W) : ∃ o n, w.loseLines = { w with out := o, dev := { w.dev with freeCtr := n, sto := {} } } ∧ (w.dev.sto = {} → o = w.out ∧ n = w.dev.freeCtr) := by
  have F : ∀ (l : List SLine) (w : W), ∃ o n st, l.foldl (fun w l =>
      let d := w.draw
      if d.1.getLsbD 0 then d.2.homeLine l else d.2) w = { w with out := o, dev := { w.dev with freeCtr := n, sto := st } } := by
    intro l
    induction l with
    | nil => intro w; exact ⟨_, _, _, rfl⟩
    | cons a l ih =>
      intro w
      rw [List.foldl_cons]
      dsimp only
      split
      · obtain ⟨o, n, st, e⟩ := ih (w.draw.2.homeLine a)
        exact ⟨o, n, st, e.trans rfl⟩
      · obtain ⟨o, n, st, e⟩ := ih w.draw.2
        exact ⟨o, n, st, e.trans rfl⟩
  by_cases h : w.dev.sto = {}
  · refine ⟨w.out, w.dev.freeCtr, ?_, fun _ => ⟨rfl, rfl⟩⟩
    unfold W.loseLines
    rw [h]; rfl
  · obtain ⟨o, n, st, e⟩ := F ((w.dev.sto.own ++ w.dev.sto.log ++ w.dev.sto.win).filter (·.started)) w
    refine ⟨o, n, ?_, fun x => absurd x h⟩
    unfold W.loseLines
    rw [e]

theorem hardReset_at (s : State) : ∃ o n fus, (load s).hardReset = { load s with
      out := o
      dev := { rst := { held := true }, pins := s.dev.pins, bd := s.dev.bd, fus := fus, freeCtr := n, img := if s.dev.img.held.isSome then { code := 0x31, ten := s.dev.img.ten, action := s.dev.img.action } else {} } } ∧
    (fus.lcs = s.dev.fus.lcs ∧ fus.prot = s.dev.fus.prot ∧ fus.serial = s.dev.fus.serial ∧ fus.key = s.dev.fus.key ∧ fus.vdbg = false ∧ fus.inst = 0x02) ∧
    (s.dev.sto = {} → o = []) := by
  obtain ⟨o, n, e, k⟩ := loseLines_at (load s)
  refine ⟨o, n, s.dev.cleared.fus, ?_, ⟨rfl, rfl, rfl, rfl, rfl, rfl⟩, fun h => (k h).1⟩
  unfold W.hardReset
  rw [e]
  rfl

/-- What a start-up's raises and log lines leave as they were. -/
structure StartKeeps (a b : W) : Prop where
  fus : b.dev.fus = a.dev.fus
  pins : b.dev.pins = a.dev.pins
  rst : { b.dev.rst with bnr := a.dev.rst.bnr } = a.dev.rst
  rq : b.rq = a.rq
  slots : b.dev.flt.slots = a.dev.flt.slots ∧ b.dev.flt.fpend = a.dev.flt.fpend
  cfg : b.dev.img = a.dev.img
  fuses : b.fuses = a.fuses ∧ b.blow = a.blow
  log : a.dev.log.lstate ≠ 4 → b.dev.log.lstate ≠ 4

theorem StartKeeps.refl (a : W) : StartKeeps a a := ⟨rfl, rfl, rfl, rfl, ⟨rfl, rfl⟩, rfl, ⟨rfl, rfl⟩, id⟩

theorem StartKeeps.trans {a b c : W} (h : StartKeeps a b) (k : StartKeeps b c) : StartKeeps a c :=
  ⟨k.fus.trans h.fus, k.pins.trans h.pins, by have := k.rst; have r := h.rst; rw [← r, ← this], k.rq.trans h.rq, ⟨k.slots.1.trans h.slots.1, k.slots.2.trans h.slots.2⟩,
    k.cfg.trans h.cfg, ⟨k.fuses.1.trans h.fuses.1, k.fuses.2.trans h.fuses.2⟩, k.log ∘ h.log⟩

theorem StartKeeps.ofLog {a b : W} (h : a.SameButLog b) : StartKeeps a b := by
  obtain ⟨h, k⟩ := h
  generalize hb : b = c at *
  rw [h]
  exact ⟨rfl, rfl, rfl, rfl, ⟨rfl, rfl⟩, rfl, ⟨rfl, rfl⟩, k⟩

theorem boardFound_at (w : W) (p : StartPins) (hq : w.dev.pool = {}) : StartKeeps w (w.boardFound p) ∧ (w.boardFound p).dev.bd.core = p.boardUp ∧ (w.boardFound p).dev.bar.bAlive = p.boardUp ∧
    (w.boardFound p).dev.ring = w.dev.ring ∧ (w.boardFound p).dev.sto = w.dev.sto ∧ (w.boardFound p).out = w.out ∧ (w.boardFound p).store = w.store ∧ (w.boardFound p).dev.sup.notice = w.dev.sup.notice ∧
    (w.boardFound p).dev.sup.mode = w.dev.sup.mode ∧ (w.boardFound p).dev.log = w.dev.log ∧ (w.boardFound p).dev.flt = w.dev.flt := by
  obtain ⟨b0, e0⟩ : ∃ b0, (List.range 32).foldl (fun w n => w.modLane n (fun l => { l with pin := p.lanes.getLsbD n })) w = w.withBd b0 := by
    have : ∀ (l : List Nat) (w : W), ∃ b0, l.foldl (fun w n => w.modLane n (fun l => { l with pin := p.lanes.getLsbD n })) w = w.withBd b0 := by
      intro l
      induction l with
      | nil => intro w; exact ⟨_, rfl⟩
      | cons a l ih => intro w; obtain ⟨b, e⟩ := ih (w.modLane a (fun l => { l with pin := p.lanes.getLsbD a })); exact ⟨b, e⟩
    exact this _ _
  have M : ∀ B : Board, StartKeeps w (w.withBd B).meetBoard ∧ (w.withBd B).meetBoard.dev.bd.core = B.core ∧ (w.withBd B).meetBoard.dev.bar.bAlive = B.runs ∧
    (w.withBd B).meetBoard.dev.ring = w.dev.ring ∧ (w.withBd B).meetBoard.dev.sto = w.dev.sto ∧ (w.withBd B).meetBoard.out = w.out ∧ (w.withBd B).meetBoard.store = w.store ∧ (w.withBd B).meetBoard.dev.sup.notice = w.dev.sup.notice ∧
    (w.withBd B).meetBoard.dev.sup.mode = w.dev.sup.mode ∧ (w.withBd B).meetBoard.dev.log = w.dev.log ∧ (w.withBd B).meetBoard.dev.flt = w.dev.flt := by
    intro B
    refine ⟨⟨rfl, rfl, rfl, rfl, ⟨rfl, rfl⟩, rfl, ⟨rfl, rfl⟩, id⟩, rfl, rfl, rfl, rfl, rfl, rfl, ?_, ?_, rfl, rfl⟩
    · show (if B.runs = true then _ else _ : Supply).notice = _
      split <;> rfl
    · show (if B.runs = true then _ else _ : Supply).mode = _
      split <;> rfl
  have P : ∃ B : Board, w.boardFound p = (w.withBd B).meetBoard ∧ B.core = p.boardUp ∧ B.runs = p.boardUp := by
    unfold W.boardFound
    dsimp only
    rw [e0]
    cases hp : p.boardUp
    · exact ⟨_, if_neg (by simp), rfl, rfl⟩
    · rw [if_pos rfl]
      obtain ⟨l, e1⟩ := restart_at w { b0 with vddb := true, up := p.vb, low := b0.low &&& p.vb, prsn := !p.prsLow }
      have : ((w.withBd b0).modBd (fun b => { b with vddb := true, up := p.vb, low := b.low &&& p.vb, prsn := !p.prsLow })).boardAgain = _ := congrArg W.endQuarantine e1
      rw [this, endQuarantine_none _ (by show ∀ e ∈ w.dev.pool.tkts, _; rw [hq]; simp)]
      exact ⟨_, rfl, rfl, rfl⟩
  obtain ⟨B, e, c, r⟩ := P
  rw [e]
  have := M B
  rw [c, r] at this
  exact this

theorem modPort_startKeeps (w : W) (p : RPort) (f : RingPort → RingPort) : StartKeeps w (w.modPort p f) := by
  cases p <;> exact ⟨rfl, rfl, rfl, rfl, ⟨rfl, rfl⟩, rfl, ⟨rfl, rfl⟩, id⟩

theorem evalPort_startKeeps (w : W) (p : RPort) (h4 : (w.dev.ring.port p).st ≠ 4) : StartKeeps w (w.evalPort p) ∧ (∀ q, (w.dev.ring.port q).st ≠ 4 → ((w.evalPort p).dev.ring.port q).st ≠ 4) ∧
    (w.evalPort p).dev.bd = w.dev.bd ∧ (w.evalPort p).dev.bar = w.dev.bar ∧ (w.evalPort p).dev.sto = w.dev.sto ∧ (w.evalPort p).out = w.out ∧ (w.evalPort p).store = w.store ∧ (w.evalPort p).dev.sup = w.dev.sup ∧ (w.evalPort p).dev.flt = w.dev.flt := by
  have E : ∃ f : RingPort → RingPort, w.evalPort p = w.modPort p f ∧ ∀ r : RingPort, r.st ≠ 4 → (f r).st ≠ 4 := by
    unfold W.evalPort W.setPort
    dsimp only
    split
    · rw [if_neg (by intro x; exact h4 x.1)]
      exact ⟨_, rfl, fun r _ => by show (1 : Nat) ≠ 4; decide⟩
    · split
      · rw [if_neg (by intro x; exact h4 x.1)]
        exact ⟨_, rfl, fun r _ => by show (0 : Nat) ≠ 4; decide⟩
      · exact ⟨id, by cases p <;> rfl, fun r h => h⟩
  obtain ⟨f, e, k⟩ := E
  rw [e]
  refine ⟨modPort_startKeeps w p f, ?_, ?_⟩
  · intro q hq
    cases p <;> cases q <;> first | exact k _ hq | exact hq
  · cases p <;> exact ⟨rfl, rfl, rfl, rfl, rfl, rfl, rfl⟩

/-- A record with no notice in force whose staged lines a start-up wrote. -/
structure FewLines (n : Nat) (a w : W) : Prop where
  notice : w.dev.sup.notice = false
  win : w.dev.sto.win = []
  own : ∀ l ∈ w.dev.sto.own, l.line = lnFault ∧ l.started = true
  log : ∀ l ∈ w.dev.sto.log, l.line = lnOrder ∧ l.started = true
  len : w.dev.sto.log.length ≤ n
  out : w.out = a.out ∧ w.store = a.store

theorem logHeader_few (n : Nat) (a w : W) (h : FewLines n a w) (hn : n < 32) : FewLines (n + 1) a w.logHeader := by
  unfold W.logHeader W.stageLog
  extract_lets g frst s nn
  have hany : s.log.any (fun x => x.line == lnOrder && !x.started) = false := by
    rw [List.any_eq_false]
    intro x hx
    rw [(h.log x hx).2]; simp
  rw [if_neg (by rw [show (s.log.any fun x => x.line == ({ line := lnOrder, data := lcrcLine (mark4 0x56 0x4E 0x4F 0x4C ++ [BitVec.ofNat 8 g.lstate, 0] ++ le 4 g.toseq ++ le 4 g.foseq ++ padTo 32 frst), order := true } : SLine).line && !x.started) = false from hany]; simp)]
  rw [if_pos (by have := h.len; exact Nat.lt_of_le_of_lt this hn)]
  refine ⟨h.notice, h.win, h.own, ?_, ?_, h.out⟩
  · intro l hl
    rcases List.mem_append.mp hl with x | x
    · exact h.log l x
    · rw [List.mem_singleton.mp x]
      refine ⟨rfl, ?_⟩
      show (!w.dev.sup.notice) = true
      rw [h.notice]; rfl
  · show (w.dev.sto.log ++ _).length ≤ _
    rw [List.length_append]
    have := h.len
    simp only [List.length_cons, List.length_nil]; omega

theorem stageHeader_few (n : Nat) (a w : W) (h : FewLines n a w) : FewLines n a w.stageHeader ∧ StartKeeps w w.stageHeader := by
  unfold W.stageHeader
  dsimp only
  rw [if_neg]
  · refine ⟨⟨h.notice, h.win, ?_, h.log, h.len, h.out⟩, ⟨rfl, rfl, rfl, rfl, ⟨rfl, rfl⟩, rfl, ⟨rfl, rfl⟩, id⟩⟩
    intro l hl
    rcases List.mem_append.mp hl with x | x
    · exact h.own l x
    · rw [List.mem_singleton.mp x]
      refine ⟨rfl, ?_⟩
      show (!w.dev.sup.notice) = true
      rw [h.notice]; rfl
  · intro x
    rw [List.any_eq_true] at x
    obtain ⟨l, hl, x⟩ := x
    rw [(h.own l hl).2] at x
    simp at x

theorem FewLines.of {n : Nat} {a w v : W} (h : FewLines n a w) (h1 : v.dev.sup.notice = w.dev.sup.notice) (h2 : v.dev.sto = w.dev.sto) (h3 : v.out = w.out ∧ v.store = w.store) : FewLines n a v :=
  ⟨h1.trans h.notice, by rw [h2]; exact h.win, by rw [h2]; exact h.own, by rw [h2]; exact h.log, by rw [h2]; exact h.len, ⟨h3.1.trans h.out.1, h3.2.trans h.out.2⟩⟩

theorem scanLog_few (n : Nat) (a w : W) (h : FewLines n a w) (hn : n < 32) : FewLines (n + 1) a w.scanLog ∧ StartKeeps w w.scanLog ∧ w.scanLog.dev.log.lstate ≠ 4 ∧ w.scanLog.dev.bd = w.dev.bd ∧ w.scanLog.dev.bar = w.dev.bar ∧ w.scanLog.dev.flt = w.dev.flt := by
  unfold W.scanLog
  extract_lets x ls top start w1 recs
  have hw1 : w1 = { w with dev.log := w1.dev.log } := rfl
  split
  · refine ⟨?_, ⟨rfl, rfl, rfl, rfl, ⟨rfl, rfl⟩, rfl, ⟨rfl, rfl⟩, ?_⟩, ?_, rfl, rfl, rfl⟩
    · have := h.of (v := w1.modLog (fun g => { g with lstate := afterReset (at' x 4 1), toseq := at' x 6 4, foseq := at' x 10 4, frst := recs })) rfl rfl ⟨rfl, rfl⟩
      exact ⟨this.notice, this.win, this.own, this.log, Nat.le_succ_of_le this.len, this.out⟩
    · intro _; show afterReset _ ≠ 4; unfold afterReset; split <;> omega
    · show afterReset _ ≠ 4; unfold afterReset; split <;> omega
  · have f := h.of (v := w1.modLog (fun g => { g with lstate := 0, rebuilt := true })) rfl rfl ⟨rfl, rfl⟩
    have L := W.logHeader_log (w1.modLog (fun g => { g with lstate := 0, rebuilt := true }))
    have S : StartKeeps w (w1.modLog (fun g => { g with lstate := 0, rebuilt := true })) := ⟨rfl, rfl, rfl, rfl, ⟨rfl, rfl⟩, rfl, ⟨rfl, rfl⟩, fun _ => by show (0 : Nat) ≠ 4; decide⟩
    refine ⟨logHeader_few n a _ f hn, S.trans (StartKeeps.ofLog L), L.2 (by show (0 : Nat) ≠ 4; decide), ?_, ?_, ?_⟩ <;> (rw [L.1]; rfl)

theorem scanFaults_few (n : Nat) (a w : W) (h : FewLines n a w) : FewLines n a w.scanFaults ∧ StartKeeps w w.scanFaults ∧ w.scanFaults.dev.bd = w.dev.bd ∧ w.scanFaults.dev.bar = w.dev.bar ∧ w.scanFaults.dev.log = w.dev.log := by
  unfold W.scanFaults
  extract_lets x ls best
  split
  · exact ⟨h.of rfl rfl ⟨rfl, rfl⟩, ⟨rfl, rfl, rfl, rfl, ⟨rfl, rfl⟩, rfl, ⟨rfl, rfl⟩, id⟩, rfl, rfl, rfl⟩
  · generalize hv : W.modFlt w _ = v
    have f : FewLines n a v := by rw [← hv]; exact h.of rfl rfl ⟨rfl, rfl⟩
    have S : StartKeeps w v := by rw [← hv]; exact ⟨rfl, rfl, rfl, rfl, ⟨rfl, rfl⟩, rfl, ⟨rfl, rfl⟩, id⟩
    have K : v.dev.bd = w.dev.bd ∧ v.dev.bar = w.dev.bar ∧ v.dev.log = w.dev.log := by rw [← hv]; exact ⟨rfl, rfl, rfl⟩
    obtain ⟨f2, s2⟩ := stageHeader_few n a v f
    refine ⟨f2, S.trans s2, ?_, ?_, ?_⟩
    · rw [← K.1]; unfold W.stageHeader; dsimp only; split <;> rfl
    · rw [← K.2.1]; unfold W.stageHeader; dsimp only; split <;> rfl
    · rw [← K.2.2]; unfold W.stageHeader; dsimp only; split <;> rfl

theorem frozenReset_few (n c : Nat) (a w : W) (h : FewLines n a w) (hn : n < 32) : FewLines (n + 1) a (w.frozenReset (some c)) ∧ StartKeeps w (w.frozenReset (some c)) ∧ (w.frozenReset (some c)).dev.bd = w.dev.bd ∧
    (w.frozenReset (some c)).dev.bar = w.dev.bar := by
  unfold W.frozenReset
  split
  · dsimp only
    have f := h.of (v := { w with dev.log.frst := (w.dev.log.frst ++ [(w.now % 2 ^ 56, c)]).drop (w.dev.log.frst.length + 1 - 4) }) rfl rfl ⟨rfl, rfl⟩
    have L := W.logHeader_log { w with dev.log.frst := (w.dev.log.frst ++ [(w.now % 2 ^ 56, c)]).drop (w.dev.log.frst.length + 1 - 4) }
    have S : StartKeeps w { w with dev.log.frst := (w.dev.log.frst ++ [(w.now % 2 ^ 56, c)]).drop (w.dev.log.frst.length + 1 - 4) } := ⟨rfl, rfl, rfl, rfl, ⟨rfl, rfl⟩, rfl, ⟨rfl, rfl⟩, id⟩
    refine ⟨logHeader_few n a _ f hn, S.trans (StartKeeps.ofLog L), ?_, ?_⟩ <;> (rw [L.1])
  · exact ⟨⟨h.notice, h.win, h.own, h.log, Nat.le_succ_of_le h.len, h.out⟩, .refl _, rfl, rfl⟩

theorem bankRec_few (n : Nat) (a w : W) (h : FewLines n a w) (ha : a.dev.sto = {}) (k : Nat) (hk : k < 2) : w.bankRec k = a.bankRec k := by
  have L : w.line (bankRecLine k) = a.line (bankRecLine k) := by
    unfold W.line
    have : (w.dev.sto.own ++ w.dev.sto.log ++ w.dev.sto.win).reverse.find? (fun l => l.line == bankRecLine k) = none := by
      rw [List.find?_eq_none]
      intro l hl
      rw [List.mem_reverse, h.win, List.append_nil, List.mem_append] at hl
      unfold bankRecLine
      rcases hl with x | x
      · rw [(h.own l x).1]; simp only [lnFault, beq_iff_eq]; omega
      · rw [(h.log l x).1]; simp only [lnOrder, beq_iff_eq]; omega
    rw [this, ha]
    show w.home _ _ = a.home _ _
    unfold W.home
    rw [h.out.1, h.out.2]
  unfold W.bankRec
  rw [L]

theorem calm_fresh (w : W) (hc : w.dev.img.cfg = {}) (hs : w.dev.flt.slots = []) : w.calm 0x5F dUnit (w.decision 0x5F dUnit false) := by
  have d : w.decision 0x5F dUnit false = .fresh 1 false := by
    unfold W.decision W.cfg
    rw [hc]
    have e : (({} : Cfg).flt.effClass 0x5F) = 1 := by decide
    simp only [e]
    unfold Faults.decide' Faults.slot
    rw [hs]
    rfl
  rw [d]
  refine .inr ⟨1, false, rfl, by decide, ?_⟩
  unfold W.cfg
  rw [hc]
  decide

theorem startWeave_none (w : W) (h0 : w.bankRec 0 = none) (h1 : w.bankRec 1 = none) (hs : w.dev.flt.slots = []) :
    (w.startWeave true).dev.fus = w.dev.fus ∧ (w.startWeave true).dev.pins = w.dev.pins ∧ (w.startWeave true).dev.rst = w.dev.rst ∧ (w.startWeave true).rq = w.rq ∧
      (w.startWeave true).fuses = w.fuses ∧ (w.startWeave true).blow = w.blow ∧ (w.dev.log.lstate ≠ 4 → (w.startWeave true).dev.log.lstate ≠ 4) ∧
      (w.startWeave true).dev.bd = w.dev.bd ∧ (w.startWeave true).dev.bar = w.dev.bar ∧ (w.startWeave true).dev.img.woven = false := by
  let u := w.modImg (fun i => { i with bank := 0, bgen := 0, woven := false, cfg := {}, fallback := false, phase := 0 })
  have a : w.activeBank = none := by unfold W.activeBank; rw [h0, h1]
  have e : w.startWeave true = u.imgFault 0x10 0 true := by
    unfold W.startWeave
    rw [a]
    dsimp only [Option.getD_none]
    have e1 : w.modImg (fun i => { i with bank := 0, bgen := (w.bankRec 0).getD 0, woven := false, cfg := {}, fallback := false, phase := 0 }) = u := by rw [h0]; rfl
    rw [e1]
    have c0 : u.checkBank 0 = .error ⟨0x10, 0⟩ := by
      unfold W.checkBank
      have : u.bankRec 0 = none := h0
      rw [this]
    have c1 : u.checkBank (1 - 0) = .error ⟨0x10, 0⟩ := by
      unfold W.checkBank
      have : u.bankRec (1 - 0) = none := h1
      rw [this]
    rw [c0, c1]
  have R := W.raise_raise u 0x5F dUnit { detail := packN [(0, 8, 0x10), (8, 1, 0), (9, 1, b2n true)] } (calm_fresh u rfl hs)
  rw [e]
  have k := R.2.1
  have r1 := R.1
  unfold W.imgFault W.raiseU
  generalize W.raise u 0x5F dUnit _ = v at *
  have kk : w.dev.log.lstate ≠ 4 → v.dev.log.lstate ≠ 4 := k
  refine ⟨?_, ?_, ?_, ?_, ?_, ?_, kk, ?_, ?_, ?_⟩ <;> (rw [r1]; rfl)

theorem startUp_at (w : W) (p : StartPins) (m : Nat) (hst : w.dev.sto = {}) (hn : w.dev.sup.notice = false) (h0 : w.bankRec 0 = none) (h1 : w.bankRec 1 = none) (hb : w.blow = [])
    (hm : lcsOf (w.fuseN 0) = some m) (h3 : m ≠ 3) (hf : p.failMask = 0) (hr : (w.dev.ring.port .up).st ≠ 4 ∧ (w.dev.ring.port .dn).st ≠ 4)
    (hs : w.dev.flt.slots = []) (hp : w.dev.pool = {}) :
    let t := w.startUp p
    t.dev.fus.lcs = m ∧ t.dev.fus.prot = BitVec.ofNat 13 (w.fuseN 1) ∧ t.dev.pins = { w.dev.pins with head := p.headLow, hostsel := p.hostsel.val } ∧
      { t.dev.rst with bnr := w.dev.rst.bnr } = { w.dev.rst with held := false } ∧ t.rq = w.rq ∧ t.fuses = w.fuses ∧ t.blow = w.blow ∧ t.dev.log.lstate ≠ 4 ∧
      t.dev.bd.core = p.boardUp ∧ t.dev.bar.bAlive = p.boardUp ∧ t.dev.img.woven = false := by
  intro t
  -- the fuses
  let w1 := w.modRst (fun r => { r with held := false })
  have S : w1.sense p.failMask = { w1 with dev.fus := (w1.sense p.failMask).dev.fus } ∧ (w1.sense p.failMask).dev.fus.lcs = m ∧ (w1.sense p.failMask).dev.fus.prot = BitVec.ofNat 13 (w.fuseN 1) ∧
      (w1.sense p.failMask).dev.fus.odd = false ∧ (w1.sense p.failMask).dev.fus.failmask = 0 := by
    rw [hf]
    unfold W.sense
    have e0 : (0 : BitVec 32).getLsbD 0 = false := rfl
    have e1 : (0 : BitVec 32).getLsbD 1 = false := rfl
    simp only [e0, e1, Bool.false_eq_true, if_false]
    have em : lcsOf (w1.fuseN 0) = some m := hm
    simp only [em, Option.isNone_some, Bool.false_eq_true, if_false, Option.getD_some]
    exact ⟨rfl, rfl, rfl, rfl, rfl⟩
  obtain ⟨s1, s2, s3, s4, s5⟩ := S
  let w2 := (w1.sense p.failMask).modPins (fun x => { x with head := p.headLow, hostsel := p.hostsel.val })
  have c : w2.senseCheck = w2 := by
    unfold W.senseCheck
    exact if_neg (by
      show ¬ ((w1.sense p.failMask).dev.fus.odd || (w1.sense p.failMask).dev.fus.failmask != 0) = true
      rw [s4, s5]; simp)
  have w2e : w2 = { w1 with dev.fus := w2.dev.fus, dev.pins := { w.dev.pins with head := p.headLow, hostsel := p.hostsel.val } } := by
    simp only [w2]; rw [s1]; rfl
  have w2l : w2.dev.fus.lcs = m ∧ w2.dev.fus.prot = BitVec.ofNat 13 (w.fuseN 1) := ⟨s2, s3⟩
  generalize hw2 : w2 = v2 at *
  have v2pool : v2.dev.pool = {} := by rw [w2e]; exact hp
  have v2ring : v2.dev.ring = w.dev.ring := by rw [w2e]; rfl
  have v2sto : v2.dev.sto = {} := by rw [w2e]; exact hst
  have v2n : v2.dev.sup.notice = false := by rw [w2e]; exact hn
  have v2s : v2.dev.flt.slots = [] := by rw [w2e]; exact hs
  have v2b : v2.bankRec 0 = none ∧ v2.bankRec 1 = none := by
    rw [w2e]; exact ⟨h0, h1⟩
  obtain ⟨b1, b2, b3, b4, b5, b6, b7, b8, b9, b10, b11⟩ := boardFound_at v2 p v2pool
  generalize hv3 : v2.boardFound p = v3 at *
  have r3 : (v3.dev.ring.port .up).st ≠ 4 ∧ (v3.dev.ring.port .dn).st ≠ 4 := by rw [b4, v2ring]; exact hr
  obtain ⟨p1, p2, p3, p4, p5, p6, p7, p8, p9⟩ := evalPort_startKeeps v3 .up r3.1
  obtain ⟨q1, _, q3, q4, q5, q6, q7, q8, q9⟩ := evalPort_startKeeps (v3.evalPort .up) .dn (p2 .dn r3.2)
  have ev : v3.evalPorts = (v3.evalPort .up).evalPort .dn := rfl
  generalize hv4 : (v3.evalPort .up).evalPort .dn = v4 at *
  have F4 : FewLines 0 v2 v4 := by
    have so : v4.dev.sto = {} := by rw [q5, p5, b5, v2sto]
    refine ⟨?_, ?_, ?_, ?_, ?_, ?_, ?_⟩
    · rw [q8, p8, b8, v2n]
    · rw [so]
    · rw [so]; simp
    · rw [so]; simp
    · rw [so]; rfl
    · rw [q6, p6, b6]
    · rw [q7, p7, b7]
  have S4 : StartKeeps v2 v4 := (b1.trans p1).trans q1
  obtain ⟨f5, s5', l5, k5, k5', _⟩ := scanLog_few 0 v2 v4 F4 (by omega)
  obtain ⟨f6, s6, k6, k6', k6''⟩ := scanFaults_few 1 v2 v4.scanLog f5
  generalize hv6 : v4.scanLog.scanFaults = v6 at *
  have S6 : StartKeeps v2 v6 := (S4.trans s5').trans s6
  have l6 : v6.dev.log.lstate ≠ 4 := s6.log l5
  let w7 := if v6.dev.log.lstate = 2 then v6.frozenReset (some v6.dev.rst.last) else v6
  have P7 : FewLines 2 v2 w7 ∧ StartKeeps v2 w7 ∧ w7.dev.log.lstate ≠ 4 ∧ w7.dev.bd = v6.dev.bd ∧ w7.dev.bar = v6.dev.bar := by
    simp only [w7]
    split
    · obtain ⟨a1, a2, a3, a4⟩ := frozenReset_few 1 v6.dev.rst.last v2 v6 f6 (by omega)
      exact ⟨a1, S6.trans a2, a2.log l6, a3, a4⟩
    · exact ⟨⟨f6.notice, f6.win, f6.own, f6.log, Nat.le_succ_of_le f6.len, f6.out⟩, S6, l6, rfl, rfl⟩
  generalize hv7 : w7 = v7 at *
  obtain ⟨f7, S7, l7, k7, k7'⟩ := P7
  have n0 := (bankRec_few 2 v2 v7 f7 v2sto 0 (by decide)).trans v2b.1
  have n1 := (bankRec_few 2 v2 v7 f7 v2sto 1 (by decide)).trans v2b.2
  obtain ⟨z1, z2, z3, z4, z5, z6, z7, z8, z9, z10⟩ := startWeave_none v7 n0 n1 (S7.slots.1.trans v2s)
  have te : t = v7.startWeave true := by
    show w.startUp p = _
    unfold W.startUp
    dsimp only
    rw [show (w1.sense p.failMask).modPins (fun x => { x with head := p.headLow, hostsel := p.hostsel.val }) = v2 from hw2, c, hv3, ev, hv6]
    rw [show (if v6.dev.log.lstate = 2 then v6.frozenReset (some v6.dev.rst.last) else v6) = v7 from hv7]
    rw [if_neg]
    rw [S7.fus, w2l.1]; exact h3
  rw [te]
  refine ⟨?_, ?_, ?_, ?_, ?_, ?_, ?_, z7 l7, ?_, ?_, z10⟩
  · rw [z1, S7.fus]; exact w2l.1
  · rw [z1, S7.fus]; exact w2l.2
  · rw [z2, S7.pins, w2e]
  · rw [z3]
    have := S7.rst
    rw [w2e] at this
    exact this
  · rw [z4, S7.rq, w2e]; rfl
  · rw [z5, S7.fuses.1, w2e]; rfl
  · rw [z6, S7.fuses.2, w2e]; rfl
  · rw [z8, k7, k6, k5, q3, p3]; exact b2
  · rw [z9, k7', k6', k5', q4, p4]; exact b3

end Sys2Proof.Machine
end

