-- ==== Sys2Proof/Laws/Resets.lean ====
section
/-! SUPPORT. Tenant resets and soft resets. -/

namespace Sys2Proof.Machine

theorem startWeave_raises (w : W) (live : Bool) (h0 : w.bankRec 0 = none) (h1 : w.bankRec 1 = none) (hs : w.dev.flt.slots = []) :
    (w.modImg (fun i => { i with bank := 0, bgen := 0, woven := false, cfg := {}, fallback := false, phase := 0 })).SameButRaise (w.startWeave live) := by
  let u := w.modImg (fun i => { i with bank := 0, bgen := 0, woven := false, cfg := {}, fallback := false, phase := 0 })
  have a : w.activeBank = none := by unfold W.activeBank; rw [h0, h1]
  have e : w.startWeave live = u.imgFault 0x10 0 true := by
    unfold W.startWeave
    rw [a]
    dsimp only [Option.getD_none]
    have e1 : w.modImg (fun i => { i with bank := 0, bgen := (w.bankRec 0).getD 0, woven := false, cfg := {}, fallback := false, phase := 0 }) = u := by rw [h0]; rfl
    rw [e1]
    have c0 : u.checkBank 0 = .error ⟨0x10, 0⟩ := by
      unfold W.checkBank
      have : u.bankRec 0 = none := h0
      rw [this]
    have c1 : u.checkBank (1 - 0) = .error ⟨0x10, 0⟩ := by
      unfold W.checkBank
      have : u.bankRec (1 - 0) = none := h1
      rw [this]
    rw [c0, c1]
  have R := W.raise_raise u 0x5F dUnit { detail := packN [(0, 8, 0x10), (8, 1, 0), (9, 1, b2n true)] } (calm_fresh u rfl hs)
  rw [e]
  exact R

/-- Without a hard stop of the unit every slot is cleared. -/
theorem dropAll_slots (f : Faults) (h : f.stopped dUnit = false) : f.dropAll.slots = [] := by
  have e : (f.stopOf dUnit).isEmpty = true := by simpa [Faults.stopped] using h
  exact if_pos e

theorem softNow_at (w : W) (cause : Nat) (hst : w.dev.sto = {}) (hn : w.dev.sup.notice = false) (h0 : w.bankRec 0 = none) (h1 : w.bankRec 1 = none) (h3 : w.dev.fus.lcs ≠ 3) (hr : w.dev.pai.role ≠ 3)
    (hb : w.dev.bd.runs = true) (hi : w.dev.fus.inst ≠ 0 ∧ w.dev.fus.inst ≠ 3 ∧ w.dev.fus.inst ≠ 4) (hh : w.dev.rst.held = false) (hv : w.dev.rst.vdda = true) (ha : w.dev.idn.astate ≠ 1) (hw : w.dev.idn.wbState ≠ 2)
    (hu : w.dev.ring.up.en = true ∨ w.dev.ring.up.st = 0) (hd : w.dev.ring.dn.en = true ∨ w.dev.ring.dn.st = 0) (h4 : w.dev.log.lstate ≠ 4) (hs : w.dev.flt.stopped dUnit = false) :
    ∃ v : W, v.SameButRaise (w.softNow cause id) ∧ v.rq = [] ∧ v.fuses = w.fuses ∧ v.blow = w.blow ∧ v.bufs = w.bufs ∧ v.bout = w.bout ∧ v.dev.acc = w.dev.acc ∧ v.dev.log.lstate ≠ 4 ∧
      v.dev.rst.last = cause ∧ v.dev.rst.softResets = satAdd 8 w.dev.rst.softResets 1 ∧ v.dev.rst.boardBusy = false ∧ v.dev.rst.softWait = none ∧ v.dev.rst.stuckHold = w.dev.rst.stuckHold ∧
      v.dev.img.woven = false ∧ v.dev.sup.mode = 0 ∧ v.dev.sup.defer = [] ∧ v.dev.pool = {} ∧ v.dev.tens = w.dev.tens.map Tenant.softCleared ∧ v.dev.arb = w.dev.arb.softCleared ∧
      v.dev.flt.fkey = 0 ∧ v.dev.flt.fpend = [] ∧ v.dev.bd.core = true ∧ v.dev.bd.tabs = false ∧ v.dev.bar.bAlive = true ∧ v.dev.tim = w.dev.tim ∧ v.dev.fus = w.dev.fus ∧ v.dev.pins = w.dev.pins := by
  have e1 : w.commitAll = w := by
    have x : ({ w.dev.sto with log := [], own := [], win := [] } : Store) = w.dev.sto := by rw [hst]
    unfold W.commitAll
    dsimp only
    have z : w.dev.sto.own ++ w.dev.sto.log ++ w.dev.sto.win = [] := by rw [hst]; rfl
    rw [x, z]; rfl
  obtain ⟨f1, s1, k1, k1'⟩ := frozenReset_few 0 cause w w ⟨hn, by rw [hst], by rw [hst]; simp, by rw [hst]; simp, by rw [hst]; simp, rfl, rfl⟩ (by omega)
  have L : w.SameButLog (w.frozenReset (some cause)) := by
    unfold W.frozenReset
    split
    · exact W.SameButLog.trans (by exact ⟨rfl, id⟩) (W.logHeader_log _)
    · exact .refl w
  have L1 := L.1
  have L2 := L.2 h4
  let w1 := w.frozenReset (some cause)
  have w1e : w.frozenReset (some cause) = w1 := rfl
  rw [w1e] at f1 s1 k1 k1' L1 L2
  generalize w1 = w1 at *
  have ec : w1.idCut.wbStop = w1 := cut_none w1 (by rw [L1]; exact ha) (by rw [L1]; exact hw)
  let w2 : W := { w1 with dev := w1.dev.softCleared cause, rq := [] }
  have r2 : w2.dev.bd.runs = true := by show w1.dev.bd.runs = true; rw [k1]; exact hb
  have c2 : w2.dev.bd.core = true := by unfold Board.runs at r2; simp at r2; exact r2.1
  obtain ⟨l, q, e3⟩ := failSafe_any w2 w2.dev.bd c2
  obtain ⟨l2, e4⟩ := restart_at w2 ({ w2.dev.bd with lanes := l, wseq := q } : Board).halted
  have bt : w2.boardThrough = w2.failSafeAll.boardAgain := if_pos r2
  have e3' : w2.failSafeAll = _ := e3
  rw [e3'] at bt
  unfold W.boardAgain at bt
  rw [e4, endQuarantine_none _ (by show ∀ e ∈ ([] : Tbl Ticket), _; simp)] at bt
  revert bt
  generalize hB : (Board.page2 _ : Board) = B
  have B1 : B.runs = true ∧ B.core = true ∧ B.tabs = false := by rw [← hB]; exact ⟨rfl, rfl, rfl⟩
  intro bt
  let w3 := (w2.withBd B).meetBoard
  have m3 : w3 = { w2 with
      dev.bar := w3.dev.bar
      dev.sup := { w2.dev.sup with up := B.up, low := B.low, bBrown := false }
      dev.rst := { w2.dev.rst with bnr := true }
      dev.bd := { B with outS := [], rackAlive := true } } ∧ w3.dev.bar.bAlive = true := by
    simp only [w3]
    unfold W.meetBoard
    simp only [W.withBd_bd, B1.1]
    unfold W.modBar W.modSup W.modRst W.modBd
    simp only [if_true, Bool.or_true]
    exact ⟨rfl, trivial⟩
  have w3e : (w2.withBd B).meetBoard = w3 := rfl
  generalize w3 = w3 at *
  obtain ⟨m3, m3b⟩ := m3
  have p3 : w3.portsOn = true := by
    show (!w3.dev.rst.held && w3.dev.rst.vdda && w3.dev.sup.mode != 2 && decide (w3.dev.log.lstate < 4) && w3.dev.fus.inst != 0x00 && w3.dev.fus.inst != 0x03 && w3.dev.fus.inst != 0x04) = true
    have a1 : w3.dev.rst.held = false := by rw [m3]; show w1.dev.rst.held = false; rw [L1]; exact hh
    have a2 : w3.dev.rst.vdda = true := by rw [m3]; show w1.dev.rst.vdda = true; rw [L1]; exact hv
    have a3 : w3.dev.sup.mode = 0 := by rw [m3]; rfl
    have a4 : w3.dev.log.lstate < 4 := by rw [m3]; show afterReset w1.dev.log.lstate < 4; unfold afterReset; split <;> omega
    have a5 : w3.dev.fus = w.dev.fus := by rw [m3]; show w1.dev.fus = _; rw [L1]
    rw [a1, a2, a3, a5]
    simp [a4, hi]
  have ru : w3.dev.ring = w.dev.ring := by rw [m3]; show w1.dev.ring = _; rw [L1]
  have e5 := evalPort_on w3 .up p3 (by show w3.dev.ring.up.en = true ∨ w3.dev.ring.up.st = 0; rw [ru]; exact hu)
  let g : RingPort → RingPort := fun r => if r.en then (if r.st = 0 then { r with st := 1, credit := 0 } else r) else r
  have e6 := evalPort_on (w3.modPort .up g) .dn (by exact p3) (by show w3.dev.ring.dn.en = true ∨ w3.dev.ring.dn.st = 0; rw [ru]; exact hd)
  have ev : w3.evalPorts = { w3 with dev.ring := { w3.dev.ring with up := g w3.dev.ring.up, dn := g w3.dev.ring.dn } } := by
    unfold W.evalPorts
    rw [e5, e6]; rfl
  let w4 : W := { w3 with dev.ring := { w3.dev.ring with up := g w3.dev.ring.up, dn := g w3.dev.ring.dn } }
  have f4 : FewLines 1 w w4 := f1.of (by show w3.dev.sup.notice = _; rw [m3]; rfl) (by show w3.dev.sto = _; rw [m3]; rfl) ⟨by show w3.out = _; rw [m3], by show w3.store = _; rw [m3]⟩
  have n0 := (bankRec_few 1 w w4 f4 hst 0 (by decide)).trans h0
  have n1 := (bankRec_few 1 w w4 f4 hst 1 (by decide)).trans h1
  have R := startWeave_raises w4 false n0 n1 (by show w3.dev.flt.slots = []; rw [m3]; exact dropAll_slots _ (by show w1.dev.flt.stopped dUnit = false; rw [L1]; exact hs))
  have key : w.softNow cause id = w4.startWeave false := by
    unfold W.softNow
    extract_lets a b c d e f
    have ea : a = w := e1
    have eb : b = w := by
      simp only [b]; rw [ea]
      exact if_neg (by intro x; exact hr x.1)
    have ec' : c = w1 := by simp only [c]; rw [eb]; exact w1e
    have ed : d = w1 := by simp only [d]; rw [ec']; exact ec
    have ee : e = w2 := by simp only [e]; rw [ed]; rfl
    have ef : f = w4 := by
      simp only [f]; rw [ee, bt, w3e]
      exact ev
    rw [ef]
    refine if_neg ?_
    intro x
    have y : w3.dev.fus = w.dev.fus := by rw [m3]; show w1.dev.fus = _; rw [L1]
    have x1 : w3.dev.fus.lcs = 3 := x.1
    rw [y] at x1
    exact h3 x1
  rw [key]
  refine ⟨_, R, ?_, ?_, ?_, ?_, ?_, ?_, ?_, ?_, ?_, ?_, ?_, ?_, ?_, ?_, ?_, ?_, ?_, ?_, ?_, ?_, ?_, ?_, ?_, ?_, ?_, ?_⟩
  · show w3.rq = _; rw [m3]
  · show w3.fuses = _; rw [m3]; show w1.fuses = _; rw [L1]
  · show w3.blow = _; rw [m3]; show w1.blow = _; rw [L1]
  · show w3.bufs = _; rw [m3]; show w1.bufs = _; rw [L1]
  · show w3.bout = _; rw [m3]; show w1.bout = _; rw [L1]
  · show w3.dev.acc = _; rw [m3]; show w1.dev.acc = _; rw [L1]
  · show w3.dev.log.lstate ≠ 4; rw [m3]; show afterReset w1.dev.log.lstate ≠ 4; unfold afterReset; split <;> omega
  · show w3.dev.rst.last = _; rw [m3]; rfl
  · show w3.dev.rst.softResets = _; rw [m3]; show satAdd 8 w1.dev.rst.softResets 1 = _; rw [L1]
  · show w3.dev.rst.boardBusy = _; rw [m3]; rfl
  · show w3.dev.rst.softWait = _; rw [m3]; rfl
  · show w3.dev.rst.stuckHold = _; rw [m3]; show w1.dev.rst.stuckHold = _; rw [L1]
  · rfl
  · show w3.dev.sup.mode = _; rw [m3]; rfl
  · show w3.dev.sup.defer = _; rw [m3]; rfl
  · show w3.dev.pool = _; rw [m3]; rfl
  · show w3.dev.tens = _; rw [m3]; show w1.dev.tens.map _ = _; rw [L1]
  · show w3.dev.arb = _; rw [m3]; show w1.dev.arb.softCleared = _; rw [L1]
  · show w3.dev.flt.fkey = _; rw [m3]; rfl
  · show w3.dev.flt.fpend = _; rw [m3]; rfl
  · show w3.dev.bd.core = _; rw [m3]; exact B1.2.1
  · show w3.dev.bd.tabs = _; rw [m3]; exact B1.2.2
  · exact m3b
  · show w3.dev.tim = _; rw [m3]; show w1.dev.tim = _; rw [L1]
  · show w3.dev.fus = _; rw [m3]; show w1.dev.fus = _; rw [L1]
  · show w3.dev.pins = _; rw [m3]; show w1.dev.pins = _; rw [L1]

theorem serve_soft (w : W) (c : Nat) (hq : w.rq = [.soft c]) (hc : c ≠ 256) (hs : w.dev.rst.softWait = none) (hr : (({ w with rq := [] } : W).softReset c).rq = []) (hl : (({ w with rq := [] } : W).softReset c).dev.log.lstate ≠ 4) :
    w.close = ({ w with rq := [] } : W).softReset c := by
  have e : W.serve 16 w = ({ w with rq := [] } : W).softReset c := by
    have a : W.serve 16 w = W.serve 15 (({ w with rq := [] } : W).serveOne (.soft c)) := by
      rw [W.serve, hq]
    rw [a]
    have b : ({ w with rq := [] } : W).serveOne (.soft c) = ({ w with rq := [] } : W).softReset c := if_neg hc
    rw [b]
    generalize ({ w with rq := [] } : W).softReset c = v at *
    simp [W.serve, hr]
  unfold W.close
  rw [e]
  have := W.close_quiet _ hr hl
  unfold W.close at this
  generalize ({ w with rq := [] } : W).softReset c = v at *
  have s : ∀ n, W.serve n v = v := fun n => by cases n <;> simp [W.serve, hr]
  rw [s] at this
  exact this

theorem map_soft (l : List Tenant) (u : Nat) : (l.map Tenant.softCleared).getD u {} = (l.getD u {}).softCleared := by
  simp only [List.getD_eq_getElem?_getD, List.getElem?_map]
  cases l[u]? <;> rfl

theorem noted_at (w : W) (fs : List (Nat × Nat × Nat)) (h4 : w.dev.log.lstate ≠ 4) : ∃ L st rp dr n o, (w.logT 0x15 fs).frozenReset none =
    { w with out := o, dev := { w.dev with log := L, sto := st, rpl := rp, sup := { w.dev.sup with dropped := dr }, freeCtr := n } } ∧ L.lstate ≠ 4 := by
  have l := W.logT_log w 0x15 fs []
  obtain ⟨n, F⟩ := frozenReset_log (w.logT 0x15 fs)
  generalize hv : (w.logT 0x15 fs).frozenReset none = v at *
  have lv : v.dev.log.lstate ≠ 4 := F.2 (l.2 h4)
  have F1 := F.1
  have l1 := l.1
  generalize w.logT 0x15 fs = u at *
  refine ⟨v.dev.log, v.dev.sto, v.dev.rpl, v.dev.sup.dropped, n, v.out, ?_, lv⟩
  rw [F1, l1]

theorem ten_lmod (l : List Tenant) (p u : Nat) (f : Tenant → Tenant) (h : u ≠ p) : (lmod l p f).getD u {} = l.getD u {} := by
  unfold lmod
  simp only [List.getD_eq_getElem?_getD, List.getElem?_modify]
  simp [show ¬ p = u by omega]

theorem ten_lmod_same (l : List Tenant) (p : Nat) (f : Tenant → Tenant) (h : p < l.length) : (lmod l p f).getD p {} = f (l.getD p {}) := by
  unfold lmod
  simp only [List.getD_eq_getElem?_getD, List.getElem?_modify]
  simp [List.getElem?_eq_getElem h]

theorem lmod_len {α : Type} (l : List α) (p : Nat) (f : α → α) : (lmod l p f).length = l.length := by unfold lmod; simp

theorem keyed_ten (x : Nat) (h : x < 65536) : keyed 0x7E4E x / 2 ^ 16 = 0x7E4E := by
  have : keyed 0x7E4E x = 0x7E4E0000 + x := rfl
  rw [this]; omega

theorem keyed_not (key : BitVec 16) (y : Nat) (h : key ≠ BitVec.ofNat 16 y) (x : Nat) (hx : x < 65536) (hy : y < 65536) : keyed key x / 2 ^ 16 ≠ y := by
  unfold keyed
  intro z
  apply h
  apply BitVec.eq_of_toNat_eq
  rw [BitVec.toNat_ofNat]
  have := key.isLt
  omega

theorem keepMsg_none (p : Nat) (l : Tbl Msg) : keepMsg p none l = l.filter (fun e => e.2.ten != p) := by
  have : keepMsg p none l = l.filterMap (fun e => if e.2.ten ≠ p then some e else none) := rfl
  rw [this]
  clear this
  induction l with
  | nil => rfl
  | cons a l ih =>
    rw [List.filterMap_cons, List.filter_cons, ih]
    by_cases h : a.2.ten = p <;> simp [h]

/-- A ticket with its message forgotten when it is tenant `p`'s. -/
def stripOf (p : Nat) (e : Nat × Ticket) : Nat × Ticket := if e.2.ten = p then (e.1, e.2.stripped) else e

theorem tkts_strip (d : Dev) (p : Nat) (l : Tbl Ticket) (st : TktState) :
    (l.map (stripOf p)).filter (fun k => k.2.st == st && k.2.ten == p) = (l.filter (fun k => k.2.st == st && k.2.ten == p)).map (stripOf p) := by
  rw [List.filter_map]
  congr 1
  apply List.filter_congr
  intro e _
  show ((stripOf p e).2.st == st && (stripOf p e).2.ten == p) = _
  unfold stripOf
  split <;> rfl

theorem tget_strip (p : Nat) (l : Tbl Ticket) (n : Nat) : tget ({} : Ticket) (l.map (stripOf p)) n = (stripOf p (n, tget {} l n)).2 := by
  have := tget_map ({} : Ticket) l (fun k => if k.ten = p then k.stripped else k) (by split <;> rfl) n
  have e : l.map (stripOf p) = l.map (fun e => (e.1, (fun k : Ticket => if k.ten = p then k.stripped else k) e.2)) := by
    congr 1
    funext e
    unfold stripOf
    dsimp only
    split <;> rfl
  rw [e, this]
  unfold stripOf
  dsimp only
  split <;> rfl

theorem tenReset_at (s : State) (p n : Nat) (k : Ticket) (h4 : s.dev.log.lstate ≠ 4) (hlen : p < s.dev.tens.length) (hrst : (s.dev.ten p).rst = none) (hq : (s.dev.ten p).queues = [[], [], [], []])
    (htqa : ∀ i, s.dev.tqaPick = some i → i / 4 ≠ p) (hunc : s.dev.uncrossed p = []) (hiss : s.dev.tktsOf p .issued = [(n, k)]) (hkb : k.board = true) (hk : s.dev.pool.tkt n = k)
    (hbuf : ∀ e ∈ s.dev.pool.bufs, e.2.owned = true → e.2.ten ≠ p) (hcap : s.dev.arb.capLeft s.dev.img.cfg p = true) (hal : s.dev.bar.bAlive = true) :
    ∃ L st rp dr m o T, L.lstate ≠ 4 ∧ (load s).tenReset p none = { load s with
      out := o
      dev := { s.dev with
        log := L, sto := st, rpl := rp, sup := { s.dev.sup with dropped := dr }, freeCtr := m
        rst := { s.dev.rst with tenResets := satAdd 8 s.dev.rst.tenResets 1 }
        pai := { s.dev.pai with tenResets := lmod s.dev.pai.tenResets p (fun n => (n + 1) % 256) }
        hpt := { s.dev.hpt with msgs := s.dev.hpt.msgs.filter (fun e => e.2.ten != p) }
        arb := { s.dev.arb.purge p [] with urgent := (s.dev.arb.purge p []).urgent ++ [({ body := .tabort p, ten := p, queue := 0 } : Pkt)] }
        pool := { s.dev.pool with tkts := s.dev.pool.tkts.map (stripOf p) }
        tens := T } } ∧
      (T.getD p {}).rst = some { await := [(n, k.icount)], op := none } ∧ (T.getD p {}).queues = [[], [], [], []] ∧ (T.getD p {}).tktUse = (s.dev.ten p).tktUse ∧ ∀ u, u ≠ p → T.getD u {} = s.dev.ten u := by
  obtain ⟨L, st, rp, dr, m, o, e, hL⟩ := noted_at (load s) [(6, 3, 1), (9, 3, p)] h4
  have ek : k.st = .issued ∧ k.ten = p := by
    have : (n, k) ∈ s.dev.tktsOf p .issued := by rw [hiss]; simp
    unfold Dev.tktsOf at this
    have := (List.mem_filter.mp this).2
    simp at this
    exact this
  refine ⟨L, st, rp, dr, m, o, ?_⟩
  have f0 : (load s).dev.ten p = s.dev.ten p := rfl
  unfold W.tenReset
  rw [if_neg (by rw [f0, hrst]; simp)]
  extract_lets w1 w2 w3 w4 gone w5 queued w6 w7 op w8 w9 w10 left w11 w12
  have e1 : w1 = load s := by
    simp only [w1]
    unfold W.maybeDead
    have : (load s).dev.tqaPick = s.dev.tqaPick := rfl
    rw [this]
    cases hp : s.dev.tqaPick with
    | none => rfl
    | some i => exact if_neg (htqa i hp)
  have e3 : w3 = { load s with out := o, dev := { s.dev with log := L, sto := st, rpl := rp, sup := { s.dev.sup with dropped := dr }, freeCtr := m, rst := { s.dev.rst with tenResets := satAdd 8 s.dev.rst.tenResets 1 } } } := by
    simp only [w3, w2]
    rw [e1]
    rw [e]; rfl
  have e4 : w4 = { load s with out := o, dev := { s.dev with log := L, sto := st, rpl := rp, sup := { s.dev.sup with dropped := dr }, freeCtr := m, rst := { s.dev.rst with tenResets := satAdd 8 s.dev.rst.tenResets 1 }, pai := { s.dev.pai with tenResets := lmod s.dev.pai.tenResets p (fun n => (n + 1) % 256) } } } := by
    simp only [w4]; rw [e3]; rfl
  have eg : gone = [] := by
    simp only [gone]; rw [e4]; exact hunc
  have e5 : w5 = { w4 with dev := { w4.dev with arb := s.dev.arb.purge p [] } } := by
    simp only [w5]; rw [eg, e4]; rfl
  have eq : queued = [] := by
    simp only [queued]; rw [e5, e4]
    show ((s.dev.ten p).queues).flatten = []
    rw [hq]; rfl
  let g6 : Tenant → Tenant := fun x => { x with queues := [[], [], [], []] }
  have e6 : w6 = { w5 with dev := { w5.dev with tens := lmod s.dev.tens p g6 } } := by
    simp only [w6]; rw [e5, e4]; rfl
  have e7 : w7 = { w6 with dev := { w6.dev with hpt := { s.dev.hpt with msgs := s.dev.hpt.msgs.filter (fun e => e.2.ten != p) } } } := by
    simp only [w7]; rw [← keepMsg_none, e6, e5, e4]; rfl
  let c := s.dev.img.cfg
  let g8 : Tenant → Tenant := fun x => { x with bufUse := x.bufUse - 0 }
  let g9 : Tenant → Tenant := fun x => { x with tdebt := x.tdebt && !debtOver x.tktUse (c.tktMin p), bdebt := x.bdebt && !debtOver x.bufUse (c.bufMin p) }
  have e8 : w8 = { w7 with dev := { w7.dev with pool := { s.dev.pool with tkts := s.dev.pool.tkts.map (stripOf p) }, tens := lmod (lmod (lmod s.dev.tens p g6) p g8) p g9 } } := by
    simp only [w8]
    unfold W.sweep
    have hb : (s.dev.pool.bufs.filter (fun (e : Nat × BufTag) => e.2.owned && e.2.ten == p)) = [] := by
      rw [List.filter_eq_nil_iff]
      intro e he
      simp only [Bool.and_eq_true, beq_iff_eq, not_and]
      exact hbuf e he
    have hb' : (w7.dev.pool.bufs.filter (fun (e : Nat × BufTag) => e.2.owned && e.2.ten == p)) = [] := by rw [e7, e6, e5, e4]; exact hb
    dsimp only
    rw [show ((w7.modPool (fun p' => { p' with tkts := p'.tkts.map (fun (e : Nat × Ticket) => if e.2.ten = p then (e.1, e.2.stripped) else e) })).dev.pool.bufs) = w7.dev.pool.bufs from rfl, hb']
    rw [e7, e6, e5, e4]
    unfold W.releaseBufs W.settle W.modPool W.modTen
    simp only [List.map_nil, List.append_nil, List.foldl_nil, List.length_nil]
    rfl
  have e9 : w9 = w8 := by simp only [w9]; rw [eq]; rfl
  have tk : ∀ d : Dev, d.pool = { s.dev.pool with tkts := s.dev.pool.tkts.map (stripOf p) } → d.tktsOf p .issued = [(n, k.stripped)] ∧ d.pool.tkt n = k.stripped := by
    intro d hd
    constructor
    · unfold Dev.tktsOf
      rw [hd]
      show (s.dev.pool.tkts.map (stripOf p)).filter _ = _
      rw [tkts_strip s.dev]
      have : s.dev.pool.tkts.filter (fun k => k.2.st == .issued && k.2.ten == p) = [(n, k)] := hiss
      rw [this]
      show [stripOf p (n, k)] = _
      unfold stripOf
      rw [if_pos ek.2]
    · rw [hd]
      show tget ({} : Ticket) (s.dev.pool.tkts.map (stripOf p)) n = _
      rw [tget_strip]
      have : tget ({} : Ticket) s.dev.pool.tkts n = k := hk
      rw [this]
      unfold stripOf
      rw [if_pos ek.2]
  have k9 := tk w9.dev (by rw [e9, e8])
  have e10 : w10 = w8 := by
    simp only [w10]
    rw [k9.1, eg]
    have : ([(n, k.stripped)].filter (fun (k : Nat × Ticket) => !k.2.board || ([] : List Nat).contains k.1)) = [] := by
      simp [hkb, Ticket.stripped]
    rw [this]; exact e9
  have el : left = [(n, k.icount)] := by
    simp only [left]
    rw [e10, ← e9, k9.1]; rfl
  let g10 : Tenant → Tenant := fun x => { x with rst := some { await := [(n, k.icount)], op := none } }
  have e11 : w11 = { w8 with dev := { w8.dev with tens := lmod (lmod (lmod (lmod s.dev.tens p g6) p g8) p g9) p g10 } } := by
    simp only [w11]
    rw [el, e10, e8]; rfl
  have e12 : w12 = { w11 with dev := { w11.dev with arb := { s.dev.arb.purge p [] with urgent := (s.dev.arb.purge p []).urgent ++ [({ body := .tabort p, ten := p, queue := 0 } : Pkt)] } } } := by
    simp only [w12]
    have ha : w11.dev.bar.bAlive = true := by rw [e11, e8, e7, e6, e5, e4]; exact hal
    rw [if_pos ha]
    unfold W.sendAbort
    have hcap' : w11.dev.arb.capLeft w11.cfg p = true := by rw [e11, e8, e7, e6, e5, e4]; exact hcap
    dsimp only
    rw [if_pos hcap']
    rw [e11, e8, e7, e6, e5, e4]; rfl
  let g13 : Tenant → Tenant := fun x => { x with rst := some { await := [(n, k.icount)], op := none } }
  have ll : ∀ (l : List Tenant) (f : Tenant → Tenant), p < l.length → p < (lmod l p f).length := fun l f h => by rw [lmod_len]; exact h
  have t4 : (lmod (lmod (lmod (lmod s.dev.tens p g6) p g8) p g9) p g10).getD p {} = g10 (g9 (g8 (g6 (s.dev.ten p)))) := by
    rw [ten_lmod_same _ _ _ (ll _ _ (ll _ _ (ll _ _ hlen))), ten_lmod_same _ _ _ (ll _ _ (ll _ _ hlen)), ten_lmod_same _ _ _ (ll _ _ hlen), ten_lmod_same _ _ _ hlen]; rfl
  have e13 : w12.tenCheck p = { w12 with dev := { w12.dev with tens := lmod (lmod (lmod (lmod (lmod s.dev.tens p g6) p g8) p g9) p g10) p g13 } } := by
    have tens12 : w12.dev.tens = lmod (lmod (lmod (lmod s.dev.tens p g6) p g8) p g9) p g10 := by rw [e12, e11]
    have r12 : (w12.dev.ten p).rst = some { await := [(n, k.icount)], op := none } := by
      show (w12.dev.tens.getD p {}).rst = _
      rw [tens12, t4]
    have k12 := (tk w12.dev (by rw [e12, e11, e8])).2
    unfold W.tenCheck
    rw [r12]
    have fl : ([(n, k.icount)].filter (fun e => decide ((w12.dev.pool.tkt e.1).st = .issued) && (w12.dev.pool.tkt e.1).icount == e.2)) = [(n, k.icount)] := by
      simp [k12, Ticket.stripped, ek.1]
    simp only [fl]
    unfold W.modTen
    rw [tens12]
    rfl
  refine ⟨lmod (lmod (lmod (lmod (lmod s.dev.tens p g6) p g8) p g9) p g10) p g13, hL, ?_, ?_⟩
  · rw [e13, e12, e11, e8, e7, e6, e5, e4]
  · have t5 : (lmod (lmod (lmod (lmod (lmod s.dev.tens p g6) p g8) p g9) p g10) p g13).getD p {} = g13 (g10 (g9 (g8 (g6 (s.dev.ten p))))) := by
      rw [ten_lmod_same _ _ _ (ll _ _ (ll _ _ (ll _ _ (ll _ _ hlen)))), t4]
    rw [t5]
    refine ⟨rfl, rfl, rfl, ?_⟩
    intro u hu
    rw [ten_lmod _ _ _ _ hu, ten_lmod _ _ _ _ hu, ten_lmod _ _ _ _ hu, ten_lmod _ _ _ _ hu, ten_lmod _ _ _ _ hu]; rfl

theorem finish_facts (w : W) (p : Nat) (r : TenRst) (ho : r.op = none) :
    (w.tenFinish p r).rq = w.rq ∧ (w.dev.log.lstate ≠ 4 → (w.tenFinish p r).dev.log.lstate ≠ 4) ∧
    (w.tenFinish p r).dev.tens = lmod w.dev.tens p (fun x => { x with rst := none, streams := [], tdebt := false, bdebt := false, tktUse := 0, queues := [[], [], [], []], gen := if w.dev.img.woven then (w.cfg.ten p).gen else x.gen }) ∧
    (w.tenFinish p r).dev.hpt.rq = w.dev.hpt.rq.filter (fun x => x.ten != p) ∧ (w.tenFinish p r).dev.pool = w.dev.pool ∧ (w.tenFinish p r).dev.bd = w.dev.bd ∧ (w.tenFinish p r).bout = w.bout ∧ (w.tenFinish p r).blow = w.blow := by
  -- a relation that every later step keeps
  let K := fun (a b : W) => b.rq = a.rq ∧ (a.dev.log.lstate ≠ 4 → b.dev.log.lstate ≠ 4) ∧ b.dev.tens = a.dev.tens ∧ b.dev.hpt.rq = a.dev.hpt.rq ∧ b.dev.pool = a.dev.pool ∧ b.dev.bd = a.dev.bd ∧ b.bout = a.bout ∧ b.blow = a.blow
  have Kt : ∀ a b c, K a b → K b c → K a c := fun a b c h k =>
    ⟨k.1.trans h.1, k.2.1 ∘ h.2.1, k.2.2.1.trans h.2.2.1, k.2.2.2.1.trans h.2.2.2.1, k.2.2.2.2.1.trans h.2.2.2.2.1, k.2.2.2.2.2.1.trans h.2.2.2.2.2.1, k.2.2.2.2.2.2.1.trans h.2.2.2.2.2.2.1, k.2.2.2.2.2.2.2.trans h.2.2.2.2.2.2.2⟩
  have Kg : ∀ a : W, K a a.regroup := by
    intro a
    unfold W.regroup W.control
    dsimp only
    repeat' split
    all_goals exact ⟨rfl, id, rfl, rfl, rfl, rfl, rfl, rfl⟩
  unfold W.tenFinish
  extract_lets c w1 w2 w3 w4 w5 w6
  have k3 : K w2 w3 := Kt _ _ _ (by exact ⟨rfl, id, rfl, rfl, rfl, rfl, rfl, rfl⟩) (Kg (w2.modFlt (fun f => f.dropDomain p)))
  have k4 : K w2 w4 := Kt _ _ _ k3 ⟨rfl, id, rfl, rfl, rfl, rfl, rfl, rfl⟩
  have k5 : K w2 w5 := Kt _ _ _ k4 ⟨rfl, id, rfl, rfl, rfl, rfl, rfl, rfl⟩
  have e6 : w6 = w5 := by simp only [w6, ho]
  have k7 : ∀ z : W, K w5 z → K w2 z := fun z h => Kt _ _ _ k5 h
  have base : ∀ z : W, K w2 z → z.rq = w.rq ∧ (w.dev.log.lstate ≠ 4 → z.dev.log.lstate ≠ 4) ∧
    z.dev.tens = lmod w.dev.tens p (fun x => { x with rst := none, streams := [], tdebt := false, bdebt := false, tktUse := 0, queues := [[], [], [], []], gen := if w.dev.img.woven then (w.cfg.ten p).gen else x.gen }) ∧
    z.dev.hpt.rq = w.dev.hpt.rq.filter (fun x => x.ten != p) ∧ z.dev.pool = w.dev.pool ∧ z.dev.bd = w.dev.bd ∧ z.bout = w.bout ∧ z.blow = w.blow := fun z h => h
  split
  · rw [e6]
    exact base _ (k7 _ (Kt _ _ _ (by exact ⟨rfl, id, rfl, rfl, rfl, rfl, rfl, rfl⟩) (Kg _)))
  · rw [e6]
    exact base _ k5

end Sys2Proof.Machine
end

