-- ==== Sys2Proof/Laws/LifeCycle.lean ====
section
/-! SUPPORT. The TAP, the life cycle and the debug port. -/

namespace Sys2Proof.Machine

theorem evalPort_rest (w : W) (p : RPort) (h : (w.portsOn && (w.dev.ring.port p).en) = ((w.dev.ring.port p).st != 0)) : w.evalPort p = w := by
  unfold W.evalPort
  dsimp only
  rw [h]
  cases e : (w.dev.ring.port p).st != 0 <;> simp_all

theorem evalPorts_rest (w : W) (h : ∀ p, (w.portsOn && (w.dev.ring.port p).en) = ((w.dev.ring.port p).st != 0)) : w.evalPorts = w := by
  unfold W.evalPorts
  rw [evalPort_rest w .up (h .up), evalPort_rest w .dn (h .dn)]

/-- The fuse state with the TAP reset. -/
def tapReset (g : Fuse) : Fuse := { g with dbgOpen := false, chalHeld := false, chalLive := false, tdo := [] }

theorem tap_runs (s : State) (op : Nat) (f : W → W) (m : s.dev.fus.may op = true) (h : s.portsRest op) :
    (load s).tap op f = f { load s with dev.fus := { tapReset s.dev.fus with inst := op } } := by
  unfold W.tap
  have m' : ((load s).modFus (fun x => { x with dbgOpen := false, chalHeld := false, chalLive := false, tdo := [] })).dev.fus.may op = true := m
  dsimp only
  rw [if_pos m', evalPorts_rest]
  · rfl
  · exact h

theorem tap_refused (s : State) (op : Nat) (f : W → W) (m : s.dev.fus.may op = false) (h : s.portsRest 0x3F) :
    (load s).tap op f = { load s with dev.fus := { tapReset s.dev.fus with inst := 0x3F, tapRefused := true } } := by
  unfold W.tap
  have m' : ¬ ((load s).modFus (fun x => { x with dbgOpen := false, chalHeld := false, chalLive := false, tdo := [] })).dev.fus.may op = true := by
    intro x; rw [show ((load s).modFus _).dev.fus.may op = s.dev.fus.may op from rfl, m] at x; exact Bool.false_ne_true x
  dsimp only
  rw [if_neg m', evalPorts_rest]
  · rfl
  · exact h

theorem may_pins (g : Fuse) (op : Nat) (h : op = 0 ∨ op = 3 ∨ op = 4) : g.may op = (g.lcs != 2 || g.prot.getLsbD 1) := by
  unfold Fuse.may; rw [if_pos h]

theorem may_listed (g : Fuse) (op : Nat) (h : op = 1 ∨ op = 2 ∨ op = 0x10 ∨ op = 0x3F) : g.may op = true := by
  unfold Fuse.may
  rcases h with rfl | rfl | rfl | rfl <;> rfl

theorem stageHeader_sto (w : W) : ∃ x, w.stageHeader = { w with dev.sto := x } := by
  unfold W.stageHeader
  dsimp only
  split
  · exact ⟨_, rfl⟩
  · exact ⟨_, rfl⟩

end Sys2Proof.Machine
end

