-- ==== Sys2Proof/Laws/Faults.lean ====
section
/-! SUPPORT. What the fault commands do to the collector. -/

namespace Sys2Proof.Machine

theorem validDom_of {x d : Nat} (h : if tenantSrc x then d < 5 else d = 5) : validDom x d = true := by
  unfold validDom
  by_cases k : tenantSrc x = true
  · rw [if_pos k] at h ⊢; exact decide_eq_true h
  · rw [if_neg k] at h ⊢; rw [h]; rfl

theorem fltRaise_go (s : State) (x d det a : Nat) (r : s.rack) (h : (if tenantSrc x then d < 5 else d = 5)) :
    (load s).faultRaise x d det a = (load s).raise x d { detail := det, addr := a, ten := tenOfDom d } := by
  unfold W.faultRaise
  rw [if_neg]
  have l : (load s).dev.log.lstate ≠ 4 := r.2
  have v : validDom x d = true := validDom_of h
  rw [v, show ((load s).dev.log.lstate == 4) = false by simpa using l]
  simp

theorem raise_none (s : State) (x d : Nat) (i : RaiseInfo) (h : reservedSrc x = true ∨ s.dev.flt.wired x = true) : (load s).raise x d i = load s := by
  unfold W.raise
  exact if_pos (by
    show (reservedSrc x || s.dev.flt.wired x) = true
    rcases h with h | h <;> simp [h])

theorem raises_next (s : State) (x d : Nat) (i : RaiseInfo) (f : W → W) (r : s.rack) (e : f (load s) = (load s).raise x d i) (c : Nat) (esc : Bool)
    (k : (load s).decision x d i.wire = .fresh c esc) (hc : c ≤ 1) (hr : reservedSrc x = false) (hw : s.dev.flt.wired x = false) (n : s.noReset x d c) :
    ∃ t, rackRun f s = .next t ∧ (t = s.raised t ∧ s.captured t x d i c esc (s.activated x d c esc)) := by
  have cl : (load s).calm x d ((load s).decision x d i.wire) := by rw [k]; exact .inr ⟨c, esc, rfl, by omega, n⟩
  have R := W.raise_raise (load s) x d i cl
  rw [← e] at R
  refine ⟨_, rackRun_next (f := f) r (R.ends rfl r.2), commit_raised s (load s) _ R, ?_⟩
  refine State.captured_of s (load s) x d i _ rfl rfl rfl c esc k (by omega) hr hw ?_
  exact congrArg (fun w => w.dev.flt) e

theorem again_next (s : State) (x d : Nat) (i : RaiseInfo) (f : W → W) (r : s.rack) (e : f (load s) = (load s).raise x d i) (c : Nat) (esc : Bool)
    (k : (load s).decision x d i.wire = .again c esc) (hr : reservedSrc x = false) (hw : s.dev.flt.wired x = false) :
    ∃ t, rackRun f s = .next t ∧ (t = s.raised t ∧ s.captured t x d i c esc s.dev.flt.slots) := by
  have cl : (load s).calm x d ((load s).decision x d i.wire) := by rw [k]; exact .inl ⟨c, esc, rfl⟩
  have R := W.raise_raise (load s) x d i cl
  rw [← e] at R
  refine ⟨_, rackRun_next (f := f) r (R.ends rfl r.2), commit_raised s (load s) _ R, ?_⟩
  refine State.captured_again s (load s) x d i _ rfl rfl c esc k hr hw ?_
  exact congrArg (fun w => w.dev.flt) e

theorem raise_fatalUnit (w : W) (x : Nat) (i : RaiseInfo) (k : w.decision x dUnit i.wire = .fresh 2 false) (hr : reservedSrc x = false) (hw : w.dev.flt.wired x = false) :
    ({ w with rq := w.rq ++ [.baton] } : W).SameButRaise (w.raise x dUnit i) := by
  unfold W.raise
  rw [if_neg (by rw [hr, hw]; simp)]
  dsimp only
  rw [k]
  have A := w.record_raise x dUnit i (.fresh 2 false)
  generalize w.record x dUnit i (.fresh 2 false) = v at *
  have B : ({ w with rq := w.rq ++ [.baton] } : W).SameButRaise (v.reactTo x dUnit (.fresh 2 false)) := by
    show W.SameButRaise _ (v.react x dUnit 2 false)
    unfold W.react
    dsimp only
    rw [if_neg (by simp), if_pos rfl]
    have g : v.SameButRaise { v with dev.flt := v.dev.flt.setSlot dUnit 2 { st := 1, src := x, t0 := v.mono, esc := false, word := v.cfg.flt.react' x dUnit 2 } } := ⟨rfl, id, List.prefix_rfl⟩
    have C := (A.trans g).trans (W.regroup_raise _)
    generalize W.regroup _ = u at *
    refine ⟨?_, C.2.1, C.2.2⟩
    have := C.1
    unfold W.ask
    generalize hu : u = u' at this ⊢
    rw [this]
  exact (B.trans (W.notices_raise _ _ _ _ _ _)).trans (W.classTrigger_raise _ _)

theorem packN_fit (a b k m x y : Nat) : True := trivial

theorem ack_fields (x : BitVec 7) (dc : BitVec 3) : fld (ackValue x dc) 0 7 = x.toNat ∧ fld (ackValue x dc) 8 3 = dc.toNat := by
  revert x dc; decide

theorem force_fields (x : BitVec 7) (dc : BitVec 3) : ∀ k, k = 1 ∨ k = 2 ∨ k = 3 → fld (forceValue x k dc) 0 7 = x.toNat ∧ fld (forceValue x k dc) 8 2 = k ∧ fld (forceValue x k dc) 12 3 = dc.toNat := by
  intro k h
  rcases h with rfl | rfl | rfl <;> (revert x dc; decide)

theorem fatal_may (s : State) (t : Ten) (a : Nat) (h : s.dev.flt.fatal = false ∨ t = 4) (l : 0x80000 ≤ a) (u : a < 0x90000) : (load s).fatalBars t.val a = false := by
  unfold W.fatalBars
  rcases h with h | h
  · rw [show (load s).dev.flt.fatal = false from h]; rfl
  · subst h
    rw [show ((((4 : Ten).val == 4) && ((decide (0x2000 ≤ a) && decide (a < 0x3000)) || (decide (0x80000 ≤ a) && decide (a < 0x90000))))) = true by simp [l, u]]
    simp

theorem flt_act (s : State) (t : Ten) (a v : Nat) (hb : s.dev.barred t.val = false) (h : s.dev.flt.fatal = false ∨ t = 4) (l : 0x80000 ≤ a) (u : a < 0x90000) (q : a % 4 = 0) (x : W) (st : Nat)
    (k : (load s).fltWrite t.val (a - 0x80000) v false = (x, st)) : (load s).act t.val a v = x.ack st := by
  refine act_done _ _ _ _ hb x st ?_
  rw [regWrite_flt _ _ _ _ _ _ (rackWord_low a q (by omega)) (fatal_may s t a h l u) l u, k]
  rfl

theorem flt_fatal (s : State) (t : Ten) (a v : Nat) (hb : s.dev.barred t.val = false) (h : (load s).fatalBars t.val a = true) : (load s).act t.val a v = (load s).ack stDENIED := by
  refine act_done _ _ _ _ hb (load s) stDENIED ?_
  unfold W.regWrite
  rw [if_pos (Or.inr (Or.inr (Or.inr h)))]

theorem keyed_toNat (k : BitVec 16) : k.toNat % 65536 = k.toNat := Nat.mod_eq_of_lt k.isLt

theorem clearSource_at (w : W) (n d : Nat) (hs : w.dev.flt.stopOf d = []) : w.SameButRaise (w.clearSource n d) ∧
    (w.clearSource n d).dev.flt.caps = (if (tget ({} : Capture) w.dev.flt.caps n).held then tput w.dev.flt.caps n { tget ({} : Capture) w.dev.flt.caps n with held := false } else w.dev.flt.caps) ∧
    (w.clearSource n d).dev.flt.hstop = tdel w.dev.flt.hstop d ∧
    (w.clearSource n d).dev.flt.slots = w.dev.flt.slots.map (fun e => if e.1 / 3 = d ∧ e.2.src = n ∧ e.2.st ≠ 0 then (e.1, {}) else e) := by
  unfold W.clearSource
  dsimp only
  have R := W.regroup_raise (w.modFlt (fun f => f.dropSource n d))
  have F := W.regroup_flt (w.modFlt (fun f => f.dropSource n d))
  generalize W.regroup _ = v at *
  have L := v.logEvent_raise
  have G := v.logEvent_flt
  refine ⟨W.SameButRaise.trans (W.SameButRaise.trans (by exact ⟨rfl, id, List.prefix_rfl⟩) R) (L _), ?_, ?_, ?_⟩
  · rw [G, F]; rfl
  · rw [G, F]
    show (w.dev.flt.dropSource n d).hstop = _
    unfold Faults.dropSource
    rw [hs]; rfl
  · rw [G, F]
    show w.dev.flt.slots.map _ = _
    congr 1
    funext e
    by_cases a : e.1 / 3 = d <;> by_cases b : e.2.src = n <;> by_cases c : e.2.st = 0 <;> simp [a, b, c]

theorem act_part (s : State) (t : Ten) (x : BitVec 7) (dc : BitVec 3) (d : Nat) (r : s.rack) (may : s.dev.barred t.val = false ∧ (s.dev.flt.fatal = false ∨ t = 4)) (hs : s.dev.flt.stopped dUnit = false) :
    let f := s.dev.flt
    let n := x.toNat
    let named := domOf dc.toNat = some d
    (domOf dc.toNat = none ∨ f.wired n = true ∨ (named ∧ t ≠ 4 ∧ (t.val ≠ d ∨ f.tenantF n d = true)) → exec (.fltAck t x dc) s = .next s.denied) ∧
      (named → f.wired n = false → t = 4 ∨ (t.val = d ∧ f.tenantF n d = false) → f.holds n d = false → exec (.fltAck t x dc) s = .next s.okAcc) ∧
      (named → f.wired n = false → t = 4 ∨ (t.val = d ∧ f.tenantF n d = false) → f.holds n d = true → f.stopOf d = [] →
        Does (.fltAck t x dc) s (fun u => u = s.okAcc.raised u ∧ u.dev.flt.caps = (if (tget ({} : Capture) f.caps n).held then tput f.caps n { tget ({} : Capture) f.caps n with held := false } else f.caps) ∧ u.dev.flt.hstop = tdel f.hstop d ∧
          u.dev.flt.slots = f.slots.map (fun e => if e.1 / 3 = d ∧ e.2.src = n ∧ e.2.st ≠ 0 then (e.1, {}) else e))) := by
  intro f n named
  obtain ⟨k1, k2⟩ := ack_fields x dc
  have go : ∀ (y : W) (st : Nat), (load s).fltAck t.val n dc.toNat = (y, st) → (load s).act t.val 0x80008 (ackValue x dc) = y.ack st := by
    intro y st h
    refine flt_act s t 0x80008 _ may.1 may.2 (by omega) (by omega) (by omega) y st ?_
    unfold W.fltWrite
    rw [if_pos (by omega), k1, k2]; exact h
  have ma : ∀ (h : t = 4 ∨ (t.val = d ∧ f.tenantF n d = false)), f.mayAck t.val n d = true := by
    intro h
    unfold Faults.mayAck
    rcases h with h | h
    · subst h; rfl
    · rw [h.1, h.2]; simp
  refine ⟨?_, ?_, ?_⟩
  · intro h
    refine rackRun_next r (f := fun w => w.act t.val 0x80008 (ackValue x dc)) (v := (load s).ack stDENIED) ⟨go _ _ ?_, rfl, r.2⟩
    unfold W.fltAck
    cases hd : domOf dc.toNat with
    | none => rfl
    | some e =>
      dsimp only
      refine if_pos ?_
      show ((load s).dev.flt.stopped dUnit || !f.mayAck t.val n e || f.wired n) = true
      rcases h with h | h | ⟨h, h4, k⟩
      · rw [hd] at h; cases h
      · rw [h]; simp
      · have : e = d := by have := h; simp only [named, hd, Option.some.injEq] at this; exact this
        subst this
        have : f.mayAck t.val n e = false := by
          unfold Faults.mayAck
          have h4 : ¬ t.val = 4 := fun y => h4 (Fin.ext y)
          rcases k with k | k <;> simp [h4, k]
        rw [this]; simp
  · intro h hw k hh
    refine rackRun_next r (f := fun w => w.act t.val 0x80008 (ackValue x dc)) (v := (load s).ack stOK) ⟨go _ _ ?_, rfl, r.2⟩
    unfold W.fltAck
    rw [show domOf dc.toNat = some d from h]
    dsimp only
    rw [if_neg (by show ¬ (f.stopped dUnit || !f.mayAck t.val n d || f.wired n) = true; rw [ma k, show f.stopped dUnit = false from hs, hw]; simp), if_neg (by show ¬ f.holds n d = true; rw [hh]; simp)]
  · intro h hw k hh so
    obtain ⟨C, c1, c2, c3⟩ := clearSource_at (load s) n d so
    have e : (load s).fltAck t.val n dc.toNat = ((load s).clearSource n d, stOK) := by
      unfold W.fltAck
      rw [show domOf dc.toNat = some d from h]
      dsimp only
      rw [if_neg (by show ¬ (f.stopped dUnit || !f.mayAck t.val n d || f.wired n) = true; rw [ma k, show f.stopped dUnit = false from hs, hw]; simp), if_pos (show (load s).dev.flt.holds n d = true from hh)]
    have E := go _ _ e
    generalize (load s).clearSource n d = v at *
    have R : ((load s).ack stOK).SameButRaise ((load s).act t.val 0x80008 (ackValue x dc)) := by
      rw [E]
      refine ⟨?_, C.2.1, C.2.2⟩
      have := C.1
      unfold W.ack
      generalize hu : v = u at this ⊢
      rw [this]
    refine ⟨_, rackRun_next (f := fun w => w.act t.val 0x80008 (ackValue x dc)) r (R.ends rfl r.2), commit_raised s ((load s).ack stOK) _ R, ?_⟩
    have : (commit s ((load s).act t.val 0x80008 (ackValue x dc))).dev.flt = v.dev.flt := by
      show ((load s).act t.val 0x80008 (ackValue x dc)).dev.flt = _
      rw [E]; rfl
    rw [this]
    exact ⟨c1, c2, c3⟩

theorem force_part (s : State) (t : Ten) (x : BitVec 7) (dc : BitVec 3) (d : Nat) (r : s.rack) (may : s.dev.barred t.val = false ∧ (s.dev.flt.fatal = false ∨ t = 4)) (hs : s.dev.flt.stopped dUnit = false) :
    let f := s.dev.flt
    let n := x.toNat
    let key := s.dev.fus.lcs ≠ 2 ∨ (s.dev.fus.prot.getLsbD 12 = false ∧ f.fkey = 2 ∧ s.dev.tim.mono ≤ f.fkeyT + 1000000)
    let forces := t = 4 ∧ s.dev.fus.lcs ≠ 3 ∧ key
    let named := domOf dc.toNat = some d
    let open' : State := { s with dev.flt.fkey := 0 }
    let raises := (if tenantSrc n then d < 5 else d = 5) ∧ reservedSrc n = false ∧ f.wired n = false
    let i : RaiseInfo := { forced := true, ten := if d < 5 then d else 7 }
    let eff := s.dev.img.cfg.flt.effClass n
    (¬ forces ∨ domOf dc.toNat = none ∨ reservedSrc n = true → exec (.forceRaise t x dc) s = .next open'.denied ∧ exec (.forceWire00 t x dc) s = .next open'.denied ∧ exec (.forceWire11 t x dc) s = .next open'.denied) ∧
      (boardSrc n = true → exec (.forceWire00 t x dc) s = .next open'.denied ∧ exec (.forceWire11 t x dc) s = .next open'.denied) ∧
      (forces → named → raises → eff ≤ 1 → (f.slot d eff).st = 0 → s.noReset n d eff →
        Does (.forceRaise t x dc) s (fun u => u = open'.okAcc.raised u ∧ open'.captured u n d i eff false (s.activated n d eff false))) ∧
      (forces → named → raises → boardSrc n = false → eff ≤ 1 → (f.slot d 1).st = 0 → s.noReset n d 1 → ∀ c, c = Instr.forceWire00 t x dc ∨ c = Instr.forceWire11 t x dc →
        Does c s (fun u => u = open'.okAcc.raised u ∧ u.dev.flt.wires = tdel (tput f.wires n d) n ∧ u.dev.flt.slots = s.activated n d 1 false)) := by
  intro f n key forces named open' raises i eff
  let w0 : W := load open'
  have go : ∀ k, (k = 1 ∨ k = 2 ∨ k = 3) → ∀ (y : W) (st : Nat), (load s).forceWrite t.val n k dc.toNat false = (y, st) → (load s).act t.val 0x80034 (forceValue x k dc) = y.ack st := by
    intro k hk y st h
    refine flt_act s t 0x80034 _ may.1 may.2 (by omega) (by omega) (by omega) y st ?_
    obtain ⟨k1, k2, k3⟩ := force_fields x dc k hk
    unfold W.fltWrite
    rw [if_neg (by omega), if_neg (by omega), if_pos (by omega), k1, k2, k3]; exact h
  have mf : forces ↔ (load s).mayForce t.val false = true := by
    show (t = 4 ∧ s.dev.fus.lcs ≠ 3 ∧ (s.dev.fus.lcs ≠ 2 ∨ (s.dev.fus.prot.getLsbD 12 = false ∧ s.dev.flt.fkey = 2 ∧ s.dev.tim.mono ≤ s.dev.flt.fkeyT + 1000000))) ↔ _
    have t4 : t = 4 ↔ t.val = 4 := ⟨fun h => by rw [h]; rfl, fun h => Fin.ext h⟩
    rw [t4]
    unfold W.mayForce
    show _ ↔ (match s.dev.fus.lcs with
      | 2 => t.val == 4 && !false && !s.dev.fus.prot.getLsbD 12 && s.dev.flt.fkey == 2 && decide (s.dev.tim.mono ≤ s.dev.flt.fkeyT + 1000000)
      | 3 => false && s.dev.fus.vdbg
      | _ => t.val == 4) = true
    split
    · rename_i h; rw [h]; simp only [ne_eq, Bool.and_eq_true, beq_iff_eq, Bool.not_eq_true', decide_eq_true_eq]; simp; tauto
    · rename_i h; rw [h]; simp
    · rename_i h2 h3
      have h2 : s.dev.fus.lcs ≠ 2 := fun y => h2 y
      have h3 : s.dev.fus.lcs ≠ 3 := fun y => h3 y
      simp [h2, h3]
  have den : ∀ k, (k = 1 ∨ k = 2 ∨ k = 3) → (¬ forces ∨ domOf dc.toNat = none ∨ reservedSrc n = true ∨ (k ≠ 1 ∧ boardSrc n = true)) → (load s).forceWrite t.val n k dc.toNat false = (w0, stDENIED) := by
    intro k hk h
    unfold W.forceWrite
    cases hd : domOf dc.toNat with
    | none => rfl
    | some e =>
      dsimp only
      refine (if_pos ?_).trans rfl
      have g : ∀ b, ¬ forces → (!((load s).mayForce t.val false && b)) = true := by
        intro b h; rw [mf] at h; rw [show (load s).mayForce t.val false = false by simpa using h]; rfl
      rcases h with h | h | h | h
      · rw [g _ h]; simp
      · rw [hd] at h; cases h
      · rw [h]; simp
      · rw [h.2, show (k != 1) = true by simpa using h.1]; simp
  have acc : ∀ k, (k = 1 ∨ k = 2 ∨ k = 3) → forces → named → raises → (k = 1 ∨ boardSrc n = false) → (load s).forceWrite t.val n k dc.toNat false = (w0.forceNow n k d, stOK) := by
    intro k hk h hn hr hb
    unfold W.forceWrite
    rw [show domOf dc.toNat = some d from hn]
    dsimp only
    refine (if_neg ?_).trans rfl
    rw [mf.mp h, show (load s).dev.flt.stopped dUnit = false from hs, hr.2.1, validDom_of hr.1]
    rcases hb with hb | hb
    · rw [hb]; simp
    · rw [hb]; rcases hk with hk | hk | hk <;> rw [hk] <;> simp
  have D : ∀ (c : Instr) k, (k = 1 ∨ k = 2 ∨ k = 3) → exec c s = writeRun t 0x80034 (forceValue x k dc) s → (¬ forces ∨ domOf dc.toNat = none ∨ reservedSrc n = true ∨ (k ≠ 1 ∧ boardSrc n = true)) → exec c s = .next open'.denied := by
    intro c k hk hc h
    rw [hc]
    exact rackRun_next r (f := fun w => w.act t.val 0x80034 (forceValue x k dc)) (v := w0.ack stDENIED) ⟨go k hk _ _ (den k hk h), rfl, r.2⟩
  have FIN : ∀ (c : Instr) k (v : W), (k = 1 ∨ k = 2 ∨ k = 3) → exec c s = writeRun t 0x80034 (forceValue x k dc) s → (load s).forceWrite t.val n k dc.toNat false = (v, stOK) → w0.SameButRaise v →
      ∃ u, exec c s = .next u ∧ u = open'.okAcc.raised u ∧ u.dev.flt = v.dev.flt := by
    intro c k v hk hc e R0
    rw [hc]
    have E := go k hk _ _ e
    have R : (w0.ack stOK).SameButRaise ((load s).act t.val 0x80034 (forceValue x k dc)) := by
      rw [E]
      refine ⟨?_, R0.2.1, R0.2.2⟩
      have := R0.1
      unfold W.ack
      generalize hu : v = u at this ⊢
      rw [this]
    refine ⟨_, rackRun_next (f := fun w => w.act t.val 0x80034 (forceValue x k dc)) r (R.ends rfl r.2), commit_raised s (w0.ack stOK) _ R, ?_⟩
    show ((load s).act t.val 0x80034 (forceValue x k dc)).dev.flt = _
    rw [E]; rfl
  refine ⟨?_, ?_, ?_, ?_⟩
  · intro h
    have g : ∀ k, ¬ forces ∨ domOf dc.toNat = none ∨ reservedSrc n = true ∨ (k ≠ 1 ∧ boardSrc n = true) := fun k => by
      rcases h with h | h | h
      · exact .inl h
      · exact .inr (.inl h)
      · exact .inr (.inr (.inl h))
    exact ⟨D (.forceRaise t x dc) 1 (.inl rfl) rfl (g 1), D (.forceWire00 t x dc) 2 (.inr (.inl rfl)) rfl (g 2), D (.forceWire11 t x dc) 3 (.inr (.inr rfl)) rfl (g 3)⟩
  · intro h
    exact ⟨D (.forceWire00 t x dc) 2 (.inr (.inl rfl)) rfl (.inr (.inr (.inr ⟨by decide, h⟩))), D (.forceWire11 t x dc) 3 (.inr (.inr rfl)) rfl (.inr (.inr (.inr ⟨by decide, h⟩)))⟩
  · intro h hn hr h1 h2 nr
    have e := acc 1 (by simp) h hn hr (.inl rfl)
    have k : w0.decision n d false = .fresh eff false := w0.decision_clear _ _ false eff rfl h1 h2
    have cl : w0.calm n d (w0.decision n d i.wire) := by
      show W.calm _ _ _ (w0.decision n d false)
      rw [k]; exact .inr ⟨eff, false, rfl, by omega, nr⟩
    have fe : w0.forceNow n 1 d = w0.raise n d i := if_pos rfl
    rw [fe] at e
    obtain ⟨u, u1, u2, u3⟩ := FIN (.forceRaise t x dc) 1 _ (.inl rfl) rfl e (W.raise_raise w0 n d i cl)
    refine ⟨u, u1, u2, ?_⟩
    exact State.captured_of open' w0 n d i u rfl rfl rfl eff false k (by omega) hr.2.1 hr.2.2 u3
  · intro h hn hr hb h1 h2 nr c hc
    obtain ⟨kk, hk, hc⟩ : ∃ k, (k = 2 ∨ k = 3) ∧ exec c s = writeRun t 0x80034 (forceValue x k dc) s := by
      rcases hc with hc | hc
      · exact ⟨2, .inl rfl, by rw [hc]; rfl⟩
      · exact ⟨3, .inr rfl, by rw [hc]; rfl⟩
    have hk' : kk = 1 ∨ kk = 2 ∨ kk = 3 := by omega
    have e := acc kk hk' h hn hr (.inr hb)
    let wi : RaiseInfo := { wire := true, forced := true, ten := if d < 5 then d else 7 }
    have k : w0.decision n d true = .fresh 1 false := w0.decision_clear _ _ true 1 (by show max eff 1 = 1; omega) (by omega) h2
    have cl : w0.calm n d (w0.decision n d wi.wire) := by
      show W.calm _ _ _ (w0.decision n d true)
      rw [k]; exact .inr ⟨1, false, rfl, by omega, nr⟩
    have fe : w0.forceNow n kk d = (w0.raise n d wi).wireClear n := by
      unfold W.forceNow
      rw [if_neg (by omega), if_neg (by show ¬ f.wired n = true; rw [hr.2.2]; simp)]
      rfl
    rw [fe] at e
    have R := W.raise_raise w0 n d wi cl
    have G := State.captured_of open' w0 n d wi (commit s (w0.raise n d wi)) rfl rfl rfl 1 false k (by omega) hr.2.1 hr.2.2 rfl
    have G : (w0.raise n d wi).dev.flt = _ := G
    obtain ⟨u, u1, u2, u3⟩ := FIN c kk _ hk' hc e (R.trans ⟨rfl, id, List.prefix_rfl⟩)
    refine ⟨u, u1, u2, ?_, ?_⟩
    · rw [u3]; show tdel (w0.raise n d wi).dev.flt.wires n = _; rw [G]; rfl
    · rw [u3]; show (w0.raise n d wi).dev.flt.slots = _; rw [G]; rfl

theorem quiet_part (s : State) (r : s.rack) (d : Fin 6) (c : Fin 3) :
      let f := s.dev.flt
      let sl := f.slot d.val c.val
      let recovers := tbit sl.word 13 = true ∧ f.wired sl.src = false ∧ f.stopped d.val = false
      (sl.st ≠ 1 → exec (.quietEnd d c) s = .next s) ∧
      (sl.st = 1 → (d ≠ 5 ∨ c ≠ 2) → ¬ recovers → Does (.quietEnd d c) s (fun u => u = (({ s with dev.flt := f.setSlot d.val c.val { sl with st := 2 } } : State).logged u))) ∧
      (sl.st = 1 → (d ≠ 5 ∨ c ≠ 2) → recovers → Does (.quietEnd d c) s (fun u => u = s.raised u ∧ u.dev.flt.slots = tput f.slots (3 * d.val + c.val) {} ∧ u.dev.flt.recov = satAdd 16 f.recov 1 ∧
        u.dev.flt.caps = tput f.caps sl.src { tget {} f.caps sl.src with held := false } ∧ u.dev.flt.hstop = f.hstop)) := by
  intro f sl recovers
  let run := fun (w : W) => w.timed 3 (3 * d.val + c.val) (fun w => w.quietEnd d.val c.val)
  have tm : run (load s) = (load s).quietEnd d.val c.val := by
    show W.timed _ _ _ _ = _
    unfold W.timed
    rw [if_neg (by exact r.2)]
  have nu : (d ≠ 5 ∨ c ≠ 2) → (decide (d.val = dUnit) && decide (c.val = 2)) = false := by
    intro h
    rcases h with h | h
    · have : d.val ≠ 5 := fun y => h (Fin.ext y)
      simp [dUnit, this]
    · have : c.val ≠ 2 := fun y => h (Fin.ext y)
      simp [this]
  refine ⟨?_, ?_, ?_⟩
  · intro h
    refine rackRun_next (f := run) r (v := load s) ⟨?_, rfl, r.2⟩
    rw [tm]
    exact if_pos (.inl h)
  · intro h k nr
    have L := W.logK_log (load s) 0x07 [(6, 4, 3), (10, 16, 3 * d.val + c.val)]
    have e : run (load s) = ((load s).logK 0x07 [(6, 4, 3), (10, 16, 3 * d.val + c.val)]).modFlt (fun f => f.setSlot d.val c.val { sl with st := 2 }) := by
      rw [tm]
      unfold W.quietEnd
      dsimp only
      rw [nu k]
      rw [if_neg (by
        rintro (y | y)
        · exact y h
        · exact Bool.false_ne_true y.1)]
      have lf := L.flt
      generalize W.logK _ _ _ = v at *
      rw [lf]
      refine if_pos ?_
      show (!tbit sl.word 13 || f.wired sl.src || f.stopped d.val || (false && _)) = true
      by_contra y
      refine nr ?_
      simp only [Bool.false_and, Bool.or_false, Bool.or_eq_true, not_or, Bool.not_eq_true', Bool.not_eq_false, Bool.not_eq_true] at y
      exact ⟨y.1.1, y.1.2, y.2⟩
    generalize W.logK _ _ _ = v at *
    refine rackRun_logged (f := run) r (v := { load s with dev.flt := f.setSlot d.val c.val { sl with st := 2 } }) ?_ rfl r.2
    rw [e]
    refine ⟨?_, L.2⟩
    have := L.1
    generalize hu : v = u at this ⊢
    rw [this]; rfl
  · intro h k nr
    have L := W.logK_log (load s) 0x07 [(6, 4, 3), (10, 16, 3 * d.val + c.val)]
    have e : run (load s) = ((load s).logK 0x07 [(6, 4, 3), (10, 16, 3 * d.val + c.val)]).recover d.val c.val := by
      rw [tm]
      unfold W.quietEnd
      dsimp only
      rw [nu k]
      rw [if_neg (by
        rintro (y | y)
        · exact y h
        · exact Bool.false_ne_true y.1)]
      have lf := L.flt
      generalize W.logK _ _ _ = v at *
      rw [lf]
      rw [if_neg, if_neg (by simp)]
      show ¬ (!tbit sl.word 13 || f.wired sl.src || f.stopped d.val || (false && _)) = true
      rw [nr.1, nr.2.1, nr.2.2]; simp
    generalize W.logK _ _ _ = v at *
    have vf : v.dev.flt = f := L.flt
    let v1 := v.modFlt (fun g => { g with caps := tput g.caps sl.src { tget ({} : Capture) g.caps sl.src with held := false }, recov := satAdd 16 g.recov 1 })
    have A : v.SameButRaise (v.recovered d.val c.val) ∧ (v.recovered d.val c.val).dev.flt = v1.dev.flt.beside (v.recovered d.val c.val).dev.flt := by
      unfold W.recovered
      dsimp only
      rw [vf]
      exact ⟨W.SameButRaise.trans (b := v1) ⟨rfl, id, List.prefix_rfl⟩ (W.logEvent_raise _ _), (W.logEvent_flt _ _).trans (by simp only [v1]; unfold W.modFlt; dsimp only; rw [vf])⟩
    have B := W.regroup_raise ((v.recovered d.val c.val).modFlt (fun f => f.clearSlot d.val c.val))
    have C := W.regroup_flt ((v.recovered d.val c.val).modFlt (fun f => f.clearSlot d.val c.val))
    have R : (load s).SameButRaise (run (load s)) := by
      rw [e]
      exact L.raise.trans (A.1.trans (W.SameButRaise.trans (by exact ⟨rfl, id, List.prefix_rfl⟩) B))
    have F : (run (load s)).dev.flt = ((v1.dev.flt.clearSlot d.val c.val).beside (run (load s)).dev.flt) := by
      rw [e]
      refine C.trans ?_
      show Faults.beside ((v.recovered d.val c.val).dev.flt.clearSlot d.val c.val) _ = _
      rw [A.2]
      rfl
    refine ⟨_, rackRun_next (f := run) r (R.ends rfl r.2), commit_raised s (load s) _ R, ?_⟩
    show (run (load s)).dev.flt.slots = _ ∧ (run (load s)).dev.flt.recov = _ ∧ (run (load s)).dev.flt.caps = _ ∧ (run (load s)).dev.flt.hstop = _
    generalize run (load s) = z at *
    have v1f : v1.dev.flt = { f with caps := tput f.caps sl.src { tget ({} : Capture) f.caps sl.src with held := false }, recov := satAdd 16 f.recov 1 } := by
      simp only [v1]; unfold W.modFlt; dsimp only; rw [vf]
    rw [F, v1f]
    exact ⟨rfl, rfl, rfl, rfl⟩

end Sys2Proof.Machine
end

