-- ==== Sys2Proof/Laws/TimeBase.lean ====
section
/-! SUPPORT. Time references, steps and the clock. -/

namespace Sys2Proof.Machine

theorem chunkIf_same (w : W) (h : w.dev.tim.qual = w.dev.tim.chunkQ) : w.chunkIf = w := if_pos h

theorem sendChunk_raise (w : W) : ({ w with dev.tim.chunkQ := w.dev.tim.qual } : W).SameButRaise w.sendChunk ∧ w.sendChunk.dev.tim = { w.dev.tim with chunkQ := w.dev.tim.qual } ∧
    (w.dev.bar.bAlive = true → w.sendChunk.dev.arb.ctl = w.dev.arb.ctl ++ [{ body := .timeChunk w.dev.tim.chunk }]) := by
  unfold W.sendChunk W.control
  by_cases h : w.dev.bar.bAlive = true
  · rw [if_pos h]; exact ⟨⟨rfl, id, List.prefix_rfl⟩, rfl, fun _ => rfl⟩
  · rw [if_neg h]; exact ⟨⟨rfl, id, List.prefix_rfl⟩, rfl, fun x => absurd x h⟩

theorem chunkIf_raise (w : W) : ({ w with dev.tim.chunkQ := w.dev.tim.qual } : W).SameButRaise w.chunkIf ∧ w.chunkIf.dev.tim = { w.dev.tim with chunkQ := w.dev.tim.qual } := by
  unfold W.chunkIf
  by_cases h : w.dev.tim.qual = w.dev.tim.chunkQ
  · rw [if_pos h]
    have : ({ w with dev.tim.chunkQ := w.dev.tim.qual } : W) = w := by rw [h]
    refine ⟨by rw [this]; exact W.SameButRaise.refl w, by rw [h]⟩
  · rw [if_neg h]; exact ⟨(sendChunk_raise w).1, (sendChunk_raise w).2.1⟩

theorem raise_tim {a b : W} (h : a.SameButRaise b) (f : TimeSt → TimeSt) : (a.modTim f).SameButRaise (b.modTim f) := by
  refine ⟨?_, h.2.1, h.2.2⟩
  have := h.1
  generalize hb : b = c at this ⊢
  rw [this]; rfl

theorem log_tim {a b : W} (h : a.SameButLog b) (f : TimeSt → TimeSt) : (a.modTim f).SameButLog (b.modTim f) := by
  refine ⟨?_, h.2⟩
  have := h.1
  generalize hb : b = c at this ⊢
  rw [this]; rfl

theorem log_rd {a b : W} (h : a.SameButLog b) : b.dev.tim = a.dev.tim ∧ b.cfg = a.cfg ∧ b.dev.bar = a.dev.bar ∧ b.dev.arb = a.dev.arb ∧ b.dev.flt = a.dev.flt ∧ b.dev.freeCtr = a.dev.freeCtr := by
  have := h.1
  generalize hb : b = c at this ⊢
  rw [this]; exact ⟨rfl, rfl, rfl, rfl, rfl, rfl⟩

theorem raise_rd {a b : W} (h : a.SameButRaise b) : b.dev.tim = a.dev.tim ∧ b.cfg = a.cfg ∧ b.dev.bar = a.dev.bar := by
  have := h.1
  generalize hb : b = c at this ⊢
  rw [this]; exact ⟨rfl, rfl, rfl⟩

theorem calm_log {a b : W} (h : a.SameButLog b) (x d : Nat) (c : a.calm x d (a.decision x d false)) : b.calm x d (b.decision x d false) := by
  have := h.1
  generalize hb : b = u at this ⊢
  rw [this]
  exact c

theorem calm_raiseU {w : W} (x : Nat) (det : Nat) (c : w.calm x dUnit (w.decision x dUnit false)) : w.SameButRaise (w.raiseU x det) :=
  W.raise_raise _ _ _ _ (by exact c)

theorem tpi_locked (w : W) (h1 : w.dev.tim.state = 1) (h2 : w.dev.tim.src = 1) (h3 : w.dev.tim.tset = true) (h4 : w.dev.tim.nextArm = none) (h5 : w.dev.tim.xtalOk = false) :
    ∃ u, (w.modTim (fun t => { t with accTpi := some t.mono, candTpi := some t.mono })).SameButLog u ∧
      w.tpiAccepted = (u.servo ((w.dev.tim.now : Int) - (nearest w.dev.tim.now w.cfg.time.tperNs : Int)) w.cfg.time.tperNs (nearest w.dev.tim.now w.cfg.time.tperNs) w.dev.tim.qual).chunkIf := by
  let v := w.modTim (fun t => { t with accTpi := some t.mono, candTpi := some t.mono })
  have L : v.SameButLog (v.timeEv 1) := W.logT_log _ _ _ _
  obtain ⟨t1, t2, -⟩ := log_rd L
  have lk : (v.timeEv 1).lock 1 = (v.timeEv 1).modTim (fun t => { t with src := 1 }) := by
    unfold W.lock
    dsimp only
    rw [if_neg (by rw [t1]; intro x; exact x.2.1 h2)]
    unfold W.timeState
    exact if_pos (by show (v.timeEv 1).dev.tim.state = 1; rw [t1]; exact h1)
  refine ⟨(v.timeEv 1).modTim (fun t => { t with src := 1 }), ?_, ?_⟩
  · have : v.modTim (fun t => { t with src := 1 }) = v := by
      have hs : v.dev.tim.src = 1 := h2
      show ({ v with dev.tim := { v.dev.tim with src := 1 } } : W) = v
      rw [← hs]
    have := log_tim L (fun t => { t with src := 1 })
    rw [‹v.modTim (fun t => { t with src := 1 }) = v›] at this
    exact this
  · unfold W.tpiAccepted
    extract_lets q0 first w1 w2 r was w3
    have e1 : w1 = (v.timeEv 1).modTim (fun t => { t with src := 1 }) := lk
    have e2 : w2 = w1 := by
      simp only [w2]
      unfold W.learnX
      rw [if_neg (by rw [e1]; show ¬ (v.timeEv 1).dev.tim.xtalOk = true; rw [t1]; show ¬ w.dev.tim.xtalOk = true; rw [h5]; simp)]
    have tm : w2.dev.tim.now = w.dev.tim.now ∧ w2.cfg = w.cfg ∧ w2.dev.tim.nextArm = none ∧ w2.dev.tim.tset = true := by
      rw [e2, e1]
      refine ⟨?_, t2, ?_, ?_⟩
      · show (v.timeEv 1).dev.tim.now = _; rw [t1]; rfl
      · show (v.timeEv 1).dev.tim.nextArm = _; rw [t1]; exact h4
      · show (v.timeEv 1).dev.tim.tset = _; rw [t1]; exact h3
    have e3 : w3 = w2.servo ((w2.now : Int) - (r : Int)) w2.cfg.time.tperNs r q0 := by
      simp only [w3]
      rw [tm.2.2.1]
      dsimp only
      rw [if_pos tm.2.2.2]
    have er : r = nearest w.dev.tim.now w.cfg.time.tperNs := by
      simp only [r]; unfold W.now; rw [tm.1, tm.2.1]
    have en : w2.now = w.dev.tim.now := tm.1
    rw [e3, er, en, tm.2.1, e2, e1]

theorem servo_small (w : W) (off : Int) (p r q0 : Nat) (h : -((w.cfg.time.stepthr * 1000 : Nat) : Int) < off ∧ off < ((w.cfg.time.stepthr * 1000 : Nat) : Int)) :
    w.servo off p r q0 = w.modTim (fun t => { t with off := max (-2147483648) (min 2147483647 off), stepPend := false, fcorr := clampF (t.fcorr - (off * 1000000000).tdiv (8 * p : Nat)), slewLeft := -off * (nsUnit : Nat) }) := by
  unfold W.servo
  dsimp only
  rw [if_neg]
  · rfl
  · simp only [Bool.or_eq_true, decide_eq_true_eq, not_or]; omega

theorem servo_pend (w : W) (off : Int) (p r q0 : Nat) (h : ((w.cfg.time.stepthr * 1000 : Nat) : Int) ≤ off ∨ off ≤ -((w.cfg.time.stepthr * 1000 : Nat) : Int)) (k : w.dev.tim.stepPend = false) :
    w.servo off p r q0 = w.modTim (fun t => { t with off := max (-2147483648) (min 2147483647 off), stepPend := true, slewLeft := 0, heldQual := q0 }) := by
  unfold W.servo
  dsimp only
  rw [if_pos (by simp only [Bool.or_eq_true, decide_eq_true_eq]; exact h), if_neg (by show ¬ w.dev.tim.stepPend = true; rw [k]; simp)]
  rfl

theorem servo_step (w : W) (off : Int) (p r q0 : Nat) (h : ((w.cfg.time.stepthr * 1000 : Nat) : Int) ≤ off ∨ off ≤ -((w.cfg.time.stepthr * 1000 : Nat) : Int)) (k : w.dev.tim.stepPend = true) :
    w.servo off p r q0 = ((w.modTim (fun t => { t with off := max (-2147483648) (min 2147483647 off) })).timeEv 3).setNow r true := by
  unfold W.servo
  dsimp only
  rw [if_pos (by simp only [Bool.or_eq_true, decide_eq_true_eq]; exact h), if_pos (by exact k)]

theorem setNow_at (w : W) (n : Nat) (fault : Bool) (h : w.dev.tim.tpoRise = none) (c : fault = true → w.calm 0x59 dUnit (w.decision 0x59 dUnit false)) :
    let v := w.modTim (fun t => { t with
      now := n % 2 ^ 64, nowFrac := 0, slewLeft := 0, stepPend := false, tset := true, stepno := (t.stepno + 1) % 256,
      disc := n % 2 ^ 64, discFlag := true, steps := if fault then satAdd 8 t.steps 1 else t.steps, tpoSkip := false })
    ∃ u, v.SameButRaise u ∧ w.setNow n fault = u.sendChunk ∧ (fault = false → u = v) := by
  intro v
  have tz : w.tpoAround n = false := by unfold W.tpoAround; rw [h]
  unfold W.setNow
  rw [tz, Bool.and_false]
  have ev : w.modTim (fun t => { t with
      now := n % 2 ^ 64, nowFrac := 0, slewLeft := 0, stepPend := false, tset := true, stepno := (t.stepno + 1) % 256,
      disc := n % 2 ^ 64, discFlag := true, steps := if fault then satAdd 8 t.steps 1 else t.steps,
      tpoSkip := false, tpoOmit := t.tpoOmit || false, omits := if false = true then satAdd 8 t.omits 1 else t.omits }) = v := by
    simp only [v]
    unfold W.modTim
    simp only [Bool.or_false, Bool.false_eq_true, if_false]
  dsimp only
  have nf : ¬ (false = true) := by simp
  rw [ev, if_neg nf]
  cases fault with
  | false => rw [if_neg nf]; exact ⟨v, .refl v, rfl, fun _ => rfl⟩
  | true =>
    rw [if_pos rfl]
    have e : v.calm 0x59 dUnit (v.decision 0x59 dUnit false) := c rfl
    exact ⟨_, calm_raiseU 0x59 _ e, rfl, fun x => by cases x⟩

theorem timeState_log (w : W) (st : Nat) : (w.modTim (fun t => { t with state := st })).SameButLog (w.timeState st) := by
  unfold W.timeState
  by_cases h : w.dev.tim.state = st
  · rw [if_pos h]
    have : w.modTim (fun t => { t with state := st }) = w := by
      show ({ w with dev.tim := { w.dev.tim with state := st } } : W) = w
      rw [← h]
    rw [this]; exact .refl w
  · rw [if_neg h]; exact W.logT_log _ _ _ _

theorem setNow_done (w : W) (n : Nat) (fault : Bool) (h : fault = true → w.dev.tim.tpoRise = none) (c : fault = true → w.calm 0x59 dUnit (w.decision 0x59 dUnit false)) :
    let v := w.modTim (fun t => { t with
      now := n % 2 ^ 64, nowFrac := 0, slewLeft := 0, stepPend := false, tset := true, stepno := (t.stepno + 1) % 256,
      disc := n % 2 ^ 64, discFlag := true, steps := if fault then satAdd 8 t.steps 1 else t.steps, tpoSkip := false })
    ∃ u, v.SameButRaise u ∧ w.setNow n fault = u.sendChunk ∧ (fault = false → u = v) := by
  intro v
  have tz : (fault && w.tpoAround n) = false := by
    cases fault with
    | false => rfl
    | true => unfold W.tpoAround; rw [h rfl]; rfl
  unfold W.setNow
  rw [tz]
  have ev : w.modTim (fun t => { t with
      now := n % 2 ^ 64, nowFrac := 0, slewLeft := 0, stepPend := false, tset := true, stepno := (t.stepno + 1) % 256,
      disc := n % 2 ^ 64, discFlag := true, steps := if fault then satAdd 8 t.steps 1 else t.steps,
      tpoSkip := false, tpoOmit := t.tpoOmit || false, omits := if false = true then satAdd 8 t.omits 1 else t.omits }) = v := by
    simp only [v]
    unfold W.modTim
    simp only [Bool.or_false, Bool.false_eq_true, if_false]
  dsimp only
  have nf : ¬ (false = true) := by simp
  rw [ev, if_neg nf]
  cases fault with
  | false => rw [if_neg nf]; exact ⟨v, .refl v, rfl, fun _ => rfl⟩
  | true =>
    rw [if_pos rfl]
    have e : v.calm 0x59 dUnit (v.decision 0x59 dUnit false) := c rfl
    exact ⟨_, calm_raiseU 0x59 _ e, rfl, fun x => by cases x⟩

theorem tpi_first (w : W) (h1 : w.dev.tim.state = 0) (h2 : w.dev.tim.src = 0) (h3 : w.dev.tim.tset = false) (h5 : w.dev.tim.xtalOk = false) :
    ∃ u, (w.modTim (fun t => { t with accTpi := some t.mono, candTpi := some t.mono, src := 1, state := 1 })).SameButLog u ∧
      w.tpiAccepted = (match w.dev.tim.nextArm with
        | some n => (u.modTim (fun t => { t with nextArm := none })).setNow n false
        | none => u.modTim (fun t => { t with now := nearest w.dev.tim.now w.cfg.time.tperNs, nowFrac := 0 })).chunkIf := by
  let v := w.modTim (fun t => { t with accTpi := some t.mono, candTpi := some t.mono })
  have L : v.SameButLog (v.timeEv 1) := W.logT_log _ _ _ _
  obtain ⟨t1, t2, -⟩ := log_rd L
  have lk : (v.timeEv 1).lock 1 = ((v.timeEv 1).modTim (fun t => { t with src := 1 })).timeState 1 := by
    unfold W.lock
    dsimp only
    rw [if_neg (by rw [t1]; intro x; exact x.2.2 h2)]
  have LS := (log_tim (log_tim L (fun t => { t with src := 1 })) (fun t => { t with state := 1 })).trans (timeState_log ((v.timeEv 1).modTim (fun t => { t with src := 1 })) 1)
  obtain ⟨s1, s2, -⟩ := log_rd LS
  refine ⟨_, LS, ?_⟩
  unfold W.tpiAccepted
  extract_lets q0 first w1 w2 r was w3
  have e1 : w1 = ((v.timeEv 1).modTim (fun t => { t with src := 1 })).timeState 1 := lk
  rw [← e1] at s1 s2
  have e2 : w2 = w1 := by
    simp only [w2]
    unfold W.learnX
    rw [if_neg (by rw [s1]; show ¬ w.dev.tim.xtalOk = true; rw [h5]; simp)]
  have tm : w2.dev.tim.now = w.dev.tim.now ∧ w2.cfg = w.cfg ∧ w2.dev.tim.nextArm = w.dev.tim.nextArm ∧ w2.dev.tim.tset = false := by
    rw [e2]
    exact ⟨by rw [s1]; rfl, s2, by rw [s1]; rfl, by rw [s1]; exact h3⟩
  have er : r = nearest w.dev.tim.now w.cfg.time.tperNs := by
    simp only [r]; unfold W.now; rw [tm.1, tm.2.1]
  have e3 : w3 = (match w.dev.tim.nextArm with
        | some n => (w1.modTim (fun t => { t with nextArm := none })).setNow n false
        | none => w1.modTim (fun t => { t with now := nearest w.dev.tim.now w.cfg.time.tperNs, nowFrac := 0 })) := by
    simp only [w3, was]
    have f : first = true := by
      show (w.dev.tim.state != 1) = true
      rw [h1]; rfl
    rw [tm.2.2.1, tm.2.2.2, er, e2, f]
    rfl
  rw [e3, e1]

theorem tpi_go (s : State) (r : s.rack) (m : Nat) (h1 : s.dev.img.cfg.time.srcTpi = true) (h2 : s.dev.sup.mode ≠ 2) (h3 : s.dev.tim.candTpi = some m)
    (h4 : s.dev.img.cfg.time.tpiOk (s.dev.tim.mono - m) = true) : (load s).tpi = (load s).tpiAccepted := by
  unfold W.tpi
  rw [if_neg (by
    show ¬ (!s.dev.img.cfg.time.srcTpi || s.dev.sup.mode == 2) = true
    rw [h1, show (s.dev.sup.mode == 2) = false by simpa using h2]; simp), if_neg (by exact r.2), show (load s).dev.tim.candTpi = some m from h3]
  exact if_pos h4

theorem tpiOk_iff (c : TimeCfg) (d : Nat) : c.tpiOk d = true ↔ (c.tper * 1000000 ≤ d + (c.tper * 1000000 / 1000 + 1000) ∧ d ≤ c.tper * 1000000 + (c.tper * 1000000 / 1000 + 1000)) := by
  unfold TimeCfg.tpiOk TimeCfg.tperNs
  simp only [Bool.and_eq_true, decide_eq_true_eq]

theorem qual_locked (t : TimeSt) (h1 : t.state = 1) (h2 : t.src = 1) (h3 : t.tset = true) (h4 : t.stepPend = true → t.heldQual = 0) : t.qual = 0 := by
  unfold TimeSt.qual
  rw [h3]
  rw [if_neg (by simp)]
  cases h : t.stepPend with
  | true => rw [if_pos rfl]; exact h4 h
  | false => rw [if_neg (by simp), if_pos h1, if_neg (by omega)]

theorem raise_src {w : W} (x : Nat) (det : Nat) (c : w.calm x dUnit (w.decision x dUnit false)) : w.SameButRaise (w.raiseU x det) := calm_raiseU x det c

theorem ref_chunk (v u : W) (L : v.SameButLog u) (det : Nat) (c : v.calm 0x58 dUnit (v.decision 0x58 dUnit false)) :
    ({ v with dev.tim.chunkQ := v.dev.tim.qual } : W).SameButRaise (u.timeRef det).chunkIf ∧ ((u.timeRef det).chunkIf).dev.tim = { v.dev.tim with chunkQ := v.dev.tim.qual } := by
  have R : v.SameButRaise (u.timeRef det) := L.raise.trans (calm_raiseU 0x58 det (calm_log L _ _ c))
  have T := (raise_rd R).1
  obtain ⟨C1, C2⟩ := chunkIf_raise (u.timeRef det)
  have R2 := raise_tim R (fun t => { t with chunkQ := v.dev.tim.qual })
  have : ({ u.timeRef det with dev.tim.chunkQ := (u.timeRef det).dev.tim.qual } : W) = (u.timeRef det).modTim (fun t => { t with chunkQ := v.dev.tim.qual }) := by rw [T]; rfl
  rw [this] at C1
  refine ⟨R2.trans C1, ?_⟩
  rw [C2, T]

theorem W.modPort_hpt (w : W) (p : RPort) (f : RingPort → RingPort) : (w.modPort p f).dev.hpt = w.dev.hpt := by cases p <;> rfl

theorem W.SameButLog.hpt {a b : W} (h : a.SameButLog b) : b.dev.hpt = a.dev.hpt := by rw [h.1]

theorem W.startOut_hpt (w : W) (p : RPort) : (w.startOut p).dev.hpt = w.dev.hpt := by
  unfold W.startOut
  dsimp only
  repeat' split
  all_goals first
    | exact W.modPort_hpt _ _ _
    | exact (W.modPort_hpt _ _ _).trans (((W.logK_log _ _ _).hpt).trans (W.modPort_hpt _ _ _))

theorem W.preempt_hpt (w : W) (p : RPort) : (w.preempt p).dev.hpt = w.dev.hpt := by
  unfold W.preempt
  dsimp only
  repeat' split
  all_goals first | rfl | exact W.modPort_hpt _ _ _

theorem W.pump_hpt (w : W) (p : RPort) (n : Nat) : (w.pump p n).dev.hpt = w.dev.hpt := by
  induction n generalizing w with
  | zero => rfl
  | succ n ih =>
    unfold W.pump
    dsimp only
    split
    · rfl
    · rw [← w.preempt_hpt p]
      generalize w.preempt p = v
      have h : (if (v.dev.ring.port p).cur.isNone then v.startOut p else v).dev.hpt = v.dev.hpt := by
        split
        · exact v.startOut_hpt p
        · rfl
      rw [← h]
      generalize (if (v.dev.ring.port p).cur.isNone then v.startOut p else v) = u
      split
      · rfl
      · split
        · exact (ih _).trans (W.modPort_hpt _ _ _)
        · exact W.modPort_hpt _ _ _

theorem sendPort_keeps (w : W) (p : RPort) (b : List Byte) : w.SameButRaise (w.sendPort p b) ∧ (w.sendPort p b).dev.flt = w.dev.flt ∧ (w.sendPort p b).dev.hpt = w.dev.hpt := by
  unfold W.sendPort
  repeat' split
  all_goals first
    | exact ⟨W.putOut_raise _ _ _, (W.pump_flt _ _ _).trans (W.modPort_flt _ _ _), (W.pump_hpt _ _ _).trans (W.modPort_hpt _ _ _)⟩
    | exact ⟨.refl w, rfl, rfl⟩
    | exact ⟨⟨rfl, id, List.prefix_rfl⟩, rfl, rfl⟩

theorem sendBroadcast_keeps (w : W) (b : List Byte) : w.SameButRaise (w.sendBroadcast b) ∧ (w.sendBroadcast b).dev.flt = w.dev.flt ∧ (w.sendBroadcast b).dev.hpt = w.dev.hpt := by
  unfold W.sendBroadcast
  repeat' split
  all_goals first
    | exact sendPort_keeps _ _ _
    | exact ⟨(sendPort_keeps _ _ _).1.trans (sendPort_keeps _ _ _).1, (sendPort_keeps _ _ _).2.1.trans (sendPort_keeps _ _ _).2.1, (sendPort_keeps _ _ _).2.2.trans (sendPort_keeps _ _ _).2.2⟩

theorem tim_act (s : State) (t : Ten) (a v : Nat) (hw : s.writer t) (l : 0x90000 ≤ a) (u : a < 0xA0000) (q : a % 4 = 0) (x : W) (st : Nat)
    (k : (load s).timWrite t.val (a - 0x90000) v = (x, st)) : (load s).act t.val a v = x.ack st := by
  refine act_done _ _ _ _ hw.1 x st ?_
  rw [regWrite_tim _ _ _ _ _ _ (rackWord_low a q (by omega)) (fatalBars_calm _ _ _ hw.2) l u, k]
  rfl

theorem raise_ack {a b : W} (h : a.SameButRaise b) (st : Nat) : (a.ack st).SameButRaise (b.ack st) := by
  refine ⟨?_, h.2.1, h.2.2⟩
  have := h.1
  unfold W.ack
  generalize hb : b = c at this ⊢
  rw [this]

end Sys2Proof.Machine
end

