-- ==== Sys2Proof/Laws/Identity.lean ====
section
/-! SUPPORT. The board identity and its write-back. -/

namespace Sys2Proof.Machine

theorem next_congr {s t : State} (h : s = t) : (Host.Outcome.next s : Host.Outcome State Fault Refusal) = .next t := by rw [h]

theorem canProbe_iff (s : State) (h : s.board) : (load s).canProbe = true ↔ (s.dev.bd.tabs = true ∧ s.dev.bd.parked = false ∧ s.dev.bd.up.getLsbD 3 = true ∧ s.dev.bd.pstate ≠ 0) := by
  show (s.dev.bd.core && s.dev.bd.tabs && !s.dev.bd.parked && s.dev.bd.up.getLsbD 3 && s.dev.bd.pstate != 0) = true ↔ _
  rw [board_core h]
  simp [and_assoc]

theorem page4_at (s : State) (b : Board) (h : b.core = true) : ((load s).withBd b).page4 = (load s).withBd (b.tells [.page4 { b.probe.sum with phase := b.probe.phase }]) := if_pos h

theorem phase1End_at (s : State) (v : W) (b : Board) (hb : v.dev.bd = b) (h : b.core = true) :
    v.phase1End = { v with dev := { v.dev with bd := if b.probe.phase = 1 ∧ b.probe.idsDone = true ∧ b.probe.strapDone = true then
      ({ b with probe := { b.probe with phase := if b.cfg.id.eeEn then 2 else 0 } } : Board).tells [.page4 { b.probe.sum with phase := if b.cfg.id.eeEn then 2 else 0 }] else b } } := by
  unfold W.phase1End
  dsimp only
  rw [hb]
  by_cases k : b.probe.phase = 1 ∧ b.probe.idsDone = true ∧ b.probe.strapDone = true
  · rw [if_pos k, if_pos k]
    have : v.modProbe (fun p => { p with phase := if v.bcfg.id.eeEn then 2 else 0 }) = { v with dev := { v.dev with bd := { b with probe := { b.probe with phase := if b.cfg.id.eeEn then 2 else 0 } } } } := by
      unfold W.modProbe W.modBd W.bcfg
      dsimp only
      rw [hb]
    rw [this]
    exact if_pos h
  · rw [if_neg k, if_neg k, ← hb]

theorem phase1End_no (v : W) (h : ¬ (v.dev.bd.probe.phase = 1 ∧ v.dev.bd.probe.idsDone = true ∧ v.dev.bd.probe.strapDone = true)) : v.phase1End = v := if_neg h

theorem phase1End_yes (s : State) (v : W) (hb : v.dev.bd.core = true) (h : v.dev.bd.probe.phase = 1 ∧ v.dev.bd.probe.idsDone = true ∧ v.dev.bd.probe.strapDone = true) :
    v.phase1End = { v with dev := { v.dev with bd :=
      ({ v.dev.bd with probe := { v.dev.bd.probe with phase := if v.dev.bd.cfg.id.eeEn then 2 else 0 } } : Board).tells [.page4 { v.dev.bd.probe.sum with phase := if v.dev.bd.cfg.id.eeEn then 2 else 0 }] } } := by
  rw [phase1End_at (s := { State.reset with dev := v.dev }) v _ rfl hb, if_pos h]

theorem idn_act (s : State) (t : Ten) (a v : Nat) (hw : s.writer t) (l : 0xA0000 ≤ a) (u : a < 0xA8000) (q : a % 4 = 0) (x : W) (st : Nat)
    (k : (load s).idnWrite t.val (a - 0xA0000) v = (x, st)) : (load s).act t.val a v = x.ack st := by
  refine act_done _ _ _ _ hw.1 x st ?_
  rw [regWrite_idn _ _ _ _ _ _ (rackWord_low a q (by omega)) (fatalBars_calm _ _ _ hw.2) l (by omega), k]
  rfl

theorem calm_raiseU' {w : W} (x : Nat) (det : Nat) (c : w.calm x dUnit (w.decision x dUnit false)) : w.SameButRaise (w.raiseU x det) :=
  W.raise_raise _ _ _ _ (by exact c)

theorem wb_fields (key : BitVec 16) (note : Bool) : tbit (keyed key (1 + 2 * b2n note)) 0 = true ∧ tbit (keyed key (1 + 2 * b2n note)) 1 = note ∧ keyed key (1 + 2 * b2n note) / 2 ^ 16 = key.toNat := by
  unfold keyed tbit
  have k := key.isLt
  refine ⟨?_, ?_, ?_⟩
  · cases note <;> simp [b2n, Nat.testBit_zero] <;> omega
  · cases note <;> simp [b2n, Nat.testBit_succ, Nat.testBit_zero] <;> omega
  · cases note <;> simp [b2n] <;> omega

theorem length_le (n x : Nat) : (le n x).length = n := by unfold le upto; simp

theorem leN_le4 (x : Nat) : leN (le 4 x) = x % 2 ^ 32 := by
  show (BitVec.ofNat 8 (x >>> (8 * 0))).toNat + 256 * ((BitVec.ofNat 8 (x >>> (8 * 1))).toNat + 256 * ((BitVec.ofNat 8 (x >>> (8 * 2))).toNat + 256 * ((BitVec.ofNat 8 (x >>> (8 * 3))).toNat + 256 * 0))) = _
  simp only [BitVec.toNat_ofNat, Nat.shiftRight_eq_div_pow]
  omega

theorem leN_le2 (x : Nat) : leN (le 2 x) = x % 65536 := by
  show (BitVec.ofNat 8 (x >>> (8 * 0))).toNat + 256 * ((BitVec.ofNat 8 (x >>> (8 * 1))).toNat + 256 * 0) = _
  simp only [BitVec.toNat_ofNat, Nat.shiftRight_eq_div_pow]
  omega

theorem length_padTo (n : Nat) (l : List Byte) : (padTo n l).length = n := by
  unfold padTo; simp; omega

theorem wbRec_at (w : W) (hn : w.dev.idn.notes.length = 8) : ∃ b : List Byte, b.length = 62 ∧ w.wbRecord = b ++ le 2 (crc16 b) ∧ b.take 4 = le 4 (w.dev.idn.logseq + 1) := by
  unfold W.wbRecord
  extract_lets i cur hours note b
  refine ⟨b, ?_, rfl, ?_⟩
  · have : note.length = 32 := by
      simp only [note]
      split
      · rw [List.length_flatMap]
        have : (List.map (fun a : BitVec 32 => (le 4 a.toNat).length) i.notes).sum = 4 * i.notes.length := by
          generalize i.notes = l
          induction l with
          | nil => rfl
          | cons a l ih => rw [List.map_cons, List.sum_cons, ih, length_le, List.length_cons]; omega
        rw [this, show i.notes.length = 8 from hn]
      · exact length_padTo _ _
    simp only [b, List.length_append, length_le, this, List.length_cons, List.length_nil]
  · simp only [b]
    simp only [List.append_assoc]
    rw [List.take_append_of_le_length (by rw [length_le])]
    exact List.take_of_length_le (by rw [length_le])

theorem stageOwn_own (w : W) (ln : Nat) (d : List Byte) : ∃ l, w.stageOwn ln d = ({ w with dev.sto := { w.dev.sto with own := w.dev.sto.own ++ [l] } } : W) := ⟨_, rfl⟩

theorem wbDone_own (w : W) (k : Nat) (hk : w.dev.idn.wbTarget = k) : ∃ l, w.wbDone = ({ w with
          dev.sto := { w.dev.sto with own := w.dev.sto.own ++ [l] }
          dev.bd := { w.dev.bd with probe := { w.dev.bd.probe with phase := 0 } }
          dev.idn := { w.dev.idn with
            wbState := 0, wbResult := 1, bytes := w.dev.idn.bytes.take (128 + 64 * k) ++ w.dev.idn.wbRec ++ w.dev.idn.bytes.drop (192 + 64 * k), slot := k + 1, logseq := w.dev.idn.logseq + 1,
            wbCount := satAdd 16 w.dev.idn.wbCount 1, attaches := 0, presentT0 := w.dev.idn.presentT0 + (w.mono - w.dev.idn.presentT0) / 3600000000000 * 3600000000000,
            aOk := w.dev.idn.aOk || k == 0, bOk := w.dev.idn.bOk || k == 1 } } : W) := by
  subst hk
  unfold W.wbDone
  generalize 3600000000000 = C
  extract_lets i k bytes hours w1
  obtain ⟨l, e⟩ := stageOwn_own w1 (lnIdent + 3) (w1.dev.idn.record w1.dev.idn.aseq)
  refine ⟨l, e.trans ?_⟩
  dsimp only [w1, W.modIdn, W.modProbe, W.wbEnd, bytes, hours, i, k]
  rfl

end Sys2Proof.Machine
end

