-- ==== Sys2Proof/Laws/CheckUnits.lean ====
section
/-! SUPPORT. The check-value units. -/

namespace Sys2Proof.Machine

theorem chk_act (s : State) (t : Ten) (u : Fin 4) (r v : Nat) (hr : r < 0x40) (q : r % 4 = 0) (hw : s.writer t) (x : W) (st : Nat)
    (k : (load s).chkWrite t.val (0x40 * u.val + r) v = (x, st)) : (load s).act t.val (ckAt u + r) v = x.ack st := by
  have hu := u.isLt
  refine act_done _ _ _ _ hw.1 x st ?_
  rw [regWrite_chk _ _ _ _ _ _ (rackWord_low _ (by unfold ckAt; omega) (by unfold ckAt; omega)) (fatalBars_calm _ _ _ hw.2) (by unfold ckAt; omega) (by unfold ckAt; omega),
    show ckAt u + r - 0x70000 = 0x40 * u.val + r by unfold ckAt; omega, k]
  rfl

theorem may_iff (s : State) (t : Ten) (u : Fin 4) : (load s).cfg.mayFeed t.val u.val = true ↔ ((t = 4 ∨ (s.dev.img.cfg.ck u.val).fowner = t.val) ∧ (s.dev.img.cfg.ck u.val).width ≠ 0) := by
  unfold Cfg.mayFeed Cfg.feeds
  show ((t.val == 4 || ((s.dev.img.cfg.ck u.val).fowner == t.val)) && ((s.dev.img.cfg.ck u.val).width != 0)) = true ↔ _
  simp only [Bool.and_eq_true, Bool.or_eq_true, beq_iff_eq, bne_iff_ne, ne_eq]
  have : t.val = 4 ↔ t = 4 := ⟨fun h => Fin.ext h, fun h => by rw [h]; rfl⟩
  rw [this]

theorem lmod_same {α : Type} (d : α) (l : List α) (n : Nat) (f : α → α) (h : f (l.getD n d) = l.getD n d) : lmod l n f = l := by
  unfold lmod
  apply List.ext_getElem?
  intro i
  rw [List.getElem?_modify]
  by_cases k : n = i
  · subst k
    rw [List.getD_eq_getElem?_getD] at h
    cases e : l[n]? with
    | none => simp
    | some a => rw [e] at h; simpa using h
  · simp [k]

theorem ckUse_log (w : W) (u a b : Nat) : ({ w with dev.cks := lmod w.dev.cks u (fun y => { y with user := some (a, b) }) } : W).SameButLog (w.ckUse u a b) := by
  unfold W.ckUse
  split
  · rename_i h
    rw [lmod_same {} w.dev.cks u]
    · exact .refl w
    · have h' : (w.dev.cks.getD u {}).user = some (a, b) := h
      rw [← h']
  · obtain ⟨e, l⟩ := w.logK_log 0x06 [(6, 2, u), (8, 2, a), (10, 4, b)]
    generalize w.logK _ _ = x at *
    refine ⟨?_, l⟩
    rw [e]
    rfl

theorem modCk_log {v w : W} (h : v.SameButLog w) (u : Nat) (f : CkUnit → CkUnit) : (v.modCk u f).SameButLog (w.modCk u f) := by
  obtain ⟨e, l⟩ := h
  refine ⟨?_, l⟩
  rw [e]; rfl

theorem lmod_lmod {α : Type} (l : List α) (n : Nat) (f g : α → α) : lmod (lmod l n f) n g = lmod l n (fun x => g (f x)) := by
  unfold lmod
  apply List.ext_getElem?
  intro i
  simp only [List.getElem?_modify]
  by_cases k : n = i
  · simp [k, Function.comp_def]
  · simp [k]

theorem modCk_ck (w : W) (u : Nat) (f g : CkUnit → CkUnit) : (w.modCk u f).modCk u g = w.modCk u (fun x => g (f x)) := by
  unfold W.modCk
  simp only [lmod_lmod]

theorem ack_log {v w : W} (h : v.SameButLog w) (st : Nat) : (v.ack st).SameButLog (w.ack st) := by
  obtain ⟨e, l⟩ := h
  refine ⟨?_, l⟩
  rw [e]; rfl

theorem fix_pass (ok : Nat → Bool) : ∀ (l : List Nat) (w : W), (∀ j ∈ l, ok j = true) →
    l.foldl (fun w k => w.fixTest k (ok k)) w = ({ w with dev.fixBad := l.foldl (fun (b : BitVec 7) j => b &&& ~~~(BitVec.ofNat 7 (2 ^ j))) w.dev.fixBad } : W)
  | [], w, _ => rfl
  | j :: l, w, h => by
    rw [List.foldl_cons, List.foldl_cons, fix_pass ok l _ (fun i m => h i (List.mem_cons_of_mem _ m)), h j List.mem_cons_self]
    rfl

theorem fixBad_raise {v w : W} (h : v.SameButRaise w) (g : BitVec 7 → BitVec 7) :
    ({ v with dev.fixBad := g v.dev.fixBad } : W).SameButRaise { w with dev.fixBad := g w.dev.fixBad } := by
  obtain ⟨e, l, p⟩ := h
  refine ⟨?_, l, p⟩
  rw [e]

theorem fix_fail (w : W) (k : Nat) (h : w.dev.fixBad.getLsbD k = false) (c : w.calm 0x53 dUnit (w.decision 0x53 dUnit false)) :
    ({ w with dev.fixBad := w.dev.fixBad ||| BitVec.ofNat 7 (2 ^ k) } : W).SameButRaise (w.fixTest k false) := by
  unfold W.fixTest
  dsimp only
  rw [h]
  exact calm_raiseU (w := ({ w with dev.fixBad := w.dev.fixBad ||| BitVec.ofNat 7 (2 ^ k) } : W)) 0x53 k (by exact c)

theorem unitTest_undefined (w : W) (k : Nat) (ok : Bool) (h : (w.cfg.ck k).width = 0) : w.unitTest k ok = w := by
  unfold W.unitTest
  exact if_pos h

theorem unitTest_pass (w : W) (k : Nat) (h : (w.cfg.ck k).width ≠ 0) : (w.modCk k (fun y => { y with user := some (3, 0) })).SameButLog (w.unitTest k true) := by
  unfold W.unitTest
  rw [if_neg h]
  exact ckUse_log w k 3 0

theorem unitTest_fail (w : W) (k : Nat) (h : (w.cfg.ck k).width ≠ 0) (n : (w.dev.ckUnit k).failed = false) (c : w.calm 0x52 dUnit (w.decision 0x52 dUnit false)) :
    (w.modCk k (fun y => { y with user := some (3, 0), failed := true })).SameButRaise (w.unitTest k false) := by
  unfold W.unitTest
  rw [if_neg h]
  dsimp only
  rw [n]
  have A := modCk_log (ckUse_log w k 3 0) k (fun c => { c with failed := true })
  have B := (calm_log A 0x52 dUnit (by exact c))
  have C := A.raise.trans (calm_raiseU 0x52 k B)
  have e := modCk_ck w k (fun y => { y with user := some (3, 0) }) (fun c => { c with failed := true })
  unfold W.modCk at e C ⊢
  dsimp only at e C ⊢
  rw [e] at C
  exact C

theorem fixTests_pass (w : W) : (List.range 7).foldl (fun (w : W) k => w.fixTest k ((0x7F : BitVec 7).getLsbD k)) w = { w with dev.fixBad := 0 } := by
  rw [fix_pass (fun k => (0x7F : BitVec 7).getLsbD k) _ _ (by decide)]
  have : ∀ x : BitVec 7, (List.range 7).foldl (fun (b : BitVec 7) j => b &&& ~~~(BitVec.ofNat 7 (2 ^ j))) x = 0 := by decide
  rw [this]

theorem fixTests_one (w : W) (k : Fin 7) (h : w.dev.fixBad.getLsbD k.val = false) (c : w.calm 0x53 dUnit (w.decision 0x53 dUnit false)) :
    ({ w with dev.fixBad := BitVec.ofNat 7 (2 ^ k.val) } : W).SameButRaise
      ((List.range 7).foldl (fun (w : W) j => w.fixTest j ((~~~(BitVec.ofNat 7 (2 ^ k.val))).getLsbD j)) w) := by
  have split : ∀ k : Fin 7, List.range 7 = List.range k.val ++ k.val :: (List.range (6 - k.val)).map (· + (k.val + 1)) := by decide
  have p1 : ∀ k : Fin 7, ∀ j ∈ List.range k.val, (~~~(BitVec.ofNat 7 (2 ^ k.val))).getLsbD j = true := by decide
  have p2 : ∀ k : Fin 7, ∀ j ∈ (List.range (6 - k.val)).map (· + (k.val + 1)), (~~~(BitVec.ofNat 7 (2 ^ k.val))).getLsbD j = true := by decide
  have p3 : ∀ k : Fin 7, (~~~(BitVec.ofNat 7 (2 ^ k.val))).getLsbD k.val = false := by decide
  have p4 : ∀ k : Fin 7, ∀ x : BitVec 7, x.getLsbD k.val = false → ((List.range k.val).foldl (fun (b : BitVec 7) j => b &&& ~~~(BitVec.ofNat 7 (2 ^ j))) x).getLsbD k.val = false := by decide
  have p5 : ∀ k : Fin 7, ∀ x : BitVec 7, ((List.range (6 - k.val)).map (· + (k.val + 1))).foldl (fun (b : BitVec 7) j => b &&& ~~~(BitVec.ofNat 7 (2 ^ j)))
    ((List.range k.val).foldl (fun (b : BitVec 7) j => b &&& ~~~(BitVec.ofNat 7 (2 ^ j))) x ||| BitVec.ofNat 7 (2 ^ k.val)) = BitVec.ofNat 7 (2 ^ k.val) := by decide
  rw [split k, List.foldl_append, List.foldl_cons, fix_pass (fun j => (~~~(BitVec.ofNat 7 (2 ^ k.val))).getLsbD j) _ w (p1 k), p3 k, fix_pass (fun j => (~~~(BitVec.ofNat 7 (2 ^ k.val))).getLsbD j) _ _ (p2 k)]
  have A := fix_fail ({ w with dev.fixBad := (List.range k.val).foldl (fun (b : BitVec 7) j => b &&& ~~~(BitVec.ofNat 7 (2 ^ j))) w.dev.fixBad } : W) k.val (p4 k _ h) (by exact c)
  have B := fixBad_raise A (fun x => ((List.range (6 - k.val)).map (· + (k.val + 1))).foldl (fun (b : BitVec 7) j => b &&& ~~~(BitVec.ofNat 7 (2 ^ j))) x)
  dsimp only at B
  rw [p5 k] at B
  exact B

theorem unitTests_one (w : W) (u : Fin 4) (b : BitVec 4) (h : ∀ k < 4, k ≠ u.val → (w.cfg.ck k).width = 0)
    (c : ((w.unitTest u.val (b.getLsbD u.val))).cfg = w.cfg) :
    (List.range 4).foldl (fun (w : W) j => w.unitTest j (b.getLsbD j)) w = w.unitTest u.val (b.getLsbD u.val) := by
  rw [show List.range 4 = [0, 1, 2, 3] from rfl]
  simp only [List.foldl_cons, List.foldl_nil]
  have z : ∀ k < 4, k ≠ u.val → ∀ ok, w.unitTest k ok = w := fun k l n ok => unitTest_undefined w k ok (h k l n)
  have z' : ∀ k < 4, k ≠ u.val → ∀ ok, (w.unitTest u.val (b.getLsbD u.val)).unitTest k ok = w.unitTest u.val (b.getLsbD u.val) :=
    fun k l n ok => unitTest_undefined _ k ok (by rw [c]; exact h k l n)
  match u with
  | ⟨0, _⟩ => rw [z' 1 (by omega) (by simp), z' 2 (by omega) (by simp), z' 3 (by omega) (by simp)]
  | ⟨1, _⟩ => rw [z 0 (by omega) (by simp), z' 2 (by omega) (by simp), z' 3 (by omega) (by simp)]
  | ⟨2, _⟩ => rw [z 0 (by omega) (by simp), z 1 (by omega) (by simp), z' 3 (by omega) (by simp)]
  | ⟨3, _⟩ => rw [z 0 (by omega) (by simp), z 1 (by omega) (by simp), z 2 (by omega) (by simp)]

theorem unitTests_pass (w : W) (b : BitVec 4) (h : ∀ k < 4, (w.cfg.ck k).width = 0) : (List.range 4).foldl (fun (w : W) j => w.unitTest j (b.getLsbD j)) w = w := by
  rw [show List.range 4 = [0, 1, 2, 3] from rfl]
  simp only [List.foldl_cons, List.foldl_nil]
  rw [unitTest_undefined w 0 _ (h 0 (by omega)), unitTest_undefined w 1 _ (h 1 (by omega)), unitTest_undefined w 2 _ (h 2 (by omega)), unitTest_undefined w 3 _ (h 3 (by omega))]

end Sys2Proof.Machine
end

