-- ==== Sys2Proof/Laws/Store.lean ====
section
/-! SUPPORT. The record store and its window. -/

namespace Sys2Proof.Machine

theorem win_act (s : State) (t : Ten) (off : BitVec 18) (v : Nat) (q : off.toNat % 4 = 0) (hw : s.writer t) (x : W) (st : Nat)
    (k : (load s).winWrite t.val off.toNat v = (x, st)) : (load s).act t.val (0x200000 + off.toNat) v = x.ack st := by
  have := off.isLt
  refine act_done _ _ _ _ hw.1 x st ?_
  rw [regWrite_win _ _ _ _ _ _ (rackWord_low _ (by omega) (by omega)) (fatalBars_calm _ _ _ hw.2) (by omega),
    show 0x200000 + off.toNat - 0x200000 = off.toNat by omega, k]
  rfl

theorem takeFirst_at {α : Type} (p : α → Bool) (x : List α) (l : α) (y : List α) (h : ∀ e ∈ x, p e = false) (k : p l = true) : takeFirst p (x ++ l :: y) = (some l, x ++ y) := by
  induction x with
  | nil => show (if p l = true then _ else _) = _; rw [if_pos k]; rfl
  | cons a x ih =>
    show (if p a = true then _ else _) = _
    rw [if_neg (by rw [h a List.mem_cons_self]; exact Bool.false_ne_true)]
    show (let r := takeFirst p (x ++ l :: y); (r.1, a :: r.2)) = _
    rw [ih (fun e m => h e (List.mem_cons_of_mem _ m))]
    rfl

theorem takeFirst_none {α : Type} (p : α → Bool) (x : List α) (h : ∀ e ∈ x, p e = false) : takeFirst p x = (none, x) := by
  induction x with
  | nil => rfl
  | cons a x ih =>
    show (if p a = true then _ else _) = _
    rw [if_neg (by rw [h a List.mem_cons_self]; exact Bool.false_ne_true), ih (fun e m => h e (List.mem_cons_of_mem _ m))]

theorem poke_find (a : Nat) : ∀ (bs : List Byte) (k : Nat) (o : List Host.Cell) (x : Nat),
    ((((List.range' k bs.length).zip bs).foldl (fun (o : List Host.Cell) e => (a + e.1, e.2) :: o) o).find? (fun c => c.1 == x)) =
      if a + k ≤ x ∧ x < a + k + bs.length then some (x, bs.getD (x - (a + k)) 0) else o.find? (fun c => c.1 == x)
  | [], k, o, x => by
    rw [if_neg (by simp only [List.length_nil]; omega)]; rfl
  | b :: bs, k, o, x => by
    rw [List.length_cons, List.range'_succ, List.zip_cons_cons, List.foldl_cons, poke_find a bs (k + 1) _ x]
    by_cases h : a + (k + 1) ≤ x ∧ x < a + (k + 1) + bs.length
    · rw [if_pos h, if_pos (by omega), show x - (a + k) = (x - (a + (k + 1))) + 1 by omega]
      rfl
    · rw [if_neg h, List.find?_cons]
      by_cases e : a + k = x
      · rw [if_pos (by omega)]
        subst e
        simp
      · rw [show ((a + k) == x) = false by simpa using e, if_neg (by omega)]

theorem home_at (s : State) (w : W) (l : SLine) (hd : l.data.length = 64) (hs : Memory.wf s.store = true) (ho : w.out = []) (x : Nat) :
    mget (writeAll s.store (w.homeLine l).out) x = if l.line * 64 ≤ x ∧ x < l.line * 64 + 64 then l.data.getD (x - l.line * 64) 0 else mget s.store x := by
  rw [mget_writeAll hs]
  have : (w.homeLine l).out = ((List.range' 0 l.data.length).zip l.data).foldl (fun (o : List Host.Cell) e => (l.line * 64 + e.1, e.2) :: o) [] := by
    show ((List.range l.data.length).zip l.data).foldl _ w.out = _
    rw [ho, List.range_eq_range']
  rw [this, poke_find, hd, Nat.add_zero]
  split <;> rfl

theorem findIdx_at {α : Type} (p : α → Bool) (x : List α) (l : α) (y : List α) (h : ∀ e ∈ x, p e = false) (k : p l = true) : (x ++ l :: y).findIdx? p = some x.length := by
  induction x with
  | nil => rw [List.nil_append, List.findIdx?_cons, k]; rfl
  | cons a x ih =>
    rw [List.cons_append, List.findIdx?_cons, h a List.mem_cons_self, ih (fun e m => h e (List.mem_cons_of_mem _ m))]
    rfl

theorem lmod_at {α : Type} (x : List α) (l : α) (y : List α) (f : α → α) : lmod (x ++ l :: y) x.length f = x ++ f l :: y := by
  unfold lmod
  induction x with
  | nil => rfl
  | cons a x ih => simpa using ih

theorem put_at (x : List Byte) (o v : Nat) (h : o + 4 ≤ x.length) : at' (x.take o ++ le 4 v ++ x.drop (o + 4)) o 4 = v % 2 ^ 32 := by
  unfold at'
  have l1 : (x.take o).length = o := by rw [List.length_take]; omega
  have a1 : (x.take o ++ (le 4 v ++ x.drop (o + 4))).drop o = le 4 v ++ x.drop (o + 4) := by
    exact List.drop_left' l1
  rw [List.append_assoc, a1]
  have a2 : (le 4 v ++ x.drop (o + 4)).take 4 = le 4 v := List.take_left' (length_le 4 v)
  rw [a2]; exact leN_le4 v

theorem line_last (w : W) (x : List SLine) (l : SLine) (h : w.dev.sto.win = x ++ [l]) : w.line l.line = l.data := by
  unfold W.line
  rw [h, ← List.append_assoc, List.reverse_append]
  simp

end Sys2Proof.Machine
end

