-- ==== Sys2Proof/Laws/OrderLog.lean ====
section
/-! SUPPORT. The order log and its commands. -/

namespace Sys2Proof.Machine

theorem log_act (s : State) (t : Ten) (a v : Nat) (hw : s.writer t) (l : 0xB0000 ≤ a) (u : a < 0xC0000) (q : a % 4 = 0) (x : W) (st : Nat)
    (k : (load s).logWrite t.val (a - 0xB0000) v = (x, st)) : (load s).act t.val a v = x.ack st := by
  refine act_done _ _ _ _ hw.1 x st ?_
  rw [regWrite_log _ _ _ _ _ _ (rackWord_low a q (by omega)) (fatalBars_calm _ _ _ hw.2) l (by omega), k]
  rfl

theorem logE_joins (w : W) (e : List Nat) (o : OLine) (es : List (List Nat)) (h : w.dev.log.lstate ≤ 1) (c : w.dev.log.cur = some o) (d : (w.now - o.time) / 5 < 2 ^ 26)
    (a : addTo o.ents (putDT e ((w.now - o.time) / 5)) = some es) : w.logE e = { w with dev.log.cur := some { o with ents := es, dirty := true } } := by
  unfold W.logE
  rw [if_neg (by omega), if_neg (by unfold OrderLog.recording; simp; omega), c]
  dsimp only
  rw [if_neg (Nat.not_le.mpr d), a]

theorem logE_begins (w : W) (e : List Nat) (h : w.dev.log.lstate = 0) (c : w.dev.log.cur = none) (st : w.dev.log.start = 0) (n : w.dev.log.next < 2 ^ 32 - 1) :
    w.logE e = { w with dev.log.cur := some { oseq := w.dev.log.next, time := w.now, ents := [putDT e 0] }, dev.log.next := w.dev.log.next + 1 } := by
  unfold W.logE
  rw [if_neg (by omega), if_neg (by unfold OrderLog.recording; simp; omega), c]
  dsimp only
  have t : w.takeOseq = ({ w with dev.log.next := w.dev.log.next + 1 }, some w.dev.log.next) := by
    unfold W.takeOseq
    dsimp only
    rw [st, h]
    rw [if_neg (by simp), if_neg (by simp), if_neg (Nat.ne_of_lt n)]
    simp only [ne_eq, not_true_eq_false, decide_false, Bool.false_and, Bool.false_eq_true, if_false]
  unfold W.newLine
  rw [t]
  rfl

theorem closeLine_cur (w : W) : w.closeLine.dev.log = { w.dev.log with cur := none, gapLines := w.closeLine.dev.log.gapLines } := by
  unfold W.closeLine
  split
  · rename_i h
    have : w.dev.log = { w.dev.log with cur := none } := by
      conv_rhs => rw [← h]
    exact this
  · unfold W.stageLog
    dsimp only
    repeat' split
    all_goals rfl

theorem header_log (w : W) : w.logHeader.dev.log = { w.dev.log with gapLines := w.logHeader.dev.log.gapLines } := by
  unfold W.logHeader W.stageLog
  dsimp only
  repeat' split
  all_goals rfl

theorem stage_room (w : W) (l : SLine) (h : w.dev.sto.log.length < 32) (k : ∀ x ∈ w.dev.sto.log, x.line = l.line → x.started = true) :
    (w.stageLog l).1 = { w with dev.sto.log := w.dev.sto.log ++ [{ l with started := !w.dev.sup.notice }] } := by
  unfold W.stageLog
  have : w.dev.sto.log.any (fun x => x.line == l.line && !x.started) = false := by
    rw [List.any_eq_false]
    intro x hx
    simp only [Bool.and_eq_true, beq_iff_eq, Bool.not_eq_true', not_and]
    intro y
    rw [k x hx y]; simp
  dsimp only
  rw [if_neg (by rw [this]; exact Bool.false_ne_true), if_pos h]

theorem keyed_out (key : BitVec 16) (x : Nat) (h : x < 65536) : keyed key x / 2 ^ 16 = key.toNat := by
  unfold keyed; omega

theorem keyed_fld (key : BitVec 16) (x : Nat) (h : x < 32) : fld (keyed key x) 0 5 = x := by
  unfold fld keyed
  rw [Nat.shiftRight_zero]
  omega

theorem ctrl_denied (w : W) (t : Ten) (key : BitVec 16) (x : Nat) (hx : x < 65536) (h : t ≠ 4 ∨ key ≠ 0x4D42) : w.logCtrl t.val (keyed key x) = (w, stDENIED) := by
  unfold W.logCtrl
  refine if_pos ?_
  rw [keyed_out key x hx]
  rcases h with h | h
  · exact .inl (fun y => h (Fin.ext y))
  · exact .inr (fun y => h (BitVec.eq_of_toNat_eq y))

theorem ctrl_at (w : W) (x : Nat) (y : W × Nat) (h : (match x with
    | 1 => (w.freeze, stOK)
    | 2 => (w.armLog, stOK)
    | 4 => if w.dev.mayLoad then (w.loadLog, stOK) else (w, stDENIED)
    | 8 => w.goLog
    | 16 => if w.dev.mayLoad then (w.abortLog, stOK) else (w, stDENIED)
    | _ => (w, stDENIED)) = y) (hx : x < 32) : w.logCtrl (4 : Ten).val (keyed 0x4D42 x) = y := by
  unfold W.logCtrl
  rw [if_neg (by rw [keyed_out _ _ (by omega)]; simp), keyed_fld _ _ hx]
  exact h

theorem ctrl_act (s : State) (t : Ten) (key : BitVec 16) (x : Nat) (w : s.writer t) (y : W) (st : Nat) (h : (load s).logCtrl t.val (keyed key x) = (y, st)) :
    (load s).act t.val 0xB0000 (keyed key x) = y.ack st := by
  refine log_act s t 0xB0000 _ w (by omega) (by omega) (by omega) y st ?_
  unfold W.logWrite
  rw [if_pos (by omega)]; exact h

theorem frozen_log (w : W) : w.freezeLog.dev.log = { w.dev.log with lstate := 2, foseq := w.dev.log.next - 1, cur := none, gapLines := w.freezeLog.dev.log.gapLines } := by
  have a := closeLine_cur w
  have b := header_log ({ w.closeLine with dev.log.lstate := 2, dev.log.foseq := w.closeLine.dev.log.next - 1 } : W)
  have e : w.freezeLog = W.logHeader ({ w.closeLine with dev.log.lstate := 2, dev.log.foseq := w.closeLine.dev.log.next - 1 } : W) := rfl
  rw [← e] at b
  generalize w.freezeLog = u at *
  dsimp only at b
  generalize w.closeLine = v at *
  rw [b, a]

theorem logE_rq (w : W) (e : List Nat) : (w.logE e).rq = w.rq := by rw [(W.logE_log w e).1]

theorem logE_commits (s : State) (d : Dev) (e : List Nat) (h4 : d.log.lstate ≠ 4) : 
      let z : State := { s with dev := d }
      let u := commit s (({ load s with dev := d } : W).logE e)
      (∀ o es, d.log.lstate ≤ 1 → d.log.cur = some o → (d.tim.now - o.time) / 5 < 2 ^ 26 → addTo o.ents (putDT e ((d.tim.now - o.time) / 5)) = some es →
        u = { z with dev.log.cur := some { o with ents := es, dirty := true } }) ∧
      (d.log.lstate = 0 → d.log.cur = none → d.log.start = 0 → d.log.next < 2 ^ 32 - 1 →
        u = { z with dev.log.cur := some { oseq := d.log.next, time := d.tim.now, ents := [putDT e 0] }, dev.log.next := d.log.next + 1 }) ∧
      (1 < d.log.lstate → u = z) ∧ u = z.logged u := by
  intro z u
  refine ⟨?_, ?_, ?_, ?_⟩
  · intro o es a b c k
    simp only [u]
    rw [logE_joins ({ load s with dev := d } : W) e o es a b c k]; rfl
  · intro a b c k
    simp only [u]
    rw [logE_begins ({ load s with dev := d } : W) e a b c k]; rfl
  · intro a
    simp only [u]
    rw [W.logE_idle ({ load s with dev := d } : W) e h4 a]; rfl
  · exact commit_logged s ({ load s with dev := d } : W) _ (W.logE_log _ _)

end Sys2Proof.Machine
end

