-- ==== Sys2Proof/Laws/Replay.lean ====
section
/-! SUPPORT. Replay. -/

namespace Sys2Proof.Machine

theorem evalPort_idle (w : W) (p : RPort) (h : w.portsOn = false) (he : (w.dev.ring.port p).st = 0) : w.evalPort p = w := by
  unfold W.evalPort
  dsimp only
  rw [h, he]
  rfl

theorem goNow_at (w : W) (hst : w.dev.sto = {}) (hn : w.dev.sup.notice = false) (h0 : w.bankRec 0 = none) (h1 : w.bankRec 1 = none) (h3 : w.dev.fus.lcs ≠ 3) (hr : w.dev.pai.role ≠ 3)
    (hb : w.dev.bd.runs = true) (ha : w.dev.idn.astate ≠ 1) (hw : w.dev.idn.wbState ≠ 2)
    (hu : w.dev.ring.up.st = 0) (hd : w.dev.ring.dn.st = 0) (h4 : w.dev.log.lstate = 3) (hs : w.dev.flt.stopped dUnit = false) :
    let l := w.line (oLine w.dev.rpl.src)
    ∃ v : W, v.SameButRaise w.goNow ∧ v.rq = [] ∧ v.fuses = w.fuses ∧ v.blow = w.blow ∧ v.bufs = w.bufs ∧ v.bout = w.bout ∧ v.dev.acc = w.dev.acc ∧ v.dev.hpt.rx = [] ∧
      v.dev.tim.now = at' l 4 8 ∧ v.dev.tim.mono = at' l 26 8 ∧ v.dev.tim.state = fld (at' l 19 1) 2 2 ∧ v.dev.tim.tset = tbit (at' l 18 1) 7 ∧ v.dev.tim.fcorr = clampF (toInt 32 (at' l 38 4)) ∧
      v.dev.ring.addr = at' l 17 1 ∧ v.dev.rst.last = at' l 16 1 % 16 ∧ v.dev.rst.softResets = satAdd 8 w.dev.rst.softResets 1 ∧ v.dev.pool = {} ∧ v.dev.sup.mode = 0 ∧
      v.dev.img.woven = false ∧ v.dev.bd.core = true ∧ v.dev.bd.tabs = false ∧ v.dev.fus = w.dev.fus ∧ v.dev.pins = w.dev.pins := by
  intro l
  have e1 : w.commitAll = w := by
    have x : ({ w.dev.sto with log := [], own := [], win := [] } : Store) = w.dev.sto := by rw [hst]
    unfold W.commitAll
    dsimp only
    have z : w.dev.sto.own ++ w.dev.sto.log ++ w.dev.sto.win = [] := by rw [hst]; rfl
    rw [x, z]; rfl
  let cause := at' l 16 1 % 16
  let fo := if lcrcOk (w.line lnOrder) then at' (w.line lnOrder) 10 4 else 0
  have ef0 : w.frozenReset (some cause) = w := if_neg (by rw [h4]; decide)
  have ec : w.idCut.wbStop = w := cut_none w ha hw
  let d := w.dev.softCleared cause
  let y : W := { w with rq := [], dev := { d with
      tim := { d.tim with
        now := at' l 4 8, nowFrac := 0, mono := at' l 26 8, monoFrac := 0, fcorr := clampF (toInt 32 (at' l 38 4)), slewLeft := 0,
        state := fld (at' l 19 1) 2 2, tset := tbit (at' l 18 1) 7, stepPend := false }
      ring := { d.ring with addr := at' l 17 1 }
      log := { d.log with lstate := 4, foseq := fo }
      rpl := { src := d.rpl.src, rstate := 1, at' := w.dev.rpl.src } } }
  let w2 : W := W.fromStart l w.dev.rpl.src fo { w with dev := d, rq := [] }
  have w2e : w2 = y.logHeader := rfl
  have L := W.logHeader_log y
  have f0 : FewLines 0 w y := ⟨hn, by show w.dev.sto.win = _; rw [hst], by show ∀ l ∈ w.dev.sto.own, _; rw [hst]; simp, by show ∀ l ∈ w.dev.sto.log, _; rw [hst]; simp, by show w.dev.sto.log.length ≤ 0; rw [hst]; simp, rfl, rfl⟩
  have f1 := logHeader_few 0 w y f0 (by omega)
  have ls2 : y.logHeader.dev.log.lstate = 4 := by
    unfold W.logHeader W.stageLog
    dsimp only
    repeat' split
    all_goals rfl
  rw [← w2e] at L f1 ls2
  have L1 := L.1
  have w2n : w.goNow = (let w := w2.boardThrough.meetBoard.evalPorts
      if w.dev.fus.lcs = 3 ∧ !w.dev.fus.vdbg then w.modImg (fun i => { i with woven := false, cfg := {} }) else w.startWeave false) := by
    unfold W.goNow W.softNow
    extract_lets q l' h fo' a b c e f g
    have ea : a = w := e1
    have eb : b = w := by
      simp only [b]; rw [ea]
      exact if_neg (by intro x; exact hr x.1)
    have ec' : c = w := by simp only [c]; rw [eb]; exact ef0
    have ed : e = w := by simp only [e]; rw [ec']; exact ec
    have ee : f = w2 := by simp only [f]; rw [ed]
    simp only [g]
    rw [ee]
  generalize w2 = w2 at *
  have b2 : w2.dev.bd = w.dev.bd := by rw [L1]; rfl
  have r2 : w2.dev.bd.runs = true := by rw [b2]; exact hb
  have c2 : w2.dev.bd.core = true := by unfold Board.runs at r2; simp at r2; exact r2.1
  obtain ⟨ll, q, e3⟩ := failSafe_any w2 w2.dev.bd c2
  obtain ⟨l2, e4⟩ := restart_at w2 ({ w2.dev.bd with lanes := ll, wseq := q } : Board).halted
  have bt : w2.boardThrough = w2.failSafeAll.boardAgain := if_pos r2
  have e3' : w2.failSafeAll = _ := e3
  rw [e3'] at bt
  unfold W.boardAgain at bt
  rw [e4, endQuarantine_none _ (by
    show ∀ e ∈ w2.dev.pool.tkts, _
    have : w2.dev.pool.tkts = [] := by rw [L1]; rfl
    rw [this]; simp)] at bt
  revert bt
  generalize hB : (Board.page2 _ : Board) = B
  have B1 : B.runs = true ∧ B.core = true ∧ B.tabs = false := by rw [← hB]; exact ⟨rfl, rfl, rfl⟩
  intro bt
  let w3 := (w2.withBd B).meetBoard
  have m3 : w3 = { w2 with
      dev.bar := w3.dev.bar
      dev.sup := { w2.dev.sup with up := B.up, low := B.low, bBrown := false }
      dev.rst := { w2.dev.rst with bnr := true }
      dev.bd := { B with outS := [], rackAlive := true } } ∧ w3.dev.bar.bAlive = true := by
    simp only [w3]
    unfold W.meetBoard
    simp only [W.withBd_bd, B1.1]
    unfold W.modBar W.modSup W.modRst W.modBd
    simp only [if_true, Bool.or_true]
    exact ⟨rfl, trivial⟩
  have w3e : (w2.withBd B).meetBoard = w3 := rfl
  generalize w3 = w3 at *
  obtain ⟨m3, m3b⟩ := m3
  have p3 : w3.portsOn = false := by
    show (!w3.dev.rst.held && w3.dev.rst.vdda && w3.dev.sup.mode != 2 && decide (w3.dev.log.lstate < 4) && w3.dev.fus.inst != 0x00 && w3.dev.fus.inst != 0x03 && w3.dev.fus.inst != 0x04) = false
    have a4 : w3.dev.log.lstate = 4 := by rw [m3]; exact ls2
    rw [a4]
    simp
  have u0 : (w3.dev.ring.port .up).st = 0 := by
    show w3.dev.ring.up.st = 0
    rw [m3]; show w2.dev.ring.up.st = 0; rw [L1]; exact hu
  have d0 : (w3.dev.ring.port .dn).st = 0 := by
    show w3.dev.ring.dn.st = 0
    rw [m3]; show w2.dev.ring.dn.st = 0; rw [L1]; exact hd
  have ev : w3.evalPorts = w3 := by
    unfold W.evalPorts
    rw [evalPort_idle w3 .up p3 u0, evalPort_idle w3 .dn p3 d0]
  have f4 : FewLines 1 w w3 := f1.of (by rw [m3]) (by rw [m3]) ⟨by rw [m3], by rw [m3]⟩
  have n0 := (bankRec_few 1 w w3 f4 hst 0 (by decide)).trans h0
  have n1 := (bankRec_few 1 w w3 f4 hst 1 (by decide)).trans h1
  have R := startWeave_raises w3 false n0 n1 (by rw [m3]; show w2.dev.flt.slots = []; rw [L1]; exact dropAll_slots _ hs)
  have key : w.goNow = w3.startWeave false := by
    rw [w2n, bt, w3e, ev]
    refine if_neg ?_
    intro x
    have y' : w3.dev.fus = w.dev.fus := by rw [m3]; show w2.dev.fus = _; rw [L1]; rfl
    have x1 : w3.dev.fus.lcs = 3 := x.1
    rw [y'] at x1
    exact h3 x1
  rw [key]
  have t3 : w3.dev.tim = y.dev.tim := by rw [m3]; show w2.dev.tim = _; rw [L1]
  refine ⟨_, R, ?_, ?_, ?_, ?_, ?_, ?_, ?_, ?_, ?_, ?_, ?_, ?_, ?_, ?_, ?_, ?_, ?_, ?_, ?_, ?_, ?_, ?_⟩
  · show w3.rq = _; rw [m3]; show w2.rq = _; rw [L1]
  · show w3.fuses = _; rw [m3]; show w2.fuses = _; rw [L1]
  · show w3.blow = _; rw [m3]; show w2.blow = _; rw [L1]
  · show w3.bufs = _; rw [m3]; show w2.bufs = _; rw [L1]
  · show w3.bout = _; rw [m3]; show w2.bout = _; rw [L1]
  · show w3.dev.acc = _; rw [m3]; show w2.dev.acc = _; rw [L1]; rfl
  · show w3.dev.hpt.rx = _; rw [m3]; show w2.dev.hpt.rx = _; rw [L1]; rfl
  · show w3.dev.tim.now = _; rw [t3]
  · show w3.dev.tim.mono = _; rw [t3]
  · show w3.dev.tim.state = _; rw [t3]
  · show w3.dev.tim.tset = _; rw [t3]
  · show w3.dev.tim.fcorr = _; rw [t3]
  · show w3.dev.ring.addr = _; rw [m3]; show w2.dev.ring.addr = _; rw [L1]
  · show w3.dev.rst.last = _; rw [m3]; show w2.dev.rst.last = _; rw [L1]; rfl
  · show w3.dev.rst.softResets = _; rw [m3]; show w2.dev.rst.softResets = _; rw [L1]; rfl
  · show w3.dev.pool = _; rw [m3]; show w2.dev.pool = _; rw [L1]; rfl
  · show w3.dev.sup.mode = _; rw [m3]; show w2.dev.sup.mode = _; rw [L1]; rfl
  · rfl
  · show w3.dev.bd.core = _; rw [m3]; exact B1.2.1
  · show w3.dev.bd.tabs = _; rw [m3]; exact B1.2.2
  · show w3.dev.fus = _; rw [m3]; show w2.dev.fus = _; rw [L1]; rfl
  · show w3.dev.pins = _; rw [m3]; show w2.dev.pins = _; rw [L1]; rfl

theorem close_held (w : W) (h : w.rq = []) (k : w.dev.hpt.rx = []) : w.close = w := by
  have s : ∀ n, W.serve n w = w := fun n => by cases n <;> simp [W.serve, h]
  have f : w.settleReplay = w := by
    unfold W.settleReplay
    split
    · unfold W.feedFrame; rw [k]
    · rfl
  unfold W.close
  rw [s, f, s]

theorem serveOne_go (w : W) : w.serveOne (.soft 256) = w.goNow := by
  rw [W.serveOne, if_pos rfl]

theorem serve_go (w : W) (hq : w.rq = [.soft 256]) (hr : (({ w with rq := [] } : W).goNow).rq = []) (hx : (({ w with rq := [] } : W).goNow).dev.hpt.rx = []) :
    w.close = ({ w with rq := [] } : W).goNow := by
  have e : W.serve 16 w = ({ w with rq := [] } : W).goNow := by
    have a : W.serve 16 w = W.serve 15 (({ w with rq := [] } : W).serveOne (.soft 256)) := by
      rw [W.serve, hq]
    rw [a]
    have b : ({ w with rq := [] } : W).serveOne (.soft 256) = ({ w with rq := [] } : W).goNow := serveOne_go _
    rw [b]
    generalize ({ w with rq := [] } : W).goNow = v at *
    simp [W.serve, hr]
  unfold W.close
  rw [e]
  have := close_held _ hr hx
  unfold W.close at this
  generalize ({ w with rq := [] } : W).goNow = v at *
  have s : ∀ n, W.serve n v = v := fun n => by cases n <;> simp [W.serve, hr]
  rw [s] at this
  exact this

theorem header_log_rpl (w : W) : w.logHeader.dev.log = { w.dev.log with gapLines := w.logHeader.dev.log.gapLines } ∧ w.logHeader.dev.rpl = w.dev.rpl := by
  unfold W.logHeader W.stageLog
  dsimp only
  repeat' split
  all_goals exact ⟨rfl, rfl⟩

theorem rplStop_at (w : W) (a b c d e f : Nat) : w.SameButLog (w.rplStop a b c d e f) ∧ (w.rplStop a b c d e f).dev.log = { w.dev.log with lstate := 5, gapLines := (w.rplStop a b c d e f).dev.log.gapLines } ∧
    (w.rplStop a b c d e f).dev.rpl = { w.dev.rpl with rstate := a, reason := b, kind := c, word := d, exp := e, obs := f, items := [] } := by
  have h := header_log_rpl ({ w with dev.log.lstate := 5, dev.rpl.rstate := a, dev.rpl.reason := b, dev.rpl.kind := c, dev.rpl.word := d, dev.rpl.exp := e, dev.rpl.obs := f, dev.rpl.items := [] } : W)
  exact ⟨W.rplStop_log w a b c d e f, h.1, h.2⟩

end Sys2Proof.Machine
end

