-- ==== Sys2Proof/Laws/Epochs.lean ====
section
/-! SUPPORT. Epochs of a pair. -/

namespace Sys2Proof.Machine

theorem pai_act (s : State) (t : Ten) (v : Nat) (hw : s.writer t) (x : W) (st : Nat) (k : (load s).paiWrite t.val 0 v = (x, st)) : (load s).act t.val 0xC0000 v = x.ack st := by
  refine act_done _ _ _ _ hw.1 x st ?_
  rw [regWrite_pai _ _ _ _ _ _ (rackWord_low 0xC0000 (by omega) (by omega)) (fatalBars_calm _ _ _ hw.2) (by omega) (by omega), show 0xC0000 - 0xC0000 = 0 from rfl, k]
  rfl

theorem ack_raise {v w : W} (h : v.SameButRaise w) (st : Nat) : (v.ack st).SameButRaise (w.ack st) := by
  obtain ⟨e, l, p⟩ := h
  refine ⟨?_, l, p⟩
  rw [e]; rfl

theorem unicast_raise (w : W) (d : Nat) (b : List Byte) : w.SameButRaise (w.sendUnicast d b) := by
  unfold W.sendUnicast
  dsimp only
  repeat' split
  · exact .refl w
  · exact W.putOut_raise _ _ _
  · exact ⟨rfl, id, List.prefix_rfl⟩

/-- The open values a pair frame draws. -/
def openDraws (w : W) : Nat := if w.dev.pai.pAddr = 0 ∨ w.dev.ring.addr = 0 then 0 else 1

theorem pairFrame_at (w : W) (ty : Nat) (pay : List Byte) : ({ w with dev := { w.dev with freeCtr := w.dev.freeCtr + openDraws w } } : W).SameButRaise (w.pairFrame ty pay) := by
  unfold W.pairFrame openDraws
  by_cases h : w.dev.pai.pAddr = 0 ∨ w.dev.ring.addr = 0
  · rw [if_pos h, if_pos h]; exact .refl w
  · rw [if_neg h, if_neg h]
    exact unicast_raise w.draw.2 _ _

theorem freeCtr_raise {v w : W} (h : v.SameButRaise w) (n : Nat) :
    ({ v with dev := { v.dev with freeCtr := n } } : W).SameButRaise { w with dev := { w.dev with freeCtr := n } } := by
  obtain ⟨e, l, p⟩ := h
  refine ⟨?_, l, p⟩
  rw [e]

theorem frames_at (ty : Nat) {α : Type} (pay : W → α → List Byte) : ∀ (l : List α) (w : W),
    ({ w with dev := { w.dev with freeCtr := w.dev.freeCtr + l.length * openDraws w } } : W).SameButRaise (l.foldl (fun w e => w.pairFrame ty (pay w e)) w)
  | [], w => by
    rw [List.length_nil, Nat.zero_mul]; exact .refl w
  | e :: l, w => by
    rw [List.foldl_cons]
    have A := pairFrame_at w ty (pay w e)
    have B := frames_at ty pay l (w.pairFrame ty (pay w e))
    generalize w.pairFrame ty (pay w e) = u at *
    have e1 : openDraws u = openDraws w := by rw [A.1]; rfl
    have e2 : u.dev.freeCtr = w.dev.freeCtr + openDraws w := by rw [A.1]
    rw [e1, e2] at B
    refine W.SameButRaise.trans ?_ B
    have C := freeCtr_raise A (w.dev.freeCtr + openDraws w + l.length * openDraws w)
    have e3 : w.dev.freeCtr + (e :: l).length * openDraws w = w.dev.freeCtr + openDraws w + l.length * openDraws w := by
      rw [List.length_cons, Nat.succ_mul]; omega
    rw [e3]
    exact C

theorem ackTime_some (p : Pair) (m : Nat) : (match p.ackT with | none => some m | some t => some t) = some (p.ackT.getD m) := by cases p.ackT <;> rfl

/-- The pair state after an epoch is cut. -/
def cutEpoch (w : W) (rel fa : Bool) : W := w.modPai (fun p => { p with
  eno := (w.dev.pai.eno + 1) % 2 ^ 32, sizeLast := (w.dev.epoch ((w.dev.pai.eno + 1) % 2 ^ 32) rel fa).length
  sizePeak := max p.sizePeak (w.dev.epoch ((w.dev.pai.eno + 1) % 2 ^ 32) rel fa).length, ackT := some (p.ackT.getD w.mono) })

theorem sendEpoch_at (w : W) (rel fa : Bool) :
    ({ cutEpoch w rel fa with dev := { (cutEpoch w rel fa).dev with freeCtr := w.dev.freeCtr + (pieces 1016 5 (w.dev.epoch ((w.dev.pai.eno + 1) % 2 ^ 32) rel fa)).length * openDraws w } } : W).SameButRaise (w.sendEpoch rel fa) := by
  unfold W.sendEpoch
  extract_lets _ _ eno bs ps w1
  have e : w1 = cutEpoch w rel fa := by
    simp only [w1]
    unfold cutEpoch W.modPai
    dsimp only
    cases w.dev.pai.ackT <;> rfl
  have F := frames_at 5 (fun (w : W) (e : Nat × List Byte) => w.fragment eno e.1 ps.length false rel e.2) ((List.range ps.length).zip ps) w1
  have len : ((List.range ps.length).zip ps).length = ps.length := by simp
  rw [len, e] at F
  rw [e]
  exact F

theorem log_cut (s : State) (w : W) (h : (load s).SameButLog w) (rel fa : Bool) : (cutEpoch (load s) rel fa).SameButLog (cutEpoch w rel fa) := by
  obtain ⟨e, l⟩ := h
  refine ⟨?_, l⟩
  rw [e]
  rfl

end Sys2Proof.Machine
end

