-- ==== Sys2Proof/Laws/Takeover.lean ====
section
/-! SUPPORT. Takeovers, handovers and the pair wire. -/

namespace Sys2Proof.Machine

theorem lost_congr (a b : W) (h : a.dev.tim = b.dev.tim) (k : a.cfg = b.cfg) : ∀ (l done : List (List Byte)), a.lostFrames done l = b.lostFrames done l
  | [], done => by unfold W.lostFrames; rfl
  | e :: l, done => by
    unfold W.lostFrames
    have p : ∀ mine, a.lostPayload e mine = b.lostPayload e mine := by
      intro mine
      unfold W.lostPayload W.now
      rw [h, k]
    dsimp only
    rw [lost_congr a b h k l done, lost_congr a b h k l (e :: done), p]

theorem discard_at (w : W) : w.discardPart = w.modPai (fun p => { p with
      part := none, frags := if p.part = none then p.frags else [], discarded := if p.part = none then p.discarded else satAdd 8 p.discarded 1 }) := by
  unfold W.discardPart
  cases h : w.dev.pai.part with
  | none =>
    have e : ({ w.dev.pai with part := none, frags := if w.dev.pai.part = none then w.dev.pai.frags else [], discarded := if w.dev.pai.part = none then w.dev.pai.discarded else satAdd 8 w.dev.pai.discarded 1 } : Pair) = w.dev.pai := by
      rw [if_pos h, if_pos h, ← h]
    exact congrArg (fun q => ({ w with dev := { w.dev with pai := q } } : W)) e.symm
  | some a =>
    have e : ({ w.dev.pai with part := none, frags := if w.dev.pai.part = none then w.dev.pai.frags else [], discarded := if w.dev.pai.part = none then w.dev.pai.discarded else satAdd 8 w.dev.pai.discarded 1 } : Pair) =
      { w.dev.pai with part := none, frags := [], discarded := satAdd 8 w.dev.pai.discarded 1 } := by
      rw [if_neg (by rw [h]; simp), if_neg (by rw [h]; simp)]
    exact congrArg (fun q => ({ w with dev := { w.dev with pai := q } } : W)) e.symm

/-- The control packets with a chunk of the tables queued. -/
def chunked (w : W) (lvl : Tbl Nat) : List Pkt := if w.dev.bar.bAlive then w.dev.arb.ctl ++ [({ body := .pairChunk false lvl } : Pkt)] else w.dev.arb.ctl

theorem takeBaton_at (w : W) (lvl : Tbl Nat) : w.takeBaton lvl = { w with dev := { w.dev with
    pai := { w.dev.pai with
      role := 3, pull := true, pairn := false, parked := false, heldSilent := false, releasing := 0, deadCount := 0, forceSent := false, relSeen := none, ackT := some w.mono, acked := 0, noackNow := false }
    arb := { w.dev.arb with ctl := chunked w lvl } } } := by
  unfold W.takeBaton W.control chunked
  cases b : w.dev.bar.bAlive with
  | true => rw [if_pos (by exact b)]; rfl
  | false => rw [if_neg (by show ¬ w.dev.bar.bAlive = true; rw [b]; exact Bool.false_ne_true)]; rfl

/-- The tenants as an epoch gives them. -/
def epochTens (bs : List Byte) (l : List Tenant) : List Tenant :=
  (List.range 5).foldl (fun l u => lmod l u (fun x => { x with streams := upto 16 (fun k =>
        (k, { (tget {} x.streams k : StreamSt) with seen := tbit (at' (bs.drop (128 + 64 * u)) 2 2) k, last := at' (bs.drop (128 + 64 * u)) (4 + 2 * k) 2 })) })) l

theorem epochTens_fold (bs : List Byte) : ∀ (l : List Nat) (w : W), l.foldl (fun (w : W) t =>
    let b := bs.drop (128 + 64 * t)
    w.modTen t (fun x => { x with streams := (List.range 16).map (fun s =>
      let o : StreamSt := tget {} x.streams s
      (s, { o with seen := tbit (at' b 2 2) s, last := at' b (4 + 2 * s) 2 })) })) w =
    { w with dev := { w.dev with tens := l.foldl (fun l u => lmod l u (fun x => { x with streams := upto 16 (fun k =>
        (k, { (tget {} x.streams k : StreamSt) with seen := tbit (at' (bs.drop (128 + 64 * u)) 2 2) k, last := at' (bs.drop (128 + 64 * u)) (4 + 2 * k) 2 })) })) w.dev.tens } }
  | [], w => rfl
  | t :: l, w => by
    rw [List.foldl_cons, epochTens_fold bs l]
    rfl

theorem load_at (w : W) (bs : List Byte) (h : w.dev.pai.newest = bs) : w.loadEpoch = { w with dev := { w.dev with
      bar := { w.dev.bar with lseq := at' bs 38 2, news := [], mirror := upto 24 (fun i => (8 + i, (at' bs 38 2, fld (at' bs 32 6) (2 * i) 2))) }
      tens := epochTens bs w.dev.tens
      idn := { w.dev.idn with
        result := fld (at' bs 448 1) 0 2, slot := fld (at' bs 448 1) 2 2, ids := at' bs 449 1, strapH := BitVec.ofNat 8 (at' bs 450 1), strapZ := BitVec.ofNat 8 (at' bs 451 1)
        profile := BitVec.ofNat 32 (at' bs 452 4), logseq := at' bs 456 4, aseq := at' bs 460 4 } } } := by
  unfold W.loadEpoch
  rw [h]
  dsimp only
  rw [epochTens_fold]
  rfl

/-- The working record once a unit has taken the baton. -/
def tookAt (w : W) (p : Pair) (lvl : Tbl Nat) : W :=
  let bs := w.dev.pai.newest
  { w with dev := { w.dev with
    pai := p
    arb := { w.dev.arb with ctl := chunked w lvl }
    bar := { w.dev.bar with lseq := at' bs 38 2, news := [], mirror := upto 24 (fun i => (8 + i, (at' bs 38 2, fld (at' bs 32 6) (2 * i) 2))) }
    tens := epochTens bs w.dev.tens
    idn := { w.dev.idn with
        result := fld (at' bs 448 1) 0 2, slot := fld (at' bs 448 1) 2 2, ids := at' bs 449 1, strapH := BitVec.ofNat 8 (at' bs 450 1), strapZ := BitVec.ofNat 8 (at' bs 451 1)
        profile := BitVec.ofNat 32 (at' bs 452 4), logseq := at' bs 456 4, aseq := at' bs 460 4 } } }

/-- The pair state with a complete epoch. -/
def wholePai (p : Pair) : Pair := { p with
      part := none, frags := if p.part = none then p.frags else [], discarded := if p.part = none then p.discarded else satAdd 8 p.discarded 1 }

/-- The pair state of a holder. -/
def heldPai (m : Nat) (p : Pair) : Pair := { p with
      role := 3, pull := true, pairn := false, parked := false, heldSilent := false, releasing := 0, deadCount := 0, forceSent := false, relSeen := none, ackT := some m, acked := 0, noackNow := false }

theorem take_load (w : W) (p : Pair) (h : p.newest = w.dev.pai.newest) (lvl : Tbl Nat) : ((({ w with dev := { w.dev with pai := p } } : W).takeBaton lvl).loadEpoch) = tookAt w (heldPai w.mono p) lvl := by
  rw [takeBaton_at, load_at _ w.dev.pai.newest (by exact h)]
  rfl

theorem taken_at (w : W) (p : Pair) (hp : p.newest = w.dev.pai.newest) (hm : w.mayTake = true)
    (cl : w.calm 0x5E dUnit (w.decision 0x5E dUnit false)) (wt : w.dev.ring.addr = 0 ∨ epochEntries w.dev.pai.newest = []) :
    (tookAt w { (heldPai w.mono (wholePai p)) with takeovers := satAdd 8 p.takeovers 1, lostQ := w.lostFrames [] (epochEntries w.dev.pai.newest) } (epochLevels w.cfg w.dev.pai.newest)).SameButRaise
      ({ w with dev := { w.dev with pai := p } } : W).takeover := by
  unfold W.takeover
  have hm' : ({ w with dev := { w.dev with pai := p } } : W).mayTake = true := hm
  rw [hm']
  have dd : ({ w with dev := { w.dev with pai := p } } : W).discardPart = { w with dev := { w.dev with pai := wholePai p } } := discard_at _
  dsimp only
  rw [dd, show (({ w with dev := { w.dev with pai := p } } : W).cfg) = w.cfg from rfl, hp, take_load w (wholePai p) hp]
  rw [if_neg (by simp)]
  let u : W := (tookAt w (heldPai w.mono (wholePai p)) (epochLevels w.cfg w.dev.pai.newest)).modPai (fun p => { p with takeovers := satAdd 8 p.takeovers 1 })
  have R := calm_raiseU (w := u) 0x5E 1 (by exact cl)
  have ue : (tookAt w (heldPai w.mono (wholePai p)) (epochLevels w.cfg w.dev.pai.newest)).modPai (fun p => { p with takeovers := satAdd 8 p.takeovers 1 }) = u := rfl
  rw [ue]
  show W.SameButRaise _ (W.pumpLost ((u.raiseU 0x5E 1).modPai (fun p => { p with lostQ := (u.raiseU 0x5E 1).lostFrames [] (epochEntries w.dev.pai.newest) })))
  have lf : (u.raiseU 0x5E 1).lostFrames [] (epochEntries w.dev.pai.newest) = w.lostFrames [] (epochEntries w.dev.pai.newest) :=
    lost_congr _ _ (by rw [R.1]; rfl) (by unfold W.cfg; rw [R.1]; rfl) _ _
  generalize u.raiseU 0x5E 1 = x at *
  have pl : ∀ y : W, (y.dev.pai.lostQ.isEmpty = true ∨ y.dev.ring.addr = 0) → y.pumpLost = y := by
    intro y h
    unfold W.pumpLost
    refine if_pos ?_
    rcases h with h | h
    · rw [h]; simp
    · simp [h]
  rw [lf, pl]
  · obtain ⟨e, l, q⟩ := R
    refine ⟨?_, l, q⟩
    rw [e]; rfl
  · rcases wt with a | a
    · right
      show x.dev.ring.addr = 0
      rw [R.1]; exact a
    · left
      show (w.lostFrames [] (epochEntries w.dev.pai.newest)).isEmpty = true
      rw [a]; unfold W.lostFrames; rfl

end Sys2Proof.Machine
end

