-- ==== Sys2Proof/Laws/Weaves.lean ====
section
/-! SUPPORT. Weaves, their checks and their outcomes. -/

namespace Sys2Proof.Machine

/-- Every tenant keeps its queues, its use, its generation and its streams. -/
def TensKeep (a b : List Tenant) : Prop := ∀ n, (b.getD n {}).queues = (a.getD n {}).queues ∧ (b.getD n {}).tktUse = (a.getD n {}).tktUse ∧ (b.getD n {}).bufUse = (a.getD n {}).bufUse ∧
  (b.getD n {}).gen = (a.getD n {}).gen ∧ (b.getD n {}).streams = (a.getD n {}).streams

theorem TensKeep.refl (a : List Tenant) : TensKeep a a := fun _ => ⟨rfl, rfl, rfl, rfl, rfl⟩

theorem TensKeep.trans {a b c : List Tenant} (h : TensKeep a b) (k : TensKeep b c) : TensKeep a c := fun n =>
  ⟨(k n).1.trans (h n).1, (k n).2.1.trans (h n).2.1, (k n).2.2.1.trans (h n).2.2.1, (k n).2.2.2.1.trans (h n).2.2.2.1, (k n).2.2.2.2.trans (h n).2.2.2.2⟩

theorem getD_lmod (l : List Tenant) (p n : Nat) (f : Tenant → Tenant) : (lmod l p f).getD n {} = if n = p ∧ p < l.length then f (l.getD n {}) else l.getD n {} := by
  unfold lmod
  simp only [List.getD_eq_getElem?_getD, List.getElem?_modify]
  by_cases h : n = p
  · subst h
    by_cases k : n < l.length
    · simp [k]
    · simp [k]
  · simp [h, show ¬ p = n from fun y => h y.symm]

theorem tensKeep_lmod (l : List Tenant) (p : Nat) (f : Tenant → Tenant)
    (hf : ∀ x, (f x).queues = x.queues ∧ (f x).tktUse = x.tktUse ∧ (f x).bufUse = x.bufUse ∧ (f x).gen = x.gen ∧ (f x).streams = x.streams) : TensKeep l (lmod l p f) := by
  intro n
  rw [getD_lmod]
  by_cases h : n = p ∧ p < l.length
  · rw [if_pos h]; exact hf _
  · rw [if_neg h]; exact ⟨rfl, rfl, rfl, rfl, rfl⟩

theorem modTen_fold (f : Nat → Tenant → Tenant) : ∀ (l : List Nat) (w : W), l.foldl (fun w t => w.modTen t (f t)) w = { w with dev := { w.dev with tens := l.foldl (fun T t => lmod T t (f t)) w.dev.tens } }
  | [], w => rfl
  | t :: l, w => by rw [List.foldl_cons, modTen_fold f l]; rfl

theorem tensKeep_fold (f : Nat → Tenant → Tenant)
    (hf : ∀ t x, (f t x).queues = x.queues ∧ (f t x).tktUse = x.tktUse ∧ (f t x).bufUse = x.bufUse ∧ (f t x).gen = x.gen ∧ (f t x).streams = x.streams) :
    ∀ (l : List Nat) (T : List Tenant), TensKeep T (l.foldl (fun T t => lmod T t (f t)) T)
  | [], T => .refl T
  | t :: l, T => by rw [List.foldl_cons]; exact (tensKeep_lmod T t (f t) (hf t)).trans (tensKeep_fold f hf l _)

theorem debts_at : ∀ (l : List Nat) (w : W), (∀ t ∈ l, (w.dev.ten t).tktUse ≤ w.cfg.tktMin t ∧ (w.dev.ten t).bufUse ≤ w.cfg.bufMin t) →
    ∃ T, l.foldl W.enterDebt w = { w with dev := { w.dev with tens := T } } ∧ TensKeep w.dev.tens T
  | [], w, _ => ⟨w.dev.tens, rfl, .refl _⟩
  | t :: l, w, h => by
    obtain ⟨h1, h2⟩ := h t List.mem_cons_self
    let f1 : Tenant → Tenant := fun x => { x with tdebt := x.tdebt || false, bdebt := x.bdebt || false }
    let f2 : Tenant → Tenant := fun x => { x with tdebt := x.tdebt && !debtOver x.tktUse (w.cfg.tktMin t), bdebt := x.bdebt && !debtOver x.bufUse (w.cfg.bufMin t) }
    have e : w.enterDebt t = { w with dev := { w.dev with tens := lmod (lmod w.dev.tens t f1) t f2 } } := by
      unfold W.enterDebt
      dsimp only
      rw [show decide (w.cfg.tktMin t < (w.dev.ten t).tktUse) = false from decide_eq_false (Nat.not_lt.mpr h1), show decide (w.cfg.bufMin t < (w.dev.ten t).bufUse) = false from decide_eq_false (Nat.not_lt.mpr h2)]
      simp only [Bool.false_and, Bool.false_eq_true, if_false]
      rfl
    have k : TensKeep w.dev.tens (lmod (lmod w.dev.tens t f1) t f2) := (tensKeep_lmod _ _ f1 (fun _ => ⟨rfl, rfl, rfl, rfl, rfl⟩)).trans (tensKeep_lmod _ _ f2 (fun _ => ⟨rfl, rfl, rfl, rfl, rfl⟩))
    obtain ⟨T, e', k'⟩ := debts_at l (w.enterDebt t) (by
      intro u hu
      rw [e]
      have a := h u (List.mem_cons_of_mem _ hu)
      show ((lmod (lmod w.dev.tens t f1) t f2).getD u {}).tktUse ≤ _ ∧ ((lmod (lmod w.dev.tens t f1) t f2).getD u {}).bufUse ≤ _
      rw [(k u).2.1, (k u).2.2.1]; exact a)
    refine ⟨T, ?_, ?_⟩
    · rw [List.foldl_cons, e', e]
    · rw [e] at k'; exact k.trans k'

theorem unseen_fold : ∀ (l : List Nat) (T : List Tenant) (n : Nat),
    (((l.foldl (fun T t => lmod T t Tenant.unseen) T).getD n {}).queues = (T.getD n {}).queues ∧ ((l.foldl (fun T t => lmod T t Tenant.unseen) T).getD n {}).tktUse = (T.getD n {}).tktUse ∧
      ((l.foldl (fun T t => lmod T t Tenant.unseen) T).getD n {}).bufUse = (T.getD n {}).bufUse ∧ ((l.foldl (fun T t => lmod T t Tenant.unseen) T).getD n {}).gen = (T.getD n {}).gen) ∧
    ((n ∈ l ∨ ∀ e ∈ (T.getD n {}).streams, e.2.seen = false) → ∀ e ∈ ((l.foldl (fun T t => lmod T t Tenant.unseen) T).getD n {}).streams, e.2.seen = false)
  | [], T, n => ⟨⟨rfl, rfl, rfl, rfl⟩, fun h => by
      rcases h with h | h
      · simp at h
      · exact h⟩
  | t :: l, T, n => by
    rw [List.foldl_cons]
    obtain ⟨⟨a1, a2, a3, a4⟩, b⟩ := unseen_fold l (lmod T t Tenant.unseen) n
    have g := getD_lmod T t n Tenant.unseen
    have q : ((lmod T t Tenant.unseen).getD n {}).queues = (T.getD n {}).queues ∧ ((lmod T t Tenant.unseen).getD n {}).tktUse = (T.getD n {}).tktUse ∧
        ((lmod T t Tenant.unseen).getD n {}).bufUse = (T.getD n {}).bufUse ∧ ((lmod T t Tenant.unseen).getD n {}).gen = (T.getD n {}).gen := by
      rw [g]; split <;> exact ⟨rfl, rfl, rfl, rfl⟩
    refine ⟨⟨a1.trans q.1, a2.trans q.2.1, a3.trans q.2.2.1, a4.trans q.2.2.2⟩, fun h => b ?_⟩
    have un : ∀ x : Tenant, ∀ e ∈ x.unseen.streams, e.2.seen = false := by
      intro x e he
      unfold Tenant.unseen at he
      dsimp only at he
      obtain ⟨y, -, rfl⟩ := List.mem_map.mp he
      rfl
    by_cases m : n ∈ l
    · exact .inl m
    · right
      rw [g]
      split
      · exact un _
      · rename_i nn
        rcases h with h | h
        · rcases List.mem_cons.mp h with h | h
          · have : ¬ t < T.length := fun y => nn ⟨h, y⟩
            rw [List.getD_eq_getElem?_getD, List.getElem?_eq_none (by omega)]
            intro e he
            simp at he
          · exact absurd h m
        · exact h

theorem len_fold (f : Nat → Tenant → Tenant) : ∀ (l : List Nat) (T : List Tenant), (l.foldl (fun T t => lmod T t (f t)) T).length = T.length
  | [], _ => rfl
  | t :: l, T => by rw [List.foldl_cons, len_fold f l]; unfold lmod; simp

/-- Both arbiters restarted with the image's settings (R192, R200). -/
def restarted (a : Arb) (c : Cfg) : Arb := { a.reload c with
    prio := upto 20 (fun i => fld c.arb.level (2 * i) 2), pmode := c.arb.pmode, pos := 0, q0used := [], makeup := [], bgcred := upto 5 (fun t => nth c.arb.bgw t) }

theorem takeSettings_at (w : W) (c : Cfg) : ∃ T tim, w.takeSettings c = { w with dev := { w.dev with
      img := { w.dev.img with cfg := c }
      hpt := { w.dev.hpt with shortTen := c.shortTen, tmask := c.tenmask }
      sup := { w.dev.sup with warnA := c.vwarnA, warnB := c.vwarnB, banknom := c.banknom }
      tim := tim
      arb := restarted w.dev.arb c
      tens := T
      cks := upto 4 (fun k => { mism := (w.dev.ckUnit k).mism, aliveRej := (w.dev.ckUnit k).aliveRej, run := (c.ck k).init }) } } ∧ TensKeep w.dev.tens T ∧ T.length = w.dev.tens.length := by
  refine ⟨(List.range 5).foldl (fun T t => lmod T t (fun x => { x with capSpent := false })) w.dev.tens,
    if w.cfg.time.tper = c.time.tper ∧ w.cfg.time.tmper = c.time.tmper then w.dev.tim else { w.dev.tim with candTpi := none, candTime := none }, ?_, tensKeep_fold (fun _ x => { x with capSpent := false }) (fun _ _ => ⟨rfl, rfl, rfl, rfl, rfl⟩) _ _, len_fold (fun _ x => { x with capSpent := false }) _ _⟩
  unfold W.takeSettings W.arbRestart
  dsimp only
  rw [modTen_fold (fun _ x => { x with capSpent := false })]
  by_cases h : w.cfg.time.tper = c.time.tper ∧ w.cfg.time.tmper = c.time.tmper
  · rw [if_pos h, if_pos h]; rfl
  · rw [if_neg h, if_neg h]; rfl

/-- What a hot weave leaves as it was, and what it sets. -/
structure HotAt (z : W) (x : Cfg) (u : W) : Prop where
  img : u.dev.img = { z.dev.img with cfg := x }
  short : u.dev.hpt.shortTen = x.shortTen ∧ u.dev.hpt.tmask = x.tenmask
  warn : u.dev.sup.warnA = x.vwarnA ∧ u.dev.sup.warnB = x.vwarnB ∧ u.dev.sup.banknom = x.banknom
  arb : u.dev.arb.pmode = x.arb.pmode ∧ u.dev.arb.pos = 0 ∧ u.dev.arb.cred = upto 20 x.weight ∧ u.dev.arb.prio = upto 20 (fun n => fld x.arb.level (2 * n) 2)
  cks : u.dev.cks = upto 4 (fun k => { mism := (z.dev.ckUnit k).mism, aliveRej := (z.dev.ckUnit k).aliveRej, run := (x.ck k).init })
  same : u.dev.pool = z.dev.pool ∧ u.dev.bd = z.dev.bd ∧ u.dev.fus = z.dev.fus ∧ u.dev.rst = z.dev.rst ∧ u.bufs = z.bufs ∧ u.bout = z.bout ∧ u.blow = z.blow ∧ u.rq = z.rq ∧ u.dev.acc = z.dev.acc ∧ u.dev.bar = z.dev.bar
  time : u.dev.tim.mono = z.dev.tim.mono
  ls : u.dev.log.lstate ≠ 4

theorem HotAt.raise {z : W} {x : Cfg} {u v : W} (h : HotAt z x u) (r : u.SameButRaise v) : HotAt z x v ∧ v.dev.tens = u.dev.tens := by
  obtain ⟨e, l, -⟩ := r
  refine ⟨⟨?_, ?_, ?_, ?_, ?_, ?_, ?_, l h.ls⟩, ?_⟩ <;> rw [e]
  · exact h.img
  · exact h.short
  · exact h.warn
  · exact h.arb
  · exact h.cks
  · exact h.same
  · exact h.time

theorem HotAt.tens {z : W} {x : Cfg} {u : W} (h : HotAt z x u) (T : List Tenant) : HotAt z x { u with dev := { u.dev with tens := T } } :=
  ⟨h.img, h.short, h.warn, h.arb, h.cks, h.same, h.time, h.ls⟩

theorem swapDecision_at (z : W) (x : Cfg) (hl : z.dev.log.lstate ≠ 4) (hd : ∀ u < 5, (z.dev.ten u).tktUse ≤ x.tktMin u ∧ (z.dev.ten u).bufUse ≤ x.bufMin u) :
    HotAt z x (z.swapDecision x) ∧ (∀ n < 5, ∀ e ∈ ((z.swapDecision x).dev.ten n).streams, e.2.seen = false) ∧
      ∀ n, ((z.swapDecision x).dev.ten n).queues = (z.dev.ten n).queues ∧ ((z.swapDecision x).dev.ten n).tktUse = (z.dev.ten n).tktUse ∧ ((z.swapDecision x).dev.ten n).gen = (z.dev.ten n).gen := by
  unfold W.swapDecision
  extract_lets w1 w2 w3 w4
  obtain ⟨T, tim, e1, k1, lt⟩ := takeSettings_at z x
  have tm : tim.mono = z.dev.tim.mono := by
    have : w1.dev.tim.mono = z.dev.tim.mono := by
      simp only [w1]
      unfold W.takeSettings W.arbRestart
      dsimp only
      rw [modTen_fold (fun _ x => { x with capSpent := false })]
      split <;> rfl
    have e' : w1.dev.tim = tim := by simp only [w1]; rw [e1]
    rw [← e']; exact this
  have h1 : HotAt z x w1 := by
    simp only [w1]; rw [e1]
    exact ⟨rfl, ⟨rfl, rfl⟩, ⟨rfl, rfl, rfl⟩, ⟨rfl, rfl, rfl, rfl⟩, rfl, ⟨rfl, rfl, rfl, rfl, rfl, rfl, rfl, rfl, rfl, rfl⟩, tm, hl⟩
  have t1 : w1.dev.tens = T := by simp only [w1]; rw [e1]
  obtain ⟨h2, t2⟩ := h1.raise (W.startLine_log w1 0).raise
  have h2 : HotAt z x w2 := h2
  have t2 : w2.dev.tens = T := t2.trans t1
  have e3 : w3 = { w2 with dev := { w2.dev with tens := (List.range 5).foldl (fun T t => lmod T t Tenant.unseen) w2.dev.tens } } := modTen_fold (fun _ => Tenant.unseen) _ w2
  have un := fun n => unseen_fold (List.range 5) w2.dev.tens n
  have h3 : HotAt z x w3 := by rw [e3]; exact h2.tens _
  have t3 : w3.dev.tens = (List.range 5).foldl (fun T t => lmod T t Tenant.unseen) w2.dev.tens := by rw [e3]
  have q3 : ∀ n, (w3.dev.ten n).queues = (z.dev.ten n).queues ∧ (w3.dev.ten n).tktUse = (z.dev.ten n).tktUse ∧ (w3.dev.ten n).bufUse = (z.dev.ten n).bufUse ∧ (w3.dev.ten n).gen = (z.dev.ten n).gen := by
    intro n
    obtain ⟨⟨a1, a2, a3, a4⟩, -⟩ := un n
    show (w3.dev.tens.getD n {}).queues = _ ∧ (w3.dev.tens.getD n {}).tktUse = _ ∧ (w3.dev.tens.getD n {}).bufUse = _ ∧ (w3.dev.tens.getD n {}).gen = _
    rw [t3]
    rw [t2] at a1 a2 a3 a4 ⊢
    obtain ⟨k1, k2, k3, k4, -⟩ := k1 n
    exact ⟨a1.trans k1, a2.trans k2, a3.trans k3, a4.trans k4⟩
  have c3 : w3.cfg = x := by unfold W.cfg; rw [h3.img]
  obtain ⟨T4, e4, k4⟩ := debts_at (List.range 5) w3 (by
    intro t ht
    rw [c3, (q3 t).2.1, (q3 t).2.2.1]
    exact hd t (List.mem_range.mp ht))
  have e4 : w4 = { w3 with dev := { w3.dev with tens := T4 } } := e4
  have h4 : HotAt z x w4 := by rw [e4]; exact h3.tens _
  obtain ⟨h5, t5⟩ := h4.raise (W.regroup_raise w4)
  have tt : ∀ n, (w4.regroup.dev.ten n) = T4.getD n {} := by
    intro n
    show w4.regroup.dev.tens.getD n {} = _
    rw [t5, e4]
  refine ⟨h5, ?_, ?_⟩
  · intro n hn
    rw [tt n, (k4 n).2.2.2.2, t3]
    exact (un n).2 (.inl (List.mem_range.mpr hn))
  · intro n
    rw [tt n]
    exact ⟨(k4 n).1.trans (q3 n).1, (k4 n).2.1.trans (q3 n).2.1, (k4 n).2.2.2.1.trans (q3 n).2.2.2⟩

theorem hotWeave_at (w : W) (x : Cfg) (img : List Byte) (ten k : Nat) (hl : w.dev.log.lstate ≠ 4) (hn : w.dev.sup.notice = false) (hb : w.dev.bar.bAlive = true)
    (hd : ∀ u < 5, (w.dev.ten u).tktUse ≤ x.tktMin u ∧ (w.dev.ten u).bufUse ≤ x.bufMin u) :
    let u := w.hotWeave x img ten k
    u.dev.img = { w.dev.img with cfg := x, bank := k, bgen := (w.dev.img.bgen + 1) % 2 ^ 32, phase := 2, gapT0 := w.dev.tim.mono, ten := ten, action := 1, sectNo := 0 } ∧
      u.dev.hpt.shortTen = x.shortTen ∧ u.dev.hpt.tmask = x.tenmask ∧ u.dev.sup.warnA = x.vwarnA ∧ u.dev.sup.warnB = x.vwarnB ∧ u.dev.sup.banknom = x.banknom ∧
      u.dev.arb.pmode = x.arb.pmode ∧ u.dev.arb.pos = 0 ∧ u.dev.arb.cred = upto 20 x.weight ∧ u.dev.arb.prio = upto 20 (fun n => fld x.arb.level (2 * n) 2) ∧
      (∀ n < 4, (u.dev.ckUnit n).run = (x.ck n).init) ∧ (∀ n < 5, ∀ e ∈ (u.dev.ten n).streams, e.2.seen = false) ∧
      (∃ l, u.dev.arb.ctl = l ++ [({ body := .swap x.imgcrc } : Pkt)]) ∧ (∀ n, (u.dev.ten n).queues = (w.dev.ten n).queues ∧ (u.dev.ten n).tktUse = (w.dev.ten n).tktUse ∧ (u.dev.ten n).gen = (w.dev.ten n).gen) ∧
      u.dev.pool = w.dev.pool ∧ u.dev.bd = w.dev.bd ∧ u.dev.fus = w.dev.fus ∧ u.dev.rst = w.dev.rst ∧ u.bufs = w.bufs ∧ u.bout = w.bout ∧ u.blow = w.blow ∧ u.rq = w.rq ∧ u.dev.log.lstate ≠ 4 := by
  intro u
  have hu : u = w.hotWeave x img ten k := rfl
  unfold W.hotWeave at hu
  let z : W := W.activate (w.control (.table { cfg := x, shadow := true, lseq := 0, lvl := [], stuck := false })) k img x
  have C := W.control_raise w (.table { cfg := x, shadow := true, lseq := 0, lvl := [], stuck := false })
  generalize hc : w.control (.table { cfg := x, shadow := true, lseq := 0, lvl := [], stuck := false }) = v at *
  have hz : z = v.activate k img x := by simp only [z]; rw [hc]
  have ze : z.dev.img = { w.dev.img with bank := k, bgen := (w.dev.img.bgen + 1) % 2 ^ 32 } ∧ z.dev.log.lstate ≠ 4 ∧ z.dev.tens = w.dev.tens ∧ z.dev.tim.mono = w.dev.tim.mono ∧ z.dev.bar.bAlive = true ∧
      z.dev.pool = w.dev.pool ∧ z.dev.bd = w.dev.bd ∧ z.dev.fus = w.dev.fus ∧ z.dev.rst = w.dev.rst ∧ z.bufs = w.bufs ∧ z.bout = w.bout ∧ z.blow = w.blow ∧ z.rq = w.rq := by
    rw [hz]
    refine ⟨?_, C.2.1 hl, ?_, ?_, ?_, ?_, ?_, ?_, ?_, ?_, ?_, ?_, ?_⟩
    · show { v.dev.img with bank := k, bgen := (v.dev.img.bgen + 1) % 2 ^ 32 } = _; rw [C.1]
    · show v.dev.tens = _; rw [C.1]
    · show v.dev.tim.mono = _; rw [C.1]
    · show v.dev.bar.bAlive = _; rw [C.1]; exact hb
    · show v.dev.pool = _; rw [C.1]
    · show v.dev.bd = _; rw [C.1]
    · show v.dev.fus = _; rw [C.1]
    · show v.dev.rst = _; rw [C.1]
    · show v.bufs = _; rw [C.1]
    · show v.bout = _; rw [C.1]
    · show v.blow = _; rw [C.1]
    · show v.rq = _; rw [C.1]
  obtain ⟨z1, z2, z3, z4, z5, z6⟩ := ze
  have dz : ∀ n, z.dev.ten n = w.dev.ten n := fun n => by show z.dev.tens.getD n {} = _; rw [z3]; rfl
  have hu : u = (let w := z.swapDecision x
    let w := w.control (.swap x.imgcrc)
    let w := w.modImg (fun i => { i with phase := 2, gapT0 := w.mono, ten := ten, action := 1, sectNo := 0 })
    if w.dev.bar.bAlive then w else w.gapEnd) := by rw [hz]; exact hu
  clear hz
  generalize z = z at *
  obtain ⟨H, S, Q⟩ := swapDecision_at z x z2 (by intro t ht; rw [dz]; exact hd t ht)
  generalize z.swapDecision x = y at *
  have cb : y.dev.bar.bAlive = true := by rw [H.same.2.2.2.2.2.2.2.2.2]; exact z5
  have cy : y.control (.swap x.imgcrc) = { y with dev := { y.dev with arb := { y.dev.arb with ctl := y.dev.arb.ctl ++ [({ body := .swap x.imgcrc } : Pkt)] } } } := if_pos cb
  dsimp only at hu
  rw [cy] at hu
  have hu2 : u = { y with dev := { y.dev with
      arb := { y.dev.arb with ctl := y.dev.arb.ctl ++ [({ body := .swap x.imgcrc } : Pkt)] }
      img := { y.dev.img with phase := 2, gapT0 := y.dev.tim.mono, ten := ten, action := 1, sectNo := 0 } } } := hu.trans (if_pos cb)
  rw [hu2]
  refine ⟨?_, H.short.1, H.short.2, H.warn.1, H.warn.2.1, H.warn.2.2, H.arb.1, H.arb.2.1, H.arb.2.2.1, H.arb.2.2.2, ?_, S, ⟨_, rfl⟩, ?_,
    H.same.1.trans z6.1, H.same.2.1.trans z6.2.1, H.same.2.2.1.trans z6.2.2.1, H.same.2.2.2.1.trans z6.2.2.2.1, H.same.2.2.2.2.1.trans z6.2.2.2.2.1, H.same.2.2.2.2.2.1.trans z6.2.2.2.2.2.1,
    H.same.2.2.2.2.2.2.1.trans z6.2.2.2.2.2.2.1, H.same.2.2.2.2.2.2.2.1.trans z6.2.2.2.2.2.2.2, H.ls⟩
  · show { y.dev.img with phase := 2, gapT0 := y.dev.tim.mono, ten := ten, action := 1, sectNo := 0 } = _
    rw [H.img, H.time, z1, z4]
  · intro n hn
    show (y.dev.cks.getD n {}).run = _
    rw [H.cks]
    match n, hn with
    | 0, _ => rfl
    | 1, _ => rfl
    | 2, _ => rfl
    | 3, _ => rfl
  · intro n
    rw [← dz n]; exact Q n

theorem dir_fold (c : Cfg) : ∀ (l : List Nat) (w : W), ∃ d, l.foldl (fun w ch =>
    if c.baChan ch then w.modDirA ch (fun d => { d with fs := true, stage2 := false, valid := 0, level := (c.dirFs ch).directLevel d.level }) else w) w = { w with dev := { w.dev with bar := { w.dev.bar with direct := d } } }
  | [], w => ⟨w.dev.bar.direct, rfl⟩
  | t :: l, w => by
    rw [List.foldl_cons]
    split
    · obtain ⟨d, e⟩ := dir_fold c l (w.modDirA t (fun d => { d with fs := true, stage2 := false, valid := 0, level := (c.dirFs t).directLevel d.level }))
      exact ⟨d, by rw [e]; rfl⟩
    · exact dir_fold c l w

theorem gens_fold (c : Cfg) : ∀ (l : List Nat), l.Nodup → ∀ (T : List Tenant) (n : Nat), n ∈ l → n < T.length →
    ((l.foldl (fun T t => lmod T t (fun x => { x with gen := (c.ten t).gen, streams := [] })) T).getD n {}).gen = (c.ten n).gen ∧
    ((l.foldl (fun T t => lmod T t (fun x => { x with gen := (c.ten t).gen, streams := [] })) T).getD n {}).streams = []
  | [], _, T, n, h, _ => by simp at h
  | t :: l, nd, T, n, h, k => by
    rw [List.foldl_cons]
    obtain ⟨nt, nd⟩ := List.nodup_cons.mp nd
    by_cases m : n ∈ l
    · exact gens_fold c l nd _ n m (by unfold lmod; simpa using k)
    · have e : n = t := by
        rcases List.mem_cons.mp h with h | h
        · exact h
        · exact absurd h m
      subst e
      have keep : ∀ (l : List Nat) (T : List Tenant), n ∉ l → (l.foldl (fun T t => lmod T t (fun x => { x with gen := (c.ten t).gen, streams := [] })) T).getD n {} = T.getD n {} := by
        intro l
        induction l with
        | nil => intro T _; rfl
        | cons a l ih =>
          intro T h
          rw [List.foldl_cons, ih _ (fun y => h (List.mem_cons_of_mem _ y)), getD_lmod, if_neg (by
            rintro ⟨y, -⟩
            exact h (by rw [y]; exact List.mem_cons_self))]
      rw [keep l _ m, getD_lmod, if_pos ⟨rfl, k⟩]
      exact ⟨rfl, rfl⟩

theorem firstWeave_at (w : W) (x : Cfg) (img : List Byte) (ten action k : Nat) (hl : w.dev.log.lstate ≠ 4) (hb : w.dev.bar.bAlive = false) (hc : w.dev.rst.last < 2) :
    let u := w.firstWeave x img ten action k
    u.dev.img = { w.dev.img with
      woven := true, cfg := x, bank := k, bgen := (w.dev.img.bgen + 1) % 2 ^ 32, phase := 0, code := 0x01, sectNo := 0, ten := ten, action := action, weaves := satAdd 16 w.dev.img.weaves 1 } ∧
      (∀ n < 5, n < w.dev.tens.length → (u.dev.ten n).gen = (x.ten n).gen ∧ (u.dev.ten n).streams = []) ∧ u.dev.pai.role = (if x.pair.en then 1 else 0) ∧ u.dev.pai.parked = x.pair.en ∧
      u.dev.pool = w.dev.pool ∧ u.dev.bd = w.dev.bd ∧ u.dev.fus = w.dev.fus ∧ u.dev.rst = w.dev.rst ∧ u.bufs = w.bufs ∧ u.bout = w.bout ∧ u.blow = w.blow ∧ u.rq = w.rq ++ [.ring] ∧ u.dev.log.lstate ≠ 4 := by
  intro u
  have hu : u = w.firstWeave x img ten action k := rfl
  unfold W.firstWeave at hu
  let z : W := w.activate k img x
  have hu : u = (z.steps89 x true).imgResult 0x01 0 ten action := hu
  obtain ⟨T, tim, e1, k1, lt⟩ := takeSettings_at z x
  let g := fun (t : Nat) (y : Tenant) => { y with gen := (x.ten t).gen, streams := [] }
  let T' := (List.range 5).foldl (fun T t => lmod T t (g t)) T
  let a : W := { z with rq := z.rq ++ [.ring], dev := { z.dev with
      img := { z.dev.img with cfg := x, woven := true }
      pai := { z.dev.pai with role := if x.pair.en then 1 else 0, parked := x.pair.en }
      hpt := { z.dev.hpt with shortTen := x.shortTen, tmask := x.tenmask }
      sup := { z.dev.sup with warnA := x.vwarnA, warnB := x.vwarnB, banknom := x.banknom }
      tim := tim
      arb := restarted z.dev.arb x
      tens := T'
      cks := upto 4 (fun k => { mism := (z.dev.ckUnit k).mism, aliveRej := (z.dev.ckUnit k).aliveRej, run := (x.ck k).init }) } }
  have fs : ∃ d tm, ({ a with dev := { a.dev with tim := tm, bar := { a.dev.bar with direct := d } } } : W).SameButRaise (z.steps89 x true) := by
    generalize hv : z.steps89 x true = v
    unfold W.steps89 at hv
    extract_lets w1 w2 p w3 w4 stuck up wx w5 w6 w7 cause at hv
    have h2 : w2 = { w1 with dev := { w1.dev with tens := (List.range 5).foldl (fun T t => lmod T t (g t)) w1.dev.tens } } := modTen_fold g _ w1
    have h1 : w1 = _ := e1
    have h3 : w3 = a := by
      simp only [w3]
      rw [h2, h1]
      rfl
    have h4 : a.SameButLog w4 := by
      simp only [w4]; rw [h3]; exact W.startLine_log a _
    have hup : up = false := by
      simp only [up]
      unfold W.boardUp
      have : w4.dev.bar.bAlive = false := by rw [h4.1]; exact hb
      rw [this]; rfl
    have h5 : w5 = w4 := by
      simp only [w5]
      rw [if_neg (by rw [hup]; exact Bool.false_ne_true)]
    have h6 : ∃ tm, ({ a with dev := { a.dev with tim := tm } } : W).SameButRaise w6 := by
      have C := W.control_raise w5 (.timeChunk w5.dev.tim.chunk)
      have R := W.regroup_raise w5.sendChunk
      have hw6 : w6 = w5.sendChunk.regroup := rfl
      rw [hw6]
      refine ⟨w5.sendChunk.dev.tim, W.SameButRaise.trans ?_ R⟩
      have D : a.SameButRaise (w5.control (.timeChunk w5.dev.tim.chunk)) := by
        rw [h5] at C ⊢
        exact h4.raise.trans C
      unfold W.sendChunk
      generalize w5.control (.timeChunk w5.dev.tim.chunk) = y at *
      obtain ⟨e, l, q⟩ := D
      refine ⟨?_, l, q⟩
      unfold W.modTim
      rw [e]
    obtain ⟨tm, h6⟩ := h6
    obtain ⟨d, h7⟩ := dir_fold x (List.range 8) w6
    have h7 : w7 = _ := h7
    have hcause : cause < 2 := by
      simp only [cause]
      rw [h7]
      show w6.dev.rst.last < 2
      rw [h6.1]; exact hc
    rw [if_neg (by omega), if_neg (by omega)] at hv
    refine ⟨d, tm, ?_⟩
    rw [← hv, h7]
    obtain ⟨e, l, q⟩ := h6
    refine ⟨?_, l, q⟩
    rw [e]
  obtain ⟨d, tm, R⟩ := fs
  generalize z.steps89 x true = v at *
  obtain ⟨e, l, -⟩ := R
  rw [hu]
  refine ⟨?_, ?_, ?_, ?_, ?_, ?_, ?_, ?_, ?_, ?_, ?_, ?_, ?_⟩
  · show { v.dev.img with phase := 0, code := 0x01, sectNo := 0, ten := ten, action := action, weaves := satAdd 16 v.dev.img.weaves 1 } = _
    rw [e]; rfl
  · intro n hn hk
    show (v.dev.tens.getD n {}).gen = _ ∧ (v.dev.tens.getD n {}).streams = []
    have : v.dev.tens = T' := by rw [e]
    rw [this]
    refine gens_fold x (List.range 5) (by decide) T n (List.mem_range.mpr hn) ?_
    rw [lt]; exact hk
  · show v.dev.pai.role = _; rw [e]
  · show v.dev.pai.parked = _; rw [e]
  · show v.dev.pool = _; rw [e]; rfl
  · show v.dev.bd = _; rw [e]; rfl
  · show v.dev.fus = _; rw [e]; rfl
  · show v.dev.rst = _; rw [e]; rfl
  · show v.bufs = _; rw [e]; rfl
  · show v.bout = _; rw [e]; rfl
  · show v.blow = _; rw [e]; rfl
  · show v.rq = _; rw [e]; rfl
  · exact l hl

/-- The RC_REQUEST that follows a weave sends a frame, with an open SEQ: it changes what raises and logs change and the counter of open values. -/
theorem W.rcRequest_raise (w : W) : ∃ n, ({ w with dev.freeCtr := n } : W).SameButRaise w.rcRequest := by
  unfold W.rcRequest
  split
  · exact ⟨_, W.SameButRaise.refl _⟩
  · refine ⟨w.dev.freeCtr + 1, ?_⟩
    dsimp only [W.rcFrame, W.draw]
    unfold W.sendBroadcast W.sendPort
    dsimp only
    repeat' split
    all_goals first
      | exact W.SameButRaise.refl _
      | exact W.putOut_raise _ _ _
      | exact (W.putOut_raise _ _ _).trans (W.putOut_raise _ _ _)

theorem img_act (s : State) (t : Ten) (v : Nat) (hw : s.writer t) (x : W) (st : Nat) (k : (load s).imgCtrl t.val v = (x, st)) : (load s).act t.val 0xD0000 v = x.ack st := by
  refine act_done _ _ _ _ hw.1 x st ?_
  rw [regWrite_img _ _ _ _ _ _ (rackWord_low 0xD0000 (by omega) (by omega)) (fatalBars_calm _ _ _ hw.2) (by omega) (by omega), show 0xD0000 - 0xD0000 = 0 from rfl]
  unfold W.imgWrite
  rw [if_pos rfl, k]
  rfl

theorem img_fields (key : BitVec 16) (a : Nat) (b : Bool) (ha : a < 4) : fld (imgValue key a b) 0 2 = a ∧ fld (imgValue key a b) 2 1 = b2n b ∧ imgValue key a b / 2 ^ 16 = key.toNat := by
  unfold imgValue keyed fld
  refine ⟨?_, ?_, ?_⟩
  · rw [Nat.shiftRight_zero]; cases b <;> simp [b2n] <;> omega
  · rw [Nat.shiftRight_eq_div_pow]; cases b <;> simp [b2n] <;> omega
  · cases b <;> simp [b2n] <;> omega

theorem act_soft (w : W) (h : w.dev.barred 4 = false) (hs : w.dev.flt.stopped dUnit = false) : w.act 4 0x2000 (keyed 0xC3A5 2) = (w.ask (.soft 4)).ack stOK := by
  refine act_done _ _ _ _ h _ _ ?_
  have fb : w.fatalBars 4 0x2000 = false := by unfold W.fatalBars; simp
  rw [regWrite_rst _ _ _ _ _ _ (rackWord_low _ (by omega) (by omega)) fb (by omega) (by omega)]
  show doneWrite (w.rstWrite 4 0 _) = _
  unfold W.rstWrite
  rw [if_pos rfl]
  unfold W.rstCtrl
  rw [if_neg (by
    rintro (h | h | h)
    · exact h rfl
    · exact h (keyed_top 2 (by decide))
    · rw [hs] at h; simp at h)]
  rfl

theorem header_code (img : List Byte) (r : Refuse) (h : headerFault img = some r) : r.code ≠ 0x01 := by
  unfold headerFault at h
  dsimp only at h
  repeat' split at h
  all_goals first
    | (simp only [Option.some.injEq] at h; subst h; simp)
    | simp at h

theorem sect_code (img : List Byte) (o prev : Nat) (r : Refuse) (h : readSect img o prev = .error r) : r.code ≠ 0x01 := by
  unfold readSect at h
  dsimp only at h
  repeat' split at h
  all_goals first
    | (simp only [Except.error.injEq] at h; subst h; simp)
    | simp at h

theorem sects_code (img : List Byte) (e : Nat) : ∀ (n o last : Nat) (acc : List Sect) (r : Refuse), readSects img e n o last acc = .error r → r.code ≠ 0x01
  | 0, o, last, acc, r, h => by
    unfold readSects at h
    simp at h
  | n + 1, o, last, acc, r, h => by
    unfold readSects at h
    split at h
    · simp at h
    · cases hs : readSect img o last with
      | error x => rw [hs] at h; simp only [Except.error.injEq] at h; subst h; exact sect_code _ _ _ _ hs
      | ok y =>
        obtain ⟨s, o'⟩ := y
        rw [hs] at h
        exact sects_code img e n o' s.type _ r h

theorem layout_code (img : List Byte) (r : Refuse) (h : layout img = .error r) : r.code ≠ 0x01 := by
  unfold layout at h
  cases hf : headerFault img with
  | some x => rw [hf] at h; simp only [Except.error.injEq] at h; subst h; exact header_code img _ hf
  | none =>
    rw [hf] at h
    dsimp only at h
    cases hs : readSects img (at' img 8 4 - 36) 15 32 0 [] with
    | error x => rw [hs] at h; simp only [Except.error.injEq] at h; subst h; exact sects_code _ _ _ _ _ _ _ hs
    | ok y =>
      rw [hs] at h
      dsimp only at h
      repeat' split at h
      all_goals first
        | (simp only [Except.error.injEq] at h; subst h; simp; done)
        | simp at h

theorem admission_code (c : Cfg) (r : Refuse) (h : c.admission = some r) : r.code ≠ 0x01 := by
  unfold Cfg.admission at h
  dsimp only at h
  repeat' split at h
  all_goals first
    | (simp only [Option.some.injEq] at h; subst h; simp; done)
    | simp at h

theorem check_code (a : WeaveAuth) (img : List Byte) (r : Refuse) (h : checkImage a img = .error r) : r.code ≠ 0x01 := by
  unfold checkImage at h
  cases hl : layout img with
  | error x => rw [hl] at h; simp only [Except.error.injEq] at h; subst h; exact layout_code _ _ hl
  | ok ss =>
    rw [hl] at h
    dsimp only at h
    repeat' split at h
    all_goals first
      | (simp only [Except.error.injEq] at h; subst h; simp; done)
      | (rename_i x ha; simp only [Except.error.injEq] at h; subst h; exact admission_code _ _ ha)
      | simp at h

end Sys2Proof.Machine
end

