-- ==== Sys2Proof/Laws/Registers.lean ====
section
/-! SUPPORT. Registers at reset and register writes. -/

namespace Sys2Proof.Machine

theorem tbit_get (v : BitVec 32) (n : Nat) : tbit v.toNat n = v.getLsbD n := by
  simp [tbit, BitVec.getLsbD, Nat.testBit]

theorem irqField_eq (v : BitVec 32) : BitVec.ofNat 5 (v.toNat / 8) = v.extractLsb' 3 5 := by
  apply BitVec.eq_of_toNat_eq
  simp [BitVec.extractLsb'_toNat, Nat.shiftRight_eq_div_pow]

theorem clearIrq_eq (h : HostPort) (t : Ten) (v : BitVec 32) : h.clearIrq t.val v.toNat = { h with
        irqDrop := h.irqDrop && !(decide (t = 4) && v.getLsbD 1)
        irqErr := h.irqErr && !(decide (t = 4) && v.getLsbD 2)
        irqTen := h.irqTen &&& ~~~((v.extractLsb' 3 5) &&& (if t = 4 then 31#5 else 1#5 <<< t.val)) } := by
  unfold HostPort.clearIrq
  rcases t with ⟨t, ht⟩
  by_cases e : t = 4
  · subst e
    simp only [if_pos, tbit_get, irqField_eq]
    have : (⟨4, ht⟩ : Ten) = 4 := rfl
    simp only [this, decide_true, Bool.true_and, if_true]
    congr 1
    rw [show (31#5 : BitVec 5) = BitVec.allOnes 5 from rfl, BitVec.and_allOnes]
  · have ne : (⟨t, ht⟩ : Ten) ≠ 4 := fun h => e (by have := congrArg Fin.val h; exact this)
    simp only [if_neg e, ne, decide_false, Bool.false_and, Bool.not_false, Bool.and_true, if_false, tbit_get]
    congr 1
    have : t = 0 ∨ t = 1 ∨ t = 2 ∨ t = 3 := by omega
    generalize h.irqTen = k
    rcases this with rfl | rfl | rfl | rfl <;>
    · split
      · rename_i q
        ext i hi
        simp only [BitVec.getElem_and, BitVec.getElem_not, BitVec.getElem_extractLsb']
        have : i = 0 ∨ i = 1 ∨ i = 2 ∨ i = 3 ∨ i = 4 := by omega
        rcases this with rfl | rfl | rfl | rfl | rfl <;> simp_all
      · rename_i q
        ext i hi
        simp only [BitVec.getElem_and, BitVec.getElem_not, BitVec.getElem_extractLsb']
        have : i = 0 ∨ i = 1 ∨ i = 2 ∨ i = 3 ∨ i = 4 := by omega
        rcases this with rfl | rfl | rfl | rfl | rfl <;> simp_all

theorem regWrite_hpt (w : W) (t v : Nat) (tk : Option Nat) (b : Bool) (a : Nat) (h : rackWord a) (f : w.fatalBars t a = false) (l : 0x4000 ≤ a) (u : a < 0x5000) : w.regWrite t a v tk b = doneWrite (w.hptWrite t (a - 0x4000) v) := by
  unfold W.regWrite
  rw [if_neg (regWrite_gate w t a h f)]
  iterate 4 rw [if_neg (by omega)]
  rw [if_pos u]

theorem mapped_of (a : Nat) (k : a < 0x5000 ∨ (0x20000 ≤ a ∧ a < 0x30000) ∨ (0xE0000 ≤ a ∧ a < 0xF0000) ∨ (0x100000 ≤ a ∧ a < 0x140000)) : isMapped a = true ∧ isBoardAddr a = false := by
  constructor
  · unfold isMapped
    simp only [Bool.or_eq_true, Bool.and_eq_true, decide_eq_true_eq]
    omega
  · unfold isBoardAddr
    simp only [Bool.or_eq_false_iff, Bool.and_eq_false_iff, decide_eq_false_iff_not]
    omega

theorem pool_reset : ((load State.reset).regRead 4 0x20000).2 = (stOK, 0x10000400) ∧ ((load State.reset).regRead 4 0x20004).2 = (stOK, 0x0FC003E0) := by
  have e1 : State.reset.dev.pool.tktFree.length = 1024 := by simp only [State.reset, List.length_range]
  have e2 : State.reset.dev.pool.bufFree.length = 4096 := by simp only [State.reset, List.length_range]
  constructor
  · show (stOK, packN [(0, 11, State.reset.dev.pool.tktFree.length), (16, 13, State.reset.dev.pool.bufFree.length)]) = _
    rw [e1, e2]
    rfl
  · show (stOK, packN [(0, 11, (max 0 (sharedOf State.reset.dev.pool.tktFree.length (sum5 State.reset.dev.tktOwed))).toNat), (16, 13, (max 0 (sharedOf State.reset.dev.pool.bufFree.length (sum5 State.reset.dev.bufOwed))).toNat)]) = _
    rw [e1, e2]
    rfl

end Sys2Proof.Machine
end

