-- ==== Sys2Proof/Laws/State.lean ====
section
/-! SUPPORT. What each update of the working record leaves in each of its fields, and what a state and its working record share. -/

namespace Sys2Proof.Machine

@[simp] theorem W.modSup_dev (w : W) (f : Supply → Supply) : (w.modSup f).dev = { w.dev with sup := f w.dev.sup } := rfl
@[simp] theorem W.modSup_store (w : W) (f : Supply → Supply) : (w.modSup f).store = w.store := rfl
@[simp] theorem W.modSup_bufs (w : W) (f : Supply → Supply) : (w.modSup f).bufs = w.bufs := rfl
@[simp] theorem W.modSup_fuses (w : W) (f : Supply → Supply) : (w.modSup f).fuses = w.fuses := rfl
@[simp] theorem W.modSup_out (w : W) (f : Supply → Supply) : (w.modSup f).out = w.out := rfl
@[simp] theorem W.modSup_bout (w : W) (f : Supply → Supply) : (w.modSup f).bout = w.bout := rfl
@[simp] theorem W.modSup_blow (w : W) (f : Supply → Supply) : (w.modSup f).blow = w.blow := rfl
@[simp] theorem W.modSup_rq (w : W) (f : Supply → Supply) : (w.modSup f).rq = w.rq := rfl

@[simp] theorem W.modSto_dev (w : W) (f : Store → Store) : (w.modSto f).dev = { w.dev with sto := f w.dev.sto } := rfl
@[simp] theorem W.modSto_store (w : W) (f : Store → Store) : (w.modSto f).store = w.store := rfl
@[simp] theorem W.modSto_bufs (w : W) (f : Store → Store) : (w.modSto f).bufs = w.bufs := rfl
@[simp] theorem W.modSto_fuses (w : W) (f : Store → Store) : (w.modSto f).fuses = w.fuses := rfl
@[simp] theorem W.modSto_out (w : W) (f : Store → Store) : (w.modSto f).out = w.out := rfl
@[simp] theorem W.modSto_bout (w : W) (f : Store → Store) : (w.modSto f).bout = w.bout := rfl
@[simp] theorem W.modSto_blow (w : W) (f : Store → Store) : (w.modSto f).blow = w.blow := rfl
@[simp] theorem W.modSto_rq (w : W) (f : Store → Store) : (w.modSto f).rq = w.rq := rfl

@[simp] theorem W.modLog_dev (w : W) (f : OrderLog → OrderLog) : (w.modLog f).dev = { w.dev with log := f w.dev.log } := rfl
@[simp] theorem W.modLog_store (w : W) (f : OrderLog → OrderLog) : (w.modLog f).store = w.store := rfl
@[simp] theorem W.modLog_bufs (w : W) (f : OrderLog → OrderLog) : (w.modLog f).bufs = w.bufs := rfl
@[simp] theorem W.modLog_fuses (w : W) (f : OrderLog → OrderLog) : (w.modLog f).fuses = w.fuses := rfl
@[simp] theorem W.modLog_out (w : W) (f : OrderLog → OrderLog) : (w.modLog f).out = w.out := rfl
@[simp] theorem W.modLog_bout (w : W) (f : OrderLog → OrderLog) : (w.modLog f).bout = w.bout := rfl
@[simp] theorem W.modLog_blow (w : W) (f : OrderLog → OrderLog) : (w.modLog f).blow = w.blow := rfl
@[simp] theorem W.modLog_rq (w : W) (f : OrderLog → OrderLog) : (w.modLog f).rq = w.rq := rfl

@[simp] theorem W.modRpl_dev (w : W) (f : Replay → Replay) : (w.modRpl f).dev = { w.dev with rpl := f w.dev.rpl } := rfl
@[simp] theorem W.modRpl_store (w : W) (f : Replay → Replay) : (w.modRpl f).store = w.store := rfl
@[simp] theorem W.modRpl_bufs (w : W) (f : Replay → Replay) : (w.modRpl f).bufs = w.bufs := rfl
@[simp] theorem W.modRpl_fuses (w : W) (f : Replay → Replay) : (w.modRpl f).fuses = w.fuses := rfl
@[simp] theorem W.modRpl_out (w : W) (f : Replay → Replay) : (w.modRpl f).out = w.out := rfl
@[simp] theorem W.modRpl_bout (w : W) (f : Replay → Replay) : (w.modRpl f).bout = w.bout := rfl
@[simp] theorem W.modRpl_blow (w : W) (f : Replay → Replay) : (w.modRpl f).blow = w.blow := rfl
@[simp] theorem W.modRpl_rq (w : W) (f : Replay → Replay) : (w.modRpl f).rq = w.rq := rfl

@[simp] theorem W.modFlt_dev (w : W) (f : Faults → Faults) : (w.modFlt f).dev = { w.dev with flt := f w.dev.flt } := rfl
@[simp] theorem W.modFlt_store (w : W) (f : Faults → Faults) : (w.modFlt f).store = w.store := rfl
@[simp] theorem W.modFlt_bufs (w : W) (f : Faults → Faults) : (w.modFlt f).bufs = w.bufs := rfl
@[simp] theorem W.modFlt_fuses (w : W) (f : Faults → Faults) : (w.modFlt f).fuses = w.fuses := rfl
@[simp] theorem W.modFlt_out (w : W) (f : Faults → Faults) : (w.modFlt f).out = w.out := rfl
@[simp] theorem W.modFlt_bout (w : W) (f : Faults → Faults) : (w.modFlt f).bout = w.bout := rfl
@[simp] theorem W.modFlt_blow (w : W) (f : Faults → Faults) : (w.modFlt f).blow = w.blow := rfl
@[simp] theorem W.modFlt_rq (w : W) (f : Faults → Faults) : (w.modFlt f).rq = w.rq := rfl

@[simp] theorem W.modHpt_dev (w : W) (f : HostPort → HostPort) : (w.modHpt f).dev = { w.dev with hpt := f w.dev.hpt } := rfl
@[simp] theorem W.modHpt_store (w : W) (f : HostPort → HostPort) : (w.modHpt f).store = w.store := rfl
@[simp] theorem W.modHpt_bufs (w : W) (f : HostPort → HostPort) : (w.modHpt f).bufs = w.bufs := rfl
@[simp] theorem W.modHpt_fuses (w : W) (f : HostPort → HostPort) : (w.modHpt f).fuses = w.fuses := rfl
@[simp] theorem W.modHpt_out (w : W) (f : HostPort → HostPort) : (w.modHpt f).out = w.out := rfl
@[simp] theorem W.modHpt_bout (w : W) (f : HostPort → HostPort) : (w.modHpt f).bout = w.bout := rfl
@[simp] theorem W.modHpt_blow (w : W) (f : HostPort → HostPort) : (w.modHpt f).blow = w.blow := rfl
@[simp] theorem W.modHpt_rq (w : W) (f : HostPort → HostPort) : (w.modHpt f).rq = w.rq := rfl

@[simp] theorem W.modPool_dev (w : W) (f : Pools → Pools) : (w.modPool f).dev = { w.dev with pool := f w.dev.pool } := rfl
@[simp] theorem W.modPool_store (w : W) (f : Pools → Pools) : (w.modPool f).store = w.store := rfl
@[simp] theorem W.modPool_bufs (w : W) (f : Pools → Pools) : (w.modPool f).bufs = w.bufs := rfl
@[simp] theorem W.modPool_fuses (w : W) (f : Pools → Pools) : (w.modPool f).fuses = w.fuses := rfl
@[simp] theorem W.modPool_out (w : W) (f : Pools → Pools) : (w.modPool f).out = w.out := rfl
@[simp] theorem W.modPool_bout (w : W) (f : Pools → Pools) : (w.modPool f).bout = w.bout := rfl
@[simp] theorem W.modPool_blow (w : W) (f : Pools → Pools) : (w.modPool f).blow = w.blow := rfl
@[simp] theorem W.modPool_rq (w : W) (f : Pools → Pools) : (w.modPool f).rq = w.rq := rfl

@[simp] theorem W.modArb_dev (w : W) (f : Arb → Arb) : (w.modArb f).dev = { w.dev with arb := f w.dev.arb } := rfl
@[simp] theorem W.modArb_store (w : W) (f : Arb → Arb) : (w.modArb f).store = w.store := rfl
@[simp] theorem W.modArb_bufs (w : W) (f : Arb → Arb) : (w.modArb f).bufs = w.bufs := rfl
@[simp] theorem W.modArb_fuses (w : W) (f : Arb → Arb) : (w.modArb f).fuses = w.fuses := rfl
@[simp] theorem W.modArb_out (w : W) (f : Arb → Arb) : (w.modArb f).out = w.out := rfl
@[simp] theorem W.modArb_bout (w : W) (f : Arb → Arb) : (w.modArb f).bout = w.bout := rfl
@[simp] theorem W.modArb_blow (w : W) (f : Arb → Arb) : (w.modArb f).blow = w.blow := rfl
@[simp] theorem W.modArb_rq (w : W) (f : Arb → Arb) : (w.modArb f).rq = w.rq := rfl

@[simp] theorem W.modBar_dev (w : W) (f : Barrier → Barrier) : (w.modBar f).dev = { w.dev with bar := f w.dev.bar } := rfl
@[simp] theorem W.modBar_store (w : W) (f : Barrier → Barrier) : (w.modBar f).store = w.store := rfl
@[simp] theorem W.modBar_bufs (w : W) (f : Barrier → Barrier) : (w.modBar f).bufs = w.bufs := rfl
@[simp] theorem W.modBar_fuses (w : W) (f : Barrier → Barrier) : (w.modBar f).fuses = w.fuses := rfl
@[simp] theorem W.modBar_out (w : W) (f : Barrier → Barrier) : (w.modBar f).out = w.out := rfl
@[simp] theorem W.modBar_bout (w : W) (f : Barrier → Barrier) : (w.modBar f).bout = w.bout := rfl
@[simp] theorem W.modBar_blow (w : W) (f : Barrier → Barrier) : (w.modBar f).blow = w.blow := rfl
@[simp] theorem W.modBar_rq (w : W) (f : Barrier → Barrier) : (w.modBar f).rq = w.rq := rfl

@[simp] theorem W.modRing_dev (w : W) (f : Ring → Ring) : (w.modRing f).dev = { w.dev with ring := f w.dev.ring } := rfl
@[simp] theorem W.modRing_store (w : W) (f : Ring → Ring) : (w.modRing f).store = w.store := rfl
@[simp] theorem W.modRing_bufs (w : W) (f : Ring → Ring) : (w.modRing f).bufs = w.bufs := rfl
@[simp] theorem W.modRing_fuses (w : W) (f : Ring → Ring) : (w.modRing f).fuses = w.fuses := rfl
@[simp] theorem W.modRing_out (w : W) (f : Ring → Ring) : (w.modRing f).out = w.out := rfl
@[simp] theorem W.modRing_bout (w : W) (f : Ring → Ring) : (w.modRing f).bout = w.bout := rfl
@[simp] theorem W.modRing_blow (w : W) (f : Ring → Ring) : (w.modRing f).blow = w.blow := rfl
@[simp] theorem W.modRing_rq (w : W) (f : Ring → Ring) : (w.modRing f).rq = w.rq := rfl

@[simp] theorem W.modTim_dev (w : W) (f : TimeSt → TimeSt) : (w.modTim f).dev = { w.dev with tim := f w.dev.tim } := rfl
@[simp] theorem W.modTim_store (w : W) (f : TimeSt → TimeSt) : (w.modTim f).store = w.store := rfl
@[simp] theorem W.modTim_bufs (w : W) (f : TimeSt → TimeSt) : (w.modTim f).bufs = w.bufs := rfl
@[simp] theorem W.modTim_fuses (w : W) (f : TimeSt → TimeSt) : (w.modTim f).fuses = w.fuses := rfl
@[simp] theorem W.modTim_out (w : W) (f : TimeSt → TimeSt) : (w.modTim f).out = w.out := rfl
@[simp] theorem W.modTim_bout (w : W) (f : TimeSt → TimeSt) : (w.modTim f).bout = w.bout := rfl
@[simp] theorem W.modTim_blow (w : W) (f : TimeSt → TimeSt) : (w.modTim f).blow = w.blow := rfl
@[simp] theorem W.modTim_rq (w : W) (f : TimeSt → TimeSt) : (w.modTim f).rq = w.rq := rfl

@[simp] theorem W.modIdn_dev (w : W) (f : Identity → Identity) : (w.modIdn f).dev = { w.dev with idn := f w.dev.idn } := rfl
@[simp] theorem W.modIdn_store (w : W) (f : Identity → Identity) : (w.modIdn f).store = w.store := rfl
@[simp] theorem W.modIdn_bufs (w : W) (f : Identity → Identity) : (w.modIdn f).bufs = w.bufs := rfl
@[simp] theorem W.modIdn_fuses (w : W) (f : Identity → Identity) : (w.modIdn f).fuses = w.fuses := rfl
@[simp] theorem W.modIdn_out (w : W) (f : Identity → Identity) : (w.modIdn f).out = w.out := rfl
@[simp] theorem W.modIdn_bout (w : W) (f : Identity → Identity) : (w.modIdn f).bout = w.bout := rfl
@[simp] theorem W.modIdn_blow (w : W) (f : Identity → Identity) : (w.modIdn f).blow = w.blow := rfl
@[simp] theorem W.modIdn_rq (w : W) (f : Identity → Identity) : (w.modIdn f).rq = w.rq := rfl

@[simp] theorem W.modPai_dev (w : W) (f : Pair → Pair) : (w.modPai f).dev = { w.dev with pai := f w.dev.pai } := rfl
@[simp] theorem W.modPai_store (w : W) (f : Pair → Pair) : (w.modPai f).store = w.store := rfl
@[simp] theorem W.modPai_bufs (w : W) (f : Pair → Pair) : (w.modPai f).bufs = w.bufs := rfl
@[simp] theorem W.modPai_fuses (w : W) (f : Pair → Pair) : (w.modPai f).fuses = w.fuses := rfl
@[simp] theorem W.modPai_out (w : W) (f : Pair → Pair) : (w.modPai f).out = w.out := rfl
@[simp] theorem W.modPai_bout (w : W) (f : Pair → Pair) : (w.modPai f).bout = w.bout := rfl
@[simp] theorem W.modPai_blow (w : W) (f : Pair → Pair) : (w.modPai f).blow = w.blow := rfl
@[simp] theorem W.modPai_rq (w : W) (f : Pair → Pair) : (w.modPai f).rq = w.rq := rfl

@[simp] theorem W.modImg_dev (w : W) (f : Image → Image) : (w.modImg f).dev = { w.dev with img := f w.dev.img } := rfl
@[simp] theorem W.modImg_store (w : W) (f : Image → Image) : (w.modImg f).store = w.store := rfl
@[simp] theorem W.modImg_bufs (w : W) (f : Image → Image) : (w.modImg f).bufs = w.bufs := rfl
@[simp] theorem W.modImg_fuses (w : W) (f : Image → Image) : (w.modImg f).fuses = w.fuses := rfl
@[simp] theorem W.modImg_out (w : W) (f : Image → Image) : (w.modImg f).out = w.out := rfl
@[simp] theorem W.modImg_bout (w : W) (f : Image → Image) : (w.modImg f).bout = w.bout := rfl
@[simp] theorem W.modImg_blow (w : W) (f : Image → Image) : (w.modImg f).blow = w.blow := rfl
@[simp] theorem W.modImg_rq (w : W) (f : Image → Image) : (w.modImg f).rq = w.rq := rfl

@[simp] theorem W.modFus_dev (w : W) (f : Fuse → Fuse) : (w.modFus f).dev = { w.dev with fus := f w.dev.fus } := rfl
@[simp] theorem W.modFus_store (w : W) (f : Fuse → Fuse) : (w.modFus f).store = w.store := rfl
@[simp] theorem W.modFus_bufs (w : W) (f : Fuse → Fuse) : (w.modFus f).bufs = w.bufs := rfl
@[simp] theorem W.modFus_fuses (w : W) (f : Fuse → Fuse) : (w.modFus f).fuses = w.fuses := rfl
@[simp] theorem W.modFus_out (w : W) (f : Fuse → Fuse) : (w.modFus f).out = w.out := rfl
@[simp] theorem W.modFus_bout (w : W) (f : Fuse → Fuse) : (w.modFus f).bout = w.bout := rfl
@[simp] theorem W.modFus_blow (w : W) (f : Fuse → Fuse) : (w.modFus f).blow = w.blow := rfl
@[simp] theorem W.modFus_rq (w : W) (f : Fuse → Fuse) : (w.modFus f).rq = w.rq := rfl

@[simp] theorem W.modRst_dev (w : W) (f : Reset → Reset) : (w.modRst f).dev = { w.dev with rst := f w.dev.rst } := rfl
@[simp] theorem W.modRst_store (w : W) (f : Reset → Reset) : (w.modRst f).store = w.store := rfl
@[simp] theorem W.modRst_bufs (w : W) (f : Reset → Reset) : (w.modRst f).bufs = w.bufs := rfl
@[simp] theorem W.modRst_fuses (w : W) (f : Reset → Reset) : (w.modRst f).fuses = w.fuses := rfl
@[simp] theorem W.modRst_out (w : W) (f : Reset → Reset) : (w.modRst f).out = w.out := rfl
@[simp] theorem W.modRst_bout (w : W) (f : Reset → Reset) : (w.modRst f).bout = w.bout := rfl
@[simp] theorem W.modRst_blow (w : W) (f : Reset → Reset) : (w.modRst f).blow = w.blow := rfl
@[simp] theorem W.modRst_rq (w : W) (f : Reset → Reset) : (w.modRst f).rq = w.rq := rfl

@[simp] theorem W.modPins_dev (w : W) (f : Pins → Pins) : (w.modPins f).dev = { w.dev with pins := f w.dev.pins } := rfl
@[simp] theorem W.modPins_store (w : W) (f : Pins → Pins) : (w.modPins f).store = w.store := rfl
@[simp] theorem W.modPins_bufs (w : W) (f : Pins → Pins) : (w.modPins f).bufs = w.bufs := rfl
@[simp] theorem W.modPins_fuses (w : W) (f : Pins → Pins) : (w.modPins f).fuses = w.fuses := rfl
@[simp] theorem W.modPins_out (w : W) (f : Pins → Pins) : (w.modPins f).out = w.out := rfl
@[simp] theorem W.modPins_bout (w : W) (f : Pins → Pins) : (w.modPins f).bout = w.bout := rfl
@[simp] theorem W.modPins_blow (w : W) (f : Pins → Pins) : (w.modPins f).blow = w.blow := rfl
@[simp] theorem W.modPins_rq (w : W) (f : Pins → Pins) : (w.modPins f).rq = w.rq := rfl

@[simp] theorem W.modMon_dev (w : W) (f : Monitors → Monitors) : (w.modMon f).dev = { w.dev with mon := f w.dev.mon } := rfl
@[simp] theorem W.modMon_store (w : W) (f : Monitors → Monitors) : (w.modMon f).store = w.store := rfl
@[simp] theorem W.modMon_bufs (w : W) (f : Monitors → Monitors) : (w.modMon f).bufs = w.bufs := rfl
@[simp] theorem W.modMon_fuses (w : W) (f : Monitors → Monitors) : (w.modMon f).fuses = w.fuses := rfl
@[simp] theorem W.modMon_out (w : W) (f : Monitors → Monitors) : (w.modMon f).out = w.out := rfl
@[simp] theorem W.modMon_bout (w : W) (f : Monitors → Monitors) : (w.modMon f).bout = w.bout := rfl
@[simp] theorem W.modMon_blow (w : W) (f : Monitors → Monitors) : (w.modMon f).blow = w.blow := rfl
@[simp] theorem W.modMon_rq (w : W) (f : Monitors → Monitors) : (w.modMon f).rq = w.rq := rfl

@[simp] theorem W.modBd_dev (w : W) (f : Board → Board) : (w.modBd f).dev = { w.dev with bd := f w.dev.bd } := rfl
@[simp] theorem W.modBd_store (w : W) (f : Board → Board) : (w.modBd f).store = w.store := rfl
@[simp] theorem W.modBd_bufs (w : W) (f : Board → Board) : (w.modBd f).bufs = w.bufs := rfl
@[simp] theorem W.modBd_fuses (w : W) (f : Board → Board) : (w.modBd f).fuses = w.fuses := rfl
@[simp] theorem W.modBd_out (w : W) (f : Board → Board) : (w.modBd f).out = w.out := rfl
@[simp] theorem W.modBd_bout (w : W) (f : Board → Board) : (w.modBd f).bout = w.bout := rfl
@[simp] theorem W.modBd_blow (w : W) (f : Board → Board) : (w.modBd f).blow = w.blow := rfl
@[simp] theorem W.modBd_rq (w : W) (f : Board → Board) : (w.modBd f).rq = w.rq := rfl

@[simp] theorem W.modTen_dev (w : W) (t : Nat) (f : Tenant → Tenant) : (w.modTen t f).dev = { w.dev with tens := lmod w.dev.tens t f } := rfl
@[simp] theorem W.modTen_store (w : W) (t : Nat) (f : Tenant → Tenant) : (w.modTen t f).store = w.store := rfl
@[simp] theorem W.modTen_bufs (w : W) (t : Nat) (f : Tenant → Tenant) : (w.modTen t f).bufs = w.bufs := rfl
@[simp] theorem W.modTen_fuses (w : W) (t : Nat) (f : Tenant → Tenant) : (w.modTen t f).fuses = w.fuses := rfl
@[simp] theorem W.modTen_out (w : W) (t : Nat) (f : Tenant → Tenant) : (w.modTen t f).out = w.out := rfl
@[simp] theorem W.modTen_bout (w : W) (t : Nat) (f : Tenant → Tenant) : (w.modTen t f).bout = w.bout := rfl
@[simp] theorem W.modTen_blow (w : W) (t : Nat) (f : Tenant → Tenant) : (w.modTen t f).blow = w.blow := rfl
@[simp] theorem W.modTen_rq (w : W) (t : Nat) (f : Tenant → Tenant) : (w.modTen t f).rq = w.rq := rfl

@[simp] theorem W.modCk_dev (w : W) (n : Nat) (f : CkUnit → CkUnit) : (w.modCk n f).dev = { w.dev with cks := lmod w.dev.cks n f } := rfl
@[simp] theorem W.modCk_store (w : W) (n : Nat) (f : CkUnit → CkUnit) : (w.modCk n f).store = w.store := rfl
@[simp] theorem W.modCk_bufs (w : W) (n : Nat) (f : CkUnit → CkUnit) : (w.modCk n f).bufs = w.bufs := rfl
@[simp] theorem W.modCk_fuses (w : W) (n : Nat) (f : CkUnit → CkUnit) : (w.modCk n f).fuses = w.fuses := rfl
@[simp] theorem W.modCk_out (w : W) (n : Nat) (f : CkUnit → CkUnit) : (w.modCk n f).out = w.out := rfl
@[simp] theorem W.modCk_bout (w : W) (n : Nat) (f : CkUnit → CkUnit) : (w.modCk n f).bout = w.bout := rfl
@[simp] theorem W.modCk_blow (w : W) (n : Nat) (f : CkUnit → CkUnit) : (w.modCk n f).blow = w.blow := rfl
@[simp] theorem W.modCk_rq (w : W) (n : Nat) (f : CkUnit → CkUnit) : (w.modCk n f).rq = w.rq := rfl

@[simp] theorem W.modLane_dev (w : W) (n : Nat) (f : Lane → Lane) : (w.modLane n f).dev = { w.dev with bd := { w.dev.bd with lanes := tmod {} w.dev.bd.lanes n f } } := rfl
@[simp] theorem W.modLane_store (w : W) (n : Nat) (f : Lane → Lane) : (w.modLane n f).store = w.store := rfl
@[simp] theorem W.modLane_bufs (w : W) (n : Nat) (f : Lane → Lane) : (w.modLane n f).bufs = w.bufs := rfl
@[simp] theorem W.modLane_fuses (w : W) (n : Nat) (f : Lane → Lane) : (w.modLane n f).fuses = w.fuses := rfl
@[simp] theorem W.modLane_out (w : W) (n : Nat) (f : Lane → Lane) : (w.modLane n f).out = w.out := rfl
@[simp] theorem W.modLane_bout (w : W) (n : Nat) (f : Lane → Lane) : (w.modLane n f).bout = w.bout := rfl
@[simp] theorem W.modLane_blow (w : W) (n : Nat) (f : Lane → Lane) : (w.modLane n f).blow = w.blow := rfl
@[simp] theorem W.modLane_rq (w : W) (n : Nat) (f : Lane → Lane) : (w.modLane n f).rq = w.rq := rfl

@[simp] theorem W.modEng_dev (w : W) (n : Nat) (f : Eng → Eng) : (w.modEng n f).dev = { w.dev with bd := { w.dev.bd with engs := tmod {} w.dev.bd.engs n f } } := rfl
@[simp] theorem W.modEng_store (w : W) (n : Nat) (f : Eng → Eng) : (w.modEng n f).store = w.store := rfl
@[simp] theorem W.modEng_bufs (w : W) (n : Nat) (f : Eng → Eng) : (w.modEng n f).bufs = w.bufs := rfl
@[simp] theorem W.modEng_fuses (w : W) (n : Nat) (f : Eng → Eng) : (w.modEng n f).fuses = w.fuses := rfl
@[simp] theorem W.modEng_out (w : W) (n : Nat) (f : Eng → Eng) : (w.modEng n f).out = w.out := rfl
@[simp] theorem W.modEng_bout (w : W) (n : Nat) (f : Eng → Eng) : (w.modEng n f).bout = w.bout := rfl
@[simp] theorem W.modEng_blow (w : W) (n : Nat) (f : Eng → Eng) : (w.modEng n f).blow = w.blow := rfl
@[simp] theorem W.modEng_rq (w : W) (n : Nat) (f : Eng → Eng) : (w.modEng n f).rq = w.rq := rfl

@[simp] theorem W.ack_dev (w : W) (st : Nat) (v : BitVec 32) : (w.ack st v).dev = { w.dev with acc := { status := st, value := v } } := rfl
@[simp] theorem W.ack_store (w : W) (st : Nat) (v : BitVec 32) : (w.ack st v).store = w.store := rfl
@[simp] theorem W.ack_bufs (w : W) (st : Nat) (v : BitVec 32) : (w.ack st v).bufs = w.bufs := rfl
@[simp] theorem W.ack_fuses (w : W) (st : Nat) (v : BitVec 32) : (w.ack st v).fuses = w.fuses := rfl
@[simp] theorem W.ack_out (w : W) (st : Nat) (v : BitVec 32) : (w.ack st v).out = w.out := rfl
@[simp] theorem W.ack_bout (w : W) (st : Nat) (v : BitVec 32) : (w.ack st v).bout = w.bout := rfl
@[simp] theorem W.ack_blow (w : W) (st : Nat) (v : BitVec 32) : (w.ack st v).blow = w.blow := rfl
@[simp] theorem W.ack_rq (w : W) (st : Nat) (v : BitVec 32) : (w.ack st v).rq = w.rq := rfl

@[simp] theorem W.ask_dev (w : W) (r : ResetReq) : (w.ask r).dev = w.dev := rfl
@[simp] theorem W.ask_rq (w : W) (r : ResetReq) : (w.ask r).rq = w.rq ++ [r] := rfl
@[simp] theorem W.draw_value (w : W) : w.draw.1 = Config.free w.dev.freeCtr := rfl
@[simp] theorem W.draw_dev (w : W) : w.draw.2.dev = { w.dev with freeCtr := w.dev.freeCtr + 1 } := rfl

@[simp] theorem load_dev (s : State) : (load s).dev = s.dev := rfl
@[simp] theorem load_store (s : State) : (load s).store = s.store := rfl
@[simp] theorem load_bufs (s : State) : (load s).bufs = s.bufs := rfl
@[simp] theorem load_fuses (s : State) : (load s).fuses = s.fuses := rfl
@[simp] theorem load_out (s : State) : (load s).out = [] := rfl
@[simp] theorem load_bout (s : State) : (load s).bout = [] := rfl
@[simp] theorem load_blow (s : State) : (load s).blow = [] := rfl
@[simp] theorem load_rq (s : State) : (load s).rq = [] := rfl
@[simp] theorem commit_dev (s : State) (w : W) : (commit s w).dev = w.dev := rfl
@[simp] theorem commit_pending (s : State) (w : W) : (commit s w).pending = s.pending := rfl
@[simp] theorem commit_store (s : State) (w : W) : (commit s w).store = writeAll s.store w.out := rfl
@[simp] theorem commit_bufs (s : State) (w : W) : (commit s w).bufs = writeAll s.bufs w.bout := rfl
@[simp] theorem commit_fuses (s : State) (w : W) : (commit s w).fuses = blowAll s.fuses w.blow := rfl
@[simp] theorem commit_load (s : State) : commit s (load s) = s := rfl

end Sys2Proof.Machine
end

