-- ==== Sys2Proof/WellFormed.lean ====
section
/-! DEFINITION. Well-formed commands: the operand values that the spec's own fields can carry. A meaning takes every command; a
request that is not well formed is answered as the frame error the spec gives it. -/

namespace Sys2Proof

/-- The command bytes of Table 8.1. -/
def portCmds : List Nat := [0xA5, 0xA6, 0xC3, 0x3C]

/-- The opcodes of Table 6.6 other than BYPASS; each that is available has a row of its own. A refused instruction is a `bypass` too,
so only those that are always available are shut out (R115). -/
def runOps : List Nat := [0x01, 0x02, 0x10]

/-- DLEN of a block or engine operation (R160). -/
def dlenOk (n : Nat) : Bool := decide (1 ≤ n) && decide (n ≤ 4096)

/-- A descriptor's address has its two low bits 0 (R11, R160). -/
def wordAddr (a : Word) : Bool := a.toNat % 4 == 0

/-- A Gen1 address is a 24-bit byte address of a word (R159). -/
def byteAddr (a : Word) : Bool := wordAddr a && decide (a.toNat < 2 ^ 24)

/-- An address in the channel engine windows (Table 1.5). -/
def engWindow (a : Word) : Bool := wordAddr a && decide (0x60000 ≤ a.toNat) && decide (a.toNat < 0x62000)

/-- VALUE and MASK of an engine descriptor: the bits that Table 13.2 uses. -/
def engWords (value mask : Word) : Bool := decide (value.toNat < 2 ^ 24) && decide (mask.toNat < 2 ^ 16)

/-- Data of `n` bytes. -/
def Source.fits : Source → Nat → Bool
  | .inline bs, n => bs.length == n
  | .list b, _ => decide (b.toNat < 4096)

/-- RD32 and WR32 are a Gen2 descriptor or a Gen3 item. -/
def wordReq (r : Req) : Bool := r.gen == 2 || r.gen == 3

/-- An EEPROM read ends with 256 bytes or without data. -/
def EeEnd.whole : EeEnd → Bool
  | .data bs => bs.length == 256
  | .noAck => true
  | .busError => true

/-- The command is well formed. -/
def Instr.wf : Instr → Bool
  | .sendRing _ => true
  | .sendShort _ => true
  | .fetch _ => true
  | .stat => true
  | .unknownCommand cmd => !portCmds.contains cmd.toNat
  | .length _ _ => true
  | .ringFrame _ _ _ => true
  | .rollCallHoldoffExpiry => true
  | .rollCallStart => true
  | .sweepLostTimeout => true
  | .ringNoHead => true
  | .silentExpiry _ => true
  | .linkStartTimeout _ => true
  | .null _ => true
  | .fct _ => true
  | .disconnect _ => true
  | .linkError _ _ => true
  | .roll _ => true
  | .portEnable _ _ _ => true
  | .tqaGrant => true
  | .freeze _ _ => true
  | .tqaPrioWrite _ _ _ => true
  | .bxaGrant => true
  | .pmodeWrite _ _ => true
  | .slotAck _ _ _ => true
  | .silentSlotTimeout => true
  | .barrierPark => true
  | .barrierWake => true
  | .opPacket => true
  | .result => true
  | .abortAck => true
  | .holdup => true
  | .statusPage0 => true
  | .statusPage1 => true
  | .statusPage2 => true
  | .statusPage3 => true
  | .statusPage4 => true
  | .statusPage5 => true
  | .swapReport => true
  | .eepromDataPage => true
  | .statusPeriod => true
  | .paceMeasurement _ _ => true
  | .table => true
  | .timeChunk => true
  | .pairChunk => true
  | .swap => true
  | .breset => true
  | .boardDieRestart => true
  | .tabort => true
  | .lanecmdReturn => true
  | .lanecmdForce => true
  | .lanecmdRelease => true
  | .lanecmdReaction => true
  | .replay => true
  | .debug _ _ _ => true
  | .lamplighterTref => true
  | .keepaliveTimer => true
  | .refresh => true
  | .missWindowExpiry => true
  | .holdTExpiry _ => true
  | .directInputEdge _ _ => true
  | .directRefreshTimer _ => true
  | .directPulse _ _ => true
  | .directFs _ => true
  | .beaconSymbol _ _ => true
  | .beaconLostB => true
  | .beaconAliveReturn => true
  | .rackLost => true
  | .rackBeaconReturn => true
  | .cmtEvent _ => true
  | .barReturn _ _ => true
  | .barForce _ _ => true
  | .conflictWindowEnd _ => true
  | .laneMismatch _ => true
  | .levelInChange _ _ => true
  | .boardAttach => true
  | .boardDetach => true
  | .etx req addr dlen src _ value mask => req.gen == 2 && dlenOk dlen && engWindow addr && src.fits dlen && engWords value mask
  | .erx req addr dlen _ value mask => req.gen == 2 && dlenOk dlen && engWindow addr && engWords value mask
  | .engTxw _ _ _ => true
  | .engRxw _ _ => true
  | .engOcw _ _ _ => true
  | .flushRx _ _ => true
  | .engineTimer _ => true
  | .engineInputEdge _ _ => true
  | .engineTimeout _ _ => true
  | .ocwSample _ _ => true
  | .pulseInputEdge _ _ _ => true
  | .pulseRecordDue _ => true
  | .engineStop _ _ => true
  | .idleSequence _ => true
  | .gen1Read req addr => req.gen == 1 && req.queue == 2 && byteAddr addr
  | .gen1Write req addr _ => req.gen == 1 && req.queue == 2 && byteAddr addr
  | .rd32 req addr => wordReq req && wordAddr addr
  | .wr32 req addr _ => wordReq req && wordAddr addr
  | .rmw32 req addr _ _ => req.gen == 2 && wordAddr addr
  | .rdblk req addr dlen => req.gen == 2 && wordAddr addr && dlenOk dlen && dlen % 4 == 0
  | .wrblk req addr dlen src => req.gen == 2 && wordAddr addr && dlenOk dlen && dlen % 4 == 0 && src.fits dlen
  | .free req buf count => req.gen == 2 && decide (buf.toNat < 4096) && decide (1 ≤ count) && decide (count ≤ 64)
  | .fence req => req.gen == 2
  | .fenceDone _ => true
  | .set req addr _ => req.gen == 3 && wordAddr addr
  | .clr req addr _ => req.gen == 3 && wordAddr addr
  | .tenReset _ _ _ => true
  | .tresetSlow _ => true
  | .board _ _ => true
  | .soft _ _ => true
  | .softResetDeferredStart => true
  | .releaseLanes _ _ => true
  | .powerOn _ => true
  | .vddaCollapse => true
  | .rstnLow => true
  | .rstnHigh _ _ => true
  | .rstnStuck _ => true
  | .rearm => true
  | .boardNoReturn => true
  | .brownNoticeBegin _ _ => true
  | .brownNoticeEnd _ _ _ _ => true
  | .brownLong _ _ => true
  | .vddbCollapse => true
  | .holdupEnd => true
  | .bankDown _ => true
  | .bankUp _ => true
  | .bankLow _ => true
  | .holdbLow => true
  | .standby _ => true
  | .dormant _ => true
  | .active _ => true
  | .hcsnWake => true
  | .extest => true
  | .samplePreload _ => true
  | .idcode => true
  | .highz => true
  | .clamp => true
  | .fuseRead _ => true
  | .fuseProg _ _ _ _ => true
  | .lcAdvance target token => token.all (fun t => t.length == 16) && (token.isNone || target == 3)
  | .dbg => true
  | .vchal => true
  | .vchalResponse resp => resp.length == 32
  | .vchalHoldExpiry => true
  | .bypass opcode => opcode == 0x3F || !runOps.contains opcode.toNat
  | .trstnLow => true
  | .faultRaise _ _ _ _ => true
  | .wireFault _ _ => true
  | .fltAck _ _ _ => true
  | .fltFkey _ _ => true
  | .forceRaise _ _ _ => true
  | .forceWire00 _ _ _ => true
  | .forceWire11 _ _ _ => true
  | .quietEnd _ _ => true
  | .wrenToggle => true
  | .tpi => true
  | .referenceLoss => true
  | .tholdMaxExpiry => true
  | .crystalLost => true
  | .crystalRestored => true
  | .timeSend => true
  | .tpoRise => true
  | .tpoFall => true
  | .timSetHi _ _ => true
  | .timNextHi _ _ => true
  | .timNowLoRead _ => true
  | .timMonoLoRead _ => true
  | .slewDone => true
  | .identityRead _ => true
  | .strapPhaseEnd _ => true
  | .idsConversion _ => true
  | .eepromReadDone how => how.whole
  | .idnWb _ _ _ => true
  | .writebackStart => true
  | .writebackPoll _ => true
  | .writebackTimeout => true
  | .writebackVerify bytes => bytes.length == 64
  | .ckFeed _ _ _ => true
  | .start _ _ => true
  | .ckRunWrite _ _ _ => true
  | .selfTest _ _ => true
  | .windowWrite _ offset _ => offset.toNat % 4 == 0
  | .windowLineCommitStart => true
  | .lineCommitDone => true
  | .logLineCommit => true
  | .recnMark => true
  | .logMark _ _ => true
  | .logFreeze _ _ => true
  | .arm _ _ => true
  | .load _ _ => true
  | .go _ _ => true
  | .abort _ _ => true
  | .rwaitExpiry => true
  | .epochCut => true
  | .epochNoack => true
  | .startTake => true
  | .silence _ => true
  | .heldSilentTakeover => true
  | .forcedTakeover => true
  | .handover _ _ => true
  | .releaseAckWaitEnd => true
  | .hot _ _ => true
  | .cold _ _ _ => true
  | .check _ _ _ => true
  | .weaveDeferredStart => true
  | .registerWrite _ addr _ => wordAddr addr
  | .boardDiePowerOn _ => true
  | .wireFaultClear _ => true

end Sys2Proof
end

