-- ==== Sys2Proof/Tests/Slice0.lean ====
section
/-! SUPPORT. Tests: for every obligation a state and operands that meet its hypotheses, an ill-formed command for each check of
WellFormed, and the spec's own worked examples. -/

namespace Sys2Proof.Tests

open Sys2Proof.Machine

set_option Elab.async false

theorem test_reset_inv : State.reset.Inv := by decide

/-! ## States -/

/-- A running, woven unit with a board die that is alive and has its tables. -/
def unit : State := { State.reset with
  dev.img.woven := true
  dev.bar := { State.reset.dev.bar with bAlive := true, lamp := true }
  dev.bd := { State.reset.dev.bd with tabs := true, core := true, pstate := 2 } }

theorem unit_rack : unit.rack := ⟨rfl, by decide⟩

/-- A port in RUN with all its credit. -/
def port : RingPort := { st := 4, credit := 56 }

/-- A frame of TS for the unit with address 9. -/
def frame : List Byte :=
  ({ dst := 9, urg := false, rfl' := false, orig := 0, gen := 2, ten := 4, type := 1, seq := 7, len := 4, hops := 0, payload := [1, 2, 3, 4] } : Frame).bytes

/-- Every raise of a fresh state takes its native class. -/
theorem calm_of {s : State} {x d c : Nat} {e : Bool} (h : (load s).decision x d false = .fresh c e) (k : c ≠ 2) (r : fld (s.dev.img.cfg.flt.react' x d c) 11 2 = 0) :
    s.calm x d := .inr ⟨c, e, h, k, r⟩

/-! ## Hypotheses that are met: the host port and the ring -/

theorem witness_StepKeepsMemoryCanonical : ∃ t, State.reset.Inv ∧ step State.reset = .next t := ⟨_, by decide, rfl⟩

theorem witness_StepRunsFront : State.reset.pending = [] := rfl

theorem witness_HostReads : State.reset.awake ∧ State.reset.dev.sup.mode ≠ 2 ∧ State.reset.dev.hpt.rq = [] ∧
    ({ State.reset with dev.hpt.rq := [{ short := true, err := false, ten := 0, bytes := [0] }] } : State).awake := ⟨⟨rfl, by decide⟩, by decide, rfl, ⟨rfl, by decide⟩⟩

/-- A unit with both ports in RUN. -/
def ringed : State := { State.reset with dev.ring := { State.reset.dev.ring with up := port, dn := port } }

/-- A unit at address 5, and the frame as its host sends it: HOPS and HCRC are 0. -/
def addressed : State := { ringed with dev.ring.addr := 5 }
def hostFrame : List Byte :=
  ((({ dst := 9, urg := false, rfl' := false, orig := 5, gen := 2, ten := 4, type := 1, seq := 7, len := 4, hops := 0, payload := [1, 2, 3, 4] } : Frame).bytes).set 8 0).set 9 0

theorem witness_SendRingPlacesFrame : let f := readFrame hostFrame
    addressed.awake ∧ addressed.dev.hpt.rx.length < 2 ∧ 8 ≤ hostFrame.length ∧ f.len ≤ 1024 ∧ 14 + f.len ≤ hostFrame.length ∧ f.dst ≠ 0 ∧ f.dst ≠ addressed.dev.ring.addr ∧ f.dst ≠ 63 ∧
      (load addressed).entryFault f hostFrame = none ∧ addressed.dev.admits f.ten = true ∧
      let b := ({ f with hops := 0 } : Frame).bytes.take (10 + f.len) ++ (hostFrame.drop (10 + f.len)).take 4
      (readFrame b).type ≠ 4 ∧ (addressed.dev.ring.port ((load addressed).unicastPort f.dst)).ready b.length := by
  refine ⟨⟨rfl, by decide⟩, by decide, by decide, by decide, by decide, by decide, by decide, by decide, by decide, by decide, by decide, by decide, by decide, by decide, by decide, by decide⟩

theorem witness_LengthAnswersError : State.reset.awake ∧ State.reset.dev.hpt.rx.length < 2 ∧ State.reset.dev.hpt.rqFull 22 = false ∧ State.reset.calm 0x18 dUnit ∧ ([1, 2, 3, 4, 5, 6, 7] : List Byte).length < 8 ∧
    ([1] : List Byte).length < 2 ∧ 2 ≤ State.reset.dev.shortGen := ⟨⟨rfl, by decide⟩, by decide, by decide, calm_of (e := false) rfl (by decide) (by decide), by decide, by decide, by decide⟩

theorem witness_RingFrameMovesOn :
    (let f := readFrame frame
     ringed.rack ∧ (ringed.dev.ring.port .up).st = 4 ∧ 14 ≤ frame.length ∧ hcrcOk frame = true ∧ f.len ≤ 1024 ∧ 14 + f.len ≤ frame.length ∧ f.type ≠ 0x11 ∧ f.type ≠ 0x12 ∧ f.type ≠ 4 ∧ f.dst ≠ 63 ∧
      (f.dst ≠ ringed.dev.ring.addr ∨ ringed.dev.ring.addr = 0) ∧ f.orig = 0 ∧ f.hops < 62 ∧
      (ringed.dev.ring.port (otherPort .up)).ready (({ f with hops := f.hops + 1 } : Frame).bytes.take (10 + f.len) ++ (frame.drop (10 + f.len)).take 4).length) ∧
    (let s : State := { ringed with dev.ring.addr := 5 }
     let bs := ({ dst := 5, urg := false, rfl' := true, orig := 9, gen := 2, ten := 0, type := 2, seq := 7, len := 0, hops := 61, payload := [] } : Frame).bytes
     let f := readFrame bs
     s.rack ∧ (s.dev.ring.port .dn).st = 4 ∧ 14 ≤ bs.length ∧ hcrcOk bs = true ∧ 14 + f.len ≤ bs.length ∧ f.type = 2 ∧ f.dst = s.dev.ring.addr ∧ s.dev.ring.addr ≠ 0 ∧ fcrcOk bs f = true ∧ s.dev.hpt.rqFull (14 + f.len) = false) := by
  refine ⟨⟨⟨rfl, by decide +kernel⟩, rfl, by decide +kernel, by decide +kernel, by decide +kernel, by decide +kernel, by decide +kernel, by decide +kernel, by decide +kernel, by decide +kernel, by decide +kernel, by decide +kernel, by decide +kernel, by decide +kernel, by decide +kernel, by decide +kernel, by decide +kernel, by decide +kernel⟩, ⟨rfl, by decide +kernel⟩, rfl, by decide +kernel, by decide +kernel, by decide +kernel, by decide +kernel, by decide +kernel, by decide +kernel, by decide +kernel, by decide +kernel⟩

theorem witness_LinkSteps : State.reset.rack ∧ (State.reset.dev.ring.port .up).st = 1 ∧ (∃ s : State, s.rack ∧ (s.dev.ring.port .dn).st = 2 ∧ (((s.dev.tim.mono :: (s.dev.ring.port .dn).errT).filter (fun x => decide (s.dev.tim.mono < x + 1000000000))).length ≤ 16)) ∧
    (∃ s : State, s.rack ∧ (s.dev.ring.port .up).st = 3 ∧ (((s.dev.tim.mono :: (s.dev.ring.port .up).errT).filter (fun x => decide (s.dev.tim.mono < x + 1000000000))).length = 16)) ∧
    (∃ s : State, s.rack ∧ (s.dev.ring.port .up).st = 4 ∧ (s.dev.ring.port .up).credit + 8 = 56 ∧ (s.dev.ring.port .up).cur = none ∧ (s.dev.ring.port .up).fwdQ = [] ∧ (s.dev.ring.port .up).ownQ = []) :=
  ⟨⟨rfl, by decide⟩, rfl, ⟨{ State.reset with dev.ring.dn.st := 2 }, ⟨rfl, by decide⟩, rfl, by decide⟩,
    ⟨{ State.reset with dev.ring.up := { st := 3, errT := List.replicate 15 0 } }, ⟨rfl, by decide⟩, rfl, by decide⟩,
    ⟨{ State.reset with dev.ring.up := { st := 4, credit := 48 } }, ⟨rfl, by decide⟩, rfl, rfl, rfl, rfl, rfl⟩⟩

/-- A head with both ports in RUN. -/
def head : State := { ringed with dev.pins.head := true }

theorem witness_RollCallStarts : (∃ s : State, s.rack ∧ s.dev.isHead = true ∧ (s.dev.ring.port .up).st = 4 ∧ s.dev.ring.holdoff = true) ∧
    (∃ s : State, s.rack ∧ s.dev.isHead = true ∧ (s.dev.ring.port .up).st = 4 ∧ s.dev.ring.busy = true ∧ s.dev.ring.assignOut = 0) ∧
    (head.rack ∧ head.dev.isHead = true ∧ (head.dev.ring.port .dn).st = 4 ∧ head.dev.ring.busy = false ∧ head.dev.ring.holdoff = false ∧ head.writer 4 ∧ (load head).portsOn = true ∧ head.dev.ring.rate < 3 ∧
      ∀ p, (head.dev.ring.port p).en = decide ((head.dev.ring.port p).st ≠ 0)) :=
  ⟨⟨{ head with dev.ring.holdoff := true }, ⟨rfl, by decide⟩, rfl, rfl, rfl⟩, ⟨{ head with dev.ring.busy := true }, ⟨rfl, by decide⟩, rfl, rfl, rfl, rfl⟩,
    ⟨rfl, by decide⟩, rfl, rfl, rfl, rfl, ⟨rfl, rfl⟩, rfl, by decide, fun p => by cases p <;> rfl⟩

theorem witness_PortsAndNoHead : (State.reset.rack ∧ State.reset.writer 4 ∧ State.reset.dev.ring.rate < 3 ∧ State.reset.dev.ring.up.st ≠ 4 ∧ State.reset.dev.ring.dn.st ≠ 4) ∧
    (ringed.rack ∧ ringed.dev.isHead = false ∧ ringed.dev.ring.noHead = false ∧ (ringed.dev.ring.port .up).st = 4 ∧ ringed.dev.wish = 0 ∧ ringed.calm 0x14 dUnit) :=
  ⟨⟨⟨rfl, by decide⟩, ⟨rfl, rfl⟩, by decide, by decide, by decide⟩, ⟨rfl, by decide⟩, rfl, rfl, rfl, rfl, calm_of (e := false) rfl (by decide) (by decide)⟩

/-! ## Hypotheses that are met: the arbiters and the packet lanes -/

theorem witness_ArbiterSettings : State.reset.rack ∧ State.reset.writer 4 ∧ (3 : Ten) ≠ 4 := ⟨⟨rfl, by decide⟩, ⟨rfl, rfl⟩, by decide⟩

/-- A one-word write of lane 3 by T1 that asks for no reply. -/
def wr3 : Op := { kind := .wr, addr := 0x500C0, value := 1, req := { ten := 1, gen := 2, queue := 2, tag := 0, quiet := true, route := shortRoute } }

/-- The unit with `wr3` on ticket 0, waiting in Q2 of T1. -/
def waiting : State := { unit with
  dev.tens := [{}, { queues := [[], [], [0], []], tktUse := 1 }, {}, {}, {}]
  dev.pool := { State.reset.dev.pool with tkts := [(0, { st := .queued, ten := 1, queue := 2, icount := 1, board := true, op := some wr3 })] } }

theorem witness_TqaPicksHighest : waiting.dev.tqaPick = some 6 ∧ State.reset.dev.tqaPick = none ∧
    ({ waiting with dev.arb.prio := List.replicate 20 0 } : State).dev.tqaPick = some 6 ∧ ({ waiting with dev.arb.prio := List.replicate 20 0 } : State).dev.arb.level 6 = 0 := by decide

theorem witness_TqaGrantIssues : waiting.rack ∧ waiting.dev.log.lstate < 4 ∧ waiting.dev.arb.sel = none ∧ waiting.dev.tqaPick = some 6 ∧ waiting.dev.pairQueue 6 = [0] ∧ (waiting.dev.pool.tkt 0).op = some wr3 ∧
    (waiting.dev.pool.tkt 0).board = true ∧ (waiting.dev.pool.tkt 0).queue ≠ 0 ∧ wr3.kind ∈ [OpKind.rd, OpKind.wr, OpKind.rmw, OpKind.set, OpKind.clr] ∧ wr3.engine = none ∧ waiting.dev.flt.fatal = false ∧
    waiting.dev.bar.bAlive = true ∧ waiting.dev.sup.mode = 0 := ⟨⟨rfl, by decide⟩, by decide, rfl, by decide, rfl, rfl, rfl, by decide, by decide, by decide, rfl, rfl, rfl⟩

/-- The packet of `wr3`. -/
def opPkt : Pkt := { body := .op wr3, tkt := 0, ic := 1, ten := 1, queue := 2 }

theorem witness_BxaGrantStarts : (unit.rack ∧ unit.dev.log.lstate < 4 ∧ unit.dev.arb.flight = none ∧ unit.dev.bar.bAlive = true ∧ unit.dev.bar.parked = false) ∧
    (∃ s : State, s.rack ∧ s.dev.arb.flight = none ∧ s.dev.bar.bAlive = true ∧ s.dev.arb.lamp = some ({ body := .breset } : Pkt)) ∧
    (∃ s : State, s.rack ∧ s.dev.arb.flight = none ∧ s.dev.bar.bAlive = true ∧ s.dev.arb.lamp = none ∧ s.dev.arb.ctl = [({ body := .breset } : Pkt)]) ∧
    (∃ s : State, s.rack ∧ s.dev.arb.flight = none ∧ s.dev.bar.bAlive = true ∧ s.dev.arb.lamp = none ∧ s.dev.arb.ctl = [] ∧ s.dev.arb.dbg = none ∧ s.dev.arb.resend = [] ∧ s.dev.arb.pend = none ∧ s.dev.arb.urgent = [] ∧
      s.dev.img.cfg.slotOwner s.dev.arb.pos = 1 ∧ s.dev.arb.fifo 1 = [opPkt] ∧ s.dev.maySend opPkt = true ∧ s.dev.arb.pos = 62) :=
  ⟨⟨⟨rfl, by decide⟩, by decide, rfl, rfl, rfl⟩, ⟨{ unit with dev.arb.lamp := some ({ body := .breset } : Pkt) }, ⟨rfl, by decide⟩, rfl, rfl, rfl⟩,
    ⟨{ unit with dev.arb.ctl := [({ body := .breset } : Pkt)] }, ⟨rfl, by decide⟩, rfl, rfl, rfl, rfl⟩,
    ⟨{ waiting with dev.arb.fifos := [[], [opPkt], [], [], []], dev.arb.pos := 62, dev.img.cfg.arb.slot := upto 64 (fun _ => 1) }, ⟨rfl, by decide⟩, rfl, rfl, rfl, rfl, rfl, rfl, rfl, rfl, by decide, rfl, by decide, rfl⟩⟩

theorem witness_SlotsEnd :
    (let s : State := { unit with dev.arb.flight := some ({ pkt := ({ body := .breset } : Pkt), cls := .control } : Flight) }
     s.rack ∧ s.dev.bar.bdown = false ∧ s.dev.arb.flight = some ({ pkt := ({ body := .breset } : Pkt), cls := .control } : Flight)) ∧
    (let s : State := { unit with dev.arb.flight := some ({ pkt := opPkt, cls := .owner, aborted := true } : Flight) }
     s.rack ∧ s.dev.bar.bdown = false ∧ s.dev.arb.flight = some ({ pkt := opPkt, cls := .owner, aborted := true } : Flight)) ∧
    (let s : State := { unit with dev.arb.silent := some opPkt, dev.bar.runFwd := 6 }
     s.rack ∧ s.calm 0x33 dUnit ∧ s.dev.arb.silent = some opPkt ∧ s.dev.bar.runFwd < 7 ∧ ∀ k l q tb z, opPkt.body ≠ .refresh k l q tb z) :=
  ⟨⟨⟨rfl, by decide⟩, by decide⟩, ⟨⟨rfl, by decide⟩, by decide⟩, ⟨rfl, by decide⟩, calm_of (e := false) rfl (by decide) (by decide), rfl, by decide, fun _ _ _ _ _ h => by cases h⟩

theorem witness_ParkingAndLamp :
    (let s : State := { unit with dev.sup.mode := 1 }
     s.rack ∧ s.dev.sup.mode = 1 ∧ s.dev.traffic = false ∧ s.dev.bar.lamp = true ∧ s.dev.bar.bAlive = true ∧ s.dev.img.woven = true) ∧
    (let s : State := { unit with dev.bar.parked := true, dev.arb.ctl := [({ body := .breset } : Pkt)] }
     s.rack ∧ s.dev.bar.parked = true ∧ s.dev.traffic = true) ∧
    unit.rack ∧ unit.dev.bar.lamp = true ∧ unit.dev.bar.bAlive = true ∧ unit.dev.img.woven = true ∧ unit.dev.sup.mode = 0 :=
  ⟨⟨⟨rfl, by decide⟩, by decide⟩, ⟨⟨rfl, by decide⟩, by decide⟩, unit_rack, by decide⟩

/-! ## Hypotheses that are met: packets at the rack die -/

/-- The unit with the status packet `x` waiting at the board die. -/
def telling (x : Payload) : State := { unit with dev.bd.outS := [({ body := x } : Pkt)] }

theorem telling_hears (x : Payload) : (telling x).hears x [] := ⟨⟨rfl, by show (0 : Nat) ≠ 4; decide⟩, rfl, _, rfl, rfl⟩

/-- `wr3` ISSUED on ticket 0, with its result at the board die. -/
def answered (news : Option (Nat × Nat × Nat)) : State := { unit with
  dev.tens := [{}, { tktUse := 1 }, {}, {}, {}]
  dev.pool := { State.reset.dev.pool with tkts := [(0, { st := .issued, ten := 1, queue := 2, icount := 1, board := true, op := some wr3 })], tktFree := [1] }
  dev.bd.outR := [({ body := .result stOK 0 0 news none, tkt := 0, ic := 1, ten := 1, queue := 2 } : Pkt)] }

/-- A quarantined ticket, with its acknowledgement at the board die. -/
def quarantined : State := { unit with
  dev.pool := { State.reset.dev.pool with tkts := [(3, { st := .quarantined, ten := 1, icount := 2, board := true })] }
  dev.bd.outA := [({ body := .abortAck [(3, 2)] } : Pkt)] }

theorem witness_TicketsRetire :
    (let s := answered (some (3, 1, 5))
     let k := s.dev.pool.tkt 0
     s.rack ∧ s.dev.bar.parked = false ∧ s.dev.bd.nextOut = some ({ body := .result stOK 0 0 (some (3, 1, 5)) none, tkt := 0, ic := 1, ten := 1, queue := 2 } : Pkt) ∧ k.st = .issued ∧ k.board = true ∧ k.icount = 1 ∧
       (s.dev.ten k.ten).rst = none ∧ k.op = some wr3 ∧ wr3.kind ∈ [OpKind.wr, OpKind.rmw] ∧ wr3.msg = none ∧ wr3.req.gen = 2 ∧ wr3.req.quiet = true ∧ k.bind = none ∧ k.rx = [] ∧ k.pins = [] ∧ s.dev.arb.heldE = [] ∧
       ∀ e ∈ (s.dev.pool.setTkt 0 { icount := k.icount }).tkts, e.2.st ≠ .issued) ∧
    (let k := quarantined.dev.pool.tkt 3
     quarantined.rack ∧ quarantined.dev.bar.parked = false ∧ quarantined.dev.bd.nextOut = some ({ body := .abortAck [(3, k.icount)] } : Pkt) ∧ k.st = .quarantined ∧ k.pins = [] ∧ ∀ t < 5, (quarantined.dev.ten t).rst = none) :=
  ⟨⟨⟨rfl, by decide⟩, by decide⟩, ⟨rfl, by decide⟩, by decide⟩

theorem witness_StatusPackets :
    ((telling (.page0 0 0xF 0 true 0 false 0 [] 3)).hears (.page0 0 0xF 0 true 0 false 0 [] 3) [] ∧ (0xF : BitVec 4).getLsbD 3 = true) ∧
    (telling (.page1 [] 7 1)).hears (.page1 [] 7 1) [] ∧ (telling (.page2 2 false)).hears (.page2 2 false) [] ∧
    ((telling (.page4 { ids := 16 })).hears (.page4 { ids := 16 }) [] ∧ (telling (.page4 { ids := 16 })).dev.idn.astate ≠ 1) ∧
    (let s : State := { telling (.eeprom 36 [1]) with dev.idn.astate := 1 }
     s.hears (.eeprom 36 [1]) [] ∧ s.dev.idn.astate = 1) ∧
    (∀ r, (telling (.holdup r)).hears (.holdup r) []) ∧
    (let e : BEvent := { source := 0x41, wire := false, dom := 1, detail := 3 }
     (telling (.page3 [e])).hears (.page3 [e]) [] ∧ e.source ∉ [0x0D, 0x43, 0x44] ∧ (telling (.page3 [e])).calm e.source e.dom) ∧
    (telling (.page5 [])).hears (.page5 []) [] ∧
    (let s : State := { telling (.page6 0) with dev.img.phase := 2, dev.pins.head := true }
     s.hears (.page6 s.dev.img.cfg.imgcrc) [] ∧ s.dev.img.phase = 2 ∧ s.dev.isHead = true ∧ ∀ t < 5, (s.dev.ten t).rst = none) :=
  ⟨⟨telling_hears _, by decide⟩, telling_hears _, telling_hears _, ⟨telling_hears _, by decide⟩, ⟨⟨⟨rfl, by decide⟩, rfl, _, rfl, rfl⟩, rfl⟩, fun _ => telling_hears _,
    ⟨telling_hears _, by decide, calm_of (e := false) rfl (by decide) (by decide)⟩, telling_hears _, ⟨⟨rfl, by decide⟩, rfl, _, rfl, rfl⟩, by decide⟩

/-! ## Hypotheses that are met: the board die -/

/-- The unit with the packet `x` at the board die. -/
def taking (x : Payload) : State := { unit with dev.bd.inbox := [({ body := x } : Pkt)] }

theorem taking_has (x : Payload) : (taking x).boardHas ({ body := x } : Pkt) [] := ⟨⟨rfl, by show (0 : Nat) < 4; decide⟩, rfl⟩

theorem unit_board : unit.board := ⟨rfl, by decide⟩

def someTables (shadow : Bool) : Tables := { cfg := {}, shadow := shadow, lseq := 0, lvl := [], stuck := false }

theorem witness_BoardPacketsTaken : (taking (.timeChunk 5)).boardHas ({ body := .timeChunk 5 } : Pkt) [] ∧ (taking (.table (someTables true))).boardHas ({ body := .table (someTables true) } : Pkt) [] ∧
    (taking (.pairChunk true [])).boardHas ({ body := .pairChunk true [] } : Pkt) [] ∧
    (let s : State := { taking (.swap 9) with dev.bd.shadow := some (someTables true) }
     s.boardHas ({ body := .swap 9 } : Pkt) [] ∧ s.dev.bd.shadow = some (someTables true)) ∧
    ((taking (.tabort 1)).boardHas ({ body := .tabort 1 } : Pkt) [] ∧ ∀ e < 8, ∀ o ∈ ((taking (.tabort 1)).dev.bd.eng e).ops ++ ((taking (.tabort 1)).dev.bd.eng e).opsRx, o.op.req.ten.val ≠ 1) :=
  ⟨taking_has _, taking_has _, taking_has _, ⟨⟨⟨rfl, by decide⟩, rfl⟩, rfl⟩, taking_has _, by decide⟩

/-- A board die whose core is off. -/
def off : State := { unit with dev.bd := { unit.dev.bd with core := false, vddb := true } }

theorem witness_BoardTablesAndReset : (taking (.table (someTables false))).boardHas ({ body := .table (someTables false) } : Pkt) [] ∧ (taking .breset).boardHas ({ body := .breset } : Pkt) [] ∧
    off.dev.log.lstate ≠ 4 ∧ off.dev.bd.core = false ∧ off.dev.bd.vddb = true ∧ off.dev.sup.mode ≠ 2 ∧ ∀ e ∈ off.dev.pool.tkts, e.2.st ≠ .quarantined :=
  ⟨taking_has _, taking_has _, by decide⟩

/-- Lane 3 is a LEVEL_OUT lane of T1, and lane 4 a LEVEL_IN lane. -/
def laned : Cfg := { lanes := [{}, {}, {}, { mode := 2, owners := 2 }, { mode := 1 }], fs := [{}, {}, {}, { fsv := 3, second := 1, holdT := 5 }] }

/-- The unit with those lanes, the packet `x` at the board die, and lane 3 as given. -/
def lanes (x : Payload) (l : Lane) : State := { taking x with dev.bd := { (taking x).dev.bd with cfg := laned, lanes := [(3, l)] } }

theorem lanes_has (x : Payload) (l : Lane) : (lanes x l).boardHas ({ body := x } : Pkt) [] := ⟨⟨rfl, by show (0 : Nat) < 4; decide⟩, rfl⟩

theorem witness_RefreshTaken :
    (let s := lanes (.refresh false [] 5 0 0) {}
     s.boardHas ({ body := .refresh false [] 5 0 0 } : Pkt) [] ∧ s.dev.bd.tabs = true ∧ 5 ≠ s.dev.bd.wseq ∧ ∀ n < 32, (s.dev.bd.lane n).cause.getLsbD 0 = false) ∧
    (let s := lanes (.refresh false [] 0 0 0) { stage := 1, armed := true, refr := 1 }
     s.boardHas ({ body := .refresh false [] 0 0 0 } : Pkt) [] ∧ s.dev.bd.tabs = true ∧ s.dev.bd.wseq = 0 ∧ s.dev.bd.cfg.outLane 3 = true ∧ (s.dev.bd.lane 3).stage ≠ 0 ∧ (s.dev.bd.lane 3).armed = true ∧
       (s.dev.bd.lane 3).cause = 0 ∧ 1 ≤ (s.dev.bd.lane 3).refr) ∧
    (let s := lanes (.refresh false [] 0 0 0) { stage := 2, armed := true }
     s.boardHas ({ body := .refresh false [] 0 0 0 } : Pkt) [] ∧ s.dev.bd.cfg.outLane 3 = true ∧ (s.dev.bd.lane 3).armed = true ∧ (s.dev.bd.lane 3).refr = 0) :=
  ⟨⟨lanes_has _ _, by decide +kernel⟩, ⟨lanes_has _ _, by decide +kernel⟩, lanes_has _ _, by decide +kernel⟩

theorem witness_BoardTimers : unit.board ∧ unit.dev.bd.tabs = true ∧ unit.dev.bd.pstate ≠ 0 ∧ unit.dev.bd.miss + 1 ≠ unit.dev.bd.cfg.nmiss ∧
    (let s : State := { unit with dev.bd.miss := 2 }
     s.board ∧ s.dev.bd.miss + 1 = s.dev.bd.cfg.nmiss) ∧
    (let s := lanes .breset { stage := 1 }
     let f := (load s).lfs 3
     s.board ∧ s.dev.img.cfg.baChan 3 = false ∧ s.dev.bd.cfg.outLane 3 = true ∧ (s.dev.bd.lane 3).stage = 1 ∧ f.fsv = 3 ∧ f.second ≠ 3 ∧ f.holdT ≠ 0) ∧
    (let s : State := { unit with
       dev.bd.cfg.dirEn := 1, dev.bd.cfg.dfs := [({ fsv := 3, second := 1, holdT := 1 } : FsCfg)], dev.bd.direct := [(0, { fs := true })] }
     s.board ∧ s.dev.img.cfg.baChan 0 = false ∧ s.dev.bd.cfg.outLane 0 = false ∧ s.dev.bd.cfg.abLane 0 = true ∧ (tget {} s.dev.bd.direct 0).fs = true ∧ ((load s).lfs 0).fsv = 3 ∧ ((load s).lfs 0).holdT ≠ 0) ∧
    (let s := lanes .breset { wOpen := true }
     s.board ∧ (s.dev.bd.lane 3).wOpen = true) :=
  ⟨unit_board, rfl, by decide, by decide, ⟨⟨rfl, by decide⟩, by decide⟩, ⟨(lanes_has _ _).1, by decide⟩, ⟨⟨rfl, by decide⟩, by decide⟩, (lanes_has _ _).1, rfl⟩

theorem witness_LaneCommands :
    (let s := lanes (.lanecmd 8 0 false) { stage := 1, cause := 0x20 }
     s.boardHas ({ body := .lanecmd 8 0 false } : Pkt) [] ∧ s.dev.bd.tabs = true ∧ s.dev.bd.cfg.outLane 3 = true ∧ (8 : BitVec 32).getLsbD 3 = true ∧ (s.dev.bd.lane 3).stage ≠ 0 ∧ (s.dev.bd.lane 3).cause &&& 0x5F = 0) ∧
    (let s := lanes (.lanecmd 8 0 false) { stage := 1, cause := 0x21 }
     s.boardHas ({ body := .lanecmd 8 0 false } : Pkt) [] ∧ s.dev.bd.cfg.outLane 3 = true ∧ (s.dev.bd.lane 3).stage ≠ 0 ∧ (s.dev.bd.lane 3).cause &&& 0x5F ≠ 0) ∧
    (lanes (.lanecmd 8 1 false) {}).boardHas ({ body := .lanecmd 8 1 false } : Pkt) [] ∧ (lanes (.lanecmd 8 3 true) {}).boardHas ({ body := .lanecmd 8 3 true } : Pkt) [] ∧
    (lanes (.lanecmd 8 3 false) {}).boardHas ({ body := .lanecmd 8 3 false } : Pkt) [] ∧
    (let s := lanes (.lanecmd 8 2 false) { stage := 1, cause := 8 }
     s.boardHas ({ body := .lanecmd 8 2 false } : Pkt) [] ∧ (∀ n < 8, s.dev.bd.cfg.abLane n = false) ∧ s.dev.bd.cfg.outLane 3 = true ∧ (s.dev.bd.lane 3).cause = 8 ∧ (s.dev.bd.lane 3).stage ≠ 3) ∧
    (let s := lanes (.lanecmd 8 2 false) { stage := 1, cause := 9 }
     s.boardHas ({ body := .lanecmd 8 2 false } : Pkt) [] ∧ s.dev.bd.cfg.outLane 3 = true ∧ (s.dev.bd.lane 3).cause &&& 0x77 ≠ 0) :=
  ⟨⟨lanes_has _ _, by decide⟩, ⟨lanes_has _ _, by decide⟩, lanes_has _ _, lanes_has _ _, lanes_has _ _, ⟨lanes_has _ _, by decide⟩, lanes_has _ _, by decide⟩

theorem witness_LaneWriteApplies :
    (let s := lanes (.op wr3) {}
     s.boardHas ({ body := .op wr3 } : Pkt) [] ∧ wr3.kind = .wr ∧ wr3.addr.toNat = 0x50000 + 0x40 * 3 ∧ s.dev.bd.refuses = false ∧ s.dev.bd.parked = false ∧ (s.dev.bd.cfg.lane 3).mode = 2 ∧ wr3.value.toNat % 4 ≠ 3 ∧
       (s.dev.bd.cfg.lane 3).owners.getLsbD 1 = true ∧ s.dev.bd.safe 3 = false ∧ s.dev.bd.stuck = false ∧ (s.dev.bd.lane 3).wOpen = false) ∧
    (let s := lanes (.op wr3) { wOpen := true, wHolder := 0 }
     s.boardHas ({ body := .op wr3 } : Pkt) [] ∧ s.dev.bd.safe 3 = false ∧ s.dev.bd.stuck = false ∧ (s.dev.bd.lane 3).wOpen = true ∧ (s.dev.bd.lane 3).wHolder ≠ 1 ∧ (s.dev.bd.lane 3).wCode ≠ 1 ∧ (s.dev.bd.cfg.lane 3).policy = 0 ∧
       (s.dev.bd.lane 3).wRaised = false) ∧
    (let o : Op := { wr3 with req := { wr3.req with ten := 2 } }
     (lanes (.op o) {}).boardHas ({ body := .op o } : Pkt) [] ∧ ((lanes (.op o) {}).dev.bd.cfg.lane 3).owners.getLsbD 2 = false) ∧
    (lanes (.op wr3) { stage := 1 }).boardHas ({ body := .op wr3 } : Pkt) [] ∧ (lanes (.op wr3) { stage := 1 }).dev.bd.safe 3 = true :=
  ⟨⟨lanes_has _ _, by decide⟩, ⟨lanes_has _ _, by decide⟩, ⟨lanes_has _ _, by decide⟩, lanes_has _ _, by decide⟩

/-- A PIN entry of lane 4 at 1, for a replay. -/
def pin4 : Nat := packN [(0, 6, 0x11), (6, 5, 4), (12, 1, 1)]

theorem witness_BoardInputs :
    (let s := lanes .breset {}
     s.board ∧ (s.dev.bd.cfg.lane 4).mode = 1 ∧ (s.dev.bd.lane 4).pin = false) ∧
    (let s := lanes .breset {}
     s.board ∧ (s.dev.bd.cfg.lane 3).mode = 2 ∧ s.dev.bd.tabs = true ∧ (s.dev.bd.lane 3).stage = 0 ∧ (s.dev.bd.lane 3).code = 0 ∧ (s.dev.bd.lane 3).mism = false) ∧
    (let s := lanes .breset { code := 1 }
     s.board ∧ (s.dev.bd.lane 3).code = 1 ∧ (s.dev.bd.cfg.lane 3).od = false ∧ (s.dev.bd.lane 3).mism = false) ∧
    (let s : State := { unit with dev.bd.pstate := 0 }
     s.board ∧ s.dev.bd.pstate = 0) ∧ (unit.board ∧ unit.dev.bd.pstate ≠ 0) ∧
    (let s : State := { lanes (.replay [pin4]) {} with dev.log.lstate := 4 }
     s.dev.bd.runs = true ∧ s.dev.log.lstate = 4 ∧ s.dev.hpt.rx = [] ∧ s.dev.bd.inbox = [({ body := .replay [pin4] } : Pkt)] ∧ fld (nth [pin4] 0) 6 5 = 4 ∧ fld (nth [pin4] 0) 0 6 = 0x11 ∧
       tbit (nth [pin4] 0) 11 = false ∧ (s.dev.bd.cfg.lane 4).mode = 1 ∧ (s.dev.bd.lane 4).pin ≠ tbit (nth [pin4] 0) 12) :=
  ⟨⟨(lanes_has _ _).1, by decide⟩, ⟨(lanes_has _ _).1, by decide⟩, ⟨(lanes_has _ _).1, by decide⟩, ⟨⟨rfl, by decide⟩, rfl⟩, ⟨unit_board, by decide⟩, by decide⟩

theorem witness_PeriodicReports : unit.board ∧ unit.rack ∧ (2432#16).toNat ≤ 2432 ∧ (2560#16).toNat ≤ 2560 ∧ unit.dev.mon.aSlow = false ∧ unit.dev.bd.paceSlow = false ∧ 2560 < (2561#16).toNat ∧ unit.calm 0x0C dUnit :=
  ⟨unit_board, unit_rack, by decide, by decide, rfl, rfl, by decide, calm_of (e := false) rfl (by decide) (by decide)⟩

theorem witness_DirectChannels :
    (let s : State := { unit with dev.img.cfg.dirEn := 1 }
     s.rack ∧ s.dev.img.cfg.abChan 0 = true) ∧
    (let s : State := { unit with dev.bd.cfg.dirEn := 1, dev.bd.cfg.dirBA := 1 }
     s.board ∧ s.dev.img.cfg.abChan 0 = false ∧ s.dev.bd.cfg.baChan 0 = true) ∧
    (let s : Direct → State := fun d => { unit with dev.bd.cfg.dirEn := 1, dev.bd.direct := [(0, d)] }
     (s { fs := true }).board ∧ (s { fs := true, valid := 1 }).board ∧ (s { fs := false }).board ∧ (s { fs := true }).dev.img.cfg.baChan 0 = false ∧ (s { fs := true }).dev.bd.cfg.abLane 0 = true ∧ (s { fs := true }).dev.bd.tabs = true ∧
       (s { fs := true }).dev.flt.fatal = false ∧ (tget {} (s { fs := true, valid := 0 }).dev.bd.direct 0).valid = 0 ∧ (tget {} (s { fs := true, valid := 1 }).dev.bd.direct 0).valid = 1 ∧ (s { fs := true, valid := 1 }).dev.bd.stuck = false ∧
       (tget {} (s { fs := false }).dev.bd.direct 0).fs = false) ∧
    (let s : State := { unit with dev.bd.cfg.dirEn := 1, dev.bd.direct := [(0, { fs := true, valid := 1 })], dev.bd.stuck := true }
     s.board ∧ (tget {} s.dev.bd.direct 0).valid = 1 ∧ s.dev.bd.stuck = true) ∧
    (let s : Direct → State := fun d => { unit with dev.img.cfg.dirEn := 1, dev.img.cfg.dirBA := 1, dev.bar.direct := [(0, d)] }
     (s { fs := true, valid := 1 }).rack ∧ (s { fs := false }).rack ∧ (s { fs := false }).calm 0x36 dUnit ∧ (s {}).dev.img.cfg.baChan 0 = true ∧ (s {}).dev.bd.cfg.abLane 0 = false ∧
       (tget {} (s { fs := true, valid := 1 }).dev.bar.direct 0).valid = 1 ∧ (s {}).dev.rst.stuckHold = false ∧ (tget {} (s { fs := false }).dev.bar.direct 0).fs = false) :=
  ⟨⟨⟨rfl, by decide⟩, by decide⟩, ⟨⟨rfl, by decide⟩, by decide⟩, ⟨⟨rfl, by decide⟩, ⟨rfl, by decide⟩, ⟨rfl, by decide⟩, by decide⟩, ⟨⟨rfl, by decide⟩, by decide⟩,
    ⟨rfl, by decide⟩, ⟨rfl, by decide⟩, calm_of (e := false) rfl (by decide) (by decide), by decide⟩

theorem witness_BeaconsSeen :
    (unit.rack ∧ (0x00#8).toNat % 16 + (0x00#8).toNat / 16 ≠ 15 ∧ (0xC3#8).toNat % 16 + (0xC3#8).toNat / 16 = 15) ∧
    (let s : Bool → State := fun o => { unit with dev.bar := { unit.dev.bar with beaconIn := true, ordered := o } }
     (s true).rack ∧ (s false).rack ∧ (s false).calm 0x32 dUnit ∧ (s true).dev.bar.beaconIn = true ∧ (s true).dev.bar.holdSeen = none ∧ (s true).dev.boardTkts = [] ∧ (s true).dev.tens.any (fun t => t.rst.isSome) = false ∧
       (s true).dev.img.phase ≠ 2 ∧ (s true).dev.idn.astate ≠ 1 ∧ (s true).dev.idn.wbState ≠ 2 ∧ (s true).dev.bar.ordered = true ∧ (s false).dev.bar.ordered = false) ∧
    (let s : Bool → Nat → State := fun w p => { unit with dev.bar := { unit.dev.bar with beaconIn := false }, dev.img.woven := w, dev.bd.pstate := p }
     (s true 0).rack ∧ (s true 2).rack ∧ (s false 0).rack ∧ (s true 0).dev.bar.beaconIn = false ∧ (s false 0).dev.img.woven = false ∧ (s true 0).dev.img.woven = true ∧ (s true 0).dev.bd.pstate = 0 ∧ (s true 2).dev.bd.pstate ≠ 0) ∧
    (unit.dev.log.lstate ≠ 4 ∧ unit.dev.bd.rackAlive = true) ∧
    (let s : Bool → State := fun c => { unit with dev.bd := { unit.dev.bd with rackAlive := false, core := c } }
     (s true).dev.bd.rackAlive = false ∧ (s false).dev.bd.runs = false ∧ (s true).dev.bd.runs = true ∧ ∀ e ∈ (s true).dev.pool.tkts, e.2.st ≠ .quarantined) :=
  ⟨⟨unit_rack, by decide⟩, ⟨⟨rfl, by decide⟩, ⟨rfl, by decide⟩, calm_of (e := false) rfl (by decide) (by decide), by decide⟩, ⟨⟨rfl, by decide⟩, ⟨rfl, by decide⟩, ⟨rfl, by decide⟩, by decide⟩, by decide, by decide⟩

theorem witness_LaneWritesAndDebug :
    (unit.rack ∧ unit.writer 4 ∧ unit.calm 0x3E dUnit ∧ 49 < 50 ∧ 50 ≤ 300 ∧ 300 < 301 ∧ unit.dev.bar.bAlive = true ∧ (∀ n < 32, (8 : BitVec 32).getLsbD n = true → (tget ({} : LaneView) unit.dev.bar.views n).stage = 0) ∧ (1 : Ten) ≠ 4 ∧
      unit.dev.fus.dbgOpen = false ∧ ∀ p ∈ unit.dev.bd.inbox.head?, ∀ w a x, p.body ≠ .debug w a x) ∧
    (let s : State := { unit with dev.bar.views := [(3, { cause := 1, stage := 1 })] }
     s.rack ∧ s.writer 4 ∧ (tget ({} : LaneView) s.dev.bar.views 3).stage ≠ 0 ∧ (tget ({} : LaneView) s.dev.bar.views 3).cause &&& 0x5F ≠ 0) ∧
    (let s : State := { unit with dev.bar.bAlive := false }
     s.rack ∧ s.writer 4 ∧ s.dev.bar.bAlive = false) ∧
    (let s : State := { unit with dev.fus.dbgOpen := true }
     s.rack ∧ s.dev.fus.dbgOpen = true ∧ isBoardAddr 0x50000 = true ∧ s.dev.bar.bAlive = true ∧ s.dev.arb.dbg = none) ∧
    (taking (.debug false (BitVec.ofNat 32 (0x50000 + 0x40 * 31)) 0)).boardHas ({ body := .debug false (BitVec.ofNat 32 (0x50000 + 0x40 * 31)) 0 } : Pkt) [] :=
  ⟨⟨unit_rack, ⟨rfl, rfl⟩, calm_of (e := false) rfl (by decide) (by decide), by decide, by decide, by decide, rfl, by decide, by decide, rfl, fun p h => by cases h⟩, ⟨⟨rfl, by decide⟩, ⟨rfl, rfl⟩, by decide⟩,
    ⟨⟨rfl, by decide⟩, ⟨rfl, rfl⟩, rfl⟩, ⟨⟨rfl, by decide⟩, by decide⟩, taking_has _⟩

/-! ## Hypotheses that are met: engines -/

/-- The unit with engine 0 as given. -/
def engine (c : EngCfg) (g : Eng) : State := { unit with dev.bd := { unit.dev.bd with cfg := { engs := [c] }, engs := [(0, g)] } }

theorem engine_board (c : EngCfg) (g : Eng) : (engine c g).board := ⟨rfl, by show (0 : Nat) < 4; decide⟩

/-- A transfer of `n` bytes of T1 to engine 0 at a step. -/
def move (kind : OpKind) (step n : Nat) (data : List Byte) : EngOp :=
  { tkt := 0, ic := 1, op := { wr3 with kind := kind, addr := 0x60000, dlen := n }, dlen := n, data := data, step := step }

def busyWith (o : EngOp) : Eng := { st := 1, ops := [o] }

theorem engine_busy (c : EngCfg) (o : EngOp) : (engine c (busyWith o)).dev.bd.busy 0 o [] := ⟨rfl, rfl⟩

theorem witness_EngineSteps : (∀ c o, (engine c (busyWith o)).board ∧ (engine c (busyWith o)).dev.bd.busy 0 o []) ∧
    ((engine { mode := 1 } (busyWith (move .etx 1 1 [7]))).dev.bd.ecfg 0).mode = 1 ∧ (move .etx 1 1 [7]).op.kind ≠ .erx ∧ (move .etx 1 1 [7]).data = [7] ∧
    (let c : EngCfg := { mode := 1, tim1 := 0x4 }
     ((engine c (busyWith (move .etx 2 1 []))).dev.bd.ecfg 0).t1 2 2 = 1 ∧ ((engine c (busyWith (move .etx 2 1 []))).dev.bd.eng 0).ackOn = false) ∧
    ((engine { mode := 1 } (busyWith (move .etx 2 1 []))).dev.bd.ecfg 0).t1 2 2 ≠ 1 ∧
    (let o := move .etx 2 2 [7, 8]
     let s := engine { mode := 3 } (busyWith o)
     (s.dev.bd.ecfg 0).mode = 3 ∧ (s.dev.bd.eng 0).ctsOn = true ∧ (s.dev.bd.ecfg 0).charBytes ≤ o.data.length ∧ o.moved + (s.dev.bd.ecfg 0).charBytes < o.dlen) ∧
    (let o := move .etx 2 2 []
     ((engine { mode := 3 } { busyWith o with ctsOn := false }).dev.bd.eng 0).ctsOn = false) ∧
    (let o := move .etx 2 1 [7]
     let s := engine { mode := 4 } (busyWith o)
     (s.dev.bd.ecfg 0).mode = 4 ∧ (s.dev.bd.ecfg 0).slave = false ∧ o.data = [7] ∧ (s.dev.bd.ecfg 0).t0 14 1 = 0 ∧ o.dlen ≤ o.moved + 1) ∧
    ((engine { mode := 2 } (busyWith (move .wr 2 4 []))).dev.bd.ecfg 0).mode = 2 ∧ ((engine { mode := 2 } (busyWith (move .wr 2 4 []))).dev.bd.eng 0).opsRx = [] ∧
    ((engine { mode := 6 } (busyWith (move .etx 5 1 []))).dev.bd.ecfg 0).mode = 6 ∧ (move .etx 5 1 []).step = 5 :=
  ⟨fun c o => ⟨engine_board _ _, engine_busy _ _⟩, by decide⟩

theorem witness_EngineEdges : (∀ c g, (engine c g).board) ∧
    (let s := engine { mode := 1 } { st := 0 }
     (s.dev.bd.ecfg 0).mode = 1 ∧ (s.dev.bd.eng 0).ops = []) ∧
    ((engine { mode := 1 } (busyWith (move .etx 3 1 []))).dev.bd.busy 0 (move .etx 3 1 []) [] ∧ (move .etx 3 1 []).op.kind ≠ .erx) ∧
    (let s := engine { mode := 3, roles := 0x24000000 } { st := 0 }
     (s.dev.bd.ecfg 0).mode = 3 ∧ ((s.dev.bd.ecfg 0).role 3).isSome = true ∧ (s.dev.bd.eng 0).dirOn = false ∧ (s.dev.bd.ecfg 0).charBytes = 1 ∧ (s.dev.bd.eng 0).rx.length < 256 ∧ (s.dev.bd.eng 0).ops = [] ∧ (s.dev.bd.eng 0).opsRx = []) ∧
    (let s := engine { mode := 3 } { st := 1, dirOn := true }
     (s.dev.bd.eng 0).dirOn = true ∧ (s.dev.bd.ecfg 0).t1 9 1 = 0) ∧
    (let s := engine { mode := 3, tim1 := 0x200 } { st := 1, dirOn := true }
     (s.dev.bd.ecfg 0).t1 9 1 = 1) ∧
    (let s := engine { mode := 4, tim0 := 0x1000 } { st := 0 }
     (s.dev.bd.ecfg 0).mode = 4 ∧ (s.dev.bd.ecfg 0).slave = true ∧ (s.dev.bd.eng 0).ops = []) ∧
    (let o := move .etx 1 1 [7]
     let s := engine { mode := 6 } (busyWith o)
     s.dev.bd.busy 0 o [] ∧ (s.dev.bd.ecfg 0).mode = 6 ∧ o.step = 1 ∧ o.nsub = 0 ∧ o.dlen ≠ 0) ∧
    (let o := move .erx 4 1 []
     (engine { mode := 6 } (busyWith o)).dev.bd.busy 0 o [] ∧ o.step = 4 ∧ o.op.kind = .erx ∧ o.step ≠ 0 ∧ o.step ≠ 6) :=
  ⟨engine_board, by decide, ⟨engine_busy _ _, by decide⟩, by decide, by decide, by decide, by decide, ⟨engine_busy _ _, by decide⟩, engine_busy _ _, by decide⟩

theorem witness_EngineStops : (∀ c g, (engine c g).board) ∧ (∀ c o, (engine c (busyWith o)).dev.bd.busy 0 o []) ∧
    (let o := move .etx 2 1 [7]
     let s := engine { mode := 6 } (busyWith o)
     (s.dev.bd.ecfg 0).mode = 6 ∧ (s.dev.bd.eng 0).opsRx = [] ∧ o.step ≠ 0 ∧ s.dev.bd.pstate ≠ 0 ∧ s.dev.bd.tabs = true ∧ ¬ (s.dev.bd.cfg.nmiss ≤ s.dev.bd.miss ∨ ∃ n ∈ (s.dev.bd.ecfg 0).outLanes, (s.dev.bd.lane n).cause &&& 1 ≠ 0) ∧
       ¬ (∃ n ∈ (s.dev.bd.ecfg 0).outLanes, (s.dev.bd.lane n).cause &&& 0x38 ≠ 0) ∧ ¬ (∃ n ∈ (s.dev.bd.ecfg 0).lanes, s.dev.bd.bankUp n = false)) ∧
    (let s : Nat → BitVec 7 → State := fun st c => { engine { mode := 2, gbase := 8, gcount := 1 } { st := st } with dev.bd.lanes := [(8, ({ cause := c, stage := 1 } : Lane))] }
     (s 0 1).board ∧ (s 2 1).board ∧ (s 0 1).dev.bd.eng 0 = { st := 0 } ∧ (s 2 1).dev.bd.eng 0 = { st := 2 } ∧ ((s 0 1).dev.bd.ecfg 0).mode = 2 ∧ (∃ n ∈ ((s 0 1).dev.bd.ecfg 0).outLanes, ((s 0 1).dev.bd.lane n).cause &&& 1 ≠ 0) ∧
       (∃ n ∈ ((s 0 0x20).dev.bd.ecfg 0).outLanes, ((s 0 0x20).dev.bd.lane n).cause &&& 0x38 ≠ 0)) ∧
    (let s : Bool → Nat → State := fun t p => { engine { mode := 2, gbase := 8, gcount := 1 } { st := 0 } with dev.bd.tabs := t, dev.bd.pstate := p }
     (s false 2).board ∧ (s true 0).board ∧ (s false 2).dev.bd.tabs = false ∧ (s true 0).dev.bd.pstate = 0) ∧
    (let o := move .erx 2 8 []
     let s : State := { engine { mode := 2, gbase := 8, gcount := 1, owner := 1 } (busyWith o) with dev.bd.lanes := [(8, ({ cause := 1, stage := 1 } : Lane))], dev.bd.up := 0xD }
     s.board ∧ s.dev.bd.busy 0 o [] ∧ (∃ n ∈ (s.dev.bd.ecfg 0).outLanes, (s.dev.bd.lane n).cause &&& 1 ≠ 0) ∧ (s.dev.bd.ecfg 0).lanes.find? (fun n => !s.dev.bd.bankUp n) = some 8 ∧ o.op.req.ten.val = (s.dev.bd.ecfg 0).owner) ∧
    (let s := engine { mode := 5, gbase := 8, gcount := 1 } { st := 2 }
     s.board ∧ (s.dev.bd.ecfg 0).mode = 5 ∧ (s.dev.bd.eng 0).st = 2 ∧ s.dev.bd.tabs = true ∧ s.dev.bd.pstate ≠ 0 ∧ ¬ (∃ n ∈ (s.dev.bd.ecfg 0).lanes, s.dev.bd.bankUp n = false) ∧ s.dev.bd.miss < s.dev.bd.cfg.nmiss ∧
       ∀ n ∈ (s.dev.bd.ecfg 0).outLanes, (s.dev.bd.lane n).stage = 0) :=
  ⟨engine_board, fun c o => engine_busy c o, by decide, ⟨⟨rfl, by decide⟩, ⟨rfl, by decide⟩, by decide⟩, ⟨⟨rfl, by decide⟩, ⟨rfl, by decide⟩, by decide⟩, ⟨⟨rfl, by decide⟩, ⟨rfl, rfl⟩, by decide⟩, engine_board _ _, by decide⟩

theorem witness_EngineRecords : (∀ c g, (engine c g).board) ∧
    (let s := engine { mode := 2, gcount := 1 } { st := 0, filt := [(false, 0)] }
     (s.dev.bd.ecfg 0).mode = 2 ∧ (s.dev.bd.ecfg 0).gcount = 1 ∧ (s.dev.bd.eng 0).filt = [(false, 0)] ∧ (s.dev.bd.eng 0).ops = [] ∧ (s.dev.bd.eng 0).opsRx = [] ∧ (0 : Byte).getLsbD 0 = false ∧ (1 : Byte).getLsbD 0 ≠ false ∧
       (s.dev.bd.ecfg 0).t0 16 2 + 1 ≤ 0 + 1 ∧ (s.dev.bd.eng 0).rx.length + 8 ≤ 256) ∧
    (let s := engine { mode := 2, gcount := 1, tim0 := 0x30000 } { st := 0, filt := [(false, 2)] }
     (s.dev.bd.eng 0).filt = [(false, 2)] ∧ 2 + 1 < (s.dev.bd.ecfg 0).t0 16 2 + 1) ∧
    (let s := engine { mode := 5, gcount := 2, tim0 := 0x40 } { st := 0 }
     (s.dev.bd.ecfg 0).mode = 5 ∧ (1 : Fin 4).val < (s.dev.bd.ecfg 0).gcount ∧ tbit ((s.dev.bd.ecfg 0).t0 0 4) 1 = false ∧ tbit ((s.dev.bd.ecfg 0).t0 (4 + 2 * 1) 2) 0 = true ∧ tbit ((s.dev.bd.ecfg 0).t0 (4 + 2 * 1) 2) 1 = false) ∧
    (let o := move .etx 2 16 (le 8 (packN [(0, 56, 5), (59, 1, 1)]) ++ le 8 0)
     let s := engine { mode := 5, gcount := 1, tim0 := 1 } (busyWith o)
     let r := leN (o.data.take 8)
     (s.dev.bd.ecfg 0).mode = 5 ∧ s.dev.bd.eng 0 = busyWith o ∧ o.op.kind ≠ .erx ∧ 8 ≤ o.data.length ∧ o.lastTime ≤ fld r 0 56 ∧ s.dev.bd.timer ≤ fld r 0 56 ∧ o.moved + 8 < o.dlen ∧ tbit ((s.dev.bd.ecfg 0).t0 0 4) (fld r 56 3) = true ∧
       (s.dev.bd.lane ((s.dev.bd.ecfg 0).gbase + fld r 56 3)).stage = 0) ∧
    (let o : EngOp := { move .etx 2 8 (le 8 5) with lastTime := 6 }
     8 ≤ o.data.length ∧ fld (leN (o.data.take 8)) 0 56 < o.lastTime) :=
  ⟨engine_board, by decide +kernel⟩

/-! ## Hypotheses that are met: operations -/

def asked (g : Fin 4) : Req := { ten := 4, gen := g, queue := 2, tag := 3, quiet := true, route := shortRoute }

/-- A unit with a small pool and a selection under way. -/
def pooled : State := { State.reset with
  dev.pool := { State.reset.dev.pool with tktFree := List.range 40, bufFree := List.range 80 }
  dev.arb.sel := some 0
  dev.img.cfg.tens := [{}, {}, {}, {}, { streams := [({} : StreamCfg)] }] }

theorem fits_of {s : State} {o : Op} (h : o.req.gen ≠ 0 ∧ (s.dev.img.woven = true → o.req.gen.val = (s.dev.ten o.req.ten.val).gen) ∧ (o.req.route.urg = true → o.req.queue = 0) ∧
    (o.req.gen = 2 → o.gen2Fault = none) ∧ (o.req.gen = 3 → (s.dev.img.cfg.ten o.req.ten.val).streams ≠ []) ∧ s.dev.barred o.req.ten.val = false ∧ o.addressed = true ∧ o.isReset = false ∧ s.dev.tktTest o.req.ten.val 1 = .ok) :
    s.fits o := h

theorem witness_RequestsQueue : pooled.rack ∧ pooled.contended ∧
    pooled.fits { kind := .rd, req := { asked 1 with gen := 1, queue := 2 }, addr := 0x20000 } ∧ pooled.fits { kind := .wr, req := { asked 1 with gen := 1, queue := 2 }, addr := 0x4000, value := 1 } ∧
    pooled.fits { kind := .rd, req := asked 2, addr := 0x50000 } ∧ pooled.fits { kind := .wr, req := asked 3, addr := 0x50000, value := 1 } ∧ pooled.fits { kind := .rmw, req := asked 2, addr := 0x4000, value := 1, mask := 1 } ∧
    pooled.fits { kind := .set, req := asked 3, addr := 0x4000, value := 1 } ∧ pooled.fits { kind := .clr, req := asked 3, addr := 0x4000, value := 1 } ∧ pooled.fits { kind := .free, req := asked 2, buf := 4095, value := 64 } ∧
    pooled.fits { kind := .fence, req := asked 2 } ∧ pooled.fits (pooled.portOp 4 .wr (0x60018 + 0x400 * 7) 5) ∧ pooled.fits (pooled.portOp 4 .rd (0x6001C + 0x400 * 7) 0) ∧ pooled.fits (pooled.portOp 4 .wr (0x60020 + 0x400 * 7) 5) ∧
    pooled.fits (pooled.portOp 4 .wr (0x60024 + 0x400 * 7) 1) ∧ pooled.fits (pooled.portOp 4 .wr 0x50000 1) ∧ isBoardAddr 0x50000 = true :=
  ⟨⟨rfl, by decide⟩, .inl (by decide), fits_of (by decide), fits_of (by decide), fits_of (by decide), fits_of (by decide), fits_of (by decide), fits_of (by decide), fits_of (by decide), fits_of (by decide), fits_of (by decide),
    fits_of (by decide), fits_of (by decide), fits_of (by decide), fits_of (by decide), fits_of (by decide), by decide⟩

theorem witness_BlocksQueue : pooled.rack ∧ pooled.contended ∧ pooled.Inv ∧
    pooled.fits { kind := .rdblk, req := asked 2, addr := 0x20000, dlen := 68 } ∧ pooled.fits { kind := .erx, req := asked 2, addr := 0x60000, dlen := 1, tmo := 0, value := 0, mask := 0 } ∧
    pooled.fits { kind := .wrblk, req := asked 2, addr := 0x50000, dlen := 4, inlineB := true, inl := [1, 2, 3, 4] } ∧ pooled.fits { kind := .etx, req := asked 2, addr := 0x60000, dlen := 1, tmo := 0, value := 0, mask := 0, inlineB := true, inl := [1] } ∧
    pooled.dev.bufTest 4 (bufsFor 68) = .ok ∧ (pooled.dev.pool.bufFree.take (bufsFor 68)).Nodup ∧
    (let s : State := { pooled with dev.pool.bufs := [(90, { owned := true, ten := 4, last := true })] }
     s.rack ∧ s.contended ∧ s.Inv ∧ s.fits { kind := .wrblk, req := asked 2, addr := 0x50000, dlen := 4, buf := 90 } ∧ s.fits { kind := .etx, req := asked 2, addr := 0x60000, dlen := 1, tmo := 0, value := 0, mask := 0, buf := 90 } ∧
       s.dev.pool.dataList 4 (bufsFor 4) 90 [] = .ok [90]) :=
  ⟨⟨rfl, by decide⟩, .inl (by decide), by decide, fits_of (by decide), fits_of (by decide), fits_of (by decide), fits_of (by decide), by decide, by decide,
    ⟨rfl, by decide⟩, .inl (by decide), by decide, fits_of (by decide), fits_of (by decide), by decide⟩

theorem witness_FenceAndShort :
    (let k : Ticket := { st := .issued, ten := 4, queue := 2, icount := 1, op := some { kind := .fence, req := asked 2 } }
     let s : State := { State.reset with dev.pool := { State.reset.dev.pool with tkts := [(0, k)] } }
     s.rack ∧ s.dev.pool.tkts = [(0, k)] ∧ k.st = .issued ∧ k.ten = (4 : Ten).val ∧ k.pins = [] ∧ (asked 2).gen = 2 ∧ (asked 2).quiet = true) ∧
    (State.reset.rack ∧ ∀ e ∈ State.reset.dev.pool.tkts, e.2.st ≠ .issued) ∧
    (let s : State := { State.reset with dev.rst.held := true }
     s.dev.awake = false ∧ s.dev.log.lstate ≠ 4) ∧
    (let s : State := { pooled with dev.pins.hostsel := 1 }
     let b : List Byte := [0x21, 0x00, 0x40, 0x00, 0x01, 0x00, 0x00, 0x00]
     let bytes := b ++ [BitVec.ofNat 8 (crc8 b)]
     s.rack ∧ s.contended ∧ s.dev.shortGen = 1 ∧ s.dev.hpt.rx.length < 2 ∧ s.dev.admits s.dev.shortTen = true ∧ (4 : Ten).val = s.dev.shortTen ∧ bytes.length = 9 ∧ gen1Fault bytes = none ∧ s.fits (gen1Op bytes shortRoute 4)) :=
  ⟨⟨⟨rfl, by decide⟩, by decide⟩, ⟨⟨rfl, by decide⟩, by decide⟩, by decide, ⟨rfl, by decide⟩, .inl (by decide), by decide +kernel, by decide +kernel, by decide +kernel, by decide +kernel, by decide +kernel, by decide +kernel, fits_of (by decide +kernel)⟩

/-! ## Hypotheses that are met: supplies, modes and resets -/

theorem witness_BrownNotices :
    (State.reset.awake ∧ State.reset.dev.sup.notice = false ∧ (true || false) = true) ∧
    (let s : State := { State.reset with dev.sup.notice := true, dev.sup.aBrown := true }
     s.awake ∧ s.calm 0x00 dUnit ∧ s.dev.sup.notice = true ∧ s.dev.sup.aBrown = true ∧ s.dev.sup.raisedA = false ∧ s.dev.sup.bBrown = false) ∧
    (let s : State := { State.reset with dev.sup.notice := true, dev.sup.aBrown := true, dev.sup.raisedA := true, dev.sup.raisedB := true }
     s.awake ∧ s.dev.sup.raisedA = true ∧ (s.dev.sup.bBrown = true → s.dev.sup.raisedB = true) ∧ s.dev.sup.raisedB = true ∧ s.dev.sup.defer = [] ∧ s.dev.sto = {} ∧ s.dev.flt.evq = [] ∧ s.dev.log.gapLines = 0 ∧ (1 : Nat) ≠ 0) :=
  ⟨⟨⟨rfl, by decide⟩, by decide⟩, ⟨⟨rfl, by decide⟩, calm_of (e := false) rfl (by decide) (by decide), by decide⟩, ⟨rfl, by decide⟩, by decide⟩

theorem witness_BankEvents :
    (let s := lanes .breset {}
     s.board ∧ s.dev.bd.vddb = true ∧ s.dev.bd.up.getLsbD 0 = true ∧ (∀ e < 8, ∀ n ∈ (s.dev.bd.ecfg e).lanes, n / 8 ≠ 0) ∧ s.dev.bd.cfg.outLane 3 = true ∧ 3 / 8 = 0 ∧ fld s.dev.sup.banknom.toNat 0 4 = 0) ∧
    (let s : State := { lanes .breset { stage := 3, cause := 2 } with dev.bd.up := 0xE }
     s.board ∧ s.dev.bd.up.getLsbD 0 = false ∧ s.dev.bd.cfg.outLane 3 = true ∧ (s.dev.bd.lane 3).stage = 3) ∧
    (let s : State := { unit with dev.sup.banknom := 0x1000 }
     s.board ∧ s.dev.bd.vddb = true ∧ s.dev.bd.low.getLsbD 3 = false ∧ fld s.dev.sup.banknom.toNat (4 * 3) 4 ≠ 0) :=
  ⟨⟨(lanes_has _ _).1, by decide⟩, ⟨⟨rfl, by decide⟩, by decide⟩, ⟨rfl, by decide⟩, by decide⟩

theorem witness_BoardSupply :
    (unit.dev.log.lstate ≠ 4 ∧ unit.dev.bd.core = true ∧ unit.dev.bd.vddb = true ∧ unit.dev.sup.notice = false) ∧
    (let s : State := { unit with dev.bd := { unit.dev.bd with vddb := false, holdup := true } }
     s.dev.log.lstate ≠ 4 ∧ s.dev.bd.vddb = false ∧ s.dev.bd.holdup = true) ∧
    (off.dev.bd.core = false ∧ off.dev.sup.mode ≠ 2 ∧ ∀ e ∈ off.dev.pool.tkts, e.2.st ≠ .quarantined) := by decide

theorem witness_ModeCommands :
    (unit.rack ∧ unit.writer 4 ∧ (0 : Ten) ≠ 4 ∧ unit.dev.sup.mode = 0 ∧ unit.dev.sup.mode ≠ 1 ∧ unit.dev.boardTkts = [] ∧ ¬ (∃ e < 8, (unit.dev.bd.eng e).st = 1) ∧ unit.dev.bar.lamp = true ∧ unit.dev.bar.bAlive = true ∧ unit.dev.img.woven = true ∧
      unit.dev.pai.role ≠ 3 ∧ unit.dev.ring.up.st ≠ 4 ∧ unit.dev.ring.dn.st ≠ 4 ∧ unit.dev.tens.any (fun t => t.rst.isSome) = false ∧ unit.dev.img.phase ≠ 2 ∧ unit.dev.idn.astate ≠ 1 ∧ unit.dev.idn.wbState ≠ 2) ∧
    (State.reset.rack ∧ State.reset.writer 4 ∧ State.reset.dev.boardTkts = [] ∧ State.reset.dev.img.woven = false) ∧
    (let s : State := { unit with dev.sup.mode := 1 }
     s.rack ∧ s.writer 4 ∧ s.dev.sup.mode = 1 ∧ s.dev.bar.lamp = true ∧ s.dev.bar.bAlive = true ∧ s.dev.img.woven = true) ∧
    (let s : State := { State.reset with dev.sup.mode := 1 }
     s.rack ∧ s.writer 4 ∧ s.dev.sup.mode = 1 ∧ s.dev.img.woven = false) ∧
    (let s := answered none
     s.rack ∧ s.writer 4 ∧ s.dev.boardTkts ≠ []) ∧
    (let s : State := { State.reset with dev.sup.mode := 2, dev.bd := { State.reset.dev.bd with core := false }, dev.ring := {} }
     s.awake ∧ s.dev.sup.mode = 2 ∧ s.dev.img.woven = false ∧ s.dev.tim.dormLocked = false ∧ s.dev.bd.vddb = true ∧ s.dev.rst.held = false ∧ s.dev.log.lstate < 4 ∧ (∀ e ∈ s.dev.pool.tkts, e.2.st ≠ .quarantined) ∧ s.dev.ring.up.en = true ∧
       s.dev.ring.dn.en = true) ∧
    (5 ≤ ({ State.reset with dev.fus.inst := 0x10 } : State).dev.fus.inst) :=
  ⟨⟨unit_rack, ⟨rfl, rfl⟩, by decide⟩, ⟨⟨rfl, by decide⟩, ⟨rfl, rfl⟩, by decide⟩, ⟨⟨rfl, by decide⟩, ⟨rfl, rfl⟩, by decide⟩, ⟨⟨rfl, by decide⟩, ⟨rfl, rfl⟩, by decide⟩, ⟨⟨rfl, by decide⟩, ⟨rfl, rfl⟩, by decide⟩,
    ⟨⟨rfl, by decide⟩, by decide⟩, by decide⟩

theorem witness_ResetCommands :
    (unit.rack ∧ (3 : Ten) ≠ 4 ∧ (0 : BitVec 16) ≠ 0xC3A5 ∧ unit.dev.barred 4 = false ∧ unit.dev.flt.stopped dUnit = false ∧ unit.dev.rst.stuckHold = false ∧ unit.dev.bar.bAlive = true) ∧
    (let s : State := { unit with dev.rst.stuckHold := true }
     s.rack ∧ s.dev.barred 4 = false ∧ s.dev.flt.stopped dUnit = false ∧ s.dev.rst.stuckHold = true ∧ s.dev.bar.bAlive = true ∧ ∀ ch < 8, s.dev.img.cfg.baChan ch = false) ∧
    (let s : State := { unit with dev.bar.bAlive := false }
     s.rack ∧ s.calm 0x0E dUnit ∧ s.dev.bar.bAlive = false ∧ s.dev.rst.bnr = false ∧ s.dev.img.woven = true) ∧
    (let s : State := { unit with dev.rst.sup := 2, dev.pins.rstn := true }
     s.dev.log.lstate ≠ 4 ∧ s.dev.rst.sup = 2 ∧ s.dev.pins.rstn = true) ∧ unit.dev.rst.sup ≠ 2 :=
  ⟨⟨unit_rack, by decide⟩, ⟨⟨rfl, by decide⟩, by decide⟩, ⟨⟨rfl, by decide⟩, calm_of (e := false) rfl (by decide) (by decide), by decide⟩, by decide, by decide⟩

/-- What a start finds: RSTn high, the board die up, no lane failed. -/
def pins0 : StartPins := { headLow := false, hostsel := 2, rstHigh := true, boardUp := true, prsLow := true, lanes := 0, vb := 0xF, failMask := 0 }

theorem witness_HardResetAndStart :
    (unit.dev.rst.vdda = true ∧ unit.dev.rst.sup = 0 ∧ unit.dev.bd.core = true ∧ unit.dev.sto = {} ∧ unit.dev.log.lstate ≠ 4) ∧ ({ unit with dev.rst.sup := 2 } : State).dev.rst.sup ≠ 0 ∧
    (State.reset.dev.sto = {} ∧ (load State.reset).bankRec 0 = none ∧ (load State.reset).bankRec 1 = none ∧ lcsOf (tget 0 State.reset.fuses 0).toNat = some 1 ∧ pins0.failMask = 0 ∧ pins0.rstHigh = true) ∧
    (let s : State := { State.reset with dev := { rst := { sup := 1, held := true }, pins := { rstn := false } } }
     s.dev.sto = {} ∧ (load s).bankRec 0 = none ∧ (load s).bankRec 1 = none ∧ s.dev.rst.vdda = true ∧ s.dev.rst.sup = 1 ∧ s.dev.flt = {} ∧ s.dev.ring = {} ∧ s.dev.sup = {} ∧ s.dev.fus.tstuck ≠ 0) := by
  decide +kernel

theorem witness_HardResetAndStart_pool : ({ State.reset with dev := { rst := { sup := 1, held := true } } } : State).dev.pool = {} := rfl

/-- T1 with `wr3` ISSUED at the board die, and T1 under reset. -/
def resetting : State := { answered none with dev.tens := [{}, { tktUse := 1, rst := some { await := [(0, 1)], op := none } }, {}, {}, {}] }

theorem witness_TenantResets :
    (unit.rack ∧ (2 : Ten) ≠ 4 ∧ (2 : Ten) ≠ 1 ∧ (0 : BitVec 16) ≠ 0x7E4E ∧ (unit.dev.ten 1).rst = none) ∧
    (let s := answered none
     let k := s.dev.pool.tkt 0
     s.rack ∧ s.dev.barred (1 : Ten) = false ∧ s.dev.flt.fatal = false ∧ s.dev.tens.length = 5 ∧ (s.dev.ten 1).rst = none ∧ (s.dev.ten 1).queues = [[], [], [], []] ∧ s.dev.tqaPick = none ∧ s.dev.uncrossed 1 = [] ∧
       s.dev.tktsOf 1 .issued = [(0, k)] ∧ k.board = true ∧ (∀ e ∈ s.dev.pool.bufs, e.2.owned = true → e.2.ten ≠ 1) ∧ s.dev.bar.bAlive = true) ∧
    ({ answered none with dev.img.cfg.arb.cap := [16, 16, 16, 16, 16] } : State).dev.arb.capLeft ({ answered none with dev.img.cfg.arb.cap := [16, 16, 16, 16, 16] } : State).dev.img.cfg 1 = true ∧
    (resetting.rack ∧ resetting.calm 0x0F dUnit ∧ resetting.dev.tens.length = 5 ∧ (resetting.dev.ten 1).rst = some { await := [(0, (resetting.dev.pool.tkt 0).icount)], op := none } ∧ (resetting.dev.pool.tkt 0).st = .issued ∧
      (resetting.dev.pool.tkt 0).ten = 1 ∧ resetting.dev.img.phase ≠ 2) :=
  ⟨⟨unit_rack, by decide⟩, ⟨⟨rfl, by decide⟩, by decide⟩, by decide, ⟨rfl, by decide⟩, calm_of (e := false) rfl (by decide) (by decide), by decide⟩

theorem witness_SoftResets :
    (let s : State := { unit with dev.sup.notice := true }
     s.rack ∧ s.dev.barred 4 = false ∧ s.dev.flt.stopped dUnit = false ∧ s.dev.rst.softWait = none ∧ s.dev.sup.notice = true) ∧
    (let s : State := { unit with dev.fus.inst := 0x10 }
     s.rack ∧ s.dev.rst.softWait = none ∧ s.dev.sup.notice = false ∧ s.dev.sto = {} ∧ (load s).bankRec 0 = none ∧ (load s).bankRec 1 = none ∧ s.dev.fus.lcs ≠ 3 ∧ s.dev.pai.role ≠ 3 ∧ s.dev.bd.runs = true ∧ s.dev.flt.stopped dUnit = false ∧
       (s.dev.fus.inst ≠ 0 ∧ s.dev.fus.inst ≠ 3 ∧ s.dev.fus.inst ≠ 4) ∧ s.dev.rst.held = false ∧ s.dev.idn.astate ≠ 1 ∧ s.dev.idn.wbState ≠ 2 ∧ s.dev.ring.up.en = true ∧ s.dev.ring.dn.en = true) ∧
    (let s : State := { unit with dev.rst.softWait := some 4 }
     s.rack ∧ s.dev.rst.softWait = some 4 ∧ 4 ≠ 256 ∧ s.dev.sup.notice = false) :=
  ⟨⟨⟨rfl, by decide⟩, by decide⟩, ⟨⟨rfl, by decide⟩, by decide +kernel⟩, ⟨rfl, by decide⟩, by decide⟩

/-! ## Hypotheses that are met: the TAP, faults and time -/

/-- A port at rest as the instruction `op` leaves it. -/
theorem rests {s : State} {op : Nat} (h : ((W.portsOn (load { s with dev.fus.inst := op }) && s.dev.ring.up.en) = (s.dev.ring.up.st != 0)) ∧
    ((W.portsOn (load { s with dev.fus.inst := op }) && s.dev.ring.dn.en) = (s.dev.ring.dn.st != 0))) : s.portsRest op
  | .up => h.1
  | .dn => h.2

/-- A unit in FIELD, and one in RETURN. -/
def fielded : State := { unit with dev.fus.lcs := 2, dev.fus.prot := 0 }
def returned : State := { unit with dev.fus.lcs := 3 }
/-- A unit whose ring ports are OFF. -/
def portless : State := { unit with dev.ring := {} }

theorem witness_TapCommands :
    (portless.awake ∧ portless.dev.fus.lcs ≠ 2 ∧ portless.portsRest 0x00 ∧ portless.portsRest 0x03 ∧ portless.portsRest 0x04) ∧
    (fielded.awake ∧ (fielded.dev.fus.lcs = 2 ∧ fielded.dev.fus.prot.getLsbD 1 = false) ∧ fielded.portsRest 0x3F ∧ fielded.dev.fus.dbgOpen = false ∧ fielded.dev.fus.prot.getLsbD 2 = false) ∧
    (unit.awake ∧ unit.portsRest 0x01 ∧ unit.portsRest 0x02 ∧ unit.portsRest 0x10 ∧ unit.portsRest 0x3F ∧ (0x05 : BitVec 6) ∉ ([0x00, 0x01, 0x02, 0x03, 0x04, 0x10, 0x11, 0x12, 0x18, 0x1C] : List (BitVec 6)) ∧
      unit.dev.fus.dbgOpen = false ∧ unit.dev.fus.lcs ≤ 1 ∧ unit.portsRest 0x18 ∧ unit.calm 0x1F dUnit) ∧
    (returned.awake ∧ returned.dev.fus.lcs = 3 ∧ returned.dev.fus.vdbg = false ∧ returned.dev.fus.dbgOpen = false ∧ returned.portsRest 0x3F) ∧
    (let s : State := { unit with dev.fus.dbgOpen := true }
     s.awake ∧ s.dev.fus.dbgOpen = true) :=
  ⟨⟨⟨rfl, by decide⟩, by decide, rests (by decide), rests (by decide), rests (by decide)⟩, ⟨⟨rfl, by decide⟩, by decide, rests (by decide), by decide⟩,
    ⟨⟨rfl, by decide⟩, rests (by decide), rests (by decide), rests (by decide), rests (by decide), by decide, by decide, by decide, rests (by decide), calm_of (e := false) rfl (by decide) (by decide)⟩,
    ⟨⟨rfl, by decide⟩, by decide, by decide, by decide, rests (by decide)⟩, ⟨rfl, by decide⟩, rfl⟩

/-- A MANUFACTURE unit: nothing blown, a serial number, a V key word and KEY_LOCK's bit in PROT (`locked`). -/
def made (locked : Bool) : State := { unit with dev.fus.lcs := 0, fuses := [(1, if locked then 0x100 else 0), (2, 7), (14, 1)] }

theorem witness_LifeCycle :
    (fielded.awake ∧ fielded.portsRest 0x3F ∧ 2 ≤ fielded.dev.fus.lcs) ∧
    ((made true).awake ∧ (made true).portsRest 0x11 ∧ (made true).portsRest 0x12 ∧ (made true).dev.fus.lcs = 0 ∧ (1 : Fin 32).val = 1 ∧ (8 : BitVec 32).toNat < 2 ^ 13 ∧ (tget 0 (made true).fuses 2 ≠ 0) ∧
      (∃ k, k < 8 ∧ tget 0 (made true).fuses (14 + k) ≠ 0) ∧ (tget 0 (made true).fuses 1).getLsbD 8 = true) ∧
    ((made false).portsRest 0x12 ∧ (made false).dev.fus.lcs = 0 ∧ (tget 0 (made false).fuses 1).getLsbD 8 = false) ∧
    (unit.portsRest 0x12 ∧ unit.portsRest 0x11 ∧ unit.dev.fus.lcs = 1 ∧ ¬ ((1 : Fin 32).val = 1 ∧ (0x2000 : BitVec 32).toNat < 2 ^ 13) ∧ unit.dev.fus.prot.getLsbD 0 = false ∧ (tget 0 unit.fuses 0).toNat / 2 ^ (8 * 0) % 256 = 255) ∧
    (let s : State := { unit with dev.fus.prot := 1 }
     s.portsRest 0x12 ∧ s.dev.fus.lcs = 1 ∧ s.dev.fus.prot.getLsbD 0 = true ∧ s.dev.fus.keyOk = false) ∧
    (let s : State := { unit with dev.fus.keyOk := true }
     s.portsRest 0x12 ∧ s.dev.fus.lcs = 1 ∧ s.dev.fus.keyOk = true ∧ (none : Option (List Byte)) ≠ some ((hmac s.dev.fus.key (mark4 0x56 0x4E 0x52 0x54 ++ le 8 s.dev.fus.serial.toNat)).take 16) ∧ s.calm 0x1E dUnit) ∧
    (returned.awake ∧ returned.portsRest 0x3F ∧ returned.portsRest 0x1C ∧ returned.dev.fus.lcs = 3 ∧ returned.dev.fus.fails < 3 ∧ unit.dev.fus.lcs ≠ 3) ∧
    (let s : State := { returned with dev.fus.fails := 3 }
     s.portsRest 0x3F ∧ 3 ≤ s.dev.fus.fails) ∧
    (let s : State := { returned with dev.fus.inst := 0x1C, dev.fus.chalLive := true }
     s.dev.fus.inst = 0x1C ∧ s.dev.fus.chalLive = true) ∧ unit.dev.fus.inst ≠ 0x1C :=
  ⟨⟨⟨rfl, by decide⟩, rests (by decide), by decide⟩, ⟨⟨rfl, by decide⟩, rests (by decide), rests (by decide), by decide, by decide, by decide, by decide, ⟨0, by decide⟩, by decide⟩, ⟨rests (by decide), by decide⟩,
    ⟨rests (by decide), rests (by decide), by decide, by decide, by decide, by decide⟩, ⟨rests (by decide), by decide⟩, ⟨rests (by decide), by decide, by decide, by simp, calm_of (e := false) rfl (by decide) (by decide)⟩,
    ⟨⟨rfl, by decide⟩, rests (by decide), rests (by decide), by decide, by decide, by decide⟩, ⟨rests (by decide), by decide⟩, by decide, by decide⟩

/-- A unit with a slot of source `x` in domain `d`, class `c`. -/
def slotted (x d c st : Nat) (w : Nat) : State := { unit with dev.flt.slots := [(3 * d + c, { st := st, src := x, word := w })] }

/-- What a raise asks of its source and domain. -/
abbrev mayRaise (s : State) (x d : Nat) : Prop := (if tenantSrc x then d < 5 else d = 5) ∧ reservedSrc x = false ∧ s.dev.flt.wired x = false

theorem witness_FaultRaises :
    (unit.rack ∧ mayRaise unit 0x00 5 ∧ unit.dev.img.cfg.flt.effClass 0x00 = 0 ∧ (unit.dev.flt.slot 5 0).st = 0 ∧ unit.noReset 0x00 5 0) ∧
    (mayRaise unit 0x02 5 ∧ unit.dev.img.cfg.flt.effClass 0x02 = 1 ∧ (unit.dev.flt.slot 5 1).st = 0 ∧ unit.noReset 0x02 5 1 ∧ ¬ mayRaise unit 0x00 0) ∧
    (mayRaise unit 0x20 3 ∧ unit.dev.img.cfg.flt.effClass 0x20 = 1 ∧ unit.noReset 0x20 3 1 ∧ ¬ mayRaise unit 0x20 5) ∧
    (let s := slotted 0x01 5 0 1 0
     s.rack ∧ mayRaise s 0x00 5 ∧ s.dev.img.cfg.flt.effClass 0x00 = 0 ∧ (s.dev.flt.slot 5 0).st = 1 ∧ (s.dev.flt.slot 5 1).st = 0 ∧ s.noReset 0x00 5 1) ∧
    (let s := slotted 0x01 5 0 2 0
     s.rack ∧ mayRaise s 0x00 5 ∧ s.dev.img.cfg.flt.effClass 0x00 ≤ 1 ∧ (s.dev.flt.slot 5 (s.dev.img.cfg.flt.effClass 0x00)).st = 2) ∧
    (let s : State := { unit with dev.img.cfg.flt.react := [(0x02, 2)] }
     s.rack ∧ mayRaise s 0x02 5 ∧ s.dev.img.cfg.flt.effClass 0x02 = 2 ∧ (s.dev.flt.slot 5 2).st = 0 ∧ s.dev.flt.fpend = [] ∧ s.dev.pai.role ≠ 3) ∧
    (boardSrc 0x00 = false ∧ unit.noReset 0x00 5 1) ∧ (mayRaise unit 0x04 5 ∧ boardSrc 0x04 = true ∧ unit.dev.bd.core = true) ∧
    (let s : State := { unit with dev.flt.wires := [(0x00, 5)] }
     s.rack ∧ s.dev.flt.wired 0x00 = true) :=
  ⟨⟨unit_rack, by decide, by decide, by decide, rfl⟩, ⟨by decide, by decide, by decide, rfl, by decide⟩, ⟨by decide, by decide, rfl, by decide⟩, ⟨⟨rfl, by decide⟩, by decide, by decide, by decide, by decide, rfl⟩,
    ⟨⟨rfl, by decide⟩, by decide⟩, ⟨⟨rfl, by decide⟩, by decide⟩, ⟨by decide, rfl⟩, by decide, ⟨rfl, by decide⟩, by decide⟩

theorem witness_Faults :
    (let s := slotted 0x20 1 1 2 0
     s.rack ∧ s.dev.barred 4 = false ∧ s.dev.barred 1 = false ∧ s.dev.flt.fatal = false ∧ s.dev.flt.stopped dUnit = false ∧ s.dev.flt.wired 0x20 = false ∧ domOf (1 : BitVec 3).toNat = some 1 ∧ s.dev.flt.tenantF 0x20 1 = false ∧
       s.dev.flt.holds 0x20 1 = true ∧ s.dev.flt.stopOf 1 = [] ∧ s.dev.flt.holds 0x21 1 = false ∧ domOf (5 : BitVec 3).toNat = none ∧ (2 : Ten) ≠ 4 ∧ ((2 : Ten).val ≠ 1) ∧ s.dev.flt.fkey = 0) ∧
    (let s : State := { unit with dev.flt.wires := [(0x00, 5)] }
     s.rack ∧ s.dev.flt.wired 0x00 = true ∧ s.dev.barred 4 = false ∧ s.dev.flt.fatal = false) ∧
    (let s : State := { unit with dev.flt.hstop := [(5, [2])] }
     s.rack ∧ s.dev.barred 4 = false ∧ s.dev.flt.stopped dUnit = true ∧ s.dev.flt.fkey = 0) ∧
    (unit.rack ∧ unit.writer 1 ∧ (1 : Ten) ≠ 4 ∧ unit.dev.fus.lcs ≠ 2 ∧ unit.dev.fus.lcs ≠ 3 ∧ unit.dev.barred 4 = false ∧ unit.dev.flt.fatal = false ∧ unit.dev.flt.stopped dUnit = false ∧ domOf (7 : BitVec 3).toNat = some 5 ∧
      mayRaise unit 0x00 5 ∧ unit.dev.img.cfg.flt.effClass 0x00 ≤ 1 ∧ (unit.dev.flt.slot 5 0).st = 0 ∧ (unit.dev.flt.slot 5 1).st = 0 ∧ unit.noReset 0x00 5 0 ∧ unit.noReset 0x00 5 1 ∧ boardSrc 0x00 = false ∧ boardSrc 0x04 = true ∧
      reservedSrc 0x09 = true) ∧
    (let s : State := { fielded with dev.flt.fkey := 2 }
     s.rack ∧ s.dev.fus.prot.getLsbD 12 = false ∧ s.dev.flt.fkey = 2 ∧ s.dev.tim.mono ≤ s.dev.flt.fkeyT + 1000000) ∧
    (let s : State := { unit with dev.flt.fkey := 1 }
     s.rack ∧ s.dev.flt.fkey = 1 ∧ s.dev.tim.mono ≤ s.dev.flt.fkeyT + 1000000) ∧
    ((unit.dev.flt.slot 5 0).st ≠ 1 ∧ (((slotted 0x00 5 0 1 0).dev.flt.slot 5 0).st = 1 ∧ tbit ((slotted 0x00 5 0 1 0).dev.flt.slot 5 0).word 13 = false)) ∧
    (let s := slotted 0x00 5 0 1 0x2000
     s.rack ∧ (s.dev.flt.slot 5 0).st = 1 ∧ tbit (s.dev.flt.slot 5 0).word 13 = true ∧ s.dev.flt.wired (s.dev.flt.slot 5 0).src = false ∧ s.dev.flt.stopped 5 = false) :=
  ⟨⟨⟨rfl, by decide⟩, by decide⟩, ⟨⟨rfl, by decide⟩, by decide⟩, ⟨⟨rfl, by decide⟩, by decide⟩,
    ⟨unit_rack, ⟨rfl, rfl⟩, by decide, by decide, by decide, by decide, by decide, by decide, by decide, by decide, by decide, by decide, by decide, rfl, rfl, by decide⟩, ⟨⟨rfl, by decide⟩, by decide⟩, ⟨⟨rfl, by decide⟩, by decide⟩, by decide,
    ⟨⟨rfl, by decide⟩, by decide⟩⟩

/-- A unit whose time is as `x`, with the TPI source chosen. -/
def timed (x : TimeSt) : State := { unit with dev.tim := x }
/-- The unit as a time master. -/
def mastered : State := { timed { tset := true } with dev.img.cfg.time.master := true }

/-- What an accepted edge asks of the time since the candidate. -/
abbrev onTime (s : State) (m : Nat) : Prop :=
  let per := s.dev.img.cfg.time.tper * 1000000
  per ≤ s.dev.tim.mono - m + (per / 1000 + 1000) ∧ s.dev.tim.mono - m ≤ per + (per / 1000 + 1000)

/-- The offset of NOW from the nearest whole period. -/
abbrev offset (s : State) : Int :=
  let per := s.dev.img.cfg.time.tper * 1000000
  (s.dev.tim.now : Int) - ((s.dev.tim.now + per / 2) / per * per : Nat)

theorem witness_TimeReferences :
    ((timed {}).rack ∧ (timed {}).dev.img.cfg.time.srcTpi = true ∧ (timed {}).dev.sup.mode ≠ 2 ∧ (timed {}).dev.tim.candTpi = none ∧ (timed {}).dev.tim.state ≠ 1 ∧ (timed {}).dev.tim.state ≠ 2 ∧ (timed {}).dev.img.cfg.time.xtal = false) ∧
    ((timed { mono := 5, candTpi := some 0 }).rack ∧ ¬ onTime (timed { mono := 5, candTpi := some 0 }) 0) ∧
    (let s := timed { now := 1000000700, mono := 1000000000, candTpi := some 0, state := 1, src := 1, tset := true, chunkQ := 0 }
     s.rack ∧ s.dev.tim.nextArm = none ∧ s.dev.tim.xtalOk = false ∧ onTime s 0 ∧ -((s.dev.img.cfg.time.stepthr * 1000 : Nat) : Int) < offset s ∧ offset s < (s.dev.img.cfg.time.stepthr * 1000 : Nat)) ∧
    (let s : Bool → State := fun b => timed { now := 1000700000, mono := 1000000000, candTpi := some 0, state := 1, src := 1, tset := true, chunkQ := 0, stepPend := b }
     (s true).rack ∧ (s false).rack ∧ onTime (s true) 0 ∧ onTime (s false) 0 ∧ ((s true).dev.img.cfg.time.stepthr * 1000 : Nat) ≤ offset (s true) ∧ ((s false).dev.img.cfg.time.stepthr * 1000 : Nat) ≤ offset (s false) ∧
       (s true).dev.tim.heldQual = 0 ∧ (s true).dev.tim.tpoRise = none ∧ (s true).dev.bar.bAlive = true ∧ (s true).calm 0x59 dUnit) ∧
    (let s := timed { mono := 1000000000, candTpi := some 0, chunkQ := 3 }
     s.rack ∧ s.dev.tim.state = 0 ∧ s.dev.tim.src = 0 ∧ s.dev.tim.tset = false ∧ s.dev.tim.nextArm = none ∧ onTime s 0) ∧
    (let s := timed { mono := 1000000000, candTpi := some 0, chunkQ := 3, nextArm := some 9 }
     s.rack ∧ s.dev.tim.nextArm = some 9 ∧ onTime s 0) ∧
    (let s : State := { timed { state := 1, src := 1, accTime := some 0 } with dev.img.cfg.time.srcRing := true }
     s.rack ∧ s.dev.tim.state = 1 ∧ s.dev.tim.src = 1 ∧ s.dev.img.cfg.time.srcRing = true ∧ s.dev.tim.accTime ≠ none ∧ s.calm 0x58 dUnit) ∧
    (let s := timed { state := 1, src := 1 }
     s.rack ∧ s.dev.tim.state = 1 ∧ s.dev.tim.accTime = none ∧ s.calm 0x58 dUnit) ∧
    ((timed { state := 2 }).rack ∧ (timed { state := 2 }).dev.tim.state = 2 ∧ (timed { state := 2 }).calm 0x58 dUnit) ∧
    (let s : State := { timed { xtalOk := true } with dev.img.cfg.time.xtal := true }
     s.rack ∧ s.dev.img.cfg.time.xtal = true ∧ s.dev.tim.xtalOk = true ∧ s.calm 0x58 dUnit) :=
  ⟨⟨⟨rfl, by decide⟩, by decide⟩, ⟨⟨rfl, by decide⟩, by decide⟩, ⟨⟨rfl, by decide⟩, by decide⟩,
    ⟨⟨rfl, by decide⟩, ⟨rfl, by decide⟩, by decide, by decide, by decide, by decide, by decide, by decide, by decide, calm_of (e := false) rfl (by decide) (by decide)⟩, ⟨⟨rfl, by decide⟩, by decide⟩, ⟨⟨rfl, by decide⟩, by decide⟩,
    ⟨⟨rfl, by decide⟩, by decide, by decide, by decide, by decide, calm_of (e := false) rfl (by decide) (by decide)⟩, ⟨⟨rfl, by decide⟩, by decide, by decide, calm_of (e := false) rfl (by decide) (by decide)⟩,
    ⟨⟨rfl, by decide⟩, by decide, calm_of (e := false) rfl (by decide) (by decide)⟩, ⟨⟨rfl, by decide⟩, by decide, by decide, calm_of (e := false) rfl (by decide) (by decide)⟩⟩

theorem witness_Time :
    (unit.rack ∧ unit.dev.img.cfg.time.master = false ∧ unit.dev.barred (2 : Ten).val = false ∧ unit.dev.tim.tset = false) ∧
    (mastered.rack ∧ mastered.dev.img.cfg.time.master = true ∧ mastered.dev.tim.tset = true ∧ mastered.dev.sup.mode ≠ 2 ∧ mastered.dev.tim.tpo = false ∧ mastered.dev.rst.held = false) ∧
    (unit.writer 2 ∧ ¬ ((2 : Ten) = 4 ∧ (unit.dev.tim.state ≠ 1 ∨ unit.dev.tim.tset = false))) ∧
    (unit.writer 4 ∧ unit.dev.tim.state ≠ 1 ∧ unit.dev.tim.tset = false ∧ unit.dev.tim.tpoRise = none) ∧
    (let s := timed { state := 1, tset := true }
     s.rack ∧ s.writer 4 ∧ ¬ (s.dev.tim.state ≠ 1 ∨ s.dev.tim.tset = false)) ∧
    (let s := timed { state := 3, tset := true }
     s.rack ∧ s.writer 4 ∧ s.dev.tim.tset = true ∧ (s.dev.tim.state = 2 ∨ s.dev.tim.state = 3) ∧ s.dev.tim.tpoRise = none ∧ s.calm 0x59 dUnit ∧ s.dev.bar.bAlive = true) :=
  ⟨⟨unit_rack, by decide⟩, ⟨⟨rfl, by decide⟩, by decide⟩, ⟨⟨rfl, rfl⟩, by decide⟩, ⟨⟨rfl, rfl⟩, by decide⟩, ⟨⟨rfl, by decide⟩, ⟨rfl, rfl⟩, by decide⟩,
    ⟨⟨rfl, by decide⟩, ⟨rfl, rfl⟩, by decide, by decide, by decide, calm_of (e := false) rfl (by decide) (by decide), by decide⟩⟩

/-! ## Hypotheses that are met: identity, check units, store, pairing and images -/

/-- A board with VB3 up, in place, with the identity means of `c`, at the point `p` of its reading. -/
def read (c : IdCfg) (p : Probe) : State := { unit with dev.bd := { unit.dev.bd with up := 0xF, cfg := { id := c }, probe := p } }

theorem read_board (c : IdCfg) (p : Probe) : (read c p).board := ⟨rfl, by show (0 : Nat) < 4; decide⟩

theorem witness_IdentityReads :
    ((read {} {}).rack ∧ (read {} {}).board ∧ (read {} {}).dev.bd.tabs = true ∧ (read {} {}).dev.bd.parked = false ∧ (read {} {}).dev.bd.up.getLsbD 3 = true ∧ (read {} {}).dev.bd.pstate ≠ 0 ∧ (read {} {}).dev.idn.wbState ≠ 2 ∧ (read {} {}).dev.bd.pstate = 2 ∧
      (read {} {}).dev.bd.cfg.id.idsEn = false ∧ (read {} {}).dev.bd.cfg.id.strapEn = false ∧ (read {} {}).dev.bd.probe.phase ≠ 1 ∧ (read {} {}).dev.bd.probe.phase ≠ 2) ∧
    ((read { idsEn := true } {}).rack ∧ (read { idsEn := true } {}).board ∧ (read { idsEn := true } {}).dev.bd.cfg.id.idsEn = true) ∧
    (State.reset.rack ∧ State.reset.board ∧ State.reset.dev.bd.tabs = false) ∧
    (let s := read { strapEn := true, strapMask := 0x0F } { phase := 1, strap1 := some 0x0F }
     s.board ∧ s.dev.bd.probe.phase = 1 ∧ s.dev.bd.probe.strapDone = false ∧ s.dev.bd.probe.strap1 = some 0x0F ∧ ~~~(0x0F : BitVec 8) &&& 0x03 &&& s.dev.bd.cfg.id.strapMask = 0) ∧
    (let s := read {} { phase := 1 }
     s.board ∧ s.dev.bd.probe.phase = 1 ∧ s.dev.bd.probe.strapDone = false ∧ s.dev.bd.probe.strap1 = none ∧ s.dev.bd.probe.idsDone = false) ∧
    ((read {} { phase := 2 }).board ∧ (read {} { phase := 2 }).dev.bd.probe.phase = 2 ∧ (List.replicate 256 (0 : Byte)).length = 256) :=
  ⟨⟨⟨rfl, by decide⟩, read_board _ _, by decide⟩, ⟨⟨rfl, by decide⟩, read_board _ _, by decide⟩, ⟨⟨rfl, by decide⟩, ⟨rfl, by decide⟩, by decide⟩, ⟨read_board _ _, by decide⟩, ⟨read_board _ _, by decide⟩,
    ⟨read_board _ _, by decide, List.length_replicate⟩⟩

/-- A PRESENT board with a service log, at the point `i` of its write-back, tried `n` times. -/
def logged (st step n : Nat) (up : BitVec 4) : State := { unit with
  dev.sup.up := up
  dev.bar := { unit.dev.bar with pstate := 2 }
  dev.bd.probe.wbTry := n
  dev.idn := { eestat := 2, tsirOk := true, logslots := 2, wbState := st, wbStep := step } }

theorem witness_WriteBacks :
    ((logged 0 0 0 0xF).rack ∧ (logged 0 0 0 0xF).writer 4 ∧ (logged 0 0 0 0xF).writer 2 ∧ (2 : Ten) ≠ 4 ∧ (logged 0 0 0 0xF).dev.idn.eestat = 2 ∧ (logged 0 0 0 0xF).dev.idn.tsirOk = true ∧
      (logged 0 0 0 0xF).dev.idn.logslots = 2 ∧ (logged 0 0 0 0xF).dev.bar.pstate = 2 ∧ (logged 0 0 0 0xF).dev.idn.wbState = 0 ∧ (logged 0 0 0 0xF).dev.sup.up.getLsbD 3 = true ∧ (logged 0 0 0 0xF).dev.sup.low.getLsbD 3 = false ∧
      (logged 0 0 0 0xF).dev.sup.notice = false) ∧
    ((logged 0 0 0 0).writer 4 ∧ (logged 0 0 0 0).dev.sup.up.getLsbD 3 = false) ∧
    ((logged 1 0 0 0xF).rack ∧ (logged 1 0 0 0xF).dev.idn.wbState = 1 ∧ (logged 1 0 0 0xF).dev.idn.astate ≠ 1 ∧ (logged 1 0 0 0xF).dev.sup.notice = false ∧ (logged 1 0 0 0xF).dev.sup.up.getLsbD 3 = true ∧
      (logged 1 0 0 0xF).dev.sup.low.getLsbD 3 = false ∧ (logged 1 0 0 0xF).dev.bd.core = true ∧ (logged 1 0 0 0xF).dev.bd.pstate = 2 ∧ (logged 1 0 0 0xF).dev.idn.notes.length = 8) ∧
    ((logged 2 4 0 0xF).rack ∧ (logged 2 4 0 0xF).dev.idn.wbState = 2 ∧ (logged 2 4 0 0xF).dev.idn.wbStep = 4 ∧ (logged 2 4 0 0xF).calm 0x5B dUnit) ∧
    ((logged 2 5 0 0xF).rack ∧ (logged 2 5 0 0xF).dev.idn.wbStep = 5 ∧ (logged 2 5 0 0xF).dev.bd.probe.wbTry = 0 ∧ [1] ≠ (logged 2 5 0 0xF).dev.idn.wbRec) ∧
    ((logged 2 5 1 0xF).rack ∧ (logged 2 5 1 0xF).dev.bd.probe.wbTry ≠ 0 ∧ (logged 2 5 1 0xF).calm 0x5B dUnit) :=
  ⟨⟨⟨rfl, by decide⟩, ⟨rfl, rfl⟩, ⟨rfl, rfl⟩, by decide⟩, ⟨⟨rfl, rfl⟩, by decide⟩, ⟨⟨rfl, by decide⟩, by decide⟩, ⟨⟨rfl, by decide⟩, by decide, by decide, calm_of (e := false) rfl (by decide) (by decide)⟩,
    ⟨⟨rfl, by decide⟩, by decide⟩, ⟨⟨rfl, by decide⟩, by decide, calm_of (e := false) rfl (by decide) (by decide)⟩⟩

/-- A unit in which T2 feeds check unit 1. -/
def feeding : State := { unit with dev.img.cfg.cks := [{}, { width := 8, fowner := 2 }] }

theorem witness_CheckUnits :
    (unit.rack ∧ unit.writer 2 ∧ (unit.dev.img.cfg.ck 1).width = 0 ∧ (∀ k < 4, (unit.dev.img.cfg.ck k).width = 0) ∧ unit.dev.fixBad.getLsbD 3 = false ∧ unit.calm 0x53 dUnit) ∧
    (feeding.rack ∧ feeding.writer 2 ∧ (feeding.dev.img.cfg.ck 1).fowner = (2 : Ten).val ∧ (feeding.dev.img.cfg.ck 1).width ≠ 0 ∧ (∀ k < 4, k ≠ 1 → (feeding.dev.img.cfg.ck k).width = 0) ∧ (feeding.dev.ckUnit 1).failed = false ∧
      fld (0x01000005 : BitVec 32).toNat 24 2 ≠ 0 ∧ fld (5 : BitVec 32).toNat 24 2 = 0 ∧ feeding.calm 0x52 dUnit) :=
  ⟨⟨unit_rack, ⟨rfl, rfl⟩, by decide, by decide, by decide, calm_of (e := false) rfl (by decide) (by decide)⟩,
    ⟨⟨rfl, by decide⟩, ⟨rfl, rfl⟩, by decide, by decide, by decide, by decide, by decide, by decide, calm_of (e := false) rfl (by decide) (by decide)⟩⟩

/-- A unit with lines in its staging memory. -/
def stagedIn (x : Store) : State := { unit with dev.sto := x, dev.fus := { unit.dev.fus with prot := 0x1F0 } }
def aLine (go : Bool) : SLine := { line := 7, data := List.replicate 64 0, started := go }

theorem witness_RecordStore :
    ((stagedIn {}).rack ∧ (stagedIn {}).awake ∧ (stagedIn {}).writer 1 ∧ (0x1C8 : BitVec 18).toNat % 4 = 0 ∧ ¬ ((stagedIn {}).dev.fus.lcs = 3 ∧ (stagedIn {}).dev.fus.vdbg = false) ∧
      (stagedIn {}).dev.fus.prot.getLsbD (4 + 1) = true ∧ (load (stagedIn {})).activeBank ≠ some 0 ∧ (stagedIn {}).dev.img.phase = 0 ∧ 0x1C8 % 0x8000 < 0x7FC0 ∧ (stagedIn {}).dev.sto.win.length < 16 ∧ (1 : Ten) ≠ 4 ∧
      (¬ ∃ l ∈ (stagedIn {}).dev.sto.win, l.line = 7 ∧ l.started = false) ∧ Memory.wf (stagedIn {}).store = true) ∧
    (let s := stagedIn { win := [aLine false] }
     s.rack ∧ s.awake ∧ (∃ l ∈ s.dev.sto.win, l.line = 0x1C8 / 64 ∧ l.started = false) ∧ s.dev.sto.win = [] ++ aLine false :: [] ∧ s.dev.sup.notice = false) ∧
    (let s := stagedIn { win := List.replicate 16 (aLine true) }
     s.rack ∧ 16 ≤ s.dev.sto.win.length ∧ ¬ ∃ l ∈ s.dev.sto.win, l.line = 0x1C8 / 64 ∧ l.started = false) ∧
    (let s := stagedIn { log := [aLine true] }
     s.awake ∧ s.dev.sto.log = [] ++ aLine true :: [] ∧ (aLine true).data.length = 64 ∧ (aLine true).started = true ∧ s.dev.log.lstate ≠ 1) ∧
    (let s := stagedIn { own := [aLine true], win := [aLine true] }
     s.awake ∧ (∀ e ∈ s.dev.sto.log, e.started = false) ∧ s.dev.sto.own = [] ++ aLine true :: []) ∧
    (let s := stagedIn { win := [aLine true] }
     s.awake ∧ (∀ e ∈ s.dev.sto.log ++ s.dev.sto.own, e.started = false) ∧ s.dev.sto.win = [] ++ aLine true :: []) ∧
    (∀ e ∈ (stagedIn {}).dev.sto.log ++ (stagedIn {}).dev.sto.own ++ (stagedIn {}).dev.sto.win, e.started = false) :=
  ⟨⟨⟨rfl, by decide⟩, ⟨rfl, by decide⟩, ⟨rfl, rfl⟩, by decide⟩, ⟨⟨rfl, by decide⟩, ⟨rfl, by decide⟩, by decide⟩, ⟨⟨rfl, by decide⟩, by decide⟩, ⟨⟨rfl, by decide⟩, by decide⟩, ⟨⟨rfl, by decide⟩, by decide⟩,
    ⟨⟨rfl, by decide⟩, by decide⟩, by decide⟩

/-- A unit whose order log is as `x`. -/
def logs (x : OrderLog) : State := { unit with dev.log := x }
def mark : List Nat := [packN [(0, 6, 0x14), (6, 1, 1), (7, 3, 2), (10, 16, 5)], 0x3F]

theorem witness_OrderLogCommands :
    ((logs {}).rack ∧ (logs {}).writer 2 ∧ (logs {}).writer 4 ∧ (2 : Ten) ≠ 4 ∧ (logs {}).dev.log.lstate = 0 ∧ (logs {}).dev.log.cur = none ∧ (logs {}).dev.log.start = 0 ∧ (logs {}).dev.log.next < 2 ^ 32 - 1 ∧ (logs {}).dev.log.lstate ≤ 1 ∧
      (logs {}).dev.log.lstate ≠ 2 ∧ (logs {}).dev.log.lstate ≠ 3 ∧ (logs {}).dev.fus.lcs = 1 ∧ (logs {}).dev.fus.odd = false) ∧
    (let s : State := { logs { cur := some { oseq := 0, time := 0, ents := [mark] } } with dev.img.cfg.log.recen := true, dev.img.cfg.log.rectrig := false }
     s.rack ∧ s.dev.img.cfg.log.recen = true ∧ s.dev.log.lastRec = none ∧ s.dev.img.cfg.log.rectrig = false ∧ s.dev.log.cur = some { oseq := 0, time := 0, ents := [mark] } ∧ (s.dev.tim.now - 0) / 5 < 2 ^ 26 ∧
       (addTo [mark] (putDT mark ((s.dev.tim.now - 0) / 5)) ≠ none) ∧ [mark].getLast? = some mark ∧ isRepeat mark = false ∧ s.dev.sto.log.length < 32) ∧
    (let s : State := { logs { lastRec := some 0 } with dev.img.cfg.log.recen := true }
     s.rack ∧ s.dev.log.lastRec = some 0 ∧ s.dev.tim.mono < 0 + 10000000) ∧
    (let s := fun (d : Bool) => logs { cur := some { oseq := 0, time := 0, ents := [mark, [0x1F, 0]], dirty := d } }
     (s true).rack ∧ (s false).rack ∧ ([mark, [0x1F, 0]].getLast? = some [0x1F, 0]) ∧ isRepeat [0x1F, 0] = true ∧ fld (nth ([0x1F, 0] : List Nat) 0) 6 16 < 65535 ∧ (s true).dev.sto.log.length < 32) ∧
    ((logs { lstate := 2 }).rack ∧ (logs { lstate := 2 }).writer 4 ∧ 1 < (logs { lstate := 2 }).dev.log.lstate ∧ (logs { lstate := 2 }).dev.log.lstate ≠ 4) ∧
    ((logs { lstate := 1 }).rack ∧ (logs { lstate := 1 }).writer 4 ∧ (logs { lstate := 1 }).dev.log.lstate ≠ 0 ∧ (logs { lstate := 1 }).dev.log.lstate ≠ 2) ∧
    (fielded.rack ∧ fielded.writer 4 ∧ fielded.dev.fus.lcs = 2) :=
  ⟨⟨⟨rfl, by decide⟩, ⟨rfl, rfl⟩, ⟨rfl, rfl⟩, by decide⟩, ⟨⟨rfl, by decide⟩, by decide⟩, ⟨⟨rfl, by decide⟩, by decide⟩, ⟨⟨rfl, by decide⟩, ⟨rfl, by decide⟩, by decide⟩, ⟨⟨rfl, by decide⟩, ⟨rfl, rfl⟩, by decide⟩,
    ⟨⟨rfl, by decide⟩, ⟨rfl, rfl⟩, by decide⟩, ⟨⟨rfl, by decide⟩, ⟨rfl, rfl⟩, by decide⟩⟩

/-- A START line for a replay of a unit with board revision 0 and image CRC 0 (Table 18.5). -/
def startLine : List Byte := lcrcLine (le 4 5 ++ le 8 1000 ++ [1, 0, 0, 0] ++ [0, 0, 0, 0, 0, 0, 0, 0, 2, 0])

/-- A unit in LOAD whose replay is to start from line 5, which the store holds or not. -/
def replays (held : Bool) : State := { unit with
  dev.log := { lstate := 3 }
  dev.rpl := { src := 5 }
  dev.ring := {}
  store := if held then writeAll [] (((List.range 64).zip startLine).map (fun e => (oLine 5 * 64 + e.1, e.2))) else [] }

theorem witness_Replay :
    ((logs {}).dev.rackOn = true ∧ (logs {}).writer 2 ∧ (logs {}).writer 4 ∧ (logs {}).dev.log.lstate ≠ 4 ∧ (logs {}).dev.log.lstate ≠ 3 ∧ (logs {}).dev.log.lstate < 4 ∧ (logs {}).dev.fus.lcs = 1 ∧ (logs {}).dev.fus.odd = false) ∧
    (fielded.dev.rackOn = true ∧ fielded.writer 4 ∧ fielded.dev.fus.lcs = 2 ∧ fielded.dev.log.lstate < 4) ∧
    (let s := replays false
     s.dev.rackOn = true ∧ s.writer 4 ∧ s.dev.log.lstate = 3 ∧ at' ((load s).line (oLine 5)) 0 4 ≠ s.dev.rpl.src) ∧
    (let s := replays true
     let l := (load s).line (oLine 5)
     s.dev.rackOn = true ∧ s.writer 4 ∧ s.dev.log.lstate = 3 ∧ s.dev.rpl.src = 5 ∧ at' l 0 4 = 5 ∧ at' l 12 1 = 1 ∧ lcrcOk l = true ∧ at' l 24 2 = 0x02 + 0x100 * (if s.dev.bar.bstepSeen then 0x02 else 0) ∧
       s.dev.img.woven = true ∧ at' l 20 4 = s.dev.img.cfg.imgcrc.toNat ∧ s.dev.sup.notice = false ∧ s.dev.sto = {} ∧ (load s).bankRec 0 = none ∧ (load s).bankRec 1 = none ∧ s.dev.fus.lcs ≠ 3 ∧ s.dev.pai.role ≠ 3 ∧
       s.dev.bd.runs = true ∧ s.dev.rst.softWait = none ∧ s.dev.idn.astate ≠ 1 ∧ s.dev.idn.wbState ≠ 2 ∧ s.dev.ring.up.st = 0 ∧ s.dev.ring.dn.st = 0 ∧ s.dev.flt.stopped dUnit = false) ∧
    (let s : State := { replays true with dev.bar.bstepSeen := true }
     at' ((load s).line (oLine 5)) 24 2 ≠ 0x02 + 0x100 * (if s.dev.bar.bstepSeen then 0x02 else 0)) ∧
    (let s : State := { replays true with dev.img.woven := false }
     ¬ s.dev.img.woven = true) ∧
    (let s : State := { logs { lstate := 4 } with dev.rpl.items := [.ent mark 0] }
     s.dev.rackOn = true ∧ s.writer 4 ∧ s.dev.log.lstate = 4 ∧ s.dev.rpl.items = .ent mark 0 :: []) :=
  ⟨⟨rfl, ⟨rfl, rfl⟩, ⟨rfl, rfl⟩, by decide⟩, ⟨rfl, ⟨rfl, rfl⟩, by decide⟩, ⟨rfl, ⟨rfl, rfl⟩, by decide +kernel⟩, ⟨rfl, ⟨rfl, rfl⟩, by decide +kernel⟩, by decide +kernel, by decide, ⟨rfl, ⟨rfl, rfl⟩, by decide⟩⟩

/-- A unit with pairing enabled, at the point `p` of it. -/
def paired (p : Pair) : State := { unit with dev.img.cfg.pair.en := true, dev.pai := p }

theorem witness_Epochs :
    (unit.rack ∧ unit.dev.pai.role ≠ 3 ∧ unit.writer 2 ∧ (2 : Ten) ≠ 4 ∧ unit.dev.pai.releasing = 0) ∧
    ((paired { role := 3 }).rack ∧ (paired { role := 3 }).dev.pai.role = 3 ∧ (paired { role := 3 }).dev.img.cfg.pair.en = true ∧ (paired { role := 3 }).dev.sup.notice = false ∧ (paired { role := 3 }).dev.pai.noackNow = false ∧
      (paired { role := 3 }).calm 0x5E dUnit) ∧
    ((paired { role := 3, noackNow := true }).rack ∧ (paired { role := 3, noackNow := true }).dev.pai.noackNow = true) ∧
    (let s : Bool → Nat → State := fun n r => { paired { role := 3, ackT := some 0, acked := 1, releasing := r } with dev.sup.notice := n }
     (s false 0).rack ∧ (s true 0).rack ∧ (s false 3).rack ∧ (s false 0).writer 4 ∧ (s true 0).writer 4 ∧ (s false 3).writer 4 ∧ (∃ a, (s false 0).dev.pai.ackT = some a ∧ (s false 0).dev.tim.mono - a ≤ 2 * ((s false 0).dev.img.cfg.pair.eper * 100000)) ∧
       (s false 0).dev.pai.acked ≠ 0 ∧ (s true 0).dev.sup.notice = true ∧ (s false 0).dev.sup.notice = false ∧ (s false 3).dev.pai.releasing ≠ 0) :=
  ⟨⟨unit_rack, by decide, ⟨rfl, rfl⟩, by decide⟩, ⟨⟨rfl, by decide⟩, by decide, by decide, by decide, by decide, calm_of (e := false) rfl (by decide) (by decide)⟩, ⟨⟨rfl, by decide⟩, by decide⟩,
    ⟨⟨rfl, by decide⟩, ⟨rfl, by decide⟩, ⟨rfl, by decide⟩, ⟨rfl, rfl⟩, ⟨rfl, rfl⟩, ⟨rfl, rfl⟩, ⟨0, by decide⟩, by decide⟩⟩

theorem witness_Takeovers :
    (unit.rack ∧ ¬ (unit.dev.img.cfg.pair.en = true) ∧ unit.dev.pai.role ≠ 2) ∧
    (let s := paired { role := 1 }
     s.rack ∧ s.dev.img.cfg.pair.en = true ∧ s.dev.img.woven = true ∧ s.dev.flt.fatal = false ∧ s.dev.pai.role = 1) ∧
    (let s := paired { role := 2 }
     s.rack ∧ s.dev.pai.role = 2 ∧ s.dev.pai.heldSilent = false ∧ s.calm 0x5E dUnit ∧ s.dev.ring.addr = 0 ∧ s.dev.pai.relSeen = none ∧ s.dev.img.cfg.pair.en = true ∧ s.dev.img.woven = true ∧ s.dev.flt.fatal = false) ∧
    (let s : State := { paired { role := 2, heldSilent := true } with dev.img.woven := false }
     s.rack ∧ s.dev.pai.role = 2 ∧ s.dev.pai.heldSilent = true ∧ ¬ (s.dev.img.woven = true)) ∧
    (let s := paired { role := 2, heldSilent := true, relSeen := some true }
     s.rack ∧ s.dev.pai.heldSilent = true ∧ s.dev.pai.relSeen = some true ∧ s.calm 0x5E dUnit) ∧
    ((paired { role := 2, relSeen := some false }).rack ∧ (paired { role := 2, relSeen := some false }).dev.pai.relSeen = some false) :=
  ⟨⟨unit_rack, by decide⟩, ⟨⟨rfl, by decide⟩, by decide⟩, ⟨⟨rfl, by decide⟩, by decide, by decide, calm_of (e := false) rfl (by decide) (by decide), by decide⟩, ⟨⟨rfl, by decide⟩, by decide⟩,
    ⟨⟨rfl, by decide⟩, by decide, by decide, calm_of (e := false) rfl (by decide) (by decide)⟩, ⟨⟨rfl, by decide⟩, by decide⟩⟩

/-- A section of an image (Table 20.1). -/
def sect (t : Nat) (body : List Byte) : List Byte :=
  let b := [BitVec.ofNat 8 t, 1, 0, 0] ++ le 4 body.length ++ body
  b ++ le 4 (crc32 b)

/-- An image of the four required sections, with `mode` the mode of lane 0 (Tables 20.1, 20.3). -/
def image (mode : Byte) : List Byte :=
  let h := mark4 0x56 0x4E 0x4C 0x4D ++ [1, 2, 4, 0] ++ le 4 512 ++ le 4 9 ++ List.replicate 12 0
  h ++ le 4 (crc32 h) ++ sect 1 (List.replicate 4 0 ++ le 2 100 ++ le 2 0x029C ++ mode :: List.replicate 127 0) ++
  sect 3 ([0x10, 4, 0, 0] ++ List.replicate 48 0 ++ [2, 0, 0, 0] ++ le 2 32 ++ [0, 0] ++ le 2 64 ++ [0, 0]) ++
  sect 4 (List.replicate 20 1 ++ List.replicate 5 0x57 ++ List.replicate 31 0 ++ List.replicate 64 7) ++
  sect 5 (le 2 8 ++ [3, 0] ++ List.replicate 72 0) ++ mark4 0x56 0x4E 0x54 0x47 ++ List.replicate 32 0

/-- A unit, woven from bank 1 or unwoven, whose bank 0 starts with the lines of `x`, staged by its tenants. -/
def banked (woven alive : Bool) (x : List Byte) : State := { unit with
  dev.img := { unit.dev.img with woven := woven, bank := 1 }
  dev.bar := { unit.dev.bar with bAlive := alive }
  dev.sto := { win := upto (x.length / 64) (fun n => ({ line := n, data := (x.drop (64 * n)).take 64 } : SLine)) } }

/-- What the checks answer: the result code of a refusal, or 0 and the cold-only section that differs. -/
def verdict (s : State) : Nat × Nat :=
  match checkImage s.dev.weaveAuth ((load s).bankBytes 0) with
  | .error r => (r.code, 0)
  | .ok x => (0, if (List.range 5).all (fun u => decide ((s.dev.ten u).tktUse ≤ x.tktMin u ∧ (s.dev.ten u).bufUse ≤ x.bufMin u)) then s.dev.img.cfg.coldSect x else 99)

theorem witness_Weaves_verdicts : verdict (banked true true (List.replicate 64 0)) = (0x10, 0) ∧ verdict (banked true true (image 0)) = (0, 0) ∧ verdict (banked true true (image 1)) = (0, 1) ∧
    verdict (banked false false (image 0)) = (0, 0) := by
  decide +kernel

theorem witness_Weaves :
    (let s := banked true true (image 0)
     s.rack ∧ s.writer 4 ∧ s.dev.fus.lcs ≠ 3 ∧ s.dev.img.phase = 0 ∧ s.dev.img.woven = true ∧ 1 - s.dev.img.bank = 0 ∧ s.dev.sup.notice = false ∧ s.dev.bar.bAlive = true ∧ s.calm 0x5F dUnit ∧ s.dev.rst.softWait = none ∧ s.dev.flt.stopped dUnit = false) ∧
    (let s := banked false false (image 0)
     s.rack ∧ s.writer 4 ∧ s.dev.img.woven = false ∧ s.dev.bar.bAlive = false ∧ s.dev.rst.last < 2) ∧
    (let s : State := { unit with dev.sup.notice := true, dev.fus.prot := 0x1F0 }
     s.rack ∧ s.writer 2 ∧ s.dev.fus.prot.getLsbD (4 + 2) = true ∧ s.dev.sup.notice = true) ∧
    (unit.rack ∧ unit.writer 2 ∧ unit.dev.fus.prot.getLsbD (4 + 2) = false ∧ unit.dev.img.held = none) ∧
    (let s : State := { banked true true (image 0) with dev.img := { (banked true true (image 0)).dev.img with phase := 3, held := some (4, 1, 0) } }
     s.rack ∧ s.dev.img.held = some ((4 : Ten).val, 1, 0) ∧ s.dev.sup.notice = false) :=
  ⟨⟨⟨rfl, by decide⟩, ⟨rfl, rfl⟩, by decide, rfl, rfl, rfl, rfl, rfl, calm_of (e := false) rfl (by decide) (by decide), rfl, rfl⟩, ⟨⟨rfl, by decide⟩, ⟨rfl, rfl⟩, rfl, rfl, by decide⟩, ⟨⟨rfl, by decide⟩, ⟨rfl, rfl⟩, by decide⟩,
    ⟨unit_rack, ⟨rfl, rfl⟩, by decide⟩, ⟨⟨rfl, by decide⟩, rfl, rfl⟩⟩

/-! ## Hypotheses that are met: registers -/

theorem witness_Registers :
    (let s : State := { unit with dev.flt.slots := [(1 * 3 + 2, { st := 1 })] }
     s.rack ∧ s.dev.barred (1 : Ten).val = true ∧ isBoardAddr 0x4000 = false) ∧
    (unit.rack ∧ unit.writer 4 ∧ unit.writer 2 ∧ isBoardAddr 0x4001 = false ∧ 0x4001 % 4 ≠ 0 ∧ isMapped 0x4004 = true ∧ isMapped 0x0F000 = false) ∧
    (let s : State := { unit with dev.pool.bufs := [(3, { owned := true, ten := 2 })] }
     s.rack ∧ s.writer 2 ∧ s.Inv ∧ (0x1000C4 : BitVec 32).toNat = 0x100000 + 0xC4 ∧ 0xC4 < 0x40000 ∧ 0xC4 % 4 = 0 ∧ (s.dev.pool.buf (0xC4 / 64)).owned = true ∧ (s.dev.pool.buf (0xC4 / 64)).ten = (2 : Ten).val) :=
  ⟨⟨⟨rfl, by decide⟩, by decide⟩, ⟨unit_rack, ⟨rfl, rfl⟩, ⟨rfl, rfl⟩, by decide⟩, ⟨⟨rfl, by decide⟩, ⟨rfl, rfl⟩, by decide⟩⟩

/-! ## Ill-formed commands: one for each check of WellFormed -/

def reqOf (g : Fin 4) : Req := { ten := 1, gen := g, queue := 2, tag := 0, quiet := false, route := shortRoute }

theorem test_wf_port : (Instr.unknownCommand 0xA5).wf = false ∧ (Instr.unknownCommand 0x00).wf = true := by decide
theorem test_wf_etx_length : (Instr.etx (reqOf 2) 0x60000 2 (.inline [1]) 0 0 0).wf = false ∧ (Instr.etx (reqOf 2) 0x60000 1 (.inline [1]) 0 0 0).wf = true := by decide
theorem test_wf_etx_list : (Instr.etx (reqOf 2) 0x60000 2 (.list 4096) 0 0 0).wf = false := by decide
theorem test_wf_etx_words : (Instr.etx (reqOf 2) 0x60000 1 (.inline [1]) 0 0x1000000 0).wf = false ∧ (Instr.etx (reqOf 2) 0x60000 1 (.inline [1]) 0 0 0x10000).wf = false := by decide
theorem test_wf_erx : (Instr.erx (reqOf 2) 0x62000 1 0 0 0).wf = false ∧ (Instr.erx (reqOf 3) 0x60000 1 0 0 0).wf = false ∧ (Instr.erx (reqOf 2) 0x60000 4097 0 0 0).wf = false := by decide
theorem test_wf_gen1 : (Instr.gen1Read (reqOf 1) 0x1000000).wf = false ∧ (Instr.gen1Write (reqOf 2) 0 0).wf = false ∧ (Instr.gen1Read (reqOf 1) 4).wf = true := by decide
theorem test_wf_words : (Instr.rd32 (reqOf 1) 0).wf = false ∧ (Instr.wr32 (reqOf 2) 2 0).wf = false ∧ (Instr.rmw32 (reqOf 3) 0 0 0).wf = false ∧ (Instr.rmw32 (reqOf 2) 4 0 0).wf = true := by decide
theorem test_wf_blocks : (Instr.rdblk (reqOf 2) 0 6).wf = false ∧ (Instr.rdblk (reqOf 2) 0 0).wf = false ∧ (Instr.wrblk (reqOf 2) 0 4 (.inline [1])).wf = false ∧ (Instr.wrblk (reqOf 2) 0 4 (.list 0)).wf = true := by decide
theorem test_wf_free : (Instr.free (reqOf 2) 0 65).wf = false ∧ (Instr.free (reqOf 2) 4096 1).wf = false ∧ (Instr.free (reqOf 2) 0 0).wf = false ∧ (Instr.fence (reqOf 1)).wf = false := by decide
theorem test_wf_bits : (Instr.set (reqOf 2) 0 0).wf = false ∧ (Instr.clr (reqOf 3) 1 0).wf = false ∧ (Instr.set (reqOf 3) 0 0).wf = true := by decide
theorem test_wf_advance : (Instr.lcAdvance 3 (some [0])).wf = false ∧ (Instr.lcAdvance 2 (some (List.replicate 16 0))).wf = false ∧ (Instr.lcAdvance 3 none).wf = true := by decide
theorem test_wf_response : (Instr.vchalResponse [0]).wf = false ∧ (Instr.bypass 0x10).wf = false ∧ (Instr.bypass 0x05).wf = true := by decide
theorem test_wf_identity : (Instr.eepromReadDone (.data [0])).wf = false ∧ (Instr.eepromReadDone .noAck).wf = true ∧ (Instr.writebackVerify [0]).wf = false := by decide
theorem test_wf_windows : (Instr.windowWrite 4 2 0).wf = false ∧ (Instr.registerWrite 4 0x4001 0).wf = false ∧ (Instr.registerWrite 4 0x4000 0).wf = true := by decide

/-! ## The spec's own examples -/

/-- TS reads `v` at address `a`. -/
abbrev reads (s : State) (a v : Nat) : Prop := ((load s).regRead 4 a).2 = (stOK, v)

/-- A command leads to a state of which `P` holds. -/
def leads (i : Instr) (s : State) (P : State → Bool) : Bool := match exec i s with
  | .next t => P t
  | .fault _ => false
  | .refused _ => false

/-- DIE_STATUS of the counter card's unit (chapter 1, Worked example). -/
theorem test_die_status : reads { unit with dev.ring.addr := 5, dev.img.bank := 1, dev.pins.hostsel := 2, dev.bar.beaconIn := true, dev.bar.bSupply := true } 0x00018 0x2050F := by decide +kernel

/-- The dip at slot 9: BROWN_A once the notice has ended (chapter 4, Worked example). -/
theorem test_brown_a : leads (.brownNoticeEnd 68 180 0 0) { unit with dev.sup := { unit.dev.sup with notice := true, aBrown := true, raisedA := true } } (fun t => decide (reads t 0x0100C 0xB444) && !t.dev.sup.notice) = true := by decide +kernel

/-- The stuck release of the valve card's unit: RST_STATUS and RST_CAUSE (chapter 5, Worked example). -/
theorem test_rst_stuck : reads { unit with dev.rst := { unit.dev.rst with last := 3, lowS := 20, sup := 2, stuckHold := true } } 0x02004 0x0C06 ∧
    reads { unit with dev.rst := { unit.dev.rst with last := 3, lowS := 20, sup := 2 } } 0x02008 0x1403 := by decide +kernel
theorem test_rst_rearm : leads .rearm { unit with dev.rst := { unit.dev.rst with sup := 2, stuckHold := true }, dev.pins.rstn := true } (fun t => decide (reads t 0x02004 0x0C05)) = true := by decide +kernel

/-- The valve card's unit: FUS_LCS in SEALED, after the advance, in FIELD, and with vendor debug open in RETURN (chapter 6, Worked example). -/
theorem test_fus_lcs : reads { unit with dev.fus.keyOk := true } 0xE0000 0x09 ∧ reads { unit with dev.fus := { unit.dev.fus with lcs := 2, keyOk := true } } 0xE0000 0x0A ∧
    reads { unit with dev.fus := { unit.dev.fus with lcs := 3, vdbg := true } } 0xE0000 0x13 := by decide +kernel
theorem test_fus_advance : leads (.lcAdvance 2 none) { unit with dev.fus.keyOk := true } (fun t => decide (reads t 0xE0000 0x49)) = true := by decide +kernel

/-- The header of T1's read over one hop (Table 7.11). -/
theorem test_hcrc : ({ dst := 5, urg := false, rfl' := false, orig := 3, gen := 1, ten := 1, type := 1, seq := 0x31, len := 9, hops := 0, payload := List.replicate 9 0 } : Frame).bytes.take 10 =
    [0x05, 0x03, 0x05, 0x01, 0x31, 0x00, 0x09, 0x00, 0x00, 0x22] := by decide +kernel

/-- T1's short-form read of DEV_ID: its CRC-8, and its reply (chapter 8, Worked example). -/
theorem test_short_crc : crc8 [0x10, 0, 0, 0, 0, 0, 0, 0] = 0x37 := by decide +kernel
theorem test_short_read : leads (.sendShort [0x10, 0, 0, 0, 0, 0, 0, 0, 0x37]) { State.reset with dev.img := { woven := true, cfg := { tens := [{}, { gen := 1, minT := 1, maxT := 4 }] } }, dev.hpt.shortTen := 1, dev.hpt.tmask := 0x1F, dev.tens := [{}, { gen := 1 }, {}, {}, {}], dev.pool.tktFree := [0] }
    (fun t => t.dev.hpt.rq.map (fun r => (r.short, r.err, r.bytes.take 8)) == [(true, false, [0x10, 0, 0, 0, 0x4C, 0x7A, 0x24, 0x51])]) = true := by decide +kernel

/-- Stream S1 of T0 (Table 8.19), its counters, and the FORMAT error of a 40-byte Gen2 frame. -/
theorem test_alive : let s : StreamCfg := { alive := 2, gap := 2 }
    ({ last := 0x3E, seen := true } : StreamSt).alive s 0x3F = some { last := 0x3F, seen := true } ∧ ({ last := 0x3F, seen := true } : StreamSt).alive s 0x3F = none ∧
    ({ last := 0x3F, seen := true } : StreamSt).alive s 0x42 = some { last := 0x42, seen := true, gaps := 2 } ∧ ({ last := 0x42, seen := true } : StreamSt).alive s 0x47 = none := by decide
theorem test_stream_regs : reads { unit with dev.tens := [{ streams := [(1, { last := 0x43, seen := true, gaps := 2, stale := 2 })] }] } 0x10044 0x0202 ∧
    reads { unit with dev.tens := [{ streams := [(1, { last := 0x43, seen := true, gaps := 2, stale := 2 })] }] } 0x10084 0x10043 := by decide +kernel
theorem test_last_err : reads { unit with dev.hpt.lastErr := (7, 3, 2) } 0x04018 0x20307 := by decide +kernel

/-- T2's buffers and its double free (chapter 9, Worked example). -/
theorem test_buf_tag : ({ next := 0xA3D, owned := true, ten := 2, ticket := 0x17A } : BufTag).tag = 0x05E92A3D ∧ ({ last := true, owned := true, ten := 2, ticket := 0x17A } : BufTag).tag = 0x05E93000 := by decide
theorem test_ten_lasterr : reads { unit with dev.tens := [{}, {}, { lastErr := (0x20, 2, 0xA3C) }] } 0x12020 0x00A3C220 ∧ reads { unit with dev.tens := [{}, {}, { bdebt := true }] } 0x12000 2 := by decide +kernel

/-- The forward slot of entry 22: T0 has nothing waiting, and T2's make-up wins over T1's background credit (Table 10.11, slot d). -/
def bulk (t : Nat) : Pkt := { opPkt with ten := t }
theorem test_makeup : leads .bxaGrant { waiting with dev.img.cfg.arb := { slot := upto 64 (fun n => if n = 22 then 0 else 7) }, dev.arb := { waiting.dev.arb with pos := 22, makeup := [0, 0, 1, 0, 0], bgcred := [0, 4, 5, 0, 0], fifos := [[], [bulk 1], [bulk 2], [], []] } }
    (fun t => t.dev.arb.flight.any (fun f => f.pkt.ten == 2) && decide (t.dev.arb.pos = 23) && t.dev.arb.makeup == [0, 0, 0, 0, 0]) = true := by decide +kernel
theorem test_q0cap : reads { unit with dev.img.cfg.arb := { cap := [8, 0, 0, 0, 2] } } 0x30048 0x00200008 ∧ reads { unit with dev.img.cfg.arb := { weight := upto 20 (fun n => if n = 11 then 128 else 0) } } 0x30018 0x80000000 := by decide +kernel

/-- L09 through the collapse of bank 1 (chapter 11, Worked example). -/
theorem test_bar_lane : reads { unit with dev.bar.views := [(9, { cause := 2, stage := 3 })] } 0x40124 0x0602 ∧ reads { unit with dev.bar.views := [(9, { stage := 1 })] } 0x40124 0x0200 ∧
    reads { unit with dev.bar.views := [(9, { stage := 1, armed := true })] } 0x40124 0x0300 ∧ reads { unit with dev.bar.views := [(9, { level := true })] } 0x40124 0x10000 := by decide +kernel

/-- L11: LAN_OWN, and T0's overruling write in T1's window (Table 12.12). -/
def l11 (l : Lane) : State := { unit with dev.bd := { unit.dev.bd with up := 0xF, cfg := { lanes := upto 12 (fun n => if n = 11 then { mode := 2, od := true, owners := 3, policy := 2, cwin := 10 } else {}) }, lanes := [(11, l)] } }
def write11 (t : Ten) (v : Word) : Pkt := { body := .op { wr3 with addr := 0x502C0, value := v, req := { wr3.req with ten := t } }, ten := t.val }
theorem test_lan_own : ((load (l11 {})).lanRead 11 8).2 = 0x000A0043 ∧ ((load (l11 { wOpen := true, wHolder := 0, conflicts := 1, overruled := 1, lastLoser := 1 })).lanRead 11 0xC).2 = 0x01010101 ∧ ((load (l11 { code := 2, pin := true })).lanRead 11 0).2 = 0x102 := by
  decide +kernel
theorem test_overrule : leads .opPacket { l11 { code := 2, wOpen := true, wHolder := 1, wCode := 2 } with dev.bd := { (l11 { code := 2, wOpen := true, wHolder := 1, wCode := 2 }).dev.bd with inbox := [write11 0 0] } }
    (fun t => let l := t.dev.bd.lane 11
      decide (l.code = 0 ∧ l.wOpen = true ∧ l.wHolder = 0 ∧ l.overruled = 1 ∧ l.lastLoser = 1)) = true := by decide +kernel

/-- E0 of the relay card's unit, and ENG_LASTF after the collapse of its data bank (chapter 13, Worked example). -/
def e0 : EngCfg := { mode := 1, owner := 0, gbase := 8, gcount := 8, roles := 0x3130, tim0 := 0x14040A04, tim1 := 4 }
theorem test_eng_cfg : ((load (engine e0 {})).engRead 0 0).2 = 0x00080801 ∧ ((load (engine e0 {})).engRead 0 4).2 = 0x3130 ∧ ((load (engine e0 { lastF := (0, 0x31, 3) })).engRead 0 0x2C).2 = 0x00033100 := by decide +kernel

/-- CK1: its registers, and the feed of "89" that ends the check string (Table 14.11). -/
def ck1 : CkCfg := { width := 16, fowner := 4, alw := 2, engine := 2, en := true, dir := true, order := true, poly := 0x1021, init := 0xFFFF, ref := 0x29B1 }
theorem test_crc16 : crc ck1.params [0x31, 0x32, 0x33, 0x34, 0x35, 0x36, 0x37, 0x38, 0x39] = 0x29B1 := by decide +kernel
theorem test_ck_regs : ck1.cfgReg = 0x2410 ∧ ck1.bindReg = 0x3A := by decide
theorem test_ck_feed : leads (.ckFeed 4 1 0x02003938) { unit with dev.img.cfg.cks := [{}, ck1], dev.cks := [{}, { run := BitVec.ofNat 32 (crcFold ck1.params 0xFFFF [0x31, 0x32, 0x33, 0x34, 0x35, 0x36, 0x37]) }] } (fun t => decide (reads t 0x7005C 0x29B1)) = true := by
  decide +kernel

/-- T2 blocked by an F in its domain: ACTIVE, STANDING, and cleared by FLT_ACK 0x0220 (chapter 15, Worked example). -/
theorem test_flt_dom : reads (slotted 0x20 2 2 1 0) 0x80018 0x20000050 ∧ leads (.quietEnd 2 2) (slotted 0x20 2 2 1 0) (fun t => decide (reads t 0x80018 0x20000060)) = true ∧
    leads (.fltAck 4 0x20 2) (slotted 0x20 2 2 2 0) (fun t => decide (reads t 0x80018 0) && !t.dev.barred 2) = true := by decide +kernel

/-- The return of TPI at the slot 3 unit: STEP_PEND, then the step (Table 16.7). -/
theorem test_tim_pend : leads .tpi (timed { now := 47000150400, mono := 47000150400, candTpi := some 46000147200, state := 2, tset := true, stepno := 4, chunkQ := 1 }) (fun t => decide (reads t 0x90010 0x00040235 ∧ reads t 0x90028 0x00024B80)) = true := by
  decide +kernel
theorem test_tim_step : leads .tpi (timed { now := 48000153600, mono := 48000153600, candTpi := some 47000150400, state := 1, src := 1, tset := true, stepPend := true, stepno := 4, chunkQ := 0 })
    (fun t => decide (reads t 0x90010 0x00050031 ∧ t.dev.tim.now = 48000000000)) = true := by decide +kernel

/-- The straps of the counter card, and IDN_WBSTAT and IDN_EE of the valve card's unit (chapter 17, Worked example). -/
theorem test_straps : leads (.strapPhaseEnd 0x0D) (read { strapEn := true, strapMask := 0xFF } { phase := 1, strap1 := some 0xFD }) (fun t => decide (t.dev.bd.probe.sum.strapH = 0x0D ∧ t.dev.bd.probe.sum.strapZ = 0xF0)) = true := by decide +kernel
theorem test_wbstat : leads .statusPage0 { logged 2 4 0 0xF with dev.bd := { (logged 2 4 0 0xF).dev.bd with outS := [({ body := .page0 0 7 0 true 0 false 0 [] 3 } : Pkt)] } } (fun t => decide (reads t 0xA0018 0x220)) = true := by decide +kernel
theorem test_idn_ee : reads { unit with dev.idn := { eestat := 2, tsirOk := true, bOk := true } } 0xA0008 0x16 := by decide +kernel

/-- IMG_RESULT of a hot weave that ends, and of one without an image (chapter 20, Worked example; Table 20.4). -/
theorem test_img_result : reads { unit with dev.img := { unit.dev.img with code := 1, ten := 4, action := 1 } } 0xD0008 0x000C0001 ∧ leads (.hot 4 0x6C4D) (banked true true (List.replicate 64 0)) (fun t => decide (reads t 0xD0008 0x000C0010)) = true := by
  decide +kernel

end Sys2Proof.Tests
end

/-! Registers: what a register reads at reset, and what REGISTER_WRITE of a rack die register does. -/

namespace Sys2Proof.Machine

/-! ## Register writes by command -/

section
variable {s : State} {t : Ten} {a v : BitVec 32}

/-- REGISTER_WRITE of a rack die register, for a tenant whose commands are not turned away, runs the block's own write and records its status. -/
theorem registerWrite_done {x : W} {st : Nat} (r : s.rack) (hw : s.writer t) (hb : isBoardAddr a.toNat = false)
    (k : (load s).regWrite t.val a.toNat v.toNat none false = (x, some st)) (q : x.rq = []) (l : x.dev.log.lstate ≠ 4) :
    exec (.registerWrite t a v) s = .next (commit s (x.ack st)) := by
  refine rackRun_next r (v := x.ack st) ⟨?_, q, l⟩
  dsimp only
  rw [if_neg (by rw [hb]; exact Bool.false_ne_true)]
  exact act_done _ _ _ _ hw.1 _ _ k

/-- A register write that answers `st` and changes nothing leaves the access record alone changed. -/
theorem registerWrite_unchanged {st : Nat} (r : s.rack) (hw : s.writer t) (hb : isBoardAddr a.toNat = false)
    (k : (load s).regWrite t.val a.toNat v.toNat none false = (load s, some st)) :
    exec (.registerWrite t a v) s = .next { s with dev.acc := { status := st, value := 0 } } :=
  registerWrite_done r hw hb k rfl r.2

theorem registerWrite_barred (r : s.rack) (h : s.dev.barred t.val = true) (hb : isBoardAddr a.toNat = false) :
    exec (.registerWrite t a v) s = .next s.denied := by
  refine rackRun_next r (v := (load s).ack stDENIED) ⟨?_, rfl, r.2⟩
  dsimp only
  rw [if_neg (by rw [hb]; exact Bool.false_ne_true)]
  exact if_pos h

theorem registerWrite_noWord (r : s.rack) (hw : s.writer t) (hb : isBoardAddr a.toNat = false)
    (h : a.toNat % 4 ≠ 0 ∨ isMapped a.toNat = false) : exec (.registerWrite t a v) s = .next s.denied := by
  refine registerWrite_unchanged r hw hb (if_pos ?_)
  rcases h with h | h
  · exact .inl h
  · exact .inr (.inl (by rw [h]; rfl))

end

/-! ## The block that a write reaches -/

theorem rackWord_ten (a : Nat) (q : a % 4 = 0) (l : 0x10000 ≤ a) (u : a < 0x15000) : rackWord a := by
  refine ⟨q, ?_, ?_⟩
  · simp only [isMapped, Bool.or_eq_true, Bool.and_eq_true, decide_eq_true_eq]
    omega
  · simp only [isBoardAddr, Bool.or_eq_false_iff, Bool.and_eq_false_iff, decide_eq_false_iff_not]
    omega

section
variable (w : W) (t v : Nat) (tk : Option Nat) (b : Bool) (a : Nat) (h : rackWord a) (f : w.fatalBars t a = false)
include h f

theorem regWrite_id (u : a < 0x1000) : w.regWrite t a v tk b = (w, some stOK) := by
  unfold W.regWrite
  rw [if_neg (regWrite_gate w t a h f), if_pos u]

theorem regWrite_ten (l : 0x10000 ≤ a) (u : a < 0x20000) :
    w.regWrite t a v tk b = if !mayPage t a then (w, some stDENIED)
      else if a % 0x1000 = 0xFC then doneWrite (w.tenResetAsk t ((a - 0x10000) / 0x1000) v) else (w, some stOK) := by
  unfold W.regWrite
  rw [if_neg (regWrite_gate w t a h f)]
  iterate 5 rw [if_neg (by omega)]
  rw [if_pos u]

theorem regWrite_pool (l : 0x20000 ≤ a) (u : a < 0x30000) : w.regWrite t a v tk b = (w, some stDENIED) := by
  unfold W.regWrite
  rw [if_neg (regWrite_gate w t a h f)]
  iterate 6 rw [if_neg (by omega)]
  rw [if_pos u]

theorem regWrite_fus (l : 0xE0000 ≤ a) (u : a < 0x100000) : w.regWrite t a v tk b = (w, some stDENIED) := by
  unfold W.regWrite
  rw [if_neg (regWrite_gate w t a h f)]
  iterate 16 rw [if_neg (by omega)]
  rw [if_pos u]

theorem regWrite_buf (l : 0x100000 ≤ a) (u : a < 0x200000) :
    w.regWrite t a v tk b = doneWrite (w.bufWrite t (a - 0x100000) v) := by
  unfold W.regWrite
  rw [if_neg (regWrite_gate w t a h f)]
  iterate 17 rw [if_neg (by omega)]
  rw [if_pos u]

end

/-! ## The blocks' own writes (R22, R23, R170) -/

theorem hptWrite_ctrl (w : W) (t v : Nat) : w.hptWrite t 0 v =
    if t ≠ 4 ∨ 4 < v % 8 then (w, stDENIED) else (w.modHpt (fun h => { h with shortTen := v % 8 }), stOK) := rfl

theorem bufWrite_owner (w : W) (t o v : Nat) (own : (w.dev.pool.buf (o / 64)).owned = true) (ten : (w.dev.pool.buf (o / 64)).ten = t) :
    w.bufWrite t o v = (w.pokeBuf o (le 4 v), stOK) := if_pos (by simp [own, ten])

theorem mayPage_iff (t : Ten) (a : Nat) : mayPage t.val a = true ↔ t = 4 ∨ t.val = (a - 0x10000) / 0x1000 := by
  simp only [mayPage, Bool.or_eq_true, beq_iff_eq]
  exact or_congr_left (Fin.ext_iff (a := t) (b := 4)).symm

/-! ## Register writes by command, block by block -/

section
variable {s : State} {t : Ten} {a v : BitVec 32} (r : s.rack) (hw : s.writer t)
include r hw

theorem registerWrite_id (q : a.toNat % 4 = 0) (u : a.toNat < 0x1000) : exec (.registerWrite t a v) s = .next s.okAcc := by
  have m := mapped_of a.toNat (by omega)
  exact registerWrite_unchanged r hw m.2 (regWrite_id _ _ _ _ _ _ ⟨q, m⟩ (fatalBars_calm _ _ _ hw.2) u)

/-- Neither the POOL block nor the FUS block has a writable register. -/
theorem registerWrite_readOnly (q : a.toNat % 4 = 0)
    (h : (0x20000 ≤ a.toNat ∧ a.toNat < 0x30000) ∨ (0xE0000 ≤ a.toNat ∧ a.toNat < 0xF0000)) :
    exec (.registerWrite t a v) s = .next s.denied := by
  have m := mapped_of a.toNat (by omega)
  have f := fatalBars_calm (load s) t.val a.toNat hw.2
  refine registerWrite_unchanged r hw m.2 ?_
  rcases h with ⟨l, u⟩ | ⟨l, u⟩
  · exact regWrite_pool _ _ _ _ _ _ ⟨q, m⟩ f l u
  · exact regWrite_fus _ _ _ _ _ _ ⟨q, m⟩ f l (by omega)

/-! ## HPT -/

/-- A write in the HPT block that answers at once, as the block's own write gives it. -/
theorem registerWrite_hpt (off : Nat) (e : a.toNat = 0x4000 + off) (q : off % 4 = 0) (u : off < 0x1000) {x : W} {st : Nat}
    (k : (load s).hptWrite t.val off v.toNat = (x, st)) (hq : x.rq = []) (hl : x.dev.log.lstate ≠ 4) :
    exec (.registerWrite t a v) s = .next (commit s (x.ack st)) := by
  have m := mapped_of a.toNat (by omega)
  refine registerWrite_done r hw m.2 ?_ hq hl
  rw [regWrite_hpt _ _ _ _ _ _ ⟨by omega, m⟩ (fatalBars_calm _ _ _ hw.2) (by omega) (by omega), e, Nat.add_sub_cancel_left, k]
  rfl

theorem registerWrite_hptCtrl (e : a.toNat = 0x4000) :
    exec (.registerWrite t a v) s = .next (if t = 4 ∧ v.toNat % 8 ≤ 4
      then { s with dev.hpt := { s.dev.hpt with shortTen := v.toNat % 8 } }.okAcc else s.denied) := by
  by_cases h : t = 4 ∧ v.toNat % 8 ≤ 4
  · obtain ⟨rfl, hv⟩ := h
    rw [if_pos ⟨rfl, hv⟩]
    exact registerWrite_hpt r hw 0 e rfl (by omega) ((hptWrite_ctrl _ _ _).trans (if_neg (fun n => n.elim (fun k => k rfl) (by omega)))) rfl r.2
  · rw [if_neg h]
    have n : t.val ≠ 4 ∨ 4 < v.toNat % 8 := by
      by_contra c
      exact h ⟨Fin.ext (by show t.val = 4; omega), by omega⟩
    exact registerWrite_hpt r hw 0 e rfl (by omega) ((hptWrite_ctrl _ _ _).trans (if_pos n)) rfl r.2

/-- What one of TS's own HPT registers takes: `put` writes it, and any other tenant is refused. -/
theorem registerWrite_hptOwn (off : Nat) (e : a.toNat = 0x4000 + off) (q : off % 4 = 0) (u : off < 0x1000) (put : HostPort → HostPort)
    (k : (load s).hptWrite t.val off v.toNat = if t.val ≠ 4 then (load s, stDENIED) else ((load s).modHpt put, stOK)) :
    exec (.registerWrite t a v) s = .next (if t = 4 then { s with dev.hpt := put s.dev.hpt }.okAcc else s.denied) := by
  by_cases h : t = 4
  · subst h
    rw [if_pos rfl]
    exact registerWrite_hpt r hw off e q u (k.trans (if_neg (fun n => n rfl))) rfl r.2
  · rw [if_neg h]
    exact registerWrite_hpt r hw off e q u (k.trans (if_pos (fun n => h (Fin.ext n)))) rfl r.2

theorem registerWrite_hptTenmask (e : a.toNat = 0x4004) :
    exec (.registerWrite t a v) s = .next (if t = 4 then { s with dev.hpt := { s.dev.hpt with tmask := v.setWidth 5 } }.okAcc else s.denied) := by
  have k := registerWrite_hptOwn r hw (v := v) 4 e rfl (by omega) (fun h => { h with tmask := BitVec.ofNat 5 v.toNat }) rfl
  simpa only [BitVec.ofNat_toNat] using k

theorem registerWrite_hptIrqen (e : a.toNat = 0x4010) :
    exec (.registerWrite t a v) s = .next (if t = 4 then { s with dev.hpt := { s.dev.hpt with irqEn := v.setWidth 8 } }.okAcc else s.denied) := by
  have k := registerWrite_hptOwn r hw (v := v) 0x10 e rfl (by omega) (fun h => { h with irqEn := BitVec.ofNat 8 v.toNat }) rfl
  simpa only [BitVec.ofNat_toNat] using k

theorem registerWrite_hptIrq (e : a.toNat = 0x400C) :
    exec (.registerWrite t a v) s = .next ({ s with dev.hpt := { s.dev.hpt with
      irqDrop := s.dev.hpt.irqDrop && !(decide (t = 4) && v.getLsbD 1)
      irqErr := s.dev.hpt.irqErr && !(decide (t = 4) && v.getLsbD 2)
      irqTen := s.dev.hpt.irqTen &&& ~~~((v.extractLsb' 3 5) &&& (if t = 4 then 31#5 else 1#5 <<< t.val)) } }.okAcc) := by
  rw [← clearIrq_eq]
  exact registerWrite_hpt r hw 0xC e rfl (by omega) (st := stOK) (x := (load s).modHpt (fun h => h.clearIrq t.val v.toNat)) rfl rfl r.2

/-! ## TEN pages -/

theorem registerWrite_otherPage (q : a.toNat % 4 = 0) (l : 0x10000 ≤ a.toNat) (u : a.toNat < 0x15000)
    (h : ¬ mayPage t.val a.toNat = true) : exec (.registerWrite t a v) s = .next s.denied := by
  have m := rackWord_ten a.toNat q l u
  refine registerWrite_unchanged r hw m.2.2 ?_
  rw [regWrite_ten _ _ _ _ _ _ m (fatalBars_calm _ _ _ hw.2) l (by omega), if_pos (by simpa using h)]

theorem registerWrite_ownPage (q : a.toNat % 4 = 0) (l : 0x10000 ≤ a.toNat) (u : a.toNat < 0x15000)
    (h : mayPage t.val a.toNat = true) (n : a.toNat % 0x1000 ≠ 0xFC) : exec (.registerWrite t a v) s = .next s.okAcc := by
  have m := rackWord_ten a.toNat q l u
  refine registerWrite_unchanged r hw m.2.2 ?_
  rw [regWrite_ten _ _ _ _ _ _ m (fatalBars_calm _ _ _ hw.2) l (by omega), if_neg (by simp [h]), if_neg n]

/-! ## Buffer window -/

/-- The buffer's owner writes its word, in the buffer RAM alone. -/
theorem registerWrite_buf (o : Nat) (e : a.toNat = 0x100000 + o) (u : o < 0x40000) (q : o % 4 = 0)
    (own : (s.dev.pool.buf (o / 64)).owned = true) (ten : (s.dev.pool.buf (o / 64)).ten = t.val) :
    exec (.registerWrite t a v) s = .next { s.okAcc with bufs := writeAll s.bufs ((load s).pokeBuf o (le 4 v.toNat)).bout } := by
  have m := mapped_of a.toNat (by omega)
  refine registerWrite_done (x := (load s).pokeBuf o (le 4 v.toNat)) (st := stOK) r hw m.2 ?_ rfl r.2
  rw [regWrite_buf _ _ _ _ _ _ ⟨by omega, m⟩ (fatalBars_calm _ _ _ hw.2) (by omega) (by omega), e, Nat.add_sub_cancel_left]
  rw [bufWrite_owner (load s) _ _ _ own ten]
  rfl

end

theorem mget_pokeBuf {m : Mem} (hm : Memory.wf m = true) (w : W) (hw : w.bout = []) (o : Nat) (bs : List Byte) (n : Nat) :
    mget (writeAll m (w.pokeBuf o bs).bout) n = if o ≤ n ∧ n < o + bs.length then bs.getD (n - o) 0 else mget m n := by
  rw [mget_writeAll hm, pokeBuf_bout, hw, List.range_eq_range', poke_find, Nat.add_zero]
  split <;> rfl

/-! ## Reads -/

theorem regRead_hpt (w : W) (t a : Nat) (q : a % 4 = 0) (l : 0x4000 ≤ a) (u : a < 0x5000) :
    w.regRead t a = okRead (w.hptRead (a - 0x4000)) := by
  have m := mapped_of a (by omega)
  unfold W.regRead
  rw [if_neg (by simp [q, m.1, m.2])]
  iterate 4 rw [if_neg (by omega)]
  rw [if_pos u]

theorem regRead_ten (w : W) (t a : Nat) (q : a % 4 = 0) (l : 0x10000 ≤ a) (u : a < 0x15000) :
    w.regRead t a = if mayPage t a then okRead (w.tenRead ((a - 0x10000) / 0x1000) (a % 0x1000)) else (w, stDENIED, 0) := by
  obtain ⟨-, hm, hb⟩ := rackWord_ten a q l u
  unfold W.regRead
  rw [if_neg (by simp [q, hm, hb])]
  iterate 5 rw [if_neg (by omega)]
  rw [if_pos (by omega)]

theorem regRead_ten_status (w : W) (t : Ten) (a : Nat) (q : a % 4 = 0) (l : 0x10000 ≤ a) (u : a < 0x15000) :
    (w.regRead t a).2.1 = if t = 4 ∨ t.val = (a - 0x10000) / 0x1000 then stOK else stDENIED := by
  rw [regRead_ten w t a q l u]
  simp only [mayPage_iff]
  split <;> rfl

/-- Settles O60: at reset each register's read evaluates to its table's value (the POOL block counts its free lists, `pool_reset`); a write is
followed to its block, whose own write says the rest. -/
theorem registers : Obligations.Registers := by
  unfold Obligations.Registers
  dsimp only
  refine ⟨?_, fun s t a v r => ⟨registerWrite_barred r, fun hw => ⟨registerWrite_noWord r hw, registerWrite_id r hw, registerWrite_readOnly r hw,
    registerWrite_hptCtrl r hw, registerWrite_hptTenmask r hw, registerWrite_hptIrqen r hw, registerWrite_hptIrq r hw, ?_, ?_, ?_⟩⟩⟩
  · exact ⟨
      /- ID -/ rfl, rfl, rfl, rfl, rfl, rfl, rfl, rfl, rfl,
      /- SUP -/ rfl, rfl, rfl, rfl, rfl, rfl, rfl,
      /- RST -/ rfl, rfl,
      /- HPT -/ rfl, rfl, rfl, rfl, rfl, rfl, rfl,
      /- TEN -/ rfl, rfl, rfl, rfl, rfl, rfl, rfl, rfl, rfl,
      /- POOL -/ pool_reset.1, pool_reset.2, rfl, rfl,
      /- ARB -/ rfl, rfl, rfl, rfl, rfl, rfl, rfl, rfl, rfl⟩
  · intro q l u
    rw [regRead_hpt _ _ _ q l u]
    rfl
  · intro q l u
    exact ⟨regRead_ten_status _ _ _ q l u, fun h => registerWrite_otherPage r hw q l u (fun k => h ((mayPage_iff _ _).mp k)),
      fun h => registerWrite_ownPage r hw q l u ((mayPage_iff _ _).mpr h)⟩
  · intro inv o e u q own ten
    refine ⟨_, registerWrite_buf r hw o e u q own ten, rfl, fun n => ?_⟩
    have k := mget_pokeBuf inv.2 (load s) rfl o (le 4 v.toNat) n
    rwa [length_le] at k

end Sys2Proof.Machine

/-! Requests: an operation that a command names takes a ticket and waits in its queue. -/

namespace Sys2Proof.Machine

/-- The operation moves no data through buffers: it names no buffer list, takes no buffer, and its BUF field is empty or a FREE's own (R161). -/
def Op.dataless (o : Op) : Prop := o.lists = false ∧ o.takes = false ∧ (o.buf = 0xFFFF ∨ o.kind = .free)

/-- A request in the form its generation gives it: an item of Gen3 stays one, any other is a descriptor of Gen2. -/
def itemOrGen2 (r : Req) : Req := if r.gen = 3 then { r with gen := 3 } else { r with gen := 2 }

theorem itemOrGen2_item {r : Req} (h : r.gen = 3) : itemOrGen2 r = r := by
  rw [itemOrGen2, if_pos h, ← h]

theorem itemOrGen2_gen2 {r : Req} (h : r.gen ≠ 3) : itemOrGen2 r = asGen2 r := if_neg h

/-- A meaning sees the state through its working record alone. -/
theorem rackRun_congr {f g : W → W} {s : State} (h : f (load s) = g (load s)) : rackRun f s = rackRun g s := by
  have e : onRack f (load s) = onRack g (load s) := by
    unfold onRack
    rw [h]
  rw [rackRun, rackRun, runW, runW, e]

section
variable {s : State} (r : s.rack) (c : s.contended)
include r c

theorem request_waits {o : Op} (d : o.dataless) (g : o.req.gen ≠ 3) (f : s.fits o) :
    rackRun (fun w => w.request o) s = .next (s.waits o) := by
  obtain ⟨noList, noTake, buf⟩ := d
  exact goes_request s o r c f g noList noTake buf

theorem requestItem_waits {o : Op} (d : o.dataless) (g : o.req.gen = 3) (f : s.fits o) :
    rackRun (fun w => w.requestItem o) s = .next (s.waits o) := by
  obtain ⟨noList, noTake, buf⟩ := d
  exact goes_item s o r c f g noList noTake buf

/-- RD32 and WR32 wait in the form of their tenant's generation (R162, R163). -/
theorem either_waits {o : Op} (d : o.dataless) (f : s.fits { o with req := itemOrGen2 o.req }) :
    rackRun (fun w => w.either o) s = .next (s.waits { o with req := itemOrGen2 o.req }) := by
  by_cases g : o.req.gen = 3
  · have e : W.either (load s) o = (load s).requestItem o := if_pos g
    rw [itemOrGen2_item g] at f ⊢
    exact (rackRun_congr e).trans (requestItem_waits r c d g f)
  · have e : W.either (load s) o = (load s).request { o with req := asGen2 o.req } := if_neg g
    rw [itemOrGen2_gen2 g] at f ⊢
    exact (rackRun_congr e).trans (request_waits r c d (by show (2 : Fin 4) ≠ 3; decide) f)

/-- The register at offset `off` of an engine's block, written or read by command, takes a request's path (R11, R21). -/
theorem engineAccess_waits {t : Ten} {e : Fin 8} {k : OpKind} {off v : Nat} {x : BitVec 32} (hx : BitVec.ofNat 32 v = x) (hk : k = .wr ∨ k = .rd)
    (f : s.fits (s.portOp t k (0x60000 + off + 0x400 * e) x)) :
    rackRun (fun w => w.boardAccess t k (engAt e + off) v) s = .next (s.waits (s.portOp t k (0x60000 + off + 0x400 * e) x)) := by
  have addr : 0x60000 + off + 0x400 * e.val = engAt e + off := by
    rw [engAt]
    omega
  rw [addr] at f ⊢
  exact goes_port s t k _ v x hx r c f hk

/-- A board die register written by command takes a request's path (R11). -/
theorem registerWrite_waits {t : Ten} {a v : BitVec 32} (b : isBoardAddr a.toNat = true) (f : s.fits (s.portOp t .wr a.toNat v)) :
    exec (.registerWrite t a v) s = .next (s.waits (s.portOp t .wr a.toNat v)) := by
  have e : exec (.registerWrite t a v) s = rackRun (fun w => w.boardAccess t .wr a.toNat v.toNat) s := rackRun_congr (if_pos b)
  exact e.trans (goes_port s t .wr a.toNat v.toNat v (by simp) r c f (.inl rfl))

end

/-- Settles O36: each command runs its request, item or board access with an operation that moves no data through buffers, so the
submission adds the ticket and its place in the queue alone, and a contended arbiter does not grant it at once. The generation
and queue of an access without a request, and the message of a single item, are the model's choice (log entry 100). -/
theorem requestsQueue : Obligations.RequestsQueue := by
  unfold Obligations.RequestsQueue
  intro s q a v m x n t e r c
  have ne1 : (1 : Fin 4) ≠ 3 := by decide
  have ne2 : (2 : Fin 4) ≠ 3 := by decide
  exact ⟨
    /- GEN1_READ -/ request_waits r c ⟨rfl, rfl, .inl rfl⟩ ne1,
    /- GEN1_WRITE -/ request_waits r c ⟨rfl, rfl, .inl rfl⟩ ne1,
    /- RD32 -/ either_waits r c (o := { kind := .rd, req := q, addr := a }) ⟨rfl, rfl, .inl rfl⟩,
    /- WR32 -/ either_waits r c (o := { kind := .wr, req := q, addr := a, value := v }) ⟨rfl, rfl, .inl rfl⟩,
    /- RMW32 -/ request_waits r c ⟨rfl, rfl, .inl rfl⟩ ne2,
    /- SET -/ requestItem_waits r c ⟨rfl, rfl, .inl rfl⟩ rfl,
    /- CLR -/ requestItem_waits r c ⟨rfl, rfl, .inl rfl⟩ rfl,
    /- FREE -/ request_waits r c ⟨rfl, rfl, .inr rfl⟩ ne2,
    /- FENCE -/ request_waits r c ⟨rfl, rfl, .inl rfl⟩ ne2,
    /- ENG_TXW -/ engineAccess_waits r c (off := 0x18) (v := v.toNat) (by simp) (.inl rfl),
    /- ENG_RXW -/ engineAccess_waits r c (off := 0x1C) rfl (.inr rfl),
    /- ENG_OCW -/ engineAccess_waits r c (off := 0x20) (v := v.toNat) (by simp) (.inl rfl),
    /- FLUSH_RX -/ engineAccess_waits r c (off := 0x24) rfl (.inl rfl),
    /- REGISTER_WRITE -/ registerWrite_waits r c⟩

end Sys2Proof.Machine

/-! Modes: STANDBY and ACTIVE with the lamplighter's packet, DORMANT, and the wake from it. -/

namespace Sys2Proof.Machine

/-! ## Mode requests (R82, R83) -/

theorem mayStandby_iff (d : Dev) :
    d.mayStandby = true ↔ d.sup.mode = 0 ∧ ¬ (d.boardTkts ≠ [] ∨ ∃ e < 8, (d.bd.eng e).st = 1) := by
  have k := boardTkts_bound d
  have engines : (List.range 8).all (fun e => (d.bd.eng e).st != 1) = true ↔ ¬ ∃ e < 8, (d.bd.eng e).st = 1 := by
    simp
  rw [not_or, not_not, ← k, ← engines, Dev.mayStandby]
  simp [and_assoc]

theorem mayDormant_iff (d : Dev) : d.mayDormant = true ↔ d.sup.mode ≠ 2 ∧ d.boardTkts = [] := by
  rw [← boardTkts_bound d, Dev.mayDormant]
  simp

theorem rack_notDormant {s : State} (r : s.rack) : s.dev.sup.mode ≠ 2 := by
  have h := r.1
  rw [Dev.rackOn] at h
  simp only [Bool.and_eq_true, bne_iff_ne] at h
  exact h.2

/-- Recording leaves the access record alone, so an acknowledgement after it is as good as before. -/
theorem W.SameButLog.ack {a b : W} (h : a.SameButLog b) (st : Nat) : (a.ack st).SameButLog (b.ack st) := by
  refine ⟨?_, h.2⟩
  rw [h.1]
  rfl

/-- The record with the lamplighter's packet ready: a KEEPALIVE, or a REFRESH. -/
def W.lit (w : W) (keep : Bool) : W := w.modArb (fun a => { a with lamp := some (w.lampPkt keep) })

section
variable {s : State} (r : s.rack) (h : s.writer 4) {v : Nat}
include r h

/-- TS's request for a mode that cannot be met (log entry 12). -/
theorem modeRequest_denied (e : (load s).supMode 4 (fld v 0 2) = (load s, stDENIED)) :
    writeRun 4 0x1018 v s = .next s.denied := sup_mode s r h v _ _ e rfl r.2

/-- TS's request that leads to the record `w` and lets the lamplighter send: a KEEPALIVE in STANDBY, a REFRESH in ACTIVE. -/
theorem modeRequest_lit {w : W} {keep : Bool} (e : (load s).supMode 4 (fld v 0 2) = ((if keep then W.keepalive else W.lampTref) w, stOK))
    (hm : w.dev.sup.mode = if keep then 1 else 0) (q : w.rq = []) (l : w.dev.log.lstate ≠ 4)
    (lit : w.dev.bar.lamp = true ∧ w.dev.bar.bAlive = true ∧ w.dev.img.woven = true) :
    ∃ t, writeRun 4 0x1018 v s = .next t ∧ t = (commit s ((w.lit keep).ack stOK)).logged t := by
  have k := lit_lamp s 0 keep _ w rfl hm lit
  have q' : ((if keep then W.keepalive else W.lampTref) w).rq = [] := by
    rw [k.1]
    exact q
  exact ⟨_, sup_mode s r h v _ _ e q' (k.2 l), commit_logged s _ _ (W.SameButLog.ack k stOK)⟩

/-- The same request with the lamplighter dark. -/
theorem modeRequest_unlit {w : W} {keep : Bool} (e : (load s).supMode 4 (fld v 0 2) = ((if keep then W.keepalive else W.lampTref) w, stOK))
    (q : w.rq = []) (l : w.dev.log.lstate ≠ 4) (dark : ¬ (w.dev.bar.lamp = true ∧ w.dev.bar.bAlive = true ∧ w.dev.img.woven = true)) :
    writeRun 4 0x1018 v s = .next (commit s (w.ack stOK)) := by
  have k : (if keep then W.keepalive else W.lampTref) w = w := by
    cases keep
    · exact (unlit w dark).2
    · exact (unlit w dark).1
  rw [k] at e
  exact sup_mode s r h v _ _ e q l

end

/-! ## Ring ports that go off and come back (R84) -/

/-- The port OFF. -/
def RingPort.off (r : RingPort) : RingPort := if r.st = 0 then r else { r with st := 0, credit := 0 }

/-- The port started again where it is enabled. -/
def RingPort.on (r : RingPort) : RingPort := if r.en then (if r.st = 0 then { r with st := 1, credit := 0 } else r) else r

theorem evalPorts_off (w : W) (h : w.portsOn = false) (up : w.dev.ring.up.st ≠ 4) (dn : w.dev.ring.dn.st ≠ 4) :
    w.evalPorts = (w.modPort .up RingPort.off).modPort .dn RingPort.off := by
  have e : w.evalPort .up = w.modPort .up RingPort.off := evalPort_off w .up h up
  rw [W.evalPorts, e]
  exact evalPort_off _ .dn h dn

theorem evalPorts_on (w : W) (h : w.portsOn = true) (up : w.dev.ring.up.en = true ∨ w.dev.ring.up.st = 0)
    (dn : w.dev.ring.dn.en = true ∨ w.dev.ring.dn.st = 0) :
    w.evalPorts = (w.modPort .up RingPort.on).modPort .dn RingPort.on := by
  have e : w.evalPort .up = w.modPort .up RingPort.on := evalPort_on w .up h up
  rw [W.evalPorts, e]
  exact evalPort_on _ .dn h dn

theorem portsOn_dormant (w : W) (h : w.dev.sup.mode = 2) : w.portsOn = false := by
  simp [W.portsOn, h]

/-! ## DORMANT (R84, R309) -/

/-- The record on its way to DORMANT: the mode set, both ports OFF, the beacon of the board die gone by order. -/
def W.portsOff (w : W) : W :=
  (((w.modSup (fun s => { s with mode := 2 })).modPort .up RingPort.off).modPort .dn RingPort.off).modBar
    (fun b => { b with ordered := true, beaconIn := false, bSupply := false })

/-- The lock of the time base kept, TPO low, and the board core off. -/
def W.coresOff (w : W) : W :=
  (w.modTim (fun t => { t with dormLocked := t.state == 1, dormT0 := t.mono, tpo := false })).modBd (fun b => { b.halted with core := false })

/-- Entry to DORMANT with ports out of RUN and nothing under way: the losses it brings are ordered and raise nothing (log entry 51). -/
theorem enterDormant_lost (w : W) (role : w.dev.pai.role ≠ 3) (up : w.dev.ring.up.st ≠ 4) (dn : w.dev.ring.dn.st ≠ 4) (tkts : w.dev.boardTkts = [])
    (rst : w.dev.tens.any (fun t => t.rst.isSome) = false) (phase : w.dev.img.phase ≠ 2) (att : w.dev.idn.astate ≠ 1) (wb : w.dev.idn.wbState ≠ 2) :
    w.enterDormant = w.portsOff.lost.coresOff := by
  have ports := evalPorts_off (w.modSup (fun s => { s with mode := 2 })) (portsOn_dormant _ rfl) up dn
  have gone : w.portsOff.boardGone = w.portsOff.lost := boardGone_lost w.portsOff tkts rst phase
  rw [W.enterDormant, if_neg role]
  dsimp only
  rw [cut_none w att wb, ports, ← gone]
  rfl

/-! ## Waking (R84) -/

/-- The board die out of its restart, before it has said anything: no tables, nothing in its queues, its presence as PRSn says. -/
def Board.restarted (b : Board) (lanes : Tbl Lane) : Board :=
  { b.halted with core := true, holdup := false, stuck := false, direct := [], chunkQ := 3, timerQ := 3, pstate := if b.prsn then 0 else 2,
                  probe := {}, rackAlive := true, lanes := lanes }

/-- The board die again, with no ticket in quarantine to end. -/
theorem boardAgain_restarted (w : W) (h : ∀ e ∈ w.dev.pool.tkts, e.2.st ≠ .quarantined) :
    ∃ l, w.boardAgain = w.withBd (w.dev.bd.restarted l).page2 := by
  obtain ⟨l, e⟩ := restart_at w w.dev.bd
  refine ⟨l, ?_⟩
  rw [W.boardAgain, show w.boardRestart = _ from e]
  exact endQuarantine_none _ h

theorem timeWake_unlocked (w : W) (h : w.dev.tim.dormLocked = false) : w.timeWake = w := by
  rw [W.timeWake, h]
  exact if_neg Bool.false_ne_true

/-- The record awake with both ports evaluated, before the board die is met. -/
def W.portsBack (w : W) : W := ((w.modSup (fun s => { s with mode := 0 })).modPort .up RingPort.on).modPort .dn RingPort.on

/-- The rack die's view of a board die that runs: alive and supplied, with its presence, its banks and no fail-safe map yet. -/
def W.met (w : W) : W :=
  let b := w.dev.bd
  (((w.modBar (fun x => { x with beaconIn := true, bAlive := true, bSupply := true, bstepSeen := true, bdown := false, ordered := false,
                                 holdSeen := none, pstate := b.pstate, prsn := b.prsn, fsmap := 0xFFFFFFFF, views := [] })).modSup
    (fun s => { s with up := b.up, low := b.low, bBrown := false })).modRst (fun r => { r with bnr := true })).modBd (fun b => { b with outS := [], rackAlive := true })

theorem meetBoard_met (w : W) (h : w.dev.bd.runs = true) : w.meetBoard = w.met := by
  unfold W.meetBoard W.met
  simp only [h, Bool.or_true, if_true]

/-- The wake with no image woven and a time base that was not LOCKED: the board die restarts and is met, and no tables are sent. -/
theorem wake_met (w : W) (mode : w.dev.sup.mode = 2) (woven : w.dev.img.woven = false) (locked : w.dev.tim.dormLocked = false) (vddb : w.dev.bd.vddb = true)
    (on : (w.modSup (fun s => { s with mode := 0 })).portsOn = true) (q : ∀ e ∈ w.dev.pool.tkts, e.2.st ≠ .quarantined)
    (up : w.dev.ring.up.en = true ∨ w.dev.ring.up.st = 0) (dn : w.dev.ring.dn.en = true ∨ w.dev.ring.dn.st = 0) :
    ∃ l, w.wake = (w.portsBack.withBd (w.dev.bd.restarted l).page2).met := by
  obtain ⟨l, again⟩ := boardAgain_restarted w.portsBack q
  refine ⟨l, ?_⟩
  have ports : (w.modSup (fun s => { s with mode := 0 })).evalPorts = w.portsBack := evalPorts_on _ on up dn
  have met : (w.portsBack.withBd (w.portsBack.dev.bd.restarted l).page2).meetBoard = _ := meetBoard_met _ rfl
  have time : (w.portsBack.withBd (w.portsBack.dev.bd.restarted l).page2).met.timeWake = _ := timeWake_unlocked _ locked
  have dark : ¬ w.dev.img.woven = true := by
    rw [woven]
    exact Bool.false_ne_true
  rw [W.wake, if_neg (not_not.mpr mode)]
  dsimp only
  rw [ports, if_pos (show w.portsBack.dev.bd.vddb = true from vddb), again, met, time]
  exact if_neg (fun x => dark x.1)

theorem portsOn_awake {s : State} (r : s.awake) (l : s.dev.log.lstate < 4) (inst : 5 ≤ s.dev.fus.inst) :
    ((load s).modSup (fun s => { s with mode := 0 })).portsOn = true := by
  have a := r.1
  rw [Dev.awake] at a
  simp only [Bool.and_eq_true, Bool.not_eq_true'] at a
  obtain ⟨held, vdda⟩ := a
  have n0 : s.dev.fus.inst ≠ 0 := by omega
  have n3 : s.dev.fus.inst ≠ 3 := by omega
  have n4 : s.dev.fus.inst ≠ 4 := by omega
  simp [W.portsOn, held, vdda, l, n0, n3, n4]

/-- Settles O42: TS's SUP_MODE request either cannot be met and is DENIED, or sets the mode, and the lamplighter sends at once where it runs;
DORMANT and the wake are followed through ports, board die and time base. That a request that cannot be met is DENIED, and that the losses DORMANT
brings raise nothing, are the model's choices (log entries 12 and 51). -/
theorem modeCommands : Obligations.ModeCommands := by
  unfold Obligations.ModeCommands
  intro s t
  dsimp only
  refine ⟨?others, ?standby, ?noStandby, ?active, ?noActive, ?boardBound, ?dormant, ?awake, ?wake⟩
  case others => exact fun r ht => ⟨sup_denied s r t ht 1, sup_denied s r t ht 3, sup_denied s r t ht 2⟩
  case standby =>
    intro r h mode idle
    have e : (load s).supMode 4 (fld 1 0 2) = (W.keepalive ((load s).modSup (fun x => { x with mode := 1 })), stOK) :=
      if_pos ((mayStandby_iff s.dev).mpr ⟨mode, idle⟩)
    exact ⟨modeRequest_lit r h (keep := true) e rfl rfl r.2, modeRequest_unlit r h (keep := true) e rfl r.2⟩
  case noStandby =>
    intro r h no
    have out : ¬ s.dev.mayStandby = true := by
      rw [mayStandby_iff]
      exact fun ⟨mode, idle⟩ => no.elim (fun x => x mode) idle
    exact modeRequest_denied r h (if_neg out)
  case active =>
    intro r h mode
    have e : (load s).supMode 4 (fld 3 0 2) =
        (W.lampTref (((load s).modSup (fun x => { x with mode := 0 })).modBar (fun b => { b with parked := false })), stOK) := if_pos mode
    exact ⟨modeRequest_lit r h (keep := false) e rfl rfl r.2, modeRequest_unlit r h (keep := false) e rfl r.2⟩
  case noActive => exact fun r h mode => modeRequest_denied r h (if_neg mode)
  case boardBound => exact fun r h tkts => modeRequest_denied r h (if_neg (fun k => tkts ((mayDormant_iff s.dev).mp k).2))
  case dormant =>
    intro r h tkts role up dn rst phase att wb
    have e : (load s).supMode 4 (fld 2 0 2) = ((load s).portsOff.lost.coresOff, stOK) := by
      rw [← enterDormant_lost (load s) role up dn tkts rst phase att wb]
      exact if_pos ((mayDormant_iff s.dev).mpr ⟨rack_notDormant r, tkts⟩)
    have pins : ∀ n, (s.dev.bd.halted.lane n).pin = (s.dev.bd.lane n).pin := by
      intro n
      rw [halted_lane]
      rfl
    exact ⟨_, sup_mode s r h 2 _ _ e rfl r.2, rfl, rfl, rfl, rfl, rfl, rfl, pins⟩
  case awake => exact fun r mode => awake_next r (load s) (if_pos mode) rfl r.2
  case wake =>
    intro r mode woven locked vddb _ l inst q up dn
    obtain ⟨lanes, e⟩ := wake_met (load s) mode woven locked vddb (portsOn_awake r l inst) q up dn
    exact ⟨_, awake_next r _ e rfl r.2, rfl, rfl, rfl, rfl, rfl, rfl⟩

end Sys2Proof.Machine

/-! The record store: window writes, the start of a line's commit, and its end. -/

namespace Sys2Proof.Machine

/-! ## Window writes (R345; Table 1.6) -/

/-- Table 1.6's rights to write the window word at `a`: the life-cycle state first, then the image banks (the active one as their records name
it), the logs, and the rest. -/
def W.maySetWord (w : W) (t : Ten) (a : Nat) : Prop :=
  ¬ (w.dev.fus.lcs = 3 ∧ w.dev.fus.vdbg = false) ∧
  (a < 0x10000 → w.dev.fus.prot.getLsbD (4 + t.val) = true ∧ w.activeBank ≠ some (a / 0x8000) ∧ w.dev.img.phase = 0 ∧ a % 0x8000 < 0x7FC0) ∧
  (0x10000 ≤ a → a < 0x30000 → t = 4 ∧ w.dev.log.lstate = 3) ∧ (0x30000 ≤ a → 0x3A000 ≤ a)

theorem winLocked_iff (d : Dev) : d.winLocked = true ↔ d.fus.lcs = 3 ∧ d.fus.vdbg = false := by
  simp [Dev.winLocked]

theorem mayWriteBank_iff (w : W) (t a : Nat) : w.mayWriteBank t a = true ↔
    w.dev.fus.prot.getLsbD (4 + t) = true ∧ w.activeBank ≠ some (a / 0x8000) ∧ w.dev.img.phase = 0 ∧ a % 0x8000 < 0x7FC0 := by
  simp [W.mayWriteBank, and_assoc]

theorem mayWriteWin_iff (w : W) (t : Ten) (a : Nat) : w.mayWriteWin t.val a = true ↔ w.maySetWord t a := by
  have ht : (t.val == 4) = true ↔ t = 4 := by
    rw [beq_iff_eq]
    exact ⟨fun x => Fin.ext x, fun x => congrArg Fin.val x⟩
  unfold W.mayWriteWin W.maySetWord
  by_cases locked : w.dev.fus.lcs = 3 ∧ w.dev.fus.vdbg = false
  · rw [if_pos ((winLocked_iff w.dev).mpr locked)]
    exact ⟨fun x => absurd x Bool.false_ne_true, fun x => absurd locked x.1⟩
  rw [if_neg (fun x => locked ((winLocked_iff w.dev).mp x))]
  by_cases bank : a < 0x10000
  · rw [if_pos bank, mayWriteBank_iff]
    exact ⟨fun x => ⟨locked, fun _ => x, fun k => by omega, fun k => by omega⟩, fun x => x.2.1 bank⟩
  rw [if_neg bank]
  by_cases log : a < 0x30000
  · rw [if_pos log, Bool.and_eq_true, ht, beq_iff_eq]
    exact ⟨fun x => ⟨locked, fun k => absurd k bank, fun _ _ => x, fun k => by omega⟩, fun x => x.2.2.1 (by omega) log⟩
  rw [if_neg log, decide_eq_true_eq]
  exact ⟨fun x => ⟨locked, fun k => absurd k bank, fun _ k => absurd k log, fun _ => x⟩, fun x => x.2.2.2 (by omega)⟩

theorem staged_iff (win : List SLine) (n : Nat) :
    win.any (fun l => l.line == n && !l.started) = true ↔ ∃ l ∈ win, l.line = n ∧ l.started = false := by
  simp

/-- One more staged line fills the staging memory when fifteen wait already. -/
theorem winFull_append (w : W) (x : SLine) (room : w.dev.sto.win.length < 16) :
    (w.modSto (fun s => { s with win := s.win ++ [x] })).winFull = w.modSto (fun s => { s with
      win := if w.dev.sto.win.length = 15 ∧ w.dev.sup.notice = false then (s.win ++ [x]).map (fun l => { l with started := true }) else s.win ++ [x] }) := by
  have last : 16 ≤ (w.dev.sto.win ++ [x]).length ↔ w.dev.sto.win.length = 15 := by
    rw [List.length_append, List.length_singleton]
    omega
  have full : (16 ≤ (w.dev.sto.win ++ [x]).length ∧ (!w.dev.sup.notice) = true) ↔ w.dev.sto.win.length = 15 ∧ w.dev.sup.notice = false := by
    rw [last, Bool.not_eq_true']
  by_cases k : w.dev.sto.win.length = 15 ∧ w.dev.sup.notice = false
  · simp only [if_pos k]
    exact if_pos (full.mpr k)
  · simp only [if_neg k]
    exact if_neg (fun x => k (full.mp x))

section
variable (w : W) (n o v : Nat)

/-- A word of a staged line is merged into it. -/
theorem winStage_merged (h : ∃ l ∈ w.dev.sto.win, l.line = n ∧ l.started = false) : w.winStage n o v =
    (w.modSto (fun s => { s with win := s.win.map (fun l => if l.line == n && !l.started then { l with data := putWord l.data o v } else l) }), stOK) :=
  if_pos ((staged_iff _ n).mpr h)

variable (h : ¬ ∃ l ∈ w.dev.sto.win, l.line = n ∧ l.started = false)
include h

/-- A word of another line takes a new place with the rest of the line as it reads; the sixteenth line starts every commit (log entry 92). -/
theorem winStage_fresh (room : w.dev.sto.win.length < 16) : w.winStage n o v =
    (w.modSto (fun s =>
      let win := s.win ++ [{ line := n, data := putWord (w.line n) o v }]
      { s with win := if w.dev.sto.win.length = 15 ∧ w.dev.sup.notice = false then win.map (fun l => { l with started := true }) else win }), stOK) := by
  rw [W.winStage, if_neg (fun x => h ((staged_iff _ n).mp x)), if_pos room, winFull_append w _ room]

theorem winStage_full (no : 16 ≤ w.dev.sto.win.length) : w.winStage n o v = (w, stTIMEOUT) := by
  rw [W.winStage, if_neg (fun x => h ((staged_iff _ n).mp x)), if_neg (by omega)]

end

/-- A word put into the line that ends the window's list reads back, whether that line's commit has started or not. -/
theorem word_reads {w : W} {x : List SLine} {d : List Byte} {n o : Nat} {v : Word} {p : Prop} [Decidable p]
    (win : w.dev.sto.win =
      let y : List SLine := x ++ [{ line := n, data := putWord d o v.toNat }]
      if p then y.map (fun l => { l with started := true }) else y)
    (fits : o + 4 ≤ d.length) : at' (w.line n) o 4 = v.toNat := by
  have newest : w.line n = putWord d o v.toNat := by
    dsimp only at win
    by_cases k : p
    · rw [if_pos k, List.map_append, List.map_singleton] at win
      exact line_last w _ _ win
    · rw [if_neg k] at win
      exact line_last w _ _ win
  rw [newest]
  exact (put_at d o _ fits).trans (Nat.mod_eq_of_lt v.isLt)

section
variable {s : State} {t : Ten} {off : BitVec 18} {v : Word} (r : s.rack) (hw : s.writer t) (q : off.toNat % 4 = 0)
include r hw q

/-- A window write runs the window's own write and records its status. -/
theorem windowWrite_next {x : W} {st : Nat} (k : (load s).winWrite t.val off.toNat v.toNat = (x, st)) (hq : x.rq = []) (hl : x.dev.log.lstate ≠ 4) :
    exec (.windowWrite t off v) s = .next (commit s (x.ack st)) :=
  rack_next r (x.ack st) (win_act s t off v.toNat q hw x st k) hq hl

theorem windowWrite_denied (no : ¬ (load s).maySetWord t off.toNat) : exec (.windowWrite t off v) s = .next s.denied :=
  windowWrite_next r hw q (if_neg (fun k => no ((mayWriteWin_iff _ t _).mp k))) rfl r.2

/-- A window write with the rights is the staging of its word. -/
theorem windowWrite_staged (may : (load s).maySetWord t off.toNat) {f : Store → Store} {st : Nat}
    (k : (load s).winStage (off.toNat / 64) (off.toNat % 64) v.toNat = ((load s).modSto f, st)) :
    exec (.windowWrite t off v) s = .next { s with dev.sto := f s.dev.sto, dev.acc := { status := st, value := 0 } } :=
  windowWrite_next r hw q ((if_pos ((mayWriteWin_iff _ t _).mpr may)).trans k) rfl r.2

end

/-! ## Line commits (R71, R344, R346) -/

section
variable {s : State} (r : s.awake)
include r

theorem commitStart_idle (h : s.dev.sup.notice = true ∨ ∀ l ∈ s.dev.sto.win, l.started = true) : exec .windowLineCommitStart s = .next s := by
  refine awake_next r (load s) ?_ rfl r.2
  rw [W.winStart]
  by_cases n : (load s).dev.sup.notice = true
  · exact if_pos n
  · have all : (load s).dev.sto.win.findIdx? (fun l => !l.started) = none := by
      rw [List.findIdx?_eq_none_iff]
      intro l m
      rw [h.resolve_left n l m]
      rfl
    rw [if_neg n, all]

theorem commitStart_oldest {x y : List SLine} {l : SLine} (n : s.dev.sup.notice = false) (win : s.dev.sto.win = x ++ l :: y)
    (older : ∀ e ∈ x, e.started = true) (waits : l.started = false) :
    exec .windowLineCommitStart s = .next { s with dev.sto.win := x ++ { l with started := true } :: y } := by
  have found : (load s).dev.sto.win.findIdx? (fun l => !l.started) = some x.length := by
    rw [load_dev, win]
    exact findIdx_at _ x l y (fun e m => by rw [older e m]; rfl) (by rw [waits]; rfl)
  have started : lmod (load s).dev.sto.win x.length (fun l => { l with started := true }) = x ++ { l with started := true } :: y := by
    rw [load_dev, win]
    exact lmod_at x l y _
  have quiet : ¬ (load s).dev.sup.notice = true := by
    rw [load_dev, n]
    exact Bool.false_ne_true
  refine awake_next r ((load s).modSto (fun st => { st with win := x ++ { l with started := true } :: y })) ?_ rfl r.2
  rw [W.winStart, if_neg quiet, found, ← started]
  rfl

/-- The end of a commit that puts `l` in its home line and leaves `st` in the staging memories. -/
theorem lineCommitDone_homed {l : SLine} (st : Store) (wf : Memory.wf s.store = true) (len : l.data.length = 64)
    (one : st.badOne = s.dev.sto.badOne) (two : st.badTwo = s.dev.sto.badTwo)
    (e : (load s).lineDone = ({ load s with dev.sto := st } : W).homeLine l) :
    Does .lineCommitDone s (fun u =>
      u = { s with store := u.store, dev.sto := { st with badOne := s.dev.sto.badOne.filter (· != l.line), badTwo := s.dev.sto.badTwo.filter (· != l.line) } } ∧
      ∀ x, mget u.store x = if l.line * 64 ≤ x ∧ x < l.line * 64 + 64 then l.data.getD (x - l.line * 64) 0 else mget s.store x) := by
  refine ⟨_, awake_next r _ e rfl r.2, ?_, home_at s { load s with dev.sto := st } l len wf rfl⟩
  rw [← one, ← two]
  rfl

end

theorem countPost_none (w : W) (l : SLine) (h : w.dev.log.lstate ≠ 1 ∨ l.count = false) : w.countPost l = w := by
  refine if_neg (fun k => ?_)
  simp only [Bool.and_eq_true, decide_eq_true_eq] at k
  obtain ⟨⟨count, post⟩, -⟩ := k
  rcases h with h | h
  · exact h post
  · rw [h] at count
    exact Bool.false_ne_true count

section
variable {w : W} {x y : List SLine} {l : SLine} (older : ∀ e ∈ x, e.started = false) (now : l.started = true)
include older now

/-- The first started line of the order log and fault log goes home. -/
theorem lineDone_fromLog (log : w.dev.sto.log = x ++ l :: y) (h : w.dev.log.lstate ≠ 1 ∨ l.count = false) :
    w.lineDone = ({ w with dev.sto.log := x ++ y } : W).homeLine l := by
  rw [W.lineDone, log, takeFirst_at _ x l y older now]
  exact countPost_none _ l h

/-- With no log line started, the first of the unit's own lines goes home. -/
theorem lineDone_fromOwn (log : ∀ e ∈ w.dev.sto.log, e.started = false) (own : w.dev.sto.own = x ++ l :: y) :
    w.lineDone = ({ w with dev.sto.own := x ++ y } : W).homeLine l := by
  rw [W.lineDone, takeFirst_none _ _ log, own, takeFirst_at _ x l y older now]

/-- With no log line and none of the unit's own lines started, the first window line goes home. -/
theorem lineDone_fromWin (log : ∀ e ∈ w.dev.sto.log, e.started = false) (own : ∀ e ∈ w.dev.sto.own, e.started = false) (win : w.dev.sto.win = x ++ l :: y) :
    w.lineDone = ({ w with dev.sto.win := x ++ y } : W).homeLine l := by
  rw [W.lineDone, takeFirst_none _ _ log, takeFirst_none _ _ own, win, takeFirst_at _ x l y older now]

end

theorem lineDone_idle {w : W} (log : ∀ e ∈ w.dev.sto.log, e.started = false) (own : ∀ e ∈ w.dev.sto.own, e.started = false)
    (win : ∀ e ∈ w.dev.sto.win, e.started = false) : w.lineDone = w := by
  rw [W.lineDone, takeFirst_none _ _ log, takeFirst_none _ _ own, takeFirst_none _ _ win]

/-- Settles O54: the rights of Table 1.6 decide a window write, the staging memory says where its word goes, and each end of a commit takes the first
started line, log lines first, and puts its 64 bytes home. The active bank read from its records, and commits one line at a time, the oldest first, with
all started at the sixteenth, are the model's choices (log entries 85 and 92). -/
theorem recordStore : Obligations.RecordStore := by
  unfold Obligations.RecordStore
  intro s t off v
  dsimp only
  refine ⟨fun r hw q => ⟨windowWrite_denied r hw q, ?merged, ?fresh, ?full⟩, fun r => ⟨commitStart_idle r, ?start, ?done, ?idle⟩⟩
  case merged =>
    intro may staged
    exact windowWrite_staged r hw q may (winStage_merged _ _ _ _ staged)
  case fresh =>
    intro may no room
    exact ⟨_, windowWrite_staged r hw q may (winStage_fresh _ _ _ _ no room), rfl, fun len => word_reads (d := (load s).line (off.toNat / 64)) rfl (by omega)⟩
  case full =>
    intro may no full
    exact windowWrite_staged r hw q may (f := id) (winStage_full _ _ _ _ no full)
  case start => exact fun x l y n win older waits => commitStart_oldest r n win older waits
  case done =>
    intro wf x l y len now older
    refine ⟨fun log h => ?_, fun log own => ?_, fun rest win => ?_⟩
    · exact lineCommitDone_homed r { s.dev.sto with log := x ++ y } wf len rfl rfl (lineDone_fromLog older now log h)
    · exact lineCommitDone_homed r { s.dev.sto with own := x ++ y } wf len rfl rfl (lineDone_fromOwn older now log own)
    · rw [List.forall_mem_append] at rest
      exact lineCommitDone_homed r { s.dev.sto with win := x ++ y } wf len rfl rfl (lineDone_fromWin older now rest.1 rest.2 win)
  case idle =>
    intro idle
    rw [List.forall_mem_append, List.forall_mem_append] at idle
    obtain ⟨⟨log, own⟩, win⟩ := idle
    exact awake_next r (load s) (lineDone_idle log own win) rfl r.2

end Sys2Proof.Machine

/-! Lane commands: RETURN, FORCE, REACTION and RELEASE, lane by lane. -/

namespace Sys2Proof.Machine

/-- The named lanes that a RETURN walks over: the output lanes and the A→B direct lanes. -/
theorem safe_named (s : State) (rest : List Pkt) (mask : BitVec 32) (n : Nat) :
    n ∈ ((load s).withBd (commandTaken s rest 0)).safeLanes.filter (fun n => mask.getLsbD n) ↔
      (n < 32 ∧ (s.dev.bd.cfg.outLane n = true ∨ s.dev.bd.cfg.abLane n = true)) ∧ mask.getLsbD n = true := by
  rw [List.mem_filter, W.safeLanes, List.mem_filter, List.mem_range, Bool.or_eq_true]
  rfl

/-- What RETURN does to a lane that it names: in fail-safe it ends FORCE, and arms where no other cause is left; LIVE it changes nothing. -/
def Lane.Returned (l l' : Lane) : Prop :=
  (l.stage ≠ 0 → l.cause &&& 0x5F = 0 → l' = { l with cause := 0, armed := true, refr := 0 }) ∧
  (l.stage ≠ 0 → l.cause &&& 0x5F ≠ 0 → l'.cause = l.cause &&& 0x5F ∧ l'.armed = l.armed) ∧ (l.stage = 0 → l' = l)

/-- RETURN lane by lane: WSEQ counts nothing, and a lane that is not named or is LIVE stays as it is. -/
theorem lanecmd_return (s : State) (p : Pkt) (rest : List Pkt) (mask : BitVec 32) (r : Bool) (h : s.boardHas p rest) (ht : s.dev.bd.tabs = true)
    (hb : p.body = .lanecmd mask 0 r) :
    ∃ b', W.lanecmd (load s) 0 = (load s).withBd b' ∧ CommandKeeps s rest b' ∧ b'.wseq = s.dev.bd.wseq ∧ ∀ n,
      ((n < 32 ∧ s.dev.bd.cfg.outLane n = true ∧ mask.getLsbD n = true) → (s.dev.bd.lane n).Returned (b'.lane n)) ∧
      ((mask.getLsbD n = false ∨ (s.dev.bd.lane n).stage = 0) → b'.lane n = s.dev.bd.lane n) := by
  have core : (commandTaken s rest 0).core = true := board_core h.1
  obtain ⟨b2, walked, alone, kept, stepped⟩ := walk_lanes LanesAlone.walks retStep (fun _ _ => Lane.Returned)
    (((load s).withBd (commandTaken s rest 0)).safeLanes.filter (fun n => mask.getLsbD n)) ((W.safeLanes_nodup _).filter _)
    (fun n _ => retStep_steps n) (load s) _ core (fun _ _ _ _ _ _ k => k)
  refine ⟨_, lanecmd_at s p rest mask 0 r h ht hb b2 walked ((LanesAlone.walks.core alone).trans core), commandKeeps_of alone.only, ?_, fun n => ?_⟩
  · show b2.wseq = _
    rw [alone]
    rfl
  rw [Board.page0_lane, Board.page1_lane]
  constructor
  · intro ⟨lt, out, named⟩
    exact stepped n ((safe_named s rest mask n).mpr ⟨⟨lt, .inl out⟩, named⟩)
  · intro unnamed
    by_cases m : n ∈ ((load s).withBd (commandTaken s rest 0)).safeLanes.filter (fun n => mask.getLsbD n)
    · have named := ((safe_named s rest mask n).mp m).2
      obtain ⟨-, -, stays⟩ := stepped n m
      exact stays (unnamed.resolve_left (fun x => Bool.false_ne_true (x.symm.trans named)))
    · exact kept n m

/-- Settles O25: each lane command is a walk over its lanes whose step is known lane by lane (`lanecmd_return`, `lanecmd_force`, `lanecmd_react`,
`lanecmd_clear`, `lanecmd_release`). -/
theorem laneCommands : Obligations.LaneCommands := by
  unfold Obligations.LaneCommands
  intro s p rest mask h tabs
  have did : ∀ {b : Board}, CommandKeeps s rest b →
      s.withBoard b = s.withBoard b ∧ b.inbox = rest ∧ b.cfg = s.dev.bd.cfg ∧ b.tabs = true :=
    fun ⟨inbox, cfg, tabsKept⟩ => ⟨rfl, inbox, cfg, tabsKept.trans tabs⟩
  refine ⟨fun r body => ?ret, fun r body => ?force, fun body => ?react, fun body => ?clear, fun r body ab => ?release⟩
  case ret =>
    obtain ⟨b, taken, keeps, wseq, lanes⟩ := lanecmd_return s p rest mask r h tabs body
    refine does_board (board_next h.1 b taken) ⟨did keeps, wseq, fun n => ?_⟩
    obtain ⟨named, unnamed⟩ := lanes n
    exact ⟨fun k => (named k).1, fun k => (named k).2.1, unnamed⟩
  case force =>
    obtain ⟨b, taken, keeps, lanes⟩ := lanecmd_force s p rest mask r h tabs body
    exact does_board (board_next h.1 b taken) ⟨did keeps, lanes⟩
  case react =>
    obtain ⟨b, taken, keeps, lanes⟩ := lanecmd_react s p rest mask h tabs body
    exact does_board (board_next h.1 b taken) ⟨did keeps, lanes⟩
  case clear =>
    obtain ⟨b, taken, keeps, lanes⟩ := lanecmd_clear s p rest mask h tabs body
    exact does_board (board_next h.1 b taken) ⟨did keeps, lanes⟩
  case release =>
    obtain ⟨b, taken, keeps, stuck, lanes⟩ := lanecmd_release s p rest mask r h tabs body ab
    exact does_board (board_next h.1 b taken) ⟨did keeps, stuck, lanes⟩

end Sys2Proof.Machine

/-! Tickets: a RESULT and an abort acknowledgement each retire the ticket they answer. -/

namespace Sys2Proof.Machine

theorem back_awake {w : W} {p : Pkt} (awake : w.dev.bar.parked = false) (next : w.dev.bd.nextOut = some p) : w.back = some p := by
  rw [W.back, if_neg (by rw [awake]; exact Bool.false_ne_true), next]

/-! ## Results (R90) -/

theorem answered_iff (w : W) (p : Pkt) : w.answered p = true ↔
    (w.dev.pool.tkt p.tkt).st = .issued ∧ (w.dev.pool.tkt p.tkt).board = true ∧ (w.dev.pool.tkt p.tkt).icount = p.ic ∧
      (w.dev.ten (w.dev.pool.tkt p.tkt).ten).rst = none := by
  simp [W.answered, and_assoc]

/-- What the mirror takes from the lane news of a result. -/
def Barrier.told (b : Barrier) (news : Option (Nat × Nat × Nat)) : Barrier :=
  match news with
  | some (n, code, seq) => b.fold n code seq
  | none => b

/-- A result that an issued ticket awaits, without a lane view: its news is folded and its operation, a word's, completes. -/
theorem resultPkt_answered {w : W} {p : Pkt} {o : Op} {status step v : Nat} {value : BitVec 32} {news : Option (Nat × Nat × Nat)}
    (back : w.back = some p) (body : p.body = .result status step value news none) (answered : w.backTaken.answered p = true)
    (op : (w.dev.pool.tkt p.tkt).op = some o) (word : ¬ (o.kind = .rdblk ∨ o.kind = .wrblk)) (is : value.toNat = v) :
    w.resultPkt = (w.backTaken.modBar (fun b => b.told news)).finishOp p.tkt status step v := by
  subst is
  have op' : (w.backTaken.dev.pool.tkt p.tkt).op = some o := op
  rw [W.resultPkt, back]
  simp only [body, answered]
  cases news with
  | none =>
    simp only [Bool.not_true, Bool.false_eq_true, if_false, op', if_neg word]
    rfl
  | some e =>
    have op'' : ((w.backTaken.modBar (fun b => b.fold e.1 e.2.1 e.2.2)).dev.pool.tkt p.tkt).op = some o := op
    simp only [Bool.not_true, Bool.false_eq_true, if_false, op'', if_neg word]
    rfl

/-! ## Abort acknowledgements (R91) -/

/-- A quarantined ticket without pins is free again, at the tail of the list, with its issue count; no tenant's use changes. -/
theorem freeTkt_quarantined {w : W} {n : Nat} (st : (w.dev.pool.tkt n).st = .quarantined) (pins : (w.dev.pool.tkt n).pins = []) :
    w.freeTkt n = w.modPool (fun p => { p.setTkt n { icount := (p.tkt n).icount } with tktFree := p.tktFree ++ [n] }) := by
  rw [W.freeTkt, if_pos st, pins]
  rfl

theorem ackOne_quarantined {w : W} {n ic : Nat} (t : Nat) (st : (w.dev.pool.tkt n).st = .quarantined) (count : (w.dev.pool.tkt n).icount = ic) :
    W.ackOne t w (n, ic) = w.freeTkt n := by
  unfold W.ackOne
  dsimp only
  rw [if_pos st, if_pos count]

theorem abortAckIn_acks {w : W} {p : Pkt} {es : List (Nat × Nat)} (back : w.back = some p) (body : p.body = .abortAck es) :
    w.abortAckIn = (es.foldl (W.ackOne p.ten) w.backTaken).finishResets := by
  rw [W.abortAckIn, back]
  simp only [body]

/-- Settles O19: the answered result ends in `finishOp` (`result_finish`), the acknowledgement of a quarantined ticket in `freeTkt`. -/
theorem ticketsRetire : Obligations.TicketsRetire := by
  unfold Obligations.TicketsRetire
  constructor
  · intro s p o news r awake next
    dsimp only
    intro body st board ic rst op kind msg gen quiet bind rx pins held others
    have word : ¬ (o.kind = .rdblk ∨ o.kind = .wrblk) := by
      rintro (k | k) <;> rw [k] at kind <;> simp at kind
    have answered : (load s).backTaken.answered p = true := (answered_iff _ p).mpr ⟨st, board, ic, rst⟩
    have finish : (load s).resultPkt = ({ load s with dev.bd := s.dev.bd.popOut, dev.bar := s.dev.bar.told news } : W).finishOp p.tkt stOK 0 0 := by
      rw [resultPkt_answered (back_awake awake next) body answered op word rfl]
      rfl
    obtain ⟨t, ran, kept⟩ := result_finish s p o (s.dev.bar.told news) r st op msg gen quiet bind rx pins held others W.resultPkt finish
    refine ⟨t, ran, ?_⟩
    cases news <;> exact kept
  · intro s p n r awake next
    dsimp only
    intro body st pins idle
    have done : (load s).abortAckIn = (load s).backTaken.modPool (fun p =>
        { p.setTkt n { icount := (p.tkt n).icount } with tktFree := p.tktFree ++ [n] }) := by
      rw [abortAckIn_acks (back_awake awake next) body, List.foldl_cons, List.foldl_nil,
        ackOne_quarantined (ic := (s.dev.pool.tkt n).icount) p.ten st rfl, freeTkt_quarantined (w := (load s).backTaken) st pins]
      exact finish_none _ idle
    exact rack_next r _ done rfl r.2

end Sys2Proof.Machine

/-! Packets that the board die takes: time and pair chunks, shadow tables, the swap, and a tenant's abort. -/

namespace Sys2Proof.Machine

section
variable {s : State} {p : Pkt} {rest : List Pkt} (h : s.boardHas p rest)
include h

theorem timeChunkPkt_taken {now : Nat} (body : p.body = .timeChunk now) : (load s).timeChunkPkt =
    (load s).withBd { s.dev.bd with inbox := rest, timer := fld now 0 56, chunkQ := fld now 56 2, stepno := fld now 58 6 } := by
  rw [W.timeChunkPkt, boardHas_front h]
  simp only [body, boardHas_taken h]
  rfl

theorem tablePkt_shadow {x : Tables} (body : p.body = .table x) (shadow : x.shadow = true) :
    (load s).tablePkt = (load s).withBd { s.dev.bd with inbox := rest, shadow := some x } := by
  rw [W.tablePkt, boardHas_front h]
  simp only [body, if_pos shadow, boardHas_taken h]
  rfl

theorem pairChunkPkt_parks {lvl : Tbl Nat} (body : p.body = .pairChunk true lvl) :
    (load s).pairChunkPkt = (load s).withBd { s.dev.bd with inbox := rest, parked := true } := by
  rw [W.pairChunkPkt, boardHas_front h]
  simp only [body, boardHas_taken h]
  rfl

end

/-! ## The swap (R394, R395, R235) -/

/-- The board die with the shadow tables `x` in force: every window is closed, a lane in fail-safe keeps its fail-safe settings, and a busy engine
its own. -/
def Board.swapped (b : Board) (x : Tables) : Board :=
  { b with
    cfg := x.cfg, shadow := none, miss := 0,
    lanes := b.lanes.map (fun (e : Nat × Lane) => (e.1, ({ e.2 with
      wOpen := false, kept := if e.2.stage = 0 then none else some (e.2.kept.getD (b.cfg.fsOf e.1)) } : Lane))),
    engs := b.engs.map (fun (e : Nat × Eng) => if e.2.st = 1 then (e.1, { e.2 with kept := some (e.2.kept.getD (b.cfg.eng e.1)) }) else e) }

theorem swapPkt_taken {s : State} {p : Pkt} {rest : List Pkt} {crc : BitVec 32} {x : Tables} (h : s.boardHas p rest) (body : p.body = .swap crc)
    (shadow : s.dev.bd.shadow = some x) :
    (load s).swapPkt = (load s).withBd (((({ s.dev.bd with inbox := rest } : Board).swapped x).tells [.page6 crc]).page0.page1) := by
  have core : (({ s.dev.bd with inbox := rest } : Board).swapped x).core = true := board_core h.1
  have waiting : ((load s).withBd { s.dev.bd with inbox := rest }).dev.bd.shadow = some x := shadow
  rw [W.swapPkt, boardHas_front h]
  simp only [body, boardHas_taken h, waiting]
  rw [← W.withBd_page1 _ _ (by exact core), ← W.withBd_page0 _ _ (by exact core), ← W.withBd_status _ _ core]
  rfl

/-! ## Tenant abort (R88, R90) -/

/-- A packet that waits at the board die with an operation, or data, of tenant `t`. -/
def Pkt.waitsFor (q : Pkt) (t : Nat) : Bool :=
  match q.body with
  | .op o => o.req.ten.val == t
  | .data _ => q.ten == t
  | _ => false

/-- What the board die does for the abort of tenant `t`, once the packet is taken and its decision recorded. -/
def W.stopTenant (w : W) (t : Nat) : W :=
  let queued := ((w.dev.bd.out0 ++ w.dev.bd.outR).filter (fun q => q.ten == t)).map (fun q => (q.tkt, q.ic))
  let waiting := w.dev.bd.inbox.filter (fun q => q.waitsFor t)
  let w := w.modBd (fun b => { b.dropResults t with inbox := b.inbox.filter (fun q => !waiting.contains q) })
  let r := (List.range 8).foldl (fun (acc : W × List (Nat × Nat)) e => let r := acc.1.engRetire e t; (r.1, acc.2 ++ r.2)) (w, [])
  (r.1.closeWindows t).abortAcks t ((queued ++ waiting.map (fun q => (q.tkt, q.ic)) ++ r.2).eraseDups)

theorem tabort_stops {w : W} {p : Pkt} {t : Nat} (front : w.dev.bd.front = some p) (body : p.body = .tabort t) :
    w.tabort = (w.taken.bDecide 5 t).stopTenant t := by
  rw [W.tabort, front]
  simp only [body]
  rfl

theorem engRetire_all (w : W) (t : Nat) (idle : ∀ e < 8, ∀ o ∈ (w.dev.bd.eng e).ops ++ (w.dev.bd.eng e).opsRx, o.op.req.ten.val ≠ t) :
    (List.range 8).foldl (fun (acc : W × List (Nat × Nat)) e => let r := acc.1.engRetire e t; (r.1, acc.2 ++ r.2)) (w, []) = (w, []) := by
  refine foldl_same _ _ _ (fun e he => ?_)
  dsimp only
  rw [engRetire_none _ e t (idle e (List.mem_range.mp he)), List.append_nil]

/-- The operations of tenant `t` that the board die acknowledges: those with a result queued, and those still waiting. -/
def Board.abortedOf (b : Board) (t : Nat) : List (Nat × Nat) :=
  (((b.out0 ++ b.outR).filter (fun q => q.ten == t)).map (fun q => (q.tkt, q.ic)) ++ (b.inbox.filter (fun q => q.waitsFor t)).map (fun q => (q.tkt, q.ic))).eraseDups

/-- The board die after the abort of tenant `t`, none of whose operations an engine holds. -/
def Board.aborted (b : Board) (t : Nat) : Board :=
  { b with
    inbox := b.inbox.filter (fun q => !q.waitsFor t),
    out0 := b.out0.filter (fun q => q.ten != t), outR := b.outR.filter (fun q => q.ten != t),
    lanes := b.lanes.map (fun (e : Nat × Lane) => if e.2.wOpen && e.2.wHolder == t then (e.1, { e.2 with wOpen := false }) else e),
    outA := b.outA ++ (pieces 8 (b.abortedOf t).length (b.abortedOf t)).map (fun l => ({ body := .abortAck l, ten := t } : Pkt)) }

theorem stopTenant_at (w : W) (b : Board) (t : Nat) (idle : ∀ e < 8, ∀ o ∈ (b.eng e).ops ++ (b.eng e).opsRx, o.op.req.ten.val ≠ t) :
    (w.withBd b).stopTenant t = w.withBd (b.aborted t) := by
  have left : b.inbox.filter (fun q => !(b.inbox.filter (fun q => q.waitsFor t)).contains q) = b.inbox.filter (fun q => !q.waitsFor t) :=
    list_filter_contains b.inbox (fun q => q.waitsFor t)
  have retired := engRetire_all (w.withBd { b.dropResults t with inbox := b.inbox.filter (fun q => !q.waitsFor t) }) t idle
  unfold W.stopTenant
  simp only [W.withBd_bd, W.withBd_modBd, left] at retired ⊢
  rw [retired, List.append_nil]
  rfl

theorem tabort_taken {s : State} {p : Pkt} {rest : List Pkt} {t : Nat} (h : s.boardHas p rest) (body : p.body = .tabort t)
    (idle : ∀ e < 8, ∀ o ∈ (s.dev.bd.eng e).ops ++ (s.dev.bd.eng e).opsRx, o.op.req.ten.val ≠ t) :
    (load s).tabort = (load s).withBd ((({ s.dev.bd with inbox := rest } : Board).aborted t).tells [boardEntry 5 t 0]) := by
  rw [tabort_stops (boardHas_front h) body, boardHas_taken h, W.withBd_bDecide _ _ (by exact board_core h.1), stopTenant_at _ _ _ (by exact idle)]
  rfl

/-- Settles O21: each packet's own function is followed to the board die it leaves (`timeChunkPkt_taken`, `tablePkt_shadow`, `pairChunkPkt_parks`,
`swapPkt_taken`, `tabort_taken`), and a board die's command changes nothing else. -/
theorem boardPacketsTaken : Obligations.BoardPacketsTaken := by
  unfold Obligations.BoardPacketsTaken
  intro s p rest h
  refine ⟨fun now body => board_next h.1 _ (timeChunkPkt_taken h body), fun x body shadow => board_next h.1 _ (tablePkt_shadow h body shadow),
    fun lvl body => board_next h.1 _ (pairChunkPkt_parks h body), ?swap, fun t body idle => board_next h.1 _ (tabort_taken h body idle)⟩
  case swap =>
    intro crc x body shadow b'
    have swapped : b' = ({ s.dev.bd with inbox := rest } : Board).swapped x := rfl
    rw [swapped]
    exact board_next h.1 _ (swapPkt_taken h body shadow)

end Sys2Proof.Machine

/-! The board die's tables, its reset packet and its restart. -/

namespace Sys2Proof.Machine

/-! ## Tables and the reset packet (R220, R93) -/

section
variable {s : State} {p : Pkt} {rest : List Pkt} (h : s.boardHas p rest)
include h

theorem tablePkt_loads {x : Tables} (body : p.body = .table x) (cold : x.shadow = false) :
    (load s).tablePkt = ((load s).withBd { s.dev.bd with inbox := rest }).loadTables x false := by
  have runs : (load s).dev.bd.core = true := board_core h.1
  rw [W.tablePkt, boardHas_front h]
  simp only [body, if_neg (show ¬ x.shadow = true by rw [cold]; exact Bool.false_ne_true), if_pos runs, boardHas_taken h]

theorem breset_stops (body : p.body = .breset) :
    (load s).breset = ((load s).withBd { s.dev.bd with inbox := rest }).failSafeAll.modBd (fun b => { b with core := false }) := by
  rw [W.breset, boardHas_front h]
  simp only [body, boardHas_taken h]

end

/-! ## Restart (R93, R256; Table 5.5) -/

/-- What a restart gives lane `n`: its reset causes, FS1, or DARK where it drives a bank without power, and no refresh counted. -/
def W.restartLane (w : W) (n : Nat) : W :=
  w.modLane n (fun l =>
    { l with cause := w.dev.bd.resetCause n, stage := if w.dev.bd.bankUp n || !w.bcfg.outLane n then 1 else 3, armed := (w.lfs n).auto, refr := 0 })

/-- Lane `n` as a restart leaves it, as far as its bank decides. -/
def Lane.Restarted (n : Nat) (b : Board) (_ l : Lane) : Prop := l.stage = (if b.bankUp n || !b.cfg.outLane n then 1 else 3) ∧ l.refr = 0

theorem restartLane_steps (n : Nat) : StepsLane Board.LanesAlone W.restartLane n (Lane.Restarted n) := by
  intro w b _
  unfold W.restartLane
  rw [W.withBd_modLane]
  refine ⟨_, rfl, Board.setLane_alone _ _ _, fun _ hm => Board.setLane_lane_ne _ _ _ _ hm, ?_⟩
  rw [Board.setLane_lane]
  exact ⟨rfl, rfl⟩

/-- The board die after a restart, with the stage of every output lane. -/
theorem boardRestart_lanes (w : W) : ∃ l, w.boardRestart = w.withBd (w.dev.bd.restarted l).page2 ∧
    ∀ n < 32, w.bcfg.outLane n = true → (tget {} l n : Lane).stage = (if w.dev.bd.bankUp n then 1 else 3) ∧ (tget {} l n : Lane).refr = 0 := by
  let b : Board := w.dev.bd.restarted w.dev.bd.halted.lanes
  obtain ⟨b1, walked, alone, -, stepped⟩ := walk_lanes LanesAlone.walks W.restartLane Lane.Restarted
    (w.withBd b).safeLanes (W.safeLanes_nodup _) (fun n _ => restartLane_steps n) w b rfl
    (fun n b b' _ _ alone r => by rwa [Lane.Restarted, alone.only.bankUp, alone.only.cfg] at r)
  refine ⟨b1.lanes, ?_, fun n lt out => ?_⟩
  · have begun : w.boardRestart = ((w.withBd b).safeLanes.foldl W.restartLane (w.withBd b)).page2 := rfl
    rw [begun, walked, W.withBd_page2 _ _ (LanesAlone.walks.core alone), alone]
    rfl
  · have reset := stepped n (safe_of_out (w.withBd b) n lt out)
    rw [Lane.Restarted, show b.cfg.outLane n = true from out, Bool.not_true, Bool.or_false] at reset
    exact reset

/-- Settles O22: the tables come into force by `loadTables`, the reset packet stops the board die by `failSafeAll`, and the restart is `boardRestart`
with no quarantine to end. -/
theorem boardTablesAndReset : Obligations.BoardTablesAndReset := by
  unfold Obligations.BoardTablesAndReset
  intro s
  refine ⟨fun p rest h => ⟨fun x body cold => ?table, fun body => ?breset⟩, fun awake core vddb mode free => ?restart⟩
  case table =>
    obtain ⟨b, loaded, facts⟩ := loadTables_at x false (load s) { s.dev.bd with inbox := rest } (board_core h.1)
    exact does_board (board_next h.1 b ((tablePkt_loads h body cold).trans loaded)) ⟨rfl, facts⟩
  case breset =>
    obtain ⟨b, stopped, -, safe⟩ := failSafe_at (load s) { s.dev.bd with inbox := rest } (board_core h.1)
    have taken : (load s).breset = (load s).withBd { b.halted with core := false } := by
      rw [breset_stops h body, stopped]
      rfl
    refine does_board (board_next h.1 _ taken) ⟨rfl, rfl, rfl, rfl, rfl, rfl, rfl, rfl, fun n lt tabs out => ?_⟩
    have lane : (b.halted.lane n).stage = (b.lane n).stage := by
      rw [halted_lane]
      rfl
    exact fun x => safe n lt tabs out (lane.symm.trans x)
  case restart =>
    obtain ⟨l, again, lanes⟩ := boardRestart_lanes (load s)
    have rises : (load s).boardRise = (load s).boardAgain := if_pos (by simp [core, vddb, mode])
    have risen : (load s).boardRise = (load s).withBd (s.dev.bd.restarted l).page2 := by
      rw [rises, W.boardAgain, again]
      exact endQuarantine_none _ free
    exact does_board (run_board awake risen) ⟨rfl, rfl, rfl, rfl, rfl, rfl, rfl, rfl, rfl, rfl, rfl, rfl, rfl, lanes⟩

end Sys2Proof.Machine

/-! Soft resets: ordered by TS, held during a brown notice, and started when it has ended. -/

namespace Sys2Proof.Machine

/-- What keeps a soft reset of the whole unit plain: no staged line or valid bank record, no hard stop, a running board die, nothing under way at the
identity or the pair, and ring ports that may run. -/
def State.softQuiet (s : State) : Prop :=
  s.dev.sto = {} ∧ (load s).bankRec 0 = none ∧ (load s).bankRec 1 = none ∧ s.dev.fus.lcs ≠ 3 ∧ s.dev.pai.role ≠ 3 ∧ s.dev.bd.runs = true ∧ s.dev.flt.stopped dUnit = false ∧
    (s.dev.fus.inst ≠ 0 ∧ s.dev.fus.inst ≠ 3 ∧ s.dev.fus.inst ≠ 4) ∧ s.dev.rst.held = false ∧ s.dev.idn.astate ≠ 1 ∧ s.dev.idn.wbState ≠ 2 ∧
    (s.dev.ring.up.en = true ∨ s.dev.ring.up.st = 0) ∧ (s.dev.ring.dn.en = true ∨ s.dev.ring.dn.st = 0)

/-- `t` is `s` after a soft reset that shows `cause`: what Table 5.3 empties, and what it keeps. -/
def State.softDone (s t : State) (cause : Nat) : Prop :=
  t.dev.rst.last = cause ∧ t.dev.rst.softResets = satAdd 8 s.dev.rst.softResets 1 ∧ t.dev.rst.boardBusy = false ∧ t.dev.rst.softWait = none ∧ t.dev.rst.stuckHold = s.dev.rst.stuckHold ∧
  t.dev.img.woven = false ∧ t.dev.sup.mode = 0 ∧ t.dev.sup.defer = [] ∧ t.dev.pool = {} ∧
  (∀ u, (t.dev.ten u).queues = [[], [], [], []] ∧ (t.dev.ten u).rst = none ∧ (t.dev.ten u).streams = [] ∧ (t.dev.ten u).tktUse = 0 ∧ (t.dev.ten u).tktPeak = (s.dev.ten u).tktPeak) ∧
  t.dev.arb.urgent = [] ∧ t.dev.arb.fifos = ({} : Arb).fifos ∧ t.dev.arb.flight = none ∧ t.dev.bd.core = true ∧ t.dev.bd.tabs = false ∧
  t.dev.bar.bAlive = true ∧ t.dev.tim = s.dev.tim ∧ t.dev.fus = s.dev.fus ∧ t.dev.pins = s.dev.pins ∧ t.fuses = s.fuses ∧ t.bufs = s.bufs ∧ t.pending = s.pending

theorem rack_vdda {s : State} (r : s.rack) : s.dev.rst.vdda = true := by
  have on := r.1
  simp only [Dev.rackOn, Dev.awake, Bool.and_eq_true] at on
  exact on.1.2

theorem softReset_now (w : W) (cause : Nat) (wait : w.dev.rst.softWait = none) (notice : w.dev.sup.notice = false) :
    w.softReset cause = w.softNow cause id := by
  rw [W.softReset, wait, notice]
  rfl

theorem softReset_held (w : W) (cause : Nat) (wait : w.dev.rst.softWait = none) (notice : w.dev.sup.notice = true) :
    w.softReset cause = (w.modRst (fun r => { r with softWait := some cause })).modSup (fun s => { s with defer := s.defer ++ [.soft] }) := by
  rw [W.softReset, wait, notice]
  rfl

/-- The record of `s` as a soft reset finds it, but for the reset that waits and the access record. -/
def State.softBegun (s : State) (wait : Option Nat) (a : Access) : W := { load s with dev.rst.softWait := wait, dev.acc := a }

/-- What a raise that orders no reset leaves in the blocks that a soft reset clears or keeps. -/
theorem W.SameButRaise.blocks {a b : W} (h : a.SameButRaise b) :
    b.dev.rst = a.dev.rst ∧ b.dev.img = a.dev.img ∧ b.dev.pool = a.dev.pool ∧ b.dev.tens = a.dev.tens ∧ b.dev.bd = a.dev.bd ∧ b.dev.bar = a.dev.bar ∧
    b.dev.tim = a.dev.tim ∧ b.dev.fus = a.dev.fus ∧ b.dev.pins = a.dev.pins ∧ b.dev.acc = a.dev.acc ∧
    (∃ ps, b.dev.arb = { a.dev.arb with ctl := ps }) ∧ ∃ n, b.dev.sup = { a.dev.sup with dropped := n } := by
  refine ⟨?_, ?_, ?_, ?_, ?_, ?_, ?_, ?_, ?_, ?_, ⟨b.dev.arb.ctl, ?_⟩, b.dev.sup.dropped, ?_⟩ <;> rw [h.1]

/-- What a raise that orders no reset asks for, and writes to fuses and buffers: nothing. -/
theorem W.SameButRaise.writes {a b : W} (h : a.SameButRaise b) : b.rq = a.rq ∧ b.blow = a.blow ∧ b.bout = a.bout := by
  refine ⟨?_, ?_, ?_⟩ <;> rw [h.1]

/-- A soft reset outside a brown notice, from a record that differs from `s` in the reset that waits and the access record alone: what it empties and
keeps is known up to the raise of the missing image (`softNow_at`). -/
theorem softReset_done {s : State} (r : s.rack) (notice : s.dev.sup.notice = false) (quiet : s.softQuiet) {wait : Option Nat} (unset : wait = none)
    (a : Access) (cause : Nat) :
    let u := (s.softBegun wait a).softReset cause
    u.rq = [] ∧ u.dev.log.lstate ≠ 4 ∧ s.softDone (commit s u) cause ∧ u.dev.acc = a := by
  obtain ⟨sto, rec0, rec1, lcs, role, runs, stopped, inst, held, astate, wb, up, dn⟩ := quiet
  obtain ⟨v, raised, rq, -, blow, -, bout, acc, ls, last, resets, busy, idle, hold, woven, mode, defer, pool, tens, arb, -, -, core, tabs, alive, tim, fus, pins⟩ :=
    softNow_at (s.softBegun wait a) cause sto notice rec0 rec1 lcs role runs inst held (rack_vdda r) astate wb up dn r.2 stopped
  dsimp only
  rw [softReset_now _ _ unset notice]
  generalize (s.softBegun wait a).softNow cause id = u at raised ⊢
  obtain ⟨rst', img', pool', tens', bd', bar', tim', fus', pins', acc', ⟨_, arb'⟩, _, sup'⟩ := raised.blocks
  obtain ⟨rq', blow', bout'⟩ := raised.writes
  have cleared : ∀ n, u.dev.ten n = (s.dev.ten n).softCleared := fun n => by
    rw [Dev.ten, tens', tens]
    exact map_soft _ n
  refine ⟨rq'.trans rq, raised.2.1 ls, ?_, acc'.trans acc⟩
  rw [State.softDone, commit_dev, commit_fuses, commit_bufs, commit_pending, rst', img', pool', bd', bar', tim', fus', pins', arb', sup', blow', blow, bout', bout, arb]
  refine ⟨last, resets, busy, idle, hold, woven, mode, defer, pool, fun n => ?_, rfl, rfl, rfl, core, tabs, alive, tim, fus, pins, rfl, rfl, rfl⟩
  rw [cleared n]
  exact ⟨rfl, rfl, rfl, rfl, rfl⟩

/-! ## The command, and the start of a held reset -/

/-- SOFT by TS with its key asks for a soft reset with cause 4, answers OK, and the request is served before the meaning ends. -/
theorem soft_served {s : State} (r : s.rack) (barred : s.dev.barred 4 = false) (go : s.dev.flt.stopped dUnit = false) (wait : s.dev.rst.softWait = none)
    (x : W) (served : ((load s).ack stOK).softReset 4 = x) (rq : x.rq = []) (live : x.dev.log.lstate ≠ 4) :
    exec (.soft 4 0xC3A5) s = .next (commit s x) := by
  have action : fld (keyed 0xC3A5 2) 0 3 = 2 := by
    rw [keyed_val]
    rfl
  have control : (load s).rstCtrl 4 (keyed 0xC3A5 2) = ((load s).ask (.soft 4), stOK) := by
    rw [rstCtrl_go _ _ (keyed_top 2 (by decide)) go, action]
    rfl
  have asked : (load s).act 4 0x2000 (keyed 0xC3A5 2) = ((load s).ask (.soft 4)).ack stOK := act_rst barred _ _ _ control
  have closed : (((load s).ask (.soft 4)).ack stOK).close = x := by
    rw [← served]
    exact serve_soft _ 4 rfl (by decide) wait (by exact served ▸ rq) (by exact served ▸ live)
  have ran : onRack (fun w => w.act 4 0x2000 (keyed 0xC3A5 2)) (load s) = ((load s).ask (.soft 4)).ack stOK := (if_pos r.1).trans asked
  show Host.Outcome.next (commit s (onRack (fun w => w.act 4 0x2000 (keyed 0xC3A5 2)) (load s)).close) = _
  rw [ran, closed]

theorem softDeferred_idle (w : W) (h : w.dev.rst.softWait = none ∨ w.dev.sup.notice = true) : w.softDeferred = w := by
  rw [W.softDeferred]
  rcases wait : w.dev.rst.softWait with _ | c
  · rfl
  · have notice := h.resolve_left (fun x => by simp [wait] at x)
    dsimp only
    rw [notice]
    rfl

/-- With the notice ended and nothing staged, the held reset starts. -/
theorem softDeferred_starts (w : W) (cause : Nat) (wait : w.dev.rst.softWait = some cause) (soft : cause ≠ 256) (notice : w.dev.sup.notice = false)
    (sto : w.dev.sto = {}) : w.softDeferred = (w.modRst (fun r => { r with softWait := none })).softReset cause := by
  rw [W.softDeferred, wait]
  dsimp only
  rw [notice, sto]
  exact if_neg soft

/-- Settles O46: SOFT in a brown notice leaves its reset waiting, and outside one is served at once; the held reset starts when the notice has ended. Both
resets are `softNow`, whose end `softReset_done` gives. That the write completes OK before the reset it asks for, and that the stuck hold stays over a soft
reset, are the model's choices (log entries 55 and 61). -/
theorem softResets : Obligations.SoftResets := by
  unfold Obligations.SoftResets
  intro s cause
  dsimp only
  refine ⟨fun r barred go wait => ⟨fun notice => ?held, fun notice quiet => ?now⟩, fun r idle => ?idle, fun r wait soft notice quiet => ?starts⟩
  case held => exact soft_served r barred go wait _ (softReset_held _ 4 wait notice) rfl r.2
  case now =>
    obtain ⟨rq, live, done, acc⟩ := softReset_done r notice quiet wait { status := stOK, value := 0 } 4
    exact ⟨_, soft_served r barred go wait _ rfl rq live, done, congrArg Access.status acc⟩
  case idle => exact rack_next r (load s) (softDeferred_idle _ idle) rfl r.2
  case starts =>
    obtain ⟨rq, live, done, -⟩ := softReset_done r notice quiet (rfl : none = none) s.dev.acc cause
    exact ⟨_, rack_next r _ (softDeferred_starts (load s) cause wait soft notice quiet.1) rq live, done⟩

end Sys2Proof.Machine

/-! Fuses: every command, and the lantern tick of an empty queue, ends in `commit`, which touches the fuses by blowing bits alone (R107, R110). -/

namespace Sys2Proof.Machine

/-! ## Blowing bits -/

/-- ORing a value into one fuse word clears no bit of any word. -/
theorem getLsbD_blow {f : Tbl (BitVec 32)} {i b : Nat} (h : (tget 0 f i).getLsbD b = true) (n : Nat) (v : BitVec 32) :
    (tget 0 (tmod 0 f n (· ||| v)) i).getLsbD b = true := by
  unfold tmod
  by_cases same : i = n
  · subst same
    rw [tget_tput, BitVec.getLsbD_or, h, Bool.true_or]
  · rw [tget_tput_ne _ _ _ _ _ same, h]

theorem getLsbD_blowAll {f : Tbl (BitVec 32)} {i b : Nat} (h : (tget 0 f i).getLsbD b = true) (bl : List (Nat × BitVec 32)) :
    (tget 0 (blowAll f bl) i).getLsbD b = true := by
  induction bl with
  | nil => exact h
  | cons e bl ih => exact getLsbD_blow ih e.1 e.2

/-- The end of a meaning keeps the fuses, whatever the meaning did to its working record. -/
theorem commit_fusesKept (s : State) (w : W) : s.FusesKept (commit s w) := fun _ _ h => getLsbD_blowAll h w.blow

/-! ## Every step ends in `commit` -/

/-- Every command answers a next state, the commit of a working record. Each meaning is one `runW`; only PACE_MEASUREMENT and BEACON_SYMBOL choose it by an
operand, the die. -/
theorem exec_commits (c : Instr) (s : State) : ∃ w, exec c s = .next (commit s w) := by
  cases c with
  | paceMeasurement die pace =>
    cases die with
    | rack => exact ⟨_, rfl⟩
    | board => exact ⟨_, rfl⟩
  | beaconSymbol die sym =>
    cases die with
    | rack => exact ⟨_, rfl⟩
    | board => exact ⟨_, rfl⟩
  | _ => exact ⟨_, rfl⟩

theorem rest_of_empty {s : State} (h : s.pending = []) : s.rest = s := by
  rw [State.rest, h, List.tail_nil, ← h]

/-- Every step answers a next state, the commit of a working record to the state without its front command. -/
theorem step_commits (s : State) : ∃ w, step s = .next (commit s.rest w) := by
  unfold step
  split
  next empty => exact ⟨(load s).tick, by rw [rest_of_empty empty, State.idle]⟩
  next c _ _ => exact exec_commits c s.rest

/-- Settles O3: a step commits a working record (`step_commits`), and a commit only blows bits (`commit_fusesKept`). Taking the front command off the
queue leaves the fuses as they are. -/
theorem stepKeepsFuses : Obligations.StepKeepsFuses := by
  unfold Obligations.StepKeepsFuses
  intro s t h
  obtain ⟨w, answers⟩ := step_commits s
  obtain rfl : commit s.rest w = t := Host.Outcome.next.inj (answers.symm.trans h)
  exact commit_fusesKept s.rest w

end Sys2Proof.Machine

/-! The ring: a frame sent at once by an idle port, frames passed on or taken for this unit, and the link states outside RUN. -/

namespace Sys2Proof.Machine

/-! ## One port of the ring block -/

theorem modPort_congr {w : W} {p : RPort} {f g : RingPort → RingPort} (h : f (w.dev.ring.port p) = g (w.dev.ring.port p)) :
    w.modPort p f = w.modPort p g := by
  cases p
  · exact congrArg (fun r => ({ w with dev.ring.up := r } : W)) h
  · exact congrArg (fun r => ({ w with dev.ring.dn := r } : W)) h

theorem W.SameButLog.ring {a b : W} (h : a.SameButLog b) : b.dev.ring = a.dev.ring := by rw [h.1]

theorem W.SameButLog.modPort {a b : W} (h : a.SameButLog b) (p : RPort) (f : RingPort → RingPort) :
    (a.modPort p f).SameButLog (b.modPort p f) := by
  refine ⟨?_, by rw [modPort_log, modPort_log]; exact h.2⟩
  rw [h.1]
  cases p <;> rfl

/-! ## A frame that leaves at once (R133) -/

/-- The port with the frame `o` alone waiting at it. -/
def RingPort.holds (r : RingPort) (o : OutFrame) : RingPort := { r with fwdQ := if o.own then [] else [o], ownQ := if o.own then [o] else [] }

/-- The port with the whole of `o` still to send, and nothing waiting. -/
def RingPort.starts (r : RingPort) (o : OutFrame) : RingPort := { r with cur := some (o, o.bytes.length), lastOwn := o.own, fwdQ := [], ownQ := [] }

/-- The port after `o` has left it. -/
def RingPort.sends (r : RingPort) (o : OutFrame) : RingPort :=
  { r with credit := r.credit - o.bytes.length, tx := (o.bytes, false) :: r.tx, lastOwn := o.own }

@[simp] theorem RingPort.starts_cur (r : RingPort) (o : OutFrame) : (r.starts o).cur = some (o, o.bytes.length) := rfl

theorem commit_sends (s : State) (p : RPort) (o : OutFrame) : commit s ((load s).modPort p (·.sends o)) = s.sent p o.bytes o.own :=
  commit_modPort s p _

theorem urgFirst_single (o : OutFrame) : urgFirst [o] = [o] := by
  cases h : o.urg <;> simp [urgFirst, urgIdx, List.findIdx?_cons, h]

/-- A frame alone keeps its place when urgent frames go first. -/
theorem holds_urgFirst (r : RingPort) (o : OutFrame) :
    ({ r.holds o with fwdQ := urgFirst (r.holds o).fwdQ, ownQ := urgFirst (r.holds o).ownQ } : RingPort) = r.holds o := by
  unfold RingPort.holds
  cases o.own <;> simp [urgFirst_single, show urgFirst [] = [] from rfl]

theorem pickOut_holds (r : RingPort) (o : OutFrame) : pickOut (r.holds o) = some o.own := by
  unfold RingPort.holds pickOut
  cases o.own <;> rfl

theorem preempt_idle (w : W) (p : RPort) (h : (w.dev.ring.port p).cur = none) : w.preempt p = w := by
  unfold W.preempt
  simp only [h]

/-- A frame is stamped anew at its start only when it is a TIME frame of the unit's own (R314). -/
theorem restamp_id (w : W) (p : RPort) (o : OutFrame) (h : o.own = false ∨ (readFrame o.bytes).type ≠ 4) : w.restamp p o = o :=
  if_neg (by simpa [or_iff_not_imp_left] using h)

section
variable {w : W} {p : RPort} {o : OutFrame}

/-- The frame that waits alone at a port is the one that starts, and the log alone records it. -/
theorem startOut_alone (asIs : o.own = false ∨ (readFrame o.bytes).type ≠ 4) :
    (w.modPort p (·.starts o)).SameButLog ((w.modPort p (·.holds o)).startOut p) := by
  have sorted : (w.modPort p (·.holds o)).modPort p (fun r => { r with fwdQ := urgFirst r.fwdQ, ownQ := urgFirst r.ownQ }) = w.modPort p (·.holds o) := by
    rw [modPort_modPort]
    exact modPort_congr (holds_urgFirst _ o)
  have front : (if o.own = true then ((w.dev.ring.port p).holds o).ownQ else ((w.dev.ring.port p).holds o).fwdQ) = [o] := by
    unfold RingPort.holds
    cases o.own <;> rfl
  have after : ∀ r : RingPort, ({ r.holds o with
      cur := some (o, o.bytes.length), lastOwn := o.own, ownQ := if o.own = true then [] else (r.holds o).ownQ,
      fwdQ := if o.own = true then (r.holds o).fwdQ else [] } : RingPort) = r.starts o := by
    intro r
    unfold RingPort.holds RingPort.starts
    cases o.own <;> rfl
  unfold W.startOut
  simp only [sorted, modPort_port, pickOut_holds, front, restamp_id _ _ _ asIs]
  have said := (W.logK_log (w.modPort p (·.holds o)) 0x04 [(6, 1, portNo p), (7, 1, b2n o.own)]).modPort p (fun r => { r with
    cur := some (o, o.bytes.length), lastOwn := o.own, ownQ := if o.own = true then [] else r.ownQ, fwdQ := if o.own = true then r.fwdQ else [] })
  rw [modPort_modPort] at said
  simpa only [after] using said

/-- Sending at an idle port where the frame waits alone, and credit for the whole of it: the frame leaves, and the log alone records it. -/
theorem pump_alone (ready : (w.dev.ring.port p).ready o.bytes.length) (asIs : o.own = false ∨ (readFrame o.bytes).type ≠ 4) (n : Nat) :
    (w.modPort p (·.sends o)).SameButLog ((w.modPort p (·.holds o)).pump p (n + 1)) := by
  obtain ⟨run, idle, fwd, own, credit⟩ := ready
  have started := startOut_alone (w := w) (p := p) asIs
  have port : ((w.modPort p (·.holds o)).startOut p).dev.ring.port p = (w.dev.ring.port p).starts o := by
    rw [started.ring]
    exact modPort_port w p _
  have runs : (w.modPort p (·.holds o)).running p = true := (running_iff _ p).2 (by rw [modPort_port]; exact run)
  have nothing : ((w.modPort p (·.holds o)).dev.ring.port p).cur = none := by rw [modPort_port]; exact idle
  have gone : (w.modPort p (·.starts o)).modPort p (fun r => { r with
      cur := none, credit := r.credit - o.bytes.length, tx := (o.bytes, false) :: r.tx }) = w.modPort p (·.sends o) := by
    rw [modPort_modPort]
    refine modPort_congr ?_
    simp only [RingPort.starts, RingPort.sends, idle, fwd, own]
  have fits : min o.bytes.length ((w.dev.ring.port p).starts o).credit = o.bytes.length := min_eq_left credit
  unfold W.pump
  simp only [runs, preempt_idle _ p nothing, nothing, Option.isNone_none, port, RingPort.starts_cur, fits, Bool.not_true, Bool.false_eq_true, if_false, if_true]
  rw [flush_empty _ p, ← gone]
  · exact started.modPort p _
  all_goals rw [modPort_port, port]
  · rfl
  · rfl

/-- A port that can send the frame at once has sent it when `putOut` ends, and the log alone records it. -/
theorem putOut_ready (ready : (w.dev.ring.port p).ready o.bytes.length) (asIs : o.own = false ∨ (readFrame o.bytes).type ≠ 4) :
    (w.modPort p (·.sends o)).SameButLog (w.putOut p o) := by
  have ⟨_, _, fwd, own, _⟩ := ready
  have put : w.modPort p (fun r => if o.own then { r with ownQ := r.ownQ ++ [o] } else { r with fwdQ := r.fwdQ ++ [o] }) = w.modPort p (·.holds o) := by
    refine modPort_congr ?_
    unfold RingPort.holds
    cases o.own <;> simp [fwd, own]
  unfold W.putOut W.flush
  rw [put]
  exact pump_alone ready asIs _

end

/-! ## Frames on their way (R126, R127, R131) -/

/-- The frame `f` as a port passes it on: one more hop, its HCRC anew, and the FCRC it came with. -/
def Frame.passed (f : Frame) (bs : List Byte) : OutFrame :=
  { bytes := ({ f with hops := f.hops + 1 } : Frame).bytes.take (10 + f.len) ++ (bs.drop (10 + f.len)).take 4, own := false, urg := f.urg }

section
variable {w : W} {p : RPort} {f : Frame} {bs : List Byte}

/-- A whole frame with a right header on a port in RUN is routed. -/
theorem ringIn_routed (run : w.running p = true) (long : 14 ≤ bs.length) (hcrc : hcrcOk bs = true) (len : (readFrame bs).len ≤ 1024)
    (whole : 14 + (readFrame bs).len ≤ bs.length) : w.ringIn p bs false = w.routeFrame p (readFrame bs) bs := by
  unfold W.ringIn
  simp [run, hcrc, not_lt.2 long, not_lt.2 len, not_lt.2 whole]

/-- A unicast frame for another unit that is not the unit's own and has hops left is passed on. -/
theorem routeFrame_passed (sweep : f.type ≠ 0x11) (assign : f.type ≠ 0x12) (uni : f.dst ≠ 63)
    (other : f.dst ≠ w.dev.ring.addr ∨ w.dev.ring.addr = 0) (foreign : f.orig = 0 ∨ f.orig ≠ w.dev.ring.addr) (hops : f.hops < 62) :
    w.routeFrame p f bs = w.passOn p f bs := by
  have mine : (w.dev.ring.addr != 0 && (f.dst == w.dev.ring.addr || f.dst == 63)) = false := by
    rcases other with h | h <;> simp [h, uni]
  unfold W.routeFrame
  simp only [mine]
  rw [if_neg (by tauto), if_neg (by tauto), if_neg (by tauto), if_neg (by omega)]
  rfl

theorem routeFrame_taken (sweep : f.type ≠ 0x11) (assign : f.type ≠ 0x12) (mine : f.dst = w.dev.ring.addr) (known : w.dev.ring.addr ≠ 0) :
    w.routeFrame p f bs = w.acceptFrame p f bs := by
  unfold W.routeFrame
  dsimp only
  rw [if_neg (by tauto), if_neg (by tauto), if_pos ⟨mine, known⟩]

/-- A frame other than a TIME frame leaves the other port as it came, with one more hop. -/
theorem passOn_ready (time : f.type ≠ 4) (hops : f.hops < 62) (replay : w.dev.log.lstate ≠ 4)
    (ready : (w.dev.ring.port (otherPort p)).ready (f.passed bs).bytes.length) :
    (w.modPort (otherPort p) (·.sends (f.passed bs))).SameButLog (w.passOn p f bs) := by
  have more : min 255 (f.hops + 1) = f.hops + 1 := by omega
  have run : w.running (otherPort p) = true := (running_iff w _).2 ready.1
  unfold W.passOn W.forward
  simp only [time, false_and, if_false, replay, run, if_true, more]
  exact putOut_ready ready (.inl rfl)

/-- A REPLY or an ERROR whose FCRC agrees joins the reply queue where there is room. -/
theorem acceptFrame_queued (reply : f.type = 2 ∨ f.type = 3) (fcrc : fcrcOk bs f = true) (whole : 14 + f.len ≤ bs.length)
    (room : w.dev.hpt.rqFull (14 + f.len) = false) :
    w.acceptFrame p f bs = w.modHpt (fun h => { h with
      rq := h.rq ++ [{ short := false, err := f.type == 3, ten := f.ten, bytes := bs.take (14 + f.len) }], irqErr := h.irqErr || f.type == 3 }) := by
  have queue : w.acceptType p f bs = w.replyIn f bs := by
    unfold W.acceptType
    rcases reply with h | h <;> simp only [h]
  have size : (bs.take (14 + f.len)).length = 14 + f.len := List.length_take_of_le whole
  unfold W.acceptFrame
  rw [if_pos fcrc, queue, W.replyIn, W.queueReply, if_neg (by rw [size, room]; exact Bool.false_ne_true)]

end

/-- Settles O9: a frame for another unit goes through `passOn`, whose frame an idle port with credit sends at once (`putOut_ready`); a REPLY or an ERROR
for this unit is accepted, and joins the queue. -/
theorem ringFrameMovesOn : Obligations.RingFrameMovesOn := by
  unfold Obligations.RingFrameMovesOn
  intro s p bs r run f long hcrc len whole
  have routed : (load s).ringIn p bs false = (load s).routeFrame p f bs := ringIn_routed ((running_iff (load s) p).2 run) long hcrc len whole
  refine ⟨?_, ?_⟩
  · intro sweep assign time uni other foreign hops b ready
    have passed : (load s).ringIn p bs false = (load s).passOn p f bs := routed.trans (routeFrame_passed sweep assign uni other foreign hops)
    have log : ((load s).modPort (otherPort p) (·.sends (f.passed bs))).SameButLog ((load s).ringIn p bs false) := by
      rw [passed]
      exact passOn_ready time hops r.2 ready
    have sent := rackRun_logged r (f := fun w => w.ringIn p bs false) log (modPort_rq _ _ _) (by rw [modPort_log]; exact r.2)
    rwa [commit_sends] at sent
  · intro reply mine known fcrc room
    have sweep : f.type ≠ 0x11 := by omega
    have assign : f.type ≠ 0x12 := by omega
    have queued := (routed.trans (routeFrame_taken sweep assign mine known)).trans (acceptFrame_queued reply fcrc whole room)
    exact rack_next r (f := fun w => w.ringIn p bs false) _ queued rfl r.2

/-! ## Link states outside RUN (R125, R143; Table 7.2) -/

/-- A meaning that only moves a port from one state outside RUN to another leaves it there without credit. -/
theorem rack_setPort {s : State} {p : RPort} {f : W → W} {n : Nat} (r : s.rack) (stays : n ≠ 4) (out : (s.dev.ring.port p).st ≠ 4)
    (e : f (load s) = (load s).setPort p n) : rackRun f s = .next (s.withPort p { s.dev.ring.port p with st := n, credit := 0 }) := by
  refine rack_port s p r f (fun x => { x with st := n, credit := 0 }) ?_
  rw [e, setPort_quiet _ _ n out]
  simp only [if_neg stays]

/-- The times of the link errors of port `p` in the last second, with one now. -/
def W.linkErrs (w : W) (p : RPort) : List Nat := (w.mono :: (w.dev.ring.port p).errT).filter (fun x => decide (w.mono < x + 1000000000))

/-- A link error that stays within sixteen in a second is only remembered. -/
theorem countLinkErr_few (w : W) (p : RPort) (few : (w.linkErrs p).length ≤ 16) :
    w.countLinkErr p = w.modPort p (fun r => { r with errT := w.linkErrs p }) := if_neg (not_lt.2 few)

theorem modPort_mono (w : W) (p : RPort) (f : RingPort → RingPort) : (w.modPort p f).mono = w.mono := by cases p <;> rfl

/-- An error of a port out of RUN, counted by `count` and among few in its second, leaves the port SILENT. -/
theorem error_silent {w : W} {p : RPort} (count : RingPort → RingPort) (st : ∀ r, (count r).st = r.st) (errT : ∀ r, (count r).errT = r.errT)
    (out : (w.dev.ring.port p).st ≠ 4) (few : (w.linkErrs p).length ≤ 16) :
    ((w.modPort p count).countLinkErr p).setPort p 1 = w.modPort p (fun r => { count r with st := 1, credit := 0, errT := w.linkErrs p }) := by
  have same : (w.modPort p count).linkErrs p = w.linkErrs p := by
    unfold W.linkErrs
    rw [modPort_port, modPort_mono, errT]
  rw [countLinkErr_few _ p (by rw [same]; exact few), same, setPort_quiet, modPort_modPort, modPort_modPort]
  · rfl
  · rw [modPort_port, modPort_port]
    exact (st _).symm ▸ out

/-- Settles O10: outside RUN a change of state touches the port alone (`rack_setPort`); the errors are counted first (`error_silent`), and an FCT finds
nothing that waits (`flush_empty`). -/
theorem linkSteps : Obligations.LinkSteps := by
  unfold Obligations.LinkSteps
  intro s p r q errs
  refine ⟨?silent, ?null, ?timeout, ?fct, ?errors⟩
  case silent =>
    intro st
    exact rack_setPort r (f := fun w => w.silentEnd p) (by omega) (by show q.st ≠ 4; omega) (if_pos st)
  case null =>
    intro st
    exact rack_setPort r (f := fun w => w.nullIn p) (by omega) (by show q.st ≠ 4; omega) (if_pos st)
  case timeout =>
    intro st
    exact rack_setPort r (f := fun w => w.startTimeout p) (by omega) (by show q.st ≠ 4; omega) (if_pos st)
  case fct =>
    intro st room idle fwd own
    refine rack_port s p r (fun w => w.fctIn p) (fun x => { x with credit := x.credit + 8 }) ?_
    have run : (load s).dev.ring.port p = q := rfl
    unfold W.fctIn W.flush
    dsimp only
    rw [run, if_neg (by omega), if_pos st, if_neg (by omega)]
    exact flush_empty _ p (by rw [modPort_port]; exact idle) (by rw [modPort_port]; exact fwd) (by rw [modPort_port]; exact own) _
  case errors =>
    intro st few
    have out : ((load s).dev.ring.port p).st ≠ 4 := by show q.st ≠ 4; omega
    have live : ¬ ((load s).dev.ring.port p).st < 2 := by show ¬ q.st < 2; omega
    refine ⟨?_, fun k => ?_⟩
    · refine rack_port s p r (fun w => w.disconnect p) (fun x => { x with st := 1, credit := 0, disc := satAdd 8 x.disc 1, errT := _ }) ?_
      exact (if_neg live).trans (error_silent (fun x => { x with disc := satAdd 8 x.disc 1 }) (fun _ => rfl) (fun _ => rfl) out few)
    · refine rack_port s p r (fun w => w.linkErr p k) (fun x => { x with st := 1, credit := 0, err := satAdd 8 x.err 1, errT := _ }) ?_
      exact (if_neg live).trans (error_silent (fun x => { x with err := satAdd 8 x.err 1 }) (fun _ => rfl) (fun _ => rfl) out few)

end Sys2Proof.Machine

/-! Blocks: a block operation takes new buffers from the free list, or pins the list that it names, and waits in its queue. -/

namespace Sys2Proof.Machine

/-! ## The end of a block operation's submission -/

/-- `s` once the block operation `o` has its ticket and its new buffers, with `m` the bytes of all buffers (R161, R177). -/
def State.blocked (s : State) (o : Op) (m : Mem) : State :=
  let new := s.dev.pool.bufFree.take (bufsFor o.dlen)
  let w := s.ticketed o (fun y => { y with bufs := new, pins := new })
  { w with
    bufs := m
    dev.pool := { w.dev.pool with
      bufFree := s.dev.pool.bufFree.drop (bufsFor o.dlen)
      bufs := ((List.range new.length).zip new).foldl (fun l e => tput l e.2
        { next := new.getD (e.1 + 1) 0, last := decide (e.1 + 1 = new.length), owned := true, pin := 1, ten := o.req.ten.val,
          ticket := s.dev.pool.tktFree.headD 0 }) s.dev.pool.bufs }
    dev.tens := lmod w.dev.tens o.req.ten.val (fun y => { y with
      bufUse := y.bufUse + new.length, bufPeak := max y.bufPeak (y.bufUse + new.length) }) }

/-- `s` once the write `o` has its ticket and has pinned the buffers `l` (R182). -/
def State.listed (s : State) (o : Op) (l : List Nat) : State :=
  let w := s.ticketed o (fun y => { y with pins := l })
  { w with dev.pool := { w.dev.pool with bufs := l.foldl (fun x i => tmod {} x i (fun y => { y with pin := y.pin + 1 })) s.dev.pool.bufs } }

theorem commit_listed (s : State) (o : Op) (l : List Nat) : commit s ((load s).listed o l) = s.listed o l := rfl

/-- A block operation's submission, committed, is `State.blocked` with the bytes that it writes; it asks for nothing and records nothing. -/
theorem commit_filled (s : State) (o : Op) :
    ∃ m, commit s ((load s).filled o) = s.blocked o m ∧ ((load s).filled o).rq = [] ∧ ((load s).filled o).dev.log = s.dev.log := by
  obtain ⟨out, cleared⟩ := zero_dev ((load s).dev.pool.bufFree.take (bufsFor o.dlen)) (load s)
  unfold W.filled W.blocked
  dsimp only
  rw [cleared]
  exact ⟨_, rfl, rfl, rfl⟩

/-! ## The bytes of the new buffers (R177) -/

theorem fillOut_nil (out : List Host.Cell) (bs : List Nat) : fillOut out bs [] = out := by
  unfold fillOut
  simp

/-- The new buffers are cleared, and then take the operation's inline data. -/
theorem filled_bout (w : W) (o : Op) (reads : o.inlineB = false → o.inl = []) :
    (w.filled o).bout = fillOut ((w.dev.pool.bufFree.take (bufsFor o.dlen)).foldl (fun w b => w.pokeBuf (64 * b) (List.replicate 64 0)) w).bout
      (w.dev.pool.bufFree.take (bufsFor o.dlen)) o.inl := by
  cases inline : o.inlineB with
  | true => exact if_pos inline
  | false =>
    rw [reads inline, fillOut_nil]
    exact if_neg (ne_true_of_eq_false inline)

/-- A byte of the buffers after the submission: in a new buffer the inline data from its first byte on, 0 behind it, and elsewhere as before. -/
theorem mget_filled {s : State} (inv : s.Inv) (o : Op) (reads : o.inlineB = false → o.inl = [])
    (distinct : (s.dev.pool.bufFree.take (bufsFor o.dlen)).Nodup) (i : Nat) :
    let new := s.dev.pool.bufFree.take (bufsFor o.dlen)
    mget (commit s ((load s).filled o)).bufs i =
      if new.contains (i / 64) then o.inl.getD (64 * new.idxOf (i / 64) + i % 64) 0 else mget s.bufs i := by
  dsimp only
  rw [commit_bufs, mget_writeAll inv.2, filled_bout _ o reads, fill_find _ _ _ _ (by exact distinct), zero_all, load_bout, load_dev]
  by_cases new : (s.dev.pool.bufFree.take (bufsFor o.dlen)).contains (i / 64) = true
  · simp only [new, if_true, Bool.true_and, decide_eq_true_eq]
    split
    · rfl
    · rename_i behind
      rw [List.getD_eq_default _ _ (not_lt.1 behind)]
      rfl
  · simp only [new, Bool.false_and, Bool.false_eq_true, if_false]
    rfl

/-! ## The requests -/

section
variable {s : State} {o : Op} {cmd : Instr} (runs : exec cmd s = rackRun (fun w => w.request o) s) (r : s.rack)
include runs r

/-- A Gen2 request that the front admits does what its submission does, where that is not granted at once. -/
theorem request_submits {v : W} (gen : o.req.gen = 2) (f : s.fits o) (submits : (load s).submit o = v) (waits : v.kick = v) (rq : v.rq = [])
    (live : v.dev.log.lstate ≠ 4) : exec cmd s = .next (commit s v) := by
  obtain ⟨-, tenGen, urgent, good, -⟩ := f
  exact runs.trans (rack_next r v (request_gen2 (load s) o v gen tenGen urgent (good gen) submits waits) rq live)

/-- A block read, or a write with inline data, takes new buffers and waits in its queue. -/
theorem block_takes (c : s.contended) (inv : s.Inv) (op : readOp o) (reads : o.inlineB = false → o.inl = []) (f : s.fits o)
    (free : s.dev.bufTest o.req.ten.val (bufsFor o.dlen) = .ok) (distinct : (s.dev.pool.bufFree.take (bufsFor o.dlen)).Nodup) :
    Does cmd s (fun u => u = s.blocked o u.bufs ∧ ∀ i, mget u.bufs i =
      if (s.dev.pool.bufFree.take (bufsFor o.dlen)).contains (i / 64) then
        o.inl.getD (64 * (s.dev.pool.bufFree.take (bufsFor o.dlen)).idxOf (i / 64) + i % 64) 0 else mget s.bufs i) := by
  have gen : o.req.gen = 2 := op.2.2
  obtain ⟨m, ends, rq, log⟩ := commit_filled s o
  have submits : (load s).submit o = (load s).filled o := by
    obtain ⟨-, -, -, -, -, barred, addressed, noReset, ticket⟩ := f
    exact submit_block (load s) o barred addressed noReset ticket free op
  refine ⟨_, request_submits runs r gen f submits (filled_kick _ o c) rq (by rw [log]; exact r.2), ?_, mget_filled inv o reads distinct⟩
  rw [ends]
  rfl

/-- A write from a list pins the list's buffers and waits in its queue. -/
theorem list_pins (c : s.contended) {l : List Nat} (gen : o.req.gen = 2) (lists : o.lists = true) (f : s.fits o)
    (names : s.dev.pool.dataList o.req.ten.val (bufsFor o.dlen) o.buf [] = .ok l) : exec cmd s = .next (s.listed o l) := by
  have submits : (load s).submit o = (load s).listed o l := by
    obtain ⟨-, -, -, -, -, barred, addressed, noReset, ticket⟩ := f
    exact submit_list (load s) o l barred addressed noReset ticket lists names
  rw [← commit_listed]
  exact request_submits runs r gen f submits (listed_kick _ o l c) rfl r.2

end

/-- Inline data of the length that the request names is the request's own data. -/
theorem sourced_inline (w : W) (o : Op) {bs : List Byte} {n : Nat} (h : bs.length = n) :
    w.sourced o (.inline bs) n = w.request { o with inlineB := true, inl := bs } := if_pos h

/-- Settles O37: each command is a Gen2 request whose submission takes new buffers (`block_takes`) or pins the list that it names (`list_pins`). -/
theorem blocksQueue : Obligations.BlocksQueue := by
  unfold Obligations.BlocksQueue
  intro s q a tmo v m n b r c inv
  dsimp only
  refine ⟨?rdblk, ?erx, fun bs len => ⟨?wrblk, ?etx⟩, ?wrblkList, ?etxList⟩
  case rdblk => exact block_takes rfl r c inv ⟨.inl ⟨.inl rfl, rfl⟩, rfl, rfl⟩ (fun _ => rfl)
  case erx => exact block_takes rfl r c inv ⟨.inl ⟨.inr rfl, rfl⟩, rfl, rfl⟩ (fun _ => rfl)
  case wrblk => exact block_takes (rackRun_congr (sourced_inline _ _ len)) r c inv ⟨.inr ⟨.inl rfl, rfl⟩, rfl, rfl⟩ nofun
  case etx => exact block_takes (rackRun_congr (sourced_inline _ _ len)) r c inv ⟨.inr ⟨.inr rfl, rfl⟩, rfl, rfl⟩ nofun
  case wrblkList => exact fun l => list_pins rfl r c rfl rfl
  case etxList => exact fun l => list_pins rfl r c rfl rfl

end Sys2Proof.Machine

/-! Fences and short frames: a FENCE that has issued completes, and a Gen1 frame becomes an operation that waits in Q2. -/

namespace Sys2Proof.Machine

/-! ## The end of a FENCE (R162, R173) -/

/-- The only ticket in use has no earlier one before it. -/
theorem earlier_single {d : Dev} {n : Nat} {k : Ticket} (only : d.pool.tkts = [(n, k)]) : d.earlier n = false := by
  simp [Dev.earlier, only]

theorem tkt_single {p : Pools} {n : Nat} {k : Ticket} (only : p.tkts = [(n, k)]) : p.tkt n = k := by
  simp [Pools.tkt, only, tget]

theorem setTkt_single {p : Pools} {n : Nat} {k : Ticket} (only : p.tkts = [(n, k)]) (x : Ticket) : p.setTkt n x = { p with tkts := [(n, x)] } := by
  simp [Pools.setTkt, only, tput]

/-- A FENCE that is the only ticket in use, and has issued, completes OK. -/
theorem fenceDone_single {w : W} {t n : Nat} {k : Ticket} {o : Op} (only : w.dev.pool.tkts = [(n, k)]) (issued : k.st = .issued) (ten : k.ten = t)
    (op : k.op = some o) (fence : o.kind = .fence) : w.fenceDone t = w.complete n stOK 0 0 := by
  unfold W.fenceDone
  rw [only, List.find?_cons_of_pos]
  simp [issued, ten, op, fence, earlier_single only]

/-- `s` once the ticket `n` of tenant `t`, which alone was in use, is free: its issue count is kept, and the tenant's debts end where its use allows. -/
def State.retired (s : State) (t n : Nat) (k : Ticket) : State :=
  { s with
    dev.pool := { s.dev.pool with tkts := [(n, { icount := k.icount })], tktFree := s.dev.pool.tktFree ++ [n] }
    dev.tens := lmod s.dev.tens t (fun x => { x with
      tktUse := x.tktUse - 1
      tdebt := x.tdebt && !debtOver (x.tktUse - 1) (s.dev.img.cfg.tktMin t)
      bdebt := x.bdebt && !debtOver x.bufUse (s.dev.img.cfg.bufMin t) }) }

theorem freeTkt_single {s : State} {n : Nat} {k : Ticket} (only : s.dev.pool.tkts = [(n, k)]) (live : k.st ≠ .quarantined) (unpinned : k.pins = []) :
    commit s ((load s).freeTkt n) = s.retired k.ten n k ∧ ((load s).freeTkt n).rq = [] ∧ ((load s).freeTkt n).dev.log = s.dev.log := by
  have one : (load s).dev.pool.tkt n = k := tkt_single only
  have pool : (unpin s.dev.pool k.pins).setTkt n { icount := k.icount } = { s.dev.pool with tkts := [(n, { icount := k.icount })] } := by
    rw [unpinned]
    exact setTkt_single only _
  unfold W.freeTkt
  rw [one]
  dsimp only
  rw [if_neg live]
  refine ⟨?_, rfl, rfl⟩
  unfold W.settle W.modTen W.modPool State.retired lmod
  dsimp only
  rw [List.modify_modify_eq, load_dev, pool]
  rfl

/-! ## A frame at the front (R154, R158) -/

/-- A submission of an operation without data, after recording alone, gives it its ticket. -/
theorem submit_recorded {s : State} {o : Op} {b : W} (same : (load s).SameButLog b) (d : o.dataless) (f : s.fits o) (c : s.contended) :
    (b.submit o).kick = b.ticketed o id := by
  obtain ⟨noList, noTake, buf⟩ := d
  obtain ⟨-, -, -, -, -, barred, addressed, noReset, ticket⟩ := f
  rw [submit_plain b o ?barred addressed noReset ?ticket noList noTake buf, kick_ticketed b o id ?contended]
  case barred =>
    rw [same.1]
    exact barred
  case ticket =>
    rw [same.1]
    exact ticket
  case contended =>
    rw [same.1]
    exact c

theorem gen1Op_dataless (p : List Byte) (rt : Route) (t : Ten) : (gen1Op p rt t).dataless := by
  have word : (gen1Op p rt t).kind = .wr ∨ (gen1Op p rt t).kind = .rd := ite_eq_or_eq _ _ _
  have inline : (gen1Op p rt t).inlineB = false := rfl
  refine ⟨?lists, ?takes, .inl rfl⟩
  case lists => rcases word with h | h <;> simp [Op.lists, h]
  case takes => rcases word with h | h <;> simp [Op.takes, h, inline]

theorem gen1Op_gen (p : List Byte) (rt : Route) (t : Ten) : (gen1Op p rt t).req.gen = 1 := rfl

theorem format_gen1 {x : FrontIn} {t : Ten} (c : Cfg) (gen : x.gen = 1) (payload : gen1Fault x.pay = none) (calm : x.rt.urg = false) :
    x.format c t = .ok [gen1Op x.pay x.rt t] := by
  unfold FrontIn.format
  rw [if_pos gen, payload, calm]
  rfl

/-- A good Gen1 frame: its arrival is recorded, and then its operation is submitted. -/
theorem front_gen1 {w : W} {x : FrontIn} {t : Ten} (ten : x.ten = t.val) (crc : x.crcOk = true) (type : x.type = 1) (gen : x.gen = 1)
    (good : w.genBad x.ten x.gen = false) (payload : gen1Fault x.pay = none) (calm : x.rt.urg = false) :
    ∃ b, w.SameButLog b ∧ w.front x = (b.submit (gen1Op x.pay x.rt t)).kick := by
  have seen := w.logK_log 0x03 [(6, 2, frontPort x.rt.port)]
  have few : x.ten < 5 := ten ▸ t.isLt
  have tenant : (⟨x.ten, few⟩ : Ten) = t := Fin.ext ten
  unfold W.front
  generalize w.logK 0x03 [(6, 2, frontPort x.rt.port)] = a at seen ⊢
  have goodGen : a.genBad x.ten x.gen = false := by
    rw [seen.1]
    exact good
  have crcGood : ¬ (!x.crcOk) = true := by simp [crc]
  have notThree : x.gen ≠ 3 := by omega
  dsimp only
  rw [dif_pos few, tenant, if_neg crcGood, if_neg (not_not.2 type), if_neg (ne_true_of_eq_false goodGen), format_gen1 _ gen payload calm]
  exact ⟨_, seen.trans (a.logT_log 0x10 _ _), congrArg W.kick (if_neg notThree)⟩

theorem genBad_fits {w : W} {t g : Nat} (known : g ≠ 0) (own : w.dev.img.woven = true → g = (w.dev.ten t).gen) : w.genBad t g = false := by
  cases woven : w.dev.img.woven with
  | false => simp [W.genBad, woven, known]
  | true => simp [W.genBad, ← own woven, known]

/-- In hard reset the port takes nothing (R148). -/
theorem sendShort_lost {s : State} (bs : List Byte) (off : s.dev.awake = false) : (load s).sendShort bs = load s := by
  have held : (!(load s).dev.awake) = true := by
    rw [load_dev, off]
    rfl
  exact if_pos held

/-- A short-form frame of the Gen1 tenant `t` as the front is handed it (R154). -/
def shortGen1 (t : Nat) (bs : List Byte) : FrontIn :=
  { rt := shortRoute, ten := t, gen := 1, crcOk := true, type := 1, dst63 := false, pay := bs, digest := crc32 bs }

/-- `s` with the status byte on HSDO (R148). -/
def State.shown (s : State) : State := { s with dev.hpt.hsdo := [s.dev.statusByte] }

/-- A transaction while the rack die runs begins with the status byte. -/
theorem hostTx_shown {s : State} (r : s.rack) (f : W → W) : (load s).hostTx f = f (load s.shown) :=
  hostTx_eq s f ⟨rack_awake r, r.2⟩ (rack_notDormant r)

theorem shortFrame_gen1 {w : W} {bs : List Byte} (gen : w.dev.shortGen = 1) (admitted : w.dev.admits w.dev.shortTen = true) (len : bs.length = 9) :
    w.shortFrame bs = w.front (shortGen1 w.dev.shortTen bs) := by
  have whole : bs.take 9 = bs := List.take_of_length_le len.le
  simp [W.shortFrame, shortGen1, gen, admitted, whole]

/-- A whole frame of a Gen1 tenant that the port admits goes to the front. -/
theorem sendShort_gen1 {s : State} {bs : List Byte} (r : s.rack) (gen : s.dev.shortGen = 1) (room : s.dev.hpt.rx.length < 2)
    (admitted : s.dev.admits s.dev.shortTen = true) (len : bs.length = 9) :
    (load s).sendShort bs = (load s.shown).front (shortGen1 s.dev.shortTen bs) := by
  have tenant : s.shown.dev.shortGen = 1 := gen
  have free : ¬ 2 ≤ s.shown.dev.hpt.rx.length := not_le.2 room
  have live : ¬ s.shown.dev.log.lstate = 4 := r.2
  have taken : (load s.shown).takeOrHold 0xA6 bs (fun w => w.shortFrame bs) = (load s.shown).front (shortGen1 s.dev.shortTen bs) :=
    (if_neg live).trans (shortFrame_gen1 tenant admitted len)
  rw [← taken]
  unfold W.sendShort
  rw [hostTx_shown r]
  simp [tenant, free, shortLen, len]

/-- Settles O38: the FENCE found is the only ticket, whose end is `freeTkt_single`; a Gen1 frame is recorded and its operation submitted (`front_gen1`).
Everything else that changes is what recording changes. -/
theorem fenceAndShort : Obligations.FenceAndShort := by
  unfold Obligations.FenceAndShort
  intro s t n k o bytes
  refine ⟨?fence, ?none, ?reset, ?short⟩
  case fence =>
    intro r only issued ten op fence noMsg gen quiet unpinned
    have live : k.st ≠ .quarantined := by simp [issued]
    obtain ⟨freed, rq, log⟩ := freeTkt_single (s := s) only live unpinned
    have done := complete_quiet (load s) n stOK 0 o k (tkt_single only) op noMsg gen quiet unpinned live rfl
    rw [← fenceDone_single (w := load s) only issued ten op fence] at done
    have ends := rackRun_logged (f := fun w => w.fenceDone t.val) r done rq (by rw [log]; exact r.2)
    rw [freed, ten] at ends
    exact ends
  case none => exact fun r waiting => rack_next r (load s) (fenceDone_none _ _ waiting) rfl r.2
  case reset => exact fun off live => runW_next (f := fun w => w.sendShort bytes) ⟨sendShort_lost bytes off, rfl, live⟩
  case short =>
    intro r c gen room admitted u ten len payload
    dsimp only
    intro fits
    have own : s.dev.img.woven = true → 1 = (s.dev.ten s.dev.shortTen).gen := ten ▸ fits.2.1
    obtain ⟨b, recorded, front⟩ := front_gen1 (w := load s.shown) (x := shortGen1 s.dev.shortTen bytes) ten.symm rfl rfl rfl
      (genBad_fits Nat.one_ne_zero own) payload rfl
    have took := submit_recorded recorded (gen1Op_dataless _ _ _) fits c
    have sent : (load s).sendShort bytes = b.ticketed (gen1Op bytes shortRoute u) id :=
      (sendShort_gen1 r gen room admitted len).trans (front.trans took)
    have same := ticketed_log recorded (gen1Op bytes shortRoute u) id
    rw [← sent] at same
    rw [waits_gen _ _ (by rw [gen1Op_gen]; decide)]
    exact runW_logged (f := fun w => w.sendShort bytes) same rfl r.2

end Sys2Proof.Machine

/-! The arbiters (chapter 10): the settings of TS, the pair that the TQA picks and what its grant does, and the packet that the BXA starts. -/

namespace Sys2Proof.Machine

/-! ## Settings (R195, R197, R210, R211) -/

/-- A write by TS to a register of the ARB block does what the block's own write does. -/
theorem writeRun_arb {s : State} {x : W} {st off v : Nat} (r : s.rack) (hw : s.writer 4) (aligned : off % 4 = 0) (block : off < 0x10000)
    (k : (load s).arbWrite 4 off v = (x, st)) (rq : x.rq = []) (live : x.dev.log.lstate ≠ 4) :
    writeRun 4 (0x30000 + off) v s = .next (commit s (x.ack st)) := by
  refine rack_next r (x.ack st) (act_done _ _ _ _ hw.1 _ _ ?_) rq live
  refine (regWrite_arb _ _ _ _ _ _ (rackWord_low _ (by omega) (by omega)) (fatalBars_writer s _ hw) (by omega) (by omega)).trans ?_
  rw [Nat.add_sub_cancel_left]
  exact congrArg doneWrite k

/-- The registers of the ARB block that TS alone may write: TQA_CTRL, TQA_PRIO0, TQA_PRIO1 and BXA_CTRL. -/
def arbSetting (off : Nat) : Prop := off = 0 ∨ off = 8 ∨ off = 0xC ∨ off = 0x40

theorem arbWrite_denied {off t : Nat} (w : W) (v : Nat) (setting : arbSetting off) (other : t ≠ 4) : w.arbWrite t off v = (w, stDENIED) :=
  (if_pos setting).trans (if_pos other)

/-- A write to an arbiter setting by T0 to T3 is DENIED. -/
theorem writeRun_arb_denied {s : State} {t : Ten} {off : Nat} (v : Nat) (r : s.rack) (setting : arbSetting off) (other : t ≠ 4) :
    writeRun t (0x30000 + off) v s = .next s.denied := by
  have place : off % 4 = 0 ∧ off < 0x10000 := by
    unfold arbSetting at setting
    omega
  have number : t.val ≠ 4 := fun h => other (Fin.ext h)
  refine rack_next r ((load s).ack stDENIED) (act_denied _ _ _ _ fun open' => ?_) rfl r.2
  rw [regWrite_arb _ _ _ _ _ _ (rackWord_low _ (by omega) (by omega)) open' (by omega) (by omega), Nat.add_sub_cancel_left,
    arbWrite_denied _ _ setting number]
  rfl

theorem arbWrite_freeze (w : W) (on : Bool) : w.arbWrite 4 0 (b2n on) = (w.modArb (fun a => { a with freeze := on }), stOK) := by
  cases on <;> rfl

theorem arbWrite_pmode (w : W) (on : Bool) :
    w.arbWrite 4 0x40 (b2n on) = (w.modArb (fun a => { a with pmode := if on then 1 else 0 }), stOK) := by
  cases on <;> rfl

theorem arbWrite_prio (w : W) (second : Bool) (v : Nat) :
    w.arbWrite 4 (if second then 0xC else 8) v = (w.modArb (fun a => { a with
      prio := upto 20 (fun i => if decide (16 ≤ i) = second then fld v (2 * (i % 16)) 2 else a.level i) }), stOK) := by
  simp only [← beq_iff_eq (b := second)]
  cases second <;> rfl

theorem freeze_eq (t : Ten) (on : Bool) (s : State) : exec (.freeze t on) s = writeRun t (0x30000 + 0) (b2n on) s := rfl

theorem pmodeWrite_eq (t : Ten) (on : Bool) (s : State) : exec (.pmodeWrite t on) s = writeRun t (0x30000 + 0x40) (b2n on) s := rfl

theorem tqaPrioWrite_eq (t : Ten) (second : Bool) (v : Word) (s : State) :
    exec (.tqaPrioWrite t second v) s = writeRun t (0x30000 + (if second then 0xC else 8)) v.toNat s := by
  cases second <;> rfl

/-- Settles O13: each command writes its register of the ARB block, which takes TS's write (`writeRun_arb`) and refuses the others'
(`writeRun_arb_denied`). -/
theorem arbiterSettings : Obligations.ArbiterSettings := by
  unfold Obligations.ArbiterSettings
  intro s t on second v r
  have prio : arbSetting (if second then 0xC else 8) := by
    cases second
    · exact .inr (.inl rfl)
    · exact .inr (.inr (.inl rfl))
  refine ⟨fun hw => ⟨?freeze, ?pmode, ?prio⟩, fun other => ⟨?freezeDenied, ?pmodeDenied, ?prioDenied⟩⟩
  case freeze =>
    rw [freeze_eq, writeRun_arb r hw rfl (by decide) (arbWrite_freeze _ on) rfl r.2]
    rfl
  case pmode =>
    rw [pmodeWrite_eq, writeRun_arb r hw rfl (by decide) (arbWrite_pmode _ on) rfl r.2]
    rfl
  case prio =>
    unfold arbSetting at prio
    rw [tqaPrioWrite_eq, writeRun_arb r hw (by omega) (by omega) (arbWrite_prio _ second v.toNat) rfl r.2]
    rfl
  case freezeDenied => exact (freeze_eq t on s).trans (writeRun_arb_denied _ r (.inl rfl) other)
  case pmodeDenied => exact (pmodeWrite_eq t on s).trans (writeRun_arb_denied _ r (.inr (.inr (.inr rfl))) other)
  case prioDenied => exact (tqaPrioWrite_eq t second v s).trans (writeRun_arb_denied _ r prio other)

/-! ## The pair that the TQA picks (R191) -/

/-- What pairs are ranked by: the level, then the credit, then the index, where the lower one ranks higher. -/
def Arb.rank (a : Arb) (i : Nat) : ℕ ×ₗ ℕ ×ₗ ℕᵒᵈ := toLex (a.level i, toLex (nth a.cred i, OrderDual.toDual i))

theorem rank_lt_iff (a : Arb) (i j : Nat) : a.rank j < a.rank i ↔
    a.level j < a.level i ∨ a.level i = a.level j ∧ (nth a.cred j < nth a.cred i ∨ nth a.cred i = nth a.cred j ∧ i < j) := by
  simp only [Arb.rank, Prod.Lex.toLex_lt_toLex, OrderDual.toDual_lt_toDual, eq_comm]

theorem ranks_iff (a : Arb) (i j : Nat) : a.ranks i j = true ↔ a.rank j < a.rank i := by
  simp [rank_lt_iff, Arb.ranks]

theorem rank_injective (a : Arb) : Function.Injective a.rank := fun _ _ same => (Prod.ext_iff.1 (Prod.ext_iff.1 same).2).2

/-- The TQA picks the requesting pair of the highest rank. -/
theorem tqaPick_eq_argmax (d : Dev) : d.tqaPick = ((List.range 20).filter d.requests).argmax d.arb.rank := by
  rw [List.argmax, List.foldl_filter]
  unfold Dev.tqaPick
  congr 1
  funext best i
  cases best <;> simp [List.argAux, ranks_iff]

theorem tqaPick_requests {d : Dev} {i : Nat} (pick : d.tqaPick = some i) : i < 20 ∧ d.requests i = true := by
  have among := List.argmax_mem (Option.mem_def.2 ((tqaPick_eq_argmax d).symm.trans pick))
  simpa using among

theorem rank_lt_of_tqaPick {d : Dev} {i j : Nat} (pick : d.tqaPick = some i) (bound : j < 20) (other : j ≠ i) (requests : d.requests j = true) :
    d.arb.rank j < d.arb.rank i := by
  have among : j ∈ (List.range 20).filter d.requests := by simp [bound, requests]
  have below := List.le_of_mem_argmax among (Option.mem_def.2 ((tqaPick_eq_argmax d).symm.trans pick))
  exact lt_of_le_of_ne below ((rank_injective d.arb).ne other)

theorem requests_of_tqaPick_none {d : Dev} {j : Nat} (pick : d.tqaPick = none) (bound : j < 20) : d.requests j = false := by
  rw [tqaPick_eq_argmax, List.argmax_eq_none, List.filter_eq_nil_iff] at pick
  simpa using pick j (List.mem_range.2 bound)

theorem requests_iff (d : Dev) (t q : Nat) (queue : q < 4) :
    d.requests (4 * t + q) = true ↔ (d.ten t).queues.getD q [] ≠ [] ∧ (d.arb.freeze = true → t = 4) := by
  have tenant : (4 * t + q) / 4 = t := by omega
  have place : (4 * t + q) % 4 = q := by omega
  unfold Dev.requests Dev.pairQueue
  rw [tenant, place]
  cases d.arb.freeze <;> simp

/-- Settles O14: the pick is the maximum of a ranking without ties (`tqaPick_eq_argmax`). -/
theorem tqaPicksHighest : Obligations.TqaPicksHighest := by
  unfold Obligations.TqaPicksHighest
  intro d
  refine ⟨fun i pick => ?highest, fun i pick parked j bound requests => ?parked, fun pick j bound => requests_of_tqaPick_none pick bound,
    fun t _ q queue => requests_iff d t q queue⟩
  case highest =>
    obtain ⟨bound, requests⟩ := tqaPick_requests pick
    exact ⟨bound, requests, fun j below other waits => (rank_lt_iff _ _ _).1 (rank_lt_of_tqaPick pick below other waits)⟩
  case parked =>
    by_cases same : j = i
    · rw [same, parked]
    · have lower := (rank_lt_iff _ _ _).1 (rank_lt_of_tqaPick pick bound same requests)
      omega

/-! ## A grant of the TQA (R191, R192, R199) -/

theorem setTkt_tkt (p : Pools) (n : Nat) (k : Ticket) : (p.setTkt n k).tkt n = k := tget_tput _ _ _ _

theorem debit_fifos (a : Arb) (c : Cfg) (i : Nat) : (a.debit c i).fifos = a.fifos := by
  unfold Arb.debit
  dsimp only
  split <;> rfl

/-- `w` after the handover of pair `i`, whose queue held `n` and then `rest`. -/
def W.handedOver (w : W) (i n : Nat) (rest : List Nat) : W :=
  { w with
    dev.tens := lmod w.dev.tens (i / 4) (fun t => { t with queues := t.queues.set (i % 4) rest })
    dev.pool := w.dev.pool.setTkt n { w.dev.pool.tkt n with st := .issued }
    dev.arb := { w.dev.arb.debit w.cfg i with sel := none } }

theorem handover_log {w : W} {i n : Nat} {rest : List Nat} (queue : w.dev.pairQueue i = n :: rest) :
    ∃ b, (w.handedOver i n rest).SameButLog b ∧ w.handover i = (b, some n) := by
  unfold W.handover
  rw [queue]
  exact ⟨_, W.logK_log (w.handedOver i n rest) _ _, rfl⟩

theorem grantPair_log {w : W} {i n : Nat} {rest : List Nat} (queue : w.dev.pairQueue i = n :: rest) :
    ∃ b, (w.handedOver i n rest).SameButLog b ∧ w.grantPair i = b.issue n := by
  obtain ⟨b, same, hands⟩ := handover_log queue
  refine ⟨b, same, ?_⟩
  unfold W.grantPair
  rw [hands]

theorem tqaGrant_picked {w : W} {i : Nat} (live : w.dev.log.lstate < 4) (sel : w.dev.arb.sel = none) (pick : w.dev.tqaPick = some i) :
    w.tqaGrant = w.grantPair i := by
  unfold W.tqaGrant
  rw [if_neg (by omega), if_neg (by omega), sel, pick]

theorem issue_board {w : W} {n : Nat} {o : Op} (op : (w.dev.pool.tkt n).op = some o) (board : (w.dev.pool.tkt n).board = true) :
    w.issue n = w.issueBoard n o := by
  unfold W.issue
  rw [op]
  exact if_pos board

theorem issueBoard_active {w : W} {n : Nat} {o : Op} (fatal : w.dev.flt.fatal = false) (alive : w.dev.bar.bAlive = true)
    (active : w.dev.sup.mode ≠ 1) (noEngine : ¬ (o.kind = .etx ∨ o.kind = .erx)) : w.issueBoard n o = w.sendOp n := by
  simp [W.issueBoard, fatal, alive, active, noEngine]

/-- The operation is of one word. -/
def Op.oneWord (o : Op) : Prop := o.kind ∈ [OpKind.rd, OpKind.wr, OpKind.rmw, OpKind.set, OpKind.clr]

theorem Op.oneWord.kind_ne {o : Op} (word : o.oneWord) {k : OpKind} (other : k ∉ [OpKind.rd, OpKind.wr, OpKind.rmw, OpKind.set, OpKind.clr]) :
    o.kind ≠ k := fun h => other (h ▸ word)

theorem blockWord_oneWord {o : Op} (w : W) (k : Ticket) (word : o.oneWord) : w.blockWord k o = o := by
  unfold W.blockWord
  dsimp only
  split
  case h_1 reads => exact absurd reads (word.kind_ne (by decide))
  case h_2 writes => exact absurd writes (word.kind_ne (by decide))
  case h_3 => rfl

theorem sendOp_oneWord {w : W} {n : Nat} {o : Op} (op : (w.dev.pool.tkt n).op = some o) (noEngine : o.engine = none) (word : o.oneWord) :
    w.sendOp n = w.enqueue (w.dev.opPkt n (.op o)) := by
  unfold W.sendOp
  simp only [op, noEngine, blockWord_oneWord _ _ word]

theorem enqueue_tail {w : W} {p : Pkt} (bulk : p.queue ≠ 0) :
    w.enqueue p = w.modArb (fun a => { a with fifos := lmod a.fifos p.ten (fun l => l ++ [p]) }) := if_neg bulk

/-- The ticket `n` sends the operation `o` of one word to the board die at once. -/
def Dev.sendsWord (d : Dev) (n : Nat) (o : Op) : Prop :=
  (d.pool.tkt n).op = some o ∧ (d.pool.tkt n).board = true ∧ (d.pool.tkt n).queue ≠ 0 ∧ o.oneWord ∧ o.engine = none ∧
  d.flt.fatal = false ∧ d.bar.bAlive = true ∧ d.sup.mode = 0

/-- The packet of an operation of one word in Q1 to Q3 goes to the tail of its tenant's FIFO. -/
theorem issue_sendsWord {w : W} {n : Nat} {o : Op} (h : w.dev.sendsWord n o) : w.issue n =
    w.modArb (fun a => { a with fifos := lmod w.dev.arb.fifos (w.dev.pool.tkt n).ten (fun l => l ++ [w.dev.opPkt n (.op o)]) }) := by
  obtain ⟨op, board, bulk, word, noEngine, fatal, alive, active⟩ := h
  have plain : ¬ (o.kind = .etx ∨ o.kind = .erx) := not_or.2 ⟨word.kind_ne (by decide), word.kind_ne (by decide)⟩
  rw [issue_board op board, issueBoard_active fatal alive (by omega) plain, sendOp_oneWord op noEngine word]
  exact enqueue_tail bulk

/-- Settles O15: the handover issues the head ticket (`grantPair_log`), whose packet goes to the tail of its tenant's FIFO
(`issue_sendsWord`). -/
theorem tqaGrantIssues : Obligations.TqaGrantIssues := by
  unfold Obligations.TqaGrantIssues
  intro s i n rest o r live sel pick queue op board bulk word noEngine fatal alive active
  obtain ⟨b, same, grants⟩ := grantPair_log (w := load s) queue
  have ticket : b.dev.pool.tkt n = { s.dev.pool.tkt n with st := .issued } := by
    rw [same.1]
    exact setTkt_tkt _ _ _
  have sends : b.dev.sendsWord n o := by
    unfold Dev.sendsWord
    rw [ticket, same.1]
    exact ⟨op, board, bulk, word, noEngine, fatal, alive, active⟩
  have packet : b.dev.opPkt n (.op o) = s.dev.opPkt n (.op o) := by
    unfold Dev.opPkt
    rw [ticket]
  have fifos : b.dev.arb.fifos = s.dev.arb.fifos := by
    rw [same.1]
    exact debit_fifos _ _ _
  have issued := same.modArb (fun a => { a with fifos := lmod s.dev.arb.fifos (s.dev.pool.tkt n).ten (fun l => l ++ [s.dev.opPkt n (.op o)]) })
  have ends := (tqaGrant_picked (w := load s) live sel pick).trans (grants.trans (issue_sendsWord sends))
  rw [ticket, packet, fifos] at ends
  rw [← ends] at issued
  exact rackRun_logged r issued rfl r.2

/-! ## A grant of the BXA (R198, R200) -/

theorem setAside_idle {w : W} (idle : w.dev.arb.flight = none) : w.setAside = w := by
  unfold W.setAside
  rw [idle]

/-- The BXA may start a slot: none is in progress, the board die is alive, the packet lanes are awake, and the order log records. -/
def W.slotFree (w : W) : Prop := w.dev.arb.flight = none ∧ w.dev.bar.bAlive = true ∧ w.dev.bar.parked = false ∧ w.dev.log.lstate < 4

theorem bxaGrant_picked {w : W} {c : BxaClass × Nat} (free : w.slotFree) (pick : w.dev.bxaPick = some c) : w.bxaGrant = w.startSlot c.1 c.2 := by
  obtain ⟨idle, alive, awake, live⟩ := free
  have running : w.dev.log.lstate ≠ 5 := by omega
  have recording : w.dev.log.lstate ≠ 4 := by omega
  unfold W.bxaGrant
  simp [setAside_idle idle, idle, alive, awake, running, recording, pick]

/-! ### The choice -/

theorem bxaPick_lamp {d : Dev} {p : Pkt} (lamp : d.arb.lamp = some p) : d.bxaPick = some (.lamp, 0) := by
  simp [Dev.bxaPick, lamp]

theorem bxaPick_control {d : Dev} {p : Pkt} {rest : List Pkt} (noLamp : d.arb.lamp = none) (ctl : d.arb.ctl = p :: rest) :
    d.bxaPick = some (.control, 0) := by
  simp [Dev.bxaPick, noLamp, ctl]

theorem waiting_of_head {d : Dev} {t : Nat} {p : Pkt} {rest : List Pkt} (fifo : d.arb.fifo t = p :: rest) (may : d.maySend p = true) :
    d.waiting t = true := by
  unfold Dev.waiting
  rw [fifo]
  exact may

/-- Nothing of a higher class than the bulk classes waits, and no choice stands. -/
def Arb.onlyBulk (a : Arb) : Prop := a.lamp = none ∧ a.ctl = [] ∧ a.dbg = none ∧ a.resend = [] ∧ a.pend = none ∧ a.urgent = []

theorem bxaPick_owner {d : Dev} (bulk : d.arb.onlyBulk) (owned : d.img.cfg.slotOwner d.arb.pos < 5)
    (waits : d.waiting (d.img.cfg.slotOwner d.arb.pos) = true) : d.bxaPick = some (.owner, d.img.cfg.slotOwner d.arb.pos) := by
  obtain ⟨lamp, ctl, dbg, resend, pend, urgent⟩ := bulk
  have noUrgent : d.urgentHead = none := by simp [Dev.urgentHead, urgent]
  simp [Dev.bxaPick, lamp, ctl, dbg, resend, pend, noUrgent, owned, waits]

/-! ### The slot -/

/-- `w` with `p` in flight. -/
def W.inFlight (w : W) (p : Pkt) (c : BxaClass) : W :=
  w.modArb (fun a => { a with flight := some { pkt := p, cls := c, pmode := a.pmode }, pend := none })

theorem fly_log (w : W) (p : Pkt) (c : BxaClass) : (w.inFlight p c).SameButLog (w.fly p c) := (w.logK_log _ _).modArb _

theorem startSlot_lamp {w : W} {p : Pkt} (i : Nat) (lamp : w.dev.arb.lamp = some p) :
    w.startSlot .lamp i = (w.modArb (fun a => { a with lamp := none, emLamp := satAdd 16 a.emLamp 1 })).fly p .lamp := by
  simp [W.startSlot, lamp]

theorem startSlot_control {w : W} {p : Pkt} {rest : List Pkt} (i : Nat) (ctl : w.dev.arb.ctl = p :: rest) :
    w.startSlot .control i = (w.modArb (fun a => { a with ctl := rest, emLamp := satAdd 16 a.emLamp 1 })).fly p .control := by
  simp [W.startSlot, ctl]

theorem startSlot_owner {w : W} {t : Nat} {p : Pkt} {rest : List Pkt} (fifo : w.dev.arb.fifo t = p :: rest) :
    w.startSlot .owner t = ((w.fly p .owner).modArb (fun a => { a with fifos := a.fifos.set t rest })).advance := by
  simp [W.startSlot, fifo]

/-- Before its last entry the table moves on by one, and nothing restarts. -/
theorem advance_within {w : W} (within : w.dev.arb.pos < 63) : w.advance = w.modArb (fun a => { a with pos := a.pos + 1 }) := by
  have next : (w.dev.arb.pos + 1) % 64 = w.dev.arb.pos + 1 := Nat.mod_eq_of_lt (by omega)
  unfold W.advance
  simp [next, W.modArb]

theorem startSlot_owner_log {w : W} {t : Nat} {p : Pkt} {rest : List Pkt} (fifo : w.dev.arb.fifo t = p :: rest) (within : w.dev.arb.pos < 63) :
    ((w.inFlight p .owner).modArb (fun a => { a with fifos := a.fifos.set t rest, pos := a.pos + 1 })).SameButLog (w.startSlot .owner t) := by
  have same := (fly_log w p .owner).modArb (fun a => { a with fifos := a.fifos.set t rest })
  rw [startSlot_owner fifo, advance_within (by rw [same.1]; exact within)]
  exact same.modArb (fun a => { a with pos := a.pos + 1 })

/-- BXA_GRANT starts the slot of the choice, where what differs from `v` is what recording changes. -/
theorem bxaGrant_starts {s : State} {v : W} {c : BxaClass × Nat} (r : s.rack) (free : (load s).slotFree) (pick : s.dev.bxaPick = some c)
    (same : v.SameButLog ((load s).startSlot c.1 c.2)) (rq : v.rq = []) (live : v.dev.log.lstate ≠ 4) :
    Does .bxaGrant s (fun t => t = (commit s v).logged t) := by
  rw [← bxaGrant_picked free pick] at same
  exact rackRun_logged r same rq live

/-- Settles O16: the choice follows the classes in order (`bxaPick_lamp`, `bxaPick_control`, `bxaPick_owner`), and the slot that starts records
itself (`fly_log`). That the refresh goes before the other control packets is the model's choice (log entry 105). -/
theorem bxaGrantStarts : Obligations.BxaGrantStarts := by
  unfold Obligations.BxaGrantStarts
  intro s r live idle alive awake
  have free : (load s).slotFree := ⟨idle, alive, awake, live⟩
  refine ⟨?lamp, ?control, ?owner⟩
  case lamp =>
    intro p lamp
    have flies := fly_log ((load s).modArb (fun a => { a with lamp := none, emLamp := satAdd 16 a.emLamp 1 })) p .lamp
    rw [← startSlot_lamp 0 lamp] at flies
    exact bxaGrant_starts r free (bxaPick_lamp lamp) flies rfl r.2
  case control =>
    intro p rest noLamp ctl
    have flies := fly_log ((load s).modArb (fun a => { a with ctl := rest, emLamp := satAdd 16 a.emLamp 1 })) p .control
    rw [← startSlot_control 0 ctl] at flies
    exact bxaGrant_starts r free (bxaPick_control noLamp ctl) flies rfl r.2
  case owner =>
    intro p rest lamp ctl dbg resend pend urgent e owned fifo may within
    have pick := bxaPick_owner ⟨lamp, ctl, dbg, resend, pend, urgent⟩ owned (waiting_of_head fifo may)
    have flies := startSlot_owner_log (w := load s) fifo within
    exact bxaGrant_starts r free pick flies rfl r.2

end Sys2Proof.Machine

/-! A refresh at the board die: the lanes that it corrects, brings toward their return, and relieves of MISS. -/

namespace Sys2Proof.Machine

/-! ## The three walks of a refresh -/

/-- The board die that has taken a valid refresh, before its lanes. -/
def Board.steered (b : Board) (keep : Bool) (tb : Nat) : Board := { b with miss := 0, keepP := keep, timer := steer b.timer tb, timerQ := b.chunkQ }

/-- With LSEQ = WSEQ, the lanes that are LIVE are corrected (R223). -/
def W.corrects (w : W) (same : Bool) (lvl : List Nat) : W :=
  let live := (List.range 32).filter (fun n => (w.dev.bd.lane n).stage == 0)
  if same then live.foldl (fun w n => w.correct lvl n) w else w

/-- With LSEQ = WSEQ, the lanes in fail-safe come nearer to their return (R228). -/
def W.returns (w : W) (same : Bool) : W := if same then w.safeLanes.foldl W.towardReturn w else w

/-- The cause MISS ends on every lane under it (R225). -/
def W.missesEnd (w : W) : W := w.safeLanes.foldl (fun w n => if (w.dev.bd.lane n).cause &&& cMISS != 0 then w.endCause n cMISS else w) w

/-- What a refresh does to the lanes. -/
def W.lanesRefreshed (w : W) (same : Bool) (lvl : List Nat) : W := ((w.corrects same lvl).returns same).missesEnd

/-- The reports after a refresh: page 1 when it has corrected a lane, and page 0. -/
def Board.told (b : Board) (n0 : Nat) : Board := (if b.corrected = n0 then b else b.page1).page0

theorem told_around (b : Board) (n0 : Nat) : b.Around (b.told n0) := by
  unfold Board.told
  split
  · exact b.page0_around
  · exact b.page1_around.trans (Board.page0_around _)

theorem told_lane (b : Board) (n0 n : Nat) : (b.told n0).lane n = b.lane n := by
  unfold Board.told
  split <;> rfl

/-- The effect of a refresh is that on the lanes, and the reports. -/
theorem refreshed_told {w : W} {b b' : Board} {keep : Bool} {lvl : List Nat} {lseq tb : Nat} (core : b'.core = true)
    (walked : (w.withBd (b.steered keep tb)).lanesRefreshed (decide (lseq = b.wseq)) lvl = w.withBd b') :
    (w.withBd b).refreshed keep lvl lseq tb = w.withBd (b'.told b.corrected) := by
  let x := (w.withBd (b.steered keep tb)).lanesRefreshed (decide (lseq = b.wseq)) lvl
  have parts : (w.withBd b).refreshed keep lvl lseq tb = (if x.dev.bd.corrected = b.corrected then x else x.page1).page0 := rfl
  rw [parts, show x = w.withBd b' from walked, W.withBd_bd, Board.told]
  split
  · exact W.withBd_page0 w b' core
  · rw [W.withBd_page1 w b' core]
    exact W.withBd_page0 w b'.page1 core

/-! ## What the walks leave of a lane -/

/-- With another LSEQ than WSEQ and no lane under MISS, a refresh leaves the lanes alone. -/
theorem lanesRefreshed_idle (w : W) (lvl : List Nat) (clear : ∀ n < 32, (w.dev.bd.lane n).cause.getLsbD 0 = false) :
    w.lanesRefreshed false lvl = w := by
  refine foldl_same _ _ _ (fun n mem => if_neg ?_)
  have noMiss : ((w.dev.bd.lane n).cause &&& cMISS != 0) = false := cause_bit0 _ (clear n (mem_safe mem))
  exact fun h => Bool.false_ne_true (noMiss.symm.trans h)

/-- What a refresh makes of a lane: MISS ends, and with LSEQ = WSEQ one that is armed and has no cause comes nearer to its return (R228). -/
def Lane.Refreshed (same : Bool) (l l' : Lane) : Prop :=
  l'.cause = l.cause &&& 0x7E ∧
  (same = true → l.stage ≠ 0 → l.armed = true → l.cause = 0 →
    (1 ≤ l.refr → l'.stage = 0 ∧ l'.armed = false) ∧ (l.refr = 0 → l'.stage = l.stage ∧ l'.refr = 1))

section
variable (w : W) (b : Board) (core : b.core = true)
include core

theorem corrects_at_lanes (same : Bool) (lvl : List Nat) (awake : w.dev.log.lstate ≠ 4) :
    ∃ b', (w.withBd b).corrects same lvl = w.withBd b' ∧ b.Around b' ∧ lanesKeep b b' := by
  cases same with
  | false => exact ⟨b, rfl, .refl b, fun _ => ⟨rfl, rfl, rfl, rfl⟩⟩
  | true => exact corrects_at w lvl _ b core awake

theorem returns_at_lanes (same : Bool) :
    ∃ b', (w.withBd b).returns same = w.withBd b' ∧ b.LanesAlone b' ∧ ∀ n < 32, b.cfg.outLane n = true →
      (b'.lane n).cause = (b.lane n).cause ∧ (same = true → ReturnStep (b.lane n) (b'.lane n)) := by
  cases same with
  | false => exact ⟨b, rfl, rfl, fun _ _ _ => ⟨rfl, fun h => absurd h Bool.false_ne_true⟩⟩
  | true =>
    obtain ⟨b', walked, alone, -, stepped⟩ := walk_lanes LanesAlone.walks W.towardReturn (fun _ _ => ReturnStep) (w.withBd b).safeLanes
      (W.safeLanes_nodup _) (fun n _ => toward_steps n) w b core (fun _ _ _ _ _ _ k => k)
    refine ⟨b', walked, alone, fun n lt out => ?_⟩
    have step := stepped n (safe_of_out (w.withBd b) n lt out)
    exact ⟨step.1, fun _ => step⟩

theorem missesEnd_at :
    ∃ b', (w.withBd b).missesEnd = w.withBd b' ∧ b.LanesAlone b' ∧ ∀ n < 32, b.cfg.outLane n = true →
      (b'.lane n).cause = (b.lane n).cause &&& 0x7E ∧ (b'.lane n).stage = (b.lane n).stage ∧ (b'.lane n).armed = (b.lane n).armed ∧
        ((b.lane n).cause = 0 → (b'.lane n).refr = (b.lane n).refr) := by
  obtain ⟨b', walked, alone, -, stepped⟩ := walk_lanes LanesAlone.walks _ _ (w.withBd b).safeLanes
    (W.safeLanes_nodup _) (fun n _ => missEnd_steps n) w b core (fun _ _ _ _ _ _ k => k)
  exact ⟨b', walked, alone, fun n lt out => stepped n (safe_of_out (w.withBd b) n lt out)⟩

/-- The three walks together. -/
theorem lanesRefreshed_at (same : Bool) (lvl : List Nat) (awake : w.dev.log.lstate ≠ 4) :
    ∃ b', (w.withBd b).lanesRefreshed same lvl = w.withBd b' ∧ b.Around b' ∧
      ∀ n < 32, b.cfg.outLane n = true → (b.lane n).Refreshed same (b'.lane n) := by
  obtain ⟨b1, corrected, around1, keeps⟩ := corrects_at_lanes w b core same lvl awake
  have core1 : b1.core = true := around1.core.trans core
  have cfg1 : b1.cfg = b.cfg := by rw [around1]
  obtain ⟨b2, returned, alone2, steps⟩ := returns_at_lanes w b1 core1 same
  obtain ⟨b3, ended, alone3, ends⟩ := missesEnd_at w b2 ((LanesAlone.walks.core alone2).trans core1)
  refine ⟨b3, by rw [W.lanesRefreshed, corrected, returned, ended], (around1.trans alone2.only.around).trans alone3.only.around, fun n lt out => ?_⟩
  obtain ⟨cause1, stage1, armed1, refr1⟩ := keeps n
  obtain ⟨cause2, toward⟩ := steps n lt (by rwa [cfg1])
  obtain ⟨cause3, stage3, armed3, refr3⟩ := ends n lt (by rwa [alone2.only.cfg, cfg1])
  refine ⟨by rw [cause3, cause2, cause1], fun now safe armed none => ?_⟩
  obtain ⟨-, step⟩ := toward now
  obtain ⟨second, first⟩ := step (by rwa [stage1]) (by rwa [armed1]) (by rwa [cause1])
  rw [refr1] at second first
  refine ⟨fun again => ?_, fun fresh => ?_⟩
  · rw [stage3, armed3]
    exact second again
  · rw [stage3, refr3 (by rw [cause2, cause1, none]), ← stage1]
    exact first fresh

end

/-! ## The packet -/

theorem refreshPkt_taken {s : State} {p : Pkt} {rest : List Pkt} {keep : Bool} {lvl : List Nat} {lseq tb q : Nat} (h : s.boardHas p rest)
    (tabs : s.dev.bd.tabs = true) (body : p.body = .refresh keep lvl lseq tb q) :
    (load s).refreshPkt = ((load s).withBd (({ s.dev.bd with inbox := rest } : Board).tells [boardEntry 1 0 0])).refreshed keep lvl lseq tb := by
  rw [W.refreshPkt, boardHas_front h]
  simp only [body, boardHas_taken h]
  rw [if_pos (show (load s).dev.bd.tabs = true from tabs), W.withBd_bDecide _ _ (by exact board_core h.1)]

/-- Settles O23: a refresh records itself, steers the timer, and walks the lanes three times; with another LSEQ than WSEQ and no lane under MISS the
walks change nothing (`lanesRefreshed_idle`), and else each output lane is known by its own steps (`lanesRefreshed_at`). -/
theorem refreshTaken : Obligations.RefreshTaken := by
  unfold Obligations.RefreshTaken
  intro s p rest keep lvl lseq tb q h tabs body
  have core : (({ s.dev.bd with inbox := rest } : Board).tells [boardEntry 1 0 0]).core = true := board_core h.1
  refine ⟨fun clear other => ?idle, ?lanes⟩
  case idle =>
    have idle := lanesRefreshed_idle
      ((load s).withBd ((({ s.dev.bd with inbox := rest } : Board).tells [boardEntry 1 0 0]).steered keep tb)) lvl clear
    rw [← decide_eq_false other] at idle
    refine board_next h.1 _ ?_
    rw [refreshPkt_taken h tabs body, refreshed_told (by exact core) idle]
    exact congrArg (load s).withBd (congrArg Board.page0 (if_pos rfl))
  case lanes =>
    obtain ⟨b', walked, around, lanes⟩ := lanesRefreshed_at (load s)
      ((({ s.dev.bd with inbox := rest } : Board).tells [boardEntry 1 0 0]).steered keep tb) core (decide (lseq = s.dev.bd.wseq)) lvl (ls_board h.1)
    have taken := (refreshPkt_taken h tabs body).trans (refreshed_told (around.core.trans core) walked)
    refine does_board (board_next h.1 _ taken) ⟨rfl, ?_, fun n lt out => ?_⟩
    · show (b'.told _).miss = 0
      rw [around.trans (told_around b' _)]
      rfl
    · obtain ⟨cause, returns⟩ := lanes n lt out
      rw [show (s.withBoard (b'.told _)).dev.bd.lane n = b'.lane n from told_lane b' _ n]
      exact ⟨cause, fun same => returns (decide_eq_true same)⟩

end Sys2Proof.Machine

/-! The board die's timers: the miss window, HOLD_T, and the conflict window. -/

namespace Sys2Proof.Machine

/-! ## The miss window (R224) -/

/-- The board die after a missed refresh is counted and recorded. -/
def Board.missedOne (b : Board) : Board :=
  ({ b with miss := b.miss + 1, missed := satAdd 16 b.missed 1 } : Board).tells [timerEntry 2 0, boardEntry 2 0 0]

theorem missedOne_eq (b : Board) : { (b.tells [timerEntry 2 0]).tells [boardEntry 2 0 0] with miss := b.miss + 1, missed := satAdd 16 b.missed 1 } = b.missedOne := by
  rw [Board.tells_tells]
  rfl

theorem Board.EngOnly.around {b b' : Board} (h : b.EngOnly b') : b.Around b' := by
  unfold Board.Around
  rw [h]

/-- Pages 1 and 0, in that order, as most timers end. -/
theorem withBd_pages (w : W) (b : Board) (core : b.core = true) : (w.withBd b).page1.page0 = w.withBd b.page1.page0 := by
  rw [W.withBd_page1 w b core]
  exact W.withBd_page0 w b.page1 core

/-- Every output lane takes the cause: it is added, and the lane is out of LIVE. -/
theorem allCause_at (w : W) (b : Board) (core : b.core = true) (c : BitVec 7) :
    ∃ b', (w.withBd b).allCause c = w.withBd b' ∧ b.LanesOnly b' ∧
      ∀ n < 32, b.cfg.outLane n = true → (b'.lane n).cause = (b.lane n).cause ||| c ∧ (b'.lane n).stage ≠ 0 := by
  obtain ⟨b', walked, only, -, caused⟩ := walk_lanes LanesOnly.walks (fun w n => w.laneCause n c) (fun _ _ l l' => l'.cause = l.cause ||| c ∧ l'.stage ≠ 0)
    (w.withBd b).outLanes (W.outLanes_nodup _) (fun n _ => laneCause_steps n c) w b core (fun _ _ _ _ _ _ k => k)
  exact ⟨b', walked, only, fun n lt out => caused n (outLanes_mem (w.withBd b) n lt out)⟩

section
variable {s : State} (h : s.board) (tabs : s.dev.bd.tabs = true) (present : s.dev.bd.pstate ≠ 0)
include h tabs present

theorem missWindow_counts (below : s.dev.bd.miss + 1 ≠ s.dev.bd.cfg.nmiss) : (load s).missWindow = (load s).withBd s.dev.bd.missedOne := by
  rw [missWindow_at s h tabs present, missedOne_eq]
  exact if_neg below

/-- At NMISS the output lanes take MISS, engines may halt, and the board die reports. -/
theorem missWindow_reaches (reached : s.dev.bd.miss + 1 = s.dev.bd.cfg.nmiss) :
    ∃ b', (load s).missWindow = (load s).withBd b' ∧ b'.miss = s.dev.bd.miss + 1 ∧
      ∀ n < 32, s.dev.bd.cfg.outLane n = true → (b'.lane n).cause = (s.dev.bd.lane n).cause ||| cMISS ∧ (b'.lane n).stage ≠ 0 := by
  have core : s.dev.bd.missedOne.core = true := board_core h
  obtain ⟨b1, caused, only, lanes⟩ := allCause_at (load s) s.dev.bd.missedOne core cMISS
  have core1 : b1.core = true := only.core.trans core
  obtain ⟨b2, halted, engines⟩ := engMoves_haltMiss (load s) b1 core1
  have core2 : b2.core = true := (EngOnly.walks.core engines).trans core1
  have around : s.dev.bd.missedOne.Around (b2.raises 0x35 dUnit 0).page1.page0 :=
    (only.around.trans engines.around).trans (((b2.raises_around _ _ _).trans (Board.page1_around _)).trans (Board.page0_around _))
  refine ⟨(b2.raises 0x35 dUnit 0).page1.page0, ?_, ?_, fun n lt out => ?_⟩
  · rw [missWindow_at s h tabs present, missedOne_eq]
    have full : ((load s).withBd s.dev.bd.missedOne).dev.bd.miss = ((load s).withBd s.dev.bd.missedOne).bcfg.nmiss := reached
    dsimp only at halted ⊢
    rw [if_pos full, caused, halted, W.withBd_bRaise _ _ core2 (ls_board h), withBd_pages _ _ (by exact core2)]
  · rw [around]
    rfl
  · rw [Board.page0_lane, Board.page1_lane, Board.raises_lane, EngOnly.lane engines]
    exact lanes n lt out

end

/-! ## HOLD_T (R225, R227) -/

/-- HOLD_T of a lane that is no B→A channel's output expires on the board die. -/
theorem holdTExpiry_next {s : State} {n : Fin 32} {b : Board} (h : s.board) (own : s.dev.img.cfg.baChan n = false)
    (expires : (load s).holdT n = (load s).withBd b) : exec (.holdTExpiry n) s = .next (s.withBoard b) := by
  have board : ¬ (load s).cfg.baChan n = true := fun x => Bool.false_ne_true (own.symm.trans x)
  have runs : (load s).holdExpiry n = (load s).holdT n := (if_neg board).trans (if_pos (board_running h))
  exact run_board (f := fun w => w.holdExpiry n.val) (ls_board h) (runs.trans expires)

/-- The code that drives the second-stage value `second` on a lane of drive `od`. -/
def secondCode (second : Nat) (od : Bool) : Nat := if second = 0 then 0 else if second = 1 && !od then 1 else 2

/-- The board die after lane `n` has gone to the second stage of its settings `f`. -/
def Board.secondStage (b : Board) (n : Nat) (f : FsCfg) : Board :=
  let b' := b.drive n (secondCode f.second (b.cfg.lane n).od)
  b'.setLane n { b'.lane n with hiz := f.second == 2, stage := 2 }

/-- A HOLD lane that loses its level drives its second-stage value and is in FS2. -/
theorem driveSafe_second (w : W) (b : Board) (n : Nat) (core : b.core = true) (hold : ((w.withBd b).lfs n).fsv = 3) (second : ((w.withBd b).lfs n).second ≠ 3) :
    ((w.withBd b).driveSafe n true).modLane n (fun l => { l with stage := 2 }) = w.withBd (b.secondStage n ((w.withBd b).lfs n)) := by
  rw [W.driveSafe]
  simp only [hold, decide_true, Bool.and_self, if_true]
  rw [if_neg second, W.withBd_applyCode _ _ core, W.withBd_modLane, W.withBd_modLane, Board.setLane_setLane, Board.setLane_lane]
  rfl

theorem bTimer_at {s : State} (h : s.board) (kind i : Nat) : (load s).bTimer kind i = (load s).withBd (s.dev.bd.tells [timerEntry kind i]) :=
  W.withBd_bTimer (load s) s.dev.bd (board_core h) kind i

/-- Reporting leaves a lane's fail-safe settings alone. -/
theorem lfs_tells (w : W) (l : List Payload) (n : Nat) : (w.withBd (w.dev.bd.tells l)).lfs n = w.lfs n := by
  unfold W.lfs
  rfl

theorem holdT_lane {s : State} {n : Nat} (h : s.board) (out : s.dev.bd.cfg.outLane n = true) (stage : (s.dev.bd.lane n).stage = 1)
    (hold : ((load s).lfs n).fsv = 3) (second : ((load s).lfs n).second ≠ 3) (timed : ((load s).lfs n).holdT ≠ 0) :
    (load s).holdT n = (load s).withBd ((s.dev.bd.tells [timerEntry 7 n]).secondStage n ((load s).lfs n)).page1.page0 := by
  have core : (s.dev.bd.tells [timerEntry 7 n]).core = true := board_core h
  have expires : (load s).holdT n = ((((load s).bTimer 7 n).driveSafe n true).modLane n (fun l => { l with stage := 2 })).page1.page0 :=
    if_pos ⟨out, stage, hold, timed⟩
  have settings : ((load s).withBd (s.dev.bd.tells [timerEntry 7 n])).lfs n = (load s).lfs n := lfs_tells (load s) _ n
  rw [← settings] at hold second
  rw [expires, bTimer_at h, driveSafe_second (load s) _ n core hold second, settings, withBd_pages _ _ (by exact core)]

/-- The level that a direct channel's output takes at its second stage. -/
theorem directLevel_second (f : FsCfg) (cur : Bool) :
    ({ f with fsv := f.second } : FsCfg).directLevel cur = if f.second = 3 then cur else f.second != 0 := by
  by_cases zero : f.second = 0
  · simp [FsCfg.directLevel, zero]
  · by_cases three : f.second = 3 <;> simp [FsCfg.directLevel, zero, three]

/-- The board die after the output of the A→B channel `n` has gone to the second stage of its settings `f`: a powered and unparked pin follows
the channel, unless it is released. -/
def Board.secondStageDirect (b : Board) (n : Nat) (f : FsCfg) : Board :=
  let d : Direct := tget {} b.direct n
  let level := if f.second = 3 then d.level else f.second != 0
  ({ b with direct := tput b.direct n { d with stage2 := true, level := level } } : Board).setLane n { b.lane n with
    stage := 2, hiz := f.second == 2, pin := if b.bankUp n && !b.parked && f.second != 2 then level else (b.lane n).pin }

theorem holdT_direct {s : State} {n : Nat} (h : s.board) (notOut : s.dev.bd.cfg.outLane n = false) (ab : s.dev.bd.cfg.abLane n = true)
    (safe : (tget {} s.dev.bd.direct n).fs = true) (hold : ((load s).lfs n).fsv = 3) (timed : ((load s).lfs n).holdT ≠ 0) :
    (load s).holdT n = (load s).withBd ((s.dev.bd.tells [timerEntry 7 n]).secondStageDirect n ((load s).lfs n)).page0 := by
  have out : ¬ ((load s).bcfg.outLane n = true ∧ ((load s).dev.bd.lane n).stage = 1 ∧ ((load s).lfs n).fsv = 3 ∧ ((load s).lfs n).holdT ≠ 0) :=
    fun x => Bool.false_ne_true (notOut.symm.trans x.1)
  rw [W.holdT]
  dsimp only
  rw [if_neg out, if_pos ⟨ab, safe, hold, timed⟩, directLevel_second, bTimer_at h, W.withBd_modBd, W.withBd_modLane,
    W.withBd_page0 _ _ (by exact board_core h)]
  rfl

/-! ## The conflict window (R248) -/

theorem windowEnd_closes {s : State} {n : Nat} (h : s.board) (opened : (s.dev.bd.lane n).wOpen = true) :
    (load s).windowEnd n = (load s).withBd ((s.dev.bd.tells [timerEntry 5 n]).setLane n { s.dev.bd.lane n with wOpen := false }) := by
  refine (if_pos opened).trans ?_
  rw [bTimer_at h]
  rfl

/-- Settles O24: a missed window counts alone (`missWindow_counts`) or reaches NMISS (`missWindow_reaches`); the hold's end drives the second stage of a
lane (`holdT_lane`) or of a channel's output (`holdT_direct`); the window closes (`windowEnd_closes`). That an A→B
channel's output goes to FS2 and is reported in page 0 like any lane's is the model's choice (log entry 38). -/
theorem boardTimers : Obligations.BoardTimers := by
  unfold Obligations.BoardTimers
  intro s n h b f
  refine ⟨fun tabs present => ⟨fun below => ?counts, fun reached => ?reaches⟩, ?lane, ?direct, ?window⟩
  case counts => exact board_next h _ (missWindow_counts h tabs present below)
  case reaches =>
    obtain ⟨b', missed, miss, lanes⟩ := missWindow_reaches h tabs present reached
    exact does_board (board_next h b' missed) ⟨rfl, miss.trans reached, lanes⟩
  case lane =>
    intro own out stage hold second timed
    show exec (.holdTExpiry n) s = .next (s.withBoard ((b.tells [timerEntry 7 n]).secondStage n f).page1.page0)
    exact holdTExpiry_next h own (holdT_lane h out stage hold second timed)
  case direct =>
    intro own notOut ab safe hold timed
    show exec (.holdTExpiry n) s = .next (s.withBoard ((b.tells [timerEntry 7 n]).secondStageDirect n f).page0)
    exact holdTExpiry_next h own (holdT_direct h notOut ab safe hold timed)
  case window => exact fun opened => board_next h _ (windowEnd_closes h opened)

end Sys2Proof.Machine

/-! Lane writes: what the decision of a write does to the board die, branch by branch, and the RESULT that it sends. -/

namespace Sys2Proof.Machine

/-! ## The decision (R243 to R249) -/

/-- What a lane write drives: an open-drain lane releases where a push-pull lane drives high. -/
def LaneCfg.driven (c : LaneCfg) (code : Nat) : Nat := if c.od && code == 1 then 2 else code

/-- The board die after an applied write of `v` by tenant `t`: the lane driven and, where its settings give one, its window opened (R248). -/
def Board.written (b : Board) (t n v : Nat) : Board :=
  if (b.cfg.lane n).cwin = 0 then b.drive n v
  else (b.drive n v).setLane n { (b.drive n v).lane n with wOpen := true, wHolder := t, wCode := v, wStart := b.timer, wRaised := false }

/-- The board die after a write of tenant `t` that loses to another's window: the fault raised, the loser noted, the conflict counted (R245). -/
def Board.lostWrite (b : Board) (t n : Nat) : Board :=
  (b.raises 0x41 t n).setLane n { b.lane n with wRaised := true, lastLoser := t, conflicts := satAdd 8 (b.lane n).conflicts 1 }

section
variable (w : W) (b : Board) (t n code : Nat) (accepts : b.refuses = false) (out : (b.cfg.lane n).mode = 2) (coded : code ≠ 3)
include accepts out coded

/-- Past the board's refusals, a write to a LEVEL_OUT lane is decided by its owner set. -/
theorem laneWrite_owners : (w.withBd b).laneWrite t n code =
    if !(b.cfg.lane n).owners.getLsbD t then ((w.withBd b).bRaise 0x40 t n, stDENIED)
    else if b.safe n || b.stuck then (w.withBd b, stFAILSAFE)
    else if (b.lane n).wOpen && (b.lane n).wHolder != t then
      (if (b.cfg.lane n).driven code ≠ (b.lane n).wCode then (w.withBd b).conflict t n ((b.cfg.lane n).driven code) else (w.withBd b, stOK))
    else
      let x := (w.withBd b).applyCode n ((b.cfg.lane n).driven code)
      if (b.cfg.lane n).cwin = 0 then (x, stOK) else (x.modLane n (fun l => l.open t ((b.cfg.lane n).driven code) x.dev.bd.timer), stOK) := by
  have takes : ¬ (w.withBd b).dev.bd.refuses = true := fun x => Bool.false_ne_true (accepts.symm.trans x)
  have valid : ¬ (((w.withBd b).bcfg.lane n).mode ≠ 2 ∨ code = 3) := fun x => x.elim (fun k => k out) coded
  rw [W.laneWrite]
  exact (if_neg takes).trans (if_neg valid)

theorem laneWrite_stranger (core : b.core = true) (awake : w.dev.log.lstate ≠ 4) (stranger : (b.cfg.lane n).owners.getLsbD t = false) :
    (w.withBd b).laneWrite t n code = (w.withBd (b.raises 0x40 t n), stDENIED) := by
  rw [laneWrite_owners w b t n code accepts out coded, stranger, Bool.not_false, if_pos rfl, W.withBd_bRaise w b core awake]

variable (owner : (b.cfg.lane n).owners.getLsbD t = true)
include owner

theorem laneWrite_safe (held : b.safe n = true ∨ b.stuck = true) : (w.withBd b).laneWrite t n code = (w.withBd b, stFAILSAFE) := by
  rw [laneWrite_owners w b t n code accepts out coded, owner, Bool.not_true, if_neg Bool.false_ne_true, if_pos (Bool.or_eq_true _ _ ▸ held)]

variable (core : b.core = true) (live : b.safe n = false) (free : b.stuck = false)
include core live free

theorem laneWrite_applies (mine : (b.lane n).wOpen = false ∨ (b.lane n).wHolder = t) :
    (w.withBd b).laneWrite t n code = (w.withBd (b.written t n ((b.cfg.lane n).driven code)), stOK) := by
  have noWindow : ¬ ((b.lane n).wOpen && (b.lane n).wHolder != t) = true := by
    rcases mine with closed | holder
    · simp [closed]
    · simp [holder]
  rw [laneWrite_owners w b t n code accepts out coded, owner, live, free, Bool.not_true, if_neg Bool.false_ne_true, if_neg (by decide), if_neg noWindow,
    W.withBd_applyCode w b core, Board.written]
  by_cases window : (b.cfg.lane n).cwin = 0
  · rw [if_pos window, if_pos window]
  · rw [if_neg window, if_neg window]
    rfl

/-- Under the policy FIRST, the first write that differs from another tenant's window loses. -/
theorem laneWrite_loses (awake : w.dev.log.lstate ≠ 4) (opened : (b.lane n).wOpen = true) (other : (b.lane n).wHolder ≠ t)
    (differs : (b.lane n).wCode ≠ (b.cfg.lane n).driven code) (first : (b.cfg.lane n).policy = 0) (quiet : (b.lane n).wRaised = false) :
    (w.withBd b).laneWrite t n code = (w.withBd (b.lostWrite t n), stCONFLICT) := by
  have window : ((b.lane n).wOpen && (b.lane n).wHolder != t) = true := by simp [opened, other]
  have loses : winsConflict b.cfg n t (b.lane n).wHolder ((b.cfg.lane n).driven code) = false := by
    rw [winsConflict, first]
    rfl
  rw [laneWrite_owners w b t n code accepts out coded, owner, live, free, Bool.not_true, if_neg Bool.false_ne_true, if_neg (by decide), if_pos window,
    if_pos (Ne.symm differs), W.conflict]
  simp only [W.withBd_bd, W.bcfg, loses, quiet, Bool.false_eq_true, if_false]
  rw [W.withBd_bRaise w b core awake, W.withBd_modLane, W.withBd_modLane, Board.setLane_setLane, Board.setLane_lane]
  rfl

end

/-! ## The RESULT (R243) -/

section
variable {w : W} {b b' : Board} {p : Pkt} {o : Op} {n st : Nat} (wr : o.kind = .wr) (lt : n < 32) (addr : o.addr.toNat = 0x50000 + 0x40 * n)
  (parked : b.parked = false) (k : (w.withBd b).laneWrite o.req.ten.val n (o.value.toNat % 4) = (w.withBd b', st))
include wr lt addr parked k

/-- A lane write that leaves WSEQ as it was answers its status alone. -/
theorem execOp_unchanged (kept : b'.wseq = b.wseq) : (w.withBd b).execOp p o = w.withBd (b'.replies p st 0 none none) := by
  rw [laneWrite_at w b p o n wr lt addr parked _ k]
  rw [if_pos (show (w.withBd b', st).1.dev.bd.wseq = b.wseq from kept), W.withBd_reply]
  rfl

/-- A lane write that WSEQ counts answers with the lane's level, WSEQ and state. -/
theorem execOp_changed (counted : b'.wseq ≠ b.wseq) :
    (w.withBd b).execOp p o = w.withBd (b'.replies p st 0 (some (n, (b'.lane n).code, b'.wseq)) (some (n, b'.view n))) := by
  obtain ⟨lane, aligned, block⟩ := lanAddr n lt
  have news : (w.withBd b').laneNews (0x50000 + 0x40 * n) = (some (n, (b'.lane n).code, b'.wseq), some (n, b'.view n)) := by
    rw [W.laneNews, if_pos ⟨block, aligned⟩, lane]
    rfl
  rw [laneWrite_at w b p o n wr lt addr parked _ k]
  rw [if_neg (show ¬ (w.withBd b', st).1.dev.bd.wseq = b.wseq from counted), news, W.withBd_reply]
  rfl

end

theorem written_wseq (b : Board) (t n v : Nat) (out : (b.cfg.lane n).mode = 2) : (b.written t n v).wseq = (b.wseq + 1) % 65536 := by
  rw [← drive_wseq b n v out, Board.written]
  split <;> rfl

theorem written_code (b : Board) (t n v : Nat) : ((b.written t n v).lane n).code = v := by
  rw [Board.written]
  split
  · exact drive_code b n v
  · rw [Board.setLane_lane]
    exact drive_code b n v

/-- Settles O26: the decision is taken branch by branch (`laneWrite_applies`, `laneWrite_loses`, `laneWrite_stranger`, `laneWrite_safe`), and its RESULT
carries the lane's news where WSEQ has counted the write. -/
theorem laneWriteApplies : Obligations.LaneWriteApplies := by
  unfold Obligations.LaneWriteApplies
  intro s p rest o n h body wr lt addr accepts parked out coded b t c v l
  have core : b.core = true := board_core h.1
  have awake := ls_board h.1
  have parked : b.parked = false := parked
  have answers : ∀ {b' : Board}, ((load s).withBd b).execOp p o = (load s).withBd b' → exec .opPacket s = .next (s.withBoard b') :=
    fun e => board_next h.1 _ ((opPacket_at s p rest o h body).trans e)
  refine ⟨?applies, ?loses, ?stranger, ?safe⟩
  case applies =>
    intro owner live free mine
    have k := laneWrite_applies (load s) b t n _ accepts out coded owner core live free mine
    have counted : (b.written t n v).wseq ≠ b.wseq := by
      rw [written_wseq b t n v out]
      exact bump_ne b.wseq
    have sent := execOp_changed (p := p) wr lt addr parked k counted
    rw [written_code] at sent
    exact answers sent
  case loses =>
    intro owner live free opened other differs first quiet
    exact answers (execOp_unchanged wr lt addr parked
      (laneWrite_loses (load s) b t n _ accepts out coded owner core live free awake opened other differs first quiet) rfl)
  case stranger =>
    intro stranger
    exact answers (execOp_unchanged wr lt addr parked (laneWrite_stranger (load s) b t n _ accepts out coded core awake stranger) rfl)
  case safe =>
    intro owner held
    exact answers (execOp_unchanged wr lt addr parked (laneWrite_safe (load s) b t n _ accepts out coded owner held) rfl)

end Sys2Proof.Machine

/-! Inputs of the board die: the level of a lane, a mismatch, the presence of the board, and an input that REPLAY carries. -/

namespace Sys2Proof.Machine

/-! ## Lane levels and mismatches (R242, R252) -/

section
variable (w : W) (b : Board) (n : Nat) (core : b.core = true)
include core

/-- A LEVEL_IN lane that keeps its filtered level latches and records nothing. -/
theorem levelIn_keeps {level : Bool} (input : (b.cfg.lane n).mode = 1) (same : (b.lane n).pin = level) :
    (w.withBd b).levelIn n level = w.withBd b := by
  have on : ¬ (!(w.withBd b).dev.bd.core) = true := by simp [core]
  rw [W.levelIn]
  exact (if_neg on).trans ((if_pos input).trans (if_pos same))

/-- A LIVE lane that drives, in no episode yet, begins one: LANE_MISMATCH is raised, and the pin shows the other level. -/
theorem mismatch_raises (awake : w.dev.log.lstate ≠ 4) (out : (b.cfg.lane n).mode = 2) (tabs : b.tabs = true) (live : (b.lane n).stage = 0)
    (drives : (b.lane n).code = 0 ∨ ((b.lane n).code = 1 ∧ (b.cfg.lane n).od = false)) (first : (b.lane n).mism = false) :
    (w.withBd b).mismatch n = w.withBd ((b.setLane n { b.lane n with mism := true, pin := (b.lane n).code == 0 }).raises 0x42 dUnit n) := by
  have starts : (b.cfg.lane n).mode = 2 ∧ (b.lane n).stage = 0 ∧ ((b.lane n).code = 0 ∨ ((b.lane n).code = 1 ∧ !(b.cfg.lane n).od)) ∧
      !(b.lane n).mism ∧ b.tabs := by
    simp only [out, live, first, tabs, Bool.not_eq_true', Bool.not_false, true_and, and_true]
    exact drives
  rw [W.mismatch]
  refine (if_pos starts).trans ?_
  rw [W.withBd_modLane, W.withBd_bRaise _ _ (by exact core) awake]

end

/-! ## Presence (R254, R255; Table 12.7) -/

section
variable (w : W) (b : Board) (core : b.core = true) (awake : w.dev.log.lstate ≠ 4)
include core awake

/-- A decision that the board die records and then raises. -/
theorem decides_raises (kind index detail source dom x : Nat) :
    ((w.withBd b).bDecide kind index detail).bRaise source dom x = w.withBd ((b.tells [boardEntry kind index detail]).raises source dom x) := by
  rw [W.withBd_bDecide w b core]
  exact W.withBd_bRaise w (b.tells [boardEntry kind index detail]) core awake source dom x

/-- An ABSENT board that is attached is ATTACHING: counted, recorded, raised and reported. -/
theorem attach_attaches (absent : b.pstate = 0) : (w.withBd b).attach = w.withBd
    ({ (({ b with attaches := satAdd 8 b.attaches 1 } : Board).tells [boardEntry 6 0 1]).raises 0x43 dUnit 0 with pstate := 1, prsn := false } : Board).page2 := by
  rw [W.attach]
  refine (if_pos ⟨core, absent⟩).trans ?_
  rw [W.withBd_modBd, decides_raises _ _ (by exact core) awake, W.present, W.withBd_modBd, W.withBd_page2 _ _ (by exact core)]

/-- A board that is detached keeps its presence state: the detach is counted, recorded, raised and reported. -/
theorem detach_raises (present : b.pstate ≠ 0) : (w.withBd b).detach = w.withBd
    ((({ b with detaches := satAdd 8 b.detaches 1, prsn := true } : Board).tells [boardEntry 6 0 0]).raises 0x44 dUnit 0).page2 := by
  rw [W.detach]
  refine (if_pos ⟨core, present⟩).trans ?_
  rw [W.withBd_modBd, decides_raises _ _ (by exact core) awake, W.withBd_page2 _ _ (by exact core)]

end

/-! ## Inputs from the log (R358) -/

section
variable {s : State} {b : Board}

/-- A pin event of the running board die takes effect outside REPLAY. -/
theorem boardPin_next {f : W → W} (h : s.board) (e : f (load s) = (load s).withBd b) :
    boardRun (fun w => w.pinIn f) s = .next (s.withBoard b) :=
  board_next (f := fun w => w.pinIn f) h b ((if_neg (ls_board h)).trans e)

/-- In REPLAY with no frame held for its turn, a board die meaning ends where it leaves the board die. -/
theorem boardReplay_next {f : W → W} (runs : s.dev.bd.runs = true) (replays : s.dev.log.lstate = 4) (noFrame : s.dev.hpt.rx = [])
    (e : f (load s) = (load s).withBd b) : boardRun f s = .next (s.withBoard b) := by
  have running : ((load s).dev.bd.runs && (load s).dev.log.lstate != 5) = true := by simp [load, runs, replays]
  have ends : onBoard f (load s) = (load s).withBd b := (if_pos running).trans e
  rw [boardRun, runW, ends, replay_close _ rfl replays noFrame, commit_withBd]

/-- A PIN entry of the log without its byte flag gives the lane that it names its level. -/
theorem replayInput_level (w : W) {x : List Nat} (pin : fld (nth x 0) 0 6 = 0x11) (level : tbit (nth x 0) 11 = false) :
    w.replayInput x = w.levelIn (fld (nth x 0) 6 5) (tbit (nth x 0) 12) := by
  rw [W.replayInput]
  exact (if_pos pin).trans (if_neg (by simp [level]))

/-- A REPLAY packet at the front is taken, and its entry is the input. -/
theorem replayPkt_takes {p : Pkt} {rest : List Pkt} {x : List Nat} (front : s.dev.bd.inbox = p :: rest) (body : p.body = .replay x) :
    (load s).replayPkt = ((load s).withBd { s.dev.bd with inbox := rest }).replayInput x := by
  have first : (load s).dev.bd.front = some p := congrArg List.head? front
  have taken : (load s).taken = (load s).withBd { s.dev.bd with inbox := rest } := by
    show (load s).withBd { s.dev.bd with inbox := s.dev.bd.inbox.drop 1 } = _
    rw [front, List.drop_one, List.tail_cons]
  rw [W.replayPkt, first]
  simp only [body, taken]

end

theorem runs_core {b : Board} (runs : b.runs = true) : b.core = true := by
  rw [Board.runs, Bool.and_eq_true] at runs
  exact runs.1

/-- Settles O27: a change of a LEVEL_IN lane latches and is recorded (`levelIn_ch`) whether the pin or a REPLAY packet (`replayPkt_takes`,
`replayInput_level`) brings it, and an unchanged level does nothing (`levelIn_keeps`); a mismatch, an attach and a detach each leave the board die that
`mismatch_raises`, `attach_attaches` and `detach_raises` give. -/
theorem boardInputs : Obligations.BoardInputs := by
  unfold Obligations.BoardInputs
  intro s n b l changed
  refine ⟨?changes, ?keeps, ?mismatches, ?attaches, ?detaches, ?replays⟩
  case changes =>
    intro level h input differs
    exact boardPin_next h (levelIn_ch (load s) b n level (board_core h) input differs)
  case keeps =>
    intro level h input same
    exact boardPin_next h (levelIn_keeps (load s) b n (board_core h) input same)
  case mismatches =>
    intro h out tabs live drives first
    exact board_next h _ (mismatch_raises (load s) b n (board_core h) (ls_board h) out tabs live drives first)
  case attaches =>
    intro h absent
    exact pin_run (ls_board h) (attach_attaches (load s) b (board_core h) (ls_board h) absent)
  case detaches =>
    intro h present
    exact pin_run (ls_board h) (detach_raises (load s) b (board_core h) (ls_board h) present)
  case replays =>
    intro p rest e runs replays noFrame front body x m level pin noByte input differs
    refine boardReplay_next (f := W.replayPkt) runs replays noFrame ?_
    rw [replayPkt_takes front body, replayInput_level _ pin noByte]
    exact levelIn_ch (load s) _ m level (runs_core runs) input differs

end Sys2Proof.Machine

/-! Engine timers: the next action of an engine, mode by mode. That a timer's step moves a whole byte or character is the model's choice (log entry 30). -/

namespace Sys2Proof.Machine

/-! ## Rules for the engine in the board die alone -/

section
variable (w : W) (b : Board) (e : Nat)

theorem withBd_noHead (idle : (b.eng e).ops = []) : (w.withBd b).engHead e false = none := congrArg List.head? idle

/-- STB goes to its active or its inactive level. -/
theorem withBd_strobe (core : b.core = true) (a : Bool) : (w.withBd b).strobe e a =
    w.withBd ((b.setEng e { b.eng e with strobe := a }).drivesRole e 0 (a == ((b.ecfg e).t1 0 1 == 1))) := by
  rw [W.strobe, W.withBd_setEng, W.withBd_driveRole _ _ _ (by exact core)]
  rfl

variable {o : EngOp} {rest : List EngOp} (head : (b.eng e).ops = o :: rest)
include head

theorem withBd_head : (w.withBd b).engHead e false = some o := congrArg List.head? head

/-- Changing the operation in progress changes no other field of the engine. -/
theorem withBd_modHead (f : EngOp → EngOp) :
    (w.withBd b).modEng e (fun g => g.modHead false f) = w.withBd (b.setEng e { b.eng e with ops := f o :: rest }) := by
  rw [W.withBd_setEng, Eng.modHead_first _ o rest f head]

end

/-! ## STRB (R269) -/

section
variable (w : W) (b : Board) (e : Nat) {o : EngOp} {rest : List EngOp} (head : (b.eng e).ops = o :: rest) (sends : o.op.kind ≠ .erx)
include head

/-- STB is released, and the data are held in step 4. -/
theorem strbRelease_releases (core : b.core = true) : (w.withBd b).strbRelease e =
    w.withBd ((b.setEng e { (b.eng e).at o rest 4 with strobe := false }).drivesRole e 0 ((b.ecfg e).t1 0 1 != 1)) := by
  rw [W.strbRelease, W.withBd_engStepHead _ _ _ o rest 4 head, withBd_strobe _ _ _ (by exact core), Board.setEng_eng, Board.setEng_setEng,
    Board.setEng_ecfg _ _ _ (by rfl), Bool.false_beq]
  rfl

include sends

/-- A write samples nothing. -/
theorem strbSample_write (x : Byte) : (w.withBd b).strbSample e x = w.withBd b := by
  rw [W.strbSample, withBd_head w b e head]
  exact if_neg sends

theorem strbTimer_asserts (core : b.core = true) {x : Byte} {d : List Byte} (step : o.step = 1) (data : o.data = x :: d) :
    (w.withBd b).strbTimer e o = w.withBd ((b.setEng e
      { ({ b.eng e with txd := x :: (b.eng e).txd } : Eng).at o rest 2 with strobe := true }).drivesRole e 0 ((b.ecfg e).t1 0 1 == 1)) := by
  simp only [W.strbTimer, step, if_neg sends, data, List.head?_cons]
  rw [W.withBd_putLine, W.withBd_engStepHead _ _ _ o rest 2 (by rw [Board.setEng_eng]; exact head), Board.setEng_eng, Board.setEng_setEng,
    withBd_strobe _ _ _ (by exact core), Board.setEng_eng, Board.setEng_setEng, Board.setEng_ecfg _ _ _ (by rfl), Bool.true_beq]
  rfl

theorem strbTimer_releases (core : b.core = true) (step : o.step = 2) (free : (b.ecfg e).t1 2 2 ≠ 1) : (w.withBd b).strbTimer e o =
    w.withBd ((b.setEng e { (b.eng e).at o rest 4 with strobe := false }).drivesRole e 0 ((b.ecfg e).t1 0 1 != 1)) := by
  have noAck : ((b.ecfg e).t1 2 2 == 1) = false := beq_false_of_ne free
  simp only [W.strbTimer, step, W.withBd_ecfg, noAck, Bool.false_eq_true, if_false]
  rw [strbSample_write w b e head sends]
  exact strbRelease_releases w b e head core

omit sends in
theorem strbTimer_awaits (step : o.step = 2) (acks : (b.ecfg e).t1 2 2 = 1) (off : (b.eng e).ackOn = false) :
    (w.withBd b).strbTimer e o = w.withBd (b.setEng e ((b.eng e).at o rest 3)) := by
  simp only [W.strbTimer, step, W.withBd_ecfg, acks, beq_self_eq_true, if_true, W.withBd_bd, off, Bool.false_eq_true, if_false]
  exact W.withBd_engStepHead w b e o rest 3 head

end

/-! ## ASYN (R271, R272) -/

section
variable (w : W) (b : Board) (e : Nat) {o : EngOp} {rest : List EngOp} (head : (b.eng e).ops = o :: rest) (sends : o.op.kind ≠ .erx)

theorem asynTimer_held (step : o.step = 2) (held : (b.eng e).ctsOn = false) : (w.withBd b).asynTimer e o = w.withBd b := by
  have waits : ¬ (o.op.kind ≠ .erx ∧ (b.eng e).ctsOn ∧ (b.ecfg e).charBytes ≤ o.data.length) := fun h => by
    rw [held] at h
    exact Bool.false_ne_true h.2.1
  simp only [W.asynTimer, step]
  exact if_neg waits

include head sends

theorem asynTimer_leads (step : o.step = 1) : (w.withBd b).asynTimer e o = w.withBd (b.setEng e ((b.eng e).at o rest 2)) := by
  simp only [W.asynTimer, step, if_neg sends]
  exact W.withBd_engStepHead w b e o rest 2 head

/-- A character that is not the last leaves. -/
theorem asynTimer_sends (step : o.step = 2) (cts : (b.eng e).ctsOn = true) (has : (b.ecfg e).charBytes ≤ o.data.length)
    (more : o.moved + (b.ecfg e).charBytes < o.dlen) : (w.withBd b).asynTimer e o = w.withBd (b.setEng e { b.eng e with
      txd := (o.data.take (b.ecfg e).charBytes).reverse ++ (b.eng e).txd
      ops := { o with moved := o.moved + (b.ecfg e).charBytes, data := o.data.drop (b.ecfg e).charBytes } :: rest }) := by
  have goes : o.op.kind ≠ .erx ∧ (b.eng e).ctsOn ∧ (b.ecfg e).charBytes ≤ o.data.length := ⟨sends, cts, has⟩
  conv_lhs => simp only [W.asynTimer, step]
  refine ((if_pos goes).trans (if_neg (Nat.not_le.2 more))).trans ?_
  rw [W.withBd_putLine, W.withBd_ecfg, withBd_modHead _ _ _ (by rw [Board.setEng_eng]; exact head), Board.setEng_eng,
    Board.setEng_setEng]

end

/-! ## SYNC (R273) -/

section
variable (w : W) (b : Board) (e : Nat) {o : EngOp} {rest : List EngOp} (head : (b.eng e).ops = o :: rest) (master : (b.ecfg e).slave = false)
include head

/-- One byte leaves, and the byte shifted in is not kept. -/
theorem syncByte_sends (sends : o.op.kind ≠ .erx) {x : Byte} {d : List Byte} (data : o.data = x :: d) (drops : (b.ecfg e).t0 14 1 = 0) (inp : Byte) :
    (w.withBd b).syncByte e o inp = w.withBd (b.setEng e { b.eng e with
      shift := none, txd := x :: (b.eng e).txd, ops := { o with moved := o.moved + 1, data := d } :: rest }) := by
  simp only [W.syncByte, if_neg sends, data, W.withBd_ecfg, drops, Nat.zero_ne_one, if_false]
  rw [W.withBd_setEng, W.withBd_putLine, withBd_modHead _ _ _ (by rw [Board.setEng_eng, Board.setEng_eng]; exact head), Board.setEng_eng, Board.setEng_eng,
    Board.setEng_setEng, Board.setEng_setEng]
  rfl

include master

theorem syncTimer_selects (step : o.step = 1) : (w.withBd b).syncTimer e o = w.withBd (b.setEng e ((b.eng e).at o rest 2)) := by
  simp only [W.syncTimer, W.withBd_ecfg, master, step, Bool.false_eq_true, if_false]
  exact W.withBd_engStepHead w b e o rest 2 head

theorem syncTimer_shifts (sends : o.op.kind ≠ .erx) {x : Byte} {d : List Byte} (step : o.step = 2) (data : o.data = x :: d)
    (drops : (b.ecfg e).t0 14 1 = 0) : (w.withBd b).syncTimer e o = w.withBd (b.setEng e
      (if o.dlen ≤ o.moved + 1
        then ({ b.eng e with shift := none, txd := x :: (b.eng e).txd } : Eng).at { o with moved := o.moved + 1, data := d } rest 3
        else { b.eng e with shift := none, txd := x :: (b.eng e).txd, ops := { o with moved := o.moved + 1, data := d } :: rest })) := by
  conv_lhs => simp only [W.syncTimer, W.withBd_ecfg, master, step, Bool.false_eq_true, if_false]
  rw [syncByte_sends w b e head sends data drops, withBd_head _ _ _ (by rw [Board.setEng_eng])]
  by_cases last : o.dlen ≤ o.moved + 1
  · rw [if_pos last]
    dsimp only
    rw [if_pos last, W.withBd_engStepHead _ _ _ { o with moved := o.moved + 1, data := d } rest 3 (by rw [Board.setEng_eng]), Board.setEng_eng,
      Board.setEng_setEng]
    rfl
  · rw [if_neg last]
    exact if_neg last

end

/-! ## OCW and TWO (R270, R275) -/

/-- The last operation of a mode without idle levels of its own ends with its own value. -/
theorem engEnd_own (w : W) (b : Board) (e : Nat) {o : EngOp} (st sp : Nat) (core : b.core = true) (only : (b.eng e).ops = [o]) (noRx : (b.eng e).opsRx = [])
    (runs : (b.eng e).st = 1) (quiet : (b.ecfg e).mode = 2 ∨ (b.ecfg e).mode = 5 ∨ (b.ecfg e).mode = 6) :
    (w.withBd b).engEnd e false st sp none = w.withBd ((b.ends o st sp o.value).setEng e ((b.eng e).idled o st sp)) :=
  engEnd_last w b e o st sp none core only noRx runs quiet

/-- An OCW write ends with the levels it has sampled. -/
theorem ocw_answers (w : W) (b : Board) (e : Nat) {o : EngOp} (x : Byte) (core : b.core = true) (only : (b.eng e).ops = [o]) (noRx : (b.eng e).opsRx = [])
    (runs : (b.eng e).st = 1) (mode : (b.ecfg e).mode = 2) :
    ((w.withBd b).modEng e (fun g => { g with smp := x })).engEnd e false stOK 4 (some (x.setWidth 32)) =
      w.withBd ((b.ends o stOK 4 (x.setWidth 32)).setEng e (({ b.eng e with smp := x } : Eng).idled o stOK 4)) := by
  have sampled := engEnd_last w (b.setEng e { b.eng e with smp := x }) e o stOK 4 (some (x.setWidth 32)) core
    (by rw [Board.setEng_eng]; exact only) (by rw [Board.setEng_eng]; exact noRx) (by rw [Board.setEng_eng]; exact runs)
    (by rw [Board.setEng_ecfg _ _ _ (by rfl)]; exact .inl mode)
  rw [W.withBd_setEng, sampled, Board.setEng_eng, Board.ends_setEng, Board.setEng_setEng, Option.getD_some]

/-! ## The timer -/

/-- ENGINE_TIMER at a BUSY engine leaves the board die to which its mode's own steps lead. -/
theorem engineTimer_next {s : State} {e : Fin 8} {b' : Board} {x : W} (h : s.board) (mode : (load s).engTimer e = x) (steps : x = (load s).withBd b') :
    exec (.engineTimer e) s = .next (s.withBoard b') :=
  board_next (f := fun w => w.engTimer e.val) h b' (mode.trans steps)

/-- Settles O32: `timer_at` finds the mode's own steps, and each step is followed by itself to the board die it leaves. That a step of the timer moves a whole
byte or character is the model's choice (log entry 30). -/
theorem engineSteps : Obligations.EngineSteps := by
  unfold Obligations.EngineSteps
  intro s e o rest h busy b g c run
  have core : b.core = true := board_core h
  have timer := timer_at s e o rest busy
  obtain ⟨runs, head⟩ := busy
  refine ⟨fun mode sends => ?strb, fun mode sends => ?asyn, fun mode master sends => ?sync, fun mode sends step last noRx => ?ocw,
    fun mode step last noRx => ?two⟩ <;> simp only [show (s.dev.bd.ecfg e).mode = _ from mode] at timer
  case strb =>
    exact ⟨fun x d step data => engineTimer_next h timer (strbTimer_asserts (load s) b e head sends core step data),
      fun step free => engineTimer_next h timer (strbTimer_releases (load s) b e head sends core step free),
      fun step acks off => engineTimer_next h timer (strbTimer_awaits (load s) b e head step acks off)⟩
  case asyn =>
    exact ⟨fun step => engineTimer_next h timer (asynTimer_leads (load s) b e head sends step),
      fun step held => engineTimer_next h timer (asynTimer_held (load s) b e step held),
      fun step cts has more => engineTimer_next h timer (asynTimer_sends (load s) b e head sends step cts has more)⟩
  case sync =>
    exact ⟨fun step => engineTimer_next h timer (syncTimer_selects (load s) b e head master step),
      fun x d step data drops => engineTimer_next h timer (syncTimer_shifts (load s) b e head master sends step data drops)⟩
  case ocw =>
    rw [if_pos ⟨sends, step⟩] at timer
    exact engineTimer_next h timer (ocw_answers (load s) b e (b.groupPins e) core (head.trans (congrArg _ last)) noRx runs mode)
  case two =>
    rw [if_pos step] at timer
    exact engineTimer_next h timer (engEnd_own (load s) b e stOK o.step core (head.trans (congrArg _ last)) noRx runs (.inr (.inr mode)))

end Sys2Proof.Machine

/-! Input edges of an engine: what an edge does in each mode. -/

namespace Sys2Proof.Machine

/-! ## STRB (R269) -/

section
variable (w : W) (b : Board) (e : Nat) (mode : (b.ecfg e).mode = 1)
include mode

/-- Without an operation the level of ACK alone is seen. -/
theorem ackActive_idle (idle : (b.eng e).ops = []) (d : Byte) :
    (w.withBd b).engEdge e (.ackActive d) = w.withBd (b.setEng e { b.eng e with ackOn := true }) := by
  simp only [W.engEdge, W.withBd_ecfg, mode, withBd_noHead w b e idle]
  exact W.withBd_setEng w b e _

theorem ackInactive_idle (idle : (b.eng e).ops = []) :
    (w.withBd b).engEdge e .ackInactive = w.withBd (b.setEng e { b.eng e with ackOn := false }) := by
  simp only [W.engEdge, W.withBd_ecfg, mode, withBd_noHead w b e idle]
  exact W.withBd_setEng w b e _

/-- The acknowledge that a write awaits in step 3 releases STB. -/
theorem ackActive_releases {o : EngOp} {rest : List EngOp} (head : (b.eng e).ops = o :: rest) (core : b.core = true) (step : o.step = 3)
    (sends : o.op.kind ≠ .erx) (d : Byte) : (w.withBd b).engEdge e (.ackActive d) = w.withBd
      ((b.setEng e { (b.eng e).at o rest 4 with ackOn := true, strobe := false }).drivesRole e 0 ((b.ecfg e).t1 0 1 != 1)) := by
  have seen : ((b.setEng e { b.eng e with ackOn := true }).eng e).ops = o :: rest := by rw [Board.setEng_eng]; exact head
  simp only [W.engEdge, W.withBd_ecfg, mode, withBd_head w b e head, W.strbEdge, step, if_true]
  rw [W.withBd_setEng, strbSample_write _ _ _ seen sends, strbRelease_releases _ _ _ seen (by exact core), Board.setEng_eng, Board.setEng_setEng,
    Board.setEng_ecfg _ _ _ (by rfl)]
  rfl

end

/-! ## ASYN (R263, R271) -/

section
variable (w : W) (b : Board) (e : Nat) (mode : (b.ecfg e).mode = 3)
include mode

theorem cts_follows (bound : ((b.ecfg e).role 3).isSome = true) (a : Bool) :
    (w.withBd b).engEdge e (.cts a) = w.withBd (b.setEng e { b.eng e with ctsOn := a }) := by
  simp only [W.engEdge, W.withBd_ecfg, mode, bound, if_true]
  exact W.withBd_setEng w b e _

/-- A character received during a transmission, without ECHO, is discarded. -/
theorem rxChar_discarded (sending : (b.eng e).dirOn = true) (noEcho : (b.ecfg e).t1 9 1 = 0) (ch : BitVec 9) (p f brk : Bool) :
    (w.withBd b).engEdge e (.rxChar ch p f brk) = w.withBd b := by
  have discards : ((b.eng e).dirOn && (b.ecfg e).t1 9 1 == 0) = true := by rw [sending, noEcho]; rfl
  simp only [W.engEdge, W.withBd_ecfg, mode]
  exact if_pos discards

/-- A character without a line error is recorded and enters the receive FIFO. -/
theorem rxChar_received (core : b.core = true) (heard : (b.eng e).dirOn = false ∨ (b.ecfg e).t1 9 1 = 1) (one : (b.ecfg e).charBytes = 1)
    (room : (b.eng e).rx.length < 256) (idle : (b.eng e).ops = []) (noRx : (b.eng e).opsRx = []) (ch : BitVec 9) :
    (w.withBd b).engEdge e (.rxChar ch false false false) = w.withBd ((b.tells [pinEntry e (ch.setWidth 8 : Byte).toNat 0]).setEng e
      { b.eng e with rx := (b.eng e).rx ++ [(ch.setWidth 8, 0)], gap := false }) := by
  have keeps : ¬ ((b.eng e).dirOn && (b.ecfg e).t1 9 1 == 0) = true := by
    rcases heard with quiet | echo
    · simp [quiet]
    · simp [echo]
  have pushed := pushRx_room w (b.tells [pinEntry e (ch.setWidth 8 : Byte).toNat 0]) e [(ch.setWidth 8, 0)] room
  simp only [W.engEdge, W.withBd_ecfg, mode, W.asynChar, one]
  refine (if_neg keeps).trans ?_
  rw [W.withBd_bLogT _ _ core]
  have clean : (BitVec.ofNat 8 (packN [(0, 1, b2n false), (1, 1, b2n false), (2, 1, b2n false)]) : BitVec 8) = 0 := rfl
  simp only [clean, bne_self_eq_false, Bool.false_eq_true, if_false, OfNat.one_ne_ofNat]
  refine (congrArg (fun x => W.serveRx x e) pushed).trans (serveRx_none _ _ _ ?_ ?_)
  · rw [Board.setEng_eng]
    exact idle
  · rw [Board.setEng_eng]
    exact noRx

end

/-! ## SYNC (R273) -/

theorem sel_seen (w : W) (b : Board) (e : Nat) (mode : (b.ecfg e).mode = 4) (slave : (b.ecfg e).slave = true) (idle : (b.eng e).ops = []) (high : Bool) :
    (w.withBd b).engEdge e (.sel high) = w.withBd (b.setEng e { b.eng e with selLow := !high }) := by
  simp only [W.engEdge, W.withBd_ecfg, mode, slave, if_true, withBd_noHead w b e idle]
  exact W.withBd_setEng w b e _

/-! ## TWO (R264, R275) -/

@[simp] theorem Board.tells_eng (b : Board) (l : List Payload) (e : Nat) : (b.tells l).eng e = b.eng e := rfl

section
variable (w : W) (b : Board) (e : Nat) {o : EngOp} {rest : List EngOp} (head : (b.eng e).ops = o :: rest)
include head

theorem engEdge_two (mode : (b.ecfg e).mode = 6) (begun : o.step ≠ 0) (x : EngEdge) : (w.withBd b).engEdge e x = (w.withBd b).twoEdge e o x := by
  simp only [W.engEdge, W.withBd_ecfg, mode, withBd_head w b e head, if_neg begun]

/-- The acknowledged address of a transfer without subaddress leads to its data. -/
theorem twoAck_address (step : o.step = 1) (direct : o.nsub = 0) (more : o.dlen ≠ 0) :
    (w.withBd b).twoEdge e o .twoAck = w.withBd (b.setEng e (({ b.eng e with
      txd := BitVec.ofNat 8 (2 * fld o.op.value.toNat 0 7 + (if o.op.kind = .erx then 1 else 0)) :: (b.eng e).txd } : Eng).at o rest 4)) := by
  have out : o.twoOut = [BitVec.ofNat 8 (2 * fld o.op.value.toNat 0 7 + (if o.op.kind = .erx then 1 else 0))] := by
    simp only [EngOp.twoOut, step, direct, and_true]
  conv_lhs => simp only [W.twoEdge, W.twoAck, step, direct, if_true, if_neg more, out]
  rw [W.withBd_putLine, W.withBd_engStepHead _ _ _ o rest 4 (by rw [Board.setEng_eng]; exact head), Board.setEng_eng, Board.setEng_setEng]
  rfl

variable (core : b.core = true) (awake : w.dev.log.lstate ≠ 4)

section
include core awake

theorem twoNack_stops (step : o.step = 1) : (w.withBd b).twoEdge e o .twoNack = w.withBd ((b.raises 0x4A (b.ecfg e).owner e).setEng e
    (({ b.eng e with line := satAdd 8 (b.eng e).line 1 } : Eng).at { o with errf := o.errf ||| 32 } rest 5)) :=
  (if_pos (.inl step)).trans (lineErr_at w b e o rest 32 core awake head 5)

theorem arbLost_ends (begun : o.step ≠ 0) (going : o.step ≠ 6) : (w.withBd b).twoEdge e o .arbLost = w.withBd ((b.raises 0x4A (b.ecfg e).owner e).setEng e
    (({ b.eng e with line := satAdd 8 (b.eng e).line 1 } : Eng).at { o with errf := o.errf ||| 64 } rest 6)) :=
  (if_pos ⟨begun, going⟩).trans (lineErr_at w b e o rest 64 core awake head 6)

end

include core

/-- A byte read is recorded and taken; the last one leads to the STOP. -/
theorem twoByte_taken (step : o.step = 4) (reads : o.op.kind = .erx) (x : Byte) : (w.withBd b).twoEdge e o (.twoByte x) =
    w.withBd ((b.tells [.page5 [[packN [(0, 6, 0x11), (6, 5, e), (11, 1, 1), (12, 8, x.toNat)], 0x3F]]]).setEng e
      (if o.dlen ≤ o.moved + 1 then (b.eng e).at { o with moved := o.moved + 1, rx := o.rx ++ [x] } rest 5
        else { b.eng e with ops := { o with moved := o.moved + 1, rx := o.rx ++ [x] } :: rest })) := by
  refine (if_pos ⟨step, reads⟩).trans ?_
  rw [withBd_modHead w b e head, W.withBd_bLogT _ _ (by exact core)]
  by_cases last : o.dlen ≤ o.moved + 1
  · rw [if_pos last, if_pos last, W.withBd_engStepHead _ _ _ { o with moved := o.moved + 1, rx := o.rx ++ [x] } rest 5
      (by rw [Board.tells_eng, Board.setEng_eng]), Board.tells_eng, Board.setEng_eng, tells_setEng]
    rfl
  · rw [if_neg last, if_neg last]
    rfl

end

/-- Settles O33: each edge is followed in its mode to the board die it leaves; a missing acknowledge and lost arbitration raise the line error by
`lineErr_at`. That an edge moves a whole byte or character is the model's choice (log entry 30). -/
theorem engineEdges : Obligations.EngineEdges := by
  unfold Obligations.EngineEdges
  intro s e h b g c run
  have core : b.core = true := board_core h
  have awake : (load s).dev.log.lstate ≠ 4 := ls_board h
  refine ⟨fun mode idle => ?idleAck, fun o rest d mode busy step sends => ?ack, fun mode a bound => ?cts,
    fun mode ch p f brk sending noEcho => ?discarded, fun mode ch heard one room idle noRx => ?received, fun mode slave idle high => ?sel,
    fun o rest mode busy => ?two⟩
  case idleAck =>
    exact ⟨fun d => edge_run e _ h _ (ackActive_idle (load s) b e mode idle d), edge_run e _ h _ (ackInactive_idle (load s) b e mode idle)⟩
  case ack => exact edge_run e _ h _ (ackActive_releases (load s) b e mode busy.2 core step sends d)
  case cts => exact edge_run e _ h _ (cts_follows (load s) b e mode bound a)
  case discarded => exact edge_same e _ h (rxChar_discarded (load s) b e mode sending noEcho ch p f brk)
  case received => exact edge_run e _ h _ (rxChar_received (load s) b e mode core heard one room idle noRx ch)
  case sel => exact edge_run e _ h _ (sel_seen (load s) b e mode slave idle high)
  case two =>
    intro err
    obtain ⟨-, head⟩ := busy
    have begun : ∀ {n : Nat}, o.step = n → n ≠ 0 → o.step ≠ 0 := fun step pos zero => pos (step.symm.trans zero)
    have goes : ∀ {x : EngEdge} {b' : Board}, o.step ≠ 0 → (load s).twoEdge e o x = (load s).withBd b' →
        exec (.engineInputEdge e x) s = .next (s.withBoard b') :=
      fun begun k => edge_run e _ h _ ((engEdge_two (load s) b e head mode begun _).trans k)
    exact ⟨fun step direct more => goes (begun step (by decide)) (twoAck_address (load s) b e head step direct more),
      fun step => goes (begun step (by decide)) (twoNack_stops (load s) b e head core awake step),
      fun begun going => goes begun (arbLost_ends (load s) b e head core awake begun going),
      fun x step reads => goes (begun step (by decide)) (twoByte_taken (load s) b e head core step reads x)⟩

end Sys2Proof.Machine

/-! Ends of an engine's operation: time limits, stop causes, the owner's reset, and the idle sequence. -/

namespace Sys2Proof.Machine

/-! ## Time limits (R265) -/

/-- An expired limit is counted, recorded and raised in the owner's domain. -/
theorem timeout_raises (w : W) (b : Board) (e : Nat) (core : b.core = true) (awake : w.dev.log.lstate ≠ 4) :
    (((w.withBd b).modEng e (fun g => { g with tmoCnt := satAdd 8 g.tmoCnt 1 })).bLogK 0x07 [(6, 4, 6), (10, 16, e)]).engFault e 0x49 =
      w.withBd (((b.tells [timerEntry 6 e]).raises 0x49 (b.ecfg e).owner e).setEng e { b.eng e with tmoCnt := satAdd 8 (b.eng e).tmoCnt 1 }) := by
  let b1 := b.setEng e { b.eng e with tmoCnt := satAdd 8 (b.eng e).tmoCnt 1 }
  have settings : b1.ecfg e = b.ecfg e := Board.setEng_ecfg _ _ _ (by rfl)
  rw [W.withBd_setEng, W.bLogK, W.withBd_bLog _ _ (by exact core), W.withBd_engFault _ _ _ (by exact core) awake]
  exact congrArg (fun c : EngCfg => w.withBd ((b1.tells [timerEntry 6 e]).raises 0x49 c.owner e)) settings

/-- TMO ends the operation in progress at its step. -/
theorem engTimeout_ends (w : W) (b : Board) (e : Nat) {o : EngOp} (core : b.core = true) (awake : w.dev.log.lstate ≠ 4)
    (quiet : (b.ecfg e).mode = 2 ∨ (b.ecfg e).mode = 5 ∨ (b.ecfg e).mode = 6) (busy : b.busy e o []) (noRx : (b.eng e).opsRx = []) (begun : o.step ≠ 0) :
    (w.withBd b).engTimeout e .tmo = w.withBd ((((b.tells [timerEntry 6 e]).raises 0x49 (b.ecfg e).owner e).ends o stTIMEOUT o.step o.value).setEng e
      (({ b.eng e with tmoCnt := satAdd 8 (b.eng e).tmoCnt 1 } : Eng).idled o stTIMEOUT o.step)) := by
  obtain ⟨runs, only⟩ := busy
  have due : (o.step != 0 && (b.eng e).st == 1) = true := by simp [begun, runs]
  rw [W.engTimeout]
  simp only [withBd_head w b e only]
  refine (if_pos due).trans ?_
  rw [timeout_raises w b e core awake, engEnd_own _ _ _ _ _ (by exact core) (by rw [Board.setEng_eng]; exact only) (by rw [Board.setEng_eng]; exact noRx)
    (by rw [Board.setEng_eng]; exact runs) (by rw [Board.setEng_ecfg _ _ _ (by rfl)]; exact quiet), Board.setEng_eng, Board.ends_setEng, Board.setEng_setEng]

/-! ## Stop causes (R267; Table 13.4) -/

/-- The cause halts engine `e`: it is present. -/
def Board.halts (b : Board) (e : Nat) : StopCause → Prop
  | .miss => b.cfg.nmiss ≤ b.miss ∨ ∃ n ∈ (b.ecfg e).outLanes, (b.lane n).cause &&& 1 ≠ 0
  | .laneCause => ∃ n ∈ (b.ecfg e).outLanes, (b.lane n).cause &&& 0x38 ≠ 0
  | .bank => ∃ n ∈ (b.ecfg e).lanes, b.bankUp n = false
  | .absent => b.pstate = 0
  | .reset => b.tabs = false
  | .tenantReset => False

/-- The status of an operation in progress that the cause ends. -/
def haltStatus : StopCause → Nat
  | .absent | .reset => stABORTED
  | _ => stFAILSAFE

/-- The status of an operation that waits behind it. -/
def queuedStatus : StopCause → Nat
  | .reset => stABORTED
  | _ => stFAILSAFE

section
variable (w : W) (b : Board) (e : Nat)

theorem haltMiss_iff : (w.withBd b).haltMiss e = true ↔ b.halts e .miss := by
  show (decide (b.cfg.nmiss ≤ b.miss) || (b.ecfg e).outLanes.any (fun n => (b.lane n).cause &&& cMISS != 0)) = true ↔ _
  simp [Board.halts, cMISS]

theorem haltCause_iff : (w.withBd b).haltCause e = true ↔ b.halts e .laneCause := by
  show (b.ecfg e).outLanes.any (fun n => (b.lane n).cause &&& 0x38 != 0) = true ↔ _
  simp [Board.halts]

theorem haltBank_iff : (w.withBd b).haltBank e = true ↔ b.halts e .bank := by
  show (b.ecfg e).lanes.any (fun n => !b.bankUp n) = true ↔ _
  simp [Board.halts]

/-- A cause that is not present stops nothing. -/
theorem engStop_none {x : StopCause} (other : x ≠ .tenantReset) (gone : ¬ b.halts e x) : (w.withBd b).engStop e x = w.withBd b := by
  cases x with
  | tenantReset => exact absurd rfl other
  | miss => exact if_neg (mt (haltMiss_iff w b e).1 gone)
  | laneCause => exact if_neg (mt (haltCause_iff w b e).1 gone)
  | bank => exact if_neg (mt (haltBank_iff w b e).1 gone)
  | absent => exact if_neg gone
  | reset => exact if_pos (eq_true_of_ne_false gone)

/-- A cause that is present halts the engine; that of a bank also counts what it ends. -/
theorem engStop_halts {x : StopCause} (other : x ≠ .bank) (present : b.halts e x) :
    (w.withBd b).engStop e x = (w.withBd b).engHalt e (haltStatus x) (queuedStatus x) := by
  cases x with
  | tenantReset => exact absurd present id
  | miss => exact if_pos ((haltMiss_iff w b e).2 present)
  | laneCause => exact if_pos ((haltCause_iff w b e).2 present)
  | bank => exact absurd rfl other
  | absent => exact if_pos present
  | reset => exact if_neg (Bool.eq_false_iff.1 present)

/-- A bank that is down halts the engine and counts the operation that it ends. -/
theorem engStop_bank {b' : Board} {n : Nat} (found : (b.ecfg e).lanes.find? (fun n => !b.bankUp n) = some n)
    (one : ((b.eng e).ops ++ (b.eng e).opsRx).length = 1) (halted : (w.withBd b).engHalt e stFAILSAFE = w.withBd b') :
    (w.withBd b).engStop e .bank = w.withBd { b' with fails := lmod b'.fails (n / 8) (fun x => satAdd 8 x 1) } := by
  have down : b.halts e .bank := ⟨n, List.mem_of_find?_eq_some found, by simpa using List.find?_some found⟩
  have first : ((w.withBd b).ecfg e).lanes.find? (fun n => !(w.withBd b).dev.bd.bankUp n) = some n := found
  have count : (((w.withBd b).dev.bd.eng e).ops ++ ((w.withBd b).dev.bd.eng e).opsRx).length = 1 := one
  refine (if_pos ((haltBank_iff w b e).2 down)).trans ?_
  rw [halted, first, count]
  rfl

end

/-! ## The owner's reset and the idle sequence (R88, R268) -/

section
variable (w : W) (b : Board) (e : Nat) (quiet : (b.ecfg e).mode = 2 ∨ (b.ecfg e).mode = 5 ∨ (b.ecfg e).mode = 6)
include quiet

/-- OCW, PULSE and TWO drive nothing to be idle (Table 13.5). -/
theorem idleLevels_quiet : (w.withBd b).idleLevels e = w.withBd b := by
  rcases quiet with mode | mode | mode <;> simp only [W.idleLevels, W.withBd_ecfg, mode]

/-- A reset of the owner drops the operation in progress, and the engine is IDLE. -/
theorem engRetire_only {o : EngOp} {t : Nat} (busy : b.busy e o []) (noRx : (b.eng e).opsRx = []) (mine : o.op.req.ten.val = t) :
    (w.withBd b).engRetire e t = (w.withBd (b.setEng e { b.eng e with ops := [], st := 0, step := 0, sub := 0 }), [(o.tkt, o.ic)]) := by
  obtain ⟨runs, only⟩ := busy
  have same : (o.op.req.ten.val == t) = true := beq_iff_eq.2 mine
  simp only [W.engRetire, W.withBd_bd, only, noRx, List.append_nil, List.filter_cons, same, if_true, List.filter_nil, List.isEmpty_cons, Bool.false_eq_true,
    if_false, runs, W.withBd_setEng, Board.setEng_eng, Board.setEng_setEng, Bool.not_true, List.map_cons, List.map_nil]
  rw [idleLevels_quiet _ _ _ (by rw [Board.setEng_ecfg _ _ _ (by rfl)]; exact quiet)]

/-- The owner's reset answers the dropped operation with an ABORT_ACK. -/
theorem engStop_tenantReset {o : EngOp} (busy : b.busy e o []) (noRx : (b.eng e).opsRx = []) (mine : o.op.req.ten.val = (b.ecfg e).owner) :
    (w.withBd b).engStop e .tenantReset = w.withBd { b.setEng e { b.eng e with ops := [], st := 0, step := 0, sub := 0 } with
      outA := b.outA ++ [{ body := .abortAck [(o.tkt, o.ic)], ten := (b.ecfg e).owner }] } := by
  simp only [W.engStop, W.withBd_ecfg, engRetire_only w b e quiet busy noRx mine]
  rfl

/-- A HALTED engine without a halt cause, and with every output lane LIVE, is IDLE again. -/
theorem idleSeq_resumes (halted : (b.eng e).st = 2) (tabs : b.tabs = true) (present : b.pstate ≠ 0) (powered : ¬ b.halts e .bank)
    (fresh : b.miss < b.cfg.nmiss) (live : ∀ n ∈ (b.ecfg e).outLanes, (b.lane n).stage = 0) :
    (w.withBd b).idleSeq e = w.withBd (b.setEng e { b.eng e with st := 0, step := 0 }) := by
  have noDark : (w.withBd b).haltBank e = false := Bool.eq_false_iff.2 (mt (haltBank_iff w b e).1 powered)
  have resumes : (w.withBd b).canResume e = true := by
    have lanes : (b.ecfg e).outLanes.all (fun n => (b.lane n).stage == 0) = true := by simpa using live
    simp only [W.canResume, W.withBd_bd, W.withBd_ecfg, W.bcfg, halted, tabs, noDark, fresh, lanes, bne_iff_ne.2 present]
    rfl
  rw [W.idleSeq, if_pos resumes, W.withBd_setEng, idleLevels_quiet _ _ _ (by rw [Board.setEng_ecfg _ _ _ (by rfl)]; exact quiet)]

end

theorem Board.ends_fails (b : Board) (o : EngOp) (st sp : Nat) (v : BitVec 32) : (b.ends o st sp v).fails = b.fails := by
  unfold Board.ends
  dsimp only
  split <;> rfl

/-- Settles O34: a limit ends its operation (`engTimeout_ends`); a cause that is not present stops nothing (`engStop_none`), and one that is present halts the
engine (`engStop_halts`, `engStop_bank`) as `halt_nil` and `halt_one` give it; the owner's reset and the idle sequence end IDLE. -/
theorem engineStops : Obligations.EngineStops := by
  unfold Obligations.EngineStops
  intro s e h b g c quiet stop has missing dark off
  have core : b.core = true := board_core h
  have awake : (load s).dev.log.lstate ≠ 4 := ls_board h
  have stays : ∀ {x : StopCause}, x ≠ .tenantReset → ¬ b.halts e x → exec (.engineStop e x) s = .next s :=
    fun other gone => stopChan_run e _ h b (engStop_none (load s) b e other gone)
  refine ⟨fun o quiet busy noRx begun => board_next h _ (engTimeout_ends (load s) b e core awake quiet busy noRx begun),
    stays (x := .miss) nofun, stays (x := .laneCause) nofun, stays (x := .bank) nofun, stays (x := .absent) nofun,
    fun tabs => stays (x := .reset) nofun (ne_false_of_eq_true tabs), fun mode noTx noRx first => ?none, fun mode noTx noRx halted present => ?again,
    fun o mode busy noRx begun => ?one,
    fun o quiet busy noRx mine => stopChan_run e _ h _ (engStop_tenantReset (load s) b e quiet busy noRx mine),
    fun quiet halted tabs present powered fresh live => board_next h _ (idleSeq_resumes (load s) b e quiet halted tabs present powered fresh live)⟩
  case none =>
    have halts : ∀ {x : StopCause}, x ≠ .bank → b.halts e x → stop x ((b.setEng e off).raises 0x4D c.owner e) := fun {x} other present =>
      stopChan_run e x h _ ((engStop_halts (load s) b e other present).trans ((halt_nil (load s) b e _ core awake mode noTx noRx _).trans
        (congrArg (load s).withBd (if_neg first))))
    exact ⟨halts (x := .miss) nofun, halts (x := .laneCause) nofun, halts (x := .absent) nofun, halts (x := .reset) nofun⟩
  case again =>
    exact stopChan_run e .miss h _ ((engStop_halts (x := .miss) (load s) b e nofun present).trans ((halt_nil (load s) b e _ core awake mode noTx noRx _).trans
      (congrArg (load s).withBd (if_pos halted))))
  case one =>
    intro b'
    obtain ⟨runs, only⟩ := busy
    have halted : ∀ status queued, (load s).engHalt e status queued = (load s).withBd (b' status) :=
      fun status queued => halt_one (load s) b e status o core awake mode only noRx runs begun queued
    have halts : ∀ {x : StopCause}, x ≠ .bank → b.halts e x → stop x (b' (haltStatus x)) := fun {x} other present =>
      stopChan_run e x h _ ((engStop_halts (load s) b e other present).trans (halted _ _))
    refine ⟨halts (x := .miss) nofun, halts (x := .laneCause) nofun, fun n found => ?_, halts (x := .absent) nofun, halts (x := .reset) nofun⟩
    have one : (g.ops ++ g.opsRx).length = 1 := by rw [only, noRx]; rfl
    have fails : (b' stFAILSAFE).fails = b.fails := b.ends_fails o _ _ _
    rw [← fails]
    exact stopChan_run e .bank h _ (engStop_bank (load s) b e found one (halted _ _))

end Sys2Proof.Machine

/-! Records of the engines: sampled levels, edges of pulse inputs, and the records of a pulse transfer. -/

namespace Sys2Proof.Machine

/-! ## OCW samples (R270) -/

section
variable (w : W) (b : Board) (e : Nat) (levels : Byte) {v : Bool} {n : Nat} (mode : (b.ecfg e).mode = 2) (one : (b.ecfg e).gcount = 1)
  (run : (b.eng e).filt = [(v, n)]) (noTx : (b.eng e).ops = []) (noRx : (b.eng e).opsRx = []) (core : b.core = true)
include mode one run noTx noRx core

/-- A sample at the counted level ends the run of samples that differ from it. -/
theorem ocwSample_same (same : levels.getLsbD 0 = v) :
    (w.withBd b).ocwSample e levels = w.withBd (b.setEng e { b.eng e with smp := levels, filt := [(v, 0)] }) := by
  have filt : filtStep ((b.ecfg e).t0 16 2 + 1) (v, n) (levels.getLsbD 0) = ((v, 0), false) := if_pos same
  rw [ocw_one w b e levels v n mode one run noTx noRx core, filt]
  rfl

/-- A sample that differs, too early in its run to count. -/
theorem ocwSample_differs (other : levels.getLsbD 0 ≠ v) (early : n + 1 < (b.ecfg e).t0 16 2 + 1) :
    (w.withBd b).ocwSample e levels = w.withBd (b.setEng e { b.eng e with smp := levels, filt := [(v, n + 1)] }) := by
  have filt : filtStep ((b.ecfg e).t0 16 2 + 1) (v, n) (levels.getLsbD 0) = ((v, n + 1), false) := (if_neg other).trans (if_neg (Nat.not_le.2 early))
  rw [ocw_one w b e levels v n mode one run noTx noRx core, filt]
  rfl

/-- The sample that ends FILT samples of another level counts the change: an event record and a PIN entry. -/
theorem ocwSample_counts (other : levels.getLsbD 0 ≠ v) (enough : (b.ecfg e).t0 16 2 + 1 ≤ n + 1) (room : (b.eng e).rx.length + 8 ≤ 256) :
    (w.withBd b).ocwSample e levels = w.withBd ((b.tells [.page5 [[packN [(0, 6, 0x11), (6, 5, e), (11, 1, 1), (12, 8, levels.toNat)], 0x3F]]]).setEng e
      { b.eng e with smp := levels, filt := [(!v, 0)], rx := (b.eng e).rx ++ b.record e 0 (!v), gap := false, overEp := false }) := by
  have flips : levels.getLsbD 0 = !v := Bool.eq_not.2 other
  have filt : filtStep ((b.ecfg e).t0 16 2 + 1) (v, n) (levels.getLsbD 0) = ((!v, 0), true) := by
    rw [← flips]
    exact (if_neg other).trans (if_pos enough)
  let b1 := b.setEng e { b.eng e with smp := levels, filt := [(!v, 0)] }
  have seen : b1.eng e = { b.eng e with smp := levels, filt := [(!v, 0)] } := Board.setEng_eng _ _ _
  have record : b1.record e 0 (!v) = b.record e 0 (!v) := by
    rw [Board.record, seen]
    rfl
  rw [ocw_one w b e levels v n mode one run noTx noRx core, filt]
  refine (if_pos rfl).trans ?_
  rw [eventRecord_at _ _ _ _ _ (by rw [seen]; exact room), W.withBd_bLogT _ _ (by exact core), serveRx_none _ _ _
    (by rw [Board.tells_eng, Board.setEng_eng, seen]; exact noTx) (by rw [Board.tells_eng, Board.setEng_eng, seen]; exact noRx), record, seen,
    Board.setEng_setEng]
  rfl

end

/-! ## Edges of pulse inputs (R274) -/

section
variable (w : W) (b : Board) (e k : Nat) (level : Bool)

theorem pulseEdge_disabled (disabled : tbit ((b.ecfg e).t0 (4 + 2 * k) 2) (if level then 0 else 1) = false) :
    (w.withBd b).pulseEdge e k level = w.withBd b :=
  if_neg (fun h => Bool.false_ne_true (disabled.symm.trans h.2.2.2))

/-- An enabled edge writes an event record and its PIN entry. -/
theorem pulseEdge_records (core : b.core = true) (mode : (b.ecfg e).mode = 5) (bound : k < (b.ecfg e).gcount) (input : tbit ((b.ecfg e).t0 0 4) k = false)
    (noTx : (b.eng e).ops = []) (noRx : (b.eng e).opsRx = []) (enabled : tbit ((b.ecfg e).t0 (4 + 2 * k) 2) (if level then 0 else 1) = true)
    (room : (b.eng e).rx.length + 8 ≤ 256) : (w.withBd b).pulseEdge e k level = w.withBd
      ((b.tells [pinEntry e (if level then 1 else 0) k]).setEng e
        { b.eng e with rx := (b.eng e).rx ++ b.record e k level, gap := false, overEp := false }) := by
  refine (if_pos ⟨mode, bound, Bool.not_eq_true' _ ▸ input, enabled⟩).trans ?_
  rw [eventRecord_at _ _ _ _ _ room, W.withBd_bLogT _ _ (by exact core), serveRx_none _ _ _ (by rw [Board.tells_eng, Board.setEng_eng]; exact noTx)
    (by rw [Board.tells_eng, Board.setEng_eng]; exact noRx)]
  rfl

end

/-! ## Records of a pulse transfer (R274; Table 13.8) -/

section
variable (w : W) (b : Board) (e : Nat) {o : EngOp} {rest : List EngOp} (mode : (b.ecfg e).mode = 5) (runs : (b.eng e).st = 1)
  (head : (b.eng e).ops = o :: rest) (sends : o.op.kind ≠ .erx) (has : 8 ≤ o.data.length)
include mode runs sends has

omit head in
theorem pulse_takes : ¬ ((b.ecfg e).mode ≠ 5 ∨ o.op.kind = .erx ∨ o.data.length < 8 ∨ (b.eng e).st ≠ 1) := by
  rintro (other | reads | short | stopped)
  · exact other mode
  · exact sends reads
  · exact Nat.not_lt.2 has short
  · exact stopped runs

include head

/-- A record that lies before the last ends the transfer. -/
theorem pulseDue_before (before : fld (leN (o.data.take 8)) 0 56 < o.lastTime) :
    (w.withBd b).pulseDue e = (w.withBd b).engEnd e false stDENIED o.step none := by
  rw [W.pulseDue, withBd_head w b e head]
  exact (if_neg (pulse_takes b e mode runs sends has)).trans (if_pos before)

/-- A record in time, and not the last, drives its LIVE output lane. -/
theorem pulseDue_drives (core : b.core = true) (after : o.lastTime ≤ fld (leN (o.data.take 8)) 0 56) (inTime : b.timer ≤ fld (leN (o.data.take 8)) 0 56)
    (more : o.moved + 8 < o.dlen) (out : tbit ((b.ecfg e).t0 0 4) (fld (leN (o.data.take 8)) 56 3) = true)
    (live : (b.lane ((b.ecfg e).gbase + fld (leN (o.data.take 8)) 56 3)).stage = 0) : (w.withBd b).pulseDue e = w.withBd
      ((b.drive ((b.ecfg e).gbase + fld (leN (o.data.take 8)) 56 3) (if tbit (leN (o.data.take 8)) 59 then 1 else 0)).setEng e { b.eng e with
        ops := { o with moved := o.moved + 8, data := o.data.drop 8, lastTime := fld (leN (o.data.take 8)) 0 56 } :: rest }) := by
  have onTime : ¬ fld (leN (o.data.take 8)) 0 56 < (w.withBd b).dev.bd.timer := Nat.not_lt.2 inTime
  have drives : tbit (((w.withBd b).ecfg e).t0 0 4) (fld (leN (o.data.take 8)) 56 3) = true ∧
      ((w.withBd b).dev.bd.lane (((w.withBd b).ecfg e).gbase + fld (leN (o.data.take 8)) 56 3)).stage = 0 := ⟨out, live⟩
  rw [W.pulseDue, withBd_head w b e head]
  refine ((if_neg (pulse_takes b e mode runs sends has)).trans (if_neg (Nat.not_lt.2 after))).trans ((if_neg (Nat.not_le.2 more)).trans ?_)
  rw [if_neg onTime, if_pos drives, W.withBd_applyCode _ _ core]
  exact withBd_modHead w (b.drive _ _) e head _

end

/-- Settles O35: a sample is filtered as `filtStep` gives it and its record enters the FIFO by `eventRecord_at`, as that of an enabled edge does; a record of
a transfer drives its lane (`pulseDue_drives`), or ends the transfer by `engEnd_own`. -/
theorem engineRecords : Obligations.EngineRecords := by
  unfold Obligations.EngineRecords
  intro s e h b g c
  have core : b.core = true := board_core h
  refine ⟨fun levels v n mode one run noTx noRx => ?samples, fun k level mode bound input noTx noRx => ?edges,
    fun o rest mode busy sends has => ?due⟩
  case samples =>
    exact ⟨fun same => boardPin_next h (ocwSample_same (load s) b e levels mode one run noTx noRx core same),
      fun other early => boardPin_next h (ocwSample_differs (load s) b e levels mode one run noTx noRx core other early),
      fun other enough room => boardPin_next h (ocwSample_counts (load s) b e levels mode one run noTx noRx core other enough room)⟩
  case edges =>
    exact ⟨fun disabled => boardPin_next h (pulseEdge_disabled (load s) b e k level disabled),
      fun enabled room => boardPin_next h (pulseEdge_records (load s) b e k level core mode bound input noTx noRx enabled room)⟩
  case due =>
    obtain ⟨runs, head⟩ := busy
    refine ⟨fun after inTime more out live => board_next h _ (pulseDue_drives (load s) b e mode runs head sends has core after inTime more out live),
      fun before last noRx => board_next h _ ((pulseDue_before (load s) b e mode runs head sends has before).trans ?_)⟩
    exact engEnd_own (load s) b e stDENIED o.step core (head.trans (congrArg _ last)) noRx runs (.inr (.inl mode))

end Sys2Proof.Machine

/-! The machine as a whole: the canonical form of both memories, what a step runs, and that every command completes. -/

namespace Sys2Proof.Machine

/-- Settles O1: a step commits a working record (`step_commits`), whose writes keep both memories canonical (`commit_inv`). Taking the front command off
the queue leaves the memories as they are. -/
theorem stepKeepsMemoryCanonical : Obligations.StepKeepsMemoryCanonical := by
  unfold Obligations.StepKeepsMemoryCanonical
  intro s t inv h
  obtain ⟨w, answers⟩ := step_commits s
  obtain rfl : commit s.rest w = t := Host.Outcome.next.inj (answers.symm.trans h)
  have rest : s.rest.Inv := inv
  exact commit_inv rest w

/-- Settles O2: at reset neither memory lists a byte. -/
theorem resetMemoryCanonical : Obligations.ResetMemoryCanonical := ⟨rfl, rfl⟩

theorem step_front (c : Instr) (s : State) : step { s with pending := c :: s.pending } = exec c s := rfl

theorem step_empty {s : State} (h : s.pending = []) : step s = .next s.idle := by
  unfold step
  rw [h]

/-- Settles O4. -/
theorem stepRunsFront : Obligations.StepRunsFront := ⟨step_front, fun _ => step_empty⟩

/-- Settles O5: every command commits a working record (`exec_commits`), and a commit keeps the queue. -/
theorem everyCommandCompletes : Obligations.EveryCommandCompletes := by
  unfold Obligations.EveryCommandCompletes
  intro c s
  obtain ⟨w, answers⟩ := exec_commits c s
  exact ⟨commit s w, answers, commit_pending s w⟩

end Sys2Proof.Machine

/-! Host reads: STAT, FETCH and an unknown command byte. -/

namespace Sys2Proof.Machine

section
variable {s : State} (r : s.awake) (notDormant : s.dev.sup.mode ≠ 2)
include r notDormant

/-- A transaction that changes the host port alone: the status byte goes out first (R148). -/
theorem hostTx_next {f : W → W} (h : HostPort)
    (e : f ((load s).modHpt (fun h => { h with hsdo := [s.dev.statusByte] })) = (load s).modHpt (fun _ => h)) :
    runW (fun w => w.hostTx f) s = .next { s with dev.hpt := h } :=
  runW_next (v := (load s).modHpt (fun _ => h)) ⟨(hostTx_eq s f r notDormant).trans e, rfl, r.2⟩

theorem stat_shows : exec .stat s = .next { s with dev.hpt.hsdo := s.dev.statusByte :: le 4 s.dev.hpt.statusReg } :=
  hostTx_next r notDormant _ rfl

theorem unknownCommand_shows (b : Byte) : exec (.unknownCommand b) s = .next { s with dev.hpt.hsdo := [s.dev.statusByte] } :=
  hostTx_next r notDormant _ rfl

theorem fetch_empty (n : Nat) (none : s.dev.hpt.rq = []) :
    exec (.fetch n) s = .next { s with dev.hpt.hsdo := [s.dev.statusByte, 0, 0, 0] } := by
  refine hostTx_next r notDormant { s.dev.hpt with hsdo := [s.dev.statusByte, 0, 0, 0] } ?_
  simp [W.modHpt, none]

theorem fetch_oldest (n : Nat) {x : Reply} {rest : List Reply} (queue : s.dev.hpt.rq = x :: rest) :
    exec (.fetch n) s = .next { s with
      dev.hpt.hsdo := s.dev.statusByte :: (le 2 x.bytes.length ++ [x.kind] ++ x.bytes.take n)
      dev.hpt.rq := if x.bytes.length ≤ n then rest else x :: rest } := by
  refine hostTx_next r notDormant { s.dev.hpt with
    hsdo := s.dev.statusByte :: (le 2 x.bytes.length ++ [x.kind] ++ x.bytes.take n)
    rq := if x.bytes.length ≤ n then rest else x :: rest } ?_
  simp [W.modHpt, queue]

end

/-- Settles O6, one transaction after the other. -/
theorem hostReads : Obligations.HostReads := by
  unfold Obligations.HostReads
  intro s r notDormant
  exact ⟨stat_shows r notDormant, unknownCommand_shows r notDormant, fetch_empty r notDormant, fun n _ _ => fetch_oldest r notDormant n⟩

end Sys2Proof.Machine

/-! Faults: raises, wire faults, acknowledgements, forces, quiet ends and WREN. -/

namespace Sys2Proof.Machine

/-! ## Raises and wire faults (R292, R293, R295, R296) -/

/-- What the collector takes a raise of source `x` in domain `d` for: the domain admits the source, and the source is neither reserved nor under a wire
fault. -/
def State.takesRaise (s : State) (x d : Nat) : Prop :=
  (if tenantSrc x then d < 5 else d = 5) ∧ reservedSrc x = false ∧ s.dev.flt.wired x = false

theorem validDom_iff (x d : Nat) : validDom x d = true ↔ if tenantSrc x then d < 5 else d = 5 := by
  unfold validDom
  split <;> simp

theorem faultRaise_refused {s : State} {x d : Nat} (det a : Nat) (r : s.rack) (no : ¬ s.takesRaise x d) : (load s).faultRaise x d det a = load s := by
  by_cases valid : if tenantSrc x then d < 5 else d = 5
  · have held : reservedSrc x = true ∨ s.dev.flt.wired x = true := by
      by_contra free
      rw [not_or, Bool.not_eq_true, Bool.not_eq_true] at free
      exact no ⟨valid, free⟩
    rw [fltRaise_go s x d det a r valid, raise_none s x d _ held]
  · have invalid : validDom x d = false := by
      rw [← Bool.not_eq_true, validDom_iff]
      exact valid
    exact if_pos (by rw [invalid]; rfl)

/-- The release of the baton that a unit-domain F asks for does nothing in a unit that does not hold it (R300). -/
theorem close_baton {w : W} (asked : w.rq = [.baton]) (role : w.dev.pai.role ≠ 3) (live : w.dev.log.lstate ≠ 4) :
    w.close = { w with rq := [] } := by
  have served : W.serve 16 w = { w with rq := [] } := by
    rw [W.serve, asked]
    exact congrArg (W.serve 15) (if_neg (fun h => role h.1))
  have quiet := W.close_quiet { w with rq := [] } rfl live
  unfold W.close at quiet ⊢
  rw [served]
  exact quiet

/-- An F of the unit domain is the fatal state (R299). -/
theorem raise_fatalNext {s : State} {x : Nat} {i : RaiseInfo} {f : W → W} (r : s.rack) (e : f (load s) = (load s).raise x dUnit i)
    (k : (load s).decision x dUnit i.wire = .fresh 2 false) (free : reservedSrc x = false) (wire : s.dev.flt.wired x = false)
    (role : s.dev.pai.role ≠ 3) :
    ∃ t, rackRun f s = .next t ∧ t = s.raised t ∧ t.dev.flt.fatal = true ∧ s.captured t x 5 i 2 false (s.activated x 5 2 false) := by
  have R := raise_fatalUnit (load s) x i k free wire
  have captured := State.captured_of s (load s) x dUnit i (commit s ((load s).raise x dUnit i)) rfl rfl rfl 2 false k (by simp) free wire rfl
  have closed : (onRack f (load s)).close = { (load s).raise x dUnit i with rq := [] } := by
    rw [show onRack f (load s) = (load s).raise x dUnit i from (if_pos r.1).trans e]
    exact close_baton (by rw [R.1]; rfl) (by rw [R.1]; exact role) (R.2.1 r.2)
  generalize (load s).raise x dUnit i = v at *
  refine ⟨commit s v, ?_, ?_, ?_, captured⟩
  · show Host.Outcome.next (commit s (onRack f (load s)).close) = _
    rw [closed]
    rfl
  · exact commit_raised s { load s with rq := [.baton] } v R
  · have slot : (v.dev.flt.slot dUnit 2).st = 1 := by
      rw [show v.dev.flt = _ from captured]
      exact congrArg Slot.st (tget_tput _ _ _ _)
    simp [Faults.fatal, slot]

theorem wired_tput (f : Faults) (x d : Nat) : ({ f with wires := tput f.wires x d } : Faults).wired x = true := by
  show (tput f.wires x d).any (fun e => e.1 == x) = true
  induction f.wires with
  | nil => simp [tput]
  | cons e t ih =>
    obtain ⟨k, b⟩ := e
    unfold tput
    split
    · simp
    · split
      · simp
      · simp [ih]

/-- Where the rack die runs, a meaning that either die may take is one of the rack die. -/
theorem runW_rack (f : W → W) {s : State} (r : s.rack) : runW f s = rackRun f s := by
  have on : onRack f (load s) = f (load s) := if_pos r.1
  rw [rackRun, runW, runW, on]

section
variable {s : State} {x : Fin 96} {d : Fin 6}

theorem wireFault_known (r : s.rack) (known : s.dev.flt.wired x.val = true) : exec (.wireFault x d) s = .next s := by
  refine runW_next (f := fun w => w.wireFault x.val d.val) (v := load s) ⟨if_pos ?_, rfl, r.2⟩
  rw [load_dev, known, Bool.or_true]

/-- On the board die the event waits in a STATUS page 3 packet (Table 15.2). -/
theorem wireFault_board (r : s.rack) (ok : s.takesRaise x.val d.val) (board : boardSrc x.val = true) (core : s.dev.bd.core = true) :
    exec (.wireFault x d) s = .next { s with
      dev.bd.outS := addEvent { source := x.val, wire := true, dom := d.val, detail := 0 } s.dev.bd.outS } := by
  obtain ⟨valid, -, unwired⟩ := ok
  refine run_board (f := fun w => w.wireFault x.val d.val) (b := { s.dev.bd with
    outS := addEvent { source := x.val, wire := true, dom := d.val, detail := 0 } s.dev.bd.outS }) r.2 ?_
  dsimp only
  unfold W.wireFault
  rw [if_neg (by simp [validDom_of valid, unwired]), if_pos board]
  exact (if_neg (fun h => r.2 h.1)).trans (if_pos core)

/-- What the raise of a wire fault in domain `d` carries. -/
def wireInfo (d : Nat) : RaiseInfo := { wire := true, ten := tenOfDom d }

/-- On the rack die it is a raise at U or above. -/
theorem wireFault_raises (r : s.rack) (ok : s.takesRaise x.val d.val) (rackSide : boardSrc x.val = false)
    (low : s.dev.img.cfg.flt.effClass x.val ≤ 1) (clear : (s.dev.flt.slot d.val 1).st = 0) (calm : s.noReset x.val d.val 1) :
    Does (.wireFault x d) s (fun t => t = s.raised t ∧ t.dev.flt.wired x.val = true ∧
      s.captured t x.val d.val (wireInfo d.val) 1 false (s.activated x.val d.val 1 false)) := by
  obtain ⟨valid, free, unwired⟩ := ok
  have e : (load s).wireFault x.val d.val = (load s).raise x.val d.val (wireInfo d.val) := by
    unfold W.wireFault
    rw [if_neg (by simp [validDom_of valid, unwired]), if_neg (by simp [rackSide]), if_pos (show (load s).dev.rackOn = true from r.1)]
    rfl
  have k : (load s).decision x.val d.val true = .fresh 1 false := W.decision_clear (load s) _ _ true 1 (Nat.max_eq_right low) le_rfl clear
  obtain ⟨t, next, same, captured⟩ := raises_next s x.val d.val (wireInfo d.val) (fun w => w.wireFault x.val d.val) r e 1 false k le_rfl free unwired calm
  refine ⟨t, (runW_rack (fun w => w.wireFault x.val d.val) r).trans next, same, ?_, captured⟩
  rw [show t.dev.flt = _ from captured]
  exact wired_tput _ _ _

end

/-! ## Acknowledgement and force in hard stop, and the key of a force (R301, R306) -/

section
variable {s : State} {t : Ten}

/-- A write in the FLT block, for a tenant that the fatal state leaves it to. -/
theorem fltWrite_next {a v : Nat} {x : W} {st : Nat} (r : s.rack) (barred : s.dev.barred t.val = false) (may : s.dev.flt.fatal = false ∨ t = 4)
    (range : 0x80000 ≤ a ∧ a < 0x90000 ∧ a % 4 = 0) (k : (load s).fltWrite t.val (a - 0x80000) v false = (x, st)) (q : x.rq = [])
    (live : x.dev.log.lstate ≠ 4) : writeRun t a v s = .next (commit s (x.ack st)) :=
  rackRun_next r (f := fun w => w.act t.val a v) (v := x.ack st) ⟨flt_act s t a v barred may range.1 range.2.1 range.2.2 x st k, q, live⟩

/-- In the fatal state TS alone writes the FLT block (R299). -/
theorem fltWrite_fatal {a v : Nat} (r : s.rack) (barred : s.dev.barred t.val = false) (fatal : s.dev.flt.fatal = true) (other : t ≠ 4) :
    writeRun t a v s = .next s.denied := by
  have bars : (load s).fatalBars t.val a = true := by
    have : t.val ≠ 4 := fun h => other (Fin.ext h)
    simp [W.fatalBars, fatal, this]
  exact rackRun_next r (f := fun w => w.act t.val a v) (v := (load s).ack stDENIED) ⟨flt_fatal s t a v barred bars, rfl, r.2⟩

theorem fatal_of_stopped {f : Faults} (h : f.stopped dUnit = true) : f.fatal = true := by
  rw [Faults.fatal, h, Bool.or_true]

theorem fltAck_stopped (x : BitVec 7) (dc : BitVec 3) (r : s.rack) (barred : s.dev.barred t.val = false) (stopped : s.dev.flt.stopped dUnit = true) :
    exec (.fltAck t x dc) s = .next s.denied := by
  by_cases ts : t = 4
  · refine fltWrite_next r barred (.inr ts) (by decide) (x := load s) (st := stDENIED) ?_ rfl r.2
    show (load s).fltAck t.val _ _ = _
    unfold W.fltAck
    split
    · rfl
    · exact if_pos (by simp [stopped])
  · exact fltWrite_fatal r barred (fatal_of_stopped stopped) ts

theorem forceRaise_stopped (x : BitVec 7) (dc : BitVec 3) (r : s.rack) (barred : s.dev.barred t.val = false)
    (stopped : s.dev.flt.stopped dUnit = true) (noKey : s.dev.flt.fkey = 0) : exec (.forceRaise t x dc) s = .next s.denied := by
  by_cases ts : t = 4
  · have unkeyed : (load s).modFlt (fun f => { f with fkey := 0 }) = load s := by
      rw [← noKey]
      rfl
    refine fltWrite_next r barred (.inr ts) (by decide) (x := load s) (st := stDENIED) ?_ rfl r.2
    show (load s).forceWrite t.val _ _ _ false = _
    unfold W.forceWrite
    rw [unkeyed]
    split
    · rfl
    · exact if_pos (by simp [stopped])
  · exact fltWrite_fatal r barred (fatal_of_stopped stopped) ts

theorem fltFkey_denied (r : s.rack) (hw : s.writer t) (other : t ≠ 4) (k : BitVec 16) : exec (.fltFkey t k) s = .next s.denied :=
  fltWrite_next r hw.1 (.inl hw.2) (by decide) (x := load s) (st := stDENIED) (if_pos (fun h => other (Fin.ext h))) rfl r.2

theorem fltFkey_steps (r : s.rack) (barred : s.dev.barred 4 = false) (k : BitVec 16) :
    exec (.fltFkey 4 k) s = .next (({ s with
      dev.flt.fkey := if k = 0xA55A then 1 else if k = 0x5AA5 ∧ s.dev.flt.fkey = 1 ∧ s.dev.tim.mono ≤ s.dev.flt.fkeyT + 1000000 then 2 else 0
      dev.flt.fkeyT := s.dev.tim.mono } : State).okAcc) := by
  refine (fltWrite_next (x := (load s).modFlt (fun f => { f with
    fkey := if k = 0xA55A then 1 else if k = 0x5AA5 ∧ s.dev.flt.fkey = 1 ∧ s.dev.tim.mono ≤ s.dev.flt.fkeyT + 1000000 then 2 else 0
    fkeyT := s.dev.tim.mono })) (st := stOK) r barred (.inr rfl) (by decide) ?_ rfl r.2)
  show (load s).fkeyWrite 4 (k.toNat % 65536) = _
  have value (n : BitVec 16) : k.toNat = n.toNat ↔ k = n := BitVec.toNat_inj
  have first := value 0xA55A
  have second := value 0x5AA5
  unfold W.fkeyWrite
  rw [if_neg (by simp), keyed_toNat]
  simp only [show k.toNat = 0xA55A ↔ k = 0xA55A from first, show k.toNat = 0x5AA5 ↔ k = 0x5AA5 from second]
  rfl

end

/-- Settles O49: a raise follows the slot procedure from its effective class (`W.decision_clear`, `W.decision_up`, `W.decision_standing`, `W.decision_f`),
and leaves its capture and its slot (`raises_next`, `again_next`, `raise_fatalNext`); the acknowledgement, the forces and the quiet end are `act_part`,
`force_part` and `quiet_part`. That a quiet end clears only the slot that it names, one whose source's wire fault is still present becoming STANDING, and that
a FORCE write uses its keys up even where it is DENIED, are the model's choices (log entries 94 and 95). -/
theorem faults : Obligations.Faults := by
  unfold Obligations.Faults
  refine ⟨fun s x d det a r => ?raises, fun s t x dc d r => ?commands⟩
  case raises =>
    intro f ok eff i wi slot
    have go (valid : ok) : (load s).faultRaise x.val d.val det.toNat a.toNat = (load s).raise x.val d.val i := fltRaise_go s _ _ _ _ r valid.1
    let run : W → W := fun w => w.faultRaise x.val d.val det.toNat a.toNat
    refine ⟨fun no => rack_next r (load s) (faultRaise_refused _ _ r no) rfl r.2, fun valid low clear calm => ?clear,
      fun valid zero active next calm => ?escalates, fun valid low standing => ?standing, fun valid unit high clear idle role => ?fatal,
      fun valid => wireFault_raises r valid, wireFault_board r, wireFault_known r,
      runW_next (f := fun w => w.wireClear x.val) (v := (load s).wireClear x.val) ⟨rfl, rfl, r.2⟩⟩
    case clear => exact raises_next s _ _ i run r (go valid) eff false (W.decision_clear _ _ _ false eff rfl low clear) low valid.2.1 valid.2.2 calm
    case escalates => exact raises_next s _ _ i run r (go valid) 1 true (W.decision_up _ _ _ zero active next) le_rfl valid.2.1 valid.2.2 calm
    case standing => exact again_next s _ _ i run r (go valid) eff false (W.decision_standing _ _ _ eff rfl low standing) valid.2.1 valid.2.2
    case fatal =>
      subst unit
      exact raise_fatalNext r (f := run) (go valid) (W.decision_f _ _ _ high clear idle) valid.2.1 valid.2.2 role
  case commands =>
    dsimp only
    exact ⟨fun may go => act_part s t x dc d r may go, fun barred stopped => ⟨fltAck_stopped x dc r barred stopped, forceRaise_stopped x dc r barred stopped⟩,
      fun hw other => fltFkey_denied r hw other, fltFkey_steps r, fun may go => force_part s t x dc d r may go, quiet_part s r,
      rackRun_next r (v := (load s).wrenStep) ⟨rfl, rfl, r.2⟩⟩

end Sys2Proof.Machine

/-! The board's identity: the start of a read, the strap phases, the IDS conversion, and the end of the EEPROM read. -/

namespace Sys2Proof.Machine

/-! ## Reports of the probe (Table 17.6) -/

/-- The board die after STATUS page 4: the identity summary. -/
def Board.page4 (b : Board) : Board := b.tells [.page4 { b.probe.sum with phase := b.probe.phase }]

/-- The board die once straps and IDS are read: the EEPROM read starts where the board has one, and the summary goes out. -/
def Board.phase1Done (b : Board) : Board := ({ b with probe := { b.probe with phase := if b.cfg.id.eeEn then 2 else 0 } } : Board).page4

section
variable (w : W) {b : Board} (core : b.core = true)
include core

theorem withBd_page4 : (w.withBd b).page4 = w.withBd b.page4 := W.withBd_status w b core _

theorem phase1End_done (phase : b.probe.phase = 1) (ids : b.probe.idsDone = true) (strap : b.probe.strapDone = true) :
    (w.withBd b).phase1End = w.withBd b.phase1Done :=
  (if_pos ⟨phase, ids, strap⟩).trans (withBd_page4 (b := { b with probe := { b.probe with phase := if b.cfg.id.eeEn then 2 else 0 } }) w core)

theorem phase1End_strap (phase : b.probe.phase = 1) (strap : b.probe.strapDone = true) :
    (w.withBd b).phase1End = w.withBd (if b.probe.idsDone then b.phase1Done else b) := by
  split
  next ids => exact phase1End_done w core phase ids strap
  next open' => exact phase1End_no _ (fun h => open' h.2.1)

theorem phase1End_ids (phase : b.probe.phase = 1) (ids : b.probe.idsDone = true) :
    (w.withBd b).phase1End = w.withBd (if b.probe.strapDone then b.phase1Done else b) := by
  split
  next strap => exact phase1End_done w core phase ids strap
  next open' => exact phase1End_no _ (fun h => open' h.2.2)

/-- Status packets made ready one after the other. -/
theorem status_foldl (f : Nat → Payload) (l : List Nat) :
    l.foldl (fun w k => w.status (f k)) (w.withBd b) = w.withBd (b.tells (l.map f)) := by
  induction l generalizing b with
  | nil => simp [Board.tells]
  | cons k l ih => rw [List.foldl_cons, W.withBd_status _ _ core, ih (b := b.tells [f k]) core, Board.tells_tells, List.map_cons, List.singleton_append]

end

/-! ## The start of a read (R328) -/

/-- An attach is what the read is for. -/
def isAttach : IdReason → Bool
  | .attach => true
  | _ => false

theorem isAttach_iff (r : IdReason) : isAttach r = true ↔ r = .attach := by cases r <;> decide

/-- The board die with the probe begun, where the readings named are done already. -/
def Board.probing (b : Board) (ids strap : Bool) : Board :=
  { b with probe := { b.probe with phase := 1, sum := {}, strap1 := none, idsDone := ids, strapDone := strap } }

/-- The board die as an identity read starts: a source that the board does not have is done. -/
def Board.probes (b : Board) : Board := b.probing (!b.cfg.id.idsEn) (!b.cfg.id.strapEn)

/-- The rack die's part as an identity read starts; an attach begins the counts of the service log anew. -/
def Identity.reads (i : Identity) (t : TimeSt) (att : Bool) : Identity :=
  { i with
    astate := 1, t0 := t.now, t0q := t.qual, reread := !att, pages := 0, rbuf := []
    attaches := if att then i.attaches + 1 else i.attaches, lfsrc := if att then 0 else i.lfsrc, lfcls := if att then 0 else i.lfcls
    presentT0 := if att then t.mono else i.presentT0 }

theorem idStart_eq (w : W) (r : IdReason) :
    w.idStart r = if !w.canProbe || !(isAttach r || w.dev.bd.pstate == 2) || w.dev.idn.wbState == 2 then w
      else (({ w with dev.idn := w.dev.idn.reads w.dev.tim (isAttach r) } : W).withBd w.dev.bd.probes).phase1End := by
  cases r <;> rfl

theorem idStart_refused {w : W} {r : IdReason} (no : w.canProbe = false ∨ w.dev.idn.wbState = 2 ∨ (isAttach r = false ∧ w.dev.bd.pstate ≠ 2)) :
    w.idStart r = w := by
  refine (idStart_eq w r).trans (if_pos ?_)
  rcases no with h | h | ⟨h, k⟩
  · simp [h]
  · simp [h]
  · simp [h, k]

theorem idStart_starts {w : W} {r : IdReason} (may : w.canProbe = true) (noWrite : w.dev.idn.wbState ≠ 2)
    (admits : isAttach r = true ∨ w.dev.bd.pstate = 2) :
    w.idStart r = (({ w with dev.idn := w.dev.idn.reads w.dev.tim (isAttach r) } : W).withBd w.dev.bd.probes).phase1End := by
  refine (idStart_eq w r).trans (if_neg ?_)
  rcases admits with h | h <;> simp [may, noWrite, h]

/-- IDENTITY_READ is a meaning of the rack die that the running board die performs. -/
theorem identityRead_next {s : State} {why : IdReason} {x : W} (r : s.rack) (h : s.board) (e : (load s).idStart why = x) (q : x.rq = [])
    (live : x.dev.log.lstate ≠ 4) : exec (.identityRead why) s = .next (commit s x) := by
  have runs : ((load s).dev.bd.runs && (load s).dev.log.lstate != 5) = true := by
    have early := h.2
    simp [h.1, show s.dev.log.lstate ≠ 5 by omega]
  exact rackRun_next r (v := x) ⟨(if_pos runs).trans e, q, live⟩

section
variable {s : State} {why : IdReason} (r : s.rack) (h : s.board) (may : (load s).canProbe = true) (noWrite : s.dev.idn.wbState ≠ 2)
  (admits : isAttach why = true ∨ s.dev.bd.pstate = 2)
include r h may noWrite admits

theorem identityRead_waits (reading : s.dev.bd.cfg.id.idsEn = true ∨ s.dev.bd.cfg.id.strapEn = true) :
    exec (.identityRead why) s = .next { s with dev.bd := s.dev.bd.probes, dev.idn := s.dev.idn.reads s.dev.tim (isAttach why) } := by
  refine identityRead_next r h ((idStart_starts may noWrite admits).trans (phase1End_no _ ?_)) rfl r.2
  rintro ⟨-, ids, strap⟩
  have ids : (!s.dev.bd.cfg.id.idsEn) = true := ids
  have strap : (!s.dev.bd.cfg.id.strapEn) = true := strap
  rcases reading with x | x
  · simp [x] at ids
  · simp [x] at strap

theorem identityRead_through (noIds : s.dev.bd.cfg.id.idsEn = false) (noStrap : s.dev.bd.cfg.id.strapEn = false) :
    exec (.identityRead why) s = .next { s with
      dev.bd := (s.dev.bd.probing true true).phase1Done, dev.idn := s.dev.idn.reads s.dev.tim (isAttach why) } := by
  have begun : s.dev.bd.probes = s.dev.bd.probing true true := by rw [Board.probes, noIds, noStrap]; rfl
  have started := idStart_starts (w := load s) may noWrite admits
  rw [load_dev, begun, phase1End_done _ (b := s.dev.bd.probing true true) (board_core h) rfl rfl rfl] at started
  exact identityRead_next r h started rfl r.2

end

/-! ## Straps (R330) -/

/-- A strap lane's pin as the second phase leaves it. -/
def W.strapPin (m levels : BitVec 8) (w : W) (n : Nat) : W :=
  if m.getLsbD (n - 24) then w.modLane n (fun l => { l with pin := levels.getLsbD (n - 24) }) else w

theorem strapPin_steps (m levels : BitVec 8) (n : Nat) : StepsLane Board.LanesAlone (W.strapPin m levels) n
    (fun _ l l' => l' = if m.getLsbD (n - 24) then { l with pin := levels.getLsbD (n - 24) } else l) := by
  intro w b core
  unfold W.strapPin
  split
  · exact modLane_steps n (fun _ l => { l with pin := levels.getLsbD (n - 24) }) w b core
  · exact ⟨b, rfl, LanesAlone.walks.refl b, fun _ _ => rfl, rfl⟩

theorem strapPins_at (w : W) {b : Board} (core : b.core = true) (m levels : BitVec 8) :
    ∃ b', (List.range 8).foldl (fun w k => if m.getLsbD k then w.modLane (24 + k) (fun l => { l with pin := levels.getLsbD k }) else w) (w.withBd b) =
        w.withBd b' ∧ b.LanesAlone b' ∧
      ∀ n, b'.lane n = if 24 ≤ n ∧ n < 32 ∧ m.getLsbD (n - 24) = true then { b.lane n with pin := levels.getLsbD (n - 24) } else b.lane n := by
  let lanes := (List.range 8).map (24 + ·)
  have member (n : Nat) : n ∈ lanes ↔ 24 ≤ n ∧ n < 32 := by
    simp only [lanes, List.mem_map, List.mem_range]
    exact ⟨fun ⟨k, h, e⟩ => by omega, fun h => ⟨n - 24, by omega, by omega⟩⟩
  have distinct : lanes.Nodup := List.nodup_range.map (fun _ _ e => Nat.add_left_cancel e)
  obtain ⟨b', e, alone, other, each⟩ := walk_lanes LanesAlone.walks (W.strapPin m levels) _ lanes distinct
    (fun n _ => strapPin_steps m levels n) w b core (fun _ _ _ _ _ _ k => k)
  refine ⟨b', ?_, alone, fun n => ?_⟩
  · simpa only [lanes, List.foldl_map, W.strapPin, Nat.add_sub_cancel_left] using e
  · by_cases strap : n ∈ lanes
    · obtain ⟨low, high⟩ := (member n).1 strap
      rw [each n strap]
      simp only [low, high, true_and]
    · rw [other n strap, if_neg (fun k => strap ((member n).2 ⟨k.1, k.2.1⟩))]

/-- The board die with both strap phases read, on lanes that follow the pulls or are tied. -/
def Board.strapped (b : Board) (l1 l2 : BitVec 8) : Board :=
  { b with probe := { b.probe with
    strapDone := true
    sum := { b.probe.sum with strapH := b.cfg.id.strapMask &&& (l1 &&& l2), strapZ := b.cfg.id.strapMask &&& (l1 &&& ~~~l2) } } }

/-- A bit that no strap lane shows adds nothing to the digits. -/
theorem mask_or_odd {m odd x h : BitVec 8} (follows : odd &&& m = 0) : m &&& (h ||| (odd &&& x)) = m &&& h := by
  have none : m &&& (odd &&& x) = 0 := by
    rw [← BitVec.and_assoc, BitVec.and_comm m odd, follows]
    simp
  rw [BitVec.and_or_distrib_left, none]
  simp

section
variable (w : W) {b : Board} (phase : b.probe.phase = 1) (going : b.probe.strapDone = false)
include phase going

theorem strapPhase_first (held : b.probe.strap1 = none) (l : BitVec 8) :
    (w.withBd b).strapPhase l = w.withBd { b with probe := { b.probe with strap1 := some l } } := by
  unfold W.strapPhase
  rw [if_neg (by simp [phase, going])]
  simp only [W.withBd_bd, held]
  rfl

theorem strapPhase_second (core : b.core = true) {l1 : BitVec 8} (held : b.probe.strap1 = some l1) (l2 : BitVec 8)
    (follows : ~~~l1 &&& l2 &&& b.cfg.id.strapMask = 0) :
    ∃ b', (w.withBd b).strapPhase l2 = w.withBd (if b.probe.idsDone then b'.phase1Done else b') ∧ (b.strapped l1 l2).LanesAlone b' ∧
      ∀ n, b'.lane n = if 24 ≤ n ∧ n < 32 ∧ b.cfg.id.strapMask.getLsbD (n - 24) = true then { b.lane n with pin := l2.getLsbD (n - 24) } else b.lane n := by
  obtain ⟨b', e, alone, lanes⟩ := strapPins_at w (b := b.strapped l1 l2) core b.cfg.id.strapMask l2
  refine ⟨b', ?_, alone, lanes⟩
  have probe : b'.probe = (b.strapped l1 l2).probe := by rw [alone]
  have ended := phase1End_strap w (b := b') ((LanesAlone.walks.core alone).trans core) (by rw [probe]; exact phase) (by rw [probe]; rfl)
  rw [← e, show b'.probe.idsDone = b.probe.idsDone by rw [probe]; rfl] at ended
  rw [← ended]
  unfold W.strapPhase
  rw [if_neg (by simp [phase, going])]
  simp only [W.withBd_bd, held]
  rw [show (w.withBd b).bcfg = b.cfg from rfl, mask_or_odd follows, if_pos follows]
  rfl

end

/-! ## The IDS conversion and the EEPROM (R329, R331) -/

theorem idsConv_done (w : W) {b : Board} (core : b.core = true) (phase : b.probe.phase = 1) (going : b.probe.idsDone = false) (r : Nat) :
    let done : Board := { b with probe := { b.probe with idsDone := true, sum := { b.probe.sum with ids := idsCode r } } }
    (w.withBd b).idsConv r = w.withBd (if b.probe.strapDone then done.phase1Done else done) := by
  intro done
  have ended := phase1End_ids w (b := done) core phase rfl
  refine Eq.trans (if_neg ?_) ended
  simp [phase, going]

section
variable (w : W) {b : Board} (core : b.core = true) (phase : b.probe.phase = 2)
include core phase

/-- The read ends with bus status `st` and no data. -/
theorem eeDone_fails {how : EeEnd} {st : Nat} (ends : (how = .noAck ∧ st = 1) ∨ (how = .busError ∧ st = 3)) :
    (w.withBd b).eeDone how = w.withBd ({ b with probe := { b.probe with
      phase := 0, nacks := satAdd 8 b.probe.nacks 1, sum := { b.probe.sum with eestat := st } } } : Board).page4 := by
  have reading : ¬ (w.withBd b).dev.bd.probe.phase ≠ 2 := not_not.2 phase
  unfold W.eeDone
  rw [if_neg reading]
  rcases ends with ⟨rfl, rfl⟩ | ⟨rfl, rfl⟩
  · exact withBd_page4 (b := { b with probe := { b.probe with
      phase := 0, nacks := satAdd 8 b.probe.nacks 1, sum := { b.probe.sum with eestat := 1 } } }) w core
  · exact withBd_page4 (b := { b with probe := { b.probe with
      phase := 0, nacks := satAdd 8 b.probe.nacks 1, sum := { b.probe.sum with eestat := 3 } } }) w core

theorem eeDone_data {bs : List Byte} (whole : bs.length = 256) :
    (w.withBd b).eeDone (.data bs) = w.withBd ((({ b with probe := { b.probe with
      phase := 0, sum := { b.probe.sum with eestat := 2 } } } : Board).page4).tells
        ((List.range 22).map (fun k => .eeprom (16 + k) (padTo 12 ((bs.drop (12 * k)).take 12))))) := by
  have reading : ¬ (w.withBd b).dev.bd.probe.phase ≠ 2 := not_not.2 phase
  have padded : padTo 256 bs = bs := by simp [padTo, whole, List.take_of_length_le]
  have reported := withBd_page4 (b := { b with probe := { b.probe with phase := 0, sum := { b.probe.sum with eestat := 2 } } }) w core
  have read := status_foldl w (b := ({ b with probe := { b.probe with phase := 0, sum := { b.probe.sum with eestat := 2 } } } : Board).page4) core
    (fun k => .eeprom (16 + k) (padTo 12 ((bs.drop (12 * k)).take 12))) (List.range 22)
  rw [← read, ← reported]
  unfold W.eeDone
  rw [if_neg reading]
  dsimp only
  rw [padded]
  rfl

end

/-- Settles O51: a read that may start sets up the probe and the rack die's part (`idStart_starts`); each reading reports when it is the last
(`phase1End_done`), and the pages of the EEPROM follow one by one (`status_foldl`). That an identity read waits for a running write-back is the model's
choice (log entry 80). -/
theorem identityReads : Obligations.IdentityReads := by
  unfold Obligations.IdentityReads
  intro s b p c page4 ready after1 code
  have may (h : s.board) (k : ready) : (load s).canProbe = true := by
    obtain ⟨tabs, awake, bank, present, -⟩ := k
    exact (canProbe_iff s h).2 ⟨tabs, awake, bank, present⟩
  refine ⟨fun r h why no => ?refused, fun r h k => ⟨fun reading => ⟨?attach, fun why other present => ?reread⟩, fun noIds noStrap => ?through⟩,
    fun h ended l => ?strapOver, fun h phase going held l => ?first, fun h phase going l1 l2 held follows => ?second, fun h ended x => ?idsOver,
    fun h phase going x => ?ids, fun h ended how => ?eeOver, fun h phase => ⟨?noAck, ?busError, fun bs whole => ?data⟩⟩
  case refused =>
    refine identityRead_next r h (idStart_refused ?_) rfl r.2
    by_cases probe : (load s).canProbe = true
    · rcases no with no | ⟨other, absent⟩
      · obtain ⟨tabs, awake, bank, present⟩ := (canProbe_iff s h).1 probe
        exact .inr (.inl (by by_contra free; exact no ⟨tabs, awake, bank, present, free⟩))
      · exact .inr (.inr ⟨by rw [← Bool.not_eq_true, isAttach_iff]; exact other, absent⟩)
    · exact .inl (by simpa using probe)
  case attach => exact identityRead_waits (why := .attach) r h (may h k) k.2.2.2.2 (.inl rfl) reading
  case reread =>
    have waits := identityRead_waits r h (may h k) k.2.2.2.2 (.inr present) (why := why) reading
    have att : isAttach why = false := by rw [← Bool.not_eq_true, isAttach_iff]; exact other
    rw [att] at waits
    exact waits
  case through => exact identityRead_through (why := .attach) r h (may h k) k.2.2.2.2 (.inl rfl) noIds noStrap
  case strapOver => exact board_next h b (if_pos (by rcases ended with x | x <;> simp [x, p, b]))
  case first => exact board_next h _ (strapPhase_first (load s) phase going held l)
  case second =>
    obtain ⟨b', e, alone, lanes⟩ := strapPhase_second (load s) phase going (board_core h) held l2 follows
    refine ⟨_, board_next h _ e, congrArg s.withBoard ?_, fun n => ?_⟩
    · by_cases ids : p.idsDone = true
      · rw [if_pos (show b.probe.idsDone = true from ids), if_pos ids]
        exact congrArg Board.phase1Done alone
      · rw [if_neg (show ¬ b.probe.idsDone = true from ids), if_neg ids]
        exact alone
    · refine Eq.trans ?_ (lanes n)
      cases b.probe.idsDone <;> rfl
  case idsOver => exact board_next h b (if_pos (by rcases ended with x | x <;> simp [x, p, b]))
  case ids => exact board_next h _ (idsConv_done (load s) (board_core h) phase going x)
  case eeOver => exact board_next h b (if_pos ended)
  case noAck => exact board_next h _ (eeDone_fails (load s) (board_core h) phase (.inl ⟨rfl, rfl⟩))
  case busError => exact board_next h _ (eeDone_fails (load s) (board_core h) phase (.inr ⟨rfl, rfl⟩))
  case data => exact board_next h _ (eeDone_data (load s) (board_core h) phase whole)

end Sys2Proof.Machine

/-! The service log's write-back: the request, the start, the address polls, the verify read and the time limit. -/

namespace Sys2Proof.Machine

/-! ## The request (R335, R339) -/

theorem wbAllowed_iff (w : W) : w.wbAllowed = true ↔ w.dev.idn.wbState = 0 ∧ w.dev.idn.eestat = 2 ∧ w.dev.idn.tsirOk = true ∧
    w.dev.idn.logslots = 2 ∧ w.dev.bar.pstate = 2 := by
  simp [W.wbAllowed, and_assoc]

theorem vb3Good_iff (w : W) : w.vb3Good = true ↔ w.dev.sup.up.getLsbD 3 = true ∧ w.dev.sup.low.getLsbD 3 = false := by
  simp [W.vb3Good]

/-- A write of IDN_WB with the key, as the block's own write takes its fields. -/
theorem idnWrite_wb (w : W) (note : Bool) (key : BitVec 16) : w.idnWrite 4 0x14 (keyed key (1 + 2 * b2n note)) = w.idnWb 4 true note key.toNat := by
  obtain ⟨go, noted, top⟩ := wb_fields key note
  unfold W.idnWrite
  rw [if_neg (by simp), if_pos rfl, go, noted, top]

section
variable {s : State} {u : Ten} {note : Bool} {key : BitVec 16} (r : s.rack) (hw : s.writer u)
include r hw

theorem idnWb_next {x : W} {st : Nat} (k : (load s).idnWrite u.val 0x14 (keyed key (1 + 2 * b2n note)) = (x, st)) (q : x.rq = [])
    (live : x.dev.log.lstate ≠ 4) : exec (.idnWb u note key) s = .next (commit s (x.ack st)) :=
  rackRun_next r (f := fun w => w.act u.val 0xA0014 (keyed key (1 + 2 * b2n note))) (v := x.ack st)
    ⟨idn_act s u 0xA0014 _ hw (by decide) (by decide) (by decide) x st k, q, live⟩

theorem idnWb_denied (no : u ≠ 4 ∨ key ≠ 0x1D5B ∨ (load s).wbAllowed = false) : exec (.idnWb u note key) s = .next s.denied := by
  refine idnWb_next r hw (x := load s) (st := stDENIED) ?_ rfl r.2
  by_cases ts : u = 4
  · subst ts
    refine (idnWrite_wb _ note key).trans (if_pos ?_)
    rcases no with no | no | no
    · exact absurd rfl no
    · exact .inr (.inl (fun h => no (BitVec.eq_of_toNat_eq h)))
    · exact .inr (.inr (by simp [no]))
  · exact if_pos (fun h => ts (Fin.ext h))

end

theorem idnWb_requests {s : State} {note : Bool} {x : W} (r : s.rack) (hw : s.writer 4) (allowed : (load s).wbAllowed = true)
    (e : (load s).wbRequest note = x) (q : x.rq = []) (live : x.dev.log.lstate ≠ 4) :
    exec (.idnWb 4 note 0x1D5B) s = .next (commit s (x.ack stOK)) := by
  refine idnWb_next r hw ((idnWrite_wb _ note _).trans ?_) q live
  rw [← e]
  exact if_neg (by simp [allowed])

theorem wbRequest_pending {w : W} (note : Bool) (notice : w.dev.sup.notice = false) (vb3 : w.vb3Good = true) :
    w.wbRequest note = w.modIdn (fun i => { i with wbState := 1, wbNote := note }) := by
  simp [W.wbRequest, notice, vb3]

theorem wbRequest_deferred {w : W} (note : Bool) (held : w.vb3Good = false ∨ w.dev.sup.notice = true) :
    w.wbRequest note = (w.modSup (fun s => { s with defer := s.defer ++ [.writeback] })).modIdn (fun i => { i with wbState := 3, wbNote := note }) := by
  have waits : (w.dev.sup.notice || !w.vb3Good) = true := by rcases held with h | h <;> simp [h]
  simp [W.wbRequest, waits]

/-! ## The start (R336, R339) -/

/-- A pending or deferred write-back may start: no read runs, outside a brown notice, with VB3 up and the board present. -/
def W.wbReady (w : W) : Prop :=
  (w.dev.idn.wbState = 1 ∨ w.dev.idn.wbState = 3) ∧ w.dev.idn.astate ≠ 1 ∧ w.dev.sup.notice = false ∧
    (w.dev.sup.up.getLsbD 3 = true ∧ w.dev.sup.low.getLsbD 3 = false) ∧ w.dev.bd.core = true ∧ w.dev.bd.pstate = 2

/-- Nothing keeps the write-back from starting. -/
theorem wbHeld_eq_false_iff {w : W} (live : w.dev.log.lstate ≠ 4) :
    (!(w.dev.idn.wbState == 1 || w.dev.idn.wbState == 3) || w.dev.idn.astate == 1 || w.dev.sup.notice || !w.vb3Good || !w.dev.bd.core ||
      w.dev.bd.pstate != 2 || w.dev.log.lstate == 4) = false ↔ w.wbReady := by
  rw [W.wbReady, ← vb3Good_iff]
  simp [live, and_assoc, or_iff_not_imp_left]

theorem wbStart_idle {w : W} (live : w.dev.log.lstate ≠ 4) (no : ¬ w.wbReady) : w.wbStart = w :=
  if_pos (by rw [← Bool.not_eq_false, wbHeld_eq_false_iff live]; exact no)

/-- The record is composed, and the highest page of the slot that is not current goes first. -/
theorem wbStart_starts {w : W} (live : w.dev.log.lstate ≠ 4) (starts : w.wbReady) : w.wbStart = { w with
    dev.sup.defer := w.dev.sup.defer.filter (fun d => d != .writeback)
    dev.bd.probe := { w.dev.bd.probe with
      phase := 3, wbTarget := if w.dev.idn.slot = 1 then 1 else 0, wbRec := w.wbRecord, wbPage := 64 / w.bcfg.id.pageBytes - 1, wbTry := 0 }
    dev.idn := { w.dev.idn with
      wbState := 2, wbStep := 4, wbTarget := if w.dev.idn.slot = 1 then 1 else 0, wbRec := w.wbRecord, wbResult := 0 } } :=
  if_neg (ne_true_of_eq_false ((wbHeld_eq_false_iff live).2 starts))

/-- A composed record of 64 bytes begins with the next LOGSEQ and ends with its check value. -/
theorem wbRecord_fields {w : W} (notes : w.dev.idn.notes.length = 8) : w.wbRecord.length = 64 ∧
    at' w.wbRecord 0 4 = (w.dev.idn.logseq + 1) % 2 ^ 32 ∧ at' w.wbRecord 62 2 = crc16 (w.wbRecord.take 62) % 65536 := by
  obtain ⟨b, len, composed, seq⟩ := wbRec_at w notes
  rw [composed]
  refine ⟨by rw [List.length_append, len, length_le], ?_, ?_⟩
  · rw [at', List.drop_zero, List.take_append_of_le_length (by omega), seq, leN_le4]
  · rw [at', List.drop_left' len, List.take_left' len, List.take_of_length_le (length_le _ _).le, leN_le2]

/-! ## The end (R338) -/

/-- The time limit or a failed verify read ends the write-back with its result and raises ID_MEDIA. -/
theorem wbEnd_raises {s : State} {f : W → W} {result detail : Nat} (r : s.rack) (calm : s.calm 0x5B dUnit)
    (e : f (load s) = ((load s).wbEnd result).idMedia detail) :
    ∃ t, rackRun f s = .next t ∧
      t = (({ s with dev.idn.wbState := 0, dev.idn.wbResult := result, dev.bd.probe.phase := 0 } : State).raised t) := by
  refine rackRun_raised (v := (load s).wbEnd result) r ?_ rfl r.2
  rw [e]
  exact calm_raiseU' 0x5B detail calm

/-- A write-back that ends well adds a line to those that the unit commits itself, and makes its target the current slot. -/
theorem wbVerify_done {w : W} (running : w.dev.idn.wbState = 2) (step : w.dev.idn.wbStep = 5) : w.wbVerify w.dev.idn.wbRec = w.wbDone := by
  refine (if_neg ?_).trans (if_pos rfl)
  simp [running, step]

section
variable {w : W} (running : w.dev.idn.wbState = 2) (step : w.dev.idn.wbStep = 5) {bs : List Byte} (differs : bs ≠ w.dev.idn.wbRec)
include running step differs

theorem wbVerify_repeats (first : w.dev.bd.probe.wbTry = 0) : w.wbVerify bs =
    (w.modProbe (fun p => { p with wbTry := 1, wbPage := 64 / w.bcfg.id.pageBytes - 1 })).modIdn (fun i => { i with wbStep := 4 }) := by
  refine (if_neg ?_).trans ((if_neg differs).trans (if_pos first))
  simp [running, step]

theorem wbVerify_fails (second : w.dev.bd.probe.wbTry ≠ 0) : w.wbVerify bs = (w.wbEnd 4).idMedia 4 := by
  refine (if_neg ?_).trans ((if_neg differs).trans (if_neg second))
  simp [running, step]

end

/-- An ACK sends the next lower page, or after the page that holds SEQ the verify read. -/
theorem wbPoll_acked {w : W} (running : w.dev.idn.wbState = 2) (step : w.dev.idn.wbStep = 4) : w.wbPoll true =
    if w.dev.bd.probe.wbPage = 0 then w.modIdn (fun i => { i with wbStep := 5 }) else w.modProbe (fun p => { p with wbPage := p.wbPage - 1 }) := by
  refine (if_neg ?_).trans (if_neg (by simp))
  simp [running, step]

/-- Settles O52: a request is pending or deferred (`wbRequest_pending`, `wbRequest_deferred`), the start composes the record (`wbRecord_fields`), and the
write-back ends in `wbDone_own` or `wbEnd_raises`. That its steps 1 to 3 are part of the command that sends a page, so that WB_STEP shows 4 and 5, and that
a completed write-back begins the counts of ATTACHES and RUN_H anew, are the model's choices (log entries 80 and 81). -/
theorem writeBacks : Obligations.WriteBacks := by
  unfold Obligations.WriteBacks
  intro s u note key r i p vb3 allowed starts pages
  have may : allowed → (load s).wbAllowed = true := fun ok => (wbAllowed_iff (load s)).2 ok
  refine ⟨fun hw no => ?denied, fun hw ok up notice => ?pending, fun hw ok held => ?deferred,
    fun no => rack_next r (load s) (wbStart_idle r.2 no) rfl r.2, fun ok notes => ?starts,
    fun idle => ⟨fun a => rack_next r (f := fun w => w.wbPoll a) (load s) (if_pos idle) rfl r.2, ?noTimeout⟩,
    fun running step => ⟨?nack, ?ack, fun calm => ?timeout⟩,
    fun idle bs => rack_next r (f := fun w => w.wbVerify bs) (load s) (if_pos idle) rfl r.2,
    fun running step => ⟨?verified, fun bs differs first => ?repeats, fun bs differs second calm => ?fails⟩⟩
  case denied =>
    refine idnWb_denied r hw (no.imp_right (Or.imp_right fun bad => ?_))
    rw [← Bool.not_eq_true, wbAllowed_iff]
    exact bad
  case pending => exact idnWb_requests r hw (may ok) (wbRequest_pending note notice ((vb3Good_iff _).2 up)) rfl r.2
  case deferred =>
    refine idnWb_requests r hw (may ok) (wbRequest_deferred note (held.imp_left fun bad => ?_)) rfl r.2
    rw [← Bool.not_eq_true, vb3Good_iff]
    exact bad
  case starts => exact ⟨_, rack_next r _ (wbStart_starts r.2 ok) rfl r.2, rfl, wbRecord_fields (w := load s) notes⟩
  case noTimeout =>
    refine rack_next r (f := W.wbTimeout) (load s) (if_neg (fun h => ?_)) rfl r.2
    exact idle.elim (fun k => k h.1) (fun k => k h.2)
  case nack =>
    refine rack_next r (f := fun w => w.wbPoll false) ((load s).modProbe (fun p => { p with nacks := satAdd 8 p.nacks 1 })) ((if_neg ?_).trans (if_pos rfl)) rfl r.2
    exact fun h => h.elim (fun k => k running) (fun k => k step)
  case ack =>
    have acked := wbPoll_acked (w := load s) running step
    by_cases last : p.wbPage = 0
    · rw [if_pos last]
      exact rack_next r (f := fun w => w.wbPoll true) _ (acked.trans (if_pos last)) rfl r.2
    · rw [if_neg last]
      exact rack_next r (f := fun w => w.wbPoll true) _ (acked.trans (if_neg last)) rfl r.2
  case timeout => exact wbEnd_raises r (f := W.wbTimeout) calm (if_pos ⟨running, step⟩)
  case verified =>
    obtain ⟨l, done⟩ := wbDone_own (load s) _ rfl
    exact ⟨_, rack_next r (f := fun w => w.wbVerify i.wbRec) _ ((wbVerify_done running step).trans done) rfl r.2, rfl, List.prefix_append _ _⟩
  case repeats => exact rack_next r (f := fun w => w.wbVerify bs) _ (wbVerify_repeats running step differs first) rfl r.2
  case fails => exact wbEnd_raises r (f := fun w => w.wbVerify bs) calm (wbVerify_fails running step differs second)

end Sys2Proof.Machine

/-! The order log's commands: marks, the commit of the line being filled, FREEZE, ARM and LOAD. -/

namespace Sys2Proof.Machine

/-! ## Marks (R348, R352) -/

/-- A MARK entry: of the RECn pin (kind 0) or of a tenant (kind 1). -/
def markEntry (kind ten value : Nat) : List Nat := [packN [(0, 6, 0x14), (6, 1, kind), (7, 3, ten), (10, 16, value)], 0x3F]

theorem mark_logE (w : W) (kind ten value : Nat) : w.mark kind ten value = w.logE (markEntry kind ten value) := rfl

theorem logMark_next {s : State} {t : Ten} (r : s.rack) (hw : s.writer t) (v : BitVec 16) :
    exec (.logMark t v) s = .next (commit s ((load s).logE (markEntry 1 t.val v.toNat))).okAcc := by
  have marked : (load s).logMark t.val (v.toNat % 65536) = ((load s).logE (markEntry 1 t.val v.toNat), stOK) := by
    rw [keyed_toNat]
    exact congrArg (·, stOK) (mark_logE (load s) 1 t.val v.toNat)
  have recorded := (load s).logE_log (markEntry 1 t.val v.toNat)
  exact rackRun_next r (f := fun w => w.act t.val 0xB0014 v.toNat) (v := ((load s).logE (markEntry 1 t.val v.toNat)).ack stOK)
    ⟨log_act s t 0xB0014 _ hw (by decide) (by decide) (by decide) _ _ marked, logE_rq _ _, recorded.2 r.2⟩

/-- No RECn edge counts with RECEN = 0, or within 10 ms of the last. -/
theorem recn_none {w : W} (no : w.cfg.log.recen = false ∨ ∃ x, w.dev.log.lastRec = some x ∧ w.mono < x + 10000000) : w.recn = w := by
  refine if_pos ?_
  rcases no with h | ⟨x, last, soon⟩
  · simp [h]
  · simp [last, soon]

/-- Any other edge counts: it is recorded, and without RECTRIG that is all. -/
theorem recn_marks {w : W} (live : w.dev.log.lstate ≠ 4) (enabled : w.cfg.log.recen = true)
    (late : ¬ ∃ x, w.dev.log.lastRec = some x ∧ w.mono < x + 10000000) (noTrigger : w.cfg.log.rectrig = false) :
    w.recn = (w.modLog (fun g => { g with marks := satAdd 16 g.marks 1, lastRec := some w.mono })).logE
      (markEntry 0 0 (satAdd 16 w.dev.log.marks 1)) := by
  let counted := w.modLog (fun g => { g with marks := satAdd 16 g.marks 1, lastRec := some w.mono })
  have settings : (counted.logE (markEntry 0 0 (satAdd 16 w.dev.log.marks 1))).cfg = w.cfg := by
    rw [W.cfg, (counted.logE_log _).1]
    rfl
  have plain : w.recMark = counted.logE (markEntry 0 0 (satAdd 16 w.dev.log.marks 1)) := if_neg (by
    show ¬ (counted.logE (markEntry 0 0 (satAdd 16 w.dev.log.marks 1))).cfg.log.rectrig = true
    rw [settings, noTrigger]
    decide)
  rw [← plain]
  unfold W.recn
  rw [if_neg, if_neg live]
  cases last : w.dev.log.lastRec with
  | none => simp [enabled]
  | some x => simpa [enabled] using fun soon => late ⟨x, last, soon⟩

/-! ## The line being filled (R348) -/

section
variable {w : W} {o : OLine} {e : List Nat} (cur : w.dev.log.cur = some o) (last : o.ents.getLast? = some e)
include cur last

/-- The line stays open while its last entry is a REPEAT that still counts. -/
theorem commitCur_open (keeps : isRepeat e = true ∧ fld (nth e 0) 6 16 < 65535) : w.commitCur = if o.dirty then
    { (w.stageLog { line := oLine o.oseq, data := o.bytes, order := true }).1 with dev.log.cur := some { o with dirty := false } } else w := by
  unfold W.commitCur
  simp only [cur, last]
  exact if_pos keeps

theorem commitCur_closes (ends : ¬ (isRepeat e = true ∧ fld (nth e 0) 6 16 < 65535)) : w.commitCur =
    { (w.stageLog { line := oLine o.oseq, data := o.bytes, order := true, count := true }).1 with dev.log.cur := none } := by
  unfold W.commitCur
  simp only [cur, last]
  rw [if_neg ends, W.closeLine, cur]

end

/-! ## LOG_CTRL (R351, R355) -/

theorem mayLoad_iff (d : Dev) : d.mayLoad = true ↔ d.fus.lcs = 0 ∨ (d.fus.lcs = 1 ∧ d.fus.odd = false) ∨ (d.fus.lcs = 3 ∧ d.fus.vdbg = true) := by
  simp [Dev.mayLoad, or_assoc]

/-- `u` is `s` after an action on the order log that answers OK and leaves the log as `g`, but for the lines still to be marked by a GAP line. -/
def State.logActed (s : State) (g : OrderLog) (u : State) : Prop :=
  u = s.okAcc.logged u ∧ u.dev.log = { g with gapLines := u.dev.log.gapLines }

section
variable {s : State} {t : Ten} {key : BitVec 16} {n : Nat} (r : s.rack) (hw : s.writer t)
include r hw

theorem logCtrl_next {x : W} {st : Nat} (k : (load s).logCtrl t.val (keyed key n) = (x, st)) (q : x.rq = []) (live : x.dev.log.lstate ≠ 4) :
    writeRun t 0xB0000 (keyed key n) s = .next (commit s (x.ack st)) :=
  rackRun_next r (f := fun w => w.act t.val 0xB0000 (keyed key n)) (v := x.ack st) ⟨ctrl_act s t key n hw x st k, q, live⟩

/-- Only TS with the key acts. -/
theorem logCtrl_denied (small : n < 65536) (no : t ≠ 4 ∨ key ≠ 0x4D42) : writeRun t 0xB0000 (keyed key n) s = .next s.denied :=
  logCtrl_next r hw (ctrl_denied (load s) t key n small no) rfl r.2

/-- An action that changes the log alone. -/
theorem logCtrl_acts {x : W} {g : OrderLog} (k : (load s).logCtrl t.val (keyed key n) = (x, stOK)) (same : (load s).SameButLog x)
    (log : x.dev.log = { g with gapLines := x.dev.log.gapLines }) : ∃ u, writeRun t 0xB0000 (keyed key n) s = .next u ∧ s.logActed g u := by
  refine ⟨_, logCtrl_next r hw k ?_ (same.2 r.2), commit_logged s ((load s).ack stOK) _ (same.ack stOK), log⟩
  rw [same.1]
  rfl

end

theorem freeze_frozen {w : W} (recording : w.dev.log.lstate ≤ 1) : w.freeze = w.freezeLog := if_pos (decide_eq_true recording)

theorem freeze_idle {w : W} (idle : 1 < w.dev.log.lstate) : w.freeze = w := if_neg (by simp [OrderLog.recording, idle])

theorem armLog_log (w : W) : w.SameButLog w.armLog := by
  unfold W.armLog
  split
  · exact W.SameButLog.trans (b := w.modLog (fun g => { g with lstate := 0, toseq := 0, foseq := 0 })) ⟨rfl, fun _ => by simp⟩ (W.logHeader_log _)
  · exact .refl w

theorem armLog_runs {w : W} (out : w.dev.log.lstate = 2 ∨ w.dev.log.lstate = 3) :
    w.armLog.dev.log = { w.dev.log with lstate := 0, toseq := 0, foseq := 0, gapLines := w.armLog.dev.log.gapLines } := by
  rw [W.armLog, if_pos out]
  exact header_log _

theorem loadLog_log (w : W) : w.SameButLog w.loadLog := by
  unfold W.loadLog
  split
  · exact (w.closeLine_log.trans (b := w.closeLine) (c := w.closeLine.modLog (fun g => { g with lstate := 3 })) ⟨rfl, fun _ => by simp⟩).trans
      (W.logHeader_log _)
  · exact .refl w

/-- The line being filled is committed before the log leaves RUN for LOAD. -/
theorem loadLog_loads {w : W} (from' : w.dev.log.lstate = 0 ∨ w.dev.log.lstate = 2) :
    w.loadLog.dev.log = { w.dev.log with lstate := 3, cur := none, gapLines := w.loadLog.dev.log.gapLines } := by
  rw [W.loadLog, if_pos from', header_log]
  simp only [W.modLog_dev]
  rw [closeLine_cur]

/-- Settles O55: a mark is one entry (`logE_commits`), the line being filled is staged where there is room (`stage_room`), and each action of LOG_CTRL
changes the log alone (`logCtrl_acts`). That FREEZE, ARM and LOAD complete OK and change nothing in a state that Table 18.7 gives them no exit from, and
that ARM sets TOSEQ and FOSEQ to 0, are the model's choices (log entry 91). -/
theorem orderLogCommands : Obligations.OrderLogCommands := by
  unfold Obligations.OrderLogCommands
  intro s t key r g c soon entry joins goes mayLoad
  have awake : s.awake := ⟨rack_awake r, r.2⟩
  have may : s.dev.mayLoad = true ↔ mayLoad := mayLoad_iff s.dev
  refine ⟨fun v hw => ⟨_, logMark_next r hw v, _, rfl, logE_commits s s.dev _ r.2⟩, fun no => rack_next r (load s) (recn_none no) rfl r.2,
    fun enabled late noTrigger => ?marks, fun none => ?noLine, fun o e cur last => ?commits,
    fun hw no => ⟨logCtrl_denied r hw (by decide) no, logCtrl_denied r hw (by decide) no, logCtrl_denied r hw (by decide) no⟩,
    fun hw => ⟨fun recording => ?freezes, fun idle => ?frozen, fun out => ?arms, fun notFrozen notLoading => ?armed, fun ok from' => ?loads,
      fun ok notRun notFrozen => ?loaded, fun bad => ?denied⟩⟩
  case marks =>
    exact ⟨_, rack_next r _ (recn_marks (w := load s) r.2 enabled late noTrigger) (logE_rq _ _) ((W.logE_log _ _).2 r.2),
      logE_commits s { s.dev with log := { s.dev.log with marks := satAdd 16 s.dev.log.marks 1, lastRec := some s.dev.tim.mono } } _ r.2⟩
  case noLine =>
    refine awakeRun_next awake (f := W.commitCur) (v := load s) ⟨?_, rfl, r.2⟩
    rw [W.commitCur, load_dev, none]
  case commits =>
    intro keeps line room
    refine ⟨fun keep clean => ?kept, fun keep dirty free => ?written, fun ends free => ?closed⟩
    case kept => exact awakeRun_next awake (f := W.commitCur) (v := load s) ⟨(commitCur_open cur last keep).trans (if_neg (by simp [clean])), rfl, r.2⟩
    case written =>
      have staged := (commitCur_open (w := load s) cur last keep).trans (if_pos dirty)
      rw [stage_room _ _ free.1 free.2] at staged
      exact awakeRun_next awake (f := W.commitCur) ⟨staged, rfl, r.2⟩
    case closed =>
      have staged := commitCur_closes (w := load s) cur last ends
      rw [stage_room _ _ free.1 free.2] at staged
      exact awakeRun_next awake (f := W.commitCur) ⟨staged, rfl, r.2⟩
  case freezes =>
    have e : (load s).freeze = (load s).freezeLog := freeze_frozen recording
    exact logCtrl_acts r hw (ctrl_at (load s) 1 ((load s).freezeLog, stOK) (congrArg (·, stOK) e) (by decide)) (W.freezeLog_log _) (frozen_log _)
  case frozen =>
    have e : (load s).freeze = load s := freeze_idle idle
    exact logCtrl_next r hw (ctrl_at (load s) 1 (load s, stOK) (congrArg (·, stOK) e) (by decide)) rfl r.2
  case arms => exact logCtrl_acts r hw (ctrl_at (load s) 2 _ rfl (by decide)) (armLog_log _) (armLog_runs out)
  case armed =>
    have e : (load s).armLog = load s := if_neg (fun h => h.elim notFrozen notLoading)
    exact logCtrl_next r hw (ctrl_at (load s) 2 (load s, stOK) (congrArg (·, stOK) e) (by decide)) rfl r.2
  case loads => exact logCtrl_acts r hw (ctrl_at (load s) 4 _ (if_pos (may.2 ok)) (by decide)) (loadLog_log _) (loadLog_loads from')
  case loaded =>
    have e : (load s).loadLog = load s := if_neg (fun h => h.elim notRun notFrozen)
    exact logCtrl_next r hw (ctrl_at (load s) 4 (load s, stOK) ((if_pos (may.2 ok)).trans (congrArg (·, stOK) e)) (by decide)) rfl r.2
  case denied => exact logCtrl_next r hw (ctrl_at (load s) 4 (load s, stDENIED) (if_neg (fun h => bad (may.1 h))) (by decide)) rfl r.2

end Sys2Proof.Machine

/-! Replay: GO and its refusals, ABORT, and the end of RWAIT. -/

namespace Sys2Proof.Machine

/-! ## Refusals of GO (R356, Table 18.10) -/

/-- The line at RPL_SRC is a valid START line. -/
def W.goStartLine (w : W) : Prop :=
  let l := w.line (oLine w.dev.rpl.src)
  w.dev.rpl.src ≠ 0 ∧ at' l 0 4 = w.dev.rpl.src ∧ at' l 12 1 = 1 ∧ lcrcOk l = true

/-- It names this unit's revision. -/
def W.goStartRevision (w : W) : Prop := at' (w.line (oLine w.dev.rpl.src)) 24 2 = w.dev.revId

/-- It names the woven image. -/
def W.goStartImage (w : W) : Prop := w.dev.img.woven = true ∧ at' (w.line (oLine w.dev.rpl.src)) 20 4 = w.cfg.imgcrc.toNat

theorem revId_val (d : Dev) : d.revId = 0x02 + 0x100 * (if d.bar.bstepSeen then 0x02 else 0) := by
  rw [Dev.revId]
  cases d.bar.bstepSeen <;> rfl

section
variable {w : W}

theorem goRefused_state (no : ¬ w.dev.mayLoad = true) : w.goRefused = some 1 := if_pos (by simpa using no)

variable (may : w.dev.mayLoad = true)
include may

theorem goRefused_log (no : w.dev.log.lstate ≠ 3) : w.goRefused = some 5 := by
  rw [W.goRefused, if_neg (by simp [may]), if_pos no]

variable (loading : w.dev.log.lstate = 3)
include loading

theorem goRefused_start (no : ¬ w.goStartLine) : w.goRefused = some 2 := by
  rw [W.goRefused, if_neg (by simp [may]), if_neg (not_not.2 loading), if_pos]
  by_contra h
  simp only [not_or, not_not, Bool.not_eq_true', Bool.not_eq_false] at h
  exact no h

variable (start : w.goStartLine)
include start

theorem goRefused_started : w.goRefused =
    if at' (w.line (oLine w.dev.rpl.src)) 24 2 ≠ w.dev.revId then some 3
    else if !w.dev.img.woven ∨ at' (w.line (oLine w.dev.rpl.src)) 20 4 ≠ w.cfg.imgcrc.toNat then some 4
    else none := by
  obtain ⟨set, oseq, type, crc⟩ := start
  rw [W.goRefused, if_neg (by simp [may]), if_neg (not_not.2 loading), if_neg (by simp [set, oseq, type, crc])]

theorem goRefused_revision (no : ¬ w.goStartRevision) : w.goRefused = some 3 := (goRefused_started may loading start).trans (if_pos no)

variable (revision : w.goStartRevision)
include revision

theorem goRefused_revised : w.goRefused = if !w.dev.img.woven ∨ at' (w.line (oLine w.dev.rpl.src)) 20 4 ≠ w.cfg.imgcrc.toNat then some 4 else none :=
  (goRefused_started may loading start).trans (if_neg (not_not.2 revision))

theorem goRefused_image (no : ¬ w.goStartImage) : w.goRefused = some 4 := by
  rw [goRefused_revised may loading start revision, if_pos]
  by_contra h
  simp only [not_or, not_not, Bool.not_eq_true', Bool.not_eq_false] at h
  exact no h

theorem goRefused_none (image : w.goStartImage) : w.goRefused = none := by
  rw [goRefused_revised may loading start revision, if_neg (by simp [image.1, image.2])]

end

/-! ## What GO does -/

theorem goLog_refused {w : W} {r : Nat} (refused : w.goRefused = some r) (out : w.dev.log.lstate < 4) :
    w.goLog = (w.modRpl (fun x => { x with rstate := 4, reason := r }), stDENIED) := by
  rw [W.goLog, refused]
  exact congrArg (·, stDENIED) (if_neg (Nat.not_le.2 out))

theorem goLog_held {w : W} (taken : w.goRefused = none) (notice : w.dev.sup.notice = true) :
    w.goLog = ((w.modRst (fun r => { r with softWait := some 256 })).modSup (fun s => { s with defer := s.defer ++ [.soft] }), stOK) := by
  rw [W.goLog, taken]
  exact if_pos notice

theorem goLog_asks {w : W} (taken : w.goRefused = none) (calm : w.dev.sup.notice = false) : w.goLog = (w.ask (.soft 256), stOK) := by
  rw [W.goLog, taken]
  exact if_neg (by simp [calm])

section
variable {s : State} (r : s.rack) (hw : s.writer 4)
include r hw

/-- A refused GO reports its reason in the replay record and answers DENIED. -/
theorem go_refused (out : s.dev.log.lstate < 4) {n : Nat} (refused : (load s).goRefused = some n) :
    exec (.go 4 0x4D42) s = .next ({ s with dev.rpl.rstate := 4, dev.rpl.reason := n } : State).denied :=
  logCtrl_next r hw (ctrl_at (load s) 8 _ (goLog_refused refused out) (by decide)) rfl r.2

theorem go_held (taken : (load s).goRefused = none) (notice : s.dev.sup.notice = true) :
    exec (.go 4 0x4D42) s = .next (({ s with dev.rst.softWait := some 256, dev.sup.defer := s.dev.sup.defer ++ [Deferred.soft] } : State).okAcc) :=
  logCtrl_next r hw (ctrl_at (load s) 8 _ (goLog_held taken notice) (by decide)) rfl r.2

/-- An accepted GO is served before its meaning ends. -/
theorem go_served (taken : (load s).goRefused = none) (calm : s.dev.sup.notice = false) {x : W} (served : ((load s).ack stOK).goNow = x) (rq : x.rq = [])
    (rx : x.dev.hpt.rx = []) : exec (.go 4 0x4D42) s = .next (commit s x) := by
  have asked : (load s).act 4 0xB0000 (keyed 0x4D42 8) = ((load s).ask (.soft 256)).ack stOK :=
    ctrl_act s 4 0x4D42 8 hw _ stOK (ctrl_at (load s) 8 _ (goLog_asks taken calm) (by decide))
  have taken : ({ ((load s).ask (.soft 256)).ack stOK with rq := [] } : W).goNow = x := (congrArg W.goNow (show _ = (load s).ack stOK from rfl)).trans served
  have closed : (((load s).ask (.soft 256)).ack stOK).close = x :=
    (serve_go _ rfl (by rw [taken]; exact rq) (by rw [taken]; exact rx)).trans taken
  have ran : onRack (fun w => w.act 4 0xB0000 (keyed 0x4D42 8)) (load s) = ((load s).ask (.soft 256)).ack stOK := (if_pos r.1).trans asked
  show Host.Outcome.next (commit s (onRack (fun w => w.act 4 0xB0000 (keyed 0x4D42 8)) (load s)).close) = _
  rw [ran, closed]

end

/-- The unit as an accepted GO finds it where its restart is stated: nothing staged, no valid bank record, and nothing in the way of a soft reset. -/
def State.goQuiet (s : State) : Prop :=
  s.dev.sto = {} ∧ (load s).bankRec 0 = none ∧ (load s).bankRec 1 = none ∧ s.dev.fus.lcs ≠ 3 ∧ s.dev.pai.role ≠ 3 ∧ s.dev.bd.runs = true ∧ s.dev.rst.softWait = none ∧
  s.dev.idn.astate ≠ 1 ∧ s.dev.idn.wbState ≠ 2 ∧ s.dev.ring.up.st = 0 ∧ s.dev.ring.dn.st = 0 ∧ s.dev.flt.stopped dUnit = false

/-- `u` is `s` restarted from the START line `l`: its time, its ring address and its reset cause, and what a soft reset empties and keeps. -/
def State.replayBegun (s : State) (l : List Byte) (u : State) : Prop :=
  u.dev.tim.now = at' l 4 8 ∧ u.dev.tim.mono = at' l 26 8 ∧ u.dev.tim.state = fld (at' l 19 1) 2 2 ∧ u.dev.tim.tset = tbit (at' l 18 1) 7 ∧
  u.dev.tim.fcorr = clampF (toInt 32 (at' l 38 4)) ∧ u.dev.ring.addr = at' l 17 1 ∧ u.dev.rst.last = at' l 16 1 % 16 ∧
  u.dev.rst.softResets = satAdd 8 s.dev.rst.softResets 1 ∧ u.dev.pool = {} ∧ u.dev.sup.mode = 0 ∧ u.dev.img.woven = false ∧ u.dev.bd.core = true ∧
  u.dev.bd.tabs = false ∧ u.dev.acc.status = stOK ∧ u.dev.fus = s.dev.fus ∧ u.dev.pins = s.dev.pins ∧ u.fuses = s.fuses ∧ u.bufs = s.bufs ∧ u.pending = s.pending

/-- The restart that an accepted GO asks for: known up to the raise of the missing image (`goNow_at`). -/
theorem goNow_begins {s : State} (notice : s.dev.sup.notice = false) (loading : s.dev.log.lstate = 3) (quiet : s.goQuiet) :
    let u := ((load s).ack stOK).goNow
    u.rq = [] ∧ u.dev.hpt.rx = [] ∧ s.replayBegun ((load s).line (oLine s.dev.rpl.src)) (commit s u) := by
  obtain ⟨sto, rec0, rec1, lcs, role, runs, -, astate, wb, up, dn, go⟩ := quiet
  obtain ⟨v, raised, rq, -, blow, -, bout, acc, rx, now, mono, state, tset, fcorr, addr, last, resets, pool, mode, woven, core, tabs, fus, pins⟩ :=
    goNow_at ((load s).ack stOK) sto notice rec0 rec1 lcs role runs astate wb up dn loading go
  dsimp only
  generalize ((load s).ack stOK).goNow = u at raised ⊢
  obtain ⟨rst', img', pool', -, bd', -, tim', fus', pins', acc', -, _, sup'⟩ := raised.blocks
  obtain ⟨rq', blow', bout'⟩ := raised.writes
  have rx' : u.dev.hpt.rx = v.dev.hpt.rx := by rw [raised.1]
  have addr' : u.dev.ring.addr = v.dev.ring.addr := by rw [raised.1]
  refine ⟨rq'.trans rq, rx'.trans rx, ?_⟩
  rw [State.replayBegun, commit_dev, commit_fuses, commit_bufs, commit_pending, tim', rst', img', pool', bd', fus', pins', acc', sup', addr', blow', blow, bout', bout, acc]
  exact ⟨now, mono, state, tset, fcorr, addr, last, resets, pool, mode, woven, core, tabs, rfl, fus, pins, rfl, rfl, rfl⟩

/-! ## The end of a replay (R360) -/

/-- With an entry expected, the end of RWAIT stops the replay and names it. -/
theorem rwait_stops {w : W} {e : List Nat} {k : Nat} {rest : List RItem} (replay : w.dev.log.lstate = 4) (expected : w.dev.rpl.items = .ent e k :: rest) :
    w.rwait = ({ w with dev.freeCtr := w.dev.freeCtr + 1 } : W).rplStop 3 9 (fld (nth e 0) 0 6) k (nth e 0) (Config.free w.dev.freeCtr).toNat := by
  have front : w.rplExpect = (w, some e) := by
    have same : ({ w with dev.rpl.items := .ent e k :: rest } : W) = w := by rw [← expected]
    have head : w.dev.rpl.head = some (e, k) := by rw [Replay.head, expected]
    unfold W.rplExpect
    rw [if_neg (not_not.2 replay)]
    simp only [expected, unfoldRep, same, List.isEmpty_cons, Bool.false_eq_true, if_false, head, Option.map_some]
  unfold W.rwait
  simp only [front]
  rw [Replay.head, expected]
  rfl

theorem rwait_idle {w : W} (live : w.dev.log.lstate ≠ 4) : w.rwait = w := by
  rw [W.rwait, W.rplExpect, if_pos live]

/-- A command on the rack die that ends in a stop of the replay. -/
theorem rackRun_stops {s : State} (on : s.dev.rackOn = true) {f : W → W} {a v : W} (same : a.SameButLog v) (ends : f (load s) = v) (rq : a.rq = [])
    (stopped : v.dev.log.lstate = 5) : rackRun f s = .next (commit s v) ∧ commit s v = (commit s a).logged (commit s v) := by
  refine ⟨?_, commit_logged s a v same⟩
  rw [← ends]
  refine rackRun_quiet f s on ?_ ?_ <;> rw [ends]
  · rw [same.1]
    exact rq
  · rw [stopped]
    decide

/-- Settles O56: each condition of GO that fails gives its reason (`goRefused_state` to `goRefused_image`), an accepted GO is held or served at once
(`go_held`, `go_served`), and ABORT and the end of RWAIT stop a replay through `rackRun_stops`. The observed word is the open value of log entry 2. That the
write completes OK before its restart, the order of the refusal reasons, the values that the restart takes from the START line, and the OK of an ABORT without
an exit are the model's choices (log entries 55, 90 and 91). -/
theorem replay : Obligations.Replay := by
  unfold Obligations.Replay
  intro s t key on g q l mayLoad start revision image refused quiet stops
  have may : s.dev.mayLoad = true ↔ mayLoad := mayLoad_iff s.dev
  have revised : (load s).goStartRevision ↔ revision := by
    rw [W.goStartRevision, revId_val]
    rfl
  refine ⟨fun hw live no => ?denied, fun hw out => ?go, fun hw ok live => ?idle, fun hw ok replay => ?abort, fun live => ?waits, fun e k rest replay items => ?rwait⟩
  case denied => exact ⟨logCtrl_denied ⟨on, live⟩ hw (by decide) no, logCtrl_denied ⟨on, live⟩ hw (by decide) no⟩
  case go =>
    have r : s.rack := ⟨on, Nat.ne_of_lt out⟩
    refine ⟨fun no => ⟨go_refused r hw out (goRefused_state (fun h => no (may.1 h))),
        logCtrl_next r hw (ctrl_at (load s) 16 (load s, stDENIED) (if_neg (fun h => no (may.1 h))) (by decide)) rfl r.2⟩,
      fun ok no => go_refused r hw out (goRefused_log (may.2 ok) no),
      fun ok loading no => go_refused r hw out (goRefused_start (may.2 ok) loading no),
      fun ok loading first no => go_refused r hw out (goRefused_revision (may.2 ok) loading first (fun h => no (revised.1 h))),
      fun ok loading first same no => go_refused r hw out (goRefused_image (may.2 ok) loading first (revised.2 same) no),
      fun ok loading first same woven => ?accepted⟩
    have taken : (load s).goRefused = none := goRefused_none (may.2 ok) loading first (revised.2 same) woven
    refine ⟨go_held r hw taken, fun notice still => ?_⟩
    obtain ⟨rq, rx, begun⟩ := goNow_begins notice loading still
    exact ⟨_, go_served r hw taken notice rfl rq rx, begun⟩
  case idle =>
    have e : (load s).abortLog = load s := if_neg live
    exact logCtrl_next ⟨on, live⟩ hw (ctrl_at (load s) 16 (load s, stOK) ((if_pos (may.2 ok)).trans (congrArg (·, stOK) e)) (by decide)) rfl live
  case abort =>
    have e : (load s).abortLog = (load s).rplStop 2 12 0 0 0 0 := if_pos replay
    obtain ⟨same, log, rpl⟩ := rplStop_at (load s) 2 12 0 0 0 0
    have ends := ctrl_act s 4 0x4D42 16 hw _ stOK (ctrl_at (load s) 16 _ ((if_pos (may.2 ok)).trans (congrArg (·, stOK) e)) (by decide))
    obtain ⟨next, logged⟩ := rackRun_stops on (f := fun w => w.act 4 0xB0000 (keyed 0x4D42 16)) (same.ack stOK) ends rfl (congrArg OrderLog.lstate log)
    exact ⟨_, next, logged, log, rpl⟩
  case waits => exact rack_next ⟨on, live⟩ (load s) (rwait_idle live) rfl live
  case rwait =>
    obtain ⟨same, log, rpl⟩ := rplStop_at ({ load s with dev.freeCtr := s.dev.freeCtr + 1 } : W) 3 9 (fld (nth e 0) 0 6) k (nth e 0) (Config.free s.dev.freeCtr).toNat
    obtain ⟨next, logged⟩ := rackRun_stops on same (rwait_stops (w := load s) replay items) rfl (congrArg OrderLog.lstate log)
    exact ⟨_, next, logged, log, rpl⟩

end Sys2Proof.Machine
